-- ==== Sys2Proof/Word.lean ====
section
/-! DEFINITION. Words of the VH8860: 64-bit registers and addresses (R7), bytes, vector registers. -/

namespace Sys2Proof

/-- A 64-bit word: a scalar register, an address, an instruction word (R39, R83). -/
abbrev Word := BitVec 64

/-- A byte. -/
abbrev Byte := BitVec 8

/-- A vector register: 64 lanes of 32 bits (R39). Lane i is bits 32 i + 31 .. 32 i. -/
abbrev VWord := BitVec 2048

end Sys2Proof
end

