-- ==== Sys2Proof/Syntax.lean ====
section
/-! DEFINITION. The instructions and device events of spec/opcode_table.json: one constructor per row. -/

namespace Sys2Proof

/-- The scope of a release or an acquire (R17, R89, R94). -/
inductive Scope where
  | group | device | system
  deriving DecidableEq, Repr

/-- Which extension word follows the base word (R93). -/
inductive ExtKind where
  | none | sync | imm | eng
  deriving DecidableEq, Repr

/-- A signal field: counter slot, increment 1 to 255, and WHEN (R94). -/
structure Sig where
  slot : BitVec 8
  inc : BitVec 8
  atIssue : Bool
  deriving DecidableEq, Repr

/-- What every instruction carries: its extension word's kind, its wait, its signal and its one scope (R15, R17). -/
structure Sync where
  ext : ExtKind
  wait : Option (BitVec 8)
  sig : Option Sig
  scope : Scope
  deriving DecidableEq, Repr

abbrev XReg := BitVec 6
abbrev VReg := BitVec 6
abbrev KReg := BitVec 3
abbrev TReg := BitVec 5
abbrev BReg := BitVec 2

/-- TYPE and FROM codes (R85). -/
inductive Ty where
  | i8 | i16 | i32 | i64 | u8 | u16 | u32 | u64 | f16 | bf16 | f32 | f64 | e4m3 | e5m2
  deriving DecidableEq, Repr

/-- Rounding modes (R84, R119). -/
inductive Rnd where
  | dyn | rne | rtz | rdn | rup | rna | rsr
  deriving DecidableEq, Repr

/-- SIZE of a memory access (R87). -/
inductive Size where
  | b | h | w | d
  deriving DecidableEq, Repr

/-- SPACE of a memory access (R87). -/
inductive Space where
  | global | loc
  deriving DecidableEq, Repr

/-- AOP (R87). -/
inductive AOp where
  | swap | add | and | or | xor | min | max | fadd
  deriving DecidableEq, Repr

/-- COND of BR (R88). -/
inductive Cond where
  | eq | ne | lt | ge | ltu | geu
  deriving DecidableEq, Repr

/-- Predicates of FCMP and VCMP (R99). -/
inductive Pred where
  | eq | ne | lt | le | gt | ge | un
  deriving DecidableEq, Repr

/-- `.op` of VRED and VSCAN (R99). -/
inductive ROp where
  | add | min | max | and | or | xor
  deriving DecidableEq, Repr

/-- Extents of ICINV (R89). -/
inductive Extent where
  | core | cluster | die | device
  deriving DecidableEq, Repr

/-- The operand of LD and ST: base plus displacement, or base plus register (R87). -/
inductive Addr1 where
  | disp (d : Word)
  | reg (b : XReg)
  deriving DecidableEq, Repr

/-- The operand of VLD and VST: unit stride, strided, indexed (R87, R485). -/
inductive AddrV where
  | unit (d : Word)
  | strided (d : Word) (s : XReg)
  | indexed (d : Word) (v : VReg)
  deriving DecidableEq, Repr

/-- The operands of KMOV: FN 0, 1, 2 (R99). -/
inductive KMovForm where
  | kk (d a : KReg)
  | kx (d : KReg) (a : XReg)
  | xk (d : XReg) (a : KReg)
  deriving DecidableEq, Repr

/-- Where a Fresco command goes: REM 0, or REM 1 with NODE, CLUS, CIDX and the secret's register (R255, R258). -/
inductive Target where
  | here
  | remote (node clus : BitVec 8) (cidx : BitVec 6) (secret : XReg)
  deriving DecidableEq, Repr

/-- What a remote agent asks of this device (R176, R183). -/
inductive RemoteOp where
  | read (n : Nat)
  | write (data : List Byte)
  | amo (op : AOp) (sz : Size) (b : Word)
  | cas (sz : Size) (expect new : Word)
  | red (op : AOp) (sz : Size) (b : Word)
  | ctrAdd (amount : Nat) (gen : Option (BitVec 16))
  | ctrReset
  deriving DecidableEq, Repr

/-- An access that arrives from another device: the sending node, the network interface's die, the identifier of the sending
job, whether the packet authenticates, and the address (R176, R373, R379). -/
structure RemoteAcc where
  node : BitVec 8
  die : Nat
  job : Nat
  authentic : Bool
  va : Word
  op : RemoteOp
  deriving DecidableEq, Repr

/-- The strand that issued an engine operation: its context, its number in it, the order of the issue, its INDEX, and ERR, ASID
and number of its launch (R356). -/
structure AddIssuer where
  ctx : Nat
  life : Nat
  order : Nat
  index : BitVec 32
  err : Option (Word × BitVec 16 × BitVec 16)
  deriving DecidableEq, Repr

/-- An add that a party makes to a counter reference: the ASID in which it translates, the amount, the
generation it carries (R195, R207) and the party: agent number, the strand whose operation it is, die of the party. -/
structure AddReq where
  ref : Word
  asid : BitVec 16
  amount : Nat
  gen : Option (BitVec 16)
  agent : Nat
  issuer : Option AddIssuer
  die : Nat
  deriving DecidableEq, Repr

/-- The signal that a remote command carries: counter reference and generation as captured at its issue, amount, scope (R207,
R255). -/
structure RemoteSig where
  ref : Word
  gen : BitVec 16
  inc : BitVec 48
  scope : Scope
  deriving DecidableEq, Repr

/-- A remote Fresco command as it reaches a target engine: sending node, the network interface's die, the identifier of the sending
job, ASID of the issue, mode, entry, secret, signal, and the command's words (R255, R373). -/
structure RemoteCmd where
  cluster : Nat
  node : BitVec 8
  die : Nat
  job : Nat
  sig : Option RemoteSig
  asid : BitVec 16
  user : Bool
  cidx : BitVec 6
  secret : BitVec 48
  base : Word
  xa : Word
  xb : Word
  deriving DecidableEq, Repr

/-- A tagged launch message at the network ingress (R230, R445). -/
structure TagMsg where
  die : Nat
  job : Nat
  tag : Word
  payload : List Byte
  deriving DecidableEq, Repr

/-- Where an uncorrectable SRAM error lies (R361). -/
inductive UncPlace where
  | memory (pa n : Nat)
  | localStore (core addr n : Nat)
  | plane (cluster off n : Nat)
  | bank (cluster bank : Nat)
  | cell (core cell : Nat)
  | homeWord (pa : Nat)
  | context (agent : Nat)
  deriving DecidableEq, Repr

/-- A boot manifest of the management server (R375): the image location, the floor F, the image-signing keys by KEYID, and
the signature over these and a nonce, with the signer's public key. -/
structure Manifest where
  location : Word
  floor : Word
  keys : List (Nat × BitVec 256)
  nonce : BitVec 256
  publicKey : List Byte
  signature : List Byte
  deriving DecidableEq, Repr

/-- One row of spec/opcode_table.json each: first the instructions, then the device events. -/
inductive Instr where
  -- scalar integer (R391, R410, R438, R447, R449, R452, R453, R456, R457, R468, R494)
  | add (d a b : XReg) (sy : Sync)
  | addi (d a : XReg) (imm : Word) (sy : Sync)
  | sub (d a b : XReg) (sy : Sync)
  | mul (d a b : XReg) (sy : Sync)
  | mulh (d a b : XReg) (sy : Sync)
  | mulhu (d a b : XReg) (sy : Sync)
  | div (d a b : XReg) (sy : Sync)
  | divu (d a b : XReg) (sy : Sync)
  | rem (d a b : XReg) (sy : Sync)
  | remu (d a b : XReg) (sy : Sync)
  | and (d a b : XReg) (sy : Sync)
  | andi (d a : XReg) (imm : Word) (sy : Sync)
  | or (d a b : XReg) (sy : Sync)
  | ori (d a : XReg) (imm : Word) (sy : Sync)
  | xor (d a b : XReg) (sy : Sync)
  | xori (d a : XReg) (imm : Word) (sy : Sync)
  | shl (d a b : XReg) (sy : Sync)
  | shli (d a : XReg) (imm : Word) (sy : Sync)
  | shr (d a b : XReg) (sy : Sync)
  | shri (d a : XReg) (imm : Word) (sy : Sync)
  | sra (d a b : XReg) (sy : Sync)
  | srai (d a : XReg) (imm : Word) (sy : Sync)
  | slt (d a b : XReg) (sy : Sync)
  | sltu (d a b : XReg) (sy : Sync)
  | slti (d a : XReg) (imm : Word) (sy : Sync)
  | min (d a b : XReg) (sy : Sync)
  | max (d a b : XReg) (sy : Sync)
  | minu (d a b : XReg) (sy : Sync)
  | maxu (d a b : XReg) (sy : Sync)
  | clz (d a : XReg) (sy : Sync)
  | popc (d a : XReg) (sy : Sync)
  | sel (d a b c : XReg) (sy : Sync)
  | li (d : XReg) (imm : Word) (sy : Sync)
  | adr (d : XReg) (imm : Word) (sy : Sync)
  -- scalar floating point (R414 to R419, R423)
  | fadd (t : Ty) (r : Rnd) (d a b : XReg) (sy : Sync)
  | fsub (t : Ty) (r : Rnd) (d a b : XReg) (sy : Sync)
  | fmul (t : Ty) (r : Rnd) (d a b : XReg) (sy : Sync)
  | ffma (t : Ty) (r : Rnd) (d a b c : XReg) (sy : Sync)
  | fdiv (t : Ty) (r : Rnd) (d a b : XReg) (sy : Sync)
  | fsqrt (t : Ty) (r : Rnd) (d a : XReg) (sy : Sync)
  | fmin (t : Ty) (d a b : XReg) (sy : Sync)
  | fmax (t : Ty) (d a b : XReg) (sy : Sync)
  | fcmp (t : Ty) (p : Pred) (d a b : XReg) (sy : Sync)
  | fcvt (t f : Ty) (r : Rnd) (d a : XReg) (sy : Sync)
  | fclass (t : Ty) (d a : XReg) (sy : Sync)
  -- branches (R397, R398, R428, R437)
  | br (c : Cond) (a b : XReg) (off : Word) (sy : Sync)
  | j (off : Word) (sy : Sync)
  | jl (d : XReg) (off : Word) (sy : Sync)
  | jr (a : XReg) (off : Word) (sy : Sync)
  | jlr (d a : XReg) (off : Word) (sy : Sync)
  | loop (d : XReg) (off : Word) (sy : Sync)
  | bany (k : KReg) (off : Word) (sy : Sync)
  | ball (k : KReg) (off : Word) (sy : Sync)
  -- vector (R477 to R489)
  | vadd (t : Ty) (r : Rnd) (m : KReg) (d a b : VReg) (sy : Sync)
  | vsub (t : Ty) (r : Rnd) (m : KReg) (d a b : VReg) (sy : Sync)
  | vmul (t : Ty) (r : Rnd) (m : KReg) (d a b : VReg) (sy : Sync)
  | vfma (t : Ty) (r : Rnd) (m : KReg) (d a b c : VReg) (sy : Sync)
  | vmin (t : Ty) (m : KReg) (d a b : VReg) (sy : Sync)
  | vmax (t : Ty) (m : KReg) (d a b : VReg) (sy : Sync)
  | vand (t : Ty) (m : KReg) (d a b : VReg) (sy : Sync)
  | vor (t : Ty) (m : KReg) (d a b : VReg) (sy : Sync)
  | vxor (t : Ty) (m : KReg) (d a b : VReg) (sy : Sync)
  | vshl (t : Ty) (m : KReg) (d a b : VReg) (sy : Sync)
  | vshr (t : Ty) (m : KReg) (d a b : VReg) (sy : Sync)
  | vsra (t : Ty) (m : KReg) (d a b : VReg) (sy : Sync)
  | vabs (t : Ty) (m : KReg) (d a : VReg) (sy : Sync)
  | vneg (t : Ty) (m : KReg) (d a : VReg) (sy : Sync)
  | vrcp (t : Ty) (r : Rnd) (m : KReg) (d a : VReg) (sy : Sync)
  | vrsq (t : Ty) (r : Rnd) (m : KReg) (d a : VReg) (sy : Sync)
  | vexp2 (t : Ty) (r : Rnd) (m : KReg) (d a : VReg) (sy : Sync)
  | vlog2 (t : Ty) (r : Rnd) (m : KReg) (d a : VReg) (sy : Sync)
  | vsqrt (t : Ty) (r : Rnd) (m : KReg) (d a : VReg) (sy : Sync)
  | vcmp (t : Ty) (p : Pred) (m : KReg) (d : KReg) (a b : VReg) (sy : Sync)
  | vsel (m : KReg) (d a b : VReg) (sy : Sync)
  | vcvt (t f : Ty) (r : Rnd) (m : KReg) (d a : VReg) (sy : Sync)
  | vdot (t : Ty) (r : Rnd) (m : KReg) (d a b c : VReg) (sy : Sync)
  | vbcast (sz : Size) (m : KReg) (d : VReg) (a : XReg) (sy : Sync)
  | vext (d : XReg) (a : VReg) (b : XReg) (sy : Sync)
  | vins (d : VReg) (a b : XReg) (sy : Sync)
  | vperm (m : KReg) (d a b : VReg) (sy : Sync)
  | vrot (m : KReg) (d a : VReg) (b : XReg) (sy : Sync)
  | viota (m : KReg) (d : VReg) (a : XReg) (sy : Sync)
  | vcomp (m : KReg) (d a : VReg) (sy : Sync)
  | vred (t : Ty) (op : ROp) (r : Rnd) (m : KReg) (d : XReg) (a : VReg) (sy : Sync)
  | vscan (t : Ty) (op : ROp) (r : Rnd) (m : KReg) (d a : VReg) (sy : Sync)
  | vtopk (t : Ty) (m : KReg) (d a : VReg) (b : XReg) (sy : Sync)
  | vtag (m : KReg) (a : VReg) (b : XReg) (sy : Sync)
  | setvl (d a : XReg) (imm : Word) (sy : Sync)
  -- masks (R430)
  | kand (d a b : KReg) (sy : Sync)
  | kor (d a b : KReg) (sy : Sync)
  | kxor (d a b : KReg) (sy : Sync)
  | knot (d a : KReg) (sy : Sync)
  | kmov (f : KMovForm) (sy : Sync)
  | kpopc (d : XReg) (a : KReg) (sy : Sync)
  | kff (d : XReg) (a : KReg) (sy : Sync)
  -- memory (R395, R402, R431, R434, R450, R463, R475, R485)
  | ld (sz : Size) (sp : Space) (d a : XReg) (m : Addr1) (sy : Sync)
  | st (sz : Size) (sp : Space) (d a : XReg) (m : Addr1) (sy : Sync)
  | vld (sz : Size) (sp : Space) (k : KReg) (d : VReg) (a : XReg) (m : AddrV) (sy : Sync)
  | vst (sz : Size) (sp : Space) (k : KReg) (d : VReg) (a : XReg) (m : AddrV) (sy : Sync)
  | amo (sz : Size) (sp : Space) (op : AOp) (d a b : XReg) (disp : Word) (sy : Sync)
  | cas (sz : Size) (sp : Space) (d a b : XReg) (disp : Word) (sy : Sync)
  | red (sz : Size) (sp : Space) (op : AOp) (d a : XReg) (disp : Word) (sy : Sync)
  | lease (a : XReg) (disp : Word) (sy : Sync)
  | unlease (d a : XReg) (disp : Word) (sy : Sync)
  -- counters and fences (R399 to R409, R411, R420, R426, R470)
  | cbind (slot : BitVec 8) (a : XReg) (sy : Sync)
  | cmark (slot : BitVec 8) (a : XReg) (imm : Word) (sy : Sync)
  | cadd (d : XReg) (slot : BitVec 8) (a : XReg) (imm : Word) (sy : Sync)
  | cwait (d : XReg) (slot : BitVec 8) (b : XReg) (sy : Sync)
  | cwaitAny (d : XReg) (slot : BitVec 8) (a b : XReg) (sy : Sync)
  | cwaitAll (d : XReg) (slot : BitVec 8) (a b : XReg) (sy : Sync)
  | cread (d : XReg) (slot : BitVec 8) (sy : Sync)
  | creset (slot : BitVec 8) (sy : Sync)
  | fence (sy : Sync)
  | efence (sy : Sync)
  | tblfence (a b : XReg) (sy : Sync)
  | icinv (ext : Extent) (a b : XReg) (sy : Sync)
  -- strands (R413, R422, R458, R465, R472, R476, R495)
  | spawn (a : XReg) (sy : Sync)
  | finish (sy : Sync)
  | yield (sy : Sync)
  | exit (sy : Sync)
  | trace (d a : XReg) (imm : Word) (sy : Sync)
  | untrace (sy : Sync)
  | step (sy : Sync)
  -- Fresco (R258, R440)
  | mloadw (b : BReg) (a : XReg) (tg : Target) (sy : Sync)
  | mmul (t : TReg) (a b : XReg) (shp zero skip tt : Bool) (afmt prec bmask : BitVec 4) (tg : Target) (sy : Sync)
  | mgrad (t : TReg) (a b : XReg) (shp zero : Bool) (afmt gfmt : BitVec 4) (bank kq : BitVec 2) (goff : BitVec 10)
      (tg : Target) (sy : Sync)
  | mdrain (t : TReg) (a b : XReg) (shp ps clr tt : Bool) (ofmt : BitVec 4) (r : Rnd) (ncols : BitVec 8)
      (tg : Target) (sy : Sync)
  | mprog (a b : XReg) (count : BitVec 3) (tg : Target) (sy : Sync)
  | mstat (d a : XReg) (sel : BitVec 6) (tg : Target) (sy : Sync)
  | mcap (idx : BitVec 6) (a b : XReg) (tg : Target) (sy : Sync)
  -- Stencil (R277, R491)
  | xset (fn : BitVec 6) (a : XReg) (sy : Sync)
  | xgo (d : XReg) (sy : Sync)
  | xstat (d a : XReg) (sy : Sync)
  | xresume (d a : XReg) (sy : Sync)
  | xcancel (d a : XReg) (sy : Sync)
  -- messages and Glaze (R291, R442, R448)
  | msgTag (d a b c : XReg) (sy : Sync)
  | msgApp (d a b c : XReg) (sy : Sync)
  | nsend (a b : XReg) (sy : Sync)
  | nsendRoute (a b : XReg) (sy : Sync)
  | nred (isMax : Bool) (t : Ty) (pos : BitVec 2) (a b : XReg) (sy : Sync)
  | ncorrApply (d a : XReg) (sy : Sync)
  | ncorrScale (d a : XReg) (sy : Sync)
  -- dynamic runtime (R338)
  | icprobe (d a b : XReg) (site : Word) (sy : Sync)
  | icfill (s a b c : XReg) (sy : Sync)
  | icfillSite (s : XReg) (sy : Sync)
  | icfillAll (sy : Sync)
  | guard (a b : XReg) (off : Word) (sy : Sync)
  | ldslot (d a : XReg) (disp : Word) (sy : Sync)
  | stslot (d a : XReg) (disp : Word) (sy : Sync)
  | tagchk (a b : XReg) (off : Word) (sy : Sync)
  | alloc (d a b : XReg) (sy : Sync)
  | wbar (a : XReg) (disp : Word) (sy : Sync)
  -- system (R412, R460, R473)
  | trapSys (code : BitVec 16) (sy : Sync)
  | trapBrk (code : BitVec 16) (sy : Sync)
  | eret (sy : Sync)
  | srd (d : XReg) (srn : BitVec 12) (sy : Sync)
  | swr (srn : BitVec 12) (a : XReg) (sy : Sync)
  -- events of contexts and cores; `a` is an agent number (R157)
  | quantumExpiry (core : Nat)
  | referenceComplete (a : Nat)
  | drainComplete (a : Nat)
  | continuationTake (a : Nat)
  | continuationAging (die level : Nat)
  | storeHomeCheck (a : Nat)
  | leaseBoundExpiry (a line : Nat)
  | remoteAccess (acc : RemoteAcc)
  | counterAddAtHome (req : AddReq)
  | waitPoll (a : Nat)
  | cwaitTimeout (a : Nat)
  -- events of engines
  | frescoCommandStart (cluster seq : Nat)
  | frescoCommandComplete (cluster seq : Nat)
  | remoteCommandAdmission (c : RemoteCmd)
  | chunkComplete (cluster entry : Nat)
  | chunkFault (cluster entry : Nat)
  | nredSourceRead (id : Nat)
  | reductionDeadline (seq : Nat)
  | lateContribution (id : Nat)
  | nsendComplete (id : Nat)
  | routeStage (id : Nat)
  | msgAppendComplete (id : Nat)
  | taggedLaunchMessage (m : TagMsg)
  -- events of the sequencers
  | queueMap (slot : Nat) (desc : Word)
  | queueUnmap (slot : Nat)
  | notify (slot : Nat)
  | kernelPacket (die slot : Nat)
  | strandPlacement (die thread : Nat)
  | shareCompletion (die launch : Nat)
  | restorePacket (die slot : Nat)
  | waitcPacket (die slot : Nat)
  | waitcWake (die slot : Nat)
  | sigcPacket (die slot : Nat)
  | fencePacket (die slot : Nat)
  | fencePacketWake (die slot : Nat)
  | armPacket (die slot : Nat)
  -- events of Easel cores, system calls, pre-emption
  | easelStart (a : Nat) (value : Word)
  | crackOperation (a : Nat)
  | syscallPost (a : Nat)
  | syscallReply (a : Nat) (word1 : Word)
  | preemptRequest (a : Nat) (value : Word)
  | contextHalt (a : Nat)
  | saveComplete (a : Nat)
  -- storage, errors, links
  | storageSubmit (die : Nat) (i : Word)
  | storageComplete (die id : Nat) (status : BitVec 16) (data : List Byte)
  | checkerMismatch (core : Nat) (second : Bool)
  | uncorrectableError (p : UncPlace)
  | linkPoisonReport (link offset : Nat)
  | linkDown (link : Nat)
  -- boot, trust, time
  | reset
  | manifest (m : Manifest)
  | monitorImageFetched (image : List Byte)
  | bootRetryTimer
  | thermalTrip
  | attestationChallenge (nonce : BitVec 256)
  | debugUnlock (publicKey : List Byte) (signature : List Byte)
  | keyctl (value : Word)
  | still
  | freezePin
  | nodeid (value : Word)
  | ptpCorrection (ppm : Int)
  | loadImage (asid : BitVec 16) (base : Word) (image : List Byte)
  | unloadImage (id : Nat)
  | registerWrite (device : Bool) (die off : Nat) (value : Word)
  | ncorrComplete (id : Nat)
  | linkTrained (link capacity : Nat)
  | correctedErrorReport (link : Nat)
  | illegalOpcode (base : Word)
  deriving DecidableEq, Repr

end Sys2Proof
end

