-- ==== Sys2Proof/WellFormed.lean ====
section
/-! DEFINITION. Which terms of Instr an encoding exists for: the value limits of R83 to R99 and of the entries. -/

namespace Sys2Proof

/-- An immediate that IMM28, DISP28 or OFF28 can hold, sign-extended (R86, R392). -/
def fitsImm28 (v : Word) : Bool := (v.truncate 28).signExtend 64 == v

/-- An immediate that an IMM word can hold, sign-extended (R96, R392). -/
def fitsImm60 (v : Word) : Bool := (v.truncate 60).signExtend 64 == v

/-- SINC is 1 to 255 (R94). -/
def sigOk : Option Sig → Bool
  | none => true
  | some g => g.inc != 0

/-- Synchronisation of an instruction that is not of format G (R93, R94). `imm`: it accepts an IMM word;
`fmtC`: it has a SCOPE of its own in the base word (R89). -/
def Sync.ok (imm fmtC : Bool) (sy : Sync) : Bool :=
  match sy.ext with
  | .none => sy.wait.isNone && sy.sig.isNone && (fmtC || sy.scope == .device)
  | .imm => imm && sy.wait.isNone && sy.sig.isNone && (fmtC || sy.scope == .device)
  | .sync => (sy.wait.isSome || sy.sig.isSome) && sigOk sy.sig
  | .eng => false

/-- Synchronisation of format A, S and of the format I instructions without an immediate. -/
def Sync.plain (sy : Sync) : Bool := sy.ok false false

/-- Synchronisation of a format C instruction without CIMM16 (R399). -/
def Sync.ctr (sy : Sync) : Bool := sy.ok false true

/-- Synchronisation of format G: the ENG word is always there (R90, R97). -/
def Sync.eng (sy : Sync) : Bool := sy.ext == .eng && sigOk sy.sig

/-- A 28-bit or 60-bit signed immediate with its synchronisation (R86, R96). -/
def Sync.immOk (v : Word) (sy : Sync) : Bool :=
  sy.ok true false && (if sy.ext == .imm then fitsImm60 v else fitsImm28 v)

/-- CIMM16 or IMM60 of CADD and CMARK (R89, R96, R399). -/
def Sync.cimmOk (v : Word) (sy : Sync) : Bool :=
  sy.ok true true && (if sy.ext == .imm then fitsImm60 v else decide (v.toNat < 65536))

/-- Integer TYPE codes (R85). -/
def Ty.isInt : Ty → Bool
  | .i8 | .i16 | .i32 | .i64 | .u8 | .u16 | .u32 | .u64 => true
  | .f16 | .bf16 | .f32 | .f64 | .e4m3 | .e5m2 => false

/-- The scalar floating-point types (R415). -/
def Ty.scalarFp : Ty → Bool
  | .f32 | .f64 => true
  | _ => false

/-- TYPE of VADD, VSUB, VMUL, VMIN and VMAX (R478). -/
def Ty.vecArith : Ty → Bool
  | .i8 | .i16 | .i32 | .u8 | .u16 | .u32 | .f16 | .bf16 | .f32 | .f64 => true
  | _ => false

/-- TYPE of the bitwise and shift forms (R478). -/
def Ty.vecBits : Ty → Bool
  | .i8 | .i16 | .i32 | .u8 | .u16 | .u32 => true
  | _ => false

/-- TYPE of VABS and VNEG (R478). -/
def Ty.vecSign : Ty → Bool
  | .i8 | .i16 | .i32 | .f16 | .bf16 | .f32 => true
  | _ => false

/-- TYPE of VRCP, VRSQ, VSQRT, VEXP2 and VLOG2 (R478). -/
def Ty.vecFun : Ty → Bool
  | .f16 | .bf16 | .f32 => true
  | _ => false

/-- TYPE of VCMP, VRED, VSCAN and VTOPK (R478). -/
def Ty.vecWord : Ty → Bool
  | .i32 | .u32 | .f32 => true
  | _ => false

/-- TYPE and FROM of VCVT (R478). -/
def Ty.vecCvt : Ty → Bool
  | .i64 | .u64 => false
  | _ => true

/-- RND of an instruction that rounds: rsr only in FCVT and VCVT (R84). -/
def Rnd.plain : Rnd → Bool
  | .rsr => false
  | _ => true

/-- RND of a vector instruction whose integer forms do not round (R84, R478). -/
def Ty.rndOk (t : Ty) (r : Rnd) : Bool := if t.isInt then r == .dyn else r.plain

/-- un with an integer TYPE is ILLEGAL (R99). -/
def Pred.ok (t : Ty) (p : Pred) : Bool := !(t.isInt && p == .un)

/-- TYPE, `.op` and RND of VRED and VSCAN (R487). -/
def redOk (t : Ty) (op : ROp) (r : Rnd) : Bool :=
  t.vecWord &&
  (match op with
   | .add => t.rndOk r
   | .min | .max => r == .dyn
   | .and | .or | .xor => t.isInt && r == .dyn)

/-- Element bits of a TYPE (R85). -/
def Ty.bits : Ty → Nat
  | .i8 | .u8 | .e4m3 | .e5m2 => 8
  | .i16 | .u16 | .f16 | .bf16 => 16
  | .i32 | .u32 | .f32 => 32
  | .i64 | .u64 | .f64 => 64

/-- fadd requires SIZE w (R87). -/
def AOp.ok (op : AOp) (sz : Size) : Bool := op != .fadd || sz == .w

/-- The displacement of LD and ST; mode 0b01 takes no displacement and no IMM word (R87, R93, R432). -/
def Addr1.ok (m : Addr1) (sy : Sync) : Bool :=
  match m with
  | .disp d => sy.immOk d
  | .reg _ => sy.plain

/-- The operand of VLD and VST; mode 0b11 requires SIZE w (R87, R485, R486). -/
def AddrV.ok (m : AddrV) (sz : Size) (sy : Sync) : Bool :=
  match m with
  | .unit d | .strided d _ => sy.immOk d
  | .indexed d _ => sy.immOk d && sz == .w

/-- CLUS of a remote command is at most 191 (R258). -/
def Target.ok : Target → Bool
  | .here => true
  | .remote _ clus _ _ => decide (clus.toNat ≤ 191)

/-- S, the significand planes of an activation format code (R235). -/
def fmtS : Nat → Nat
  | 0 => 8 | 1 => 11 | 2 => 4 | 3 => 3 | 4 => 4 | 5 => 3 | 6 => 3 | 7 => 4 | 8 => 2 | 9 => 8 | 10 => 8 | 11 => 4
  | 12 => 4 | _ => 0

/-- OFMT of MDRAIN: the columns "MDRAIN to planes" and "MDRAIN to memory" of R235, with NCOLS_M1 = 255 for planes (R248). -/
def drainOk (ps : Bool) (ofmt : BitVec 4) (ncols : BitVec 8) : Bool :=
  if ps then decide (ofmt.toNat ≤ 11) && ncols == 255
  else ofmt == 0 || ofmt == 1 || ofmt == 13 || ofmt == 14

/-- FN and TYPE of NRED (R281). -/
def nredOk (isMax : Bool) (t : Ty) : Bool :=
  match t with
  | .f32 | .i32 => true
  | .bf16 => !isMax
  | _ => false

/-- The opcodes that hold no instruction: 0x00, 0xFF and the reserved entries of R98 (R100). -/
def reservedOp (op : Nat) : Bool :=
  op == 0 || (0x2B ≤ op && op ≤ 0x2F) || (0x38 ≤ op && op ≤ 0x3F) || (0x5D ≤ op && op ≤ 0x5F) || op == 0x67 ||
  (0x71 ≤ op && op ≤ 0x7F) || (0x8A ≤ op && op ≤ 0x8F) || (0x97 ≤ op && op ≤ 0x9F) || (0xA7 ≤ op && op ≤ 0xAF) ||
  (0xB5 ≤ op && op ≤ 0xB7) || (0xBC ≤ op && op ≤ 0xBF) || (0xC8 ≤ op && op ≤ 0xCF) || 0xD4 ≤ op

/-- The special register numbers of R103. -/
def srnKnown (n : Nat) : Bool :=
  n ≤ 3 || (0x10 ≤ n && n ≤ 0x18) || (0x20 ≤ n && n ≤ 0x28) || (0x30 ≤ n && n ≤ 0x3F)

/-- An instruction that some words encode. No word encodes an event of the device. -/
def Instr.wf : Instr → Bool
  | .add _ _ _ sy | .sub _ _ _ sy | .mul _ _ _ sy | .mulh _ _ _ sy | .mulhu _ _ _ sy | .div _ _ _ sy | .divu _ _ _ sy
  | .rem _ _ _ sy | .remu _ _ _ sy | .and _ _ _ sy | .or _ _ _ sy | .xor _ _ _ sy | .shl _ _ _ sy | .shr _ _ _ sy
  | .sra _ _ _ sy | .slt _ _ _ sy | .sltu _ _ _ sy | .min _ _ _ sy | .max _ _ _ sy | .minu _ _ _ sy
  | .maxu _ _ _ sy | .clz _ _ sy | .popc _ _ sy | .sel _ _ _ _ sy => sy.plain
  | .addi _ _ v sy | .andi _ _ v sy | .ori _ _ v sy | .xori _ _ v sy | .slti _ _ v sy | .li _ v sy | .adr _ v sy =>
    sy.immOk v
  | .shli _ _ v sy | .shri _ _ v sy | .srai _ _ v sy => sy.immOk v && decide (v.toNat < 64)
  | .fadd t r _ _ _ sy | .fsub t r _ _ _ sy | .fmul t r _ _ _ sy | .fdiv t r _ _ _ sy | .ffma t r _ _ _ _ sy
  | .fsqrt t r _ _ sy => t.scalarFp && r.plain && sy.plain
  | .fmin t _ _ _ sy | .fmax t _ _ _ sy | .fcmp t _ _ _ _ sy => t.scalarFp && sy.plain
  | .fcvt t f _ _ _ sy => t != f && !(t.isInt && f.isInt) && sy.plain
  | .fclass t _ _ sy => !t.isInt && sy.plain
  | .br _ _ _ v sy | .j v sy | .jl _ v sy | .jr _ v sy | .jlr _ _ v sy | .bany _ v sy | .ball _ v sy
  | .guard _ _ v sy | .tagchk _ _ v sy => sy.immOk v
  | .loop d v sy => d != 0 && sy.immOk v
  | .vadd t r _ _ _ _ sy | .vsub t r _ _ _ _ sy | .vmul t r _ _ _ _ sy => t.vecArith && t.rndOk r && sy.plain
  | .vfma t r _ _ _ _ _ sy => t.vecArith && !t.isInt && r.plain && sy.plain
  | .vmin t _ _ _ _ sy | .vmax t _ _ _ _ sy => t.vecArith && sy.plain
  | .vand t _ _ _ _ sy | .vor t _ _ _ _ sy | .vxor t _ _ _ _ sy | .vshl t _ _ _ _ sy | .vshr t _ _ _ _ sy
  | .vsra t _ _ _ _ sy => t.vecBits && sy.plain
  | .vabs t _ _ _ sy | .vneg t _ _ _ sy => t.vecSign && sy.plain
  | .vrcp t r _ _ _ sy | .vrsq t r _ _ _ sy | .vexp2 t r _ _ _ sy | .vlog2 t r _ _ _ sy | .vsqrt t r _ _ _ sy =>
    t.vecFun && r.plain && sy.plain
  | .vcmp t p _ _ _ _ sy => t.vecWord && p.ok t && sy.plain
  | .vcvt t f _ m _ _ sy => t.vecCvt && f.vecCvt && t != f && (t.bits == f.bits || m == 0) && sy.plain
  | .vdot t r _ _ _ _ _ sy =>
    (match t with | .i8 | .u8 | .f16 | .bf16 => t.rndOk r | _ => false) && sy.plain
  | .vsel _ _ _ _ sy | .vbcast _ _ _ _ sy | .vext _ _ _ sy | .vins _ _ _ sy | .vperm _ _ _ _ sy | .vrot _ _ _ _ sy
  | .viota _ _ _ sy | .vcomp _ _ _ sy | .vtag _ _ _ sy => sy.plain
  | .vred t op r _ _ _ sy | .vscan t op r _ _ _ sy => redOk t op r && sy.plain
  | .vtopk t _ _ _ _ sy => t.vecWord && sy.plain
  | .setvl _ _ v sy => sy.immOk v
  | .kand _ _ _ sy | .kor _ _ _ sy | .kxor _ _ _ sy | .knot _ _ sy | .kmov _ sy | .kpopc _ _ sy | .kff _ _ sy =>
    sy.plain
  | .ld _ _ _ _ m sy | .st _ _ _ _ m sy => m.ok sy
  | .vld sz _ _ _ _ m sy | .vst sz _ _ _ _ m sy => m.ok sz sy
  | .amo sz _ op _ _ _ d sy => op.ok sz && sy.immOk d
  | .red sz _ op _ _ d sy => op.ok sz && op != .swap && sy.immOk d
  | .cas _ _ _ _ _ d sy | .lease _ d sy | .unlease _ _ d sy | .ldslot _ _ d sy | .stslot _ _ d sy | .wbar _ d sy =>
    sy.immOk d
  | .cmark _ _ v sy | .cadd _ _ _ v sy => sy.cimmOk v
  | .cbind _ _ sy | .cwait _ _ _ sy | .cwaitAny _ _ _ _ sy | .cwaitAll _ _ _ _ sy | .cread _ _ sy | .creset _ sy
  | .fence sy | .efence sy | .tblfence _ _ sy | .icinv _ _ _ sy => sy.ctr
  | .spawn _ sy | .finish sy | .yield sy | .exit sy | .untrace sy | .step sy | .alloc _ _ _ sy => sy.plain
  | .trace _ _ v sy => sy.immOk v
  | .mloadw _ _ tg sy => tg.ok && sy.eng
  | .mmul _ _ _ _ _ _ tt af pr _ tg sy =>
    decide (af.toNat ≤ 12) && decide (pr.toNat ≤ fmtS af.toNat) && (!tt || af == 9 || af == 11) && tg.ok && sy.eng
  | .mgrad _ _ _ _ _ af gf _ _ _ tg sy => decide (af.toNat ≤ 12) && decide (gf.toNat ≤ 12) && tg.ok && sy.eng
  | .mdrain _ _ _ _ ps _ _ ofmt r nc tg sy => drainOk ps ofmt nc && r.plain && tg.ok && sy.eng
  | .mprog _ _ n tg sy => decide (n.toNat ≤ 4) && tg.ok && sy.eng
  | .mstat _ _ slct tg sy => decide (slct.toNat ≤ 5) && tg.ok && sy.eng
  | .mcap _ _ _ tg sy =>
    (match tg with | .here => true | .remote _ c _ secret => decide (c.toNat ≤ 191) && secret == 0) && sy.eng
  | .xset fn _ sy => decide (fn.toNat ≤ 20) && sy.eng
  | .xgo _ sy | .xstat _ _ sy | .xresume _ _ sy | .xcancel _ _ sy => sy.eng
  | .msgTag _ _ _ _ sy | .msgApp _ _ _ _ sy | .nsend _ _ sy | .nsendRoute _ _ sy | .ncorrApply _ _ sy
  | .ncorrScale _ _ sy => sy.eng
  | .nred mx t _ _ _ sy => nredOk mx t && sy.eng
  | .icprobe _ _ _ v sy => sy.immOk v && decide (v.toNat < 65536)
  | .icfill _ _ _ _ sy | .icfillSite _ sy | .icfillAll sy => sy.plain
  | .trapSys _ sy | .trapBrk _ sy | .eret sy => sy.plain
  | .srd _ n sy | .swr n _ sy => srnKnown n.toNat && sy.plain
  | .illegalOpcode base => reservedOp ((base >>> 56).toNat)
  | .quantumExpiry _ | .referenceComplete _ | .drainComplete _ | .continuationTake _ | .continuationAging _ _
  | .storeHomeCheck _ | .leaseBoundExpiry _ _ | .remoteAccess _ | .counterAddAtHome _ | .waitPoll _ | .cwaitTimeout _
  | .frescoCommandStart _ _ | .frescoCommandComplete _ _ | .remoteCommandAdmission _ | .chunkComplete _ _
  | .chunkFault _ _ | .nredSourceRead _ | .reductionDeadline _ | .lateContribution _ | .nsendComplete _
  | .routeStage _ | .msgAppendComplete _ | .taggedLaunchMessage _ | .queueMap _ _ | .queueUnmap _ | .notify _
  | .kernelPacket _ _ | .strandPlacement _ _ | .shareCompletion _ _ | .restorePacket _ _ | .waitcPacket _ _
  | .waitcWake _ _ | .sigcPacket _ _ | .fencePacket _ _ | .fencePacketWake _ _ | .armPacket _ _ | .easelStart _ _
  | .crackOperation _ | .syscallPost _ | .syscallReply _ _ | .preemptRequest _ _ | .contextHalt _ | .saveComplete _
  | .storageSubmit _ _ | .storageComplete _ _ _ _ | .checkerMismatch _ _ | .uncorrectableError _
  | .linkPoisonReport _ _ | .linkDown _ | .reset | .manifest _ | .monitorImageFetched _ | .bootRetryTimer
  | .thermalTrip | .attestationChallenge _ | .debugUnlock _ _ | .keyctl _ | .still | .freezePin | .nodeid _
  | .ptpCorrection _ | .loadImage _ _ _ | .unloadImage _ | .registerWrite _ _ _ _ | .ncorrComplete _
  | .linkTrained _ _ | .correctedErrorReport _ => false

end Sys2Proof
end

