-- ==== Sys2Proof/Decode.lean ====
section
/-! DEFINITION. Instruction words: the fields of the seven formats and of the extension words (R83 to R97), the encoder
and the decoder. A word is an instruction exactly when it is the encoding of a well-formed instruction. -/

namespace Sys2Proof

/-- The fields of a base word (R83). -/
structure Base where
  op : BitVec 8
  e : BitVec 1
  k : BitVec 3
  d : BitVec 6
  a : BitVec 6
  b : BitVec 6
  c : BitVec 6
  lo : BitVec 28
  deriving DecidableEq, Repr

def Base.pack (f : Base) : Word := f.op ++ f.e ++ f.k ++ f.d ++ f.a ++ f.b ++ f.c ++ f.lo

def Base.unpack (w : Word) : Base where
  op := w.extractLsb' 56 8
  e := w.extractLsb' 55 1
  k := w.extractLsb' 52 3
  d := w.extractLsb' 46 6
  a := w.extractLsb' 40 6
  b := w.extractLsb' 34 6
  c := w.extractLsb' 28 6
  lo := w.extractLsb' 0 28

/-- Bits 27..0 of format A (R84). -/
structure LoA where
  ty : BitVec 4
  from_ : BitVec 4
  rnd : BitVec 3
  fn : BitVec 6
  res : BitVec 11

def LoA.pack (f : LoA) : BitVec 28 := f.ty ++ f.from_ ++ f.rnd ++ f.fn ++ f.res

def LoA.unpack (w : BitVec 28) : LoA where
  ty := w.extractLsb' 24 4
  from_ := w.extractLsb' 20 4
  rnd := w.extractLsb' 17 3
  fn := w.extractLsb' 11 6
  res := w.extractLsb' 0 11

/-- Bits 33..28 of format M: SIZE, SPACE and the three bits that hold MODE and a reserved bit, or AOP (R87). -/
structure CM where
  size : BitVec 2
  space : BitVec 1
  mode : BitVec 3

def CM.pack (f : CM) : BitVec 6 := f.size ++ f.space ++ f.mode

def CM.unpack (w : BitVec 6) : CM where
  size := w.extractLsb' 4 2
  space := w.extractLsb' 3 1
  mode := w.extractLsb' 0 3

/-- Bits 33..28 of format C: SCOPE and four reserved bits (R89). -/
structure CC where
  scope : BitVec 2
  res : BitVec 4

def CC.pack (f : CC) : BitVec 6 := f.scope ++ f.res

def CC.unpack (w : BitVec 6) : CC where
  scope := w.extractLsb' 4 2
  res := w.extractLsb' 0 4

/-- Bits 27..0 of format C (R89). -/
structure LoC where
  slot : BitVec 8
  cop : BitVec 4
  cimm : BitVec 16

def LoC.pack (f : LoC) : BitVec 28 := f.slot ++ f.cop ++ f.cimm

def LoC.unpack (w : BitVec 28) : LoC where
  slot := w.extractLsb' 20 8
  cop := w.extractLsb' 16 4
  cimm := w.extractLsb' 0 16

/-- Bits 27..0 of format G (R90). -/
structure LoG where
  fn : BitVec 6
  eop : BitVec 22

def LoG.pack (f : LoG) : BitVec 28 := f.fn ++ f.eop

def LoG.unpack (w : BitVec 28) : LoG where
  fn := w.extractLsb' 22 6
  eop := w.extractLsb' 0 22

/-- Bits 27..0 of format S (R91). -/
structure LoS where
  srn : BitVec 12
  code : BitVec 16

def LoS.pack (f : LoS) : BitVec 28 := f.srn ++ f.code

def LoS.unpack (w : BitVec 28) : LoS where
  srn := w.extractLsb' 16 12
  code := w.extractLsb' 0 16

/-- A SYNC or ENG word: the kind, the synchronisation fields and bits 30..0 (R94, R97). -/
structure SyncWord where
  kind : BitVec 4
  we : BitVec 1
  wslot : BitVec 8
  se : BitVec 1
  sslot : BitVec 8
  sinc : BitVec 8
  when_ : BitVec 1
  scope : BitVec 2
  low : BitVec 31

def SyncWord.pack (f : SyncWord) : Word :=
  f.kind ++ f.we ++ f.wslot ++ f.se ++ f.sslot ++ f.sinc ++ f.when_ ++ f.scope ++ f.low

def SyncWord.unpack (w : Word) : SyncWord where
  kind := w.extractLsb' 60 4
  we := w.extractLsb' 59 1
  wslot := w.extractLsb' 51 8
  se := w.extractLsb' 50 1
  sslot := w.extractLsb' 42 8
  sinc := w.extractLsb' 34 8
  when_ := w.extractLsb' 33 1
  scope := w.extractLsb' 31 2
  low := w.extractLsb' 0 31

/-- The engine operand bits of a Fresco command's ENG word (R258). -/
structure LowG where
  rem : BitVec 1
  node : BitVec 8
  clus : BitVec 8
  cidx : BitVec 6
  res : BitVec 8

def LowG.pack (f : LowG) : BitVec 31 := f.rem ++ f.node ++ f.clus ++ f.cidx ++ f.res

def LowG.unpack (w : BitVec 31) : LowG where
  rem := w.extractLsb' 30 1
  node := w.extractLsb' 22 8
  clus := w.extractLsb' 14 8
  cidx := w.extractLsb' 8 6
  res := w.extractLsb' 0 8

/-! ### Codes of the enumerations -/

def Ty.code : Ty → BitVec 4
  | .i8 => 0 | .i16 => 1 | .i32 => 2 | .i64 => 3 | .u8 => 4 | .u16 => 5 | .u32 => 6 | .u64 => 7 | .f16 => 8
  | .bf16 => 9 | .f32 => 10 | .f64 => 11 | .e4m3 => 12 | .e5m2 => 13

/-- R85. The two reserved codes are read as e5m2, whose own code differs from them. -/
def Ty.ofCode (c : BitVec 4) : Ty :=
  match c.toNat with
  | 0 => .i8 | 1 => .i16 | 2 => .i32 | 3 => .i64 | 4 => .u8 | 5 => .u16 | 6 => .u32 | 7 => .u64 | 8 => .f16
  | 9 => .bf16 | 10 => .f32 | 11 => .f64 | 12 => .e4m3 | _ => .e5m2

def Rnd.code : Rnd → BitVec 3
  | .dyn => 0 | .rne => 1 | .rtz => 2 | .rdn => 3 | .rup => 4 | .rna => 5 | .rsr => 6

def Rnd.ofCode (c : BitVec 3) : Rnd :=
  match c.toNat with
  | 0 => .dyn | 1 => .rne | 2 => .rtz | 3 => .rdn | 4 => .rup | 5 => .rna | _ => .rsr

def Size.code : Size → BitVec 2
  | .b => 0 | .h => 1 | .w => 2 | .d => 3

def Size.ofCode (c : BitVec 2) : Size :=
  match c.toNat with
  | 0 => .b | 1 => .h | 2 => .w | _ => .d

def Space.code : Space → BitVec 1
  | .global => 0 | .loc => 1

def Space.ofCode (c : BitVec 1) : Space := if c = 0 then .global else .loc

def AOp.code : AOp → BitVec 3
  | .swap => 0 | .add => 1 | .and => 2 | .or => 3 | .xor => 4 | .min => 5 | .max => 6 | .fadd => 7

def AOp.ofCode (c : BitVec 3) : AOp :=
  match c.toNat with
  | 0 => .swap | 1 => .add | 2 => .and | 3 => .or | 4 => .xor | 5 => .min | 6 => .max | _ => .fadd

def Scope.code : Scope → BitVec 2
  | .group => 0 | .device => 1 | .system => 2

def Scope.ofCode (c : BitVec 2) : Scope :=
  match c.toNat with
  | 0 => .group | 1 => .device | _ => .system

def Cond.code : Cond → BitVec 6
  | .eq => 0 | .ne => 1 | .lt => 2 | .ge => 3 | .ltu => 4 | .geu => 5

def Cond.ofCode (c : BitVec 6) : Cond :=
  match c.toNat with
  | 0 => .eq | 1 => .ne | 2 => .lt | 3 => .ge | 4 => .ltu | _ => .geu

def Pred.code : Pred → BitVec 6
  | .eq => 0 | .ne => 1 | .lt => 2 | .le => 3 | .gt => 4 | .ge => 5 | .un => 6

def Pred.ofCode (c : BitVec 6) : Pred :=
  match c.toNat with
  | 0 => .eq | 1 => .ne | 2 => .lt | 3 => .le | 4 => .gt | 5 => .ge | _ => .un

def ROp.code : ROp → BitVec 6
  | .add => 0 | .min => 1 | .max => 2 | .and => 3 | .or => 4 | .xor => 5

def ROp.ofCode (c : BitVec 6) : ROp :=
  match c.toNat with
  | 0 => .add | 1 => .min | 2 => .max | 3 => .and | 4 => .or | _ => .xor

def Extent.code : Extent → BitVec 4
  | .core => 0 | .cluster => 1 | .die => 2 | .device => 3

def Extent.ofCode (c : BitVec 4) : Extent :=
  match c.toNat with
  | 0 => .core | 1 => .cluster | 2 => .die | _ => .device

def bit1 (b : Bool) : BitVec 1 := if b then 1 else 0

/-! ### The extension word -/

/-- The synchronisation fields of a SYNC or ENG word (R94, R97). -/
def Sync.word (sy : Sync) (kind : BitVec 4) (low : BitVec 31) : Word :=
  SyncWord.pack
    { kind := kind
      we := bit1 sy.wait.isSome
      wslot := sy.wait.getD 0
      se := bit1 sy.sig.isSome
      sslot := (sy.sig.map (·.slot)).getD 0
      sinc := (sy.sig.map (·.inc)).getD 0
      when_ := bit1 ((sy.sig.map (·.atIssue)).getD false)
      scope := sy.scope.code
      low := low }

/-- The extension word of an instruction with immediate `v` and engine operands `low` (R93 to R97). -/
def Sync.extWord (sy : Sync) (v : Word) (low : BitVec 31) : Option Word :=
  match sy.ext with
  | .none => none
  | .sync => some (sy.word 1 0)
  | .imm => some ((2 : BitVec 4) ++ v.truncate 60)
  | .eng => some (sy.word 3 low)

/-- The synchronisation that an extension word gives; without one the scope is the base word's, or device (R17). -/
def Sync.ofWord (ext : Option Word) (scope : Scope) : Sync :=
  match ext with
  | none => { ext := .none, wait := none, sig := none, scope := scope }
  | some w =>
    let f := SyncWord.unpack w
    if f.kind = 2 then { ext := .imm, wait := none, sig := none, scope := scope }
    else
      { ext := if f.kind = 1 then .sync else .eng
        wait := if f.we = 1 then some f.wslot else none
        sig := if f.se = 1 then some { slot := f.sslot, inc := f.sinc, atIssue := f.when_ = 1 } else none
        scope := Scope.ofCode f.scope }

/-- Imm of formats I, M and B (R388). -/
def imm28 (ext : Option Word) (lo : BitVec 28) : Word :=
  match ext with
  | some w => if w.extractLsb' 60 4 = 2 then (w.truncate 60).signExtend 64 else lo.signExtend 64
  | none => lo.signExtend 64

/-- Imm of format C (R388). -/
def imm16 (ext : Option Word) (lo : BitVec 16) : Word :=
  match ext with
  | some w => if w.extractLsb' 60 4 = 2 then (w.truncate 60).signExtend 64 else lo.zeroExtend 64
  | none => lo.zeroExtend 64

/-! ### The encoder -/

/-- An instruction as its encoding's fields: the base word without E, the immediate that an IMM word would hold, the
engine operands and the synchronisation. -/
structure Form where
  base : Base
  v : Word
  low : BitVec 31
  sy : Sync

def Form.words (f : Form) : Word × Option Word :=
  (({ f.base with e := bit1 (f.sy.ext != .none) } : Base).pack, f.sy.extWord f.v f.low)

/-- Format A (R84). -/
def formA (op : BitVec 8) (k : BitVec 3) (d a b c : BitVec 6) (ty frm : BitVec 4) (rnd : BitVec 3) (fn : BitVec 6)
    (sy : Sync) : Form where
  base := { op := op, e := 0, k := k, d := d, a := a, b := b, c := c,
            lo := LoA.pack { ty := ty, from_ := frm, rnd := rnd, fn := fn, res := 0 } }
  v := 0
  low := 0
  sy := sy

/-- IMM28, DISP28 or OFF28 of the base word: zero when an IMM word replaces it (R96). -/
def lo28 (v : Word) (sy : Sync) : BitVec 28 := if sy.ext = .imm then 0 else v.truncate 28

/-- CIMM16 of the base word: zero when an IMM word replaces it (R96). -/
def lo16 (v : Word) (sy : Sync) : BitVec 16 := if sy.ext = .imm then 0 else v.truncate 16

/-- Formats I, M and B: `c` holds bits 33..28 (R86 to R88). -/
def formI (op : BitVec 8) (k : BitVec 3) (d a b c : BitVec 6) (v : Word) (sy : Sync) : Form where
  base := { op := op, e := 0, k := k, d := d, a := a, b := b, c := c, lo := lo28 v sy }
  v := v
  low := 0
  sy := sy

/-- Format C (R89). -/
def formC (op : BitVec 8) (d a b : BitVec 6) (slot : BitVec 8) (cop : BitVec 4) (v : Word) (sy : Sync) : Form where
  base := { op := op, e := 0, k := 0, d := d, a := a, b := b, c := CC.pack { scope := sy.scope.code, res := 0 },
            lo := LoC.pack { slot := slot, cop := cop, cimm := lo16 v sy } }
  v := v
  low := 0
  sy := sy

/-- Format G (R90). -/
def formG (op : BitVec 8) (d a b c fn : BitVec 6) (eop : BitVec 22) (low : BitVec 31) (sy : Sync) : Form where
  base := { op := op, e := 0, k := 0, d := d, a := a, b := b, c := c, lo := LoG.pack { fn := fn, eop := eop } }
  v := 0
  low := low
  sy := sy

/-- Format S (R91). -/
def formS (op : BitVec 8) (d a sop : BitVec 6) (srn : BitVec 12) (code : BitVec 16) (sy : Sync) : Form where
  base := { op := op, e := 0, k := 0, d := d, a := a, b := 0, c := sop, lo := LoS.pack { srn := srn, code := code } }
  v := 0
  low := 0
  sy := sy

/-- SIZE, SPACE and MODE (R87). -/
def cMode (sz : Size) (sp : Space) (mode : BitVec 3) : BitVec 6 :=
  CM.pack { size := sz.code, space := sp.code, mode := mode }

/-- C of a Fresco command: the secret's register, 0 when REM = 0 (R258). -/
def Target.secretReg : Target → BitVec 6
  | .here => 0
  | .remote _ _ _ s => s

def Target.low : Target → BitVec 31
  | .here => 0
  | .remote n c i _ => LowG.pack { rem := 1, node := n, clus := c, cidx := i, res := 0 }

def formF (op : BitVec 8) (d a b fn : BitVec 6) (eop : BitVec 22) (tg : Target) (sy : Sync) : Form :=
  formG op d a b tg.secretReg fn eop tg.low sy

/-- Three-register scalar instructions without TYPE, FROM, RND and FN. -/
def formX (op : BitVec 8) (d a b c fn : BitVec 6) (sy : Sync) : Form := formA op 0 d a b c 0 0 0 fn sy

/-- The operand of LD and ST: B, MODE and displacement (R87). -/
def Addr1.form (op : BitVec 8) (sz : Size) (sp : Space) (d a : BitVec 6) (m : Addr1) (sy : Sync) : Form :=
  match m with
  | .disp v => formI op 0 d a 0 (cMode sz sp 0) v sy
  | .reg b => formI op 0 d a b (cMode sz sp 2) 0 sy

/-- The operand of VLD and VST (R87). MODE is the upper two of the three bits. -/
def AddrV.form (op : BitVec 8) (sz : Size) (sp : Space) (k : BitVec 3) (d a : BitVec 6) (m : AddrV) (sy : Sync) : Form :=
  match m with
  | .unit v => formI op k d a 0 (cMode sz sp 0) v sy
  | .strided v s => formI op k d a s (cMode sz sp 4) v sy
  | .indexed v b => formI op k d a b (cMode sz sp 6) v sy

/-- The fields of an instruction: the strip tables of R391 to R495 and R258, R277, R291, R338. -/
def Instr.form : Instr → Form
  | .add d a b sy => formX 0x01 d a b 0 0 sy
  | .addi d a v sy => formI 0x02 0 d a 0 0 v sy
  | .sub d a b sy => formX 0x03 d a b 0 0 sy
  | .mul d a b sy => formX 0x04 d a b 0 0 sy
  | .mulh d a b sy => formX 0x05 d a b 0 0 sy
  | .mulhu d a b sy => formX 0x06 d a b 0 0 sy
  | .div d a b sy => formX 0x07 d a b 0 0 sy
  | .divu d a b sy => formX 0x08 d a b 0 0 sy
  | .rem d a b sy => formX 0x09 d a b 0 0 sy
  | .remu d a b sy => formX 0x0A d a b 0 0 sy
  | .and d a b sy => formX 0x0B d a b 0 0 sy
  | .andi d a v sy => formI 0x0C 0 d a 0 0 v sy
  | .or d a b sy => formX 0x0D d a b 0 0 sy
  | .ori d a v sy => formI 0x0E 0 d a 0 0 v sy
  | .xor d a b sy => formX 0x0F d a b 0 0 sy
  | .xori d a v sy => formI 0x10 0 d a 0 0 v sy
  | .shl d a b sy => formX 0x11 d a b 0 0 sy
  | .shli d a v sy => formI 0x12 0 d a 0 0 v sy
  | .shr d a b sy => formX 0x13 d a b 0 0 sy
  | .shri d a v sy => formI 0x14 0 d a 0 0 v sy
  | .sra d a b sy => formX 0x15 d a b 0 0 sy
  | .srai d a v sy => formI 0x16 0 d a 0 0 v sy
  | .slt d a b sy => formX 0x17 d a b 0 0 sy
  | .sltu d a b sy => formX 0x18 d a b 0 0 sy
  | .slti d a v sy => formI 0x19 0 d a 0 0 v sy
  | .min d a b sy => formX 0x1A d a b 0 0 sy
  | .max d a b sy => formX 0x1A d a b 0 1 sy
  | .minu d a b sy => formX 0x1A d a b 0 2 sy
  | .maxu d a b sy => formX 0x1A d a b 0 3 sy
  | .clz d a sy => formX 0x1B d a 0 0 0 sy
  | .popc d a sy => formX 0x1C d a 0 0 0 sy
  | .sel d a b c sy => formX 0x1D d a b c 0 sy
  | .li d v sy => formI 0x1E 0 d 0 0 0 v sy
  | .adr d v sy => formI 0x1F 0 d 0 0 0 v sy
  | .fadd t r d a b sy => formA 0x20 0 d a b 0 t.code 0 r.code 0 sy
  | .fsub t r d a b sy => formA 0x21 0 d a b 0 t.code 0 r.code 0 sy
  | .fmul t r d a b sy => formA 0x22 0 d a b 0 t.code 0 r.code 0 sy
  | .ffma t r d a b c sy => formA 0x23 0 d a b c t.code 0 r.code 0 sy
  | .fdiv t r d a b sy => formA 0x24 0 d a b 0 t.code 0 r.code 0 sy
  | .fsqrt t r d a sy => formA 0x25 0 d a 0 0 t.code 0 r.code 0 sy
  | .fmin t d a b sy => formA 0x26 0 d a b 0 t.code 0 0 0 sy
  | .fmax t d a b sy => formA 0x27 0 d a b 0 t.code 0 0 0 sy
  | .fcmp t p d a b sy => formA 0x28 0 d a b 0 t.code 0 0 p.code sy
  | .fcvt t f r d a sy => formA 0x29 0 d a 0 0 t.code f.code r.code 0 sy
  | .fclass t d a sy => formA 0x2A 0 d a 0 0 t.code 0 0 0 sy
  | .br c a b v sy => formI 0x30 0 0 a b c.code v sy
  | .j v sy => formI 0x31 0 0 0 0 0 v sy
  | .jl d v sy => formI 0x32 0 d 0 0 0 v sy
  | .jr a v sy => formI 0x33 0 0 a 0 0 v sy
  | .jlr d a v sy => formI 0x34 0 d a 0 0 v sy
  | .loop d v sy => formI 0x35 0 d 0 0 0 v sy
  | .bany k v sy => formI 0x36 0 0 0 0 (k.zeroExtend 6) v sy
  | .ball k v sy => formI 0x37 0 0 0 0 (k.zeroExtend 6) v sy
  | .vadd t r m d a b sy => formA 0x40 m d a b 0 t.code 0 r.code 0 sy
  | .vsub t r m d a b sy => formA 0x41 m d a b 0 t.code 0 r.code 0 sy
  | .vmul t r m d a b sy => formA 0x42 m d a b 0 t.code 0 r.code 0 sy
  | .vfma t r m d a b c sy => formA 0x43 m d a b c t.code 0 r.code 0 sy
  | .vmin t m d a b sy => formA 0x44 m d a b 0 t.code 0 0 0 sy
  | .vmax t m d a b sy => formA 0x45 m d a b 0 t.code 0 0 0 sy
  | .vand t m d a b sy => formA 0x46 m d a b 0 t.code 0 0 0 sy
  | .vor t m d a b sy => formA 0x47 m d a b 0 t.code 0 0 0 sy
  | .vxor t m d a b sy => formA 0x48 m d a b 0 t.code 0 0 0 sy
  | .vshl t m d a b sy => formA 0x49 m d a b 0 t.code 0 0 0 sy
  | .vshr t m d a b sy => formA 0x4A m d a b 0 t.code 0 0 0 sy
  | .vsra t m d a b sy => formA 0x4B m d a b 0 t.code 0 0 0 sy
  | .vcmp t p m d a b sy => formA 0x4C m (d.zeroExtend 6) a b 0 t.code 0 0 p.code sy
  | .vsel m d a b sy => formA 0x4D m d a b 0 0 0 0 0 sy
  | .vcvt t f r m d a sy => formA 0x4E m d a 0 0 t.code f.code r.code 0 sy
  | .vabs t m d a sy => formA 0x4F m d a 0 0 t.code 0 0 0 sy
  | .vneg t m d a sy => formA 0x4F m d a 0 0 t.code 0 0 1 sy
  | .vrcp t r m d a sy => formA 0x4F m d a 0 0 t.code 0 r.code 2 sy
  | .vrsq t r m d a sy => formA 0x4F m d a 0 0 t.code 0 r.code 3 sy
  | .vexp2 t r m d a sy => formA 0x4F m d a 0 0 t.code 0 r.code 4 sy
  | .vlog2 t r m d a sy => formA 0x4F m d a 0 0 t.code 0 r.code 5 sy
  | .vsqrt t r m d a sy => formA 0x4F m d a 0 0 t.code 0 r.code 6 sy
  | .vdot t r m d a b c sy => formA 0x50 m d a b c t.code 0 r.code 0 sy
  | .vbcast sz m d a sy => formA 0x51 m d a 0 0 0 0 0 (sz.code.zeroExtend 6) sy
  | .vext d a b sy => formX 0x52 d a b 0 0 sy
  | .vins d a b sy => formX 0x53 d a b 0 0 sy
  | .vperm m d a b sy => formA 0x54 m d a b 0 0 0 0 0 sy
  | .vrot m d a b sy => formA 0x55 m d a b 0 0 0 0 0 sy
  | .vred t op r m d a sy => formA 0x56 m d a 0 0 t.code 0 r.code op.code sy
  | .vscan t op r m d a sy => formA 0x57 m d a 0 0 t.code 0 r.code op.code sy
  | .viota m d a sy => formA 0x58 m d a 0 0 0 0 0 0 sy
  | .vcomp m d a sy => formA 0x59 m d a 0 0 0 0 0 0 sy
  | .vtopk t m d a b sy => formA 0x5A m d a b 0 t.code 0 0 0 sy
  | .vtag m a b sy => formA 0x5B m 0 a b 0 0 0 0 0 sy
  | .setvl d a v sy => formI 0x5C 0 d a 0 0 v sy
  | .kand d a b sy => formX 0x60 (d.zeroExtend 6) (a.zeroExtend 6) (b.zeroExtend 6) 0 0 sy
  | .kor d a b sy => formX 0x61 (d.zeroExtend 6) (a.zeroExtend 6) (b.zeroExtend 6) 0 0 sy
  | .kxor d a b sy => formX 0x62 (d.zeroExtend 6) (a.zeroExtend 6) (b.zeroExtend 6) 0 0 sy
  | .knot d a sy => formX 0x63 (d.zeroExtend 6) (a.zeroExtend 6) 0 0 0 sy
  | .kmov (.kk d a) sy => formX 0x64 (d.zeroExtend 6) (a.zeroExtend 6) 0 0 0 sy
  | .kmov (.kx d a) sy => formX 0x64 (d.zeroExtend 6) a 0 0 1 sy
  | .kmov (.xk d a) sy => formX 0x64 d (a.zeroExtend 6) 0 0 2 sy
  | .kpopc d a sy => formX 0x65 d (a.zeroExtend 6) 0 0 0 sy
  | .kff d a sy => formX 0x66 d (a.zeroExtend 6) 0 0 0 sy
  | .ld sz sp d a m sy => m.form 0x68 sz sp d a sy
  | .st sz sp d a m sy => m.form 0x69 sz sp d a sy
  | .vld sz sp k d a m sy => m.form 0x6A sz sp k d a sy
  | .vst sz sp k d a m sy => m.form 0x6B sz sp k d a sy
  | .amo sz sp op d a b v sy => formI 0x6C 0 d a b (cMode sz sp op.code) v sy
  | .cas sz sp d a b v sy => formI 0x6D 0 d a b (cMode sz sp 0) v sy
  | .red sz sp op d a v sy => formI 0x6E 0 d a 0 (cMode sz sp op.code) v sy
  | .lease a v sy => formI 0x6F 0 0 a 0 0 v sy
  | .unlease d a v sy => formI 0x70 0 d a 0 0 v sy
  | .cbind n a sy => formC 0x80 0 a 0 n 0 0 sy
  | .cmark n a v sy => formC 0x81 0 a 0 n 0 v sy
  | .cadd d n a v sy => formC 0x82 d a 0 n 0 v sy
  | .cwait d n b sy => formC 0x83 d 0 b n 0 0 sy
  | .cwaitAny d n a b sy => formC 0x83 d a b n 1 0 sy
  | .cwaitAll d n a b sy => formC 0x83 d a b n 2 0 sy
  | .cread d n sy => formC 0x84 d 0 0 n 0 0 sy
  | .creset n sy => formC 0x85 0 0 0 n 0 0 sy
  | .fence sy => formC 0x86 0 0 0 0 0 0 sy
  | .efence sy => formC 0x87 0 0 0 0 0 0 sy
  | .tblfence a b sy => formC 0x88 0 a b 0 0 0 sy
  | .icinv x a b sy => formC 0x89 0 a b 0 x.code 0 sy
  | .spawn a sy => formI 0x90 0 0 a 0 0 0 sy
  | .finish sy => formI 0x91 0 0 0 0 0 0 sy
  | .yield sy => formI 0x92 0 0 0 0 0 0 sy
  | .exit sy => formI 0x93 0 0 0 0 0 0 sy
  | .trace d a v sy => formI 0x94 0 d a 0 0 v sy
  | .untrace sy => formI 0x95 0 0 0 0 0 0 sy
  | .step sy => formI 0x96 0 0 0 0 0 0 sy
  | .mloadw b a tg sy => formF 0xA0 (b.zeroExtend 6) a 0 0 0 tg sy
  | .mmul t a b shp zero skp tt af pr bm tg sy =>
    formF 0xA1 (t.zeroExtend 6) a b (bit1 shp ++ bit1 zero ++ bit1 skp ++ bit1 tt ++ (0 : BitVec 2))
      (af ++ pr ++ bm ++ (0 : BitVec 10)) tg sy
  | .mgrad t a b shp zero af gf bank kq go tg sy =>
    formF 0xA2 (t.zeroExtend 6) a b (bit1 shp ++ bit1 zero ++ (0 : BitVec 4)) (af ++ gf ++ bank ++ kq ++ go) tg sy
  | .mdrain t a b shp ps clr tt ofm r nc tg sy =>
    formF 0xA3 (t.zeroExtend 6) a b (bit1 shp ++ bit1 ps ++ bit1 clr ++ bit1 tt ++ (0 : BitVec 2))
      (ofm ++ r.code ++ nc ++ (0 : BitVec 7)) tg sy
  | .mprog a b n tg sy => formF 0xA4 0 a b 0 ((0 : BitVec 19) ++ n) tg sy
  | .mstat d a slct tg sy => formF 0xA5 d a 0 slct 0 tg sy
  | .mcap i a b tg sy => formG 0xA6 0 a b 0 i 0 tg.low sy
  | .xset fn a sy => formG 0xB0 0 a 0 0 fn 0 0 sy
  | .xgo d sy => formG 0xB1 d 0 0 0 0 0 0 sy
  | .xstat d a sy => formG 0xB2 d a 0 0 0 0 0 sy
  | .xresume d a sy => formG 0xB3 d a 0 0 0 0 0 sy
  | .xcancel d a sy => formG 0xB4 d a 0 0 0 0 0 sy
  | .msgTag d a b c sy => formG 0xB8 d a b c 0 0 0 sy
  | .msgApp d a b c sy => formG 0xB8 d a b c 1 0 0 sy
  | .nsend a b sy => formG 0xB9 0 a b 0 0 0 0 sy
  | .nsendRoute a b sy => formG 0xB9 0 a b 0 1 0 0 sy
  | .nred mx t p a b sy => formG 0xBA 0 a b 0 (if mx then 1 else 0) (t.code ++ p ++ (0 : BitVec 16)) 0 sy
  | .ncorrApply d a sy => formG 0xBB d a 0 0 0 0 0 sy
  | .ncorrScale d a sy => formG 0xBB d a 0 0 1 0 0 sy
  | .icprobe d a b v sy => formI 0xC0 0 d a b 0 v sy
  | .icfill s a b c sy => formX 0xC1 s a b c 0 sy
  | .icfillSite s sy => formX 0xC1 s 0 0 0 1 sy
  | .icfillAll sy => formX 0xC1 0 0 0 0 2 sy
  | .guard a b v sy => formI 0xC2 0 0 a b 0 v sy
  | .ldslot d a v sy => formI 0xC3 0 d a 0 (cMode .d .global 0) v sy
  | .stslot d a v sy => formI 0xC4 0 d a 0 (cMode .d .global 0) v sy
  | .tagchk a b v sy => formI 0xC5 0 0 a b 0 v sy
  | .alloc d a b sy => formI 0xC6 0 d a b 0 0 sy
  | .wbar a v sy => formI 0xC7 0 0 a 0 0 v sy
  | .trapSys code sy => formS 0xD0 0 0 0 0 code sy
  | .trapBrk code sy => formS 0xD0 0 0 1 0 code sy
  | .eret sy => formS 0xD1 0 0 0 0 0 sy
  | .srd d n sy => formS 0xD2 d 0 0 n 0 sy
  | .swr n a sy => formS 0xD3 0 a 0 n 0 sy
  | _ => formX 0 0 0 0 0 0 { ext := .none, wait := none, sig := none, scope := .device }

/-- The words of an instruction: the base word and the extension word. An event has none, and is given word 0. -/
def encode (i : Instr) : Word × Option Word :=
  match i with
  | .illegalOpcode base => (base, none)
  | i => i.form.words

/-! ### The decoder -/

/-- REM, NODE, CLUS, CIDX and the secret's register (R258). -/
def targetOf (ext : Option Word) (c : BitVec 6) : Target :=
  let f := LowG.unpack ((ext.getD 0).extractLsb' 0 31)
  if f.rem = 1 then .remote f.node f.clus f.cidx c else .here

def addr1Of (m : CM) (b : BitVec 6) (v : Word) : Addr1 := if m.mode = 2 then .reg b else .disp v

def addrVOf (m : CM) (b : BitVec 6) (v : Word) : AddrV :=
  if m.mode = 4 then .strided v b else if m.mode = 6 then .indexed v b else .unit v

def bitAt (w : BitVec n) (i : Nat) : Bool := w.getLsbD i

/-- Formats A to M, opcodes 0x01 to 0x37: scalar instructions and branches (R98). -/
def rawScalar (f : Base) (ext : Option Word) : Option Instr :=
  let sy := Sync.ofWord ext .device
  let v := imm28 ext f.lo
  let la := LoA.unpack f.lo
  let t := Ty.ofCode la.ty
  let r := Rnd.ofCode la.rnd
  match f.op.toNat with
  | 0x01 => some (.add f.d f.a f.b sy)
  | 0x02 => some (.addi f.d f.a v sy)
  | 0x03 => some (.sub f.d f.a f.b sy)
  | 0x04 => some (.mul f.d f.a f.b sy)
  | 0x05 => some (.mulh f.d f.a f.b sy)
  | 0x06 => some (.mulhu f.d f.a f.b sy)
  | 0x07 => some (.div f.d f.a f.b sy)
  | 0x08 => some (.divu f.d f.a f.b sy)
  | 0x09 => some (.rem f.d f.a f.b sy)
  | 0x0A => some (.remu f.d f.a f.b sy)
  | 0x0B => some (.and f.d f.a f.b sy)
  | 0x0C => some (.andi f.d f.a v sy)
  | 0x0D => some (.or f.d f.a f.b sy)
  | 0x0E => some (.ori f.d f.a v sy)
  | 0x0F => some (.xor f.d f.a f.b sy)
  | 0x10 => some (.xori f.d f.a v sy)
  | 0x11 => some (.shl f.d f.a f.b sy)
  | 0x12 => some (.shli f.d f.a v sy)
  | 0x13 => some (.shr f.d f.a f.b sy)
  | 0x14 => some (.shri f.d f.a v sy)
  | 0x15 => some (.sra f.d f.a f.b sy)
  | 0x16 => some (.srai f.d f.a v sy)
  | 0x17 => some (.slt f.d f.a f.b sy)
  | 0x18 => some (.sltu f.d f.a f.b sy)
  | 0x19 => some (.slti f.d f.a v sy)
  | 0x1A =>
    match la.fn.toNat with
    | 0 => some (.min f.d f.a f.b sy)
    | 1 => some (.max f.d f.a f.b sy)
    | 2 => some (.minu f.d f.a f.b sy)
    | 3 => some (.maxu f.d f.a f.b sy)
    | _ => none
  | 0x1B => some (.clz f.d f.a sy)
  | 0x1C => some (.popc f.d f.a sy)
  | 0x1D => some (.sel f.d f.a f.b f.c sy)
  | 0x1E => some (.li f.d v sy)
  | 0x1F => some (.adr f.d v sy)
  | 0x20 => some (.fadd t r f.d f.a f.b sy)
  | 0x21 => some (.fsub t r f.d f.a f.b sy)
  | 0x22 => some (.fmul t r f.d f.a f.b sy)
  | 0x23 => some (.ffma t r f.d f.a f.b f.c sy)
  | 0x24 => some (.fdiv t r f.d f.a f.b sy)
  | 0x25 => some (.fsqrt t r f.d f.a sy)
  | 0x26 => some (.fmin t f.d f.a f.b sy)
  | 0x27 => some (.fmax t f.d f.a f.b sy)
  | 0x28 => some (.fcmp t (Pred.ofCode la.fn) f.d f.a f.b sy)
  | 0x29 => some (.fcvt t (Ty.ofCode la.from_) r f.d f.a sy)
  | 0x2A => some (.fclass t f.d f.a sy)
  | 0x30 => some (.br (Cond.ofCode f.c) f.a f.b v sy)
  | 0x31 => some (.j v sy)
  | 0x32 => some (.jl f.d v sy)
  | 0x33 => some (.jr f.a v sy)
  | 0x34 => some (.jlr f.d f.a v sy)
  | 0x35 => some (.loop f.d v sy)
  | 0x36 => some (.bany (f.c.truncate 3) v sy)
  | 0x37 => some (.ball (f.c.truncate 3) v sy)
  | _ => none

/-- Opcodes 0x40 to 0x66: vector and mask instructions (R98). -/
def rawVector (f : Base) (ext : Option Word) : Option Instr :=
  let sy := Sync.ofWord ext .device
  let la := LoA.unpack f.lo
  let t := Ty.ofCode la.ty
  let r := Rnd.ofCode la.rnd
  let m := f.k
  match f.op.toNat with
  | 0x40 => some (.vadd t r m f.d f.a f.b sy)
  | 0x41 => some (.vsub t r m f.d f.a f.b sy)
  | 0x42 => some (.vmul t r m f.d f.a f.b sy)
  | 0x43 => some (.vfma t r m f.d f.a f.b f.c sy)
  | 0x44 => some (.vmin t m f.d f.a f.b sy)
  | 0x45 => some (.vmax t m f.d f.a f.b sy)
  | 0x46 => some (.vand t m f.d f.a f.b sy)
  | 0x47 => some (.vor t m f.d f.a f.b sy)
  | 0x48 => some (.vxor t m f.d f.a f.b sy)
  | 0x49 => some (.vshl t m f.d f.a f.b sy)
  | 0x4A => some (.vshr t m f.d f.a f.b sy)
  | 0x4B => some (.vsra t m f.d f.a f.b sy)
  | 0x4C => some (.vcmp t (Pred.ofCode la.fn) m (f.d.truncate 3) f.a f.b sy)
  | 0x4D => some (.vsel m f.d f.a f.b sy)
  | 0x4E => some (.vcvt t (Ty.ofCode la.from_) r m f.d f.a sy)
  | 0x4F =>
    match la.fn.toNat with
    | 0 => some (.vabs t m f.d f.a sy)
    | 1 => some (.vneg t m f.d f.a sy)
    | 2 => some (.vrcp t r m f.d f.a sy)
    | 3 => some (.vrsq t r m f.d f.a sy)
    | 4 => some (.vexp2 t r m f.d f.a sy)
    | 5 => some (.vlog2 t r m f.d f.a sy)
    | 6 => some (.vsqrt t r m f.d f.a sy)
    | _ => none
  | 0x50 => some (.vdot t r m f.d f.a f.b f.c sy)
  | 0x51 => some (.vbcast (Size.ofCode (la.fn.truncate 2)) m f.d f.a sy)
  | 0x52 => some (.vext f.d f.a f.b sy)
  | 0x53 => some (.vins f.d f.a f.b sy)
  | 0x54 => some (.vperm m f.d f.a f.b sy)
  | 0x55 => some (.vrot m f.d f.a f.b sy)
  | 0x56 => some (.vred t (ROp.ofCode la.fn) r m f.d f.a sy)
  | 0x57 => some (.vscan t (ROp.ofCode la.fn) r m f.d f.a sy)
  | 0x58 => some (.viota m f.d f.a sy)
  | 0x59 => some (.vcomp m f.d f.a sy)
  | 0x5A => some (.vtopk t m f.d f.a f.b sy)
  | 0x5B => some (.vtag m f.a f.b sy)
  | 0x5C => some (.setvl f.d f.a (imm28 ext f.lo) sy)
  | 0x60 => some (.kand (f.d.truncate 3) (f.a.truncate 3) (f.b.truncate 3) sy)
  | 0x61 => some (.kor (f.d.truncate 3) (f.a.truncate 3) (f.b.truncate 3) sy)
  | 0x62 => some (.kxor (f.d.truncate 3) (f.a.truncate 3) (f.b.truncate 3) sy)
  | 0x63 => some (.knot (f.d.truncate 3) (f.a.truncate 3) sy)
  | 0x64 =>
    match la.fn.toNat with
    | 0 => some (.kmov (.kk (f.d.truncate 3) (f.a.truncate 3)) sy)
    | 1 => some (.kmov (.kx (f.d.truncate 3) f.a) sy)
    | 2 => some (.kmov (.xk f.d (f.a.truncate 3)) sy)
    | _ => none
  | 0x65 => some (.kpopc f.d (f.a.truncate 3) sy)
  | 0x66 => some (.kff f.d (f.a.truncate 3) sy)
  | _ => none

/-- Opcodes 0x68 to 0x96: memory, counter and strand instructions (R98). -/
def rawMemory (f : Base) (ext : Option Word) : Option Instr :=
  let sy := Sync.ofWord ext .device
  let v := imm28 ext f.lo
  let cm := CM.unpack f.c
  let sz := Size.ofCode cm.size
  let sp := Space.ofCode cm.space
  let lc := LoC.unpack f.lo
  let n := lc.slot
  let cv := imm16 ext lc.cimm
  let sc := Sync.ofWord ext (Scope.ofCode (CC.unpack f.c).scope)
  match f.op.toNat with
  | 0x68 => some (.ld sz sp f.d f.a (addr1Of cm f.b v) sy)
  | 0x69 => some (.st sz sp f.d f.a (addr1Of cm f.b v) sy)
  | 0x6A => some (.vld sz sp f.k f.d f.a (addrVOf cm f.b v) sy)
  | 0x6B => some (.vst sz sp f.k f.d f.a (addrVOf cm f.b v) sy)
  | 0x6C => some (.amo sz sp (AOp.ofCode cm.mode) f.d f.a f.b v sy)
  | 0x6D => some (.cas sz sp f.d f.a f.b v sy)
  | 0x6E => some (.red sz sp (AOp.ofCode cm.mode) f.d f.a v sy)
  | 0x6F => some (.lease f.a v sy)
  | 0x70 => some (.unlease f.d f.a v sy)
  | 0x80 => some (.cbind n f.a sc)
  | 0x81 => some (.cmark n f.a cv sc)
  | 0x82 => some (.cadd f.d n f.a cv sc)
  | 0x83 =>
    match lc.cop.toNat with
    | 0 => some (.cwait f.d n f.b sc)
    | 1 => some (.cwaitAny f.d n f.a f.b sc)
    | 2 => some (.cwaitAll f.d n f.a f.b sc)
    | _ => none
  | 0x84 => some (.cread f.d n sc)
  | 0x85 => some (.creset n sc)
  | 0x86 => some (.fence sc)
  | 0x87 => some (.efence sc)
  | 0x88 => some (.tblfence f.a f.b sc)
  | 0x89 => some (.icinv (Extent.ofCode lc.cop) f.a f.b sc)
  | 0x90 => some (.spawn f.a sy)
  | 0x91 => some (.finish sy)
  | 0x92 => some (.yield sy)
  | 0x93 => some (.exit sy)
  | 0x94 => some (.trace f.d f.a v sy)
  | 0x95 => some (.untrace sy)
  | 0x96 => some (.step sy)
  | _ => none

/-- Opcodes 0xA0 to 0xBB: engine commands (R98, R258, R277, R291, R442). -/
def rawEngine (f : Base) (ext : Option Word) : Option Instr :=
  let sy := Sync.ofWord ext .device
  let lg := LoG.unpack f.lo
  let tg := targetOf ext f.c
  match f.op.toNat with
  | 0xA0 => some (.mloadw (f.d.truncate 2) f.a tg sy)
  | 0xA1 =>
    some (.mmul (f.d.truncate 5) f.a f.b (bitAt lg.fn 5) (bitAt lg.fn 4) (bitAt lg.fn 3) (bitAt lg.fn 2)
      (lg.eop.extractLsb' 18 4) (lg.eop.extractLsb' 14 4) (lg.eop.extractLsb' 10 4) tg sy)
  | 0xA2 =>
    some (.mgrad (f.d.truncate 5) f.a f.b (bitAt lg.fn 5) (bitAt lg.fn 4) (lg.eop.extractLsb' 18 4)
      (lg.eop.extractLsb' 14 4) (lg.eop.extractLsb' 12 2) (lg.eop.extractLsb' 10 2) (lg.eop.extractLsb' 0 10) tg sy)
  | 0xA3 =>
    some (.mdrain (f.d.truncate 5) f.a f.b (bitAt lg.fn 5) (bitAt lg.fn 4) (bitAt lg.fn 3) (bitAt lg.fn 2)
      (lg.eop.extractLsb' 18 4) (Rnd.ofCode (lg.eop.extractLsb' 15 3)) (lg.eop.extractLsb' 7 8) tg sy)
  | 0xA4 => some (.mprog f.a f.b (lg.eop.extractLsb' 0 3) tg sy)
  | 0xA5 => some (.mstat f.d f.a lg.fn tg sy)
  | 0xA6 => some (.mcap lg.fn f.a f.b tg sy)
  | 0xB0 => some (.xset lg.fn f.a sy)
  | 0xB1 => some (.xgo f.d sy)
  | 0xB2 => some (.xstat f.d f.a sy)
  | 0xB3 => some (.xresume f.d f.a sy)
  | 0xB4 => some (.xcancel f.d f.a sy)
  | 0xB8 => if lg.fn = 0 then some (.msgTag f.d f.a f.b f.c sy) else some (.msgApp f.d f.a f.b f.c sy)
  | 0xB9 => if lg.fn = 0 then some (.nsend f.a f.b sy) else some (.nsendRoute f.a f.b sy)
  | 0xBA => some (.nred (lg.fn = 1) (Ty.ofCode (lg.eop.extractLsb' 18 4)) (lg.eop.extractLsb' 16 2) f.a f.b sy)
  | 0xBB => if lg.fn = 0 then some (.ncorrApply f.d f.a sy) else some (.ncorrScale f.d f.a sy)
  | _ => none

/-- Opcodes 0xC0 to 0xD3: dynamic and system instructions (R98, R338). -/
def rawSystem (f : Base) (ext : Option Word) : Option Instr :=
  let sy := Sync.ofWord ext .device
  let v := imm28 ext f.lo
  let fn := (LoA.unpack f.lo).fn
  let ls := LoS.unpack f.lo
  match f.op.toNat with
  | 0xC0 => some (.icprobe f.d f.a f.b v sy)
  | 0xC1 =>
    match fn.toNat with
    | 0 => some (.icfill f.d f.a f.b f.c sy)
    | 1 => some (.icfillSite f.d sy)
    | 2 => some (.icfillAll sy)
    | _ => none
  | 0xC2 => some (.guard f.a f.b v sy)
  | 0xC3 => some (.ldslot f.d f.a v sy)
  | 0xC4 => some (.stslot f.d f.a v sy)
  | 0xC5 => some (.tagchk f.a f.b v sy)
  | 0xC6 => some (.alloc f.d f.a f.b sy)
  | 0xC7 => some (.wbar f.a v sy)
  | 0xD0 => if f.c = 0 then some (.trapSys ls.code sy) else some (.trapBrk ls.code sy)
  | 0xD1 => some (.eret sy)
  | 0xD2 => some (.srd f.d ls.srn sy)
  | 0xD3 => some (.swr ls.srn f.a sy)
  | _ => none

/-- What the opcode and its sub-operation fields select, before the reserved fields are looked at. -/
def rawDecode (base : Word) (ext : Option Word) : Option Instr :=
  let f := Base.unpack base
  let op := f.op.toNat
  if op < 0x40 then rawScalar f ext
  else if op < 0x68 then rawVector f ext
  else if op < 0xA0 then rawMemory f ext
  else if op < 0xC0 then rawEngine f ext
  else rawSystem f ext

/-- Why words are no instruction. Each of the last two raises ILLEGAL (R100). -/
inductive Reject where
  /-- fewer bytes than the word, or the word and its extension word, need -/
  | truncated
  /-- the sub-operation field selects nothing (R99) -/
  | noSubOperation
  /-- a reserved field, a reserved value, or an extension word that the format does not take (R83 to R97) -/
  | illegalField
  deriving DecidableEq, Repr

/-- The instruction of a base word and, when its bit 55 is 1, the word after it. A word whose major opcode is 0x00,
0xFF or reserved is the row ILLEGAL_OPCODE (R100). -/
def decode (base : Word) (ext : Option Word) : Except Reject Instr :=
  if reservedOp (base.extractLsb' 56 8).toNat then .ok (.illegalOpcode base)
  else
    match rawDecode base ext with
    | none => .error .noSubOperation
    | some i => if i.wf && encode i == (base, ext) then .ok i else .error .illegalField

/-- E, bit 55: an extension word follows (R83). -/
def hasExt (base : Word) : Bool := base.getLsbD 55

/-- The little-endian value of a list of bytes (R7). -/
def leNat : List Byte → Nat
  | [] => 0
  | b :: bs => b.toNat + 256 * leNat bs

/-- The `n` little-endian bytes of a number. -/
def leBytes : Nat → Nat → List Byte
  | 0, _ => []
  | n + 1, v => BitVec.ofNat 8 v :: leBytes n (v / 256)

def leWord (bs : List Byte) : Word := BitVec.ofNat 64 (leNat bs)

/-- The instruction at the front of a list of bytes, and the bytes it takes. -/
def decodeBytes (bs : List Byte) : Except Reject (Instr × Nat) :=
  if bs.length < 8 then .error .truncated
  else
    let base := leWord (bs.take 8)
    if hasExt base && !reservedOp (base.extractLsb' 56 8).toNat then
      if bs.length < 16 then .error .truncated
      else (decode base (some (leWord ((bs.drop 8).take 8)))).map fun i => (i, 16)
    else (decode base none).map fun i => (i, 8)

/-- The bytes of an instruction as memory holds them. -/
def encodeBytes (i : Instr) : List Byte :=
  let w := encode i
  leBytes 8 w.1.toNat ++ (match w.2 with | none => [] | some x => leBytes 8 x.toNat)

/-- The host's question: the instruction of `nbits` bits numbered from the least significant bit of the first word. -/
def decodeTableWord (nbits w : Nat) : Option Instr :=
  match decodeBytes (leBytes 16 (w % 2 ^ nbits)) with
  | .ok (i, _) => some i
  | .error _ => none

end Sys2Proof
end

