-- ==== Sys2Proof/Machine/Flags.lean ====
section
/-! DEFINITION. The flags of sr.fcsr and of completion status words (R123, R124). -/

namespace Sys2Proof.Machine

/-- SU NV DZ OF UF NX, from bit 5 to bit 0 (R124). -/
abbrev Flags := BitVec 6

def Flags.none : Flags := 0
def Flags.nx : Flags := 1
def Flags.uf : Flags := 2
def Flags.of : Flags := 4
def Flags.dz : Flags := 8
def Flags.nv : Flags := 16
def Flags.su : Flags := 32

/-- NX of a result (R123). -/
def Flags.inexact (b : Bool) : Flags := if b then Flags.nx else 0

/-- UF and NX of a result: UF is raised when it is tiny and inexact (R123). -/
def Flags.ofRounding (tiny inexact : Bool) : Flags := (if tiny && inexact then Flags.uf else 0) ||| Flags.inexact inexact

/-- NV of an operation (R123). -/
def Flags.invalid (b : Bool) : Flags := if b then Flags.nv else 0

end Sys2Proof.Machine
end

