-- ==== Sys2Proof/Machine/Float.lean ====
section
/-! DEFINITION. Number formats, rounding, and the exact arithmetic behind every floating-point operation (R110 to R127). -/

namespace Sys2Proof.Machine

open Sys2Proof

/-- How a format uses its top exponent code (R110). -/
inductive Top where
  /-- infinities and NaNs -/
  | ieee
  /-- one NaN code, no infinity: E4M3 -/
  | oneNan
  /-- neither -/
  | finite
  deriving DecidableEq, Repr

/-- A floating-point format (R110). -/
structure Fmt where
  ebits : Nat
  fbits : Nat
  bias : Nat
  top : Top
  deriving DecidableEq, Repr

def Fmt.f64 : Fmt := ⟨11, 52, 1023, .ieee⟩
def Fmt.f32 : Fmt := ⟨8, 23, 127, .ieee⟩
def Fmt.f16 : Fmt := ⟨5, 10, 15, .ieee⟩
def Fmt.bf16 : Fmt := ⟨8, 7, 127, .ieee⟩
def Fmt.e5m2 : Fmt := ⟨5, 2, 15, .ieee⟩
def Fmt.e4m3 : Fmt := ⟨4, 3, 7, .oneNan⟩
def Fmt.e3m2 : Fmt := ⟨3, 2, 3, .finite⟩
def Fmt.e2m3 : Fmt := ⟨2, 3, 1, .finite⟩
def Fmt.e2m1 : Fmt := ⟨2, 1, 1, .finite⟩

/-- The format of a floating-point TYPE (R85); an integer TYPE has none and is given f32. -/
def tyFmt : Ty → Fmt
  | .f16 => Fmt.f16 | .bf16 => Fmt.bf16 | .f64 => Fmt.f64 | .e4m3 => Fmt.e4m3 | .e5m2 => Fmt.e5m2 | _ => Fmt.f32

/-- A number as an operation sees it; `fin neg m e` is (-1)^neg m 2^e, so that zero keeps its sign. -/
inductive FV where
  | nan (signalling : Bool)
  | inf (neg : Bool)
  | fin (neg : Bool) (m : Nat) (e : Int)
  deriving DecidableEq, Repr

def Fmt.maxE (f : Fmt) : Nat := 2 ^ f.ebits - 1

/-- The value of a code (R111). -/
def Fmt.decode (f : Fmt) (code : Nat) : FV :=
  let frac := code % 2 ^ f.fbits
  let e := code / 2 ^ f.fbits % 2 ^ f.ebits
  let neg := code / 2 ^ (f.fbits + f.ebits) % 2 = 1
  let body : FV :=
    if e = 0 then .fin neg frac (1 - (f.bias : Int) - f.fbits)
    else .fin neg (2 ^ f.fbits + frac) ((e : Int) - f.bias - f.fbits)
  match f.top with
  | .ieee =>
    if e = f.maxE then (if frac = 0 then .inf neg else .nan (decide (frac < 2 ^ (f.fbits - 1)))) else body
  | .oneNan => if e = f.maxE ∧ frac = 2 ^ f.fbits - 1 then .nan false else body
  | .finite => body

def Fmt.signBit (f : Fmt) (neg : Bool) : Nat := if neg then 2 ^ (f.ebits + f.fbits) else 0

/-- The canonical NaN, sign 0 (R110, R112). -/
def Fmt.nanCode (f : Fmt) : Nat :=
  match f.top with
  | .ieee => f.maxE * 2 ^ f.fbits + 2 ^ (f.fbits - 1)
  | .oneNan => f.maxE * 2 ^ f.fbits + (2 ^ f.fbits - 1)
  | .finite => 0

/-- The largest finite magnitude's code (R110). -/
def Fmt.maxCode (f : Fmt) : Nat :=
  match f.top with
  | .ieee => f.maxE * 2 ^ f.fbits - 1
  | .oneNan => f.maxE * 2 ^ f.fbits + (2 ^ f.fbits - 2)
  | .finite => f.maxE * 2 ^ f.fbits + (2 ^ f.fbits - 1)

/-- The code of an infinity; a format without one delivers its largest finite value (R120). -/
def Fmt.infCode (f : Fmt) (neg : Bool) : Nat :=
  f.signBit neg + (if f.top = .ieee then f.maxE * 2 ^ f.fbits else f.maxCode)

/-- Number of bits of a number. -/
def bitLen (m : Nat) : Nat := if m = 0 then 0 else Nat.log2 m + 1

/-- Whether the magnitude `t` + `rem` / 2^`shift` rounds up to `t` + 1 (R119, R122). -/
def roundsUp (r : Rnd) (neg : Bool) (t rem shift draw : Nat) : Bool :=
  match r with
  | .rne | .dyn => 2 * rem > 2 ^ shift || (2 * rem = 2 ^ shift && t % 2 = 1)
  | .rtz => false
  | .rdn => neg && rem != 0
  | .rup => !neg && rem != 0
  | .rna => rem != 0 && 2 * rem ≥ 2 ^ shift
  | .rsr => rem * 65536 / 2 ^ shift + draw ≥ 65536

/-- The magnitude m 2^e as a multiple of 2^q: the rounded multiple and whether it is inexact. -/
def roundAt (r : Rnd) (neg : Bool) (m : Nat) (e q : Int) (draw : Nat) : Nat × Bool :=
  if q ≤ e then (m * 2 ^ (e - q).toNat, false)
  else
    let shift := (q - e).toNat
    let t := m / 2 ^ shift
    let rem := m % 2 ^ shift
    (if roundsUp r neg t rem shift draw then t + 1 else t, rem != 0)

/-- The code of a result whose magnitude overflows (R120). -/
def Fmt.overflow (f : Fmt) (r : Rnd) (neg : Bool) : Nat :=
  let big := f.signBit neg + f.maxCode
  match r with
  | .rne | .dyn | .rna => f.infCode neg
  | .rtz | .rsr => big
  | .rdn => if neg then f.infCode neg else big
  | .rup => if neg then big else f.infCode neg

/-- A nonzero or zero magnitude m 2^e rounded to a format, with the flags of R120, R113 and R123. -/
def Fmt.round (f : Fmt) (r : Rnd) (draw : Nat) (neg : Bool) (m : Nat) (e : Int) : Nat × Flags :=
  if m = 0 then (f.signBit neg, 0)
  else
    let emin : Int := 1 - f.bias
    let top : Int := (bitLen m : Int) - 1 + e
    let q := max (top - f.fbits) (emin - f.fbits)
    let (t, inexact) := roundAt r neg m e q draw
    -- tininess: rounded as if the exponent range were unbounded (R113)
    let (u, _) := roundAt r neg m e (top - f.fbits) draw
    let tiny := decide ((bitLen u : Int) - 1 + (top - f.fbits) < emin)
    -- normalise a carry out of the significand
    let (t, q) := if bitLen t > f.fbits + 1 then (t / 2, q + 1) else (t, q)
    let code := if bitLen t ≤ f.fbits then t else (q + f.fbits + f.bias).toNat * 2 ^ f.fbits + (t - 2 ^ f.fbits)
    if code > f.maxCode then (f.overflow r neg, Flags.of ||| Flags.nx)
    else (f.signBit neg + code, Flags.ofRounding tiny inexact)

def FV.isNan : FV → Bool
  | .nan _ => true
  | _ => false

def FV.isSnan : FV → Bool
  | .nan s => s
  | _ => false

def FV.neg : FV → FV
  | .nan s => .nan s
  | .inf n => .inf !n
  | .fin n m e => .fin (!n) m e

/-- NV of a signalling operand (R112). -/
def snanFlags (xs : List FV) : Flags := Flags.invalid (xs.any FV.isSnan)

/-- m 2^e as a signed multiple of 2^q, for q ≤ e. -/
def scaled (neg : Bool) (m : Nat) (e q : Int) : Int :=
  let v : Int := (m * 2 ^ (e - q).toNat : Nat)
  if neg then -v else v

/-- An exact sum of finite numbers. An exact zero of opposite signs is +0, -0 in rdn (R119). -/
def exactAdd (r : Rnd) (n1 : Bool) (m1 : Nat) (e1 : Int) (n2 : Bool) (m2 : Nat) (e2 : Int) : Bool × Nat × Int :=
  let q := min e1 e2
  let s := scaled n1 m1 e1 q + scaled n2 m2 e2 q
  if s = 0 then ((if n1 = n2 then n1 else r == .rdn), 0, q) else (decide (s < 0), s.natAbs, q)

/-- A result before rounding: NaN (NV when invalid), an infinity, or an exact finite number. -/
def Fmt.deliver (f : Fmt) (r : Rnd) (v : FV) (fl : Flags) : Nat × Flags :=
  match v with
  | .nan _ => (f.nanCode, fl)
  | .inf n => (f.infCode n, fl)
  | .fin n m e => let (c, g) := f.round r 0 n m e; (c, fl ||| g)

/-- a + b (R112, R119, R414). -/
def FV.add (r : Rnd) (a b : FV) : FV × Flags :=
  match a, b with
  | .nan x, .nan y => (.nan false, Flags.invalid (x || y))
  | .nan x, _ => (.nan false, Flags.invalid x)
  | _, .nan y => (.nan false, Flags.invalid y)
  | .inf x, .inf y => if x = y then (.inf x, 0) else (.nan false, Flags.nv)
  | .inf x, .fin _ _ _ => (.inf x, 0)
  | .fin _ _ _, .inf y => (.inf y, 0)
  | .fin n1 m1 e1, .fin n2 m2 e2 => let (n, m, e) := exactAdd r n1 m1 e1 n2 m2 e2; (.fin n m e, 0)

/-- a × b (R112, R414). -/
def FV.mul (a b : FV) : FV × Flags :=
  match a, b with
  | .nan x, .nan y => (.nan false, Flags.invalid (x || y))
  | .nan x, _ => (.nan false, Flags.invalid x)
  | _, .nan y => (.nan false, Flags.invalid y)
  | .inf x, .inf y => (.inf (x != y), 0)
  | .inf x, .fin y m _ => if m = 0 then (.nan false, Flags.nv) else (.inf (x != y), 0)
  | .fin x m _, .inf y => if m = 0 then (.nan false, Flags.nv) else (.inf (x != y), 0)
  | .fin x m1 e1, .fin y m2 e2 => (.fin (x != y) (m1 * m2) (e1 + e2), 0)

/-- a × b + c exactly; 0 × ∞ raises NV whatever c is (R414). -/
def FV.fma (r : Rnd) (a b c : FV) : FV × Flags :=
  let (p, f1) := FV.mul a b
  let (s, f2) := FV.add r p c
  (s, f1 ||| f2)

def fAdd (f : Fmt) (r : Rnd) (a b : Nat) : Nat × Flags :=
  let (v, fl) := FV.add r (f.decode a) (f.decode b)
  f.deliver r v fl

def fSub (f : Fmt) (r : Rnd) (a b : Nat) : Nat × Flags :=
  let (v, fl) := FV.add r (f.decode a) (f.decode b).neg
  f.deliver r v fl

def fMul (f : Fmt) (r : Rnd) (a b : Nat) : Nat × Flags :=
  let (v, fl) := FV.mul (f.decode a) (f.decode b)
  f.deliver r v fl

def fFma (f : Fmt) (r : Rnd) (a b c : Nat) : Nat × Flags :=
  let (v, fl) := FV.fma r (f.decode a) (f.decode b) (f.decode c)
  f.deliver r v fl

/-- Bits of quotient that division, roots and the elementary functions compute before the sticky bit. -/
def workBits : Nat := 192

/-- m1 / m2 as a dyadic number that rounds as the quotient does in every format: the lowest bit is sticky. -/
def divSticky (m1 m2 : Nat) : Nat × Int :=
  let k := workBits + bitLen m2
  let q := m1 * 2 ^ k / m2
  let exact := m1 * 2 ^ k % m2 = 0
  (2 * q + (if exact then 0 else 1), -(k : Int) - 1)

/-- a / b (R414). -/
def FV.div (a b : FV) : FV × Flags :=
  match a, b with
  | .nan x, .nan y => (.nan false, Flags.invalid (x || y))
  | .nan x, _ => (.nan false, Flags.invalid x)
  | _, .nan y => (.nan false, Flags.invalid y)
  | .inf _, .inf _ => (.nan false, Flags.nv)
  | .inf x, .fin y _ _ => (.inf (x != y), 0)
  | .fin x _ _, .inf y => (.fin (x != y) 0 0, 0)
  | .fin x m1 e1, .fin y m2 e2 =>
    if m2 = 0 then (if m1 = 0 then (.nan false, Flags.nv) else (.inf (x != y), Flags.dz))
    else let (m, e) := divSticky m1 m2; (.fin (x != y) m (e + e1 - e2), 0)

def fDiv (f : Fmt) (r : Rnd) (a b : Nat) : Nat × Flags :=
  let (v, fl) := FV.div (f.decode a) (f.decode b)
  f.deliver r v fl

/-- sqrt(m 2^e) with a sticky lowest bit. -/
def sqrtSticky (m : Nat) (e : Int) : Nat × Int :=
  let (m, e) := if e % 2 = 0 then (m, e) else (2 * m, e - 1)
  let k := workBits
  let s := Nat.sqrt (m * 2 ^ (2 * k))
  let exact := s * s = m * 2 ^ (2 * k)
  (2 * s + (if exact then 0 else 1), e / 2 - k - 1)

/-- sqrt(a) (R414, R479). -/
def FV.sqrt (a : FV) : FV × Flags :=
  match a with
  | .nan x => (.nan false, Flags.invalid x)
  | .inf neg => if neg then (.nan false, Flags.nv) else (.inf false, 0)
  | .fin neg m e =>
    if m = 0 then (.fin neg 0 e, 0)
    else if neg then (.nan false, Flags.nv)
    else let (s, q) := sqrtSticky m e; (.fin false s q, 0)

def fSqrt (f : Fmt) (r : Rnd) (a : Nat) : Nat × Flags :=
  let (v, fl) := FV.sqrt (f.decode a)
  f.deliver r v fl

/-- 1 / a (R479). -/
def FV.rcp (a : FV) : FV × Flags := FV.div (.fin false 1 0) a

/-- 1 / sqrt(a) (R479). -/
def FV.rsqrt (a : FV) : FV × Flags :=
  match a with
  | .nan x => (.nan false, Flags.invalid x)
  | .inf neg => if neg then (.nan false, Flags.nv) else (.fin false 0 0, 0)
  | .fin neg m e =>
    if m = 0 then (.inf neg, Flags.dz)
    else if neg then (.nan false, Flags.nv)
    else
      let (m, e) := if e % 2 = 0 then (m, e) else (2 * m, e - 1)
      let k := workBits + bitLen m
      let s := Nat.sqrt (2 ^ (2 * k) / m)
      let exact := s * s * m = 2 ^ (2 * k)
      (.fin false (2 * s + (if exact then 0 else 1)) (-(e / 2) - k - 1), 0)

/-- Fixed-point precision of the two elementary functions. -/
def elemBits : Nat := 512

/-- The product of the roots 2^(2^-i) that the bits of `frac` (i = 1 first, `n` bits left) select; `root` is the last
root taken, in fixed point of elemBits bits. -/
def exp2Frac : Nat → Nat → Nat → Nat → Nat
  | 0, _, _, acc => acc
  | n + 1, frac, root, acc =>
    let root := Nat.sqrt (root * 2 ^ elemBits)
    let acc := if frac / 2 ^ n % 2 = 1 then acc * root / 2 ^ elemBits else acc
    exp2Frac n frac root acc

/-- 2^a (R479). A dyadic a that is no integer has an irrational power, so that its result is never exact (log 8). -/
def FV.exp2 (a : FV) : FV × Flags :=
  match a with
  | .nan x => (.nan false, Flags.invalid x)
  | .inf neg => (if neg then .fin false 0 0 else .inf false, 0)
  | .fin neg m e =>
    if m = 0 then (.fin false 1 0, 0)
    -- |a| of 2^17 and more is beyond every format's exponents
    else if (bitLen m : Int) + e > 17 then (.fin false 1 (if neg then -200000 else 200000), 0)
    else
      let v := scaled neg m e (min e 0)
      let unit : Int := (2 ^ (-(min e 0)).toNat : Nat)
      let n := v / unit
      let frac := (v % unit).toNat
      if frac = 0 then (.fin false 1 n, 0)
      else
        let p := exp2Frac (-(min e 0)).toNat frac (2 ^ (elemBits + 1)) (2 ^ elemBits)
        (.fin false (2 * p + 1) (n - elemBits - 1), 0)

/-- `n` fractional bits of log2 y, for y in [1, 2) in fixed point of elemBits bits, by repeated squaring. -/
def log2Frac : Nat → Nat → Nat → Nat
  | 0, _, acc => acc
  | n + 1, y, acc =>
    let y := y * y / 2 ^ elemBits
    if y ≥ 2 ^ (elemBits + 1) then log2Frac n (y / 2) (2 * acc + 1) else log2Frac n y (2 * acc)

/-- log2 a (R479). A dyadic a that is no power of two has an irrational logarithm (log 8). -/
def FV.log2 (a : FV) : FV × Flags :=
  match a with
  | .nan x => (.nan false, Flags.invalid x)
  | .inf neg => if neg then (.nan false, Flags.nv) else (.inf false, 0)
  | .fin neg m e =>
    if m = 0 then (.inf true, Flags.dz)
    else if neg then (.nan false, Flags.nv)
    else
      let l := bitLen m - 1
      let n : Int := l + e
      if m = 2 ^ l then (.fin (decide (n < 0)) n.natAbs 0, 0)
      else
        let y := m * 2 ^ elemBits / 2 ^ l
        let frac := log2Frac workBits y 0
        -- n + frac / 2^workBits, truncated down; one more bit marks it inexact
        let v : Int := 2 * (n * 2 ^ workBits + frac) + 1
        (.fin (decide (v < 0)) v.natAbs (-(workBits : Int) - 1), 0)

def fElem (g : FV → FV × Flags) (f : Fmt) (r : Rnd) (a : Nat) : Nat × Flags :=
  let (v, fl) := g (f.decode a)
  f.deliver r v fl

/-- a < b, numbers and infinities only; -0 equals +0. -/
def FV.lt (a b : FV) : Bool :=
  match a, b with
  | .nan _, _ => false
  | _, .nan _ => false
  | .inf x, .inf y => x && !y
  | .inf x, .fin _ _ _ => x
  | .fin _ _ _, .inf y => !y
  | .fin n1 m1 e1, .fin n2 m2 e2 => let q := min e1 e2; decide (scaled n1 m1 e1 q < scaled n2 m2 e2 q)

def FV.eq (a b : FV) : Bool := !a.isNan && !b.isNan && !FV.lt a b && !FV.lt b a

/-- FCMP's predicates and their NV (R417). -/
def fCmp (p : Pred) (a b : FV) : Bool × Flags :=
  let un := a.isNan || b.isNan
  let quiet := snanFlags [a, b]
  let ordered := Flags.invalid un
  match p with
  | .eq => (FV.eq a b, quiet)
  | .ne => (!FV.eq a b, quiet)
  | .lt => (FV.lt a b, ordered)
  | .le => (!un && !FV.lt b a, ordered)
  | .gt => (FV.lt b a, ordered)
  | .ge => (!un && !FV.lt a b, ordered)
  | .un => (un, quiet)

/-- a is below b with -0 below +0 (R423). -/
def FV.below (a b : FV) : Bool :=
  match a, b with
  | .fin n1 m1 _, .fin n2 m2 _ => if m1 = 0 ∧ m2 = 0 then n1 && !n2 else FV.lt a b
  | _, _ => FV.lt a b

/-- FMIN (`smaller`) and FMAX on codes (R423). -/
def fMinMax (f : Fmt) (smaller : Bool) (a b : Nat) : Nat × Flags :=
  let x := f.decode a
  let y := f.decode b
  let fl := snanFlags [x, y]
  if x.isNan && y.isNan then (f.nanCode, fl)
  else if x.isNan then (b, fl)
  else if y.isNan then (a, fl)
  else if (if smaller then FV.below y x else FV.below x y) then (b, fl) else (a, fl)

/-- FCLASS (R416). -/
def fClass (f : Fmt) (code : Nat) : Nat :=
  match f.decode code with
  | .inf true => 2 ^ 0
  | .inf false => 2 ^ 7
  | .nan true => 2 ^ 8
  | .nan false => 2 ^ 9
  | .fin neg m _ =>
    if m = 0 then (if neg then 2 ^ 3 else 2 ^ 4)
    else if m < 2 ^ f.fbits then (if neg then 2 ^ 2 else 2 ^ 5)
    else (if neg then 2 ^ 1 else 2 ^ 6)

/-! ### Conversions (R126) -/

/-- The range of an integer type (R114). -/
def intMin (signed : Bool) (w : Nat) : Int := if signed then -(2 ^ (w - 1) : Nat) else 0

def intMax (signed : Bool) (w : Nat) : Int := if signed then (2 ^ (w - 1) : Nat) - 1 else (2 ^ w : Nat) - 1

def tySigned : Ty → Bool
  | .i8 | .i16 | .i32 | .i64 => true
  | _ => false

/-- A number saturated to an integer type, as its low bits; NV when it lay outside. -/
def saturate (signed : Bool) (w : Nat) (v : Int) : Nat × Bool :=
  let (u, sat) :=
    if v < intMin signed w then (intMin signed w, true) else if v > intMax signed w then (intMax signed w, true) else (v, false)
  ((u % (2 ^ w : Nat)).toNat, sat)

/-- Floating point to integer: rounds in the mode; NaN gives 0 with NV; saturation raises NV without NX. -/
def fToInt (r : Rnd) (draw : Nat) (signed : Bool) (w : Nat) (v : FV) : Nat × Flags :=
  match v with
  | .nan _ => (0, Flags.nv)
  | .inf neg => ((saturate signed w (if neg then intMin signed w else intMax signed w)).1, Flags.nv)
  | .fin neg m e =>
    let (t, inexact) := roundAt r neg m e 0 draw
    let (u, sat) := saturate signed w (if neg then -(t : Int) else t)
    (u, if sat then Flags.nv else Flags.inexact inexact)

/-- The value of w bits as an integer type. -/
def intVal (signed : Bool) (w code : Nat) : Int :=
  let c := code % 2 ^ w
  if signed && decide (2 ^ (w - 1) ≤ c) then (c : Int) - (2 ^ w : Nat) else c

/-- An exact number rounded to a format, with the special values of R112 and R120. -/
def fvToFmt (f : Fmt) (r : Rnd) (draw : Nat) (v : FV) : Nat × Flags :=
  match v with
  | .nan s => (f.nanCode, Flags.invalid s)
  | .inf neg => (f.infCode neg, if f.top = .ieee then 0 else Flags.nv)
  | .fin neg m e => f.round r draw neg m e

/-- The conversion of a code of type `src` into a code of type `dst` (R126). -/
def convert (dst src : Ty) (r : Rnd) (draw code : Nat) : Nat × Flags :=
  if src.isInt then
    let v := intVal (tySigned src) src.bits code
    if dst.isInt then let (u, sat) := saturate (tySigned dst) dst.bits v; (u, Flags.invalid sat)
    else fvToFmt (tyFmt dst) r draw (.fin (decide (v < 0)) v.natAbs 0)
  else
    let v := (tyFmt src).decode code
    if dst.isInt then fToInt r draw (tySigned dst) dst.bits v else fvToFmt (tyFmt dst) r draw v

/-- One draw of sr.seed (R122): the next state and bits 63..48 of it. -/
def seedDraw (s : Word) : Word × Nat :=
  let s := s ^^^ (s <<< 13)
  let s := s ^^^ (s >>> 7)
  let s := s ^^^ (s <<< 17)
  (s, (s >>> 48).toNat)

/-- The FP32 sum of the atomics: rne whatever RM holds (R130). -/
def atomicFadd (a b : Nat) : Nat × Flags := fAdd Fmt.f32 .rne a b

end Sys2Proof.Machine
end

