-- ==== Sys2Proof/Config.lean ====
section
/-! DEFINITION. What the spec leaves open. Every constant is opaque: no proof can see a value of it. -/

namespace Sys2Proof

/-- The outcome of each choice that the spec leaves open ("either outcome", R1), numbered by State.oracle (log 5). -/
opaque Config.pick : Nat → Nat

/-- Device nanoseconds that pass with each step, numbered by State.tick (R2, R4; log 6). -/
opaque Config.elapsed : Nat → Nat

/-- SHA-256, named and not defined by R374, R375, R378, R381 (log 7). -/
opaque Config.sha256 : List Byte → BitVec 256

/-- The check of an SLH-DSA-SHA2-128s signature: public key, message, signature (R320, R375, R381; log 7). -/
opaque Config.sigOk : List Byte → List Byte → List Byte → Bool

/-- Signing with the identity private key, which is derived from DEVSEED, and with the zeroed key that an unlock leaves (R375, R378,
R381; log 7). -/
opaque Config.signWith : BitVec 256 → List Byte → List Byte
opaque Config.signErased : List Byte → List Byte

/-- The bytes that a manifest's signature covers: location, floor, key set, nonce (R375 gives no layout). -/
opaque Config.manifestBytes : Word → Word → List (Nat × BitVec 256) → BitVec 256 → List Byte

/-- The 64 bytes of an entry of the measurement log, by hash, MAGIC, ROLLBACK and time (R378 gives no layout). -/
opaque Config.measureBytes : BitVec 256 → BitVec 32 → Word → Nat → List Byte

/-- The bytes that the answer to a challenge signs: nonce, hash of the log, number of entries, identity (R378). -/
opaque Config.challengeBytes : BitVec 256 → BitVec 256 → Nat → BitVec 256 → List Byte

/-- Where the monitor's region of the last-level cache appears to it, and where in its image it starts (R375 says neither). -/
opaque Config.monitorBase : Word
opaque Config.monitorEntry : List Byte → Word

/-- Primer's random source, and what it gives once the unlock of R381 has zeroed the generator state (R375, R377; log 7). -/
opaque Config.random : Nat → BitVec 256
opaque Config.randomZeroed : Nat → BitVec 256

/-- Whether network port p has a link when Primer tries it for its n-th boot request (R375, step 2). -/
opaque Config.portLink : Nat → Nat → Bool

/-- Offset of the network interface's table of job identifiers in a die's configuration space (R373 gives none), and the targets
that a storage client's table names, by die and index (R384 does not say who fills it). -/
opaque Config.jobOffset : Nat
opaque Config.storageTarget : Nat → Nat → Word

/-- Bytes of a storage target's logical block (R384: an NVMe namespace's own). -/
opaque Config.blockBytes : Word → Nat

/-- What the monitor's region of the last-level cache holds past the image (R375 does not say). -/
opaque Config.regionRest : Nat → Byte

/-- The fuse DEVSEED, and SHA-256 of the identity public key that is derived from it (R374, R375; log 7). -/
opaque Config.devseed : BitVec 256
opaque Config.identityOf : BitVec 256 → BitVec 256

/-- SHA-256 of the identity public key. -/
def Config.identity : BitVec 256 := Config.identityOf Config.devseed

/-- The fuses ROOTHASH, OPHASH, FLOOR and DEBUGHASH (R374). -/
opaque Config.rootHash : BitVec 256
opaque Config.opHash : BitVec 256
opaque Config.floor : Word
opaque Config.debugHash : BitVec 256

/-- What a byte read back under another memory key than the one it was written under decrypts to (R156, R377):
key generation, physical address. -/
opaque Config.garbled : Nat → Nat → Byte

/-- The page of another device's memory that an address space of it maps a page to, by device, ASID and page number (R143,
R176: that device's own tables govern), and the generation that a counter of it starts with (R195). -/
opaque Config.farPage : BitVec 8 → BitVec 16 → Nat → Nat
opaque Config.farGen : Nat → BitVec 16

/-- Ways of a migration table, by their logarithm, the set of a page by its VA bits 47..16, and the offset of the table in a
die's configuration space (R148 gives none of the three). -/
opaque Config.migWays : Fin 13
opaque Config.migSet : Nat → Nat
opaque Config.migOffset : Nat

/-- The group table of the launch that a strand belonged to whose image this device did not save (R67, R225). -/
opaque Config.imageGroups : BitVec 16 → BitVec 16 → List Word

/-- An entry of a kernel table (R23): the exported name, entry offset, budget class, slots, group positions, parameter bytes,
patches as instruction offset, parameter offset and whether the field has 8 bytes. -/
structure KernEntry where
  name : String
  entry : Word
  cls : BitVec 2
  slots : Fin 257
  groups : BitVec 4
  params : BitVec 13
  patches : List (Word × Word × Bool)
  deriving DecidableEq, Repr, Inhabited

/-- Entry i of the kernel table of an image, and its offset in the loaded image: R23 lists what an entry holds, and gives no
layout. -/
opaque Config.kernel : List Byte → Nat → KernEntry
opaque Config.kernelOffset : List Byte → Nat → Word

/-- Whether the kernel table of an image has the form of R23, and the code bytes of kernel i of a native image: the table's
layout is open. -/
opaque Config.kernelTableOk : List Byte → Bool
opaque Config.kernelLen : List Byte → Nat → Nat

/-- A dynamic function of a Shawin image: where its operations start in the image, how many they are, and the type codes of its
virtual registers. -/
structure DynFunc where
  off : Nat
  ops : Nat
  types : List Byte
  deriving DecidableEq, Repr, Inhabited

/-- The dynamic functions of a Shawin image (R301, R306): the spec gives their record no layout. -/
opaque Config.dynamicFuncs : List Byte → List DynFunc

/-- Where the loader puts section i of an image, and the code that it translates kernel i to, from the image's base (R319,
R322 leave it to the loader); the code's place counts blocks of 256 bytes (R22). -/
opaque Config.sectionOffset : List Byte → Nat → Word
opaque Config.codeBlock : List Byte → Nat → Word

/-- The strands that the words of a group table make members of a group, by rank, and the group that they give a strand at a
position: the spec does not say how a table assigns them (log 41). What R67 and R68 say of members, ranks and positions
holds of State's own reading of these (memberList, groupAt, groupsBad). -/
opaque Config.members : List Word → Nat → List Nat
opaque Config.groupOf : List Word → Nat → Nat → Option (Fin 256)

/-- Word 1 of a system-call record: how it names core and context (R231 gives no layout), by agent number. -/
opaque Config.ringWho : Nat → Word

/-- Type code of a virtual register of the dynamic function that holds an operation, by address space and address of the
operation (R301, R326): the spec does not say where the crack unit finds a function's types. -/
opaque Config.vregType : BitVec 16 → Word → Nat → Nat

/-- The entry of an image's shape table at an index, as the header of `new` and as the kind of `isa`, by the image's number (R340 does
not say where the table lies, nor how a header gives a kind). -/
opaque Config.shapeHeader : Nat → Nat → Word
opaque Config.shapeKind : Nat → Nat → BitVec 32

/-- What the template of `new` leaves to the runtime: where the nursery's descriptor lies, by address space and core, and the register
of the result, by address space and address of the operation (R340). -/
opaque Config.nursery : BitVec 16 → Nat → Word
opaque Config.newResult : BitVec 16 → Word → Nat

/-- Whether `test` branches on the values other than false and nil (R340 gives the compare, and not its sense). -/
opaque Config.testTruthy : Bool

end Sys2Proof
end

