-- ==== Sys2Proof/Machine/Maps.lean ====
section
/-! DEFINITION. Plain data for sparse state: maps as sorted association lists, and byte memories in one canonical form. -/

namespace Sys2Proof.Machine

/-- A map from natural numbers: keys strictly rising. -/
abbrev TMap (α : Type) := List (Nat × α)

def TMap.find {α : Type} : TMap α → Nat → Option α
  | [], _ => none
  | (k, v) :: r, j => if j = k then some v else TMap.find r j

def TMap.get {α : Type} (d : α) (m : TMap α) (j : Nat) : α := (TMap.find m j).getD d

def TMap.put {α : Type} : TMap α → Nat → α → TMap α
  | [], j, x => [(j, x)]
  | (k, v) :: r, j, x =>
    if j < k then (j, x) :: (k, v) :: r
    else if j = k then (j, x) :: r
    else (k, v) :: TMap.put r j x

def TMap.del {α : Type} : TMap α → Nat → TMap α
  | [], _ => []
  | (k, v) :: r, j => if j = k then TMap.del r j else (k, v) :: TMap.del r j

/-- Writing the default removes the entry. -/
def TMap.set {α : Type} [DecidableEq α] (d : α) (m : TMap α) (j : Nat) (x : α) : TMap α :=
  if x = d then TMap.del m j else TMap.put m j x

/-- Keys strictly rising. -/
def TMap.sorted {α : Type} : TMap α → Bool
  | [] => true
  | [_] => true
  | (k, _) :: (k', v') :: r => decide (k < k') && TMap.sorted ((k', v') :: r)

/-- Byte memory: addresses strictly rising, no entry 0, which is what an unlisted address reads as. -/
abbrev Memory := List Host.Cell

/-- What an address that nothing has written reads as. DESIGN CHOICE: the spec gives no contents (log 1). -/
def Memory.unlisted : Byte := 0

def Memory.read (m : Memory) (a : Nat) : Byte := TMap.get Memory.unlisted m a

def Memory.write (m : Memory) (a : Nat) (b : Byte) : Memory := TMap.set Memory.unlisted m a b

/-- The canonical form of a memory. -/
def Memory.wf (m : Memory) : Bool := TMap.sorted m && m.all fun c => c.2 != Memory.unlisted

/-- A set of natural numbers: strictly rising. -/
abbrev NatSet := List Nat

def NatSet.has (s : NatSet) (a : Nat) : Bool := s.contains a

def NatSet.add : NatSet → Nat → NatSet
  | [], a => [a]
  | b :: r, a => if a < b then a :: b :: r else if a = b then b :: r else b :: NatSet.add r a

def NatSet.drop (s : NatSet) (a : Nat) : NatSet := s.filter fun b => b != a

end Sys2Proof.Machine
end

