-- ==== Sys2Proof/Machine/State.lean ====
section
/-! DEFINITION. The state of the device as plain data, and the state right after reset. -/

namespace Sys2Proof.Machine

/-! ### Contexts -/

/-- R49. -/
inductive Phase where
  | free | idle | ready | running | waiting | draining
  deriving DecidableEq, Repr

/-- R348. -/
inductive Mode where
  | user | kernel | monitor
  deriving DecidableEq, Repr

/-- R354. -/
inductive Cause where
  | illegal | priv | align | lsprot | xlate | wrprot | cow | ctrpage | ctrovf | capfail | tagmiss | shape | pipe
  | poison | syscall | brk | stepfail
  deriving DecidableEq, Repr

/-- A counter slot (R194). -/
structure Slot where
  ref : Word
  mark : Word
  gen : BitVec 16
  loc : Bool
  deriving DecidableEq, Repr

/-- sr.cause, sr.epc, sr.tval, or the monitor's three (R348, R353). -/
structure TrapRegs where
  code : BitVec 8
  deferred : Bool
  epc : Word
  tval : Word
  deriving DecidableEq, Repr

/-- The register state of a strand (R48), with what a context save records beside it (R366). -/
structure Regs where
  /-- x1 to x63; an unlisted register holds 0 -/
  x : TMap Word
  /-- v0 to v63; an unlisted register holds 0 -/
  v : TMap VWord
  /-- k1 to k7; an unlisted register holds all ones (R53) -/
  k : TMap Word
  pc : Word
  /-- VL of sr.vl (R454) -/
  vl : BitVec 7
  /-- RM of sr.fcsr (R124) -/
  rm : BitVec 3
  /-- SU NV DZ OF UF NX of sr.fcsr (R124) -/
  flags : BitVec 6
  seed : Word
  /-- LAUNCH and INDEX of sr.strand (R52) -/
  launch : BitVec 16
  index : BitVec 32
  grp : Word
  rank : Word
  /-- sr.launch -/
  param : Word
  ktrap : TrapRegs
  mtrap : TrapRegs
  mode : Mode
  pmode : Mode
  mpmode : Mode
  intrap : Bool
  mintrap : Bool
  asid : BitVec 16
  /-- sr.lsbase0 to 7 and sr.lslim0 to 7; an unlisted register holds 0 (R134) -/
  lsbase : TMap Word
  lslim : TMap Word
  /-- the slots of the context (R194) -/
  slots : TMap Slot
  /-- the Stencil shadow set by FN; an unlisted register holds its reset value (R262) -/
  shadow : TMap Word
  deriving DecidableEq, Repr

/-- One store or RED that waits in a line for its home check (R150). -/
structure SOp where
  /-- byte offset in the line -/
  off : Nat
  /-- bytes -/
  size : Nat
  data : Word
  /-- a RED's operation; none: a plain store -/
  red : Option AOp
  /-- the mode that it was made in -/
  mode : Mode
  /-- made by ST, which alone reaches a configuration register (R370) -/
  byST : Bool
  /-- order among the strand's stores -/
  seq : Nat
  deriving DecidableEq, Repr

/-- A line that awaits ownership or is FAULTED (R150, R152): its stores in program order. -/
structure SLine where
  /-- VA of the line -/
  va : Word
  asid : BitVec 16
  faulted : Option Cause
  /-- order of the first store to the line, its age (R152) -/
  age : Nat
  /-- its request waits behind a lease: its place in the queue, and the physical line that its check found (R172, R173) -/
  queued : Option (Nat × Nat)
  ops : List SOp
  deriving DecidableEq, Repr

/-- A far write that its home device has not yet performed (R180), by the far key of its first byte. -/
structure FarW where
  key : Nat
  size : Nat
  data : Word
  deriving DecidableEq, Repr

/-- A lease (R172). `live` is false once it has ended without UNLEASE (R173). -/
structure Lease where
  va : Word
  asid : BitVec 16
  /-- physical line -/
  line : Nat
  granted : Nat
  bound : Nat
  live : Bool
  deriving DecidableEq, Repr

/-- A pending error of the list of R356, or the record of an engine error. -/
structure Pend where
  cause : Cause
  tval : Word
  engine : Bool
  /-- age: the order of the instruction that caused it -/
  seq : Nat
  deriving DecidableEq, Repr

/-- A counter, resolved (R192): a word of a counter page, a cell of a core, or a counter of another device. -/
inductive Ctr where
  | home (pa : Nat)
  | cell (core cell : Nat)
  | far (key : Nat)
  deriving DecidableEq, Repr

/-- One counter that a party watches (R202): the slot it came from, the threshold, whether the home's list holds it,
and the order of registration (R203). -/
structure Watch where
  slot : Nat
  ctr : Ctr
  mark : Word
  listed : Bool
  seq : Nat
  deriving DecidableEq, Repr

/-- A continuation record without its ASID's software value (R71). -/
structure ContRec where
  code : Word
  frame : Word
  join : Word
  asid : BitVec 16
  prio : BitVec 3
  cls : BitVec 2
  deriving DecidableEq, Repr

/-- What a WAITING context waits for (R55). -/
inductive WaitKind where
  /-- a global load, VLD, AMO or CAS that missed L1: its effect is made, the reference is outstanding -/
  | ref
  /-- a wait field -/
  | field
  /-- CWAIT -/
  | cwait
  /-- a SPAWN held by a full queue: die, level, record -/
  | spawn (r : ContRec)
  /-- a LEASE, or an access behind another agent's lease, on a physical line -/
  | leased (line : Nat)
  /-- a parked system call with its ticket, once it could take one (R231, R232) -/
  | sysPark (ticket : Option Nat)
  /-- a posted system call (R231, R367) -/
  | sysPost (ticket : Nat)
  /-- STEP (R465) -/
  | step
  /-- a message append or tagged message (R446) -/
  | msg (id : Nat)
  deriving DecidableEq, Repr

structure Wait where
  kind : WaitKind
  watches : List Watch
  /-- all form of CWAIT -/
  all : Bool
  deadline : Option Nat
  deriving DecidableEq, Repr

/-- An answer that a wake-up left for the instruction, which takes it when it issues again. -/
inductive Ans where
  | cwait (status : Nat) (first : Nat)
  | spawned
  | stepped
  | value (w : Word)
  deriving DecidableEq, Repr

/-- How an instruction completes. -/
inductive Fin where
  /-- at the next instruction -/
  | next
  /-- at an address -/
  | jump (pc : Word)
  /-- at an address, which enters crack mode where it is a crack address (R325, R429) -/
  | enter (pc : Word)
  /-- at an address, out of a trap: followers do not see it (R65) -/
  | back (pc : Word)
  /-- its effect is made and its reference is outstanding (R55): a load or a lease, which is made again where a save comes first, or
  an atomic (R363) -/
  | offcore (again : Bool)
  /-- the same, where it goes on at an address, which enters crack mode or not (R424) -/
  | offcoreAt (pc : Word) (enters : Bool)
  /-- a message is on its way (R446) -/
  | message (id : Nat)
  /-- YIELD (R57) -/
  | yield
  /-- the strand ends (R80) -/
  | ended
  /-- it completes, and the strand then traps (R196, R473) -/
  | trapped (c : Cause) (tval : Word)
  deriving DecidableEq, Repr

/-- Where an element of an access of the strand goes: its core's local store, this device's memory, another device's by far
key, the monitor's region of a last-level cache (R375). -/
inductive LPlace where
  | loc (addr : Nat)
  | phys (pa : Nat)
  | far (key : Nat)
  | region (off : Nat)
  deriving DecidableEq, Repr

/-- One element of an access: its address, its place (none: the strand's own stored data, R151), whether it hit L1, and whether
it missed L1 and hit its die's L2 (R143). -/
structure Access where
  va : Word
  place : Option LPlace
  hit : Bool
  l2 : Bool
  deriving DecidableEq, Repr

/-- A VLD or VST that has performed some of its elements: their values, whether one missed L1, and what is left (R158). -/
structure Partway where
  vals : List Nat
  miss : Bool
  rest : List Access
  deriving DecidableEq, Repr

/-- An access that waits behind a lease: its place in the line's queue, and where the check of its request found its
elements (R172, R173): address and physical address. -/
structure Queued where
  seq : Nat
  at_ : List (Word × Nat)
  deriving DecidableEq, Repr

/-- How far the instruction at the program counter has come: its wait field was satisfied, its signal at issue was
delivered, it was answered. -/
structure Progress where
  field : Bool
  sig : Bool
  ans : Option Ans
  /-- deadline of a CWAIT, kept from its first evaluation (R200) -/
  deadline : Option Nat
  /-- stores of a VST, STSLOT or ALLOC that have entered the store buffer before it stalled in place (R55, R152) -/
  made : Nat
  /-- its own operations are performed, and its signal at completion is owed (R95, R167) -/
  fin : Option Fin
  /-- its access waits, or has waited, behind a lease -/
  lease : Option Queued
  /-- a VLD that has read some of its elements (R158) -/
  part : Option Partway
  /-- the followers have the instruction, which waits after its issue (R61) -/
  handed : Bool
  deriving DecidableEq, Repr

/-- DONE, DONE_GEN and DONE_INC of a START strand or of a pre-emption request (R324, R362). -/
structure DoneRef where
  ref : Word
  gen : BitVec 16
  inc : BitVec 48
  deriving DecidableEq, Repr

/-- A pre-emption request (R362, R363): its number, the same for all contexts that it stops, and the address space of its
record. -/
structure Preempt where
  id : Nat
  asid : BitVec 16
  image : Word
  isize : Word
  done : DoneRef
  /-- the context has stopped issuing -/
  halted : Bool
  deriving DecidableEq, Repr

/-- sr.err as software writes or reads it (R355): NODE and OFFSET, OVF, STALE. -/
structure ErrReg where
  addr : Word
  ovf : Bool
  stale : Bool
  deriving DecidableEq, Repr

/-- Membership in a gang (R77): its launch, STEP's arrival, the last register checkpoint with sr.err (R48). -/
structure GangMember where
  launch : Nat
  step : Nat
  arrived : Bool
  checkpoint : Regs
  err : ErrReg
  deriving DecidableEq, Repr

/-- The strand as it stood before an instruction whose data has not returned, which a save makes it execute again (R363): its registers,
NODE and OFFSET of sr.err, the order before which its errors came. -/
structure Before where
  r : Regs
  straight : Bool
  errAddr : Word
  seq : Nat
  deriving DecidableEq, Repr

/-- A hardware context (R49, R194). -/
structure Ctx where
  phase : Phase
  r : Regs
  /-- the launch that the context belongs to, as numbered by Device.launches -/
  owner : Option Nat
  budget : Nat
  nslots : Nat
  cellBase : Nat
  /-- NODE and OFFSET of sr.err (R355) -/
  errAddr : Word
  ovf : Bool
  stale : Bool
  pend : List Pend
  lines : List SLine
  /-- the program counters of traps under R152 whose instructions have not executed again, and whether an ERET has just returned to
  one of them, which replays the FAULTED lines (R153) -/
  replay : List Word
  replayNow : Bool
  farw : List FarW
  leases : List Lease
  /-- restored from an image that this device has no memory of saving: which leases the save ended is not known (R191) -/
  leasesLost : Bool
  wait : Option Wait
  /-- before the load whose data is outstanding -/
  before : Option Before
  prog : Progress
  /-- trap handlers of the context that have not reached their ERET (R65) -/
  handler : Nat
  /-- JOIN of a strand started from a continuation record (R76) -/
  join : Option Word
  /-- DONE of a START strand (R324) -/
  start : Option DoneRef
  preempt : Option Preempt
  /-- PREEMPT, START and word 0 of REPLY as last written (R323, R362, R367) -/
  preemptReg : Word
  startReg : Word
  replyReg : Word
  /-- strands that the context has held: an engine operation names the one that issued it -/
  life : Nat
  gang : Option GangMember
  /-- the base word that is executing, for sr.tval of ILLEGAL and PRIV, and its extension word (the model's own) -/
  ir : Word
  irExt : Option Word
  /-- the program counter comes from a branch that does not enter crack mode (R325, R429) -/
  straight : Bool
  /-- where the strand's link stack starts, once an operation has asked for its outermost frame (R327, R340) -/
  linkBase : Option Word
  deriving DecidableEq, Repr

/-! ### Cores -/

/-- One instruction that a leader forwards (R62, R63): leader context, leader's pc, instruction words, the pc that the
leader went on to. -/
structure Fwd where
  ctx : Nat
  pc : Word
  base : Word
  ext : Option Word
  next : Word
  deriving DecidableEq, Repr

/-- An entry of a translation cache: the leaf as it was walked, and whether it maps 512 MiB (R143, R145). -/
structure TlbEntry where
  leaf : Word
  big : Bool
  deriving DecidableEq, Repr

/-- R60 to R66. -/
inductive Trace where
  | none
  | follower (leader : Nat) (joined : Bool) (stream : List Fwd)
  deriving DecidableEq, Repr

/-- A VALID way of an inline-cache set (R333). -/
structure IcEntry where
  rshape : BitVec 32
  atag : BitVec 3
  data : Word
  /-- another core has cleared the site since the fill (R337) -/
  cleared : Bool
  deriving DecidableEq, Repr

/-- An OWNED set of the inline-cache unit, with its VALID ways in order: they fill from way 0 and go together (R333, R335). -/
structure IcSet where
  site : BitVec 16
  asid : BitVec 16
  ways : List IcEntry
  mega : Bool
  /-- another core has cleared the site since it became megamorphic (R337) -/
  cleared : Bool
  deriving DecidableEq, Repr

/-- A line that an L1 holds (R140, R141): the leaf of the translation that its fill came with (none: memory that another
device translates), and its valid bytes, those of filled sectors and those stored. -/
structure L1Line where
  leaf : Option TlbEntry
  valid : BitVec 256
  /-- a store has been granted ownership -/
  owned : Bool
  /-- the version that is held of near memory, its write time, and the end of its read lease (R159) -/
  bytes : List Byte
  wts : Nat
  rts : Nat
  deriving DecidableEq, Repr

/-- Logical times (R159): pts of the strand of a context; write time and lease end of near memory's lines, by pa / 256, and of
counters, by their numbers; the latest of all. -/
structure Times where
  pts : TMap Nat
  line : TMap (Nat × Nat)
  ctr : TMap (Nat × Nat)
  top : Nat
  deriving DecidableEq, Repr

/-- An operand of a RED with fadd that waits to be combined: its agent, and the die and the ASID whose atomic flags take what it
raises. -/
structure FaddOp where
  agent : Nat
  die : Nat
  asid : BitVec 16
  value : BitVec 32
  deriving DecidableEq, Repr

/-- A word in an instruction cache: whether it came from a G page, and the leaf that it was fetched by, until the line that it came
with is in L1 or a TBLFENCE has covered it (R106, R141, R426). -/
structure IcWord where
  word : Word
  g : Bool
  leaf : Option TlbEntry
  deriving DecidableEq, Repr

structure Core where
  failed : Bool
  /-- QUANTUM of sr.quantum (R58) -/
  quantum : BitVec 32
  /-- QUANTUM as it stood at the last switch, the bound in force (R58) -/
  bound : BitVec 32
  /-- the context that switched out last, where the scan of R56 starts -/
  last : Nat
  /-- L1 lines that the core holds, by ASID and line (R141) -/
  l1 : TMap L1Line
  /-- cached instruction words, by ASID and VA (R106) -/
  icache : TMap IcWord
  /-- OWNED sets of an Easel core's inline-cache unit, by number (R333) -/
  ic : TMap IcSet
  trace : Trace
  deriving DecidableEq, Repr

/-- An earlier version of an aligned 64-bit word of memory, which fetches may still give (R106): the word, and the number of the
store that ended it. -/
structure OldWord where
  word : Word
  ends : Nat
  deriving DecidableEq, Repr

/-- An ICINV that has completed (R107, R108): its extent and issuing core, its range (none: everything) in its ASID, the stores of
strands that precede it, and of far memory the writes that its strand had seen: those before its last system-scope acquire, and
those that its own accesses have left behind, by chunk. -/
structure Cover where
  extent : Extent
  core : Nat
  asid : BitVec 16
  range : Option (Nat × Nat)
  stores : Nat
  farAcq : Nat
  farSeen : TMap Nat
  deriving DecidableEq, Repr

/-- A counter cell (R192). -/
structure Cell where
  v : Word
  g : BitVec 16
  deriving DecidableEq, Repr

/-! ### Palette dies and their canvas dies -/

/-- LINKSTAT and the module behind the link (R383, R369). -/
structure Link where
  up : Bool
  corr : BitVec 16
  uncorr : BitVec 16
  capacity : BitVec 16
  deriving DecidableEq, Repr

/-- An entry of the migration table (R148). -/
structure Mig where
  vpn : BitVec 48
  asid : BitVec 16
  remote : BitVec 16
  loc : BitVec 16
  deriving DecidableEq, Repr

/-- A continuation queue (R72): records with their entry times, head first, and the SPAWNs that wait, oldest first. -/
structure ContQ where
  cfg : Word
  recs : List (ContRec × Nat)
  tail : Nat
  waiting : List Nat
  deriving DecidableEq, Repr

structure Die where
  rootbase : Word
  migThr : BitVec 16
  leaseBound : BitVec 16
  irqctr : Word
  elogbase : Word
  eloghead : Word
  irqasid : BitVec 16
  links : TMap Link
  storq : Word
  storbell : Word
  storasid : BitVec 16
  sysring : Word
  systake : Word
  sysfree : Word
  sysposted : Word
  sysasid : BitVec 16
  /-- atomic flag registers by ASID (R131) -/
  aflags : TMap (BitVec 5)
  /-- access tables: entry m of table t under 2048 t + m (R371) -/
  access : TMap Word
  /-- what the die's translation cache may hold of a page until a TBLFENCE, the last used first (R143, R154) -/
  tlb : TMap (List TlbEntry)
  /-- lines that the canvas die's L2 holds, by ASID and line (R37, R141) -/
  l2 : TMap L1Line
  /-- the network interface's table of job identifiers, by job slot (R373) -/
  jobs : TMap Word
  mig : TMap Mig
  /-- entries whose REMOTE has reached the threshold and whose interrupt is due (R148) -/
  migDue : List Nat
  /-- accesses of frames behind a link that is down, each due for the error log (R383): physical addresses -/
  linkDue : List Nat
  queues : TMap ContQ
  /-- the thread that took the last placement turn (R216, R223) -/
  turn : Nat
  kvec : Word
  mvec : Word
  deriving DecidableEq, Repr

/-! ### Launches and sequencers -/

/-- A patch value: the instruction's address, whether it replaces an IMM word's 60 bits, the value (R105). -/
structure Patch where
  at_ : Word
  wide : Bool
  value : Word
  deriving DecidableEq, Repr

/-- A die's share of a launch (R222, R224): the strands to place, each with the core that its placement entry names; how many
are placed; whether the share has completed. -/
structure Share where
  todo : List (Nat × Option Nat)
  placed : Nat
  complete : Bool
  deriving DecidableEq, Repr

/-- A journaled 256-byte block of a local store: its bytes, and which of them carried poison (R296). -/
structure JBlock where
  bytes : List Byte
  bad : List Bool
  deriving DecidableEq, Repr

/-- A route table set that a launch's records have named at the ingress of a die (R293): DBASE, the address space, how many tables
of it are known, by the highest GROUP, and whether a record has come in the open step (R294). -/
structure RouteSet where
  die : Nat
  base : Word
  asid : BitVec 16
  groups : Nat
  used : Bool
  deriving DecidableEq, Repr

/-- A launch in progress (R218 to R225). -/
structure Launch where
  num : BitVec 16
  asid : BitVec 16
  /-- KTAB, which names the kernel and through it the image -/
  ktab : Word
  /-- descriptor and packet index of its queue, as 2 desc and i, or arm entry and fire, as 2 e + 1 and f -/
  origin : Nat × Nat
  /-- the packet as the die read it -/
  words : List Word
  /-- ERR of the queue or arm entry, and SHARES of the queue -/
  err : Word
  shares : Option Word
  done : DoneRef
  entry : Word
  budget : Nat
  nslots : Nat
  param : Word
  /-- the words of the group table, and the positions that the kernel declares -/
  groups : List Word
  gpos : BitVec 4
  lsbase : TMap Word
  lslim : TMap Word
  strands : Nat
  dieMask : Nat
  gang : Bool
  fuse : Bool
  steps : List Word
  patches : List Patch
  /-- saved contexts of a RESTORE, by order in the image: the core that the context goes to, the recorded context, and the
  context record (R225) -/
  restore : TMap (Nat × Nat × List Byte)
  perDie : TMap Share
  /-- step number of a gang, and the times the open step was rolled back (R298, R466) -/
  step : Nat
  rollbacks : Nat
  /-- blocks of local store as they stood when the step began, block b of core n under 2048 n + b (R296) -/
  journal : TMap JBlock
  /-- a core's journal has overflowed in this step (R298) -/
  unrepeatable : Bool
  /-- a rollback is due (R295) -/
  rollDue : Bool
  /-- strands that have ended in the open step, by context, with their membership: a rollback restarts them (R79) -/
  ended : TMap GangMember
  /-- route table sets that the ingress units know of -/
  routes : List RouteSet
  deriving DecidableEq, Repr

/-- What has happened to a thread's wait: a CRESET of its counter, or a wake by the home, whose number gives the order in which
woken threads go on (R203, R205, R206). -/
inductive WaitEnd where
  | open_ | broken | woken (n : Nat)
  deriving DecidableEq, Repr

/-- What a sequencer thread does (R213 to R228). -/
inductive ThreadSt where
  /-- waits for a notify, or fetches when `notified` -/
  | idle
  /-- places the share of a launch -/
  | placing (launch : Nat)
  /-- WAITC, or FENCE, waits on a counter for a threshold; the deadline is a WAITC's -/
  | waits (fence : Bool) (w : Watch) (deadline : Option Nat) (end_ : WaitEnd)
  /-- halted until the slot is mapped again (R217) -/
  | halted
  deriving DecidableEq, Repr

/-- The thread has a share to place. -/
def ThreadSt.isPlacing : ThreadSt → Bool
  | .placing _ => true
  | _ => false

/-- A slot thread of a die (R213 to R216). -/
structure Thread where
  mapped : Bool
  /-- physical address of the descriptor that is, or was last, mapped -/
  desc : Option Nat
  next : Word
  notified : Bool
  st : ThreadSt
  /-- WRIDX as last read -/
  limit : Word
  /-- an unmap is due at the next packet boundary, and the map that follows it (R214) -/
  unmap : Bool
  remap : Option Word
  deriving DecidableEq, Repr

/-- An accepted fire of an arm entry (R230): its number and buffer. -/
structure Fire where
  num : Nat
  param : Word
  deriving DecidableEq, Repr

/-- An entry of a launch-arm table (R229), with the queue's ASID, the fires accepted, and DONE at its ARM. -/
structure Arm where
  valid : Bool
  tag : Word
  template : Word
  bufbase : Word
  sizes : Word
  err : Word
  asid : BitVec 16
  fires : Nat
  base : Word
  /-- fires that this die has yet to place -/
  due : List Fire
  deriving DecidableEq, Repr

/-- An image whose kernel table is published (R322). -/
structure Image where
  asid : BitVec 16
  /-- the published kernel table: address and content of each entry -/
  kernels : List (Word × KernEntry)
  base : Word
  size : Nat
  withdrawn : Bool
  deriving DecidableEq, Repr

/-! ### Engines -/

/-- A signal captured at issue: counter reference, generation and amount (R187, R207). -/
structure SigAdd where
  ref : Word
  gen : BitVec 16
  inc : Nat
  scope : Scope
  deriving DecidableEq, Repr

/-- Who issued an engine operation: agent, the strand's number in its context, launch, address space, mode, and the
strand's signal. -/
structure Issuer where
  agent : Nat
  life : Nat
  launch : Option Nat
  /-- where its errors are recorded once its strand has ended: ERR of its launch, the launch's ASID and number; none: the die's
  log (R207, R356, R497) -/
  err : Option (Word × BitVec 16 × BitVec 16)
  asid : BitVec 16
  user : Bool
  /-- order of its issue -/
  seq : Nat
  sig : Option SigAdd
  /-- the signal's slot, for the moment a wait observes it (R356) -/
  slot : Option Nat
  /-- scope of the instruction that issued it -/
  scope : Scope
  /-- INDEX of the strand, for a record of it after its end (R356) -/
  index : BitVec 32
  deriving DecidableEq, Repr

/-- A weight bank with its residency record (R233, R240). Weights are codes of FMT, i4x as e4m3: weight (k, c) under
256 c + k, unlisted +0; the scale of block j of column c under 8 c + j, unlisted 0x7F. -/
structure Bank where
  valid : Bool
  fmt : BitVec 4
  expert : BitVec 16
  gen : BitVec 16
  cause : BitVec 8
  nv : Bool
  w : TMap Nat
  scale : TMap Nat
  deriving DecidableEq, Repr

/-- A capability entry (R255). -/
structure Cap where
  valid : Bool
  rights : BitVec 7
  asid : BitVec 16
  secret : BitVec 48
  deriving DecidableEq, Repr

/-- A command that the engine has accepted (R252): the instruction, its operands and ASID, the row count read at the
fork, RM at issue, the banks' VALID when it started. -/
structure FCmd where
  seq : Nat
  instr : Instr
  xa : Word
  xb : Word
  asid : BitVec 16
  by_ : Issuer
  /-- req and bound, or the cause of a failed read of the shape record (R241) -/
  rows : Except Nat (Nat × Nat)
  rm : BitVec 3
  started : Bool
  valids : List Bool
  deriving DecidableEq, Repr

/-- The microprogram (R250). -/
structure Prog where
  count : BitVec 3
  ops : Word
  kappa : BitVec 32
  format : Bool
  deriving DecidableEq, Repr

/-- A Fresco engine (R233). Word (i, c) of tile t is under 16384 t + 256 i + c; unlisted 0. -/
structure Fresco where
  banks : TMap Bank
  tiles : TMap (BitVec 32)
  status : TMap (Word × Word)
  prog : Prog
  caps : TMap Cap
  owner : BitVec 16
  cmds : List FCmd
  deriving DecidableEq, Repr

/-- A shadow set as XGO copies it, by FN (R262). -/
abbrev Ctl := TMap Word

inductive XferSt where
  | running | suspended | done
  deriving DecidableEq, Repr

/-- A transfer table entry that is not FREE (R261, R275): the registers copied at the XGO, the regions of the issuing
context, the first unit of the earliest chunk not completed, the faults so far. -/
structure Xfer where
  st : XferSt
  seq : BitVec 32
  ctl : Ctl
  by_ : Issuer
  lsbase : TMap Word
  lslim : TMap Word
  cursor : Nat
  faults : Nat
  cause : BitVec 8
  flags : BitVec 6
  cancel : Bool
  deriving DecidableEq, Repr

/-- A Stencil unit (R260). -/
structure Stencil where
  seq : BitVec 32
  entries : TMap Xfer
  deriving DecidableEq, Repr

/-- An NRED whose source is not yet read (R280, R283). -/
structure NRed where
  by_ : Issuer
  isMax : Bool
  ty : Ty
  src : Word
  words : List Word
  member : Nat
  size : Nat
  gid : Nat
  /-- the launch number, which tells a group from those of other launches (R52, R280) -/
  num : BitVec 16
  deriving DecidableEq, Repr

/-- A contribution with the leaf values that were read (R281). -/
structure Contrib where
  member : Nat
  vals : List Nat
  deriving DecidableEq, Repr

/-- A reduction, under the settings of its first contribution (R287). It is remembered when it is closed, so that a second
contribution of a member is dropped. -/
structure Redu where
  by_ : Issuer
  /-- the launch number of its group; none: another launch has taken the number since -/
  num : Option (BitVec 16)
  gid : Nat
  isMax : Bool
  ty : Ty
  words : List Word
  size : Nat
  /-- palette die of the root -/
  die : Nat
  present : List Contrib
  /-- contributors whose leaf has read a source, or failed to -/
  seen : List Nat
  closed : Bool
  deriving DecidableEq, Repr

/-- A late contribution on its way to its correction slot (R286). -/
structure Late where
  by_ : Issuer
  words : List Word
  con : Contrib
  deriving DecidableEq, Repr

/-- An NSEND (R290). -/
structure NSend where
  by_ : Issuer
  route : Bool
  src : Word
  words : List Word
  index : BitVec 32
  deriving DecidableEq, Repr

/-- A token record at the ingress of the die that owns its table's page: on its way, or staged (R293). -/
structure Token where
  launch : Nat
  /-- DBASE, and the table in its set -/
  base : Word
  table : Word
  asid : BitVec 16
  agent : Nat
  die : Nat
  sender : BitVec 32
  bytes : List Byte
  staged : Bool
  deriving DecidableEq, Repr

/-- A message on its way (R443 to R446): an append to an inbox, or a tagged launch message. -/
structure Msg where
  by_ : Issuer
  /-- tag and NODE of a tagged message; none: an append -/
  tag : Option (Word × BitVec 8)
  d : XReg
  /-- the ring descriptor of an append -/
  words : List Word
  src : Word
  bytes : Nat
  /-- of an append: none when TAKE names no counter -/
  ticket : Option Nat
  /-- the record of an append is written, and POSTED is still to be added -/
  written : Bool
  index : BitVec 32
  deriving DecidableEq, Repr

/-- An NCORR (R289). -/
structure NCorr where
  by_ : Issuer
  scale : Bool
  d : XReg
  words : List Word
  deriving DecidableEq, Repr

/-- The Glaze nodes (R280 to R294). -/
structure Glaze where
  nreds : TMap NRed
  redus : TMap Redu
  lates : TMap Late
  nsends : TMap NSend
  tokens : TMap Token
  msgs : TMap Msg
  ncorrs : TMap NCorr
  deriving DecidableEq, Repr

/-- A storage command that the client has sent (R384, R385). -/
structure StorCmd where
  die : Nat
  asid : BitVec 16
  words : List Word
  deriving DecidableEq, Repr

/-! ### Boot -/

inductive Boot where
  /-- step 2 is due: the ports are to be tried (R375) -/
  | ports
  /-- a boot request is out; Primer waits for a manifest (R375, steps 2 and 3) -/
  | manifest
  /-- the image of an accepted manifest is being fetched (step 4) -/
  | image
  /-- a failure: Primer waits before step 2 -/
  | wait
  | running
  deriving DecidableEq, Repr

/-- An entry of the measurement log (R378). -/
structure Measure where
  hash : BitVec 256
  magic : BitVec 32
  rollback : Word
  time : Nat
  deriving DecidableEq, Repr

/-- Primer, but for the log (R374 to R381). -/
structure Primer where
  boot : Boot
  failures : Nat
  nonce : BitVec 256
  /-- the boot request that is out: its port, its nonce, the hash of the identity public key (R375, step 2) -/
  request : Option (Nat × BitVec 256 × BitVec 256)
  /-- boot requests tried -/
  tries : Nat
  accepted : Option Manifest
  /-- the floor and key set of R321 and R320 -/
  floor : Word
  keys : List (Nat × BitVec 256)
  /-- the device time at which the wait of a failure ends -/
  retryAt : Nat
  /-- the monitor image in the 64 MiB region of palette die 0's last-level cache -/
  region : List Byte
  /-- bytes of the region that have been written since, by offset -/
  regionW : TMap Byte
  /-- signatures given to challenges, newest first -/
  signed : List (List Byte)
  debugNonce : BitVec 256
  /-- the unlock of R381 has erased the keys -/
  unlocked : Bool
  /-- random numbers drawn -/
  drawn : Nat
  deriving DecidableEq, Repr

/-! ### The device -/

/-- What a saved strand takes along for which a context record has no field: the leases that its save ended (R191), the
REDs that its FAULTED lines hold, which pending errors were an engine's, and a gang's step counters and step number. -/
structure Aside where
  launch : BitVec 16
  index : BitVec 32
  asid : BitVec 16
  leases : List Lease
  lines : List SLine
  engine : List Bool
  steps : List Word
  step : Nat
  /-- the program counters of traps under R152 (R153) -/
  replay : List Word
  replayNow : Bool
  straight : Bool
  linkBase : Option Word
  /-- a leader's instruction that its followers have, and what a follower's stream still held (R61, R65) -/
  handed : Bool
  stream : List Fwd
  /-- the group table of its launch (R67) -/
  groups : List Word
  /-- the context record that the save wrote, which tells its image from another -/
  record : List Byte
  deriving DecidableEq, Repr

/-- An engine operation that makes some of its writes before it is complete (R186): a Fresco command, or the chunk of a Stencil
transfer. -/
inductive Part where
  | drain (cluster seq : Nat)
  | chunk (cluster entry : Nat)
  /-- the signal of a completed operation, by its place in State.owed, is delivered (R186) -/
  | signal (n : Nat)
  /-- a line comes into L1 with the word that a core has fetched from it (R141) -/
  | line (core key : Nat)
  /-- Primer looks for a network port with a link and sends its boot request (R375, step 2) -/
  | bootRequest
  deriving DecidableEq, Repr

/-- A signal of an operation that is still to be delivered: the operation's issuer, its die and agent number as a requester. -/
structure Owed where
  by_ : Issuer
  /-- the issuer's operation is complete with it; else it is an add by the root of a reduction or for a late contribution -/
  own : Bool
  die : Nat
  agent : Nat
  sig : SigAdd
  deriving DecidableEq, Repr

/-- A write by an engine operation that a reader which has not joined the operation may not see yet (R186, R188): the engine's
agent number, the operation, the order of the write, and what was there. -/
structure EngW where
  agent : Nat
  op : Nat
  /-- agent number of the operation's issuer -/
  owner : Nat
  num : Nat
  old : Word
  deriving DecidableEq, Repr

/-- A far write by an engine operation that its home device has not yet performed (R188). -/
structure EngFar where
  op : Nat
  owner : Nat
  num : Nat
  w : FarW
  deriving DecidableEq, Repr

/-- What a party knows of an engine operation: its writes before a number are joined (R177, R187). -/
structure Join where
  op : Nat
  upTo : Nat
  deriving DecidableEq, Repr

/-- A store of a strand while an engine operation of its own is under way, which the operation may or may not see (R185): the
space, the address, the bytes that were there. -/
structure Unseen where
  agent : Nat
  seq : Nat
  near : Bool
  addr : Nat
  old : List Byte
  deriving DecidableEq, Repr

/-- What happens next: an event of the device, an issue by a core, or a part of an operation. -/
inductive Turn where
  | event (e : Instr)
  | issue (core : Nat)
  | part (p : Part)
  deriving DecidableEq, Repr

/-- A provisional add to a step counter (R210). -/
structure HeldAdd where
  /-- the strand's number in its context -/
  life : Nat
  launch : Nat
  ctr : Ctr
  ref : Word
  /-- the context of the issuing strand, while it lives -/
  ctx : Option Nat
  amount : Nat
  gen : Option (BitVec 16)
  agent : Nat
  seq : Nat
  deriving DecidableEq, Repr

/-- The whole device, with the model's own fields last. -/
structure State where
  /-- contexts by agent number 16 core + context (R157) -/
  ctxs : TMap Ctx
  cores : TMap Core
  dies : TMap Die
  /-- the physical memory behind the links, by physical address (R369) -/
  mem : Memory
  bad : NatSet
  /-- the memory key, with its generation, that a line was last written under: key + 128 generation, by line (R156) -/
  lineKey : TMap Nat
  /-- what a line held under a key before it was written under another: line l and tag t under 2^40 l + t (R156) -/
  keyPlain : TMap (List Byte)
  /-- generations of the 128 memory keys (R377) -/
  keyGen : TMap Nat
  /-- local stores: byte a of core n under n 2^20 + a (R133) -/
  ls : Memory
  lsBad : NatSet
  /-- plane stores: byte a of cluster n under n 2^22 + a (R236) -/
  plane : Memory
  planeBad : NatSet
  /-- counter cells: cell c of core n under 256 n + c (R192) -/
  cells : TMap Cell
  /-- generations of home counters by physical address (R195) -/
  hgen : TMap (BitVec 16)
  /-- memory homed on other devices, by far key (R176, R179) -/
  far : Memory
  /-- earlier values of the aligned 8 bytes under 8 k, oldest first, each with the number of the write that ended it: what a
  stale line may still give (R179, R180) -/
  farOld : TMap (List (Word × Nat))
  /-- far writes performed so far (the model's own) -/
  farSeq : Nat
  /-- the write number at an agent's last system-scope acquire (R177, R180) -/
  farAcq : TMap Nat
  /-- the oldest version of the 8 bytes under 8 k that an agent may still read, under k 2^40 + agent (R179) -/
  farFloor : TMap Nat
  /-- far writes of engine operations that their home device has not yet performed, with the operation and the order of the
  write (R188) -/
  farPend : List EngFar
  /-- operands of REDs with fadd on a word of another device, by far key / 4, not yet combined, newest first (R132, R183) -/
  farFadds : TMap (List FaddOp)
  /-- generations of counters of other devices, by far key -/
  farGen : TMap (BitVec 16)
  /-- words on which REDs with fadd have combined since they were last read: the prior value and the operands, newest first
  (R132) -/
  fadds : TMap (BitVec 32 × List FaddOp)
  /-- aligned 8 bytes under pa / 8 that engines have written and that some agents may still read as they were, oldest first
  (R177, R186, R188) -/
  engOld : TMap (List EngW)
  /-- what parties and counters carry of engine operations: party p under 2 p, counter c under 2 c.num + 1 (R177, R178) -/
  joins : TMap (List Join)
  /-- later stores of issuers, newest first (R185) -/
  unseen : List Unseen
  /-- completion signals that are still to be delivered -/
  owed : List Owed
  /-- logical time, which no instruction reads (R159) -/
  times : Times
  /-- earlier versions of the word under pa / 8, oldest first (R106) -/
  codeOld : TMap (List OldWord)
  /-- stores of strands performed so far (the model's own) -/
  codeSeq : Nat
  /-- ICINVs that have completed, newest first (R107) -/
  icCovers : List Cover
  /-- clusters whose L1s are fused (R142) -/
  fused : NatSet
  launches : TMap Launch
  /-- sequencer thread of slot n of die d under 64 d + n (R213) -/
  threads : TMap Thread
  /-- SLOTCTL as last written (R213) -/
  slotctl : TMap Word
  /-- KERNEL and RESTORE packets of the queue of descriptor q that die d has passed, under 8 q + d (R228) -/
  qcount : TMap Nat
  /-- arm entry e of die d under 64 d + e (R229) -/
  arms : TMap Arm
  images : TMap Image
  /-- Fresco engine of cluster n (R233) -/
  frescos : TMap Fresco
  /-- Stencil unit of cluster n (R260) -/
  stencils : TMap Stencil
  glaze : Glaze
  /-- storage commands in flight (R384) -/
  stor : TMap StorCmd
  /-- saved strands -/
  saved : List Aside
  primer : Primer
  /-- the measurement log, oldest first (R378) -/
  log : List Measure
  /-- adds held for step counters: physical address, amount, generation, agent, order (R210) -/
  held : List HeldAdd
  /-- sr.time (R4) -/
  time : Nat
  /-- the value of the first NODEID write (R45) -/
  node : Option (BitVec 8)
  /-- every clock has stopped (R380) -/
  still : Bool
  /-- what happens next, first first (the model's own) -/
  agenda : List Turn
  /-- the agent that executes (the model's own) -/
  cur : Nat
  /-- the engine operation whose event executes: its issuer's agent number and its order of issue (the model's own) -/
  eop : Nat × Nat
  /-- the follower's copy of the forwarded instruction that executes (the model's own) -/
  fwd : Option Fwd
  /-- open choices taken so far (the model's own) -/
  oracle : Nat
  /-- steps taken so far (the model's own) -/
  tick : Nat
  /-- order of registrations and requests (the model's own) -/
  seq : Nat
  deriving DecidableEq, Repr

/-! ### Reset -/

def TrapRegs.reset : TrapRegs := { code := 0, deferred := false, epc := 0, tval := 0 }

/-- sr.vl is 64, 8 on an Easel core (R454). -/
def resetVl (easel : Bool) : BitVec 7 := if easel then 8 else 64

/-- The registers before any strand: sr.fcsr, sr.asid, the regions and the masks at their reset values; the registers
for which the spec gives no reset value at 0 (log 2). -/
def Regs.reset (easel : Bool) : Regs where
  x := []
  v := []
  k := []
  pc := 0
  vl := resetVl easel
  rm := 1
  flags := 0
  seed := 1
  launch := 0
  index := 0
  grp := 0
  rank := 0
  param := 0
  ktrap := TrapRegs.reset
  mtrap := TrapRegs.reset
  mode := .user
  pmode := .user
  mpmode := .user
  intrap := false
  mintrap := false
  asid := 0
  lsbase := []
  lslim := []
  slots := []
  shadow := []

def Progress.none : Progress :=
  { field := false, sig := false, ans := .none, deadline := .none, made := 0, fin := .none, lease := .none,
    part := .none, handed := false }

def Ctx.reset (easel : Bool) : Ctx where
  phase := .free
  r := Regs.reset easel
  owner := none
  budget := 64
  nslots := 0
  cellBase := 0
  errAddr := 0
  ovf := false
  stale := false
  pend := []
  lines := []
  replay := []
  replayNow := false
  farw := []
  leases := []
  leasesLost := false
  wait := none
  before := none
  prog := Progress.none
  handler := 0
  join := none
  start := none
  preempt := none
  preemptReg := 0
  startReg := 0
  replyReg := 0
  life := 0
  gang := none
  ir := 0
  irExt := none
  straight := false
  linkBase := none

def Core.reset : Core where
  failed := false
  quantum := 0x10000
  bound := 0x10000
  last := 0
  l1 := []
  icache := []
  ic := []
  trace := .none

def Link.reset : Link := { up := false, corr := 0, uncorr := 0, capacity := 0 }

/-- Access table entries are 0, and Primer's admit every access but user mode's (R371). -/
def accessReset (i : Nat) : Word := if i % 2048 = 1976 then 0xE00000000000FFFF else 0

def Die.reset : Die where
  rootbase := 0
  migThr := 0
  leaseBound := 0x1000
  irqctr := 0
  elogbase := 0
  eloghead := 0
  irqasid := 0
  links := []
  storq := 0
  storbell := 0
  storasid := 0
  sysring := 0
  systake := 0
  sysfree := 0
  sysposted := 0
  sysasid := 0
  aflags := []
  access := []
  tlb := []
  l2 := []
  jobs := []
  mig := []
  migDue := []
  linkDue := []
  queues := []
  turn := 32
  kvec := 0
  mvec := 0

def Thread.reset : Thread where
  mapped := false
  desc := none
  next := 0
  notified := false
  st := .idle
  limit := 0
  unmap := false
  remap := none

def Arm.reset : Arm where
  valid := false
  tag := 0
  template := 0
  bufbase := 0
  sizes := 0
  err := 0
  asid := 0
  fires := 0
  base := 0
  due := []

def Bank.reset : Bank where
  valid := false
  fmt := 0
  expert := 0
  gen := 0
  cause := 0
  nv := false
  w := []
  scale := []

def Cap.reset : Cap := { valid := false, rights := 0, asid := 0, secret := 0 }

def Prog.reset : Prog := { count := 0, ops := 0, kappa := 0, format := false }

def Fresco.reset : Fresco where
  banks := []
  tiles := []
  status := []
  prog := Prog.reset
  caps := []
  owner := 0
  cmds := []

def Stencil.reset : Stencil := { seq := 1, entries := [] }

def Glaze.reset : Glaze :=
  { nreds := [], redus := [], lates := [], nsends := [], tokens := [], msgs := [], ncorrs := [] }

/-- At reset Primer has drawn the keys (R375, step 1). -/
def Primer.reset : Primer where
  boot := .ports
  failures := 0
  nonce := 0
  request := none
  tries := 0
  accepted := none
  floor := 0
  keys := []
  retryAt := 0
  region := []
  regionW := []
  signed := []
  debugNonce := Config.random 1
  unlocked := false
  drawn := 2

/-- The device right after reset: every core held, every context FREE, nothing listed in memory. -/
def State.reset : State where
  ctxs := []
  cores := []
  dies := []
  mem := []
  bad := []
  lineKey := []
  keyPlain := []
  keyGen := []
  ls := []
  lsBad := []
  plane := []
  planeBad := []
  cells := []
  hgen := []
  far := []
  farOld := []
  farSeq := 0
  farAcq := []
  farFloor := []
  farPend := []
  farFadds := []
  farGen := []
  fadds := []
  engOld := []
  joins := []
  unseen := []
  owed := []
  times := { pts := [], line := [], ctr := [], top := 0 }
  codeOld := []
  codeSeq := 0
  icCovers := []
  fused := []
  launches := []
  threads := []
  slotctl := []
  qcount := []
  arms := []
  images := []
  frescos := []
  stencils := []
  glaze := Glaze.reset
  stor := []
  saved := []
  primer := Primer.reset
  log := []
  held := []
  time := 0
  node := none
  still := false
  agenda := []
  cur := 0
  eop := (0, 0)
  fwd := none
  oracle := 0
  tick := 0
  seq := 0

/-! ### The stops of the model -/

/-- The machine stops. -/
inductive Fault where
  /-- Every clock of the package has stopped (R380); only reset leaves Still. Raised by every step while Still holds.
  Safe: the spec gives the machine no further state. -/
  | still
  deriving DecidableEq, Repr

/-- The model gives the step no meaning. -/
inductive Refusal where
  /-- An instruction that the model gives no meaning yet. Raised by an arm of exec alone. Safe. -/
  | notModelled (mnemonic : String)
  /-- An event of the agenda whose condition does not hold in this state, so that the spec does not let it happen.
  Raised by the meanings of events. Safe: the machine has no such transition. -/
  | eventNotEnabled (mnemonic : String)
  deriving DecidableEq, Repr

end Sys2Proof.Machine
end

