-- ==== Sys2Proof/Machine/Ops.lean ====
section
/-! DEFINITION. The named operations: every change of the state is an Upd; the monad that meanings are written in;
registers; taking a trap and returning from one. -/

namespace Sys2Proof.Machine

open Sys2Proof

/-! ### Numbering (R45, R46, R157) -/

/-- Number of cores (R47). -/
def numCores : Nat := 1568

def isEasel (core : Nat) : Bool := 1536 ≤ core

def dieOfCore (core : Nat) : Nat := if isEasel core then (core - 1536) / 4 else core / 192

def clusterOfCore (core : Nat) : Nat := core / 8

def dieOfCluster (cluster : Nat) : Nat := cluster / 24

def coreOf (agent : Nat) : Nat := agent / 16

def dieOf (agent : Nat) : Nat := dieOfCore (coreOf agent)

/-- Capacities of R37, R42, R44 and R47 in bytes, of a module in GiB. The last-level cache of a palette die holds plaintext copies of
its own modules' lines, tagged with address and key: State.lineKey and State.keyPlain say what it adds to the modules' bytes
(R156), and which lines it holds decides no other result. -/
def l2Size : Nat := 16 * (16 * 2 ^ 20)

def llcSize : Nat := 128 * (3 * 2 ^ 20)

def l1Size : Nat := 128 * 2 ^ 10

def moduleMax : Nat := 256

/-- Memory link j and network port j of a palette die as the device numbers them (R44). -/
def deviceLink (die j : Nat) : Nat := 6 * die + j

def devicePort (die j : Nat) : Nat := 2 * die + j

/-- Entries of a counter home's waiter list (R42, R202). -/
def waiterMax : Nat := 8192

/-- Contexts of a core (R40, R45). -/
def numCtx (core : Nat) : Nat := if isEasel core then 8 else 16

/-- VLMAX (R454). -/
def vlMax (core : Nat) : Nat := if isEasel core then 8 else 64

/-! ### Reading the state -/

def State.ctx (s : State) (a : Nat) : Ctx := TMap.get (Ctx.reset (isEasel (coreOf a))) s.ctxs a

def State.core (s : State) (n : Nat) : Core := TMap.get Core.reset s.cores n

def State.die (s : State) (d : Nat) : Die := TMap.get Die.reset s.dies d

def State.thread (s : State) (die slot : Nat) : Thread := TMap.get Thread.reset s.threads (64 * die + slot)

def State.arm (s : State) (die e : Nat) : Arm := TMap.get Arm.reset s.arms (64 * die + e)

def State.fresco (s : State) (n : Nat) : Fresco := TMap.get Fresco.reset s.frescos n

def State.stencil (s : State) (n : Nat) : Stencil := TMap.get Stencil.reset s.stencils n

def State.cell (s : State) (core cell : Nat) : Cell := TMap.get { v := 0, g := 0 } s.cells (256 * core + cell)

def State.homeGen (s : State) (pa : Nat) : BitVec 16 := TMap.get 0 s.hgen pa

/-- sr.node (R45). -/
def State.nodeId (s : State) : BitVec 8 := s.node.getD 0

/-- sr.time (R4). DESIGN CHOICE (log 56): the spec does not say what device time does past 2^64 - 1 ns; State.time goes on
counting, sr.time shows it modulo 2^64, and deadlines are compared with the unbounded count. -/
def State.timeW (s : State) : Word := BitVec.ofNat 64 s.time

/-! ### Updates -/

/-- The device after a reset (R375): everything is at its reset value, and Primer has drawn fresh keys and a fresh nonce.
The modules keep their bytes, which decrypt under other keys now (R377); the memory of other devices stands; the free values
that the model has taken stay taken. -/
def State.restart (s : State) : State :=
  { State.reset with
    mem := s.mem
    bad := s.bad
    lineKey := s.lineKey
    keyPlain := s.keyPlain
    keyGen := (List.range 128).map fun k => (k, TMap.get 0 s.keyGen k + 1)
    far := s.far
    farFadds := s.farFadds
    farGen := s.farGen
    primer :=
      { Primer.reset with
        debugNonce := Config.random s.primer.drawn
        tries := s.primer.tries
        drawn := s.primer.drawn + 1 }
    oracle := s.oracle
    tick := s.tick
    seq := s.seq }

/-- One change of the state. Every effect of every step is a sequence of these. -/
inductive Upd where
  | ctx (a : Nat) (c : Ctx)
  | core (n : Nat) (c : Core)
  | die (d : Nat) (x : Die)
  /-- a plain write of a byte: it removes the byte's poison (R355), its word is combined (R171), and nobody reads an engine's
  older byte there any more -/
  | byte (pa : Nat) (b : Byte)
  | poison (pa : Nat)
  | lineKey (line key : Nat)
  | keyPlain (k : Nat) (bs : List Byte)
  | newKey (k : Nat)
  | lsByte (k : Nat) (b : Byte)
  | lsPoison (k : Nat)
  | planeByte (k : Nat) (b : Byte)
  | planePoison (k : Nat)
  | cell (k : Nat) (c : Cell)
  | homeGen (pa : Nat) (g : BitVec 16)
  | farByte (va : Nat) (b : Byte)
  /-- one more far write has been performed, and these are the values that stale lines may still give -/
  | farOld (m : TMap (List (Word × Nat)))
  | farAcq (m : TMap Nat)
  | farFloor (m : TMap Nat)
  | farPend (l : List EngFar)
  | farFadds (m : TMap (List FaddOp))
  | farGen (k : Nat) (g : BitVec 16)
  | fadds (m : TMap (BitVec 32 × List FaddOp))
  | engOld (m : TMap (List EngW))
  | joins (m : TMap (List Join))
  | unseen (l : List Unseen)
  | owed (l : List Owed)
  | times (t : Times)
  /-- one more store of a strand has been performed (R106) -/
  | codeOld (m : TMap (List OldWord))
  | icCovers (l : List Cover)
  | fused (l : NatSet)
  | launch (k : Nat) (l : Launch)
  | noLaunch (k : Nat)
  | held (l : List HeldAdd)
  | thread (k : Nat) (t : Thread)
  | slotctl (n : Nat) (w : Word)
  | qcount (k n : Nat)
  | arm (k : Nat) (x : Arm)
  | images (m : TMap Image)
  | fresco (n : Nat) (f : Fresco)
  | stencil (n : Nat) (x : Stencil)
  | glaze (g : Glaze)
  | stor (m : TMap StorCmd)
  | saved (l : List Aside)
  | primer (p : Primer)
  /-- the measurement log grows (R378: it is append-only) -/
  | measure (m : Measure)
  /-- device time advances (R4, R376: it never decreases) -/
  | pass (ns : Nat)
  /-- the first NODEID write (R45: later writes are ignored) -/
  | latchNode (v : BitVec 8)
  | stop
  | agenda (l : List Turn)
  | cur (a : Nat)
  | eop (a n : Nat)
  | fwd (f : Option Fwd)
  | choose
  /-- choices taken by an attempt that left no other effect stay taken -/
  | chosen (n : Nat)
  | nextTick
  | nextSeq
  deriving DecidableEq, Repr

/-- A byte of the 8 that an engine's write found there. -/
def EngW.withByte (e : EngW) (i : Nat) (b : Byte) : EngW :=
  { e with old := (e.old &&& ~~~((0xFF : Word) <<< (8 * i))) ||| (b.zeroExtend 64 <<< (8 * i)) }

def Upd.apply (u : Upd) (s : State) : State :=
  match u with
  | .ctx a c => { s with ctxs := TMap.put s.ctxs a c }
  | .core n c => { s with cores := TMap.put s.cores n c }
  | .die d x => { s with dies := TMap.put s.dies d x }
  | .byte pa b =>
    { s with
      mem := Memory.write s.mem pa b, bad := NatSet.drop s.bad pa, fadds := TMap.del s.fadds (pa / 4)
      engOld :=
        match TMap.find s.engOld (pa / 8) with
        | some l => TMap.put s.engOld (pa / 8) (l.map fun e => e.withByte (pa % 8) b)
        | none => s.engOld }
  | .poison pa => { s with bad := NatSet.add s.bad pa }
  | .lineKey line key => { s with lineKey := TMap.put s.lineKey line key }
  | .keyPlain k bs => { s with keyPlain := TMap.put s.keyPlain k bs }
  | .newKey k => { s with keyGen := TMap.put s.keyGen k (TMap.get 0 s.keyGen k + 1) }
  | .lsByte k b => { s with ls := Memory.write s.ls k b, lsBad := NatSet.drop s.lsBad k }
  | .lsPoison k => { s with lsBad := NatSet.add s.lsBad k }
  | .planeByte k b => { s with plane := Memory.write s.plane k b, planeBad := NatSet.drop s.planeBad k }
  | .planePoison k => { s with planeBad := NatSet.add s.planeBad k }
  | .cell k c => { s with cells := TMap.put s.cells k c }
  | .homeGen pa g => { s with hgen := TMap.put s.hgen pa g }
  | .farByte va b => { s with far := Memory.write s.far va b }
  | .farOld m => { s with farOld := m, farSeq := s.farSeq + 1 }
  | .farAcq m => { s with farAcq := m }
  | .farFloor m => { s with farFloor := m }
  | .farPend l => { s with farPend := l }
  | .farFadds m => { s with farFadds := m }
  | .farGen k g => { s with farGen := TMap.put s.farGen k g }
  | .fadds m => { s with fadds := m }
  | .engOld m => { s with engOld := m }
  | .joins m => { s with joins := m }
  | .unseen l => { s with unseen := l }
  | .owed l => { s with owed := l }
  | .times t => { s with times := t }
  | .codeOld m => { s with codeOld := m, codeSeq := s.codeSeq + 1 }
  | .icCovers l => { s with icCovers := l }
  | .fused l => { s with fused := l }
  | .launch k l => { s with launches := TMap.put s.launches k l }
  | .noLaunch k => { s with launches := TMap.del s.launches k }
  | .held l => { s with held := l }
  | .thread k t => { s with threads := TMap.put s.threads k t }
  | .slotctl n w => { s with slotctl := TMap.put s.slotctl n w }
  | .qcount k n => { s with qcount := TMap.put s.qcount k n }
  | .arm k x => { s with arms := TMap.put s.arms k x }
  | .images m => { s with images := m }
  | .fresco n f => { s with frescos := TMap.put s.frescos n f }
  | .stencil n x => { s with stencils := TMap.put s.stencils n x }
  | .glaze g => { s with glaze := g }
  | .stor m => { s with stor := m }
  | .saved l => { s with saved := l }
  | .primer p => { s with primer := p }
  | .measure m => { s with log := s.log ++ [m] }
  | .pass ns => { s with time := s.time + ns }
  | .latchNode v => match s.node with | none => { s with node := some v } | some _ => s
  | .stop => { s with still := true }
  | .agenda l => { s with agenda := l }
  | .cur a => { s with cur := a }
  | .eop a n => { s with eop := (a, n) }
  | .fwd f => { s with fwd := f }
  | .choose => { s with oracle := s.oracle + 1 }
  | .chosen n => { s with oracle := n }
  | .nextTick => { s with tick := s.tick + 1 }
  | .nextSeq => { s with seq := s.seq + 1 }

/-- The states that sequences of updates lead to from `s0`. -/
inductive Reach (s0 : State) : State → Prop
  | refl : Reach s0 s0
  | step {s : State} (u : Upd) (h : Reach s0 s) : Reach s0 (u.apply s)

/-- A state on the way of a step from `s0`. -/
abbrev At (s0 : State) := { s : State // Reach s0 s }

/-! ### The monad of the meanings -/

/-- How an instruction ends other than by completing. -/
inductive Stop where
  /-- a trap at the instruction: sr.epc names it; `keep`: the stores that it has made stay (R152) -/
  | trap (c : Cause) (tval : Word) (deferred keep : Bool)
  /-- an unsatisfied wait: the context is WAITING and the instruction issues again (R55) -/
  | wait (w : Wait)
  /-- the instruction stalls in place (R55) -/
  | stall
  /-- an event whose condition does not hold, or an access that another agent's lease holds back -/
  | refuse (r : Refusal)
  deriving DecidableEq, Repr

abbrev M (s0 : State) (α : Type) := EStateM Stop (At s0) α

variable {s0 : State}

/-- The state as it stands. -/
def st : M s0 State := fun s => .ok s.val s

/-- One update. -/
def upd (u : Upd) : M s0 Unit := fun s => .ok () ⟨u.apply s.val, .step u s.property⟩

def stop {α : Type} (x : Stop) : M s0 α := fun s => .error x s

/-- A precise trap without effect. -/
def trap {α : Type} (c : Cause) (tval : Word) : M s0 α := stop (.trap c tval false false)

/-- Runs a part of a meaning and gives how it ended. A precise trap, and what a lease holds back, give back the state before. -/
def attempt {α : Type} (m : M s0 α) : M s0 (Except Stop α) := fun s =>
  match m s with
  | .ok v s' => .ok (.ok v) s'
  | .error (.trap c v d false) s' =>
    .ok (.error (.trap c v d false)) ⟨(Upd.chosen s'.val.oracle).apply s.val, .step _ s.property⟩
  | .error (.refuse r) s' => .ok (.error (.refuse r)) ⟨(Upd.chosen s'.val.oracle).apply s.val, .step _ s.property⟩
  | .error x s' => .ok (.error x) s'

/-- The outcome of a step that is a run of `m` from `s0`. -/
def run (s0 : State) (m : M s0 Unit) : Host.Outcome State Fault Refusal :=
  match m ⟨s0, .refl⟩ with
  | .ok _ s => .next s.val
  | .error (.refuse r) _ => .refused r
  | .error _ s => .next s.val

/-- An event whose condition does not hold. -/
def notEnabled {α : Type} (name : String) : M s0 α := stop (.refuse (.eventNotEnabled name))

def require (name : String) (b : Bool) : M s0 Unit := if b then pure () else notEnabled name

/-- One of `n` outcomes that the spec leaves open (R1). -/
def choose (n : Nat) : M s0 Nat := do
  let s ← st
  upd .choose
  return Config.pick s.oracle % n

/-- A word whose value the spec does not state. -/
def openWord : M s0 Word := do
  let s ← st
  upd .choose
  return BitVec.ofNat 64 (Config.pick s.oracle)

/-- A free value without a bound, for a choice among many outcomes. -/
def openNat : M s0 Nat := do
  let s ← st
  upd .choose
  return Config.pick s.oracle

def freshSeq : M s0 Nat := do
  let s ← st
  upd .nextSeq
  return s.seq

def modCtx (a : Nat) (f : Ctx → Ctx) : M s0 Unit := do
  let s ← st
  upd (.ctx a (f (s.ctx a)))

def modCore (n : Nat) (f : Core → Core) : M s0 Unit := do
  let s ← st
  upd (.core n (f (s.core n)))

def modDie (d : Nat) (f : Die → Die) : M s0 Unit := do
  let s ← st
  upd (.die d (f (s.die d)))

def Turn.isEvent : Turn → Bool
  | .event _ => true
  | _ => false

/-- An event that happens next, after those that stand at the head of the agenda, before the rest of it. -/
def happens (e : Instr) : M s0 Unit := do
  let s ← st
  upd (.agenda (s.agenda.takeWhile Turn.isEvent ++ .event e :: s.agenda.dropWhile Turn.isEvent))

/-! ### Registers -/

/-- X(n) as a value: 0 for x0 (R388). -/
def Regs.getX (r : Regs) (n : XReg) : Word := if n = 0 then 0 else TMap.get 0 r.x n.toNat

/-- X(n) as a target: a write to x0 is discarded (R388). -/
def Regs.setX (r : Regs) (n : XReg) (v : Word) : Regs := if n = 0 then r else { r with x := TMap.put r.x n.toNat v }

def Regs.getV (r : Regs) (n : VReg) : VWord := TMap.get 0 r.v n.toNat

def Regs.setV (r : Regs) (n : VReg) (v : VWord) : Regs := { r with v := TMap.put r.v n.toNat v }

/-- k0 reads all ones (R430). -/
def Regs.getK (r : Regs) (n : KReg) : Word := if n = 0 then BitVec.allOnes 64 else TMap.get (BitVec.allOnes 64) r.k n.toNat

/-- A write to k0 is discarded (R430). -/
def Regs.setK (r : Regs) (n : KReg) (v : Word) : Regs := if n = 0 then r else { r with k := TMap.put r.k n.toNat v }

def Ctx.modR (c : Ctx) (f : Regs → Regs) : Ctx := { c with r := f c.r }

def Ctx.setX (c : Ctx) (n : XReg) (v : Word) : Ctx := c.modR fun r => r.setX n v

/-- The agent that executes. -/
def me : M s0 Nat := do
  let s ← st
  return s.cur

def myCtx : M s0 Ctx := do
  let s ← st
  return s.ctx s.cur

def myCore : M s0 Nat := do
  let s ← st
  return coreOf s.cur

def myDie : M s0 Nat := do
  let s ← st
  return dieOf s.cur

def modMe (f : Ctx → Ctx) : M s0 Unit := do
  let s ← st
  upd (.ctx s.cur (f (s.ctx s.cur)))

def readX (n : XReg) : M s0 Word := do
  let c ← myCtx
  return c.r.getX n

def writeX (n : XReg) (v : Word) : M s0 Unit := modMe fun c => c.setX n v

def writeV (n : VReg) (v : VWord) : M s0 Unit := modMe fun c => c.modR fun r => r.setV n v

def writeK (n : KReg) (v : Word) : M s0 Unit := modMe fun c => c.modR fun r => r.setK n v

/-- Flags are sticky: an instruction ORs its flags into sr.fcsr (R124, R125). -/
def raiseFlags (f : BitVec 6) : M s0 Unit := modMe fun c => c.modR fun r => { r with flags := r.flags ||| f }

/-! ### Traps -/

/-- R354. -/
def Cause.code : Cause → BitVec 8
  | .illegal => 1 | .priv => 2 | .align => 3 | .lsprot => 4 | .xlate => 5 | .wrprot => 6 | .cow => 7 | .ctrpage => 8
  | .ctrovf => 9 | .capfail => 10 | .tagmiss => 11 | .shape => 12 | .pipe => 13 | .poison => 14 | .syscall => 15
  | .brk => 16 | .stepfail => 17

def Mode.code : Mode → BitVec 2
  | .user => 0 | .kernel => 1 | .monitor => 2

/-- A trap enters monitor mode from monitor mode, and from kernel mode with INTRAP = 1 or for SYSCALL and BRK (R350). -/
def trapToMonitor (r : Regs) (c : Cause) : Bool :=
  match r.mode with
  | .monitor => true
  | .kernel => r.intrap || c == .syscall || c == .brk
  | .user => false

/-- Trap entry (R351): the saved registers, the mode, and the handler's address. -/
def Regs.enterTrap (r : Regs) (kvec mvec : Word) (c : Cause) (deferred : Bool) (epc tval : Word) : Regs :=
  let t : TrapRegs := { code := c.code, deferred := deferred, epc := epc, tval := tval }
  if trapToMonitor r c then
    { r with mtrap := t, mpmode := r.mode, mintrap := true, pc := mvec, mode := .monitor }
  else
    { r with ktrap := t, pmode := r.mode, intrap := true, pc := kvec, mode := .kernel }

/-- Taking a trap. A trap in monitor mode with MINTRAP = 1 halts the core and marks it failed, and writes no trap
register (R350); the drain and the records of R360 follow as the event of a second checker mismatch. -/
def takeTrap (a : Nat) (c : Cause) (deferred : Bool) (epc tval : Word) : M s0 Unit := do
  let s ← st
  let x := s.ctx a
  if x.r.mode == .monitor && x.r.mintrap then
    modCore (coreOf a) fun k => { k with failed := true }
    happens (.checkerMismatch (coreOf a) true)
  else
    let d := s.die (dieOf a)
    upd (.ctx a
      { x with
        r := x.r.enterTrap d.kvec d.mvec c deferred epc tval
        prog := Progress.none, handler := x.handler + 1, replayNow := false, straight := false })

/-- ERET (R352): the saved pc and mode come back. -/
def Regs.leaveTrap (r : Regs) : Regs :=
  if r.mode = .kernel then { r with pc := r.ktrap.epc, mode := r.pmode, intrap := false }
  else { r with pc := r.mtrap.epc, mode := r.mpmode, mintrap := false }

end Sys2Proof.Machine
end

