-- ==== Sys2Proof/Machine/Operands.lean ====
section
/-! DEFINITION. Operand forms: vector elements and lanes, effective addresses, the address of the next instruction. -/

namespace Sys2Proof

/-! ### The x registers of an instruction (R163) -/

def Addr1.xregs : Addr1 → List XReg
  | .disp _ => []
  | .reg b => [b]

def AddrV.xregs : AddrV → List XReg
  | .unit _ | .indexed _ _ => []
  | .strided _ s => [s]

def KMovForm.xregs : KMovForm → List XReg
  | .kk _ _ => []
  | .kx _ a => [a]
  | .xk d _ => [d]

def Target.xregs : Target → List XReg
  | .here => []
  | .remote _ _ _ secret => [secret]

/-- The x registers that an instruction reads or writes. -/
def Instr.xregs : Instr → List XReg
  | .add d a b _ | .sub d a b _ | .mul d a b _ | .mulh d a b _ | .mulhu d a b _ | .div d a b _ | .divu d a b _
    | .rem d a b _ | .remu d a b _ | .and d a b _ | .or d a b _ | .xor d a b _ | .shl d a b _ | .shr d a b _
    | .sra d a b _ | .slt d a b _ | .sltu d a b _ | .min d a b _ | .max d a b _ | .minu d a b _ | .maxu d a b _
    | .fadd _ _ d a b _ | .fsub _ _ d a b _ | .fmul _ _ d a b _ | .fdiv _ _ d a b _ | .fmin _ d a b _
    | .fmax _ d a b _ | .fcmp _ _ d a b _ | .amo _ _ _ d a b _ _ | .cas _ _ d a b _ _ | .cwaitAny d _ a b _
    | .cwaitAll d _ a b _ | .icprobe d a b _ _ | .alloc d a b _ => [d, a, b]
  | .addi d a _ _ | .andi d a _ _ | .ori d a _ _ | .xori d a _ _ | .shli d a _ _ | .shri d a _ _ | .srai d a _ _
    | .slti d a _ _ | .clz d a _ | .popc d a _ | .fsqrt _ _ d a _ | .fcvt _ _ _ d a _ | .fclass _ d a _ | .jlr d a _ _
    | .setvl d a _ _ | .red _ _ _ d a _ _ | .unlease d a _ _ | .cadd d _ a _ _ | .trace d a _ _ | .xstat d a _
    | .xresume d a _ | .xcancel d a _ | .ncorrApply d a _ | .ncorrScale d a _ | .ldslot d a _ _ | .stslot d a _ _
    => [d, a]
  | .sel d a b c _ | .ffma _ _ d a b c _ | .msgTag d a b c _ | .msgApp d a b c _ => [d, a, b, c]
  | .li d _ _ | .adr d _ _ | .jl d _ _ | .loop d _ _ | .vred _ _ _ _ d _ _ | .kpopc d _ _ | .kff d _ _ | .cread d _ _
    | .xgo d _ | .srd d _ _ => [d]
  | .br _ a b _ _ | .vins _ a b _ | .tblfence a b _ | .icinv _ a b _ | .nsend a b _ | .nsendRoute a b _
    | .nred _ _ _ a b _ | .guard a b _ _ | .tagchk a b _ _ => [a, b]
  | .jr a _ _ | .vbcast _ _ _ a _ | .viota _ _ a _ | .lease a _ _ | .cbind _ a _ | .cmark _ a _ _ | .spawn a _
    | .xset _ a _ | .wbar a _ _ | .swr _ a _ => [a]
  | .vext d _ b _ | .cwait d _ b _ => [d, b]
  | .vrot _ _ _ b _ | .vtopk _ _ _ _ b _ | .vtag _ _ b _ => [b]
  | .kmov f _ => f.xregs
  | .ld _ _ d a m _ | .st _ _ d a m _ => [d, a] ++ m.xregs
  | .vld _ _ _ _ a m _ | .vst _ _ _ _ a m _ => [a] ++ m.xregs
  | .mloadw _ a tg _ => [a] ++ tg.xregs
  | .mmul _ a b _ _ _ _ _ _ _ tg _ | .mgrad _ a b _ _ _ _ _ _ _ tg _ | .mdrain _ a b _ _ _ _ _ _ _ tg _
    | .mprog a b _ tg _ | .mcap _ a b tg _ => [a, b] ++ tg.xregs
  | .mstat d a _ tg _ => [d, a] ++ tg.xregs
  | .icfill s a b c _ => [s, a, b, c]
  | .icfillSite s _ => [s]
  | .j _ _ | .bany _ _ _ | .ball _ _ _ | .vadd _ _ _ _ _ _ _ | .vsub _ _ _ _ _ _ _ | .vmul _ _ _ _ _ _ _
    | .vfma _ _ _ _ _ _ _ _ | .vmin _ _ _ _ _ _ | .vmax _ _ _ _ _ _ | .vand _ _ _ _ _ _ | .vor _ _ _ _ _ _
    | .vxor _ _ _ _ _ _ | .vshl _ _ _ _ _ _ | .vshr _ _ _ _ _ _ | .vsra _ _ _ _ _ _ | .vabs _ _ _ _ _
    | .vneg _ _ _ _ _ | .vrcp _ _ _ _ _ _ | .vrsq _ _ _ _ _ _ | .vexp2 _ _ _ _ _ _ | .vlog2 _ _ _ _ _ _
    | .vsqrt _ _ _ _ _ _ | .vcmp _ _ _ _ _ _ _ | .vsel _ _ _ _ _ | .vcvt _ _ _ _ _ _ _ | .vdot _ _ _ _ _ _ _ _
    | .vperm _ _ _ _ _ | .vcomp _ _ _ _ | .vscan _ _ _ _ _ _ _ | .kand _ _ _ _ | .kor _ _ _ _ | .kxor _ _ _ _
    | .knot _ _ _ | .creset _ _ | .fence _ | .efence _ | .finish _ | .yield _ | .exit _ | .untrace _ | .step _
    | .icfillAll _ | .trapSys _ _ | .trapBrk _ _ | .eret _ | .quantumExpiry _ | .referenceComplete _
    | .drainComplete _ | .continuationTake _ | .continuationAging _ _ | .storeHomeCheck _ | .leaseBoundExpiry _ _
    | .remoteAccess _ | .counterAddAtHome _ | .waitPoll _ | .cwaitTimeout _ | .frescoCommandStart _ _
    | .frescoCommandComplete _ _ | .remoteCommandAdmission _ | .chunkComplete _ _ | .chunkFault _ _
    | .nredSourceRead _ | .reductionDeadline _ | .lateContribution _ | .nsendComplete _ | .routeStage _
    | .msgAppendComplete _ | .taggedLaunchMessage _ | .queueMap _ _ | .queueUnmap _ | .notify _ | .kernelPacket _ _
    | .strandPlacement _ _ | .shareCompletion _ _ | .restorePacket _ _ | .waitcPacket _ _ | .waitcWake _ _
    | .sigcPacket _ _ | .fencePacket _ _ | .fencePacketWake _ _ | .armPacket _ _ | .easelStart _ _ | .crackOperation _
    | .syscallPost _ | .syscallReply _ _ | .preemptRequest _ _ | .contextHalt _ | .saveComplete _ | .storageSubmit _ _
    | .storageComplete _ _ _ _ | .checkerMismatch _ _ | .uncorrectableError _ | .linkPoisonReport _ _ | .linkDown _
    | .reset | .manifest _ | .monitorImageFetched _ | .bootRetryTimer | .thermalTrip | .attestationChallenge _
    | .debugUnlock _ _ | .keyctl _ | .still | .freezePin | .nodeid _ | .ptpCorrection _ | .loadImage _ _ _
    | .unloadImage _ | .registerWrite _ _ _ _ | .ncorrComplete _ | .linkTrained _ _ | .correctedErrorReport _
    | .illegalOpcode _ => []

end Sys2Proof

namespace Sys2Proof.Machine

open Sys2Proof

variable {s0 : State}

/-! ### Elements of a vector register (R115, R477) -/

/-- Element e of w bits: bits e w + w - 1 .. e w of the register. -/
def vElem (v : VWord) (w e : Nat) : Nat := v.toNat / 2 ^ (e * w) % 2 ^ w

/-- The register with element e of w bits replaced by the low w bits of `x`. -/
def vSetElem (v : VWord) (w e x : Nat) : VWord :=
  let mask : VWord := BitVec.ofNat 2048 (2 ^ w - 1) <<< (e * w)
  (v &&& ~~~mask) ||| (BitVec.ofNat 2048 (x % 2 ^ w) <<< (e * w))

/-- Lane i: bits 31..0 (R477). -/
def vLane (v : VWord) (i : Nat) : Nat := vElem v 32 i

def vSetLane (v : VWord) (i x : Nat) : VWord := vSetElem v 32 i x

/-- sr.vl as a number. -/
def Regs.lanes (r : Regs) : Nat := r.vl.toNat

/-- A lane is active when it lies below sr.vl and its mask bit is 1 (R477). -/
def laneActive (vl : Nat) (k : Word) (i : Nat) : Bool := decide (i < vl) && k.getLsbD i

/-- Elements of w bits in the lanes below sr.vl (R115, R477, R485). -/
def elemCount (vl w : Nat) : Nat := vl * 32 / w

/-- The lane that decides whether element e of w bits is active (R477). -/
def elemLane (w e : Nat) : Nat := e * w / 32

/-- The active elements of w bits, ascending (R477). -/
def activeElems (vl w : Nat) (k : Word) : List Nat :=
  (List.range (elemCount vl w)).filter fun e => laneActive vl k (elemLane w e)

/-- The active lanes, ascending. -/
def activeLanes (vl : Nat) (k : Word) : List Nat := (List.range vl).filter fun i => laneActive vl k i

/-- A register with the given elements replaced, in the order of the list. -/
def vWrite (v : VWord) (w : Nat) (l : List (Nat × Nat)) : VWord := l.foldl (fun v p => vSetElem v w p.1 p.2) v

/-! ### Addresses (R87, R388) -/

/-- Bytes of a SIZE. -/
def sizeBytes : Size → Nat
  | .b => 1 | .h => 2 | .w => 4 | .d => 8

/-- Bits(SIZE) of R388. -/
def sizeBits (sz : Size) : Nat := 8 * sizeBytes sz

/-- The effective address of LD and ST (R431). -/
def ea1 (r : Regs) (a : XReg) (m : Addr1) : Word :=
  match m with
  | .disp d => r.getX a + d
  | .reg b => r.getX a + r.getX b

/-- The address of element i of VLD and VST (R87). -/
def eaV (r : Regs) (sz : Size) (a : XReg) (m : AddrV) (i : Nat) : Word :=
  match m with
  | .unit d => r.getX a + d + BitVec.ofNat 64 (i * sizeBytes sz)
  | .strided d s => r.getX a + d + BitVec.ofNat 64 i * r.getX s
  | .indexed d v => r.getX a + d + BitVec.ofNat 64 (vLane (r.getV v) i)

/-- E of the instruction's base word (R83). -/
def extCount (sy : Sync) : Nat := if sy.ext == .none then 0 else 1

/-- PC + 8 (1 + E), the next instruction (R397, R428). -/
def nextPc (pc : Word) (sy : Sync) : Word := pc + BitVec.ofNat 64 (8 * (1 + extCount sy))

/-- PC + 8 Imm, the target of a branch (R88). -/
def branchTarget (base off : Word) : Word := base + 8 * off

/-- The low w bits of a register, as a number. -/
def lowBits (v : Word) (w : Nat) : Nat := v.toNat % 2 ^ w

/-- Sext(v, w) as an integer (R388). -/
def sextInt (v w : Nat) : Int :=
  let c := v % 2 ^ w
  if 2 ^ (w - 1) ≤ c then (c : Int) - (2 ^ w : Nat) else c

def wordOfInt (v : Int) : Word := BitVec.ofInt 64 v

def wordOf (n : Nat) : Word := BitVec.ofNat 64 n

/-- Bits of an address (R138). -/
def canonical (va : Word) : Bool := va.extractLsb' 48 8 == 0

def vaNode (va : Word) : BitVec 8 := va.extractLsb' 56 8

/-- Bits hi..lo of a word as a number. -/
def field (w : Word) (lo len : Nat) : Nat := w.toNat / 2 ^ lo % 2 ^ len

end Sys2Proof.Machine
end

