-- ==== Sys2Proof/Machine/Xlate.lean ====
section
/-! DEFINITION. Physical memory, the page walk, translation caches, access tables, and where an access goes (R138 to R149,
R154, R369 to R372). -/

namespace Sys2Proof.Machine

open Sys2Proof

variable {s0 : State}

/-! ### Physical addresses (R369) -/

def paDie (pa : Nat) : Nat := pa / 2 ^ 43 % 8

def paPort (pa : Nat) : Nat := pa / 2 ^ 40 % 8

def paOff (pa : Nat) : Nat := pa % 2 ^ 40

def State.link (s : State) (die port : Nat) : Link := TMap.get Link.reset (s.die die).links port

/-- The frame lies in a module: a memory link's port with OFFSET below the module's capacity (R369, R383). -/
def State.inModule (s : State) (pa : Nat) : Bool :=
  decide (pa < 2 ^ 46) && decide (paPort pa ≤ 5) &&
  decide (paOff pa < (s.link (paDie pa) (paPort pa)).capacity.toNat * 2 ^ 30)

/-- While UP = 0 the link's frames read zero with POISON, and writes are dropped (R383). -/
def State.linkUp (s : State) (pa : Nat) : Bool := (s.link (paDie pa) (paPort pa)).up

/-- A byte carries poison: poisoned, or behind a link that is down (R355, R383). -/
def State.poisoned (s : State) (pa : Nat) : Bool := !s.linkUp pa || NatSet.has s.bad pa

/-- A byte as a reader gets it: poisoned bytes read zero (R355). -/
def State.physByte (s : State) (pa : Nat) : Byte := if s.poisoned pa then 0 else Memory.read s.mem pa

/-- n bytes, the lowest address first. -/
def State.physBytes (s : State) (pa n : Nat) : List Byte := (List.range n).map fun i => s.physByte (pa + i)

def bytesNat : List Byte → Nat
  | [] => 0
  | b :: bs => b.toNat + 256 * bytesNat bs

/-- The n little-endian bytes of a number (R7). -/
def natBytes : Nat → Nat → List Byte
  | 0, _ => []
  | n + 1, v => BitVec.ofNat 8 v :: natBytes n (v / 256)

def bytesWord (bs : List Byte) : Word := BitVec.ofNat 64 (bytesNat bs)

def State.physWord (s : State) (pa : Nat) : Word := bytesWord (s.physBytes pa 8)

/-- An access of a frame behind a link that is down, which the die logs (R383). -/
def noteDown (pa : Nat) : M s0 Unit := modDie (paDie pa) fun d => { d with linkDue := d.linkDue ++ [pa] }

/-- A plain write of bytes; dropped while the link is down (R355, R383). -/
def writePhys (pa : Nat) (bs : List Byte) : M s0 Unit := do
  let s ← st
  if s.linkUp pa then
    for (b, i) in bs.zipIdx do
      upd (.byte (pa + i) b)
  else noteDown pa

/-! ### The walk (R144 to R147) -/

/-- What a walk ends with: the leaf and whether it is a 512 MiB leaf; V = 0 stands for a walk fault. -/
def TlbEntry.fault : TlbEntry := { leaf := 0, big := false }

def leafV (e : Word) : Bool := e.getLsbD 63
def leafW (e : Word) : Bool := e.getLsbD 62
def leafX (e : Word) : Bool := e.getLsbD 61
def leafCow (e : Word) : Bool := e.getLsbD 60
def leafK (e : Word) : Bool := e.getLsbD 59
def leafG (e : Word) : Bool := e.getLsbD 58
def leafCont (e : Word) : Bool := e.getLsbD 50
def leafLeaf (e : Word) : Bool := e.getLsbD 49
def leafFar (e : Word) : Bool := e.getLsbD 48
def leafOwner (e : Word) : Nat := field e 40 8
def leafFrame (e : Word) : Nat := field e 0 30
/-- KEY, the memory encryption key (R146, R156). -/
def leafKey (e : Word) : Nat := field e 51 7

/-- A table entry: V, LEAF = 0, its other fields zero (R146, R147). -/
def tableOk (e : Word) : Bool := leafV e && !leafLeaf e && field e 50 13 == 0 && field e 30 19 == 0

/-- A leaf: RES0 bits zero; with FAR = 0, OWNER is a die and equals FRAME bits 29..27 (R146, R369); a 512 MiB leaf, far or
not, has FRAME bits 12..0 zero (R146, R147). -/
def leafOk (e : Word) (big : Bool) : Bool :=
  leafV e && leafLeaf e && field e 30 10 == 0 && (!big || leafFrame e % 2 ^ 13 == 0) &&
  (leafFar e || leafOwner e == leafFrame e / 2 ^ 27)

/-- The root entry of an ASID (R144): V and the reserved bits. -/
def rootOk (e : Word) : Bool := e.getLsbD 63 && field e 46 17 == 0 && field e 0 9 == 0

/-- A word of the tables. DESIGN CHOICE (log 76): the walk reads the bytes as they were stored, under whatever key; the spec does not
say under which key a page-table walk reads. -/
def State.walkWord (s : State) (pa : Nat) : Word := if s.inModule pa then s.physWord pa else 0

/-- The walk of palette die `die` for an address of an ASID (R144, R145, R147). -/
def State.walk (s : State) (die : Nat) (asid : BitVec 16) (va : Word) : TlbEntry :=
  let root := s.walkWord ((s.die die).rootbase.toNat % 2 ^ 46 + 8 * asid.toNat)
  if !rootOk root then TlbEntry.fault
  else
    let e0 := s.walkWord (field root 9 37 * 512 + 8 * field va 42 6)
    if !tableOk e0 then TlbEntry.fault
    else
      let e1 := s.walkWord (leafFrame e0 * 2 ^ 16 + 8 * field va 29 13)
      if leafLeaf e1 then (if leafOk e1 true then { leaf := e1, big := true } else TlbEntry.fault)
      else if !tableOk e1 then TlbEntry.fault
      else
        let e2 := s.walkWord (leafFrame e1 * 2 ^ 16 + 8 * field va 16 13)
        if leafOk e2 false then { leaf := e2, big := false } else TlbEntry.fault

/-- The physical addresses of the words that a walk reads, as far as it comes. -/
def State.walkPas (s : State) (die : Nat) (asid : BitVec 16) (va : Word) : List Nat :=
  let p := (s.die die).rootbase.toNat % 2 ^ 46 + 8 * asid.toNat
  let root := s.walkWord p
  if !rootOk root then [p]
  else
    let p0 := field root 9 37 * 512 + 8 * field va 42 6
    let e0 := s.walkWord p0
    if !tableOk e0 then [p, p0]
    else
      let p1 := leafFrame e0 * 2 ^ 16 + 8 * field va 29 13
      let e1 := s.walkWord p1
      if leafLeaf e1 || !tableOk e1 then [p, p0, p1]
      else [p, p0, p1, leafFrame e1 * 2 ^ 16 + 8 * field va 16 13]

/-- A leaf with another frame, modulo the field. -/
def withFrame (l : Word) (f : Nat) : Word := l - wordOf (leafFrame l) + wordOf (f % 2 ^ 30)

/-- The members of a group of 32 level-2 leaves as they would translate this page, where some member has CONT = 1 (R147):
none when the group agrees. A page whose own entry meets a fault takes another member's as well. -/
def State.contOthers (s : State) (die : Nat) (asid : BitVec 16) (va : Word) (e : TlbEntry) : List TlbEntry :=
  if e.big then []
  else
    let i := field va 16 5
    let base := va - wordOf (i * 65536)
    let members := (List.range 32).map fun j => (j, (s.walk die asid (base + wordOf (j * 65536))).leaf)
    if members.any fun m => leafV m.2 && leafCont m.2 then
      (members.filterMap fun m =>
        if leafV m.2 then some { leaf := withFrame m.2 (leafFrame m.2 + 2 ^ 30 + i - m.1), big := false } else none).filter
        fun l => l != e
    else []

/-- Translation-cache key: ASID and VA bits 47..16. -/
def tlbKey (asid : BitVec 16) (va : Word) : Nat := asid.toNat * 2 ^ 32 + field va 16 32

/-- The pages, by VA bits 47..16, that an entry found for page p maps: a 512 MiB leaf its region, one with CONT its group of 32
(R145, R147). -/
def TlbEntry.span (e : TlbEntry) (p : Nat) : Nat × Nat :=
  if e.big then (p / 8192 * 8192, p / 8192 * 8192 + 8191)
  else if leafCont e.leaf then (p / 32 * 32, p / 32 * 32 + 31)
  else (p, p)

/-- The entry of page p as it maps page v of its span. -/
def TlbEntry.moved (e : TlbEntry) (p v : Nat) : TlbEntry :=
  if e.big || p == v then e else { leaf := withFrame e.leaf (leafFrame e.leaf + 2 ^ 30 + v - p), big := false }

/-- What a die's translation cache may hold of a page for an ASID: the entries found for it, those found for other pages that map it
too, and those of G pages, which match in every ASID (R146). -/
def State.cached (s : State) (die : Nat) (asid : BitVec 16) (va : Word) : List TlbEntry :=
  let v := field va 16 32
  (TMap.find (s.die die).tlb (tlbKey asid va)).getD [] ++
  ((s.die die).tlb.filter fun p => p.1 != tlbKey asid va).flatMap fun p =>
    (p.2.filter fun e =>
      (p.1 / 2 ^ 32 == asid.toNat || leafG e.leaf) && decide ((e.span (p.1 % 2 ^ 32)).1 ≤ v) &&
        decide (v ≤ (e.span (p.1 % 2 ^ 32)).2)).map fun e => e.moved (p.1 % 2 ^ 32) v

/-- Every translation that an address may get: by the entries as they stand, by another member of a mixed group, by what the
cache holds. -/
def State.translations (s : State) (die : Nat) (asid : BitVec 16) (va : Word) : List TlbEntry :=
  let now := s.walk die asid va
  (now :: (s.contOthers die asid va now ++ s.cached die asid va)).dedup

/-- Translation at a first home. Until a TBLFENCE, an address whose entries have changed translates by the old entries
or the new ones, at each access anew (R147, R154, R273). -/
def walkM (die : Nat) (asid : BitVec 16) (va : Word) : M s0 TlbEntry := do
  let s ← st
  for pa in s.walkPas die asid va do
    if s.inModule pa && !s.linkUp pa then noteDown pa
  let es := s.translations die asid va
  let i ← if es.length ≤ 1 then pure 0 else choose es.length
  let e := es.getD i TlbEntry.fault
  modDie die fun d =>
    let old := (TMap.find d.tlb (tlbKey asid va)).getD []
    { d with tlb := TMap.put d.tlb (tlbKey asid va) (e :: old.filter fun x => x != e) }
  return e

/-! ### Access tables (R371, R372) -/

/-- Entry m of access table t of a palette die. -/
def State.access (s : State) (die t m : Nat) : Word :=
  TMap.get (accessReset (2048 * t + m)) (s.die die).access (2048 * t + m)

/-- Admission (R372): VALID, the kind bits that the access needs, USER for a user-mode core, the ASID range. -/
def admits (e : Word) (rd wr user : Bool) (asid : BitVec 16) : Bool :=
  e.getLsbD 63 && (!rd || e.getLsbD 62) && (!wr || e.getLsbD 61) && (!user || e.getLsbD 60) &&
  decide (field e 16 16 ≤ asid.toNat) && decide (asid.toNat ≤ field e 0 16)

/-- Masters (R371). -/
def masterEngine (cluster : Nat) : Nat := 1568 + cluster
def masterStencil (cluster : Nat) : Nat := 1760 + cluster
def masterGlaze (die : Nat) : Nat := 1952 + die
def masterStorage (die : Nat) : Nat := 1960 + die
def masterSeq (die : Nat) : Nat := 1968 + die
def masterPrimer : Nat := 1976
def masterJob (slot : Nat) : Nat := 1984 + slot

/-- A requester: its first home, address space, mode and master number. -/
structure Req where
  die : Nat
  asid : BitVec 16
  user : Bool
  master : Nat
  deriving DecidableEq, Repr

/-- The USER bit is asked of the user mode of cores (R371). -/
def Req.byUser (q : Req) : Bool := q.user && decide (q.master < 1568)

/-- The requester that a context is. -/
def State.reqOf (s : State) (a : Nat) : Req where
  die := dieOf a
  asid := (s.ctx a).r.asid
  user := (s.ctx a).r.mode == .user
  master := coreOf a

/-- Kinds of access to global memory; of a counter access, the kind bits that it needs (R371). -/
inductive Kind where
  | load | store | fetch | atomic | lease
  | counter (rd wr : Bool)
  deriving DecidableEq, Repr

def Kind.reads : Kind → Bool
  | .load | .fetch | .atomic | .lease => true
  | .counter rd _ => rd
  | .store => false

def Kind.writes : Kind → Bool
  | .store | .atomic | .lease => true
  | .counter _ wr => wr
  | .load | .fetch => false

def Kind.isCounter : Kind → Bool
  | .counter _ _ => true
  | _ => false

/-- The checks of a store or an atomic apply (R149, R150). -/
def Kind.stores (k : Kind) : Bool := k.writes && !k.isCounter

/-- Where an access goes: a physical address of this device, or memory of another device by its far key. -/
inductive Place where
  | phys (pa : Nat)
  | far (key : Nat)
  deriving DecidableEq, Repr

/-- Far key of an address: the device, and the byte of it that the device's own tables map the address of an ASID to (R143). -/
def farKey (node : BitVec 8) (asid : BitVec 16) (va : Word) : Nat :=
  (node.toNat * 2 ^ 48 + Config.farPage node asid (va.toNat / 65536) % 2 ^ 48) * 65536 + va.toNat % 65536

/-- Physical address of an address under a leaf (R145). -/
def leafPa (e : TlbEntry) (va : Word) : Nat :=
  if e.big then leafFrame e.leaf * 2 ^ 16 + field va 0 29 else leafFrame e.leaf * 2 ^ 16 + field va 0 16

/-- The leaf of a page whose accesses leave this palette die or device (R143, R148). -/
def forwarded (die : Nat) (e : TlbEntry) : Bool := leafFar e.leaf || leafOwner e.leaf != die

/-- Whether the target of a physical address admits an access (R369, R370, R372). -/
def State.targetAdmits (s : State) (q : Req) (k : Kind) (pa : Nat) : Bool :=
  let adm (t : Nat) : Bool := admits (s.access (paDie pa) t q.master) k.reads k.writes q.byUser q.asid
  if paPort pa ≤ 5 then s.inModule pa && adm 0
  else if paPort pa = 6 then adm 3
  else paDie pa == 0 && adm 3

/-- The network interface of the requester's first home admits an access that leaves the device (R371, R372). -/
def State.netAdmits (s : State) (q : Req) (k : Kind) : Bool :=
  admits (s.access q.die 2 q.master) k.reads k.writes q.byUser q.asid

/-- The checks of a translated access in the order of R149: translation causes, then the page's kind. `counter` is the
check of CBIND and of counter adds: a counter page (R198). A line of another device is not leased (R434). A FAR leaf whose OWNER is this device raises XLATE at once: DESIGN
CHOICE (log 57), the spec does not say whether such an access passes the device's own network interface. -/
def State.checkLeaf (s : State) (q : Req) (k : Kind) (va : Word) (e : TlbEntry) : Except Cause Place :=
  let l := e.leaf
  if !leafV l then .error .xlate
  else if q.user && leafG l then .error .xlate
  else if k == .fetch && !leafX l then .error .xlate
  else if leafFar l && leafOwner l == s.nodeId.toNat then .error .xlate
  else if leafFar l && (k == .lease || !s.netAdmits q k) then .error .xlate
  else if !leafFar l && !k.isCounter && !s.targetAdmits q k (leafPa e va) then .error .xlate
  else if !leafFar l && k.isCounter && !s.inModule (leafPa e va) then .error .xlate
  else if k.stores && leafK l then .error .ctrpage
  else if k.isCounter && !leafK l then .error .ctrpage
  else if k.stores && leafCow l then .error .cow
  else if k.stores && !leafW l then .error .wrprot
  else if leafFar l then .ok (.far (farKey (BitVec.ofNat 8 (leafOwner l)) q.asid va))
  else .ok (.phys (leafPa e va))

/-- The answer of another device to an access: its tables and access tables govern, and a fifth forward is refused (R143,
R146, R372); which answer it gives is open. -/
def farAnswer (k : Kind) (key : Nat) : M s0 (Except Cause Place) := do
  let causes : List Cause :=
    match k with
    | .load | .fetch | .lease => [.xlate]
    | .counter _ _ => [.xlate, .ctrpage]
    | .store | .atomic => [.xlate, .ctrpage, .cow, .wrprot]
  let i ← choose (causes.length + 1)
  return match causes[i]? with
    | some c => .error c
    | none => .ok (.far key)

/-- A saturating 16-bit count. -/
def satInc (v : BitVec 16) : BitVec 16 := if v = 0xFFFF then v else v + 1

/-- Entry number of a page that is new to a table: of the entries of its set the one whose REMOTE is lowest, the lower number
on a tie (R148). The number of ways and the set of a page are open. -/
def State.migVictim (s : State) (die : Nat) (va : Word) : Nat :=
  let ways := 2 ^ Config.migWays.val
  let base := Config.migSet (field va 16 32) % (4096 / ways) * ways
  let remote (i : Nat) : Nat := ((TMap.find (s.die die).mig i).map fun m => m.remote.toNat).getD 0
  (List.range ways).foldl (fun b i => if remote (base + i) < remote b then base + i else b) base

/-- The sampling of R148. Whether an access is sampled is open: a free choice. An access that is served on this die is
counted only for a page that the table already holds. -/
def sampleAccess (q : Req) (va : Word) (fwd : Bool) : M s0 Unit := do
  let s ← st
  let d := s.die q.die
  let vpn : BitVec 48 := (va >>> 16).truncate 48
  let known := d.mig.find? fun p => p.2.vpn == vpn && p.2.asid == q.asid
  match known with
  | some (i, m) =>
    let sampled ← choose 2
    if sampled = 1 then
      let now := if fwd then { m with remote := satInc m.remote } else { m with loc := satInc m.loc }
      modDie q.die fun d => { d with mig := TMap.put d.mig i now }
      if now.remote != m.remote && now.remote == d.migThr then
        modDie q.die fun d => { d with migDue := d.migDue ++ [i] }
  | none =>
    if fwd then
      let sampled ← choose 2
      if sampled = 1 then
        let i := s.migVictim q.die va
        modDie q.die fun d => { d with mig := TMap.put d.mig i { vpn := vpn, asid := q.asid, remote := 1, loc := 0 } }
        if d.migThr == 1 then
          modDie q.die fun d => { d with migDue := d.migDue ++ [i] }

/-- An access of a requester: its cause, or where it goes (R138, R143, R149). -/
def xlate (q : Req) (k : Kind) (va : Word) : M s0 (Except Cause Place) := do
  let s ← st
  if !canonical va then return .error .xlate
  else if vaNode va != s.nodeId then
    if k == .lease || !s.netAdmits q k then return .error .xlate
    else farAnswer k (farKey (vaNode va) q.asid va)
  else
    let e ← walkM q.die q.asid va
    let s ← st
    let r := s.checkLeaf q k va e
    match r with
    | .ok p =>
      sampleAccess q va (forwarded q.die e)
      match p with
      | .far key => farAnswer k key
      | .phys _ => return r
    | .error _ => return r

end Sys2Proof.Machine
end

