-- ==== Sys2Proof/Machine/Mem.lean ====
section
/-! DEFINITION. Reading and writing translated memory, for every agent: keys, leases, far memory, poison, parts of a range
(R143, R156, R172, R176 to R180, R355). -/

namespace Sys2Proof.Machine

open Sys2Proof

variable {s0 : State}

/-! ### Memory keys (R156, R377) -/

/-- What a line's bytes were last written under. -/
def State.keyTag (s : State) (key : Nat) : Nat := key + 128 * TMap.get 0 s.keyGen key

/-- Flags of an atomic addition go into the atomic flag register of an ASID at a palette die (R130, R131). -/
def raiseAtomic (die : Nat) (asid : BitVec 16) (fl : Flags) : M s0 Unit := do
  if fl != 0 then
    modDie die fun d =>
      { d with aflags := TMap.put d.aflags asid.toNat (TMap.get 0 d.aflags asid.toNat ||| (fl.truncate 5 &&& 0x17)) }

/-- The sum of two values, of which the prior one, if it is there, has no flags of its own to raise. -/
def faddPair (a b : Option FaddOp × BitVec 32) : M s0 (Option FaddOp × BitVec 32) := do
  let (v, fl) := atomicFadd a.2.toNat b.2.toNat
  let who := a.1.orElse fun _ => b.1
  match who with
  | some o => raiseAtomic o.die o.asid fl
  | none => pure ()
  return (who, BitVec.ofNat 32 v)

/-- Every way to add the prior value of a word and the operands of its REDs in a binary tree: two of the values become their
sum, until one is left (R132). -/
def faddTree : Nat → List (Option FaddOp × BitVec 32) → M s0 (BitVec 32)
  | 0, l => return (l.headD (none, 0)).2
  | n + 1, l => do
    if l.length ≤ 1 then return (l.headD (none, 0)).2
    let i ← choose l.length
    let a := l.getD i (none, 0)
    let l := l.eraseIdx i
    let j ← choose l.length
    let b ← faddPair a (l.getD j (none, 0))
    faddTree n (b :: l.eraseIdx j)

/-- A read of words whose REDs with fadd have combined: the sum of any tree of them (R132, R171). -/
def settleFadds (pa n : Nat) : M s0 Unit := do
  let s ← st
  for (w, v, l) in s.fadds do
    if pa < 4 * w + 4 && 4 * w < pa + n then
      let sum ← faddTree l.length ((none, v) :: l.map fun o => (some o, o.value))
      for (b, i) in (natBytes 4 sum.toNat).zipIdx do
        upd (.byte (4 * w + i) b)

/-- Bytes of one line as a reader under a key gets them. Under the key they were written with, the plaintext; a line that was
written under the reader's key and has since been written under another gives the plaintext of then, or the module's data
decrypted under the reader's key (R156); a line that never was written under the reader's key, or only before that key was
renewed, the module's data decrypted under it (R377). A line that nothing has written under a key is plain under every key. -/
def readLine (pa n key : Nat) : M s0 (List Byte) := do
  let s ← st
  let plain := s.physBytes pa n
  let garbled := (List.range n).map fun i => if s.poisoned (pa + i) then 0 else Config.garbled (s.keyTag key) (pa + i)
  match TMap.find s.lineKey (pa / 256) with
  | none => return plain
  | some w =>
    if w = s.keyTag key then return plain
    else
      match TMap.find s.keyPlain (pa / 256 * 2 ^ 40 + s.keyTag key) with
      | none => return garbled
      | some bs =>
        let i ← choose 2
        return if i = 0 then (List.drop (pa % 256) bs).take n else garbled

/-- The parts of n bytes that lie in one line each: offset and length. -/
def lineParts (pa n : Nat) : List (Nat × Nat) :=
  (List.range (n / 256 + 2)).filterMap fun i =>
    let lo := if i = 0 then 0 else 256 * i - pa % 256
    let hi := min n (256 * (i + 1) - pa % 256)
    if lo < hi then some (lo, hi - lo) else none

/-- An agent number of an engine (R176). -/
def isEngine (agent : Nat) : Bool := decide (25088 ≤ agent) && decide (agent < 25488)

/-- The die of an engine: of a cluster's, of a Glaze node, of a storage client (R177). -/
def engineDie (agent : Nat) : Nat :=
  if agent < 25280 then dieOfCluster (agent - 25088)
  else if agent < 25472 then dieOfCluster (agent - 25280)
  else (agent - 25472) % 8

/-- Bytes of a module as a reader under a key gets them, line by line, as they stand before waiting partials are combined. -/
def readBytes (pa n key : Nat) : M s0 (List Byte) := do
  let mut out : List Byte := []
  for (l, k) in lineParts pa n do
    let bs ← readLine (pa + l) k key
    out := out ++ bs
  return out

/-- The same with every partial combined (R171). -/
def readKeyed (pa n key : Nat) : M s0 (List Byte) := do
  let s ← st
  if !s.linkUp pa then noteDown pa
  if !s.fadds.isEmpty then settleFadds pa n
  readBytes pa n key

/-- Some engine operation whose issuer satisfies `f` has not delivered its signal; a suspended transfer counts when
`suspended` does (R184). -/
def State.engineBusy (s : State) (suspended : Bool) (f : Issuer → Bool) : Bool :=
  (s.frescos.any fun p => p.2.cmds.any fun c => f c.by_) ||
  (s.stencils.any fun p => p.2.entries.any fun e =>
    (e.2.st == .running || (suspended && e.2.st == .suspended)) && f e.2.by_) ||
  (s.glaze.nreds.any fun p => f p.2.by_) || (s.glaze.nsends.any fun p => f p.2.by_) ||
  (s.glaze.msgs.any fun p => f p.2.by_) || (s.glaze.ncorrs.any fun p => f p.2.by_) || s.owed.any fun o => o.own && f o.by_

/-! ### What parties know of engine operations (R177, R178, R185 to R188) -/

/-- An engine operation as a party, beside the agent numbers of R176. -/
def opKey (op : Nat) : Nat := 2 ^ 40 + op

/-- The operation whose event executes. -/
def State.opParty (s : State) : Nat := opKey s.eop.2

/-- The event is one of an operation. -/
def actFor (b : Issuer) : M s0 Unit := upd (.eop b.agent b.seq)

/-- Writes of the operation are still to become visible somewhere. -/
def State.liveOp (s : State) (op : Nat) : Bool :=
  s.engOld.any (fun p => p.2.any fun e => e.op == op) || s.farPend.any fun p => p.op == op

def mergeJoins (a b : List Join) : List Join :=
  (a.filter fun j => !b.any fun k => k.op == j.op && decide (j.upTo ≤ k.upTo)) ++
    b.filter fun k => !a.any fun j => j.op == k.op && decide (k.upTo < j.upTo)

def State.joinsOf (s : State) (key : Nat) : List Join := (TMap.find s.joins key).getD []

def addJoins (key : Nat) (js : List Join) : M s0 Unit := do
  let s ← st
  let live (j : Join) : Bool := s.liveOp j.op
  if js.any live then upd (.joins (TMap.put s.joins key (mergeJoins ((s.joinsOf key).filter live) (js.filter live))))

/-- A party has joined a write of an operation. -/
def State.joined (s : State) (party op num : Nat) : Bool :=
  (s.joinsOf (2 * party)).any fun j => j.op == op && decide (num < j.upTo)

/-- The operations with writes that are still to become visible, with all their writes so far. -/
def State.opsLive (s : State) : List Join :=
  ((s.engOld.flatMap fun p => p.2.map (·.op)) ++ s.farPend.map (·.op)).dedup.map fun op => { op := op, upTo := s.seq }

/-- A party that comes after everything that has been has joined every operation's writes so far (log 20). -/
def learnAll (party : Nat) : M s0 Unit := do
  let s ← st
  addJoins (2 * party) s.opsLive

/-- What a later operation of an issuer knows at its fork (R185). -/
def forkJoins (party op : Nat) : M s0 Unit := do
  let s ← st
  addJoins (2 * opKey op) (s.joinsOf (2 * party))

/-- A store of a strand with engine operations of its own under way, which those operations may see or not (R185). -/
def noteUnseen (agent : Nat) (near : Bool) (addr : Nat) (old : List Byte) : M s0 Unit := do
  let s ← st
  if s.engineBusy true fun b => b.agent == agent then
    let q ← freshSeq
    upd (.unseen ({ agent := agent, seq := q, near := near, addr := addr, old := old } :: s.unseen))
  else if s.unseen.any fun e => e.agent == agent then
    upd (.unseen (s.unseen.filter fun e => e.agent != agent))

/-- Bytes as an engine operation reads them: its issuer's later stores are seen or not, each for itself (R185). What no strand of this
device has issued has no such stores. -/
def hideLater (near : Bool) (addr : Nat) (bs : List Byte) : M s0 (List Byte) := do
  let s ← st
  let es := s.unseen.filter fun e =>
    e.near == near && e.agent == s.eop.1 && decide (s.eop.1 < 25088) && decide (s.eop.2 < e.seq) &&
      decide (e.addr < addr + bs.length) && decide (addr < e.addr + e.old.length)
  if es.isEmpty then return bs
  let mut out := bs.map fun b => (b, false)
  for e in es do
    let i ← choose 2
    out := out.zipIdx.map fun p =>
      let k := addr + p.2
      if p.1.2 || decide (k < e.addr) || decide (e.addr + e.old.length ≤ k) then p.1
      else if i = 0 then (p.1.1, true) else (e.old.getD (k - e.addr) 0, false)
  return out.map (·.1)

/-! ### Logical time (R159, R160, R175) -/

/-- A number for every counter. -/
def Ctr.num : Ctr → Nat
  | .home pa => 4 * pa
  | .cell core c => 4 * (256 * core + c) + 1
  | .far key => 4 * key + 2

/-- pts of the strand of a context. -/
def State.pts (s : State) (a : Nat) : Nat := TMap.get 0 s.times.pts a

/-- wts and rts of the line of a physical address. -/
def State.lineTime (s : State) (pa : Nat) : Nat × Nat := TMap.get (0, 0) s.times.line (pa / 256)

/-- The time of a write to what has been written and read until (wts, rts): beyond the agent's own and every lease. A party that
is no strand writes after all that has been (log 20). -/
def Times.write (t : Times) (who : Option Nat) (w : Nat × Nat) : Nat :=
  match who with
  | some a => max (TMap.get 0 t.pts a) w.2 + 1
  | none => t.top + 1

/-- The agent's time is n. -/
def Times.reach (t : Times) (who : Option Nat) (n : Nat) : Times :=
  { t with pts := (match who with | some a => TMap.put t.pts a n | none => t.pts), top := max t.top n }

/-- Lines have been written. -/
def stampLines (who : Option Nat) (pa n : Nat) : M s0 Unit := do
  for i in List.range ((pa % 256 + n + 255) / 256) do
    let s ← st
    let k := pa / 256 + i
    let w := s.times.write who (TMap.get (0, 0) s.times.line k)
    upd (.times { s.times.reach who w with line := TMap.put s.times.line k (w, w) })

/-- A counter has been written. -/
def stampCtr (who : Option Nat) (c : Ctr) : M s0 Unit := do
  let s ← st
  let w := s.times.write who (TMap.get (0, 0) s.times.ctr c.num)
  upd (.times { s.times.reach who w with ctr := TMap.put s.times.ctr c.num (w, w) })

/-- The home renews a strand's lease of a line, and gives the present version; the length is the device's choice. -/
def renewLine (a pa : Nat) : M s0 Unit := do
  let l ← openNat
  let s ← st
  let (w, r) := s.lineTime pa
  let t := s.times.reach (some a) (max (s.pts a) w)
  let e := max r (max (s.pts a) w + l + 1)
  upd (.times { t with line := TMap.put t.line (pa / 256) (w, e), top := max t.top e })

/-- A strand reads a counter at its home: a plain load, CREAD, a satisfied wait (R175). The home renews the strand's lease, whose
length is the device's choice (R159). -/
def readCtr (a : Nat) (c : Ctr) : M s0 Unit := do
  let s ← st
  let (w, r) := TMap.get (0, 0) s.times.ctr c.num
  let l ← openNat
  let n := max (s.pts a) w
  let e := max r (n + l + 1)
  let t := s.times.reach (some a) n
  upd (.times { t with ctr := TMap.put t.ctr c.num (w, e), top := max t.top e })

/-- A strand that begins, or that learns of other parties' work by other ways than near memory and counters, goes on after all
that has been (log 20). -/
def startTime (a : Nat) : M s0 Unit := do
  let s ← st
  upd (.times (s.times.reach (some a) s.times.top))
  learnAll a

/-- A satisfied wait or another acquire of a counter learns what the counter's releases carry (R178). -/
def observe (party : Nat) (c : Ctr) : M s0 Unit := do
  let s ← st
  addJoins (2 * party) (s.joinsOf (2 * c.num + 1))

/-- A release by a party at a counter carries what the party knows (R178). -/
def carry (party : Nat) (c : Ctr) : M s0 Unit := do
  let s ← st
  addJoins (2 * c.num + 1) (s.joinsOf (2 * party))

/-- A party that is no strand reads lines, at the latest time of all. -/
def readLines (pa n : Nat) : M s0 Unit := do
  for i in List.range ((pa % 256 + n + 255) / 256) do
    let s ← st
    let k := pa / 256 + i
    let (w, r) := TMap.get (0, 0) s.times.line k
    if r < s.times.top then upd (.times { s.times with line := TMap.put s.times.line k (w, s.times.top) })

/-- A party on a die sees a write of an engine, and nothing older: it has joined the operation, and the engine's writes are visible
on its die (R177, R188); an operation sees its own. -/
def State.seesWrite (s : State) (party die : Nat) (e : EngW) : Bool :=
  party == opKey e.op || (s.joined party e.op e.num && engineDie e.agent == die)

/-- What a party may still read in place of engines' writes of aligned 8 bytes (R186). -/
def State.olderThan (s : State) (party die : Nat) (l : List EngW) : List Word :=
  ((l.reverse.takeWhile fun e => !s.seesWrite party die e).map (·.old))

/-- A read of a party on a die: aligned 8 bytes that an engine has written, and whose write nothing has carried to it yet, are either
those or ones before (R177, R186, R188). -/
def readNear (party die pa n key : Nat) : M s0 (List Byte) := do
  let s ← st
  let bs ← readKeyed pa n key
  let mut out := bs
  for (c, l) in s.engOld do
    if decide (8 * c < pa + n) && decide (pa < 8 * c + 8) then
      let vs := s.olderThan party die l
      if !vs.isEmpty then
        let i ← choose (vs.length + 1)
        match vs[i]? with
        | some w =>
          out := out.zipIdx.map fun b =>
            if 8 * c ≤ pa + b.2 && pa + b.2 < 8 * c + 8 then BitVec.ofNat 8 (w.toNat / 2 ^ (8 * (pa + b.2 - 8 * c))) else b.1
        | none => pure ()
  if party == s.opParty then hideLater true pa out else return out

/-- The line was last written under another key. -/
def State.otherKey (s : State) (pa key : Nat) : Bool :=
  (TMap.find s.lineKey (pa / 256)).any fun w => w != s.keyTag key

/-- A line that was last written under another key, or before its key was renewed, comes in as the writer's key reads it, and is the
writer's from now on; what it held is kept for readers under its former key (R156, R377). -/
def takeLine (pa key : Nat) : M s0 Unit := do
  let s ← st
  let base := pa / 256 * 256
  settleFadds base 256
  match TMap.find s.lineKey (pa / 256) with
  | some w =>
    let bs ← readLine base 256 key
    upd (.keyPlain (pa / 256 * 2 ^ 40 + w) (s.physBytes base 256))
    for (b, i) in bs.zipIdx do
      if !s.poisoned (base + i) then upd (.byte (base + i) b)
  | none => pure ()

/-- A plain write of bytes of one line under a key; partials that wait on its words are combined first (R171). -/
def writeKeyed (pa : Nat) (bs : List Byte) (key : Nat) : M s0 Unit := do
  let s ← st
  if !s.fadds.isEmpty then settleFadds pa bs.length
  if s.linkUp pa && s.otherKey pa key then takeLine pa key
  writePhys pa bs
  if s.linkUp pa && TMap.find s.lineKey (pa / 256) != some (s.keyTag key) then
    upd (.lineKey (pa / 256) (s.keyTag key))

/-- A plain write at a physical address, of a structure that the spec names by it. -/
def writeMem (pa : Nat) (bs : List Byte) : M s0 Unit := do
  let s ← st
  if !s.fadds.isEmpty then settleFadds pa bs.length
  writePhys pa bs

/-- The leaf of a die's translation by which an address went to a physical address. -/
def State.leafOf (s : State) (die : Nat) (asid : BitVec 16) (va : Word) (pa : Nat) : Option TlbEntry :=
  (s.cached die asid va).find? fun e => !leafFar e.leaf && leafPa e va == pa

/-- KEY of the page of an address that went to a physical address; 0 when the die holds no translation by which it did. -/
def State.keyOf (s : State) (die : Nat) (asid : BitVec 16) (va : Word) (pa : Nat) : Nat :=
  match s.leafOf die asid va pa with
  | some e => leafKey e.leaf
  | none => 0

/-! ### Leases (R172, R173) -/

/-- The context has a place in the queue of a physical line: of its waiting instruction, or of a line of stores. -/
def Ctx.placeIn (c : Ctx) (line : Nat) : List Nat :=
  (match c.prog.lease with
    | some q => if q.at_.any fun e => e.2 / 256 == line then [q.seq] else []
    | none => []) ++
  c.lines.filterMap fun l => match l.queued with | some (seq, k) => if k = line then some seq else none | none => none

/-- The context holds a lease on a physical line. -/
def Ctx.holds (c : Ctx) (line : Nat) : Bool := c.leases.any fun l => l.live && l.line == line

/-- Another agent holds a lease on the line of an address, or has waited for the line longer. Its holder never waits (R435). -/
def State.leasedByOther (s : State) (a pa : Nat) : Bool :=
  let me_ := (s.ctxs.find? fun p => p.1 == a).map (·.2)
  let mine := (me_.map fun c => c.placeIn (pa / 256)).getD []
  !(me_.any fun c => c.holds (pa / 256)) && s.ctxs.any fun p =>
    p.1 != a &&
    (p.2.holds (pa / 256) ||
      (!(p.2.preempt.any (·.halted)) && (p.2.placeIn (pa / 256)).any fun q => mine.all fun m => decide (q < m)))

/-! ### Far memory -/

/-- A far byte as its home device holds it. -/
def State.farByte (s : State) (key : Nat) : Byte := Memory.read s.far key

/-- Aligned 8 bytes of far memory as their home device holds them. -/
def State.farChunk (s : State) (c : Nat) : Word := bytesWord ((List.range 8).map fun i => s.farByte (8 * c + i))

/-- The versions of aligned 8 bytes that an agent may read, with their numbers: the home's, and older ones that neither the
agent's last system-scope acquire nor a read or write of its own has left behind (R177, R179, R180). -/
def State.farVersions (s : State) (agent c : Nat) : List (Nat × Word) :=
  let old := (TMap.find s.farOld c).getD []
  let acq := TMap.get 0 s.farAcq agent
  let floor := TMap.get 0 s.farFloor (c * 2 ^ 40 + agent)
  ((old.zipIdx.filter fun p => decide (acq < p.1.2) && decide (floor ≤ p.2)).map fun p => (p.2, p.1.1)) ++
  [(old.length, s.farChunk c)]

/-- The aligned 8 bytes that n bytes lie in. -/
def chunksOf (key n : Nat) : List Nat := (List.range ((key % 8 + n + 7) / 8)).map (key / 8 + ·)

/-- A write is performed at the home device; the agents read nothing older any more (R179). -/
def writeFarRaw (agents : List Nat) (key : Nat) (bs : List Byte) : M s0 Unit := do
  let s ← st
  let cs := chunksOf key bs.length
  upd (.farOld (cs.foldl (fun m c => TMap.put m c ((TMap.find m c).getD [] ++ [(s.farChunk c, s.farSeq + 1)])) s.farOld))
  for (b, i) in bs.zipIdx do
    upd (.farByte (key + i) b)
  let s ← st
  upd (.farFloor (agents.foldl (fun m a => cs.foldl
    (fun m c => TMap.put m (c * 2 ^ 40 + a) ((TMap.find s.farOld c).getD []).length) m) s.farFloor))

/-- REDs with fadd that wait at words of another device are combined there, in any tree (R132, R171, R183). -/
def settleFar (key n : Nat) : M s0 Unit := do
  let s ← st
  for (w, l) in s.farFadds do
    if key < 4 * w + 4 && 4 * w < key + n then
      let t ← st
      upd (.farFadds (TMap.del t.farFadds w))
      let v := BitVec.ofNat 32 (bytesNat ((List.range 4).map fun i => t.farByte (4 * w + i)))
      let sum ← faddTree l.length ((none, v) :: l.map fun o => (some o, o.value))
      writeFarRaw (l.map (·.agent)) (4 * w) (natBytes 4 sum.toNat)

/-- An agent reads far bytes, each aligned 8 of them from one version (R179, R180). -/
def readFar (agent key n : Nat) : M s0 (List Byte) := do
  settleFar key n
  let mut out : List Byte := []
  for c in chunksOf key n do
    let s ← st
    let vs := s.farVersions agent c
    let i ← if vs.length ≤ 1 then pure 0 else choose vs.length
    let v := vs.getD i (0, 0)
    if 1 < vs.length then upd (.farFloor (TMap.put s.farFloor (c * 2 ^ 40 + agent) v.1))
    out := out ++ natBytes 8 v.2.toNat
  return (List.drop (key % 8) out).take n

/-- A write of an agent is performed at the home device; the agent reads nothing older any more (R179). -/
def writeFarHome (agent key : Nat) (bs : List Byte) : M s0 Unit := do
  settleFar key bs.length
  writeFarRaw [agent] key bs

/-- A system-scope acquire of an agent: what is older than the home's present value no longer serves it (R177, R180). -/
def acquireFar (agent : Nat) : M s0 Unit := do
  let s ← st
  upd (.farAcq (TMap.put s.farAcq agent s.farSeq))

/-- Bytes in parts that lie in one aligned 8 bytes each. -/
def farParts (key : Nat) (bs : List Byte) : List FarW :=
  (chunksOf key bs.length).map fun c =>
    let lo := max key (8 * c)
    let hi := min (key + bs.length) (8 * c + 8)
    { key := lo, size := hi - lo, data := bytesWord ((List.drop (lo - key) bs).take (hi - lo)) }

/-- Those far writes of engine operations that `f` holds of, and that are not performed yet, are performed (R188). -/
def drainEngineFar (f : EngFar → Bool) : M s0 Unit := do
  let s ← st
  if s.farPend.any f then
    upd (.farPend (s.farPend.filter fun p => !f p))
    for p in s.farPend.filter f do
      writeFarHome (2 ^ 39) p.w.key (natBytes p.w.size p.w.data.toNat)

/-- An engine's far write: performed now, or at a later point (R188). -/
def engineFar (agent key : Nat) (bs : List Byte) : M s0 Unit := do
  let i ← choose 2
  if i = 0 then writeFarHome agent key bs
  else
    let s ← st
    let n ← freshSeq
    upd (.farPend (s.farPend ++
      (farParts key bs).map fun w => { op := s.eop.2, owner := s.eop.1, num := n, w := w }))

/-- Writes of engines to near memory that `f` holds of are visible everywhere (R188). -/
def showEngines (f : EngW → Bool) : M s0 Unit := do
  let s ← st
  if s.engOld.any fun p => p.2.any f then
    upd (.engOld ((s.engOld.map fun p => (p.1, p.2.filter fun e => !f e)).filter fun p => !p.2.isEmpty))

/-- An engine's near write of bytes of one line: agents that have not joined its operation, and agents on other dies, may go on
reading what was there (R186, R188). -/
def engineNear (agent pa : Nat) (bs : List Byte) (key : Nat) : M s0 Unit := do
  let n ← freshSeq
  let s ← st
  let cs := (List.range ((pa % 8 + bs.length + 7) / 8)).map (pa / 8 + ·)
  writeKeyed pa bs key
  upd (.engOld (cs.foldl
    (fun m c =>
      let l := (TMap.find m c).getD []
      if l.getLast?.any fun e => e.op == s.eop.2 then m
      else TMap.put m c (l ++ [{ agent := agent, op := s.eop.2, owner := s.eop.1, num := n, old := s.physWord (8 * c) }]))
    s.engOld))

/-! ### Accesses of engines, sequencers, homes and remote agents -/

/-- The parts of a range that lie in one 64 KiB page each; at most `fuel` parts. -/
def rangeParts : Nat → Word → Nat → List (Word × Nat)
  | 0, _, _ => []
  | fuel + 1, va, n =>
    if n = 0 then []
    else
      let k := min n (65536 - va.toNat % 65536)
      (va, k) :: rangeParts fuel (va + wordOf k) (n - k)

def parts (va : Word) (n : Nat) : List (Word × Nat) := rangeParts (n / 65536 + 2) va n

/-- What a read of a range meets. -/
structure Got where
  bytes : List Byte
  /-- the lowest poisoned address -/
  poison : Option Word
  deriving DecidableEq, Repr

/-- A fault of an engine's access: the cause and the address. -/
abbrev Faulted := Cause × Word

/-- The configuration frames admit only the 8-byte accesses of cores (R370). -/
def isConfig (pa : Nat) : Bool := decide (6 ≤ paPort pa)

/-- A read of a range by a party that is no strand. Agents other than `agent` that lease a line hold the access back. -/
def readRange (q : Req) (agent : Nat) (va : Word) (n : Nat) : M s0 (Except Faulted Got) := do
  let mut bytes : List Byte := []
  let mut poison : Option Word := none
  for (a, k) in parts va n do
    match ← xlate q .load a with
    | .error c => return .error (c, a)
    | .ok (.far key) =>
      let bs ← readFar agent key k
      -- poisoned there, or behind a link of that device that is down: what it answers is open (R355, R383)
      let lost ← choose 2
      bytes := bytes ++ (if lost = 1 then List.replicate k 0 else bs)
      if lost = 1 && poison.isNone then poison := some a
    | .ok (.phys pa) =>
      if isConfig pa then return .error (.xlate, a)
      let s ← st
      let party := if isEngine agent then s.opParty else agent
      if (List.range (k / 256 + 2)).any fun i => s.leasedByOther agent (min (pa + 256 * i) (pa + k - 1)) then
        notEnabled "LEASE"
      readLines pa k
      let bs ← readNear party q.die pa k (s.keyOf q.die q.asid a pa)
      bytes := bytes ++ bs
      if poison.isNone then
        match (List.range k).find? fun i => s.poisoned (pa + i) with
        | some i => poison := some (a + wordOf i)
        | none => pure ()
  return .ok { bytes := bytes, poison := poison }

/-- A write of a range by a party that is no strand: the bytes before a fault are written, or nothing is (`whole`). -/
def writeRange (q : Req) (agent : Nat) (va : Word) (bs : List Byte) : M s0 (Except Faulted Unit) := do
  let mut rest := bs
  for (a, k) in parts va bs.length do
    match ← xlate q .store a with
    | .error c => return .error (c, a)
    | .ok (.far key) =>
      if isEngine agent then engineFar agent key (rest.take k) else writeFarHome agent key (rest.take k)
      rest := rest.drop k
    | .ok (.phys pa) =>
      if isConfig pa then return .error (.xlate, a)
      let s ← st
      if (List.range (k / 256 + 2)).any fun i => s.leasedByOther agent (min (pa + 256 * i) (pa + k - 1)) then
        notEnabled "LEASE"
      -- line by line: the key of each line is kept
      for (l, n) in lineParts pa k do
        let bs := (List.drop l rest).take n
        let key := s.keyOf q.die q.asid a pa
        stampLines none (pa + l) n
        if isEngine agent then engineNear agent (pa + l) bs key else writeKeyed (pa + l) bs key
      rest := rest.drop k
  return .ok ()

/-- The faults that a write of a range would meet, by page. -/
def faultyParts (q : Req) (va : Word) (n : Nat) : M s0 (List Faulted) := do
  let mut bad : List Faulted := []
  for (a, _) in parts va n do
    match ← xlate q .store a with
    | .error c => bad := bad ++ [(c, a)]
    | .ok (.phys pa) => if isConfig pa then bad := bad ++ [(.xlate, a)]
    | .ok (.far _) => pure ()
  return bad

/-- Any of the elements of an engine's write that meet no fault among `bad`, before the operation is complete or at its fault:
each is written or not (R186). -/
def writeEarly (q : Req) (agent : Nat) (va : Word) (n : Nat) (bs : List Byte) (bad : List Faulted) : M s0 Unit := do
  let mask ← openNat
  for j in List.range (bs.length / n) do
    let a := va + wordOf (n * j)
    if mask.testBit j && !bad.any fun p => p.2.toNat / 65536 == a.toNat / 65536 then
      let _ ← writeRange q agent a ((bs.drop (n * j)).take n)
      pure ()

/-- A write of elements of `n` bytes by an engine. At a fault, each element of a page that admits the write may have been
written or not (R186). Answers the faults. -/
def writeElems (q : Req) (agent : Nat) (va : Word) (n : Nat) (bs : List Byte) : M s0 (List Faulted) := do
  let bad ← faultyParts q va bs.length
  if bad.isEmpty then
    match ← writeRange q agent va bs with
    | .ok _ => return []
    | .error f => return [f]
  else
    writeEarly q agent va n bs bad
    return bad

/-- Two writes of one operation, as `writeElems`: a fault of either leaves the elements of both open (R285, R286). -/
def writeBoth (q : Req) (agent : Nat) (va1 : Word) (n1 : Nat) (bs1 : List Byte) (va2 : Word) (n2 : Nat) (bs2 : List Byte) :
    M s0 (List Faulted) := do
  let bad1 ← faultyParts q va1 bs1.length
  let bad2 ← faultyParts q va2 bs2.length
  if bad1.isEmpty && bad2.isEmpty then
    let f1 ← writeElems q agent va1 n1 bs1
    let f2 ← writeElems q agent va2 n2 bs2
    return f1 ++ f2
  else
    writeEarly q agent va1 n1 bs1 bad1
    writeEarly q agent va2 n2 bs2 bad2
    return bad1 ++ bad2

/-- A read of a range page by page: the pieces that can be read, with their offsets, and the faults. -/
def readPieces (q : Req) (agent : Nat) (va : Word) (n : Nat) : M s0 (List (Nat × List Byte) × List Faulted) := do
  let mut out : List (Nat × List Byte) := []
  let mut bad : List Faulted := []
  for (a, k) in parts va n do
    match ← readRange q agent a k with
    | .error f => bad := bad ++ [f]
    | .ok g =>
      out := out ++ [((a - va).toNat, g.bytes)]
      match g.poison with
      | some b => bad := bad ++ [(.poison, b)]
      | none => pure ()
  return (out, bad)

/-- One of several faults: which one a unit met first is open (R186). -/
def pickFault (fs : List Faulted) : M s0 (Option Faulted) := do
  let i ← if fs.length ≤ 1 then pure 0 else choose fs.length
  return fs[i]?

/-- One aligned 8-byte word of a party that is no strand: value, or the cause; a poisoned word is POISON. -/
def readWord (q : Req) (agent : Nat) (va : Word) : M s0 (Except Faulted Word) := do
  match ← readRange q agent va 8 with
  | .error f => return .error f
  | .ok g => match g.poison with
    | some a => return .error (.poison, a)
    | none => return .ok (bytesWord g.bytes)

/-- Words at ascending 8-byte addresses; the first fault or poisoned word ends it. -/
def readWords (q : Req) (agent : Nat) (va : Word) (n : Nat) : M s0 (Except Faulted (List Word)) := do
  match ← readRange q agent va (8 * n) with
  | .error f => return .error f
  | .ok g => match g.poison with
    | some a => return .error (.poison, a)
    | none => return .ok ((List.range n).map fun i => bytesWord ((g.bytes.drop (8 * i)).take 8))

def writeWord (q : Req) (agent : Nat) (va v : Word) : M s0 (Except Faulted Unit) :=
  writeRange q agent va (natBytes 8 v.toNat)

/-- A 64-byte or longer record at a physical address, for the structures that the spec names by physical address. -/
def State.physWords (s : State) (pa n : Nat) : List Word := (List.range n).map fun i => s.physWord (pa + 8 * i)

/-! ### Local store and plane store (R133, R236, R355) -/

def lsKey (core addr : Nat) : Nat := core * 2 ^ 20 + addr

/-- Local-store bytes (R47). -/
def lsSize (core : Nat) : Nat := if isEasel core then 0x40000 else 0x80000

def State.lsRaw (s : State) (core addr : Nat) : Byte := Memory.read s.ls (lsKey core addr)

def State.lsPoisoned (s : State) (core addr : Nat) : Bool := NatSet.has s.lsBad (lsKey core addr)

def State.lsByte (s : State) (core addr : Nat) : Byte := if s.lsPoisoned core addr then 0 else s.lsRaw core addr

def State.lsBytes (s : State) (core addr n : Nat) : List Byte := (List.range n).map fun i => s.lsByte core (addr + i)

def writeLs (core addr : Nat) (bs : List Byte) : M s0 Unit := do
  for (b, i) in bs.zipIdx do
    upd (.lsByte (lsKey core (addr + i)) b)

def planeKey (cluster off : Nat) : Nat := cluster * 2 ^ 22 + off

def planeSize : Nat := 0x400000

def State.planePoisoned (s : State) (cluster off : Nat) : Bool := NatSet.has s.planeBad (planeKey cluster off)

def State.planeByte (s : State) (cluster off : Nat) : Byte :=
  if s.planePoisoned cluster off then 0 else Memory.read s.plane (planeKey cluster off)

def State.planeBytes (s : State) (cluster off n : Nat) : List Byte :=
  (List.range n).map fun i => s.planeByte cluster (off + i)

def writePlane (cluster off : Nat) (bs : List Byte) : M s0 Unit := do
  for (b, i) in bs.zipIdx do
    upd (.planeByte (planeKey cluster (off + i)) b)

end Sys2Proof.Machine
end

