-- ==== Sys2Proof/Machine/Counters.lean ====
section
/-! DEFINITION. Counters: references, values, adds, waiters, resets, and the records of errors (R192 to R211, R355 to R359,
R497). -/

namespace Sys2Proof.Machine

open Sys2Proof

variable {s0 : State}

/-! ### References (R193) -/

/-- LTAG of a local reference. -/
def isLocalRef (r : Word) : Bool := field r 48 8 == 0xC1

/-- The core and cell of a local reference on its device, when it names a counter (R193). -/
def refCell (r : Word) : Option (Nat × Nat) :=
  let pos := field r 16 8
  let die := field r 24 3
  if field r 27 21 == 0 && field r 8 8 == 0 && decide (pos ≤ 195) then
    some (if pos < 192 then 192 * die + pos else 1536 + 4 * die + (pos - 192), field r 0 8)
  else none

/-- The same of a reference of this device. -/
def State.localRef (s : State) (r : Word) : Option (Nat × Nat) := if vaNode r = s.nodeId then refCell r else none

/-- The local reference of a core's cell (R193). -/
def State.cellRef (s : State) (core cell : Nat) : Word :=
  let die := dieOfCore core
  let pos := if isEasel core then 192 + (core - 1536) % 4 else core % 192
  wordOf (s.nodeId.toNat * 2 ^ 56 + 0xC1 * 2 ^ 48 + die * 2 ^ 24 + pos * 2 ^ 16 + cell % 256)

/-- What a party may do at a counter home: kind bits of R371. -/
structure CtrUse where
  rd : Bool
  wr : Bool
  deriving DecidableEq, Repr

/-- The counter that a reference names, for a party: XLATE for a non-canonical address, a walk fault, a refusal of the
counter home's access table or a local reference that names no counter; CTRPAGE for a leaf with K = 0 (R198, R497). A
misaligned address names no counter either. -/
def resolveRef (q : Req) (u : CtrUse) (r : Word) : M s0 (Except Cause Ctr) := do
  let s ← st
  if isLocalRef r then
    match refCell r with
    | none => return .error .xlate
    | some (core, cell) =>
      if vaNode r = s.nodeId then return .ok (.cell core cell)
      else if !s.netAdmits q (.counter u.rd u.wr) then return .error .xlate
      else
        -- a cell of another device, which answers or refuses
        match ← farAnswer .load (2 ^ 80 + r.toNat) with
        | .error c => return .error c
        | .ok _ => return .ok (.far (2 ^ 80 + r.toNat))
  else if r.toNat % 8 != 0 then return .error .xlate
  else
    match ← xlate q (.counter u.rd u.wr) r with
    | .error c => return .error c
    | .ok (.far key) => return .ok (.far key)
    | .ok (.phys pa) =>
      let s ← st
      if admits (s.access (paDie pa) 1 q.master) u.rd u.wr q.byUser q.asid then
        if !s.linkUp pa then noteDown pa
        -- a line that nothing has written under a key yet is the page's from its first counter write on
        if u.wr && (TMap.find s.lineKey (pa / 256)).isNone then
          upd (.lineKey (pa / 256) (s.keyTag (s.keyOf q.die q.asid r pa)))
        return .ok (.home pa)
      else return .error .xlate

/-- Palette homes and Primer have no entry of their own in the tables: their references are translated, not refused. -/
def homeReq (die : Nat) (asid : BitVec 16) : Req := { die := die, asid := asid, user := false, master := masterPrimer }

/-! ### Values (R195) -/

/-- V of a counter word: behind a link that is down, 0 (R383); of a word with lost bytes, all ones, so that V never falls without
a CRESET (R195, R361); of a line whose key has been renewed since it was written, what its bytes decrypt to (R377). -/
def State.homeV (s : State) (pa : Nat) : Word :=
  if !s.linkUp pa then 0
  else if (List.range 8).any fun i => s.poisoned (pa + i) then BitVec.allOnes 64
  else
    match TMap.find s.lineKey (pa / 256) with
    | none => s.physWord pa
    | some w =>
      if w = s.keyTag (w % 128) then s.physWord pa
      else bytesWord ((List.range 8).map fun i => Config.garbled (s.keyTag (w % 128)) (pa + i))

def State.ctrV (s : State) (c : Ctr) : Word :=
  match c with
  | .home pa => s.homeV pa
  | .cell core i => (s.cell core i).v
  | .far key => bytesWord ((List.range 8).map fun i => s.farByte (key + i))

def State.ctrG (s : State) (c : Ctr) : BitVec 16 :=
  match c with
  | .home pa => s.homeGen pa
  | .cell core i => (s.cell core i).g
  | .far key => TMap.get (Config.farGen key) s.farGen key

def setCtrV (c : Ctr) (v : Word) : M s0 Unit := do
  match c with
  | .home pa =>
    let s ← st
    match TMap.find s.lineKey (pa / 256) with
    | some w => writeKeyed pa (natBytes 8 v.toNat) (w % 128)
    | none => writeMem pa (natBytes 8 v.toNat)
  | .cell core i =>
    let s ← st
    upd (.cell (256 * core + i) { s.cell core i with v := v })
  | .far key =>
    for (b, i) in (natBytes 8 v.toNat).zipIdx do
      upd (.farByte (key + i) b)

def setCtrG (c : Ctr) (g : BitVec 16) : M s0 Unit := do
  match c with
  | .home pa => upd (.homeGen pa g)
  | .cell core i =>
    let s ← st
    upd (.cell (256 * core + i) { s.cell core i with g := g })
  | .far key => upd (.farGen key g)

/-- The sum of an add and whether it saturated (R195). -/
def satAdd (v : Word) (a : Nat) : Word × Bool :=
  if v.toNat + a > 2 ^ 64 - 1 then (BitVec.allOnes 64, true) else (v + wordOf a, false)

/-! ### Contexts that become READY (R50, R56) -/

/-- A pre-emption request has stopped the context (R363). -/
def Ctx.halted (c : Ctx) : Bool := c.preempt.any (·.halted)

/-- The context that issues. A halted context keeps its state and does not count (R50). -/
def State.runningCtx (s : State) (core : Nat) : Option Nat :=
  (List.range (numCtx core)).find? fun i =>
    (s.ctx (16 * core + i)).phase == .running && !(s.ctx (16 * core + i)).halted

/-- The scan of R56 from context i: (i+1), (i+2), …, i. -/
def State.nextReady (s : State) (core i : Nat) : Option Nat :=
  let n := numCtx core
  ((List.range n).map fun k => (i + 1 + k) % n).find? fun j =>
    (s.ctx (16 * core + j)).phase == .ready && !(s.ctx (16 * core + j)).halted

/-- Contexts of a joined follower switch where the leader's stream says (R63). -/
def Core.follows (c : Core) : Bool :=
  match c.trace with
  | .follower _ j _ => j
  | .none => false

/-- A core without a RUNNING context takes the first READY one; without one it clock-gates (R56). The bound of the run is
QUANTUM as it stands at this switch (R58). DESIGN CHOICE (log 58): the spec does not say whether the selection that ends
clock-gating is a context switch at which followers accepted meanwhile join (R61); here only a switch-out is. -/
def startScan (core : Nat) : M s0 Unit := do
  let s ← st
  let c := s.core core
  if (s.runningCtx core).isNone && !c.failed && c.trace == .none then
    match s.nextReady core c.last with
    | some j =>
      modCtx (16 * core + j) fun x => { x with phase := .running }
      modCore core fun k => { k with bound := k.quantum }
    | none => pure ()

/-- The cores that follow a core (R60). -/
def State.followers (s : State) (core : Nat) : List Nat :=
  (s.cores.filter fun p => match p.2.trace with | .follower l _ _ => l == core | .none => false).map (·.1)

/-- Followers that wait to join do so at their leader's next switch (R61). -/
def joinFollowers (core : Nat) : M s0 Unit := do
  let s ← st
  for n in s.followers core do
    modCore n fun c =>
      match c.trace with
      | .follower l _ q => { c with trace := .follower l true q }
      | .none => c

/-- The switch out of a context into phase `p` (R54, R56). -/
def switchOut (a : Nat) (p : Phase) : M s0 Unit := do
  modCtx a fun x => { x with phase := p }
  modCore (coreOf a) fun c => { c with last := a % 16 }
  joinFollowers (coreOf a)
  startScan (coreOf a)

/-- The outstanding reference of a context completes: WAITING to READY (R50). -/
def wakeCtx (a : Nat) (ans : Option Ans) : M s0 Unit := do
  modCtx a fun x =>
    { x with
      phase := if x.phase = .waiting then .ready else x.phase
      wait := none
      prog := { x.prog with ans := ans.orElse fun _ => x.prog.ans } }
  startScan (coreOf a)

/-! ### Waits (R200 to R205) -/

def State.satWatch (s : State) (w : Watch) : Bool := decide (w.mark.toNat ≤ (s.ctrV w.ctr).toNat)

def State.satWait (s : State) (w : Wait) : Bool :=
  if w.all then w.watches.all s.satWatch else w.watches.any s.satWatch

/-- The lowest slot whose watch is satisfied. -/
def State.firstSat (s : State) (w : Wait) : Nat :=
  ((w.watches.filter s.satWatch).map (·.slot)).foldl min 255

/-- Every answer of a home refreshes GEN of the slot it went through (R199): of a satisfied wait the slots whose condition is met,
of a wake-up with status 1 those of the counter that was reset. -/
def refreshGens (a : Nat) (ws : List Watch) : M s0 Unit := do
  for w in ws do
    let s ← st
    modCtx a fun x => x.modR fun r =>
      match TMap.find r.slots w.slot with
      | some sl => { r with slots := TMap.put r.slots w.slot { sl with gen := s.ctrG w.ctr } }
      | none => r

/-- A satisfied wait is a read of its counters (R158, R175), and observes their releases (R178). -/
def readWatches (a : Nat) (ws : List Watch) : M s0 Unit := do
  for w in ws do
    readCtr a w.ctr
    observe a w.ctr

/-- A registered wait that is satisfied ends: a wait field and a CWAIT issue again with their answer; a parked system call
posts, as an event of its own (R231). -/
def endWait (a : Nat) (w : Wait) : M s0 Unit := do
  let s ← st
  match w.kind with
  | .field =>
    readWatches a w.watches
    refreshGens a w.watches
    modCtx a fun x => { x with prog := { x.prog with field := true } }
    wakeCtx a none
  | .cwait =>
    readWatches a (w.watches.filter s.satWatch)
    refreshGens a (w.watches.filter s.satWatch)
    wakeCtx a (some (.cwait 0 (s.firstSat w)))
  | _ => pure ()

/-- A party that waits at a counter home: a context, or the thread of a sequencer under its key. -/
inductive Waiter where
  | ctx (a : Nat)
  | thread (k : Nat)
  deriving DecidableEq, Repr

/-- Waiting parties in the order of R203: ascending threshold, then registration. -/
def insertWaiter (k : Nat × Nat × Waiter) : List (Nat × Nat × Waiter) → List (Nat × Nat × Waiter)
  | [] => [k]
  | x :: r => if k.1 < x.1 || (k.1 == x.1 && k.2.1 < x.2.1) then k :: x :: r else x :: insertWaiter k r

/-- The parties whose registered watches on a counter are satisfied, in the order of R203. DESIGN CHOICE (log 79): a context that
watches the counter through two slots takes its place by its lowest slot's satisfied watch; the spec does not say which threshold
counts. -/
def State.wakeable (s : State) (c : Ctr) : List Waiter :=
  let cands := s.ctxs.filterMap fun p =>
    match p.2.wait with
    | some w =>
      match w.watches.find? fun x => x.ctr == c && x.listed && s.satWatch x with
      | some x => if s.satWait w then some (x.mark.toNat, x.seq, Waiter.ctx p.1) else none
      | none => none
    | none => none
  let packets := s.threads.filterMap fun p =>
    match p.2.st with
    | .waits _ w _ .open_ =>
      if w.ctr == c && w.listed && s.satWatch w then some (w.mark.toNat, w.seq, Waiter.thread p.1) else none
    | _ => none
  ((cands ++ packets).foldl (fun l k => insertWaiter k l) []).map (·.2.2)

/-- The home wakes the registered waits that a change of a counter satisfies (R203). -/
def wakeWaiters (c : Ctr) : M s0 Unit := do
  let s ← st
  for p in s.wakeable c do
    match p with
    | .ctx a =>
      let s ← st
      match (s.ctx a).wait with
      | some w => endWait a w
      | none => pure ()
    | .thread k =>
      let n ← freshSeq
      let s ← st
      let t := TMap.get Thread.reset s.threads k
      match t.st with
      | .waits f w d _ => upd (.thread k { t with st := .waits f w d (.woken n) })
      | _ => pure ()

/-! ### Adds without reports -/

/-- The home's answer to an add. -/
structure Added where
  old : Word
  gen : BitVec 16
  overflow : Bool
  stale : Bool
  deriving DecidableEq, Repr

/-- An add at the counter's home, by a strand or another party: dropped when the carried generation is stale (R195, R207). -/
def addRaw (c : Ctr) (amount : Nat) (gen : Option (BitVec 16)) (who : Option Nat) : M s0 Added := do
  let s ← st
  let g := s.ctrG c
  let old := s.ctrV c
  match gen with
  | some k =>
    if k != g then return { old := old, gen := g, overflow := false, stale := true }
  | none => pure ()
  let (v, o) := satAdd old amount
  stampCtr who c
  if v != old then
    setCtrV c v
  wakeWaiters c
  return { old := old, gen := g, overflow := o, stale := false }

/-! ### Error records and the error logs (R358, R359) -/

/-- CODE of an error record (R358). -/
inductive RecCode where
  | badpacket | badlaunch | waitfail | badarm | stale | discard | stepfail | pipe | poison | ctrovf | migrate | auth
  | fault
  deriving DecidableEq, Repr

def RecCode.num : RecCode → Nat
  | .badpacket => 1 | .badlaunch => 2 | .waitfail => 3 | .badarm => 4 | .stale => 5 | .discard => 6 | .stepfail => 7
  | .pipe => 8 | .poison => 9 | .ctrovf => 10 | .migrate => 11 | .auth => 12 | .fault => 13

def recCodeOf (n : Nat) : RecCode :=
  [.badpacket, .badlaunch, .waitfail, .badarm, .stale, .discard, .stepfail, .pipe, .poison, .ctrovf, .migrate, .auth,
    .fault].getD n .fault

/-- The words W0 to W4 of a fresh record (R358). -/
def State.recordWords (s : State) (code : RecCode) (launch : BitVec 16) (who : Nat) (addr detail : Word) : List Word :=
  [wordOf (code.num * 2 ^ 56 + launch.toNat * 2 ^ 32 + 1), wordOf who, addr, s.timeW, detail, 0, 0, 0]

def wordsBytes (ws : List Word) : List Byte := (ws.map fun w => natBytes 8 w.toNat).flatten

/-- A record in the error log of a palette die, and ELOGHEAD (R359). -/
def logRecord (die : Nat) (code : RecCode) (launch : BitVec 16) (who : Nat) (addr detail : Word) : M s0 Unit := do
  let s ← st
  let d := s.die die
  let n := field d.elogbase 0 4
  let base := d.elogbase.toNat / 4096 * 4096
  if 4 ≤ n && n ≤ 12 && base < 2 ^ 46 then
    let pa := base + 64 * (d.eloghead.toNat % 2 ^ n)
    if s.inModule pa then
      stampLines none pa 64
      writeMem pa (wordsBytes (s.recordWords code launch who addr detail))
  modDie die fun d => { d with eloghead := d.eloghead + 1 }

/-- The add of an event to IRQCTR (R359). Answers the counter and its reference when the add saturates. -/
def irqAdd (die : Nat) : M s0 (Option (Ctr × Word)) := do
  let s ← st
  let d := s.die die
  if d.irqctr = 0 then return none
  match ← resolveRef (homeReq die d.irqasid) { rd := false, wr := true } d.irqctr with
  | .error _ => return none
  | .ok c =>
    let r ← addRaw c 1 none none
    return if r.overflow then some (c, d.irqctr) else none

/-- The palette die of this device where a counter is homed. -/
def Ctr.die : Ctr → Option Nat
  | .home pa => some (paDie pa)
  | .cell core _ => some (dieOfCore core)
  | .far _ => none

/-- An event for the error log of a palette die: the record, ELOGHEAD, and the add to IRQCTR (R359). An IRQCTR add that
saturates is an event of its counter's home (R196); an add for that event which saturates again leaves no further record, since
the records would have no end: DESIGN CHOICE (log 59). A home on another device logs there. -/
def logEvent (die : Nat) (code : RecCode) (launch : BitVec 16) (who : Nat) (addr detail : Word) : M s0 Unit := do
  logRecord die code launch who addr detail
  match ← irqAdd die with
  | some (c, ref) =>
    match c.die with
    | some h =>
      logRecord h .ctrovf 0 (25472 + die) ref 1
      let _ ← irqAdd h
      pure ()
    | none => pure ()
  | none => pure ()

/-- The records of accesses behind links that are down (R383); their code and detail are open. -/
def linkEvents : M s0 Unit := do
  let s ← st
  for (d, x) in s.dies do
    if !x.linkDue.isEmpty then
      modDie d fun y => { y with linkDue := [] }
      for pa in x.linkDue do
        let code ← choose 13
        let who ← openWord
        let detail ← openWord
        logEvent d (recCodeOf code) 0 who.toNat (wordOf pa) detail

/-- The kernel interrupts of migration tables whose entries have reached the threshold (R148); what the record says
beside the entry is open. -/
def migInterrupts : M s0 Unit := do
  let s ← st
  for (d, x) in s.dies do
    if !x.migDue.isEmpty then
      modDie d fun y => { y with migDue := [] }
      for i in x.migDue do
        let who ← openWord
        let detail ← openWord
        logEvent d .migrate 0 who.toNat (wordOf i) detail

/-- An event for an error record in memory (R358): fills it when COUNT is 0, else adds 1 to COUNT, saturating. -/
def writeRecord (q : Req) (agent : Nat) (va : Word) (code : RecCode) (launch : BitVec 16) (who : Nat)
    (addr detail : Word) : M s0 Unit := do
  let s ← st
  match ← readRange q agent va 8 with
  | .error _ => pure ()
  | .ok g =>
    let w0 := bytesWord g.bytes
    let count := field w0 0 32
    if count = 0 then
      let _ ← writeRange q agent (va + 8) (wordsBytes ((s.recordWords code launch who addr detail).drop 1 |>.take 4))
      let _ ← writeWord q agent va ((s.recordWords code launch who addr detail).headD 0)
      pure ()
    else if count < 0xFFFFFFFF then
      let _ ← writeWord q agent va (w0 + 1)
      pure ()

/-- The sequencer's requester for a launch's or queue's structures. -/
def seqReq (die : Nat) (asid : BitVec 16) : Req := { die := die, asid := asid, user := false, master := masterSeq die }

/-- A die's sequencer as a reader and writer of memory (the model's number for it, beside those of R176). -/
def seqParty (q : Req) : Nat := 2 ^ 32 + q.die

/-- An event of a context: the ERR of its launch's queue or arm entry; the palette die's log for START strands and for
strands of no launch (R358). -/
def reportCtx (a : Nat) (code : RecCode) (who : Nat) (addr detail : Word) : M s0 Unit := do
  let s ← st
  let x := s.ctx a
  match x.owner with
  | some k =>
    match TMap.find s.launches k with
    | some l => writeRecord (seqReq (dieOf a) l.asid) a l.err code x.r.launch who addr detail
    | none => logEvent (dieOf a) code x.r.launch who addr detail
  | none => logEvent (dieOf a) code x.r.launch who addr detail

def causeWord (c : Cause) : Word := wordOf c.code.toNat

/-- A context has a strand (R49). -/
def Phase.alive : Phase → Bool
  | .ready | .running | .waiting => true
  | _ => false

/-- Oldest first (R356). -/
def insertPend (e : Pend) : List Pend → List Pend
  | [] => [e]
  | p :: r => if e.seq < p.seq then e :: p :: r else p :: insertPend e r

/-- A poisoned read of the strand itself, which sr.err shows (R355). -/
def Pend.isRead (p : Pend) : Bool := p.cause == .poison && !p.engine

/-- A pending error of a context (R356): the list holds eight; of a strand that has ended, a FAULT record. -/
def pendError (a : Nat) (e : Pend) : M s0 Unit := do
  let s ← st
  let x := s.ctx a
  if x.phase.alive then
    if x.pend.length < 8 then
      upd (.ctx a
        { x with
          pend := insertPend e x.pend
          errAddr := if e.isRead && !x.pend.any (fun p => p.isRead && decide (p.seq ≤ e.seq)) then e.tval else x.errAddr })
    else upd (.ctx a { x with ovf := true })
  else reportCtx a .fault x.r.index.toNat e.tval (causeWord e.cause)

/-! ### Adds with their reports (R196, R207) -/

/-- The counter that a step reference of a gang names, on whatever device. -/
def stepCtr (q : Req) (ref : Word) : M s0 Ctr := do
  let s ← st
  if vaNode ref != s.nodeId then return .far (farKey (vaNode ref) q.asid ref)
  else
    let e ← walkM q.die q.asid ref
    return if leafFar e.leaf then .far (farKey (BitVec.ofNat 8 (leafOwner e.leaf)) q.asid ref) else .home (leafPa e ref)

/-- Launches in which an agent's adds are provisional for a counter: a step counter of the agent's gang (R210). -/
def isStepCtr (l : Launch) (q : Req) (c : Ctr) : M s0 Bool := do
  let mut r := false
  for ref in l.steps do
    let x ← stepCtr q ref
    if x = c then r := true
  return r

/-- The gang launch of a context. -/
def State.gangOf (s : State) (a : Nat) : Option Nat := (s.ctx a).gang.map (·.launch)

/-- Who makes an add (R196, R207, R210): the agent that records show; the context of the issuing strand, while it lives; else
where a stale add is recorded: an error record in memory with its requester and launch number, or the log of the home's
die; the gang of the issuing strand; the order among the agent's adds; whether the strand itself is told of an overflow. -/
structure Adder where
  agent : Nat
  ctx : Option Nat
  err : Option (Req × Word × BitVec 16)
  gang : Option Nat
  order : Option Nat
  silent : Bool
  deriving DecidableEq, Repr

/-- A party without a strand. -/
def Adder.party (agent : Nat) : Adder :=
  { agent := agent, ctx := none, err := none, gang := none, order := none, silent := false }

/-- A strand itself. -/
def State.adder (s : State) (a : Nat) : Adder :=
  { agent := a, ctx := some a, err := none, gang := s.gangOf a, order := none, silent := false }

/-- The requester as which a gang's step counters are looked up. -/
def gangReq (l : Launch) (die : Nat) : Req := { die := die, asid := l.asid, user := false, master := masterPrimer }

/-- A stale add is reported (R207). -/
def reportStale (c : Ctr) (ref : Word) (gen : BitVec 16) (w : Adder) : M s0 Unit := do
  match w.ctx with
  | some a =>
    modCtx a fun x => { x with stale := true }
    let s ← st
    reportCtx a .stale (s.ctx a).r.index.toNat ref (gen.zeroExtend 64)
  | none =>
    match w.err, c with
    | some (q, err, launch), _ => writeRecord q (seqParty q) err .stale launch w.agent ref (gen.zeroExtend 64)
    | none, .home pa => logEvent (paDie pa) .stale 0 w.agent ref (gen.zeroExtend 64)
    | none, .cell core _ => logEvent (dieOfCore core) .stale 0 w.agent ref (gen.zeroExtend 64)
    | none, .far _ => pure ()

/-- An overflow that no strand is told of: the log of the counter's home (R196). A home on another device logs it there. -/
def reportOverflow (c : Ctr) (ref : Word) (amount agent : Nat) : M s0 Unit := do
  match c with
  | .home pa => logEvent (paDie pa) .ctrovf 0 agent ref (wordOf amount)
  | .cell core _ => logEvent (dieOfCore core) .ctrovf 0 agent ref (wordOf amount)
  | .far _ => pure ()

/-- An add is a release: its counter carries what the strand, or the engine operation, knows (R178, R187). -/
def carryBy (w : Adder) (c : Ctr) : M s0 Unit := do
  match w.order with
  | some op => carry (opKey op) c
  | none => carry w.agent c

/-- An add by a party: held when it is provisional (R210), else made at the counter's home, with its reports. -/
def addAt (c : Ctr) (amount : Nat) (gen : Option (BitVec 16)) (ref : Word) (w : Adder) : M s0 Added := do
  let s ← st
  let held ← match w.gang.bind fun k => (TMap.find s.launches k).map fun l => (k, l), c with
    | some _, .cell _ _ => pure none
    | some (k, l), _ => do
      let step ← isStepCtr l (gangReq l ((w.ctx.map dieOf).getD 0)) c
      pure (if step then some k else none)
    | none, _ => pure none
  match held with
  | some k =>
    let q ← freshSeq
    let s ← st
    upd (.held (s.held ++
      [{ life := (w.ctx.map fun a => (s.ctx a).life).getD 0, launch := k, ctr := c, ref := ref, ctx := w.ctx, amount := amount, gen := gen, agent := w.agent
         seq := w.order.getD q }]))
    return { old := s.ctrV c, gen := s.ctrG c, overflow := false, stale := false }
  | none =>
    let r ← addRaw c amount gen (w.ctx.filter fun a => a == w.agent)
    carryBy w c
    if r.stale then reportStale c ref (gen.getD 0) w
    if r.overflow && !w.silent then reportOverflow c ref amount w.agent
    return r

/-- An add by a storage command, a save, or the EXIT of a START strand: dropped with a FAULT record in the die's log
(R497). -/
def logAdd (q : Req) (ref : Word) (amount : Nat) (gen : Option (BitVec 16)) (agent : Nat) : M s0 Unit := do
  match ← resolveRef q { rd := false, wr := true } ref with
  | .error c => logEvent q.die .fault 0 agent ref (causeWord c)
  | .ok c =>
    let _ ← addAt c amount gen ref (Adder.party agent)
    pure ()

/-- A release at system scope by a party that is no strand: the engines' writes that it has joined are visible on every die and on
every device (R177, R188). -/
def releaseParty (party : Nat) : M s0 Unit := do
  let s ← st
  showEngines fun e => s.joined party e.op e.num
  drainEngineFar fun e => s.joined party e.op e.num

/-- An add by a sequencer, a release at system scope: dropped with a FAULT record in the ERR of the queue (R497), which stale adds go to as well
(R217). Answers the value before the add. -/
def seqAdd (q : Req) (err ref : Word) (amount : Nat) (gen : Option (BitVec 16)) (launch : BitVec 16) (agent : Nat) :
    M s0 (Option Word) := do
  match ← resolveRef q { rd := false, wr := true } ref with
  | .error c =>
    writeRecord q (seqParty q) err .fault launch agent ref (causeWord c)
    return none
  | .ok c =>
    releaseParty (seqParty q)
    let r ← addAt c amount gen ref { Adder.party agent with err := some (q, err, launch) }
    carry (seqParty q) c
    return some r.old

/-! ### CRESET (R206) -/

/-- A wait on a counter that has been reset: a CWAIT ends with status 1 unless the same evaluation finds it satisfied; a
wait field evaluates again (R200, R201, R206). -/
def resetWaiter (c : Ctr) (a : Nat) (w : Wait) : M s0 Unit := do
  let s ← st
  match w.kind with
  | .cwait =>
    if s.satWait w then endWait a w
    else
      refreshGens a (w.watches.filter fun y => y.ctr == c)
      wakeCtx a (some (.cwait 1 0))
  | .field =>
    refreshGens a w.watches
    wakeCtx a none
  | _ => pure ()

/-- CRESET is a write (R175): V is 0 and the generation counts up. -/
def resetCtr (c : Ctr) (who : Option Nat) : M s0 (BitVec 16) := do
  let s ← st
  let g := s.ctrG c + 1
  stampCtr who c
  setCtrV c 0
  setCtrG c g
  upd (.held (s.held.filter fun h => h.ctr != c))
  let s ← st
  for (a, x) in s.ctxs do
    match x.wait with
    | some w => if w.watches.any fun y => y.ctr == c then resetWaiter c a w
    | none => pure ()
  for (k, t) in s.threads do
    match t.st with
    | .waits f w d .open_ => if w.ctr == c then upd (.thread k { t with st := .waits f w d .broken })
    | _ => pure ()
  return g

/-! ### Slots (R194) -/

/-- A slot that the context holds but has not been given: its own cell (R194). -/
def State.slot (s : State) (a n : Nat) : Slot :=
  let x := s.ctx a
  match TMap.find x.r.slots n with
  | some sl => sl
  | none =>
    let core := coreOf a
    { ref := s.cellRef core (x.cellBase + n), mark := 0, gen := (s.cell core (x.cellBase + n)).g, loc := true }

def setSlot (a n : Nat) (sl : Slot) : M s0 Unit :=
  modCtx a fun x => x.modR fun r => { r with slots := TMap.put r.slots n sl }

/-- The counter that a slot is bound to, as its home answers the strand's own requests. -/
def slotCtr (a n : Nat) (u : CtrUse) : M s0 (Except Cause Ctr) := do
  let s ← st
  resolveRef (s.reqOf a) u (s.slot a n).ref

/-! ### The waiter lists (R202, R204) -/

/-- The counters of watches: a context holds one entry for each (R202). -/
def countersOf (ws : List Watch) : List Ctr := (ws.map (·.ctr)).dedup

/-- Entries that a counter home's list holds for contexts and packets. -/
def State.waiters (s : State) (die : Nat) : Nat :=
  let here (x : Watch) : Bool := x.listed && (match x.ctr with | .home pa => paDie pa == die | _ => false)
  (s.ctxs.map fun p => match p.2.wait with | some w => (countersOf (w.watches.filter here)).length | none => 0).sum +
  (s.threads.map fun p => match p.2.st with | .waits _ w _ _ => if here w then 1 else 0 | _ => 0).sum

/-- A watch beside others of the same wait: it registers unless it is on a home counter whose list is full (R202, R204); two
slots bound to one counter share an entry. -/
def mkWatch (with_ : List Watch) (slot : Nat) (c : Ctr) (mark : Word) : M s0 Watch := do
  let q ← freshSeq
  let s ← st
  let listed := match c with
    | .home pa =>
      let mine := with_.filter fun x => x.listed && (match x.ctr with | .home p => paDie p == paDie pa | _ => false)
      mine.any (fun x => x.ctr == c) || decide (s.waiters (paDie pa) + (countersOf mine).length < waiterMax)
    | _ => true
  return { slot := slot, ctr := c, mark := mark, listed := listed, seq := q }

end Sys2Proof.Machine
end

