-- ==== Sys2Proof/Machine/Regs.lean ====
section
/-! DEFINITION. The configuration registers by their offsets: what a read returns and what a write does (R8, R370). -/

namespace Sys2Proof.Machine

open Sys2Proof

variable {s0 : State}

/-- Access codes K and M of a register, or any mode (R8). -/
inductive Guard where
  | any | kernel | monitor
  deriving DecidableEq, Repr

def Guard.admits (g : Guard) (m : Mode) : Bool :=
  match g, m with
  | .any, _ => true
  | .kernel, .user => false
  | .kernel, _ => true
  | .monitor, .monitor => true
  | .monitor, _ => false

/-- The registers of R370 and of the rules that it gathers: a palette die's, then those of the device window, whose
contexts are agent numbers. -/
inductive CfgReg where
  | rootbase (d : Nat) | migThr (d : Nat) | leasecfg (d : Nat)
  | irqctr (d : Nat) | elogbase (d : Nat) | eloghead (d : Nat) | irqasid (d : Nat)
  | linkstat (d j : Nat)
  | storq (d : Nat) | storbell (d : Nat) | storasid (d : Nat)
  | keyctl
  | sysring (d : Nat) | systake (d : Nat) | sysfree (d : Nat) | sysposted (d : Nat) | sysasid (d : Nat)
  | cqcfg (d l : Nat) | aflags (d asid : Nat) | access (d t m : Nat)
  | slotctl (n : Nat) | notify (n : Nat) | start (a : Nat) | kvec (d : Nat) | mvec (d : Nat)
  | mig (d i : Nat) (high : Bool)
  | job (d i : Nat)
  | still | nodeid | preempt (a : Nat) | replyValue (a : Nat) | replyTicket (a : Nat)
  deriving DecidableEq, Repr

/-- The register at an offset of a palette die's configuration space. -/
def dieReg (d off : Nat) : Option CfgReg :=
  if off % 8 ≠ 0 then none
  else if off = 0x300 then some (.rootbase d)
  else if off = 0x308 then some (.migThr d)
  else if off = 0x400 then some (.leasecfg d)
  else if off = 0x500 then some (.irqctr d)
  else if off = 0x508 then some (.elogbase d)
  else if off = 0x510 then some (.eloghead d)
  else if off = 0x518 then some (.irqasid d)
  else if 0x600 ≤ off ∧ off < 0x630 then some (.linkstat d ((off - 0x600) / 8))
  else if off = 0x700 then some (.storq d)
  else if off = 0x708 then some (.storbell d)
  else if off = 0x710 then some (.storasid d)
  else if off = 0x800 then some .keyctl
  else if off = 0x900 then some (.sysring d)
  else if off = 0x908 then some (.systake d)
  else if off = 0x910 then some (.sysfree d)
  else if off = 0x918 then some (.sysposted d)
  else if off = 0x920 then some (.sysasid d)
  else if 0xA00 ≤ off ∧ off < 0xA40 then some (.cqcfg d ((off - 0xA00) / 8))
  else if 0x100000 ≤ off ∧ off < 0x180000 then some (.aflags d ((off - 0x100000) / 8))
  else if 0x200000 ≤ off ∧ off < 0x214000 then
    some (.access d ((off - 0x200000) / 0x4000) ((off - 0x200000) % 0x4000 / 8))
  else if Config.migOffset ≤ off ∧ off < Config.migOffset + 0x10000 then
    some (.mig d ((off - Config.migOffset) / 16) (decide (8 ≤ (off - Config.migOffset) % 16)))
  else if Config.jobOffset ≤ off ∧ off < Config.jobOffset + 0x200 then some (.job d ((off - Config.jobOffset) / 8))
  else none

/-- The context exists: an agent number of this device (R40, R157). -/
def isAgent (a : Nat) : Bool := decide (coreOf a < numCores) && decide (a % 16 < numCtx (coreOf a))

/-- The register at an offset of the device configuration window. -/
def windowReg (off : Nat) : Option CfgReg :=
  if off % 8 ≠ 0 then none
  else if 0x20000 ≤ off ∧ off < 0x20100 then some (.slotctl ((off - 0x20000) / 8))
  else if 0x20100 ≤ off ∧ off < 0x20200 then some (.notify ((off - 0x20100) / 8))
  else if 0x30000 ≤ off ∧ off < 0x30800 then
    some (.start (16 * (1536 + (off - 0x30000) / 64) + (off - 0x30000) / 8 % 8))
  else if 0x40000 ≤ off ∧ off < 0x40080 then
    (if off % 16 = 0 then some (.kvec ((off - 0x40000) / 16)) else some (.mvec ((off - 0x40000) / 16)))
  else if off = 0x70000 then some .still
  else if off = 0x70008 then some .nodeid
  else if 0x100000 ≤ off ∧ off < 0x131000 then
    (if isAgent ((off - 0x100000) / 8) then some (.preempt ((off - 0x100000) / 8)) else none)
  else if 0x180000 ≤ off ∧ off < 0x1E2000 then
    (let a := (off - 0x180000) / 16
     if !isAgent a then none else if off % 16 = 0 then some (.replyValue a) else some (.replyTicket a))
  else none

/-- The job slot that a network interface maps a job identifier to (R373): entry s holds VALID in bit 63 and the identifier below
it. The table's layout is open: PRESUMED (log 88). -/
def State.jobSlot (s : State) (die job : Nat) : Option Nat :=
  (List.range 64).find? fun i => (TMap.get 0 (s.die die).jobs i).toNat == 2 ^ 63 + job

/-- The job slot of a message and the address space of its accesses: none, an unmapped job; none for the address space where ASIDMAX and
ASIDMIN differ, which refuses every access of the job (R373). -/
def State.jobSpace (s : State) (die job : Nat) : Option (Nat × Option (BitVec 16)) :=
  (s.jobSlot die job).map fun n =>
    let e := s.access die 0 (masterJob n)
    (n, if field e 0 16 = field e 16 16 then some (BitVec.ofNat 16 (field e 16 16)) else none)

def cfgReg (device : Bool) (die off : Nat) : Option CfgReg := if device then windowReg off else dieReg die off

/-- The register behind a physical address with PORT 6 or 7 (R369). -/
def cfgRegAt (pa : Nat) : Option CfgReg :=
  if paPort pa = 6 then dieReg (paDie pa) (paOff pa)
  else if paPort pa = 7 ∧ paDie pa = 0 then windowReg (paOff pa)
  else none

def CfgReg.guard : CfgReg → Guard
  | .rootbase _ | .access _ _ _ | .job _ _ | .kvec _ | .mvec _ | .still | .nodeid => .monitor
  | .migThr _ | .leasecfg _ | .irqctr _ | .elogbase _ | .irqasid _ | .storq _ | .storbell _ | .storasid _ | .sysring _
  | .systake _ | .sysfree _ | .sysposted _ | .sysasid _ | .cqcfg _ _ | .slotctl _ | .start _ => .kernel
  | .mig _ _ _ | .eloghead _ | .linkstat _ _ | .keyctl | .aflags _ _ | .notify _ | .preempt _ | .replyValue _ | .replyTicket _ =>
    .any

/-- KEYCTL takes writes only (R377). -/
def CfgReg.readable : CfgReg → Bool
  | .keyctl => false
  | _ => true

/-- The bits lo + len - 1 .. lo of a word, in place. -/
def keepBits (w : Word) (lo len : Nat) : Word := wordOf (field w lo len * 2 ^ lo)

def Link.word (l : Link) : Word :=
  wordOf ((if l.up then 2 ^ 63 else 0) + l.corr.toNat * 2 ^ 32 + l.uncorr.toNat * 2 ^ 16 + l.capacity.toNat)

/-- What a read of a register returns. -/
def cfgRead (r : CfgReg) : M s0 Word := do
  let s ← st
  match r with
  | .rootbase d => return (s.die d).rootbase
  | .migThr d => return (s.die d).migThr.zeroExtend 64
  | .leasecfg d => return (s.die d).leaseBound.zeroExtend 64
  | .irqctr d => return (s.die d).irqctr
  | .elogbase d => return (s.die d).elogbase
  | .eloghead d => return (s.die d).eloghead
  | .irqasid d => return (s.die d).irqasid.zeroExtend 64
  | .linkstat d j => return (s.link d j).word
  | .storq d => return (s.die d).storq
  | .storbell d => return (s.die d).storbell
  | .storasid d => return (s.die d).storasid.zeroExtend 64
  | .keyctl => return 0
  | .sysring d => return (s.die d).sysring
  | .systake d => return (s.die d).systake
  | .sysfree d => return (s.die d).sysfree
  | .sysposted d => return (s.die d).sysposted
  | .sysasid d => return (s.die d).sysasid.zeroExtend 64
  | .cqcfg d l => return (TMap.get { cfg := 0, recs := [], tail := 0, waiting := [] } (s.die d).queues l).cfg
  | .aflags d asid => return (TMap.get 0 (s.die d).aflags asid).zeroExtend 64
  | .access d t m => return if m = 1977 && !s.primer.unlocked then 0 else s.access d t m
  | .mig d i high =>
    -- reading an entry clears both counts (R148)
    match TMap.find (s.die d).mig i with
    | none => return 0
    | some m =>
      modDie d fun x => { x with mig := TMap.put x.mig i { m with remote := 0, loc := 0 } }
      return if high then wordOf (m.vpn.toNat * 2 ^ 16 + m.asid.toNat) else wordOf (m.remote.toNat * 2 ^ 16 + m.loc.toNat)
  | .job d i => return TMap.get 0 (s.die d).jobs i
  | .slotctl n => return TMap.get 0 s.slotctl n
  | .notify _ => return 0
  | .start a => return (s.ctx a).startReg ||| (if (s.ctx a).phase = .free then 0 else 1)
  | .kvec d => return (s.die d).kvec
  | .mvec d => return (s.die d).mvec
  | .still => return 0
  | .nodeid => return s.nodeId.zeroExtend 64
  | .preempt a => return (s.ctx a).preemptReg ||| (if (s.ctx a).preempt.isSome then 1 else 0)
  | .replyValue a => return (s.ctx a).replyReg
  | .replyTicket _ => do
    upd .choose
    return BitVec.ofNat 64 (Config.pick s.oracle)

def ContQ.none : ContQ := { cfg := 0, recs := [], tail := 0, waiting := [] }

def Die.queue (d : Die) (l : Nat) : ContQ := TMap.get ContQ.none d.queues l

/-- SYSRING as a write leaves it (R232). -/
def sysringAfter (d : Die) (v : Word) : Word :=
  let en := v.getLsbD 4
  if d.sysring.getLsbD 4 then (if en then d.sysring else d.sysring &&& ~~~(16 : Word))
  else
    let kept := keepBits v 12 52 ||| keepBits v 0 4
    let ok := decide (4 ≤ field v 0 4) && decide (field v 0 4 ≤ 10) && d.systake != 0 && d.sysfree != 0 && d.sysposted != 0
    if en && ok then kept ||| 16 else kept

/-- CQCFG as a write leaves it while the level holds no record (R72). -/
def cqcfgAfter (v : Word) : Word :=
  let kept := keepBits v 12 34 ||| keepBits v 0 5
  if v.getLsbD 5 && decide (5 ≤ field v 0 5) && decide (field v 0 5 ≤ 20) then kept ||| 32 else kept

/-- The atomic flags that a write of ones leaves (R131). -/
def aflagsAfter (f : BitVec 5) (v : Word) : BitVec 5 := f &&& ~~~(v.truncate 5 &&& 0x17)

/-- A write to a register. Where the write starts an activity that has a row of its own, that event happens next; NODEID takes its
first write at once (R45). -/
def cfgWrite (r : CfgReg) (v : Word) : M s0 Unit := do
  let s ← st
  let sysFrozen (d : Nat) : Bool := (s.die d).sysring.getLsbD 4
  match r with
  | .rootbase d => modDie d fun x => { x with rootbase := v }
  | .migThr d => modDie d fun x => { x with migThr := v.truncate 16 }
  | .leasecfg d => modDie d fun x => { x with leaseBound := v.truncate 16 }
  | .irqctr d => modDie d fun x => { x with irqctr := v }
  | .elogbase d => modDie d fun x => { x with elogbase := keepBits v 12 52 ||| keepBits v 0 4 }
  | .eloghead _ => pure ()
  | .irqasid d => modDie d fun x => { x with irqasid := v.truncate 16 }
  | .linkstat d j =>
    let l := s.link d j
    modDie d fun x =>
      { x with
        links := TMap.put x.links j
          { l with corr := if v.getLsbD 32 then 0 else l.corr, uncorr := if v.getLsbD 16 then 0 else l.uncorr } }
  | .storq d => modDie d fun x => { x with storq := keepBits v 12 52 ||| keepBits v 0 4 }
  | .storbell d => happens (.storageSubmit d v)
  | .storasid d => modDie d fun x => { x with storasid := v.truncate 16 }
  | .keyctl => happens (.keyctl v)
  | .sysring d => modDie d fun x => { x with sysring := sysringAfter x v }
  | .systake d => if !sysFrozen d then modDie d fun x => { x with systake := v }
  | .sysfree d => if !sysFrozen d then modDie d fun x => { x with sysfree := v }
  | .sysposted d => if !sysFrozen d then modDie d fun x => { x with sysposted := v }
  | .sysasid d => if !sysFrozen d then modDie d fun x => { x with sysasid := v.truncate 16 }
  | .cqcfg d l =>
    if ((s.die d).queue l).recs.isEmpty then
      modDie d fun x => { x with queues := TMap.put x.queues l { x.queue l with cfg := cqcfgAfter v, tail := 0 } }
  | .aflags d asid => modDie d fun x => { x with aflags := TMap.put x.aflags asid (aflagsAfter (TMap.get 0 x.aflags asid) v) }
  | .access d t m =>
    if m ≠ 1977 || s.primer.unlocked then
      modDie d fun x => { x with access := TMap.put x.access (2048 * t + m) (keepBits v 60 4 ||| keepBits v 0 32) }
  | .mig _ _ _ => pure ()
  | .job d i => modDie d fun x => { x with jobs := TMap.put x.jobs i v }
  | .slotctl n =>
    let en := v.getLsbD 0 && field v 46 18 == 0
    upd (.slotctl n (keepBits v 7 57 ||| (if en then 1 else 0)))
    if en then happens (.queueMap n (keepBits v 7 57)) else happens (.queueUnmap n)
  | .notify n => happens (.notify n)
  | .start a => happens (.easelStart a v)
  | .kvec d => modDie d fun x => { x with kvec := keepBits v 3 61 }
  | .mvec d => modDie d fun x => { x with mvec := keepBits v 3 61 }
  | .still => if v.getLsbD 0 then happens .still
  | .nodeid => upd (.latchNode (v.truncate 8))
  | .preempt a => happens (.preemptRequest a v)
  | .replyValue a => modCtx a fun x => { x with replyReg := v }
  | .replyTicket a => happens (.syscallReply a v)

end Sys2Proof.Machine
end

