-- ==== Sys2Proof/Machine/Store.lean ====
section
/-! DEFINITION. A strand's own memory: L1, loads, the store buffer and its home checks, FAULTED lines, atomics, far writes and
leases (R133 to R137, R139 to R142, R149 to R153, R158 to R174, R179 to R183, R355). -/

namespace Sys2Proof.Machine

open Sys2Proof

variable {s0 : State}

/-! ### Atomic operations (R87, R130, R395, R450) -/

/-- The new value of an atomic operation on w bits, and the flags of fadd. -/
def aopApply (op : AOp) (w old b : Nat) : Nat × Flags :=
  match op with
  | .swap => (b, 0)
  | .add => ((old + b) % 2 ^ w, 0)
  | .and => (old &&& b, 0)
  | .or => (old ||| b, 0)
  | .xor => (old ^^^ b, 0)
  | .min => (if sextInt b w < sextInt old w then b else old, 0)
  | .max => (if sextInt old w < sextInt b w then b else old, 0)
  | .fadd => atomicFadd old b

/-- The operand of a store or RED, in its width. -/
def SOp.val (o : SOp) : Nat := o.data.toNat % 2 ^ (8 * o.size)

/-- The value of one store or RED applied to the 8-byte chunk that holds it. -/
def SOp.onChunk (o : SOp) (chunk : Nat) : Nat :=
  let sh := o.off % 8 * 8
  let w := 8 * o.size
  let old := chunk / 2 ^ sh % 2 ^ w
  let new := match o.red with | none => o.val | some op => (aopApply op w old o.val).1
  chunk - old * 2 ^ sh + new * 2 ^ sh

/-- The same, with the flags that a RED's sum raises. -/
def SOp.onChunkFlags (o : SOp) (chunk : Nat) : Flags :=
  match o.red with
  | none => 0
  | some op => (aopApply op (8 * o.size) (chunk / 2 ^ (o.off % 8 * 8) % 2 ^ (8 * o.size)) o.val).2

/-- Stores and REDs of one 8-byte chunk over a value of it, oldest first. -/
def overlay (ops : List SOp) (chunk : Nat) : Nat := ops.foldl (fun v o => o.onChunk v) chunk

/-- The flags that the REDs of an overlay raise. -/
def overlayFlags (ops : List SOp) (chunk : Nat) : Flags :=
  (ops.foldl (fun a o => (o.onChunk a.1, a.2 ||| o.onChunkFlags a.1)) (chunk, (0 : Flags))).2

/-- The part of a word chunk that an element is. -/
def chunkPart (va : Word) (n chunk : Nat) : Nat := chunk / 2 ^ (8 * (va.toNat % 8)) % 2 ^ (8 * n)

/-! ### Checks of a strand's accesses -/

def minWord : List Word → Option Word
  | [] => none
  | a :: l => match minWord l with
    | none => some a
    | some b => some (if a.toNat ≤ b.toNat then a else b)

/-- ALIGN (R137): the lowest misaligned address of the elements, each with its size. -/
def checkAligned (es : List (Word × Nat)) : M s0 Unit :=
  match minWord ((es.filter fun e => e.1.toNat % e.2 != 0).map (·.1)) with
  | some a => trap .align a
  | none => pure ()

def checkAlign (vas : List Word) (n : Nat) : M s0 Unit :=
  match minWord (vas.filter fun a => a.toNat % n != 0) with
  | some a => trap .align a
  | none => pure ()

/-- The bytes of region n of a context (R134). -/
def Regs.inRegion (r : Regs) (n addr : Nat) : Bool :=
  let b := TMap.get 0 r.lsbase n
  let l := TMap.get 0 r.lslim n
  b.getLsbD 63 && decide (field b 8 11 * 256 ≤ addr) && decide (addr ≤ field l 8 11 * 256 + 255)

/-- A user-mode access to a local byte is granted by an enabled region (R135). -/
def Regs.lsGrants (r : Regs) (rd wr : Bool) (addr : Nat) : Bool :=
  (List.range 8).any fun n =>
    r.inRegion n addr && (!rd || (TMap.get 0 r.lsbase n).getLsbD 62) && (!wr || (TMap.get 0 r.lsbase n).getLsbD 61)

/-- A local access of n bytes is permitted (R133, R135). -/
def State.localOk (s : State) (a : Nat) (rd wr : Bool) (va : Word) (n : Nat) : Bool :=
  (List.range n).all fun i =>
    decide (va.toNat + i < lsSize (coreOf a)) &&
    ((s.ctx a).r.mode != .user || (s.ctx a).r.lsGrants rd wr (va.toNat + i))

def checkLocal (vas : List Word) (n : Nat) (rd wr : Bool) : M s0 (List Access) := do
  let s ← st
  match minWord (vas.filter fun a => !s.localOk s.cur rd wr a n) with
  | some a => trap .lsprot a
  | none => return vas.map fun a => { va := a, place := some (.loc a.toNat), hit := true, l2 := false }

/-- Configuration frames: only LD.d and ST.d reach a register (R370). -/
def configOk (p : LPlace) (n : Nat) (plain : Bool) : Bool :=
  match p with
  | .phys pa => !isConfig pa || (n == 8 && plain)
  | _ => true

/-! ### L1 (R139 to R142) -/

def lineOf (va : Word) : Word := va - wordOf (va.toNat % 256)

/-- Lines of an L1 and of a canvas die's L2 (R37, R39, R140). -/
def l1Lines : Nat := l1Size / 256

def l2Lines : Nat := l2Size / 256

/-- The core whose L1 holds a line: of a fused cluster, the one at the position that VA bits 10..8 name (R142). An Easel core's
table lists no L1, which R150 and R424 speak of for every core: DESIGN CHOICE (log 60), it may hit one of its own. -/
def State.l1Core (s : State) (core : Nat) (va : Word) : Nat :=
  if !isEasel core && NatSet.has s.fused (clusterOfCore core) then 8 * clusterOfCore core + field va 8 3 else core

/-- Tag of a line: the ASID and VA bits 63..8 (R141). -/
def l1Key (asid : BitVec 16) (va : Word) : Nat := asid.toNat * 2 ^ 64 + (lineOf va).toNat

/-- The line of an address in a cache: under its ASID, or of a G page, which matches in every ASID. -/
def lineIn (m : TMap L1Line) (asid : BitVec 16) (va : Word) : Option L1Line :=
  match TMap.find m (l1Key asid va) with
  | some x => some x
  | none =>
    (m.find? fun p => p.1 % 2 ^ 64 == (lineOf va).toNat && p.2.leaf.any fun e => leafG e.leaf).map (·.2)

def State.l1Line (s : State) (core : Nat) (asid : BitVec 16) (va : Word) : Option L1Line :=
  lineIn (s.core (s.l1Core core va)).l1 asid va

/-- The line in the L2 of a core's canvas die (R37, R143). An Easel core, which is on a palette die, has none. -/
def State.l2Line (s : State) (core : Nat) (asid : BitVec 16) (va : Word) : Option L1Line :=
  if isEasel core then none else lineIn (s.die (dieOfCore core)).l2 asid va

/-- Bytes off to off + n - 1 of a line. -/
def lineMask (off n : Nat) : BitVec 256 := BitVec.ofNat 256 ((2 ^ n - 1) * 2 ^ off)

/-- The 64-byte sectors that n bytes touch (R140). -/
def sectorMask (off n : Nat) : BitVec 256 := lineMask (off / 64 * 64) (64 * ((off % 64 + n + 63) / 64))

/-- A line enters a cache of so many lines; of a full one some line leaves. -/
def intoCache (m : TMap L1Line) (size : Nat) (k : Nat) (x : L1Line) : M s0 (TMap L1Line) := do
  let i ← if (TMap.find m k).isNone && decide (size ≤ m.length) then choose m.length else pure m.length
  return TMap.put (m.eraseIdx i) k x

/-- A line is held by a core's L1 and by its die's L2 (R143). -/
def holdLine (core : Nat) (asid : BitVec 16) (va : Word) (x : L1Line) (before1 before2 : BitVec 256) : M s0 Unit := do
  let s ← st
  let n := s.l1Core core va
  let m ← intoCache (s.core n).l1 l1Lines (l1Key asid va) { x with valid := x.valid ||| before1 }
  modCore n fun c => { c with l1 := m }
  if !isEasel core then
    let d := dieOfCore core
    let m ← intoCache (s.die d).l2 l2Lines (l1Key asid va) { x with valid := x.valid ||| before2 }
    modDie d fun y => { y with l2 := m }

/-- A line comes into L1 and L2 in its present version, or gains valid bytes. Poisoned bytes, and words on which partials wait, are
not kept. -/
def fillL1 (core : Nat) (asid : BitVec 16) (va : Word) (p : LPlace) (leaf : Option TlbEntry) (mask : BitVec 256)
    (own : Bool) : M s0 Unit := do
  let (bytes, bad) ← match p with
    | .phys pa => do
      let s ← st
      let base := pa - pa % 256
      let bs ← readBytes base 256 (s.keyOf (dieOfCore core) asid va pa)
      let waits (i : Nat) : Bool := !s.fadds.isEmpty && (TMap.find s.fadds ((base + i) / 4)).isSome
      pure (bs, BitVec.ofNat 256
        (((List.range 256).map fun i => if s.poisoned (base + i) || waits i then 2 ^ i else 0).sum))
    | _ => pure ([], 0)
  let s ← st
  let (wts, rts) := match p with | .phys pa => s.lineTime pa | _ => (0, 0)
  let valid (m : TMap L1Line) : BitVec 256 := ((TMap.find m (l1Key asid va)).map (·.valid)).getD 0 &&& ~~~bad
  holdLine core asid va
    { leaf := leaf, valid := mask &&& ~~~bad, owned := own, bytes := bytes, wts := wts, rts := rts }
    (valid (s.core (s.l1Core core va)).l1) (valid (s.die (dieOfCore core)).l2)

/-- A cache may still hold a line with every byte of an access valid: that it has left the cache meanwhile is open. -/
def stillHeld (x : Option L1Line) (va : Word) (n : Nat) : M s0 (Option L1Line) := do
  let mask := lineMask (va.toNat % 256) n
  match x with
  | some y =>
    if y.valid &&& mask = mask then
      let i ← choose 2
      return if i = 0 then x else none
    else return none
  | none => return none

/-- The line that an access of an agent hits, in L1 or else in L2 (true), R143. -/
def probeCache (a : Nat) (va : Word) (n : Nat) : M s0 (Option (L1Line × Bool)) := do
  let s ← st
  let asid := (s.ctx a).r.asid
  match ← stillHeld (s.l1Line (coreOf a) asid va) va n with
  | some x => return some (x, false)
  | none =>
    let y ← stillHeld (s.l2Line (coreOf a) asid va) va n
    return y.map fun x => (x, true)

/-- A load that hits uses the recorded bits, and does not translate again (R141). -/
def L1Line.place (x : L1Line) (q : Req) (va : Word) : Except Cause LPlace :=
  match x.leaf with
  | none => .ok (.far (farKey (vaNode va) q.asid va))
  | some e =>
    if q.user && leafG e.leaf then .error .xlate
    else if leafFar e.leaf then .ok (.far (farKey (BitVec.ofNat 8 (leafOwner e.leaf)) q.asid va))
    else .ok (.phys (leafPa e va))

/-- The leaf by which the die translated an address to a place; none where another device translates it. -/
def State.leafAt (s : State) (die : Nat) (asid : BitVec 16) (va : Word) (p : LPlace) : Option TlbEntry :=
  match p with
  | .phys pa => s.leafOf die asid va pa
  | .far _ => if vaNode va = s.nodeId then (s.cached die asid va).find? fun e => leafFar e.leaf else none
  | .loc _ | .region _ => none

/-- Counter words and configuration registers are never cached (R175, R370). -/
def uncached (p : LPlace) (leaf : Option TlbEntry) : Bool :=
  leaf.any (fun e => leafK e.leaf) || (match p with | .phys pa => isConfig pa | _ => false)

/-- The version of a line that the strand's L1, or the L2 of its die, holds by a lease that reaches the strand's time (R159). -/
def State.heldVersion (s : State) (va : Word) (l2 : Bool) : Option L1Line :=
  let core := coreOf s.cur
  let asid := (s.ctx s.cur).r.asid
  (if l2 then s.l2Line core asid va else s.l1Line core asid va).filter fun x =>
    !x.bytes.isEmpty && decide (s.pts s.cur ≤ x.rts)

/-- A global element that has been read: what it missed, or what came as a new version, is in L1. Answers whether it missed. -/
def touchL1 (x : Access) (n : Nat) : M s0 Bool := do
  let s ← st
  let core := coreOf s.cur
  let asid := (s.ctx s.cur).r.asid
  match x.place with
  | none | some (.loc _) | some (.region _) => return false
  | some p =>
    let leaf := s.leafAt (dieOfCore core) asid x.va p
    let held := match p with | .phys _ => s.heldVersion x.va x.l2 | _ => none
    let stands := match p with | .phys _ => held.isSome | _ => true
    if x.hit && stands then return false
    else if uncached p leaf then return true
    else
      match held with
      | some y => if x.l2 then holdLine core asid x.va { y with valid := y.valid } 0 y.valid
                  else fillL1 core asid x.va p leaf (sectorMask (x.va.toNat % 256) n) false
      | none => fillL1 core asid x.va p leaf (sectorMask (x.va.toNat % 256) n) false
      return !x.hit

/-! ### The monitor's region of palette die 0's last-level cache (R375) -/

/-- Bytes of the region. -/
def regionSize : Nat := 2 ^ 26

/-- Offset in the region of bytes that an access of a mode reaches: the monitor's accesses alone reach it. -/
def State.regionOff (s : State) (m : Mode) (va : Word) (n : Nat) : Option Nat :=
  let off := (va - Config.monitorBase).toNat
  if m == .monitor && !s.primer.region.isEmpty && decide (off + n ≤ regionSize) then some off else none

def State.regionByte (s : State) (off : Nat) : Byte :=
  (TMap.find s.primer.regionW off).getD ((s.primer.region[off]?).getD (Config.regionRest off))

def State.regionBytes (s : State) (off n : Nat) : List Byte := (List.range n).map fun i => s.regionByte (off + i)

def writeRegion (off : Nat) (bs : List Byte) : M s0 Unit := do
  let s ← st
  upd (.primer
    { s.primer with
      regionW := bs.zipIdx.foldl (fun m b => TMap.put m (off + b.2) b.1) s.primer.regionW })

/-! ### Translation of a strand's accesses (R149) -/

/-- The check of one global element: by what it found before it waited behind a lease, by the line that a load hits, or at the
first home. -/
def checkElem (va : Word) (n : Nat) (k : Kind) (plain : Bool) : M s0 (Except Cause Access) := do
  let s ← st
  let q := s.reqOf s.cur
  match (s.ctx s.cur).prog.lease.bind fun w => w.at_.find? fun e => e.1 == va with
  | some (_, pa) => return .ok { va := va, place := some (.phys pa), hit := false, l2 := false }
  | none =>
    match s.regionOff (s.ctx s.cur).r.mode va n with
    | some off => return .ok { va := va, place := some (.region off), hit := true, l2 := false }
    | none =>
    if !canonical va then return .error .xlate
    else
      let held ← probeCache s.cur va n
      let r ← match k, held with
        | .load, some (x, _) => pure (x.place q va)
        | _, _ =>
          match ← xlate q k va with
          | .ok (.phys pa) => pure (.ok (.phys pa))
          | .ok (.far key) => pure (.ok (.far key))
          | .error c => pure (.error c)
      return match r with
        | .ok p =>
          if configOk p n plain then
            .ok { va := va, place := some p, hit := held.any fun h => !h.2, l2 := held.any fun h => h.2 }
          else .error .xlate
        | .error c => .error c

/-- Translation of the elements of an access that is checked precisely (R149): the lowest faulting element address. -/
def checkGlobal (vas : List Word) (n : Nat) (k : Kind) (plain : Bool) : M s0 (List Access) := do
  let mut out : List Access := []
  let mut worst : Option (Word × Cause) := none
  for va in vas do
    match ← checkElem va n k plain with
    | .ok x => out := out ++ [x]
    | .error c =>
      match worst with
      | some (w, _) => if va.toNat < w.toNat then worst := some (va, c)
      | none => worst := some (va, c)
  match worst with
  | some (va, c) => trap c va
  | none => return out

/-- A strand's access behind another agent's lease waits as an off-core reference, with what its check found (R172). -/
def waitLease (xs : List Access) : M s0 Unit := do
  let s ← st
  let pas := xs.filterMap fun x => match x.place with | some (.phys pa) => some (x.va, pa) | _ => none
  match pas.find? fun p => s.leasedByOther s.cur p.2 with
  | some (_, pa) =>
    let q ← match (s.ctx s.cur).prog.lease with
      | some w => pure w.seq
      | none => freshSeq
    modMe fun x => { x with prog := { x.prog with lease := some { seq := q, at_ := pas } } }
    stop (.wait { kind := .leased (pa / 256), watches := [], all := false, deadline := none })
  | none => pure ()

/-- After a signal at issue the instruction's own operations may still be to come (R167): it may stall in place first. -/
def afterSignal : M s0 Unit := do
  let c ← myCtx
  if c.prog.sig then
    let i ← choose 2
    if i = 1 then stop .stall

/-! ### Far writes (R180, R183) -/

/-- The context's far writes are performed at the home device, earlier ones first. -/
def drainFar (a : Nat) : M s0 Unit := do
  let s ← st
  for w in (s.ctx a).farw do
    writeFarHome a w.key (natBytes w.size w.data.toNat)
  modCtx a fun x => { x with farw := [] }

/-- A far write (R180): performed now or kept until a release, which is open. -/
def farStore (a key n : Nat) (data : Word) : M s0 Unit := do
  let i ← choose 2
  modCtx a fun x => { x with farw := x.farw ++ [{ key := key, size := n, data := data }] }
  if i = 1 then drainFar a

/-- A far RED, AMO or CAS is performed at the home device (R183). Answers the old value. -/
def farApply (a key n : Nat) (f : Nat → Option Nat) : M s0 Nat := do
  drainFar a
  settleFar key n
  let s ← st
  let old := bytesNat ((List.range n).map fun i => s.farByte (key + i))
  match f old with
  | some v => writeFarHome a key (natBytes n v)
  | none => pure ()
  return old

/-! ### Local store with the journal of a gang (R296) -/

/-- A block is journaled before its first write of the step by a gang strand or its engine operations; the 513th block of
a core makes the step unrepeatable (R296, R298). -/
def journalBlock (launch core block : Nat) : M s0 Unit := do
  let s ← st
  match TMap.find s.launches launch with
  | some l =>
    let key := 2048 * core + block
    if (TMap.find l.journal key).isNone then
      if 512 ≤ (l.journal.filter fun p => p.1 / 2048 == core).length then
        upd (.launch launch { l with unrepeatable := true })
      else
        let addrs := (List.range 256).map fun i => 256 * block + i
        upd (.launch launch
          { l with
            journal := TMap.put l.journal key
              { bytes := addrs.map (s.lsRaw core), bad := addrs.map (s.lsPoisoned core) } })
  | none => pure ()

/-- A write of local store by a strand, or by an engine operation that the strand of `gang` issued. -/
def writeLsFor (gang : Option Nat) (core addr : Nat) (bs : List Byte) : M s0 Unit := do
  match gang with
  | some k =>
    for b in ((List.range bs.length).map fun i => (addr + i) / 256).dedup do
      journalBlock k core b
  | none => pure ()
  writeLs core addr bs

/-! ### The queue of a leased line (R172, R173) -/

/-- The accesses that wait behind a lease on a physical line proceed. -/
def wakeLine (line : Nat) : M s0 Unit := do
  let s ← st
  for (a, x) in s.ctxs do
    match x.wait with
    | some w => if w.kind == .leased line then wakeCtx a none
    | none => pure ()

/-- The instruction's access leaves the queues of its lines: it has been made, or the strand gives it up. Those behind it go on. -/
def leaveQueue (a : Nat) : M s0 Unit := do
  let s ← st
  match (s.ctx a).prog.lease with
  | none => pure ()
  | some q =>
    modCtx a fun x => { x with prog := { x.prog with lease := none } }
    for k in (q.at_.map fun e => e.2 / 256).dedup do
      wakeLine k

/-- What a release of a strand carries at its scope, once its stores have their home checks: of the engine operations that the
strand has joined, writes of near memory to every die; far writes to their home devices (R177, R180, R188). -/
def pushScopeOf (a : Nat) (sc : Scope) : M s0 Unit := do
  let s ← st
  if sc != .group then showEngines fun e => s.joined a e.op e.num
  if sc == .system then
    drainFar a
    drainEngineFar fun p => s.joined a p.op p.num

/-- A write of word 1 of a REPLY is a release at system scope (R367); one of STORBELL is the fork of the commands that it submits, at
device scope, whose client knows of other operations what the strand knows (R185, R384). -/
def releaseConfig (a : Nat) (r : CfgReg) : M s0 Unit :=
  match r with
  | .replyTicket _ => pushScopeOf a .system
  | .storbell d => do
    pushScopeOf a .device
    let s ← st
    addJoins (2 * (25480 + d)) (s.joinsOf (2 * a))
  | _ => pure ()

/-! ### Home checks of a context's lines (R150 to R153) -/

/-- The word that a store of a strand is about to change, which fetches may still give (R106). -/
def noteWord (pa : Nat) : M s0 Unit := do
  let s ← st
  let e : OldWord := { word := s.physWord (pa / 8 * 8), ends := s.codeSeq + 1 }
  upd (.codeOld (TMap.put s.codeOld (pa / 8) ((TMap.find s.codeOld (pa / 8)).getD [] ++ [e])))

/-- The effect of a RED at its home. A RED on a poisoned word leaves it poisoned; its flags go to the atomic flag register of the
ASID at the agent's palette die (R130, R171, R451). A RED with fadd is added now, or stays an operand that later ones and the
memory's value are added to in any order (R132). -/
def redHome (agent die : Nat) (asid : BitVec 16) (pa key size : Nat) (op : AOp) (val : Nat) : M s0 Unit := do
  let s ← st
  if !s.linkUp pa then noteDown pa
  if !(List.range size).any fun i => s.poisoned (pa + i) then
    let held ← if op == .fadd && !s.otherKey pa key then choose 2 else pure 0
    if held = 1 then
      let s ← st
      let old := bytesNat (s.physBytes pa size)
      let e : BitVec 32 × List FaddOp := (TMap.find s.fadds (pa / 4)).getD (BitVec.ofNat 32 old, [])
      writePhys pa (natBytes size (aopApply op (8 * size) old val).1)
      if TMap.find s.lineKey (pa / 256) != some (s.keyTag key) then upd (.lineKey (pa / 256) (s.keyTag key))
      upd (.fadds (TMap.put s.fadds (pa / 4)
        (e.1, { agent := agent, die := die, asid := asid, value := BitVec.ofNat 32 val } :: e.2)))
    else
      let bs ← readKeyed pa size key
      let (v, fl) := aopApply op (8 * size) (bytesNat bs) val
      writeKeyed pa (natBytes size v) key
      raiseAtomic die asid fl

/-- The effect of one store or RED of a strand at its home. -/
def performOp (a : Nat) (asid : BitVec 16) (pa key : Nat) (o : SOp) : M s0 Unit := do
  match o.red with
  | none => writeKeyed pa (natBytes o.size o.data.toNat) key
  | some op => redHome a (dieOf a) asid pa key o.size op o.val

/-- A far RED at its home device: added now, or an operand there that is combined later (R132, R183). -/
def farRedHome (agent die : Nat) (asid : BitVec 16) (key size : Nat) (op : AOp) (val : Nat) : M s0 Unit := do
  let held ← if op == .fadd then choose 2 else pure 0
  if held = 1 then
    let s ← st
    upd (.farFadds (TMap.put s.farFadds (key / 4)
      ({ agent := agent, die := die, asid := asid, value := BitVec.ofNat 32 val } ::
        (TMap.find s.farFadds (key / 4)).getD [])))
  else
    settleFar key size
    let s ← st
    let old := bytesNat ((List.range size).map fun i => s.farByte (key + i))
    writeFarHome agent key (natBytes size (aopApply op (8 * size) old val).1)
    raiseAtomic die asid (aopApply op (8 * size) old val).2

/-- The same of a strand, after its earlier far writes. -/
def farRed (a : Nat) (asid : BitVec 16) (key size : Nat) (op : AOp) (val : Nat) : M s0 Unit := do
  drainFar a
  farRedHome a (dieOf a) asid key size op val

/-- The oldest operation of a list of stores. -/
def oldestOp (ops : List SOp) : Nat := (ops.map (·.seq)).foldl Nat.min (2 ^ 64)

/-- Awaiting operations of other lines that are older than an operation stay before it in the global order (R160). -/
def olderElsewhere (lines : List SLine) (va : Word) (asid : BitVec 16) : Option Nat :=
  let seqs := (lines.filter fun l => l.faulted.isNone && !(l.va == va && l.asid == asid)).map fun l => oldestOp l.ops
  if seqs.isEmpty then none else some (seqs.foldl Nat.min (2 ^ 64))

/-- The stores of a line that precede every awaiting store of the context's other lines. -/
def duePrefix (lines : List SLine) (l : SLine) : List SOp :=
  match olderElsewhere lines l.va l.asid with
  | none => l.ops
  | some q => l.ops.filter fun o => o.seq < q

/-- The first awaiting line, the one whose first store is oldest. -/
def firstAwaiting : List SLine → Option SLine
  | [] => none
  | l :: r =>
    match firstAwaiting r with
    | none => if l.faulted.isNone then some l else none
    | some m => if l.faulted.isNone && decide (oldestOp l.ops ≤ oldestOp m.ops) then some l else some m

/-- The line of an address and ASID among a context's lines, changed. -/
def onLine (va : Word) (asid : BitVec 16) (f : SLine → SLine) (x : Ctx) : Ctx :=
  { x with lines := x.lines.map fun y => if y.va == va && y.asid == asid then f y else y }

/-- A configuration register takes the store of an ST.d that its issue did not find to be one; a register that the mode of the store
may not write is refused (R8, R370). None: performed. -/
def storeConfig (a pa : Nat) (o : SOp) : M s0 (Option Cause) := do
  match cfgRegAt (pa + o.off) with
  | none => return some .xlate
  | some r =>
    if o.size ≠ 8 || !o.byST then return some .xlate
    else if !r.guard.admits o.mode then return some .xlate
    else
      releaseConfig a r
      cfgWrite r o.data
      return none

/-- Stores of a line are performed at the place of its first byte, in order. Answers the cause of the first that is not. -/
def performOps (a : Nat) (l : SLine) (ops : List SOp) (p : LPlace) (key : Nat) : M s0 (Option Cause) := do
  let mut bad : Option Cause := none
  for o in ops do
    if bad.isNone then
      match p with
      | .phys pa =>
        if isConfig pa then bad ← storeConfig a pa o
        else
          let s ← st
          noteUnseen a true (pa + o.off) (s.physBytes (pa + o.off) o.size)
          noteWord (pa + o.off)
          performOp a l.asid (pa + o.off) key o
          stampLines (some a) (pa + o.off) o.size
      | .far k =>
        match o.red with
        | none => farStore a (k + o.off) o.size o.data
        | some op => farRed a l.asid (k + o.off) o.size op o.val
      | .region off =>
        let s ← st
        let old := bytesNat (s.regionBytes (off + o.off) o.size)
        writeRegion (off + o.off)
          (natBytes o.size (match o.red with | none => o.val | some op => (aopApply op (8 * o.size) old o.val).1))
        match o.red with
        | some op => raiseAtomic (dieOf a) l.asid (aopApply op (8 * o.size) old o.val).2
        | none => pure ()
      | .loc _ => pure ()
      if bad.isNone then
        modCtx a (onLine l.va l.asid fun y =>
          let ops := y.ops.filter fun z => z.seq != o.seq
          { y with ops := ops, age := if ops.isEmpty then y.age else oldestOp ops })
  return bad

def SOp.overlaps (y o : SOp) : Bool := decide (y.off < o.off + o.size) && decide (o.off < y.off + y.size)

def SOp.inside (y o : SOp) : Bool := decide (o.off ≤ y.off) && decide (y.off + y.size ≤ o.off + o.size)

/-- Every byte is stored data of the list. -/
def stored (ops : List SOp) (off n : Nat) : Bool :=
  (List.range n).all fun i =>
    ops.any (fun o => o.red.isNone && decide (o.off ≤ off + i) && decide (off + i < o.off + o.size)) &&
    !ops.any (fun o => o.red.isSome && decide (o.off ≤ off + i) && decide (off + i < o.off + o.size))

/-- A RED joins the partial of its word: the last RED on the same bytes with the same operation, with nothing since that meets it
(R150). The operation that the two make and the flags of their combination; none: they stay apart. -/
def SOp.join (y o : SOp) : Option (SOp × Flags) :=
  match y.red, o.red with
  | some p, some q =>
    if p == q && y.off == o.off && y.size == o.size then
      let (v, fl) := aopApply p (8 * o.size) y.val o.val
      some ({ y with data := wordOf v }, fl)
    else none
  | _, _ => none

/-- The ops of a line with a RED put to the partial of its word. -/
def joinRed (ops : List SOp) (o : SOp) : List SOp × Flags :=
  match (ops.reverse.find? fun y => y.overlaps o).bind fun y => (y.join o).map fun r => (y, r) with
  | some (y, r) => (ops.map fun z => if z.seq == y.seq && z.off == y.off then r.1 else z, r.2)
  | none => (ops ++ [o], 0)

/-- A store or RED joins those of a FAULTED line (R150): a plain store replaces what it covers and the partials that it meets; a
RED combines with stored data, or with the partial of its word. Answers the flags of that combination. -/
def addFaulted (ops : List SOp) (o : SOp) : List SOp × Flags :=
  match o.red with
  | none => ((ops.filter fun y => !y.inside o && !(y.red.isSome && y.overlaps o)) ++ [o], 0)
  | some op =>
    if stored ops o.off o.size then
      let chunk := overlay (ops.filter fun y => y.off / 8 == o.off / 8) 0
      let (v, fl) := aopApply op (8 * o.size) (chunkPart (wordOf o.off) o.size chunk) o.val
      ((ops.filter fun y => !y.inside o) ++ [{ o with data := wordOf v, red := none }], fl)
    else joinRed ops o

/-- The stores of a line that becomes FAULTED, joined in program order. -/
def faultOps (ops : List SOp) : List SOp × Flags :=
  ops.foldl (fun acc o => let r := addFaulted acc.1 o; (r.1, acc.2 ||| r.2)) ([], 0)

/-- A failed check: the line is FAULTED; its age stays the order of its first store (R150, R152). -/
def failLine (a : Nat) (va : Word) (asid : BitVec 16) (c : Cause) : M s0 Unit := do
  let s ← st
  for l in (s.ctx a).lines do
    if l.va == va && l.asid == asid then raiseAtomic (dieOf a) asid (faultOps l.ops).2
  modCtx a (onLine va asid fun y =>
    { y with faulted := some c, queued := none, ops := (faultOps y.ops).1 })

/-- A line that L1 or L2 holds with ownership and W = 1, in which a store completes (R141). -/
def State.ownedLine (s : State) (core : Nat) (asid : BitVec 16) (va : Word) : Option L1Line :=
  let own (x : L1Line) : Bool := x.owned && x.leaf.any fun e => leafW e.leaf
  ((s.l1Line core asid va).filter own).orElse fun _ => (s.l2Line core asid va).filter own

/-- The home's answer to the ownership request of a line: where an owned line with W = 1 is held it completes in the cache, by
the recorded translation; else the home translates (R141, R150). A request that has waited behind a lease keeps what its
check found (R172). -/
def checkOwner (a : Nat) (l : SLine) (user : Bool) : M s0 (Except Cause LPlace) := do
  let s ← st
  let q : Req := { s.reqOf a with asid := l.asid, user := user }
  match l.queued with
  | some (_, k) => return .ok (.phys (256 * k))
  | none =>
    match if l.ops.all fun o => o.mode == .monitor then s.regionOff .monitor l.va 256 else none with
    | some off => return .ok (.region off)
    | none =>
    let owned := s.ownedLine (coreOf a) l.asid l.va
    let i ← if owned.isSome then choose 2 else pure 0
    match owned, i with
    | some x, 1 => return x.place q l.va
    | _, _ =>
      match ← xlate q .store l.va with
      | .ok (.phys pa) => return .ok (.phys pa)
      | .ok (.far k) => return .ok (.far k)
      | .error c => return .error c

/-- The line is held with ownership, and the bytes of the stores that have been performed are valid in L1 (R140, R141). -/
def ownLine (a : Nat) (l : SLine) (ops : List SOp) (p : LPlace) : M s0 Unit := do
  let s ← st
  let leaf := s.leafAt (dieOf a) l.asid l.va p
  if !uncached p leaf && (match p with | .region _ => false | _ => true) then
    fillL1 (coreOf a) l.asid l.va p leaf
      ((ops.filter fun o => o.red.isNone).foldl (fun m o => m ||| lineMask o.off o.size) 0) true

/-- The answer of the first home to the ownership request of a line (R150): a clean check performs the stores, a failed
one makes the line FAULTED. Behind another agent's lease there is no answer yet, and the request has its place in the queue:
false (R172). -/
def checkLine (a : Nat) (l : SLine) (ops : List SOp) : M s0 Bool := do
  match ← checkOwner a l (ops.any fun o => o.mode == .user) with
  | .error c =>
    failLine a l.va l.asid c
    return true
  | .ok p =>
    let s ← st
    let wait : Option Nat := match p with | .phys pa => if s.leasedByOther a pa then some (pa / 256) else none | _ => none
    match wait with
    | some k =>
      if l.queued.isNone then
        let q ← freshSeq
        modCtx a (onLine l.va l.asid fun y => { y with queued := some (q, k) })
      return false
    | none =>
      let key := match p with | .phys pa => s.keyOf (dieOf a) l.asid l.va pa | _ => 0
      match ← performOps a l ops p key with
      | some c => failLine a l.va l.asid c
      | none =>
        modCtx a (onLine l.va l.asid fun y => { y with queued := none })
        modCtx a fun x => { x with lines := x.lines.filter fun y => !y.ops.isEmpty }
        ownLine a l ops p
      match l.queued with
      | some (_, k) => wakeLine k
      | none => pure ()
      return true

/-- Home checks in program order, at most `n` of them, until none is due or one waits behind a lease: false. -/
def drainUpTo (a : Nat) : Nat → M s0 Bool
  | 0 => return true
  | n + 1 => do
    let s ← st
    match firstAwaiting (s.ctx a).lines with
    | some l => if ← checkLine a l (duePrefix (s.ctx a).lines l) then drainUpTo a n else return false
    | none => return true

/-- The stores of a context that are under way receive their home checks, as far as leases let them. -/
def tryDrain (a : Nat) : M s0 Bool := do
  let s ← st
  drainUpTo a (((s.ctx a).lines.map fun l => l.ops.length).sum + 8)

/-- Every awaiting line of the strand receives its home check, oldest first; behind a lease the strand stalls in place. -/
def drainStores (a : Nat) : M s0 Unit := do
  let ok ← tryDrain a
  if !ok then stop .stall

/-! ### The store buffer of the strand that executes (R150, R152) -/

/-- The oldest FAULTED line. -/
def oldestLine : List SLine → Option SLine
  | [] => none
  | l :: r =>
    match oldestLine r with
    | none => if l.faulted.isSome then some l else none
    | some m => if l.faulted.isSome && decide (l.age ≤ m.age) then some l else some m

def oldestFault (lines : List SLine) : Option (Cause × Word) :=
  (oldestLine lines).bind fun l => l.faulted.map fun c => (c, l.va)

/-- The deferred trap of R152; the instruction replays the lines when an ERET returns to it (R153). -/
def faultTrap {α : Type} : M s0 α := do
  let c ← myCtx
  modMe fun x => { x with replay := x.r.pc :: x.replay.filter fun p => p != x.r.pc }
  match oldestFault c.lines with
  | some (cause, va) => stop (.trap cause va true true)
  | none => stop .stall

/-- A store enters a line. Answers the flags of a combination in a FAULTED line. -/
def addOp (l : SLine) (o : SOp) : SLine × Flags :=
  if l.faulted.isSome then
    let (ops, fl) := addFaulted l.ops o
    ({ l with ops := ops }, fl)
  else ({ l with ops := l.ops ++ [o] }, 0)

/-- An ST.d whose address is a configuration register is performed at the register, in the strand's order; PRIV is precise where the
mode may not write the register (R354, R370). What the register's target or its page refuses goes the way of other stores. -/
def configStore (va data : Word) : M s0 Bool := do
  let s ← st
  let c := s.ctx s.cur
  let maps (e : TlbEntry) : Bool := leafV e.leaf && !leafFar e.leaf && isConfig (leafPa e va)
  if !canonical va || vaNode va != s.nodeId || !(s.translations (dieOf s.cur) c.r.asid va).any maps then return false
  else
    let e ← walkM (dieOf s.cur) c.r.asid va
    let s ← st
    if !maps e then return false
    else
      match cfgRegAt (leafPa e va), s.checkLeaf (s.reqOf s.cur) .store va e with
      | some r, .ok _ =>
        if !r.guard.admits c.r.mode then trap .priv c.ir
        drainStores s.cur
        match r with
        | .replyTicket _ =>
          let c ← myCtx
          if (oldestFault c.lines).isSome then faultTrap
        | _ => pure ()
        releaseConfig s.cur r
        cfgWrite r data
        return true
      | _, _ => return false

/-- With eight FAULTED lines, a store to another line that is held with ownership and W = 1 may complete in the cache; else it
takes the deferred trap (R141, R152). -/
def ninthLine (o : SOp) (va : Word) : M s0 Unit := do
  let s ← st
  let c := s.ctx s.cur
  let l : SLine := { va := lineOf va, asid := c.r.asid, faulted := none, age := o.seq, queued := none, ops := [o] }
  match s.ownedLine (coreOf s.cur) l.asid l.va with
  | none => faultTrap
  | some x =>
    let i ← choose 2
    match x.place { s.reqOf s.cur with asid := l.asid } l.va with
    | .ok p =>
      if i = 0 then faultTrap
      let held := match p with | .phys pa => s.leasedByOther s.cur pa | _ => false
      if held then stop .stall
      let key := match p with | .phys pa => s.keyOf (dieOf s.cur) l.asid l.va pa | _ => 0
      let _ ← performOps s.cur l [o] p key
      ownLine s.cur l [o] p
    | .error _ => faultTrap

/-- One global store or RED of the strand that executes. -/
def enqueue (va : Word) (size : Nat) (data : Word) (red : Option AOp) (byST : Bool) : M s0 Unit := do
  let c ← myCtx
  let lv := lineOf va
  let have_ (x : Ctx) : Bool := x.lines.any fun l => l.va == lv && l.asid == x.r.asid
  if !have_ c && decide (8 ≤ c.lines.length) then
    let s ← st
    drainStores s.cur
  let q ← freshSeq
  let c ← myCtx
  let o : SOp :=
    { off := va.toNat % 256, size := size, data := data, red := red, mode := c.r.mode, byST := byST, seq := q }
  match c.lines.find? fun l => l.va == lv && l.asid == c.r.asid with
  | some l =>
    modMe (onLine lv c.r.asid fun y => (addOp y o).1)
    let s ← st
    raiseAtomic (dieOf s.cur) c.r.asid (addOp l o).2
  | none =>
    if decide (8 ≤ c.lines.length) then ninthLine o va
    else
      modMe fun x =>
        { x with lines := x.lines ++ [{ va := lv, asid := x.r.asid, faulted := none, age := q, queued := none, ops := [o] }] }

/-- A fresh ownership request for every FAULTED line (R153). -/
def replayLines : M s0 Unit := do
  modMe fun x =>
    { x with
      replay := x.replay.filter fun p => p != x.r.pc, replayNow := false
      lines := x.lines.map fun l => { l with faulted := none } }
  let s ← st
  drainStores s.cur

/-! ### Loads -/

/-- The strand's own stores to the aligned 8 bytes that hold an address, oldest first. -/
def Ctx.ownOps (c : Ctx) (va : Word) : List SOp :=
  let lv := lineOf va
  ((c.lines.filter fun l => l.va == lv && l.asid == c.r.asid).flatMap (·.ops)).filter fun o =>
    o.off / 8 == va.toNat % 256 / 8

/-- Every byte is the strand's own stored data, so that a load hits it (R151). -/
def Ctx.covered (c : Ctx) (va : Word) (n : Nat) : Bool := stored (c.ownOps va) (va.toNat % 256) n

/-- A read of poisoned data becomes a pending error (R355). -/
def pendPoison (addr : Word) : M s0 Unit := do
  let n ← freshSeq
  let s ← st
  pendError s.cur { cause := .poison, tval := addr, engine := false, seq := n }

/-- The aligned 8 bytes of near memory that hold an address, as a strand reads them: of a counter word, V at its home (R149, R175,
R208); of a line that L1 or L2 holds by a lease that reaches the strand's time, the held version; else the present one, with a
new lease (R159). -/
def readHome (va : Word) (pa : Nat) (hit l2 : Bool) : M s0 (List Byte) := do
  let s ← st
  let asid := (s.ctx s.cur).r.asid
  let die := dieOf s.cur
  let key := s.keyOf die asid va pa
  if (s.leafOf die asid va pa).any fun e => leafK e.leaf then
    if !s.linkUp pa then noteDown pa
    readCtr s.cur (.home (pa - pa % 8))
    return natBytes 8 (s.homeV (pa - pa % 8)).toNat
  else
    match if hit || l2 then s.heldVersion va l2 else none with
    | some x =>
      upd (.times (s.times.reach (some s.cur) (max (s.pts s.cur) x.wts)))
      return (List.drop (va.toNat % 256 / 8 * 8) x.bytes).take 8
    | none =>
      renewLine s.cur pa
      readNear s.cur die (pa - pa % 8) 8 key

/-- Memory of another device is poisoned, or behind a link of it that is down: what that device answers is open (R355, R383). -/
def farPoison (ops : List SOp) (va : Word) (n : Nat) : M s0 Bool := do
  if stored ops (va.toNat % 256) n then return false
  let i ← choose 2
  return i = 1

/-- The value of one element at its place, and its address when one of its bytes is poisoned (R354, R355). A counter word of
another device that the strand's own tables show as one is read at its home (R175, R208). An atomic reads the present value
(R170). -/
def loadPlace (va : Word) (n : Nat) (p : LPlace) (hit l2 atomic : Bool) : M s0 (Nat × Option Word) := do
  let s ← st
  let c := s.ctx s.cur
  let core := coreOf s.cur
  match p with
  | .loc addr =>
    let bad := (List.range n).find? fun i => s.lsPoisoned core (addr + i)
    return (bytesNat (s.lsBytes core addr n), bad.map fun _ => va)
  | .phys pa =>
    if isConfig pa then
      match cfgRegAt pa with
      | none => trap .xlate va
      | some r =>
        if !r.readable then trap .xlate va
        else if !r.guard.admits c.r.mode then trap .priv c.ir
        else
          let v ← cfgRead r
          startTime s.cur
          return (v.toNat, none)
    else
      let key := s.keyOf (dieOfCore core) c.r.asid va pa
      let bs ← if atomic then readKeyed (pa - pa % 8) 8 key else readHome va pa hit l2
      let own := c.ownOps va
      let kept := (hit || l2) && (s.heldVersion va l2).isSome
      let counter := (s.leafOf (dieOfCore core) c.r.asid va pa).any fun e => leafK e.leaf
      let lost (i : Nat) : Bool := if counter then !s.linkUp pa else s.poisoned (pa + i)
      let bad := if kept then none else (List.range n).find? fun i => lost i && !c.covered (va + wordOf i) 1
      return (chunkPart va n (overlay own (bytesNat bs)), bad.map fun _ => va)
  | .far k =>
    drainFar s.cur
    let s ← st
    let counter := (s.leafAt (dieOfCore core) c.r.asid va p).any fun e => leafK e.leaf
    let bs ← if counter then pure (natBytes 8 (s.farChunk (k / 8)).toNat) else readFar s.cur (k - k % 8) 8
    let lost ← farPoison (c.ownOps va) va n
    let bs := if lost then natBytes 8 0 else bs
    return (chunkPart va n (overlay (c.ownOps va) (bytesNat bs)), if lost then some va else none)
  | .region off =>
    return (chunkPart va n (overlay (c.ownOps va) (bytesNat (s.regionBytes (off - va.toNat % 8) 8))), none)

/-- The value of an element, with its poison and its miss. -/
def readElem (x : Access) (n : Nat) : M s0 (Nat × Bool) := do
  match x.place with
  | none =>
    let c ← myCtx
    return (chunkPart x.va n (overlay (c.ownOps x.va) 0), false)
  | some p =>
    let (v, bad) ← loadPlace x.va n p x.hit x.l2 false
    match bad with
    | some a => pendPoison a
    | none => pure ()
    let m ← touchL1 x n
    return (v, m)

/-- The checks of a load of elements of n bytes at ascending element numbers: ALIGN, then LSPROT or translation. Elements that
are the strand's own stored data have no place to read. -/
def checkLoad (sp : Space) (vas : List Word) (n : Nat) (plain : Bool) : M s0 (List Access) := do
  afterSignal
  checkAlign vas n
  match sp with
  | .loc => checkLocal vas n true false
  | .global =>
    let s ← st
    drainStores s.cur
    let c ← myCtx
    let xs ← checkGlobal (vas.filter fun va => !c.covered va n) n .load plain
    return vas.filterMap fun va =>
      if c.covered va n then some { va := va, place := none, hit := true, l2 := false } else xs.find? fun x => x.va == va

def readElems (n : Nat) : List Access → M s0 (List Nat × Bool)
  | [] => return ([], false)
  | x :: r => do
    let (v, m) ← readElem x n
    let (vs, m') ← readElems n r
    return (v :: vs, m || m')

/-- Loads of elements of n bytes in ascending element order, and whether one of them missed L1. -/
def loadMany (sp : Space) (vas : List Word) (n : Nat) (plain : Bool) : M s0 (List Nat × Bool) := do
  let xs ← checkLoad sp vas n plain
  waitLease xs
  readElems n xs

/-- Some other agent can access a space meanwhile: an engine, or for global memory another strand or a job of another device. -/
def State.othersAct (s : State) (sp : Space) : Bool :=
  s.frescos.any (fun p => !p.2.cmds.isEmpty) || s.stencils.any (fun p => p.2.entries.any fun e => e.2.st == .running) ||
  (sp == .global && (s.ctxs.any (fun p => p.1 != s.cur && (p.2.phase.alive || !p.2.lines.isEmpty)) ||
    !s.glaze.nreds.isEmpty || !s.glaze.redus.isEmpty || !s.glaze.nsends.isEmpty || !s.glaze.msgs.isEmpty ||
    !s.glaze.lates.isEmpty || !s.stor.isEmpty || s.dies.any fun d => (List.range 64).any fun i =>
      (s.access d.1 0 (masterJob i)).getLsbD 63))

/-- The elements of a VLD one by one: another agent's access may fall between two of them (R158). -/
def readPart (sp : Space) (n : Nat) (vals : List Nat) (miss : Bool) : List Access → M s0 (List Nat × Bool)
  | [] => return (vals, miss)
  | x :: r => do
    waitLease (x :: r)
    let (v, m) ← readElem x n
    let s ← st
    if !r.isEmpty && s.othersAct sp then
      modMe fun y =>
        { y with prog := { y.prog with part := some { vals := vals ++ [v], miss := miss || m, rest := r } } }
      let i ← choose 2
      if i = 1 then stop .stall
    readPart sp n (vals ++ [v]) (miss || m) r

/-- The loads of a VLD, which goes on where it stood. -/
def loadVec (sp : Space) (vas : List Word) (n : Nat) : M s0 (List Nat × Bool) := do
  let c ← myCtx
  match c.prog.part with
  | some p => readPart sp n p.vals p.miss p.rest
  | none =>
    let xs ← checkLoad sp vas n false
    readPart sp n [] false xs

/-! ### Stores and REDs -/

/-- A store of the strand: its address, value and bytes. -/
structure Put where
  va : Word
  val : Nat
  size : Nat
  deriving DecidableEq, Repr

def Put.mk1 (n : Nat) (p : Word × Nat) : Put := { va := p.1, val := p.2, size := n }

/-- One global store has entered the store buffer (R152). -/
def madeOne : M s0 Unit := modMe fun x => { x with prog := { x.prog with made := x.prog.made + 1 } }

/-- The stores that have not entered the store buffer yet enter it one by one. -/
def enqueueAll (red : Option AOp) (byST : Bool) : List Put → M s0 Unit
  | [] => pure ()
  | p :: r => do
    enqueue p.va p.size (wordOf p.val) red byST
    madeOne
    enqueueAll red byST r

/-- Global stores of one instruction in program order: a store that stalls in place goes on where it stood. Addresses that the
instruction takes from registers are checked at issue (R138). -/
def storeSeq (ps : List Put) (red : Option AOp) (byST held : Bool) : M s0 Unit := do
  checkAligned (ps.map fun p => (p.va, p.size))
  match minWord ((ps.map (·.va)).filter fun a => !canonical a && !held) with
  | some a => trap .xlate a
  | none => pure ()
  let c ← myCtx
  match ps with
  | [p] =>
    if byST && p.size = 8 then
      if ← configStore p.va (wordOf p.val) then return ()
    enqueueAll red byST (ps.drop c.prog.made)
  | _ => enqueueAll red byST (ps.drop c.prog.made)

/-- One local store or RED at its core's port (R165). -/
def localPut (red : Option AOp) (p : Put) : M s0 Unit := do
  let s ← st
  let core := coreOf s.cur
  let n := p.size
  noteUnseen s.cur false (lsKey core p.va.toNat) ((List.range n).map fun i => s.lsRaw core (p.va.toNat + i))
  match red with
  | none => writeLsFor (s.gangOf s.cur) core p.va.toNat (natBytes n p.val)
  | some op =>
    if !(List.range n).any fun i => s.lsPoisoned core (p.va.toNat + i) then
      let (w, fl) := aopApply op (8 * n) (bytesNat (s.lsBytes core p.va.toNat n)) (p.val % 2 ^ (8 * n))
      writeLsFor (s.gangOf s.cur) core p.va.toNat (natBytes n w)
      raiseAtomic (dieOf s.cur) (s.ctx s.cur).r.asid fl

/-- Local stores one by one: an engine's access may fall between two of them (R158). -/
def localPuts (red : Option AOp) : List Put → M s0 Unit
  | [] => pure ()
  | p :: r => do
    localPut red p
    let s ← st
    if !r.isEmpty && s.othersAct .loc then
      madeOne
      let i ← choose 2
      if i = 1 then stop .stall
    localPuts red r

/-- The stores of elements of n bytes, in ascending element order. -/
def storeMany (sp : Space) (elems : List (Word × Nat)) (n : Nat) (red : Option AOp) (byST : Bool) : M s0 Unit := do
  afterSignal
  match sp with
  | .global => storeSeq (elems.map (Put.mk1 n)) red byST false
  | .loc =>
    checkAlign (elems.map (·.1)) n
    let _ ← checkLocal (elems.map (·.1)) n false true
    let c ← myCtx
    localPuts red ((elems.map (Put.mk1 n)).drop c.prog.made)

/-! ### Atomic read-writes (R170, R395, R402) -/

/-- What is left of a FAULTED store outside the bytes lo to hi - 1. -/
def SOp.without (o : SOp) (lo hi : Nat) : List SOp :=
  if o.off + o.size ≤ lo || hi ≤ o.off then [o]
  else
    (if o.off < lo then [{ o with size := lo - o.off }] else []) ++
    (if hi < o.off + o.size then
      [{ o with off := hi, size := o.off + o.size - hi, data := wordOf (o.val / 2 ^ (8 * (hi - o.off))) }]
     else [])

/-- The bytes of a line that an atomic on some of them settles: those of every RED of the strand's FAULTED data that meets them as
well. Aligned operands nest, so the widest one counts. -/
def settleSpan (ops : List SOp) (off n : Nat) : Nat × Nat :=
  ops.foldl
    (fun r o => if o.red.isSome && decide (o.off < r.1 + r.2) && decide (r.1 < o.off + o.size) then
      (min o.off r.1, max o.size r.2) else r)
    (off, n)

/-- The strand's own FAULTED data of some bytes is its data no more. -/
def dropOwn (va : Word) (off n : Nat) : M s0 Unit := do
  let c ← myCtx
  modMe (onLine (lineOf va) c.r.asid fun l => { l with ops := l.ops.flatMap fun o => o.without off (off + n) })
  modMe fun x => { x with lines := x.lines.filter fun l => !l.ops.isEmpty }

/-- The strand's own FAULTED stores and REDs on the bytes of an atomic take effect before it, in program order (R162, R164): they are
performed with it. `read` gives the aligned 8 bytes, `write` takes the offset from them and the bytes to write. Poisoned bytes
under a RED stay as they are. -/
def settleOwn (va : Word) (n : Nat) (poisoned : Nat → Bool) (read : M s0 (List Byte)) (write : Nat → List Byte → M s0 Unit) :
    M s0 Unit := do
  let s ← st
  let c := s.ctx s.cur
  let ops := c.ownOps va
  let (off, k) := settleSpan ops (va.toNat % 256) n
  let meets := ops.any fun o => decide (o.off < off + k) && decide (off < o.off + o.size)
  if meets && (List.range k).all fun i => !poisoned (off % 8 + i) || stored ops (off + i) 1 then
    let bs ← read
    let v := overlay ops (bytesNat bs)
    write (off % 8) ((natBytes 8 v |>.drop (off % 8)).take k)
    raiseAtomic (dieOf s.cur) c.r.asid (overlayFlags ops (bytesNat bs))
    dropOwn va off k

/-- One indivisible read-write: the old value, and whether it missed L1. `f` gives the new value, if one is written, and
the flags. Poisoned data reads zero and nothing is written (R355, R396). -/
def atomicOne (sp : Space) (va : Word) (n : Nat) (f : Nat → Option Nat × Flags) : M s0 (Nat × Bool) := do
  afterSignal
  checkAlign [va] n
  let s ← st
  let core := coreOf s.cur
  match sp with
  | .loc =>
    let _ ← checkLocal [va] n true true
    let (old, bad) ← loadPlace va n (.loc va.toNat) false false true
    match bad with
    | some a =>
      pendPoison a
      return (old, false)
    | none =>
      let (new, fl) := f old
      match new with
      | some v =>
        noteUnseen s.cur false (lsKey core va.toNat) ((List.range n).map fun i => s.lsRaw core (va.toNat + i))
        writeLsFor (s.gangOf s.cur) core va.toNat (natBytes n v)
      | none => pure ()
      raiseFlags fl
      return (old, false)
  | .global =>
    drainStores s.cur
    let xs ← checkGlobal [va] n .atomic false
    waitLease xs
    match xs with
    | [x] =>
      match x.place with
      | some (.phys pa) =>
        let c ← myCtx
        let key := s.keyOf (dieOfCore core) c.r.asid va pa
        let base := pa - pa % 8
        if !(c.ownOps va).isEmpty then
          settleOwn va n (fun i => s.poisoned (base + i)) (readKeyed base 8 key) fun i bs => writeKeyed (base + i) bs key
        let (old, bad) ← loadPlace va n (.phys pa) false false true
        match bad with
        | some a =>
          pendPoison a
          let miss ← touchL1 x n
          return (old, miss)
        | none =>
          let (new, fl) := f old
          match new with
          | some v =>
            let s ← st
            noteUnseen s.cur true pa (s.physBytes pa n)
            noteWord pa
            writeKeyed pa (natBytes n v) key
          | none => pure ()
          stampLines (some s.cur) pa n
          raiseFlags fl
          let miss ← touchL1 x n
          return (old, miss)
      | some (.far k) =>
        let c ← myCtx
        if !(c.ownOps va).isEmpty then
          drainFar s.cur
          settleFar (k - k % 8) 8
          let t ← st
          settleOwn va n (fun _ => false) (pure (natBytes 8 (t.farChunk (k / 8)).toNat)) fun i bs =>
            writeFarHome s.cur (k - k % 8 + i) bs
        let c ← myCtx
        if ← farPoison (c.ownOps va) va n then
          pendPoison va
          return (0, true)
        let old ← farApply s.cur k n fun old => (f old).1
        raiseFlags (f old).2
        return (old, true)
      | some (.region off) =>
        let (old, _) ← loadPlace va n (.region off) true false true
        match (f old).1 with
        | some v => writeRegion off (natBytes n v)
        | none => pure ()
        raiseFlags (f old).2
        return (old, false)
      | _ => return (0, false)
    | _ => return (0, false)

/-! ### Leases (R172 to R174) -/

/-- The stores that a holder has made during its leases come before the accesses that wait for their end (R172). -/
def settleHolder (a : Nat) : M s0 Unit := do
  let s ← st
  if !(s.ctx a).lines.isEmpty && (s.ctx a).leases.any (·.live) then
    let _ ← tryDrain a
    pure ()

/-- Every lease of a context ends; UNLEASE then finds none, or one that a save ended. -/
def endLeases (a : Nat) (keep : Bool) : M s0 Unit := do
  settleHolder a
  let s ← st
  let ls := (s.ctx a).leases
  modCtx a fun x => { x with leases := if keep then ls.map fun l => { l with live := false } else [] }
  for l in ls do
    if l.live then wakeLine l.line

end Sys2Proof.Machine
end

