-- ==== Sys2Proof/Machine/Gang.lean ====
section
/-! DEFINITION. Engine operations in flight, the end of a strand, and the supersteps of a gang: commit, rollback and failure
(R77 to R79, R210, R293 to R299). -/

namespace Sys2Proof.Machine

open Sys2Proof

variable {s0 : State}

/-! ### Engine operations in flight (R184) -/

/-- The operation was issued by the strand that the context holds, or held last. -/
def State.ofCtx (s : State) (a : Nat) (b : Issuer) : Bool := b.agent == a && b.life == (s.ctx a).life

/-- Suspended transfers of an issuer end without a signal (R297). -/
def cancelSuspended (f : Issuer → Bool) : M s0 Unit := do
  let s ← st
  for (n, x) in s.stencils do
    upd (.stencil n
      { x with
        entries := x.entries.map fun e =>
          if e.2.st == .suspended && f e.2.by_ then (e.1, { e.2 with st := .done, cause := 8 }) else e })

/-! ### The end of a strand -/

/-- Pending errors that a strand still holds when it ends become FAULT records (R356). -/
def recordPending (a : Nat) : M s0 Unit := do
  let s ← st
  let x := s.ctx a
  for p in x.pend do
    reportCtx a .fault x.r.index.toNat p.tval (causeWord p.cause)
  modCtx a fun x => { x with pend := [] }

/-- A SPAWN that its strand abandons leaves the order of its level (R72, R459). -/
def abandonSpawn (a : Nat) : M s0 Unit := do
  let s ← st
  match (s.ctx a).wait with
  | some w =>
    match w.kind with
    | .spawn r =>
      modDie (dieOf a) fun d =>
        let q := d.queue r.prio.toNat
        { d with queues := TMap.put d.queues r.prio.toNat { q with waiting := q.waiting.filter fun b => b != a } }
    | _ => pure ()
  | none => pure ()

/-- A strand ends without the release of EXIT (R298, R360, R361). -/
def abandon (a : Nat) : M s0 Unit := do
  abandonSpawn a
  leaveQueue a
  endLeases a false
  recordPending a
  let s ← st
  let was := (s.ctx a).phase
  modCtx a fun x => { x with prog := Progress.none, wait := none, gang := none }
  if was == .running then switchOut a .draining
  else modCtx a fun x => { x with phase := .draining }

/-! ### The ingress units at the end of a step (R293, R294) -/

/-- A write of a Glaze node: a fault is logged at its palette die (R285, R286). -/
def glazeWrite (q : Req) (agent : Nat) (va : Word) (bs : List Byte) : M s0 Unit := do
  match ← writeRange q agent va bs with
  | .ok _ => pure ()
  | .error (c, a) => logEvent q.die .fault 0 agent a (causeWord c)

/-- The order of FP32 scores: NaN last, the zeros equal. -/
def scoreKey (b : Nat) : Int :=
  if 0x7F800000 < b % 2 ^ 31 then -(2 ^ 33 : Int) else if b < 2 ^ 31 then (b : Int) else -((b % 2 ^ 31 : Nat) : Int)

def insertScore (x : Int × Nat) : List (Int × Nat) → List (Int × Nat)
  | [] => [x]
  | y :: r => if y.1 < x.1 then x :: y :: r else y :: insertScore x r

/-- Experts by score descending, ties by ascending index (R294). -/
def scoreOrder (scores : List Nat) : List Nat :=
  (scores.zipIdx.foldl (fun l p => insertScore (scoreKey p.1, p.2) l) []).map (·.2)

/-- Some bank of the cluster holds the expert (R294). -/
def State.resident (s : State) (cluster expert : Nat) : Bool :=
  (s.fresco cluster).banks.any fun b => b.2.valid && b.2.expert.toNat == expert

/-- A route table in the words of its header and entries. -/
structure RouteTab where
  head : List Word
  ents : List (List Word)

def RouteTab.h (t : RouteTab) (i : Nat) : Word := t.head.getD i 0

def RouteTab.e (t : RouteTab) (j i : Nat) : Word := (t.ents.getD j []).getD i 0

/-- The picks of one token: experts in order of score while K are not taken, with the rows that they get. -/
def pickExperts (tab : RouteTab) (res : Nat → Bool) (order : List Nat) (used : TMap Nat) :
    List (Nat × Nat) × TMap Nat :=
  order.foldl
    (fun acc j =>
      let u := TMap.get 0 acc.2 j
      if acc.1.length < field (tab.h 0) 8 8 && res j && decide (u < field (tab.e j 2) 0 32) then
        (acc.1 ++ [(j, u)], TMap.put acc.2 j (u + 1))
      else acc)
    ([], used)

/-- The routing record of a token (R294). -/
def routeRecord (sender : BitVec 32) (token group : Nat) (picks : List (Nat × Nat)) (resid : Bool) : List Word :=
  let slotWord (lo : Nat) : Nat :=
    (((picks.drop lo).take 4).zipIdx.map fun p => p.1.2 % 2 ^ 16 * 2 ^ (16 * p.2)).sum
  let names := ((List.range 8).map fun i => ((picks[i]?).map (·.1)).getD 0xFF * 2 ^ (8 * i)).sum
  [wordOf (sender.toNat * 2 ^ 32 + token), wordOf names, wordOf (slotWord 0),
   wordOf (slotWord 4) ||| wordOf ((if resid then 2 ^ 63 else 0) + group * 2 ^ 48)]

/-- Assignment of one staged record. -/
def routeToken (q : Req) (agent : Nat) (tab : RouteTab) (used : TMap Nat) (n : Nat) (t : Token) : M s0 (TMap Nat) := do
  let s ← st
  let rb := field (tab.h 0) 32 32
  let epg := field (tab.h 0) 0 4
  let w0 := bytesNat (t.bytes.take 8)
  let scores := (List.range epg).map fun j => bytesNat ((t.bytes.drop (8 + 4 * j)).take 4)
  let row := (t.bytes.drop 64).take rb
  let res (j : Nat) : Bool := s.resident (field (tab.e j 2) 40 8) (field (tab.e j 2) 48 16)
  let (picks, used) := pickExperts tab res (scoreOrder scores) used
  for (j, u) in picks do
    glazeWrite q agent (tab.e j 0 + wordOf (u * rb)) row
  let resid := decide (picks.length < field (tab.h 0) 8 8)
  if resid then
    glazeWrite q agent (tab.h 2 + wordOf (n * rb)) row
  glazeWrite q agent (tab.h 1 + wordOf (32 * n))
    (wordsBytes (routeRecord t.sender (w0 % 2 ^ 32) (w0 / 2 ^ 32 % 2 ^ 8) picks resid))
  return used

/-- Ascending sender INDEX, then TOKEN. -/
def tokenBefore (a b : Token) : Bool :=
  let k (t : Token) : Nat := t.sender.toNat * 2 ^ 32 + bytesNat (t.bytes.take 4)
  decide (k a < k b)

def insertToken (x : Token) : List Token → List Token
  | [] => [x]
  | y :: r => if tokenBefore x y then x :: y :: r else y :: insertToken x r

/-- One table of a set with its staged records, at the STEP that closes the step: of all eight entries USED and the ROWS of SHAPE are
written, and NROUTED. -/
def routeTable (r : RouteSet) (table : Word) (ts : List Token) : M s0 Unit := do
  let q : Req := { die := r.die, asid := r.asid, user := false, master := masterGlaze r.die }
  let agent := 25472 + r.die
  match ← readWords q agent table 40 with
  | .error (c, a) => logEvent r.die .fault 0 agent a (causeWord c)
  | .ok ws =>
    let tab : RouteTab := { head := ws.take 8, ents := (List.range 8).map fun j => (ws.drop (8 + 4 * j)).take 4 }
    let mut used : TMap Nat := []
    let mut n := 0
    for x in ts.foldl (fun l x => insertToken x l) [] do
      used ← routeToken q agent tab used n x
      n := n + 1
    for j in List.range 8 do
      let u := TMap.get 0 used j
      glazeWrite q agent (table + wordOf (64 + 32 * j + 24)) (natBytes 8 (u * 2 ^ 32))
      glazeWrite q agent (tab.e j 1) (natBytes 4 u)
    glazeWrite q agent (table + 40) (natBytes 8 n)

/-- The operation that the ingress units' writes for a launch are, and its owner: no strand's. -/
def ingressOp (launch : Nat) : Nat := 2 ^ 39 + launch

def actIngress (launch : Nat) : M s0 Unit := upd (.eop (2 ^ 39) (ingressOp launch))

/-- The ingress writes of a gang's step: every table of the sets that its records have named. DESIGN CHOICE (log 75): a set's tables
are those up to the highest GROUP that a record of the launch has named; the spec does not say how an ingress knows how many
tables a set has. The STEP completes only after the writes. -/
def routeStep (k : Nat) : M s0 Unit := do
  let s ← st
  let mine := (s.glaze.tokens.map (·.2)).filter fun t => t.launch == k
  match TMap.find s.launches k with
  | none => pure ()
  | some l =>
    actIngress k
    for r in l.routes.filter (·.used) do
      for g in List.range r.groups do
        let table := r.base + wordOf (320 * g)
        routeTable r table (mine.filter fun t => t.die == r.die && t.base == r.base && t.table == table)
    showEngines fun e => e.op == ingressOp k
    drainEngineFar fun p => p.op == ingressOp k
    let s ← st
    upd (.glaze { s.glaze with tokens := s.glaze.tokens.filter fun p => p.2.launch != k })

/-- The records of a step are gone from the ingress units. -/
def Launch.routesClosed (l : Launch) : Launch := { l with routes := l.routes.map fun r => { r with used := false } }

/-! ### Commit (R77, R210) -/

/-- The strands of a gang that have not ended. -/
def State.gangLive (s : State) (k : Nat) : List Nat :=
  (s.ctxs.filter fun p => p.2.phase.alive && p.2.gang.any fun g => g.launch == k).map (·.1)

/-- Every strand of the launch has been placed, and each is at its STEP or has ended (R77, R78); no token record is on its
way to an ingress (R294). -/
def State.gangArrived (s : State) (k : Nat) : Bool :=
  match TMap.find s.launches k with
  | none => false
  | some l =>
    l.perDie.length == 8 && (l.perDie.all fun p => p.2.todo.isEmpty) && !l.rollDue &&
    (s.glaze.tokens.all fun p => p.2.launch != k || p.2.staged) &&
    (s.gangLive k).all fun a => (s.ctx a).gang.any (·.arrived)

/-- The order of the held adds: ascending agent number, then program order. -/
def insertHeld (x : HeldAdd) : List HeldAdd → List HeldAdd
  | [] => [x]
  | y :: r =>
    if x.agent < y.agent || (x.agent == y.agent && decide (x.seq < y.seq)) then x :: y :: r else y :: insertHeld x r

/-- Where the adds of a strand of a launch that has ended are reported (R207). -/
def State.launchErr (s : State) (k die : Nat) : Option (Req × Word × BitVec 16) :=
  (TMap.find s.launches k).map fun l => (seqReq die l.asid, l.err, l.num)

/-- A held add is applied (R195, R196, R207). -/
def commitAdd (h : HeldAdd) : M s0 Unit := do
  let s ← st
  let r ← addRaw h.ctr h.amount h.gen none
  carry (if isEngine h.agent then opKey h.seq else h.agent) h.ctr
  if r.stale then
    reportStale h.ctr h.ref (h.gen.getD 0)
      { Adder.party h.agent with
        ctx := h.ctx.filter fun a => (s.ctx a).phase.alive && (s.ctx a).life == h.life
        err := s.launchErr h.launch ((h.ctx.map dieOf).getD 0) }
  if r.overflow then reportOverflow h.ctr h.ref h.amount h.agent

/-- The step closes: adds, ingress writes, new journals, checkpoints; every strand that waits at its STEP goes on. -/
def gangCommit (k : Nat) : M s0 Unit := do
  let s ← st
  let mine := (s.held.filter fun h => h.launch == k).foldl (fun l h => insertHeld h l) []
  upd (.held (s.held.filter fun h => h.launch != k))
  for h in mine do
    commitAdd h
  routeStep k
  let s ← st
  match TMap.find s.launches k with
  | some l =>
    upd (.launch k
      { l.routesClosed with journal := [], unrepeatable := false, step := l.step + 1, rollbacks := 0, ended := [] })
  | none => pure ()
  let s ← st
  for a in s.gangLive k do
    modCtx a fun x =>
      let at_ : Word := x.r.pc + (if x.irExt.isSome then 16 else 8)
      { x with
        gang := x.gang.map fun g =>
          { g with
            step := g.step + 1, arrived := false, checkpoint := { x.r with pc := at_ }
            err := { addr := x.errAddr, ovf := x.ovf, stale := x.stale } } }
    wakeCtx a (some .stepped)

/-- A change that may have completed the arrival of a gang. DESIGN CHOICE (log 80): a step in which every strand of the gang EXITs has
no STEP that closes it, and the adds held for it are never applied; the spec does not say what becomes of them. -/
def gangCheck (k : Nat) : M s0 Unit := do
  let s ← st
  if s.gangArrived k && !(s.gangLive k).isEmpty then gangCommit k

/-! ### Failure and rollback (R297, R298) -/

/-- STEPFAIL: every strand of the gang ends. -/
def gangFail (k : Nat) : M s0 Unit := do
  let s ← st
  match TMap.find s.launches k with
  | none => pure ()
  | some l =>
    let live := s.gangLive k
    let die := match live with | a :: _ => dieOf a | [] => 0
    let who ← openWord
    let addr ← openWord
    let detail ← openWord
    writeRecord (seqReq die l.asid) (25472 + die) l.err .stepfail l.num who.toNat addr detail
    upd (.held (s.held.filter fun h => h.launch != k))
    upd (.glaze { s.glaze with tokens := s.glaze.tokens.filter fun p => p.2.launch != k })
    upd (.launch k
      { l.routesClosed with
        journal := [], rollDue := false, gang := false, ended := []
        perDie := l.perDie.map fun p => (p.1, { p.2 with todo := [] }) })
    for a in live do
      abandon a

/-- A strand restarts at its checkpoint with the state of it (R79), a strand that has ended since as well; what it had not yet
stored is gone, and it executes it again. -/
def restartAt (a : Nat) (g : GangMember) : M s0 Unit := do
  leaveQueue a
  endLeases a true
  modCtx a fun x =>
    { x with
      r := g.checkpoint
      phase := if x.phase == .running then .running else .ready
      wait := none
      prog := Progress.none
      handler := 0
      pend := []
      errAddr := g.err.addr
      ovf := g.err.ovf
      stale := g.err.stale
      lines := []
      replay := []
      replayNow := false
      straight := false
      join := none
      start := none
      gang := some { g with arrived := false } }
  startScan (coreOf a)

/-- The journaled blocks take their old bytes. -/
def restoreJournal (l : Launch) : M s0 Unit := do
  for (key, b) in l.journal do
    for (x, i) in (b.bytes.zip b.bad).zipIdx do
      upd (.lsByte (lsKey (key / 2048) (256 * (key % 2048) + i)) x.1)
      if x.2 then upd (.lsPoison (lsKey (key / 2048) (256 * (key % 2048) + i)))

/-- Forwarded instructions of the gang's contexts leave the followers' streams. -/
def cutStreams (k : Nat) : M s0 Unit := do
  let s ← st
  for (n, c) in s.cores do
    match c.trace with
    | .follower l j q =>
      upd (.core n
        { c with trace := .follower l j (q.filter fun f => !(s.gangLive k).contains (16 * n + f.ctx)) })
    | .none => pure ()

/-- A rollback that is due: it waits until the gang's engine operations and stores have drained, those of strands that have ended in
the open step as well. -/
def gangRollback (k : Nat) : M s0 Unit := do
  let s ← st
  match TMap.find s.launches k with
  | none => pure ()
  | some l =>
    if l.unrepeatable || decide (3 ≤ l.rollbacks) then gangFail k
    else
      let live := s.gangLive k
      let all_ := live ++ l.ended.map (·.1)
      if !s.engineBusy false fun b => all_.contains b.agent && s.ofCtx b.agent b then
        for a in all_ do
          drainStores a
          drainFar a
        cancelSuspended fun b => all_.contains b.agent && s.ofCtx b.agent b
        cutStreams k
        restoreJournal l
        let s ← st
        upd (.held (s.held.filter fun h => h.launch != k))
        upd (.glaze { s.glaze with tokens := s.glaze.tokens.filter fun p => p.2.launch != k })
        upd (.launch k { l.routesClosed with journal := [], rollbacks := l.rollbacks + 1, rollDue := false })
        for a in live do
          let s ← st
          match (s.ctx a).gang with
          | some g => restartAt a g
          | none => pure ()
        for (a, g) in l.ended do
          restartAt a g
        let s ← st
        match TMap.find s.launches k with
        | some l => upd (.launch k { l with ended := [] })
        | none => pure ()

/-- The strand that a context held last has ended in the open step of its gang, whose other strands go on: a rollback restarts it there,
so the context keeps its place until the step closes (R79, R297). -/
def State.keptEnded (s : State) (a : Nat) : Bool :=
  (s.ctx a).owner.any fun k =>
    (TMap.find s.launches k).any (fun l => (TMap.find l.ended a).isSome) && !(s.gangLive k).isEmpty

/-- A strand of a gang whose rollback is due has halted (R297). -/
def State.rollDueOf (s : State) (a : Nat) : Option Nat :=
  match (s.ctx a).gang with
  | some g => if (TMap.find s.launches g.launch).any (·.rollDue) then some g.launch else none
  | none => none

/-! ### Signals and errors of engine operations (R187, R207, R356) -/

/-- An error of an engine operation: pending in its strand; of a strand that has ended, a FAULT record where the issuer says. What
an issuer on another device records is its own device's. -/
def enginePend (b : Issuer) (c : Cause) (tval : Word) : M s0 Unit := do
  let s ← st
  if 25088 ≤ b.agent then pure ()
  else if (s.ctx b.agent).life == b.life && (s.ctx b.agent).phase.alive then
    pendError b.agent { cause := c, tval := tval, engine := true, seq := b.seq }
  else
    match b.err with
    | some (err, asid, launch) =>
      writeRecord (seqReq (dieOf b.agent) asid) b.agent err .fault launch b.index.toNat tval (causeWord c)
    | none => logEvent (dieOf b.agent) .fault 0 b.index.toNat tval (causeWord c)

/-- The gang of the strand that issued an operation (R210). -/
def State.issuerGang (s : State) (b : Issuer) : Option Nat :=
  b.launch.filter fun k => (TMap.find s.launches k).any (·.gang)

/-- Who makes the adds of an operation of a strand. -/
def State.engineAdder (s : State) (b : Issuer) (agent : Nat) : Adder where
  agent := agent
  ctx := if (s.ctx b.agent).life == b.life && (s.ctx b.agent).phase.alive then some b.agent else none
  err := b.err.map fun e => (seqReq (dieOf b.agent) e.2.1, e.1, e.2.2)
  gang := s.issuerGang b
  order := some b.seq
  silent := false

/-- An engine acquires the fork at its scope (R185): at system scope no stale far line serves it any more. -/
def engineAcquire (agent : Nat) (sc : Scope) : M s0 Unit := do
  if sc == .system then acquireFar agent

/-- A release at a scope by an engine operation's signal: at device and system scope the writes of near memory that it has made or
joined are visible on every die, at system scope those of far memory are performed (R177, R187, R188). -/
def engineRelease (op : Nat) (sc : Scope) : M s0 Unit := do
  let s ← st
  addJoins (2 * opKey op) [{ op := op, upTo := s.seq }]
  let s ← st
  if sc != .group then showEngines fun e => e.op == op || s.joined (opKey op) e.op e.num
  if sc == .system then drainEngineFar fun p => p.op == op || s.joined (opKey op) p.op p.num

/-- A message of a job that the network interface does not map is dropped and logged, under a code that the spec does not name
(R373). -/
def dropUnmapped (die agent : Nat) (addr : Word) : M s0 Unit := do
  let d ← openWord
  let code ← choose 13
  logEvent die (recCodeOf code) 0 agent addr d

/-- The completion signal of an operation, or an add that it makes by a reference. -/
def engineSignal (b : Issuer) (q : Req) (agent : Nat) (g : SigAdd) : M s0 Unit := do
  engineRelease b.seq g.scope
  match ← resolveRef q { rd := false, wr := true } g.ref with
  | .error c => enginePend b c g.ref
  | .ok c =>
    let s ← st
    let _ ← addAt c g.inc (some g.gen) g.ref (s.engineAdder b agent)
    pure ()

/-- The same at a later moment: between an operation's writes and its signal others may read some of its elements and not yet the rest
(R186). The requester is that of the operation's Glaze node or storage client. -/
def signalLater (b : Issuer) (own : Bool) (die agent : Nat) (g : SigAdd) : M s0 Unit := do
  let s ← st
  upd (.owed (s.owed ++ [{ by_ := b, own := own, die := die, agent := agent, sig := g }]))

/-- The Glaze node, or the storage client, that owes a signal, as a requester. -/
def Owed.req (o : Owed) : Req :=
  { die := o.die, asid := o.by_.asid, user := o.by_.user
    master := if o.agent < 25480 then masterGlaze o.die else masterStorage o.die }

/-- The signal of a storage command, which has no strand: dropped with a FAULT record in the die's log (R385, R497). -/
def storageSignal (op : Nat) (q : Req) (agent : Nat) (g : SigAdd) : M s0 Unit := do
  engineRelease op g.scope
  match ← resolveRef q { rd := false, wr := true } g.ref with
  | .error c => logEvent q.die .fault 0 agent g.ref (causeWord c)
  | .ok c =>
    let _ ← addAt c g.inc (some g.gen) g.ref { Adder.party agent with order := some op }
    pure ()

/-- The signal at a place of the list is delivered, after those that its operation owes before. -/
def deliverOwed (n : Nat) : M s0 Unit := do
  let s ← st
  match s.owed[n]? with
  | some o =>
    if !(s.owed.take n).any fun p => p.by_.seq == o.by_.seq then
      upd (.owed (s.owed.eraseIdx n))
      actFor o.by_
      if o.agent < 25480 then engineSignal o.by_ o.req o.agent o.sig else storageSignal o.by_.seq o.req o.agent o.sig
  | none => pure ()

end Sys2Proof.Machine
end

