-- ==== Sys2Proof/Machine/Issue.lean ====
section
/-! DEFINITION. The issue of one instruction: its checks, its wait, its releases and signals, its completion, its traps
(R54, R55, R62, R63, R65, R94, R95, R101, R152, R153, R167). -/

namespace Sys2Proof.Machine

open Sys2Proof

variable {s0 : State}

/-- ILLEGAL, with the base word in sr.tval (R100). -/
def illegal {α : Type} : M s0 α := do
  let c ← myCtx
  trap .illegal c.ir

/-- PRIV, with the base word in sr.tval (R354). -/
def privileged {α : Type} : M s0 α := do
  let c ← myCtx
  trap .priv c.ir

/-- A condition of decoding that depends on the context. -/
def legal (b : Bool) : M s0 Unit := if b then pure () else illegal

/-- A field that names a slot at or above the context's slots raises ILLEGAL (R94). -/
def legalSlot (n : Nat) : M s0 Unit := do
  let c ← myCtx
  legal (decide (n < c.nslots))

/-- A kernel-only instruction. -/
def kernelOnly : M s0 Unit := do
  let c ← myCtx
  if c.r.mode == .user then privileged else pure ()

/-- On an Easel core, or on a compute core, only. -/
def onEasel (b : Bool) : M s0 Unit := do
  let n ← myCore
  legal (isEasel n == b)

/-! ### Signals and waits -/

/-- The counter of a slot for the strand's own request, or the cause with the reference. A read of a counter behind a link that is
down is a poisoned read (R355, R383). -/
def mySlot (n : Nat) (u : CtrUse) : M s0 (Except (Cause × Word) Ctr) := do
  let s ← st
  let ref := (s.slot s.cur n).ref
  match ← slotCtr s.cur n u with
  | .error c => return .error (c, ref)
  | .ok c =>
    match c with
    | .home pa => if u.rd && !s.linkUp pa then pendPoison ref
    | _ => pure ()
    return .ok c

def pushScope (sc : Scope) : M s0 Unit := do
  let a ← me
  pushScopeOf a sc

/-- A signal field's add, a release at its scope (R94, R95, R167). A slot whose reference names no counter any more drops
the add, and the cause becomes a pending error. -/
def deliverSig (sy : Sync) (g : Sig) : M s0 Unit := do
  pushScope sy.scope
  match ← mySlot g.slot.toNat { rd := false, wr := true } with
  | .error (c, ref) =>
    let n ← freshSeq
    let a ← me
    pendError a { cause := c, tval := ref, engine := true, seq := n }
  | .ok c =>
    let s ← st
    let _ ← addAt c g.inc.toNat none (s.slot s.cur g.slot.toNat).ref (s.adder s.cur)
    pure ()

/-- What an engine operation captures of the signal at completion (R207). -/
def captureSig (sy : Sync) : M s0 (Option SigAdd) := do
  let s ← st
  match sy.sig with
  | some g =>
    if g.atIssue then return none
    else
      let sl := s.slot s.cur g.slot.toNat
      return some { ref := sl.ref, gen := sl.gen, inc := g.inc.toNat, scope := sy.scope }
  | none => return none

/-- The issuer of an engine operation, which knows of other operations what the strand knows (R185). -/
def issuer (sy : Sync) : M s0 Issuer := do
  let sig ← captureSig sy
  let n ← freshSeq
  let s ← st
  let c := s.ctx s.cur
  forkJoins s.cur n
  return {
    agent := s.cur, life := c.life, launch := c.owner
    err := (c.owner.bind fun k => TMap.find s.launches k).map fun l => (l.err, l.asid, l.num)
    asid := c.r.asid, user := c.r.mode == .user, seq := n, sig := sig
    slot := match sy.sig with | some g => some g.slot.toNat | none => none
    scope := sy.scope, index := c.r.index }

/-- An acquire at a scope: at system scope stale far lines serve the strand no more (R177, R180). -/
def acquire (sc : Scope) : M s0 Unit := do
  let a ← me
  if sc == .system then
    acquireFar a
    startTime a

/-- A release: every earlier store has its home check, and far writes are performed at system scope. A FAULTED line traps
(R152, R177). DESIGN CHOICE (log 77): so does a release that a trap handler makes in the context of an interrupted strand with a
FAULTED line; R152 says a trap of every release, and its example shows a handler's TBLFENCE without one. -/
def release (sc : Scope) : M s0 Unit := do
  let s ← st
  drainStores s.cur
  let c ← myCtx
  if (oldestFault c.lines).isSome then faultTrap
  pushScope sc

/-- The wait field (R95, R199, R201). The strand's earlier stores come before its counter read (R160); a follower's wait stays
registered while it stalls in place (R202). -/
def waitField (sy : Sync) : M s0 Unit := do
  match sy.wait with
  | none => pure ()
  | some n =>
    let c ← myCtx
    if !c.prog.field then
      match c.wait.filter fun w => w.kind == .field with
      | some w => stop (.wait w)
      | none => pure ()
      let a ← me
      drainStores a
      match ← mySlot n.toNat { rd := true, wr := false } with
      -- DESIGN CHOICE (log 89): the wait is not satisfied while the slot's reference names no counter, and reads again as in R204; a
      -- wait field adds no cause (R390)
      | .error _ => stop (.wait { kind := .field, watches := [], all := false, deadline := none })
      | .ok k =>
        let s ← st
        let w ← mkWatch [] n.toNat k (s.slot s.cur n.toNat).mark
        let s ← st
        if s.satWatch w then
          readWatches s.cur [w]
          refreshGens s.cur [w]
        else stop (.wait { kind := .field, watches := [w], all := false, deadline := none })
    acquire sy.scope
    modMe fun x => { x with prog := { x.prog with field := true } }

/-- The signal at issue (R95). -/
def signalAtIssue (sy : Sync) : M s0 Unit := do
  match sy.sig with
  | some g =>
    let c ← myCtx
    if g.atIssue && !c.prog.sig then
      deliverSig sy g
      modMe fun x => { x with prog := { x.prog with sig := true } }
  | none => pure ()

/-- The signal at completion (R95): it follows the instruction's own operations. -/
def signalAtEnd (sy : Sync) : M s0 Unit := do
  match sy.sig with
  | some g =>
    if !g.atIssue then
      let s ← st
      drainStores s.cur
      deliverSig sy g
  | none => pure ()

/-- The instruction signals at completion. -/
def owesSignal (sy : Sync) : Bool := sy.sig.any fun g => !g.atIssue

/-- The same after its own operations, which are not made again when the signal stalls behind a lease (R167). -/
def signalOwed (sy : Sync) (fin : Fin) : M s0 Unit := do
  if owesSignal sy then
    modMe fun x => { x with prog := { x.prog with fin := some fin } }
    signalAtEnd sy

/-! ### Tracing (R62 to R65) -/

/-- A core that follows runs the stream. -/
def State.isFollower (s : State) (core : Nat) : Bool := (s.core core).trace != .none

/-- The leader hands an instruction to the followers that have joined, but not what a handler executes before its ERET (R63,
R65). DESIGN CHOICE (log 61): instructions of the leader's other contexts are handed on meanwhile; the spec speaks of the
handler's alone. -/
def forward (pc next : Word) : M s0 Unit := do
  let s ← st
  let c := s.ctx s.cur
  if c.handler = 0 then
    for n in s.followers (coreOf s.cur) do
      modCore n fun k =>
        match k.trace with
        | .follower l true q =>
          { k with
            trace := .follower l true (q ++ [{ ctx := s.cur % 16, pc := pc, base := c.ir, ext := c.irExt, next := next }]) }
        | _ => k

/-- A leader 64 instructions ahead of its slowest follower stalls in place (R62). -/
def followersFull : M s0 Bool := do
  let s ← st
  return (s.followers (coreOf s.cur)).any fun n =>
    match (s.core n).trace with
    | .follower _ _ q => decide (64 ≤ q.length)
    | .none => false

/-- A crack address (R325). -/
def isCrack (pc : Word) : Bool := pc.extractLsb' 48 8 == 0xCB

/-- The x registers that NCORR and MSTAT of a strand have yet to write (R163, R246, R448). -/
def State.owedX (s : State) (a : Nat) : List XReg :=
  (s.glaze.ncorrs.filter fun p => s.ofCtx a p.2.by_).map (·.2.d) ++
  s.frescos.flatMap fun p => p.2.cmds.filterMap fun c =>
    match c.instr with
    | .mstat d _ _ _ _ => if s.ofCtx a c.by_ then some d else none
    | _ => none

/-- Nothing of a strand issues while a message is on its way (R446); what names a register that is still to be written stalls in
place (R163), in crack mode every operation, whose template uses them. -/
def resultOwed : M s0 Bool := do
  let s ← st
  let c := s.ctx s.cur
  let owed := s.owedX s.cur
  return (s.glaze.msgs.any fun p => s.ofCtx s.cur p.2.by_) ||
    (!owed.isEmpty &&
      (isCrack c.r.pc || (match decode c.ir c.irExt with | .ok i => i.xregs.any owed.contains | .error _ => true)))

/-- The follower has executed the instruction at the head of its stream. -/
def popStream (core : Nat) : M s0 Unit :=
  modCore core fun k =>
    match k.trace with
    | .follower l j q => { k with trace := .follower l j q.tail }
    | .none => k

/-- A follower that traps leaves the set (R65). -/
def leaveTrace (core : Nat) : M s0 Unit := modCore core fun c => { c with trace := .none }

/-! ### Issue -/

/-- A context between two instructions: none of its instruction's effect on memory has been made while the rest is still owed, and no
answer has completed it. -/
def Progress.boundary (p : Progress) : Bool :=
  p.fin.isNone && p.made == 0 && (match p.ans with | .none | .some (.value _) => true | .some _ => false)

/-- What a wait leaves with others: a die keeps the order of its waiting SPAWNs (R72); a call keeps its ticket. -/
def enterWait (w : Wait) : M s0 Unit := do
  let s ← st
  match w.kind with
  | .sysPark _ => modMe fun x => { x with wait := some w }
  | .spawn r =>
    modDie (dieOf s.cur) fun d =>
      let q := d.queue r.prio.toNat
      { d with queues := TMap.put d.queues r.prio.toNat { q with waiting := q.waiting ++ [s.cur] } }
    modMe fun x => { x with wait := some w }
  | _ => pure ()

/-- The context stops issuing until an event answers its wait; a follower stalls in place, its wait field or CWAIT registered like
any other (R55, R63, R200, R202). A wait that is registered keeps its order. -/
def block (w : Wait) : M s0 Unit := do
  let s ← st
  modMe fun x => { x with prog := { x.prog with deadline := w.deadline } }
  enterWait w
  let follow := s.isFollower (coreOf s.cur)
  if !follow || w.kind == .cwait || w.kind == .field then
    if (s.ctx s.cur).wait != some w then
      let mut ws : List Watch := []
      for y in w.watches do
        let q ← freshSeq
        ws := ws ++ [{ y with seq := q }]
      let w := { w with watches := ws }
      modMe fun x => { x with wait := some w }
    if !follow then switchOut s.cur .waiting

/-- A strand that ends keeps its place in the open step of its gang, which a rollback gives back to it (R79). -/
def keepEnded (a : Nat) (g : GangMember) : M s0 Unit := do
  let s ← st
  match TMap.find s.launches g.launch with
  | some l => upd (.launch g.launch { l with ended := TMap.put l.ended a g })
  | none => pure ()

/-- The strand ends (R50, R80): its context is DRAINING. In a gang it has arrived at every later STEP (R78). -/
def endStrand (a : Nat) : M s0 Unit := do
  leaveQueue a
  recordPending a
  let s ← st
  let gang := (s.ctx a).gang
  modCtx a fun x => { x with prog := Progress.none, wait := none, gang := none }
  match gang with
  | some g => keepEnded a g
  | none => pure ()
  switchOut a .draining
  match gang with
  | some g => gangCheck g.launch
  | none => pure ()

/-- The address after an instruction: a follower's is its leader's (R63). -/
def nextOf (sy : Sync) : M s0 Word := do
  let s ← st
  match s.fwd with
  | some f => return f.next
  | none => return nextPc (s.ctx s.cur).r.pc sy

/-- A trap of the instruction. -/
def takeMyTrap (c : Cause) (deferred : Bool) (epc tval : Word) : M s0 Unit := do
  let s ← st
  leaveQueue s.cur
  if s.isFollower (coreOf s.cur) then
    leaveTrace (coreOf s.cur)
  takeTrap s.cur c deferred epc tval

/-- Where an instruction goes on, and whether it goes there without entering crack mode: JR and JLR alone enter it (R325, R429). -/
def Fin.target (f : Fin) : Option Word :=
  match f with
  | .jump t | .enter t | .offcoreAt t _ => some t
  | _ => none

def Fin.straight (f : Fin) : Bool :=
  match f with
  | .jump t | .offcoreAt t false => isCrack t
  | _ => false

/-- An instruction that a save makes the strand execute again while its data is outstanding, and that has delivered no signal by
then. -/
def Fin.again (f : Fin) : Bool :=
  match f with
  | .offcore again => again
  | .offcoreAt _ enters => !enters
  | _ => false

/-- The strand before an instruction. -/
def beforeNow : M s0 Before := do
  let s ← st
  let c := s.ctx s.cur
  return { r := c.r, straight := c.straight, errAddr := c.errAddr, seq := s.seq }

/-- The instruction completes; `old` is the strand before it. -/
def complete (sy : Sync) (engine : Bool) (old : Before) (fin : Fin) : M s0 Unit := do
  if !engine then signalOwed sy fin
  let s ← st
  let a := s.cur
  leaveQueue a
  let handed := (s.ctx a).prog.handed
  let pc := (s.ctx a).r.pc
  let nx ← nextOf sy
  let target := match fin, s.fwd with
    | .back t, _ => t
    | f, none => f.target.getD nx
    | _, _ => nx
  let follow := s.isFollower (coreOf a)
  if follow then popStream (coreOf a)
  else
    match fin with
    | .back _ => pure ()
    | _ => if !handed then forward pc target
  modMe fun x => { x with r := { x.r with pc := target }, prog := Progress.none, straight := fin.straight }
  match fin with
  | .ended => endStrand a
  | .offcore _ | .offcoreAt _ _ =>
    if !follow then
      modMe fun x =>
        { x with
          wait := some { kind := .ref, watches := [], all := false, deadline := none }
          before := if fin.again && sy.sig.isNone then some old else none }
      switchOut a .waiting
  | .message id =>
    if !follow then
      modMe fun x => { x with wait := some { kind := .msg id, watches := [], all := false, deadline := none } }
      switchOut a .waiting
  | .yield => if !follow then switchOut a .ready
  | .trapped c v => takeMyTrap c false target v
  | _ => pure ()

/-- An instruction that waits after its issue goes to the followers at once (R61); one with an unsatisfied wait field has not
issued. -/
def handOn (sy : Sync) (w : Wait) : M s0 Unit := do
  let s ← st
  let c := s.ctx s.cur
  if w.kind != .field && !c.prog.handed && !s.isFollower (coreOf s.cur) && !(s.followers (coreOf s.cur)).isEmpty then
    forward c.r.pc (nextPc c.r.pc sy)
    modMe fun x => { x with prog := { x.prog with handed := true } }

/-- What a stop does to the strand. -/
def settle (sy : Sync) (x : Stop) : M s0 Unit := do
  let c ← myCtx
  match x with
  | .trap cause v d _ => takeMyTrap cause d c.r.pc v
  | .wait w =>
    handOn sy w
    block w
  | .stall => pure ()
  | .refuse r => stop (.refuse r)

/-- The checks before issue: the slots of the synchronisation fields, then the instruction's own (R94, R101). -/
def frontChecks (sy : Sync) (pre : M s0 Unit) : M s0 Unit := do
  match sy.wait with
  | some n => legalSlot n.toNat
  | none => pure ()
  match sy.sig with
  | some g => legalSlot g.slot.toNat
  | none => pure ()
  pre

/-- What stands before the body: a replay of FAULTED lines after an ERET, the wait. -/
def beforeBody (sy : Sync) : M s0 Unit := do
  let c ← myCtx
  if c.replayNow && c.replay.contains c.r.pc then replayLines
  waitField sy

/-- The releases' check and the signal at issue. -/
def releaseAndSignal (sy : Sync) (rel : Bool) : M s0 Unit := do
  if rel || sy.sig.isSome then
    release (if rel then sy.scope else .group)
  signalAtIssue sy

/-- A stop of a body that leaves nothing of the instruction: ILLEGAL and PRIV, whatever the body had to read to find them; such an
instruction has not evaluated its wait and delivers no signal (R95). -/
def Stop.undecoded : Stop → Bool
  | .trap .illegal _ _ _ | .trap .priv _ _ _ => true
  | _ => false

/-- A precise trap of an instruction that has issued. -/
def Stop.precise : Stop → Bool
  | .trap _ _ _ keep => !keep
  | _ => false

/-- The wait, what the instruction does before it is known to be legal (`early`: it reads a record of memory, or reports an error),
the signal at issue and the body. A precise trap of either part leaves the signal delivered (R95). -/
def wholly {α : Type} (sy : Sync) (rel : Bool) (early : M s0 α) (body : α → M s0 Fin) : M s0 (Except Stop Fin) := do
  beforeBody sy
  match ← attempt early with
  | .error x =>
    let c ← myCtx
    if x.precise && !x.undecoded && !owesSignal sy && (oldestFault c.lines).isNone then
      releaseAndSignal sy rel
      return .error x
    else stop x
  | .ok v =>
    releaseAndSignal sy rel
    match ← attempt (body v) with
    | .error x => if x.undecoded then stop x else return .error x
    | .ok fin => return .ok fin

/-- One instruction: `rel`, it is itself a release; `engine`, its signal at completion is the engine operation's. -/
def issue {α : Type} (sy : Sync) (rel engine : Bool) (pre : M s0 Unit) (early : M s0 α) (body : α → M s0 Fin) : M s0 Unit := do
  if ← followersFull then return ()
  if ← resultOwed then return ()
  let old ← beforeNow
  let c ← myCtx
  match c.prog.fin with
  | some fin => complete sy engine old fin
  | none =>
    match ← attempt (frontChecks sy pre) with
    | .error x => settle sy x
    | .ok _ =>
      match ← attempt (wholly sy rel early body) with
      | .error x => settle sy x
      | .ok (.error x) => settle sy x
      | .ok (.ok fin) => complete sy engine old fin

/-- The meaning of an instruction of a strand with a part that comes before its signal at issue. Where another agent's lease holds an
access back, it stalls in place. -/
def strandStepE {α : Type} (s : State) (sy : Sync) (rel engine : Bool) (pre : M s Unit) (early : M s α) (body : α → M s Fin) :
    Host.Outcome State Fault Refusal :=
  run s do
    let _ ← attempt (issue sy rel engine pre early body)
    pure ()

/-- The meaning of an instruction of a strand. -/
def strandStep (s : State) (sy : Sync) (rel engine : Bool) (pre : M s Unit) (body : M s Fin) :
    Host.Outcome State Fault Refusal :=
  strandStepE s sy rel engine pre (pure ()) fun _ => body

end Sys2Proof.Machine
end

