-- ==== Sys2Proof/Machine/Scalar.lean ====
section
/-! DEFINITION. Scalar integer instructions (R391 to R393, R410, R436, R438, R447, R449, R452, R453, R456, R457, R468,
R494). -/

namespace Sys2Proof.Machine

open Sys2Proof

abbrev Outcome := Host.Outcome State Fault Refusal

variable {s0 : State}

/-- An instruction that writes one scalar register with a value of the strand's registers. -/
def aluBody (d : XReg) (f : Regs → Word) : M s0 Fin := do
  let c ← myCtx
  writeX d (f c.r)
  return .next

def alu (d : XReg) (sy : Sync) (f : Regs → Word) (s : State) : Outcome :=
  strandStep s sy false false (pure ()) (aluBody d f)

def boolWord (b : Bool) : Word := if b then 1 else 0

/-- R410: the quotient. -/
def divWord (signed : Bool) (a b : Word) : Word :=
  if b = 0 then BitVec.allOnes 64
  else if signed then BitVec.ofInt 64 (a.toInt.tdiv b.toInt)
  else wordOf (a.toNat / b.toNat)

/-- R452: the remainder of the same division. -/
def remWord (signed : Bool) (a b : Word) : Word := if b = 0 then a else a - divWord signed a b * b

/-- R447: the high half of the product. -/
def mulhWord (a b : Word) : Word := BitVec.ofInt 64 (a.toInt * b.toInt / 2 ^ 64)

def mulhuWord (a b : Word) : Word := wordOf (a.toNat * b.toNat / 2 ^ 64)

/-- R391: leading zeros. -/
def clzWord (a : Word) : Word := wordOf (64 - bitLen a.toNat)

def onesIn (a : Word) (n : Nat) : Nat := ((List.range n).filter fun i => a.getLsbD i).length

/-- R449: the number of ones. -/
def popcWord (a : Word) : Word := wordOf (onesIn a 64)

def shiftAmount (b : Word) : Nat := b.toNat % 64

def execAdd (d a b : XReg) (sy : Sync) : State → Outcome := alu d sy fun r => r.getX a + r.getX b
def execAddi (d a : XReg) (v : Word) (sy : Sync) : State → Outcome := alu d sy fun r => r.getX a + v
def execSub (d a b : XReg) (sy : Sync) : State → Outcome := alu d sy fun r => r.getX a - r.getX b
def execMul (d a b : XReg) (sy : Sync) : State → Outcome := alu d sy fun r => r.getX a * r.getX b
def execMulh (d a b : XReg) (sy : Sync) : State → Outcome := alu d sy fun r => mulhWord (r.getX a) (r.getX b)
def execMulhu (d a b : XReg) (sy : Sync) : State → Outcome := alu d sy fun r => mulhuWord (r.getX a) (r.getX b)
def execDiv (d a b : XReg) (sy : Sync) : State → Outcome := alu d sy fun r => divWord true (r.getX a) (r.getX b)
def execDivu (d a b : XReg) (sy : Sync) : State → Outcome := alu d sy fun r => divWord false (r.getX a) (r.getX b)
def execRem (d a b : XReg) (sy : Sync) : State → Outcome := alu d sy fun r => remWord true (r.getX a) (r.getX b)
def execRemu (d a b : XReg) (sy : Sync) : State → Outcome := alu d sy fun r => remWord false (r.getX a) (r.getX b)
def execAnd (d a b : XReg) (sy : Sync) : State → Outcome := alu d sy fun r => r.getX a &&& r.getX b
def execAndi (d a : XReg) (v : Word) (sy : Sync) : State → Outcome := alu d sy fun r => r.getX a &&& v
def execOr (d a b : XReg) (sy : Sync) : State → Outcome := alu d sy fun r => r.getX a ||| r.getX b
def execOri (d a : XReg) (v : Word) (sy : Sync) : State → Outcome := alu d sy fun r => r.getX a ||| v
def execXor (d a b : XReg) (sy : Sync) : State → Outcome := alu d sy fun r => r.getX a ^^^ r.getX b
def execXori (d a : XReg) (v : Word) (sy : Sync) : State → Outcome := alu d sy fun r => r.getX a ^^^ v
def execShl (d a b : XReg) (sy : Sync) : State → Outcome := alu d sy fun r => r.getX a <<< shiftAmount (r.getX b)
def execShli (d a : XReg) (v : Word) (sy : Sync) : State → Outcome := alu d sy fun r => r.getX a <<< v.toNat
def execShr (d a b : XReg) (sy : Sync) : State → Outcome := alu d sy fun r => r.getX a >>> shiftAmount (r.getX b)
def execShri (d a : XReg) (v : Word) (sy : Sync) : State → Outcome := alu d sy fun r => r.getX a >>> v.toNat
def execSra (d a b : XReg) (sy : Sync) : State → Outcome :=
  alu d sy fun r => (r.getX a).sshiftRight (shiftAmount (r.getX b))
def execSrai (d a : XReg) (v : Word) (sy : Sync) : State → Outcome := alu d sy fun r => (r.getX a).sshiftRight v.toNat
def execSlt (d a b : XReg) (sy : Sync) : State → Outcome := alu d sy fun r => boolWord ((r.getX a).slt (r.getX b))
def execSltu (d a b : XReg) (sy : Sync) : State → Outcome := alu d sy fun r => boolWord ((r.getX a).ult (r.getX b))
def execSlti (d a : XReg) (v : Word) (sy : Sync) : State → Outcome := alu d sy fun r => boolWord ((r.getX a).slt v)
def execMin (d a b : XReg) (sy : Sync) : State → Outcome :=
  alu d sy fun r => if (r.getX b).slt (r.getX a) then r.getX b else r.getX a
def execMax (d a b : XReg) (sy : Sync) : State → Outcome :=
  alu d sy fun r => if (r.getX a).slt (r.getX b) then r.getX b else r.getX a
def execMinu (d a b : XReg) (sy : Sync) : State → Outcome :=
  alu d sy fun r => if (r.getX b).ult (r.getX a) then r.getX b else r.getX a
def execMaxu (d a b : XReg) (sy : Sync) : State → Outcome :=
  alu d sy fun r => if (r.getX a).ult (r.getX b) then r.getX b else r.getX a
def execClz (d a : XReg) (sy : Sync) : State → Outcome := alu d sy fun r => clzWord (r.getX a)
def execPopc (d a : XReg) (sy : Sync) : State → Outcome := alu d sy fun r => popcWord (r.getX a)
def execSel (d a b c : XReg) (sy : Sync) : State → Outcome :=
  alu d sy fun r => if r.getX a ≠ 0 then r.getX b else r.getX c
def execLi (d : XReg) (v : Word) (sy : Sync) : State → Outcome := alu d sy fun _ => v
def execAdr (d : XReg) (v : Word) (sy : Sync) : State → Outcome := alu d sy fun r => r.pc + v

end Sys2Proof.Machine
end

