-- ==== Sys2Proof/Machine/ScalarFp.lean ====
section
/-! DEFINITION. Scalar floating-point instructions (R414 to R419, R423). -/

namespace Sys2Proof.Machine

open Sys2Proof

variable {s0 : State}

/-- The mode that RM of sr.fcsr names (R119, R124). -/
def rmRnd (rm : BitVec 3) : Rnd :=
  match rm.toNat with
  | 2 => .rtz
  | 3 => .rdn
  | 4 => .rup
  | 5 => .rna
  | _ => .rne

/-- dyn takes RM of sr.fcsr (R119). -/
def Regs.rnd (r : Regs) (m : Rnd) : Rnd := if m = .dyn then rmRnd r.rm else m

/-- The low bits of a register that hold a value of a type (R127, R416, R418). -/
def Regs.fsrc (r : Regs) (a : XReg) (t : Ty) : Nat := lowBits (r.getX a) t.bits

/-- An instruction whose result and flags come from the registers. -/
def fpBody (d : XReg) (f : Regs → Nat × Flags) : M s0 Fin := do
  let c ← myCtx
  let (v, fl) := f c.r
  writeX d (wordOf v)
  raiseFlags fl
  return .next

def fp (d : XReg) (sy : Sync) (f : Regs → Nat × Flags) (s : State) : Outcome :=
  strandStep s sy false false (pure ()) (fpBody d f)

def execFadd (t : Ty) (m : Rnd) (d a b : XReg) (sy : Sync) : State → Outcome :=
  fp d sy fun r => fAdd (tyFmt t) (r.rnd m) (r.fsrc a t) (r.fsrc b t)
def execFsub (t : Ty) (m : Rnd) (d a b : XReg) (sy : Sync) : State → Outcome :=
  fp d sy fun r => fSub (tyFmt t) (r.rnd m) (r.fsrc a t) (r.fsrc b t)
def execFmul (t : Ty) (m : Rnd) (d a b : XReg) (sy : Sync) : State → Outcome :=
  fp d sy fun r => fMul (tyFmt t) (r.rnd m) (r.fsrc a t) (r.fsrc b t)
def execFfma (t : Ty) (m : Rnd) (d a b c : XReg) (sy : Sync) : State → Outcome :=
  fp d sy fun r => fFma (tyFmt t) (r.rnd m) (r.fsrc a t) (r.fsrc b t) (r.fsrc c t)
def execFdiv (t : Ty) (m : Rnd) (d a b : XReg) (sy : Sync) : State → Outcome :=
  fp d sy fun r => fDiv (tyFmt t) (r.rnd m) (r.fsrc a t) (r.fsrc b t)
def execFsqrt (t : Ty) (m : Rnd) (d a : XReg) (sy : Sync) : State → Outcome :=
  fp d sy fun r => fSqrt (tyFmt t) (r.rnd m) (r.fsrc a t)
def execFmin (t : Ty) (d a b : XReg) (sy : Sync) : State → Outcome :=
  fp d sy fun r => fMinMax (tyFmt t) true (r.fsrc a t) (r.fsrc b t)
def execFmax (t : Ty) (d a b : XReg) (sy : Sync) : State → Outcome :=
  fp d sy fun r => fMinMax (tyFmt t) false (r.fsrc a t) (r.fsrc b t)
def execFcmp (t : Ty) (p : Pred) (d a b : XReg) (sy : Sync) : State → Outcome :=
  fp d sy fun r =>
    let (v, fl) := fCmp p ((tyFmt t).decode (r.fsrc a t)) ((tyFmt t).decode (r.fsrc b t))
    (if v then 1 else 0, fl)
def execFclass (t : Ty) (d a : XReg) (sy : Sync) : State → Outcome :=
  fp d sy fun r => (fClass (tyFmt t) (r.fsrc a t), 0)

/-- A code of a type as FCVT writes it to a register (R418). -/
def cvtWord (t : Ty) (code : Nat) : Word := if tySigned t then wordOfInt (sextInt code t.bits) else wordOf code

/-- One conversion: rsr draws once from sr.seed (R122, R418). -/
def fcvtBody (t f : Ty) (m : Rnd) (d a : XReg) : M s0 Fin := do
  let c ← myCtx
  let (seed, draw) := seedDraw c.r.seed
  let (v, fl) := convert t f (c.r.rnd m) draw (c.r.fsrc a f)
  if m = .rsr then
    modMe fun x => x.modR fun r => { r with seed := seed }
  writeX d (cvtWord t v)
  raiseFlags fl
  return .next

def execFcvt (t f : Ty) (m : Rnd) (d a : XReg) (sy : Sync) (s : State) : Outcome :=
  strandStep s sy false false (pure ()) (fcvtBody t f m d a)

end Sys2Proof.Machine
end

