-- ==== Sys2Proof/Machine/Vector.lean ====
section
/-! DEFINITION. Vector instructions and masks (R238, R281, R430, R454, R455, R477 to R484, R487 to R489). -/

namespace Sys2Proof.Machine

open Sys2Proof

variable {s0 : State}

/-- VD receives the given elements of w bits; the flags are ORed into sr.fcsr (R477). -/
def putElems (d : VReg) (w : Nat) (l : List (Nat × Nat)) (fl : Flags) : M s0 Fin := do
  let c ← myCtx
  writeV d (vWrite (c.r.getV d) w l)
  raiseFlags fl
  return .next

def orFlags (l : List Flags) : Flags := l.foldl (· ||| ·) 0

/-- An odd sr.vl with 64-bit elements raises ILLEGAL (R477, R483, R486). -/
def evenVl (w : Nat) : M s0 Unit := do
  let c ← myCtx
  legal (decide (w < 64) || c.r.lanes % 2 == 0)

/-- An element-wise instruction: every source is read before any element is written. -/
def elemBody (w : Nat) (m : KReg) (d : VReg) (f : Regs → Nat → Nat × Flags) : M s0 Fin := do
  let c ← myCtx
  let res := (activeElems c.r.lanes w (c.r.getK m)).map fun e => (e, f c.r e)
  putElems d w (res.map fun p => (p.1, p.2.1)) (orFlags (res.map fun p => p.2.2))

def elemwise (t : Ty) (m : KReg) (d : VReg) (sy : Sync) (f : Regs → Nat → Nat × Flags) (s : State) : Outcome :=
  strandStep s sy false false (evenVl t.bits) (elemBody t.bits m d f)

def Regs.el (r : Regs) (v : VReg) (t : Ty) (e : Nat) : Nat := vElem (r.getV v) t.bits e

/-- An integer operation modulo 2^w, or a floating-point operation on codes. -/
def arith2 (t : Ty) (m : Rnd) (r : Regs) (fi : Int → Int → Int) (ff : Fmt → Rnd → Nat → Nat → Nat × Flags) (a b : Nat) :
    Nat × Flags :=
  if t.isInt then ((fi a b % (2 ^ t.bits : Nat)).toNat, 0) else ff (tyFmt t) (r.rnd m) a b

/-- MIN or MAX of a type (R480). -/
def elMinMax (t : Ty) (smaller : Bool) (a b : Nat) : Nat × Flags :=
  if t.isInt then
    let x := intVal (tySigned t) t.bits a
    let y := intVal (tySigned t) t.bits b
    (if (if smaller then decide (y < x) else decide (x < y)) then b else a, 0)
  else fMinMax (tyFmt t) smaller a b

def elBits (f : Nat → Nat → Nat) (r : Regs) (a b : VReg) (t : Ty) (e : Nat) : Nat × Flags :=
  (f (r.el a t e) (r.el b t e) % 2 ^ t.bits, 0)

/-- Bits of a >> s filled with copies of bit w - 1 (R480). -/
def sraBits (w a s : Nat) : Nat := (sextInt a w / (2 ^ s : Nat) % (2 ^ w : Nat)).toNat

def execVadd (t : Ty) (m : Rnd) (k : KReg) (d a b : VReg) (sy : Sync) : State → Outcome :=
  elemwise t k d sy fun r e => arith2 t m r (· + ·) fAdd (r.el a t e) (r.el b t e)
def execVsub (t : Ty) (m : Rnd) (k : KReg) (d a b : VReg) (sy : Sync) : State → Outcome :=
  elemwise t k d sy fun r e => arith2 t m r (· - ·) fSub (r.el a t e) (r.el b t e)
def execVmul (t : Ty) (m : Rnd) (k : KReg) (d a b : VReg) (sy : Sync) : State → Outcome :=
  elemwise t k d sy fun r e => arith2 t m r (· * ·) fMul (r.el a t e) (r.el b t e)
def execVfma (t : Ty) (m : Rnd) (k : KReg) (d a b c : VReg) (sy : Sync) : State → Outcome :=
  elemwise t k d sy fun r e => fFma (tyFmt t) (r.rnd m) (r.el a t e) (r.el b t e) (r.el c t e)
def execVmin (t : Ty) (k : KReg) (d a b : VReg) (sy : Sync) : State → Outcome :=
  elemwise t k d sy fun r e => elMinMax t true (r.el a t e) (r.el b t e)
def execVmax (t : Ty) (k : KReg) (d a b : VReg) (sy : Sync) : State → Outcome :=
  elemwise t k d sy fun r e => elMinMax t false (r.el a t e) (r.el b t e)
def execVand (t : Ty) (k : KReg) (d a b : VReg) (sy : Sync) : State → Outcome :=
  elemwise t k d sy fun r e => elBits (· &&& ·) r a b t e
def execVor (t : Ty) (k : KReg) (d a b : VReg) (sy : Sync) : State → Outcome :=
  elemwise t k d sy fun r e => elBits (· ||| ·) r a b t e
def execVxor (t : Ty) (k : KReg) (d a b : VReg) (sy : Sync) : State → Outcome :=
  elemwise t k d sy fun r e => elBits (· ^^^ ·) r a b t e
def execVshl (t : Ty) (k : KReg) (d a b : VReg) (sy : Sync) : State → Outcome :=
  elemwise t k d sy fun r e => elBits (fun x y => x * 2 ^ (y % t.bits)) r a b t e
def execVshr (t : Ty) (k : KReg) (d a b : VReg) (sy : Sync) : State → Outcome :=
  elemwise t k d sy fun r e => elBits (fun x y => x / 2 ^ (y % t.bits)) r a b t e
def execVsra (t : Ty) (k : KReg) (d a b : VReg) (sy : Sync) : State → Outcome :=
  elemwise t k d sy fun r e => elBits (fun x y => sraBits t.bits x (y % t.bits)) r a b t e

/-! ### One source (R479) -/

def absEl (t : Ty) (a : Nat) : Nat :=
  if t.isInt then (intVal (tySigned t) t.bits a).natAbs % 2 ^ t.bits else a % 2 ^ (t.bits - 1)

def negEl (t : Ty) (a : Nat) : Nat := if t.isInt then (2 ^ t.bits - a) % 2 ^ t.bits else a ^^^ 2 ^ (t.bits - 1)

def elemFun (t : Ty) (m : Rnd) (k : KReg) (d a : VReg) (sy : Sync) (g : FV → FV × Flags) : State → Outcome :=
  elemwise t k d sy fun r e => fElem g (tyFmt t) (r.rnd m) (r.el a t e)

def execVabs (t : Ty) (k : KReg) (d a : VReg) (sy : Sync) : State → Outcome :=
  elemwise t k d sy fun r e => (absEl t (r.el a t e), 0)
def execVneg (t : Ty) (k : KReg) (d a : VReg) (sy : Sync) : State → Outcome :=
  elemwise t k d sy fun r e => (negEl t (r.el a t e), 0)
def execVrcp (t : Ty) (m : Rnd) (k : KReg) (d a : VReg) (sy : Sync) : State → Outcome := elemFun t m k d a sy FV.rcp
def execVrsq (t : Ty) (m : Rnd) (k : KReg) (d a : VReg) (sy : Sync) : State → Outcome := elemFun t m k d a sy FV.rsqrt
def execVexp2 (t : Ty) (m : Rnd) (k : KReg) (d a : VReg) (sy : Sync) : State → Outcome := elemFun t m k d a sy FV.exp2
def execVlog2 (t : Ty) (m : Rnd) (k : KReg) (d a : VReg) (sy : Sync) : State → Outcome := elemFun t m k d a sy FV.log2
def execVsqrt (t : Ty) (m : Rnd) (k : KReg) (d a : VReg) (sy : Sync) : State → Outcome := elemFun t m k d a sy FV.sqrt

/-! ### Comparison and conversion (R482, R483) -/

/-- A predicate on two elements, and NV. -/
def elCmp (t : Ty) (p : Pred) (a b : Nat) : Bool × Flags :=
  if t.isInt then
    let x := intVal (tySigned t) t.bits a
    let y := intVal (tySigned t) t.bits b
    (match p with
     | .eq => decide (x = y) | .ne => decide (x ≠ y) | .lt => decide (x < y) | .le => decide (x ≤ y)
     | .gt => decide (y < x) | .ge => decide (y ≤ x) | .un => false, 0)
  else fCmp p ((tyFmt t).decode a) ((tyFmt t).decode b)

def setBit (w : Word) (i : Nat) (b : Bool) : Word :=
  if b then w ||| wordOf (2 ^ i) else w &&& ~~~wordOf (2 ^ i)

def vcmpBody (t : Ty) (p : Pred) (m d : KReg) (a b : VReg) : M s0 Fin := do
  let c ← myCtx
  let res := (activeLanes c.r.lanes (c.r.getK m)).map fun i => (i, elCmp t p (c.r.el a t i) (c.r.el b t i))
  writeK d (res.foldl (fun w q => setBit w q.1 q.2.1) (c.r.getK d))
  raiseFlags (orFlags (res.map fun q => q.2.2))
  return .next

def execVcmp (t : Ty) (p : Pred) (m d : KReg) (a b : VReg) (sy : Sync) (s : State) : Outcome :=
  strandStep s sy false false (pure ()) (vcmpBody t p m d a b)

/-- The elements that VCVT converts (R483): all of them, but only the active ones where the widths agree. -/
def vcvtElems (vl wt wf : Nat) (k : Word) : List Nat :=
  if wt = wf then activeElems vl wt k else List.range (vl * 32 / max wt wf)

/-- The conversions in ascending order, each with a draw when the mode is rsr: results and the last seed. -/
def vcvtSteps (t f : Ty) (m : Rnd) (v : VWord) : List Nat → Word → List (Nat × Nat × Flags) × Word
  | [], seed => ([], seed)
  | e :: es, seed =>
    let (seed', draw) := seedDraw seed
    let next := if m = .rsr then seed' else seed
    let (x, fl) := convert t f m draw (vElem v f.bits e)
    let (r, out) := vcvtSteps t f m v es next
    ((e, x, fl) :: r, out)

def vcvtBody (t f : Ty) (m : Rnd) (k : KReg) (d a : VReg) : M s0 Fin := do
  let c ← myCtx
  let vl := c.r.lanes
  let es := vcvtElems vl t.bits f.bits (c.r.getK k)
  let (res, seed) := vcvtSteps t f (c.r.rnd m) (c.r.getV a) es c.r.seed
  modMe fun x => x.modR fun r => { r with seed := seed }
  let old := c.r.getV d
  -- with different widths the rest of the lanes below sr.vl is zero
  let base := if t.bits = f.bits then old else vWrite old 32 ((List.range vl).map fun i => (i, 0))
  writeV d (vWrite base t.bits (res.map fun q => (q.1, q.2.1)))
  raiseFlags (orFlags (res.map fun q => q.2.2))
  return .next

def execVcvt (t f : Ty) (m : Rnd) (k : KReg) (d a : VReg) (sy : Sync) (s : State) : Outcome :=
  strandStep s sy false false (evenVl (max t.bits f.bits)) (vcvtBody t f m k d a)

/-! ### VDOT (R484) -/

def dotInt (t : Ty) (r : Regs) (a b c : VReg) (i : Nat) : Nat :=
  let s := ((List.range 4).map fun j =>
    intVal (tySigned t) 8 (r.el a t (4 * i + j)) * intVal (tySigned t) 8 (r.el b t (4 * i + j))).sum
  (((vLane (r.getV c) i : Nat) + s) % (2 ^ 32 : Nat)).toNat

/-- One rounding of the exact sum. An opposite pair of infinite terms raises NV also beside a NaN. -/
def dotFloat (t : Ty) (m : Rnd) (r : Regs) (a b c : VReg) (i : Nat) : Nat × Flags :=
  let x (j : Nat) := (tyFmt t).decode (r.el a t (2 * i + j))
  let y (j : Nat) := (tyFmt t).decode (r.el b t (2 * i + j))
  let (p0, f0) := FV.mul (x 0) (y 0)
  let (p1, f1) := FV.mul (x 1) (y 1)
  let v := Fmt.f32.decode (vLane (r.getV c) i)
  let (s1, f2) := FV.add (r.rnd m) v p0
  let (s2, f3) := FV.add (r.rnd m) s1 p1
  let opposite := [v, p0, p1].contains (.inf true) && [v, p0, p1].contains (.inf false)
  Fmt.f32.deliver (r.rnd m) s2 (f0 ||| f1 ||| f2 ||| f3 ||| Flags.invalid opposite)

def execVdot (t : Ty) (m : Rnd) (k : KReg) (d a b c : VReg) (sy : Sync) (s : State) : Outcome :=
  strandStep s sy false false (pure ())
    (elemBody 32 k d fun r i => if t.isInt then (dotInt t r a b c i, 0) else dotFloat t m r a b c i)

/-! ### Moving lanes (R481) -/

def lanesInstr (sy : Sync) (body : (s : State) → M s Fin) (s : State) : Outcome :=
  strandStep s sy false false (pure ()) (body s)

/-- What VBCAST writes to lane i. -/
def bcastLane (sz : Size) (x : Word) (i : Nat) : Nat :=
  match sz with
  | .b => field x 0 8 * 0x1010101
  | .h => field x 0 16 * 0x10001
  | .w => field x 0 32
  | .d => if i % 2 = 0 then field x 0 32 else field x 32 32

def execVbcast (sz : Size) (m : KReg) (d : VReg) (a : XReg) (sy : Sync) : State → Outcome :=
  lanesInstr sy fun _ => elemBody 32 m d fun r i => (bcastLane sz (r.getX a) i, 0)

def vextBody (d : XReg) (a : VReg) (b : XReg) : M s0 Fin := do
  let n ← myCore
  aluBody d fun r => if (r.getX b).toNat < vlMax n then wordOf (vLane (r.getV a) (r.getX b).toNat) else 0

def execVext (d : XReg) (a : VReg) (b : XReg) (sy : Sync) : State → Outcome := lanesInstr sy fun _ => vextBody d a b

def vinsBody (d : VReg) (a b : XReg) : M s0 Fin := do
  let n ← myCore
  let c ← myCtx
  let i := (c.r.getX b).toNat
  if i < vlMax n then
    writeV d (vSetLane (c.r.getV d) i (lowBits (c.r.getX a) 32))
  return .next

def execVins (d : VReg) (a b : XReg) (sy : Sync) : State → Outcome := lanesInstr sy fun _ => vinsBody d a b

def vpermBody (m : KReg) (d a b : VReg) : M s0 Fin := do
  let n ← myCore
  elemBody 32 m d fun r i => (vLane (r.getV a) (vLane (r.getV b) i % vlMax n), 0)

def execVperm (m : KReg) (d a b : VReg) (sy : Sync) : State → Outcome := lanesInstr sy fun _ => vpermBody m d a b

def vrotBody (m : KReg) (d a : VReg) (b : XReg) : M s0 Fin := do
  let n ← myCore
  elemBody 32 m d fun r i => (vLane (r.getV a) ((i + (r.getX b).toNat) % vlMax n), 0)

def execVrot (m : KReg) (d a : VReg) (b : XReg) (sy : Sync) : State → Outcome := lanesInstr sy fun _ => vrotBody m d a b

def execViota (m : KReg) (d : VReg) (a : XReg) (sy : Sync) : State → Outcome :=
  lanesInstr sy fun _ => elemBody 32 m d fun r i => (((r.getX a).toNat + i) % 2 ^ 32, 0)

/-- Every lane below sr.vl is written. -/
def allLanes (d : VReg) (f : Regs → Nat → Nat) : M s0 Fin := do
  let c ← myCtx
  putElems d 32 ((List.range c.r.lanes).map fun i => (i, f c.r i)) 0

def execVsel (m : KReg) (d a b : VReg) (sy : Sync) : State → Outcome :=
  lanesInstr sy fun _ => allLanes d fun r i => if (r.getK m).getLsbD i then vLane (r.getV a) i else vLane (r.getV b) i

def execVcomp (m : KReg) (d a : VReg) (sy : Sync) : State → Outcome :=
  lanesInstr sy fun _ => allLanes d fun r i =>
    (((activeLanes r.lanes (r.getK m)).map fun j => vLane (r.getV a) j)[i]?).getD 0

/-! ### Reductions (R281, R487) -/

/-- Combine(lo, 2^n): absent where nothing is present; the flags of every Op. -/
def combine {α : Type} (op : α → α → α × Flags) (get : Nat → Option α) : Nat → Nat → Option α × Flags
  | 0, lo => (get lo, 0)
  | n + 1, lo =>
    let (x, f) := combine op get n lo
    let (y, g) := combine op get n (lo + 2 ^ n)
    match x, y with
    | some a, some b => let (v, h) := op a b; (some v, f ||| g ||| h)
    | some a, none => (some a, f ||| g)
    | none, y => (y, f ||| g)

/-- Op of VRED and VSCAN. -/
def redOp (t : Ty) (op : ROp) (m : Rnd) (a b : Nat) : Nat × Flags :=
  match op with
  | .add => if t.isInt then ((a + b) % 2 ^ 32, 0) else fAdd Fmt.f32 m a b
  | .min => elMinMax t true a b
  | .max => elMinMax t false a b
  | .and => (a &&& b, 0)
  | .or => (a ||| b, 0)
  | .xor => (a ^^^ b, 0)

/-- The identity of an Op (R487). -/
def redIdentity (t : Ty) (op : ROp) : Nat :=
  match op, t with
  | .add, _ => 0
  | .min, .i32 => 0x7FFFFFFF
  | .min, .u32 => 0xFFFFFFFF
  | .min, _ => 0x7F800000
  | .max, .i32 => 0x80000000
  | .max, .u32 => 0
  | .max, _ => 0xFF800000
  | .and, _ => 0xFFFFFFFF
  | .or, _ => 0
  | .xor, _ => 0

/-- Lane i when it is active. -/
def Regs.present (r : Regs) (m : KReg) (a : VReg) (i : Nat) : Option Nat :=
  if laneActive r.lanes (r.getK m) i then some (vLane (r.getV a) i) else none

/-- VRED's value over 2^n lanes, in bits 31..0, and its flags. -/
def redValue (t : Ty) (op : ROp) (m : Rnd) (k : KReg) (a : VReg) (n : Nat) (r : Regs) : Nat × Flags :=
  let (v, fl) := combine (redOp t op (r.rnd m)) (r.present k a) n 0
  (v.getD (redIdentity t op), fl)

def vredBody (t : Ty) (op : ROp) (m : Rnd) (k : KReg) (d : XReg) (a : VReg) : M s0 Fin := do
  let n ← myCore
  let c ← myCtx
  let (v, fl) := redValue t op m k a (if isEasel n then 3 else 6) c.r
  writeX d (cvtWord t v)
  raiseFlags fl
  return .next

def execVred (t : Ty) (op : ROp) (m : Rnd) (k : KReg) (d : XReg) (a : VReg) (sy : Sync) : State → Outcome :=
  lanesInstr sy fun _ => vredBody t op m k d a

/-- The inclusive scan over the active lanes. -/
def scanSteps (op : Nat → Nat → Nat × Flags) : Option Nat → List (Nat × Nat) → List (Nat × Nat) × Flags
  | _, [] => ([], 0)
  | run, (i, x) :: l =>
    let (v, f) := match run with
      | none => (x, 0)
      | some u => op u x
    let (r, g) := scanSteps op (some v) l
    ((i, v) :: r, f ||| g)

def vscanBody (t : Ty) (op : ROp) (m : Rnd) (k : KReg) (d a : VReg) : M s0 Fin := do
  let c ← myCtx
  let (res, fl) := scanSteps (redOp t op (c.r.rnd m)) none
    ((activeLanes c.r.lanes (c.r.getK k)).map fun i => (i, vLane (c.r.getV a) i))
  putElems d 32 res fl

def execVscan (t : Ty) (op : ROp) (m : Rnd) (k : KReg) (d a : VReg) (sy : Sync) : State → Outcome :=
  lanesInstr sy fun _ => vscanBody t op m k d a

/-! ### VTOPK (R489) -/

/-- Lane x ranks before lane y by value. -/
def ranksBefore (t : Ty) (x y : Nat) : Bool :=
  if t.isInt then decide (intVal (tySigned t) 32 y < intVal (tySigned t) 32 x)
  else
    let a := Fmt.f32.decode x
    let b := Fmt.f32.decode y
    (!a.isNan && b.isNan) || FV.lt b a

/-- A lane goes after every lane that it does not rank before; equal values keep the lane order. -/
def rankInsert (t : Ty) (p : Nat × Nat) : List (Nat × Nat) → List (Nat × Nat)
  | [] => [p]
  | q :: l => if ranksBefore t p.2 q.2 then p :: q :: l else q :: rankInsert t p l

def ranked (t : Ty) (l : List (Nat × Nat)) : List Nat := ((l.foldl (fun r p => rankInsert t p r) []).map (·.1))

def vtopkBody (t : Ty) (k : KReg) (d a : VReg) (b : XReg) : M s0 Fin := do
  let c ← myCtx
  let cands := (activeLanes c.r.lanes (c.r.getK k)).map fun i => (i, vLane (c.r.getV a) i)
  let n := min (c.r.getX b).toNat cands.length
  let best := (ranked t cands).take n
  let fl := if t.isInt then 0 else Flags.invalid (cands.any fun p => (Fmt.f32.decode p.2).isSnan)
  putElems d 32 ((List.range c.r.lanes).map fun i => (i, (best[i]?).getD 0xFFFFFFFF)) fl

def execVtopk (t : Ty) (k : KReg) (d a : VReg) (b : XReg) (sy : Sync) : State → Outcome :=
  lanesInstr sy fun _ => vtopkBody t k d a b

/-! ### VTAG and SETVL (R238, R455, R488) -/

/-- The tag byte of row i. -/
def tagByte (vl : Nat) (k : Word) (v : VWord) (i : Nat) : Byte :=
  if laneActive vl k i then BitVec.ofNat 8 (0x80 + vLane v i % 4) else 0

def vtagBody (m : KReg) (a : VReg) (b : XReg) : M s0 Fin := do
  let c ← myCtx
  let n ← myCore
  let off := c.r.getX b
  if off.toNat % 64 ≠ 0 then trap .align off
  else if 0x3FFFC0 < off.toNat then trap .lsprot off
  else
    writePlane (clusterOfCore n) off.toNat
      ((List.range 64).map fun i => tagByte c.r.lanes (c.r.getK m) (c.r.getV a) i)
    return .next

def execVtag (m : KReg) (a : VReg) (b : XReg) (sy : Sync) (s : State) : Outcome :=
  strandStep s sy false false (onEasel false) (vtagBody m a b)

/-- R455. -/
def setvlBody (d a : XReg) (v : Word) : M s0 Fin := do
  let n ← myCore
  let c ← myCtx
  let lanes := min (c.r.getX a + v).toNat (vlMax n)
  modMe fun x => x.modR fun r => { r with vl := BitVec.ofNat 7 (max lanes 1) }
  writeX d (wordOf lanes)
  return .next

def execSetvl (d a : XReg) (v : Word) (sy : Sync) : State → Outcome := lanesInstr sy fun _ => setvlBody d a v

/-! ### Masks (R430) -/

def kBody (d : KReg) (f : Regs → Word) : M s0 Fin := do
  let c ← myCtx
  writeK d (f c.r)
  return .next

def execKand (d a b : KReg) (sy : Sync) : State → Outcome :=
  lanesInstr sy fun _ => kBody d fun r => r.getK a &&& r.getK b
def execKor (d a b : KReg) (sy : Sync) : State → Outcome :=
  lanesInstr sy fun _ => kBody d fun r => r.getK a ||| r.getK b
def execKxor (d a b : KReg) (sy : Sync) : State → Outcome :=
  lanesInstr sy fun _ => kBody d fun r => r.getK a ^^^ r.getK b
def execKnot (d a : KReg) (sy : Sync) : State → Outcome := lanesInstr sy fun _ => kBody d fun r => ~~~ r.getK a

def kmovBody (f : KMovForm) : M s0 Fin :=
  match f with
  | .kk d a => kBody d fun r => r.getK a
  | .kx d a => kBody d fun r => r.getX a
  | .xk d a => aluBody d fun r => r.getK a

def execKmov (f : KMovForm) (sy : Sync) : State → Outcome := lanesInstr sy fun _ => kmovBody f

def execKpopc (d : XReg) (a : KReg) (sy : Sync) : State → Outcome :=
  lanesInstr sy fun _ => aluBody d fun r => wordOf (onesIn (r.getK a) r.lanes)

/-- The lowest set bit below sr.vl; 64 without one. -/
def firstBit (k : Word) (vl : Nat) : Nat := ((List.range vl).find? fun i => k.getLsbD i).getD 64

def execKff (d : XReg) (a : KReg) (sy : Sync) : State → Outcome :=
  lanesInstr sy fun _ => aluBody d fun r => wordOf (firstBit (r.getK a) r.lanes)

end Sys2Proof.Machine
end

