-- ==== Sys2Proof/Machine/MemInstr.lean ====
section
/-! DEFINITION. Loads, stores, atomics and leases (R346, R395, R402, R431 to R435, R450, R463, R467, R475, R485, R490). -/

namespace Sys2Proof.Machine

open Sys2Proof

variable {s0 : State}

/-- A load that missed L1 is an off-core reference (R55). -/
def loaded (miss : Bool) : Fin := if miss then .offcore true else .next

/-- The same of an atomic, which is not made again (R363). -/
def answered (miss : Bool) : Fin := if miss then .offcore false else .next

/-- R431. -/
def ldBody (sz : Size) (sp : Space) (d : XReg) (f : Regs → Word) (plain : Bool) : M s0 Fin := do
  let c ← myCtx
  let (vs, miss) ← loadMany sp [f c.r] (sizeBytes sz) plain
  writeX d (wordOf (vs.headD 0))
  return loaded miss

def execLd (sz : Size) (sp : Space) (d a : XReg) (m : Addr1) (sy : Sync) (s : State) : Outcome :=
  strandStep s sy false false (pure ()) (ldBody sz sp d (fun r => ea1 r a m) true)

/-- R433. -/
def execLdslot (d a : XReg) (disp : Word) (sy : Sync) (s : State) : Outcome :=
  strandStep s sy false false (pure ()) (ldBody .d .global d (fun r => r.getX a + disp) true)

/-- R463. -/
def stBody (sz : Size) (sp : Space) (d : XReg) (f : Regs → Word) : M s0 Fin := do
  let c ← myCtx
  storeMany sp [(f c.r, lowBits (c.r.getX d) (sizeBits sz))] (sizeBytes sz) none true
  return .next

def execSt (sz : Size) (sp : Space) (d a : XReg) (m : Addr1) (sy : Sync) (s : State) : Outcome :=
  strandStep s sy false false (pure ()) (stBody sz sp d fun r => ea1 r a m)

/-- The card byte of an address (R346). -/
def card (a : Word) : Word := wordOf ((vaNode a).toNat * 2 ^ 56 + 0xF00000000000 + field a 0 48 / 512)

/-- A nonzero heap pointer (R329). -/
def isHeap (v : Word) : Bool := v != 0 && field v 0 3 == 0

/-- R467. -/
def stslotBody (d a : XReg) (disp : Word) : M s0 Fin := do
  let c ← myCtx
  let ea := c.r.getX a + disp
  afterSignal
  storeSeq
    ({ va := ea, val := (c.r.getX d).toNat, size := 8 } ::
      if isHeap (c.r.getX d) then [{ va := card ea, val := 1, size := 1 }] else []) none false false
  return .next

def execStslot (d a : XReg) (disp : Word) (sy : Sync) (s : State) : Outcome :=
  strandStep s sy false false (pure ()) (stslotBody d a disp)

/-- R490. -/
def wbarBody (a : XReg) (disp : Word) : M s0 Fin := do
  let c ← myCtx
  storeMany .global [(card (c.r.getX a + disp), 1)] 1 none false
  return .next

def execWbar (a : XReg) (disp : Word) (sy : Sync) (s : State) : Outcome :=
  strandStep s sy false false (pure ()) (wbarBody a disp)

/-- The active elements of a VLD or VST with their addresses (R485). -/
def vecAddrs (r : Regs) (sz : Size) (k : KReg) (a : XReg) (m : AddrV) : List (Nat × Word) :=
  (activeElems r.lanes (sizeBits sz) (r.getK k)).map fun i => (i, eaV r sz a m i)

/-- R485. -/
def vldBody (sz : Size) (sp : Space) (k : KReg) (d : VReg) (a : XReg) (m : AddrV) : M s0 Fin := do
  let c ← myCtx
  let es := vecAddrs c.r sz k a m
  let (vs, miss) ← loadVec sp (es.map (·.2)) (sizeBytes sz)
  writeV d (vWrite (c.r.getV d) (sizeBits sz) ((es.map (·.1)).zip vs))
  return loaded miss

def execVld (sz : Size) (sp : Space) (k : KReg) (d : VReg) (a : XReg) (m : AddrV) (sy : Sync) (s : State) : Outcome :=
  strandStep s sy false false (evenVl (sizeBits sz)) (vldBody sz sp k d a m)

def vstBody (sz : Size) (sp : Space) (k : KReg) (d : VReg) (a : XReg) (m : AddrV) : M s0 Fin := do
  let c ← myCtx
  let v := c.r.getV d
  storeMany sp ((vecAddrs c.r sz k a m).map fun p => (p.2, vElem v (sizeBits sz) p.1)) (sizeBytes sz) none false
  return .next

def execVst (sz : Size) (sp : Space) (k : KReg) (d : VReg) (a : XReg) (m : AddrV) (sy : Sync) (s : State) : Outcome :=
  strandStep s sy false false (evenVl (sizeBits sz)) (vstBody sz sp k d a m)

/-- R395. -/
def amoBody (sz : Size) (sp : Space) (op : AOp) (d a b : XReg) (disp : Word) : M s0 Fin := do
  let c ← myCtx
  let w := sizeBits sz
  let (old, miss) ← atomicOne sp (c.r.getX a + disp) (sizeBytes sz) fun old =>
    let (v, fl) := aopApply op w old (lowBits (c.r.getX b) w)
    (some v, fl)
  writeX d (wordOf old)
  return answered miss

def execAmo (sz : Size) (sp : Space) (op : AOp) (d a b : XReg) (disp : Word) (sy : Sync) (s : State) : Outcome :=
  strandStep s sy false false (pure ()) (amoBody sz sp op d a b disp)

/-- R402. -/
def casBody (sz : Size) (sp : Space) (d a b : XReg) (disp : Word) : M s0 Fin := do
  let c ← myCtx
  let w := sizeBits sz
  let (old, miss) ← atomicOne sp (c.r.getX a + disp) (sizeBytes sz) fun old =>
    (some (if old = lowBits (c.r.getX d) w then lowBits (c.r.getX b) w else old), 0)
  writeX d (wordOf old)
  return answered miss

def execCas (sz : Size) (sp : Space) (d a b : XReg) (disp : Word) (sy : Sync) (s : State) : Outcome :=
  strandStep s sy false false (pure ()) (casBody sz sp d a b disp)

/-- R450. -/
def redBody (sz : Size) (sp : Space) (op : AOp) (d a : XReg) (disp : Word) : M s0 Fin := do
  let c ← myCtx
  storeMany sp [(c.r.getX a + disp, lowBits (c.r.getX d) (sizeBits sz))] (sizeBytes sz) (some op) false
  return .next

def execRed (sz : Size) (sp : Space) (op : AOp) (d a : XReg) (disp : Word) (sy : Sync) (s : State) : Outcome :=
  strandStep s sy false false (pure ()) (redBody sz sp op d a disp)

/-! ### Leases (R172 to R174, R434, R475) -/

/-- The context's lease on the line of an address. -/
def Ctx.leaseOn (c : Ctx) (va : Word) : Option Lease :=
  c.leases.find? fun l => l.va == lineOf va && l.asid == c.r.asid

/-- A fifth LEASE first ends the context's oldest lease (R173). DESIGN CHOICE (log 78): the context forgets that lease, so UNLEASE
answers 2 for it; R173 names only the bound and a save for status 1. -/
def endFifth (va : Word) : M s0 Unit := do
  let s ← st
  let c := s.ctx s.cur
  let live := c.leases.filter fun l => l.live && !(l.va == lineOf va && l.asid == c.r.asid)
  match live with
  | oldest :: _ =>
    if 4 ≤ live.length then
      settleHolder s.cur
      modMe fun x => { x with leases := x.leases.filter fun y => y != oldest }
      wakeLine oldest.line
  | [] => pure ()

/-- A grant. -/
def grantLease (va : Word) (pa : Nat) : M s0 Unit := do
  let s ← st
  let c := s.ctx s.cur
  let bound := (s.die (dieOf s.cur)).leaseBound.toNat
  let rest := c.leases.filter fun l => !(l.va == lineOf va && l.asid == c.r.asid)
  modMe fun x =>
    { x with
      leases := rest ++
        [{ va := lineOf va, asid := c.r.asid, line := pa / 256, granted := s.time, bound := bound, live := bound != 0 }] }

def leaseBody (a : XReg) (disp : Word) : M s0 Fin := do
  let s ← st
  drainStores s.cur
  let c ← myCtx
  let ea := c.r.getX a + disp
  afterSignal
  let xs ← checkGlobal [ea] 1 .lease false
  match xs with
  | [x] =>
    match x.place with
    | some (.phys pa) =>
      if (c.leaseOn ea).any (·.live) then return .next
      else
        endFifth ea
        waitLease xs
        grantLease ea pa
        stampLines (some s.cur) pa 1
        let miss ← touchL1 x 1
        return loaded miss
    | _ => trap .xlate ea
  | _ => trap .xlate ea

def execLease (a : XReg) (disp : Word) (sy : Sync) (s : State) : Outcome :=
  strandStep s sy false false (pure ()) (leaseBody a disp)

/-- A strand whose leases a save of another device's, or one that this device no longer remembers, has ended gets status 1 or 2:
which lines it held is not known here (R191, log 46). -/
def unleaseBody (d a : XReg) (disp : Word) : M s0 Fin := do
  let c ← myCtx
  match c.leaseOn (c.r.getX a + disp) with
  | none =>
    let i ← if c.leasesLost then choose 2 else pure 0
    writeX d (if i = 1 then 1 else 2)
  | some l =>
    let s ← st
    if l.live then drainStores s.cur
    modMe fun x => { x with leases := x.leases.filter fun y => y != l }
    writeX d (if l.live then 0 else 1)
    if l.live then wakeLine l.line
  return .next

def execUnlease (d a : XReg) (disp : Word) (sy : Sync) (s : State) : Outcome :=
  strandStep s sy false false (pure ()) (unleaseBody d a disp)

end Sys2Proof.Machine
end

