-- ==== Sys2Proof/Machine/CounterInstr.lean ====
section
/-! DEFINITION. Counter instructions and fences (R107, R154, R198 to R201, R206, R357, R399 to R409, R411, R420, R426,
R470). -/

namespace Sys2Proof.Machine

open Sys2Proof

variable {s0 : State}

/-- A counter instruction: its slot is checked at decode (R94, R399). -/
def counterInstr (slot : BitVec 8) (sy : Sync) (pre : (s : State) → M s Unit) (body : (s : State) → M s Fin) (s : State) :
    Outcome :=
  strandStep s sy false false (do legalSlot slot.toNat; pre s) (body s)

/-- R198: the binding, or the trap. -/
def cbindBody (slot : BitVec 8) (a : XReg) : M s0 Fin := do
  let s ← st
  let c := s.ctx s.cur
  let ref := c.r.getX a
  let core := coreOf s.cur
  if ref = 0 then
    let cell := c.cellBase + slot.toNat
    setSlot s.cur slot.toNat { ref := s.cellRef core cell, mark := 0, gen := (s.cell core cell).g, loc := true }
    return .next
  else if isLocalRef ref then
    match s.localRef ref with
    | some (n, cell) =>
      if n ≠ core then trap .xlate ref
      else
        setSlot s.cur slot.toNat { ref := ref, mark := 0, gen := (s.cell core cell).g, loc := true }
        return .next
    | none => trap .xlate ref
  else if ref.toNat % 8 ≠ 0 then trap .align ref
  else
    match ← resolveRef (s.reqOf s.cur) { rd := true, wr := false } ref with
    | .error cause => trap cause ref
    | .ok k =>
      let s ← st
      setSlot s.cur slot.toNat { ref := ref, mark := 0, gen := s.ctrG k, loc := false }
      return .next

def execCbind (slot : BitVec 8) (a : XReg) (sy : Sync) : State → Outcome :=
  counterInstr slot sy (fun _ => pure ()) fun _ => cbindBody slot a

/-- R404. -/
def cmarkBody (slot : BitVec 8) (a : XReg) (v : Word) : M s0 Fin := do
  let s ← st
  setSlot s.cur slot.toNat { s.slot s.cur slot.toNat with mark := (s.ctx s.cur).r.getX a + v }
  return .next

def execCmark (slot : BitVec 8) (a : XReg) (v : Word) (sy : Sync) : State → Outcome :=
  counterInstr slot sy (fun _ => pure ()) fun _ => cmarkBody slot a v

/-- The counter of a slot, or a precise trap with the reference. DESIGN CHOICE (log 89): a reference that names no counter any more
raises XLATE, the one cause of the kind that the entries of CADD, CREAD, CRESET and CWAIT name (R390), where its page has lost
K = 1 as well. -/
def needSlot (n : Nat) (u : CtrUse) : M s0 Ctr := do
  match ← mySlot n u with
  | .error (_, ref) => trap .xlate ref
  | .ok k => return k

/-- GEN of a slot takes the home's G (R199). -/
def setGen (slot : Nat) (g : BitVec 16) : M s0 Unit := do
  let s ← st
  setSlot s.cur slot { s.slot s.cur slot with gen := g }

/-- R400, R401. -/
def caddBody (d : XReg) (slot : BitVec 8) (a : XReg) (v : Word) (sc : Scope) : M s0 Fin := do
  let s ← st
  let c := s.ctx s.cur
  let amount := (c.r.getX a + v).toNat
  let ref := (s.slot s.cur slot.toNat).ref
  if 2 ^ 48 ≤ amount then trap .ctrovf ref
  else
    release sc
    let ret := d ≠ 0
    match ← mySlot slot.toNat { rd := ret, wr := true } with
    | .error (_, ref) =>
      if ret then trap .xlate ref
      else
        let n ← freshSeq
        pendError s.cur { cause := .xlate, tval := ref, engine := false, seq := n }
        return .next
    | .ok k =>
      let r ← addAt k amount none ref { s.adder s.cur with silent := ret }
      if ret then
        writeX d r.old
        setGen slot.toNat r.gen
      return if ret && r.overflow then .trapped .ctrovf ref else .next

def execCadd (d : XReg) (slot : BitVec 8) (a : XReg) (v : Word) (sy : Sync) : State → Outcome :=
  counterInstr slot sy (fun _ => pure ()) fun _ => caddBody d slot a v sy.scope

/-- R405. -/
def creadBody (d : XReg) (slot : BitVec 8) : M s0 Fin := do
  let a ← me
  drainStores a
  let k ← needSlot slot.toNat { rd := true, wr := false }
  readCtr a k
  let s ← st
  writeX d (s.ctrV k)
  setGen slot.toNat (s.ctrG k)
  return .next

def execCread (d : XReg) (slot : BitVec 8) (sy : Sync) : State → Outcome :=
  counterInstr slot sy (fun _ => pure ()) fun _ => creadBody d slot

/-- R406. -/
def cresetBody (slot : BitVec 8) : M s0 Fin := do
  let a ← me
  drainStores a
  let k ← needSlot slot.toNat { rd := false, wr := true }
  let g ← resetCtr k (some a)
  setGen slot.toNat g
  return .next

def execCreset (slot : BitVec 8) (sy : Sync) : State → Outcome :=
  counterInstr slot sy (fun _ => kernelOnly) fun _ => cresetBody slot

/-! ### CWAIT (R407 to R409) -/

/-- The slots that CWAIT watches: N itself, or N + i for each bit i of xA. -/
def cwaitSlots (slot : BitVec 8) (a : Option XReg) (r : Regs) : List Nat :=
  match a with
  | none => [slot.toNat]
  | some a => ((List.range 64).filter fun i => (r.getX a).getLsbD i).map fun i => slot.toNat + i

def cwaitPre (slot : BitVec 8) (a : Option XReg) : M s0 Unit := do
  let c ← myCtx
  legal ((cwaitSlots slot a c.r).all fun n => decide (n < c.nslots) && decide (n < 256))

/-- The deadline of the first evaluation: none for no timeout. -/
def cwaitDeadline (s : State) (c : Ctx) (b : XReg) : Option Nat :=
  match c.prog.deadline with
  | some t => some t
  | none => if c.r.getX b = BitVec.allOnes 64 then none else some (min (s.time + (c.r.getX b).toNat) (2 ^ 64 - 1))

/-- What CWAIT writes: the status, and FIRST for the any form (R200). -/
def cwaitWord (slot : BitVec 8) (any : Bool) (status first : Nat) : Word :=
  wordOf (status + if any && status == 0 then (first - slot.toNat) * 256 else 0)

def cwaitDone (d : XReg) (slot : BitVec 8) (any : Bool) (sc : Scope) (status first : Nat) : M s0 Fin := do
  if status = 0 then acquire sc
  modMe fun x => { x with wait := none }
  writeX d (cwaitWord slot any status first)
  return .next

/-- The wait of a CWAIT: one watch for each slot, in ascending order. -/
def cwaitWait (slot : BitVec 8) (a : Option XReg) (all : Bool) (b : XReg) : M s0 Wait := do
  let c ← myCtx
  let mut ws : List Watch := []
  for n in cwaitSlots slot a c.r do
    let k ← needSlot n { rd := true, wr := false }
    let s ← st
    let w ← mkWatch ws n k (s.slot s.cur n).mark
    ws := ws ++ [w]
  let s ← st
  return { kind := .cwait, watches := ws, all := all, deadline := cwaitDeadline s c b }

def cwaitBody (d : XReg) (slot : BitVec 8) (a : Option XReg) (all : Bool) (b : XReg) (sc : Scope) : M s0 Fin := do
  let c ← myCtx
  let any := a.isSome && !all
  match c.prog.ans with
  | some (.cwait status first) => cwaitDone d slot any sc status first
  | _ =>
    let me_ ← me
    drainStores me_
    -- a follower's wait stays registered while it stalls in place
    let w ← match c.wait with
      | some w => pure w
      | none => cwaitWait slot a all b
    let s ← st
    if s.satWait w then
      readWatches s.cur (w.watches.filter s.satWatch)
      refreshGens s.cur (w.watches.filter s.satWatch)
      cwaitDone d slot any sc 0 (s.firstSat w)
    else if w.deadline.any fun t => decide (t ≤ s.time) then cwaitDone d slot any sc 2 0
    else stop (.wait w)

def execCwait (d : XReg) (slot : BitVec 8) (b : XReg) (sy : Sync) : State → Outcome :=
  counterInstr slot sy (fun _ => cwaitPre slot none) fun _ => cwaitBody d slot none false b sy.scope

def execCwaitAny (d : XReg) (slot : BitVec 8) (a b : XReg) (sy : Sync) : State → Outcome :=
  counterInstr slot sy (fun _ => cwaitPre slot (some a)) fun _ => cwaitBody d slot (some a) false b sy.scope

def execCwaitAll (d : XReg) (slot : BitVec 8) (a b : XReg) (sy : Sync) : State → Outcome :=
  counterInstr slot sy (fun _ => cwaitPre slot (some a)) fun _ => cwaitBody d slot (some a) true b sy.scope

/-! ### Fences -/

/-- R420: the release stands before the body. -/
def fenceBody (sc : Scope) : M s0 Fin := do
  acquire sc
  return .next

def execFence (sy : Sync) (s : State) : Outcome := strandStep s sy true false (pure ()) (fenceBody sy.scope)

/-- A pending error that starts a gang's rollback is reported at STEP (R295, R411). -/
def Ctx.reported (c : Ctx) : List Pend := if c.gang.isSome then c.pend.filter fun p => p.cause != .poison else c.pend

/-- sr.err names the oldest pending poisoned read (R355). -/
def Ctx.withPend (c : Ctx) (l : List Pend) : Ctx :=
  { c with
    pend := l
    errAddr := match l.find? Pend.isRead with | some p => p.tval | none => c.errAddr }

/-- The oldest of the FAULTED lines and the pending errors is reported, one per execution (R357). -/
def reportOldest : M s0 Unit := do
  let c ← myCtx
  let line := oldestLine c.lines
  let err := c.reported.head?
  match line, err with
  | some l, some p => if l.age < p.seq then faultTrap else reportPend p
  | some _, none => faultTrap
  | none, some p => reportPend p
  | none, none =>
    if c.ovf then
      modMe fun x => { x with ovf := false }
      stop (.trap .poison 0 true true)
where
  reportPend (p : Pend) : M s0 Unit := do
    modMe fun x => x.withPend (x.pend.filter fun q => q != p)
    stop (.trap p.cause p.tval true true)

/-- R411: EFENCE reports before it signals. -/
def efenceReport : M s0 Unit := do
  let s ← st
  drainStores s.cur
  reportOldest

def efenceBody : M s0 Fin := return .next

def execEfence (sy : Sync) (s : State) : Outcome :=
  strandStepE s sy false false (pure ()) efenceReport fun _ => efenceBody

/-- The pages of TBLFENCE's range, as addresses rounded to 64 KiB: none for a whole ASID (R470). -/
def tblRange (a b : Word) : Option (Nat × Nat) :=
  if b = 0 then none else some (a.toNat / 65536, (a.toNat + b.toNat - 1) / 65536)

def inPages (r : Option (Nat × Nat)) (va : Nat) : Bool :=
  match r with
  | none => true
  | some (lo, hi) => decide (lo ≤ va / 65536) && decide (va / 65536 ≤ hi)

/-- An entry or line of the range: in its ASID, or of a G page in every ASID (R154). -/
def inFence (asid : BitVec 16) (range : Option (Nat × Nat)) (id : Nat) (g : Bool) (va : Nat) : Bool :=
  (id == asid.toNat || g) && inPages range va

/-- A translation-cache entry that maps a page of the range (R154): `k` is its key. -/
def State.tlbFenced (s : State) (asid : BitVec 16) (range : Option (Nat × Nat)) (k : Nat) (e : TlbEntry) : Bool :=
  let node := s.nodeId.toNat * 2 ^ 40
  let (lo, hi) := e.span (k % 2 ^ 32)
  (k / 2 ^ 32 == asid.toNat || leafG e.leaf) &&
    match range with
    | none => true
    | some (a, b) => decide (a ≤ node + hi) && decide (node + lo ≤ b)

/-- A page is G by some translation that its die holds. -/
def State.heldG (s : State) (a : Nat) (asid : BitVec 16) (va : Word) : Bool :=
  (s.cached (dieOf a) asid va).any fun e => leafG e.leaf

/-- A context holds a lease on the range, or an access to it that was translated and has not completed (R154). -/
def State.fenced (s : State) (asid : BitVec 16) (range : Option (Nat × Nat)) (a : Nat) (c : Ctx) : Bool :=
  let hit (id : BitVec 16) (va : Word) : Bool := inFence asid range id.toNat (s.heldG a id va) va.toNat
  (c.leases.any fun l => l.live && hit l.asid l.va) || (c.lines.any fun l => l.queued.isSome && hit l.asid l.va) ||
  (c.prog.lease.any fun q => q.at_.any fun e => hit c.r.asid e.1) ||
  (c.prog.part.any fun p => p.rest.any fun x => hit c.r.asid x.va)

/-- R154, after the release: translation caches and L1 lines of the range are gone, no lease on it lasts, and what was translated
by the old entries has completed. -/
def tblfenceBody (a b : XReg) (sc : Scope) : M s0 Fin := do
  acquire sc
  let s ← st
  let c := s.ctx s.cur
  let asid := c.r.asid
  let range := tblRange (c.r.getX a) (c.r.getX b)
  if s.ctxs.any fun p => s.fenced asid range p.1 p.2 then stop .stall
  for (n, x) in s.ctxs do
    if !x.farw.isEmpty then drainFar n
  drainEngineFar fun _ => true
  let line (e : Nat × L1Line) : Bool := inFence asid range (e.1 / 2 ^ 64) (e.2.leaf.any fun l => leafG l.leaf) (e.1 % 2 ^ 64)
  for (d, x) in s.dies do
    modDie d fun y =>
      { y with
        tlb := (x.tlb.map fun e => (e.1, e.2.filter fun l => !s.tlbFenced asid range e.1 l)).filter fun e => !e.2.isEmpty
        l2 := y.l2.filter fun e => !line e }
  for (n, _) in s.cores do
    modCore n fun y =>
      { y with
        l1 := y.l1.filter fun e => !line e
        icache := y.icache.map fun e =>
          if inFence asid range (e.1 / 2 ^ 64) e.2.g (e.1 % 2 ^ 64) then (e.1, { e.2 with leaf := none }) else e }
  return .next

def execTblfence (a b : XReg) (sy : Sync) (s : State) : Outcome :=
  strandStep s sy true false (pure ()) (tblfenceBody a b sy.scope)

/-! ### ICINV (R107, R426) -/

/-- The cores of an extent (R107). -/
def covers (e : Extent) (issuer core : Nat) : Bool :=
  match e with
  | .core => core == issuer
  | .cluster => core == issuer || (!isEasel issuer && !isEasel core && clusterOfCore core == clusterOfCore issuer)
  | .die => dieOfCore core == dieOfCore issuer
  | .device => true

/-- A word that a core caches, or fetches, is in the range of an ICINV: under its address space, or from a G page (R426). -/
def Cover.hits (v : Cover) (id : Nat) (g : Bool) (va : Nat) : Bool :=
  (id == v.asid.toNat || g) &&
    match v.range with
    | none => true
    | some (lo, hi) => decide (lo ≤ va) && decide (va < hi)

/-- The range of X(A) and X(B). -/
def icRange (a b : Word) : Option (Nat × Nat) := if b = 0 then none else some (a.toNat, min (a.toNat + b.toNat) (2 ^ 64))

/-- An ICINV: the covered cores discard their cached words of the range, and fetch no version any more that a store before it has
replaced (R107, R108). An ICINV over the same range takes the place of an earlier one. -/
def coverWords (v : Cover) : M s0 Unit := do
  let s ← st
  for (n, _) in s.cores do
    if covers v.extent v.core n then
      modCore n fun y =>
        { y with icache := y.icache.filter fun w => !v.hits (w.1 / 2 ^ 64) w.2.g (w.1 % 2 ^ 64) }
  let same (w : Cover) : Bool := w.extent == v.extent && w.core == v.core && w.asid == v.asid && w.range == v.range
  upd (.icCovers (v :: s.icCovers.filter fun w => !same w))

/-- An agent's ICINV over a range of an address space: every store so far precedes it, and of far code what the agent has seen. -/
def coverOf (s : State) (agent : Nat) (e : Extent) (asid : BitVec 16) (range : Option (Nat × Nat)) : Cover :=
  { extent := e, core := coreOf agent, asid := asid, range := range, stores := s.codeSeq
    farAcq := TMap.get 0 s.farAcq agent
    farSeen := (s.farFloor.filter fun p => p.1 % 2 ^ 40 == agent).map fun p => (p.1 / 2 ^ 40, p.2) }

/-- Earlier stores of the strand are performed: the fetches that follow see them (R108). -/
def icinvBody (e : Extent) (a b : XReg) : M s0 Fin := do
  let me_ ← me
  drainStores me_
  let s ← st
  let r := (s.ctx me_).r
  coverWords (coverOf s me_ e r.asid (icRange (r.getX a) (r.getX b)))
  return .next

def execIcinv (e : Extent) (a b : XReg) (sy : Sync) (s : State) : Outcome :=
  strandStep s sy false false (pure ()) (icinvBody e a b)

end Sys2Proof.Machine
end

