-- ==== Sys2Proof/Machine/Fetch.lean ====
section
/-! DEFINITION. Fetching an instruction's words, the patch overlay, and what a follower takes from its stream (R61 to R66,
R101, R105 to R109, R325). -/

namespace Sys2Proof.Machine

open Sys2Proof

variable {s0 : State}

def icacheKey (asid : BitVec 16) (va : Word) : Nat := asid.toNat * 2 ^ 64 + va.toNat

/-- What a fetch of a word may give: its versions, oldest first, and the leaf that it was fetched by. -/
structure Fetched where
  words : List Word
  leaf : Option TlbEntry
  deriving DecidableEq, Repr

def Fetched.g (f : Fetched) : Bool := f.leaf.any fun e => leafG e.leaf

/-- Where a fetch that hits a line of L1 or L2 goes, by the recorded bits (R141). -/
def L1Line.fetchPlace (x : L1Line) (q : Req) (va : Word) : Except Cause LPlace :=
  if x.leaf.any fun e => !leafX e.leaf then .error .xlate else x.place q va

/-- The ICINVs that cover a core's fetch of a word: under its address space, or of a G page (R107, R108, R426). -/
def State.coversOf (s : State) (core : Nat) (asid : BitVec 16) (g : Bool) (va : Word) : List Cover :=
  s.icCovers.filter fun v => covers v.extent v.core core && v.hits asid.toNat g va.toNat

/-- Words of near memory from before stores that no ICINV of `cs` has covered, oldest first (R106). -/
def State.oldNear (s : State) (cs : List Cover) (pa : Nat) : List Word :=
  (((TMap.find s.codeOld (pa / 8)).getD []).filter fun e => !cs.any fun v => decide (e.ends ≤ v.stores)).map (·.word)

/-- The same of far memory: an ICINV counts for the writes that its strand had seen, once a system-scope acquire of the fetching
strand has seen them too (R108). -/
def State.oldFar (s : State) (cs : List Cover) (a c : Nat) : List Word :=
  let acq := TMap.get 0 s.farAcq a
  let floor := TMap.get 0 s.farFloor (c * 2 ^ 40 + a)
  (((TMap.find s.farOld c).getD []).zipIdx.filter fun p =>
    let seen := decide (p.1.2 ≤ acq) || decide (p.2 < floor)
    !(seen && cs.any fun v => decide (p.1.2 ≤ v.farAcq) || decide (p.2 < TMap.get 0 v.farSeen c))).map (·.1.1)

/-- The word that a core's instruction cache holds comes first where memory has no such version any more. -/
def withCached (c : Option IcWord) (ws : List Word) : List Word :=
  match c with
  | some w => if ws.contains w.word then ws else w.word :: ws
  | none => ws

/-- The versions of the word at an address, or the cause of a fault. -/
def fetchMapped (a : Nat) (va : Word) : M s0 (Except Cause Fetched) := do
  let s ← st
  let q := s.reqOf a
  let core := coreOf a
  let place ← match ← probeCache a va 8 with
    | some (x, _) => pure (x.fetchPlace q va)
    | none =>
      match ← xlate q .fetch va with
      | .error c => pure (.error c)
      | .ok (.far k) => pure (.ok (.far k))
      | .ok (.phys pa) => pure (if isConfig pa then .error .xlate else .ok (.phys pa))
  match place with
  | .error c => return .error c
  | .ok p =>
    let s ← st
    let leaf := s.leafAt q.die q.asid va p
    let cs := s.coversOf core q.asid (leaf.any fun e => leafG e.leaf) va
    let ws ← match p with
      | .phys pa => do
        let bs ← readNear a q.die pa 8 (s.keyOf q.die q.asid va pa)
        pure (s.oldNear cs pa ++ [bytesWord bs])
      | .far k => do
        settleFar k 8
        let s ← st
        pure (s.oldFar cs a (k / 8) ++ [s.farChunk (k / 8)])
      | _ => pure []
    return .ok { words := withCached (TMap.find (s.core core).icache (icacheKey q.asid va)) ws, leaf := leaf }

/-- The patch overlay on a base word: a 4-byte value replaces bits 27..0 (R105). DESIGN CHOICE (log 62): of two entries of one
list that name one instruction the first holds; the spec does not say which. -/
def patchBase (ps : List Patch) (pc w : Word) : Word :=
  match ps.find? fun p => p.at_ == pc && !p.wide with
  | some p => (w &&& ~~~(0xFFFFFFF : Word)) ||| (p.value &&& 0xFFFFFFF)
  | none => w

/-- The patch overlay on an extension word: an 8-byte value replaces bits 59..0 (R105). -/
def patchExt (ps : List Patch) (pc w : Word) : Word :=
  match ps.find? fun p => p.at_ == pc && p.wide with
  | some p => (w &&& 0xF000000000000000) ||| (p.value &&& 0x0FFFFFFFFFFFFFFF)
  | none => w

/-- A word of the monitor's region, or of memory (R375). -/
def fetchWord (a : Nat) (va : Word) : M s0 (Except Cause Fetched) := do
  let s ← st
  match s.regionOff (s.ctx a).r.mode va 8 with
  | some off => return .ok { words := [bytesWord (s.regionBytes off 8)], leaf := none }
  | none => fetchMapped a va

/-- The patch table that a strand fetches with: its launch's, which a strand from a continuation record shares with the strands
whose contexts it takes (R82, R105). -/
def State.patches (s : State) (a : Nat) : List Patch :=
  match (s.ctx a).owner.bind fun k => TMap.find s.launches k with
  | some l => l.patches
  | none => []

/-- One of the versions of a word, by its place. -/
def pickVersion (vs : List Word) : M s0 Nat := if vs.length ≤ 1 then pure 0 else choose vs.length

/-- Version k of a word; one with fewer versions has its newest. -/
def versionAt (vs : List Word) (k : Nat) : Word := vs.getD k (vs.getLastD 0)

/-- The fetched word enters the core's instruction cache. -/
def cacheWord (a : Nat) (va w : Word) (f : Fetched) : M s0 Unit := do
  let s ← st
  let c := s.ctx a
  modCore (coreOf a) fun k =>
    { k with icache := TMap.put k.icache (icacheKey c.r.asid va) { word := w, g := f.g, leaf := f.leaf } }

/-- The complete instruction of version k of two words. -/
def wholeAt (bs es : List Word) (k : Nat) : Word × Option Word :=
  let b := versionAt bs k
  (b, if hasExt b then some (versionAt es k) else none)

/-- The words of one instruction from version i of its base word and version j of the word after it: two words of different versions
raise ILLEGAL, none, or make the complete instruction of one of the two (R109). -/
def mixVersions (bs es : List Word) (i j : Nat) : M s0 (Option (Word × Option Word)) := do
  let got := (versionAt bs i, some (versionAt es j))
  if wholeAt bs es i = got || wholeAt bs es j = got then return some got
  else
    let n ← choose 3
    return if n = 0 then none else some (wholeAt bs es (if n = 1 then i else j))

/-- The words of the instruction at the program counter, or the cause and sr.tval of the fetch (R101, R106, R109). -/
def fetch (a : Nat) : M s0 (Except (Cause × Word) (Word × Option Word)) := do
  let s ← st
  let c := s.ctx a
  let pc := c.r.pc
  if pc.toNat % 8 ≠ 0 then return .error (.align, pc)
  match ← fetchWord a pc with
  | .error e => return .error (e, pc)
  | .ok bs =>
    let i ← pickVersion bs.words
    let b := versionAt bs.words i
    let ps := s.patches a
    if !hasExt b then
      cacheWord a pc b bs
      return .ok (patchBase ps pc b, none)
    else
      match ← fetchWord a (pc + 8) with
      | .error e => return .error (e, pc + 8)
      | .ok es =>
        let j ← pickVersion es.words
        match ← mixVersions bs.words es.words i j with
        | none => return .error (.illegal, patchBase ps pc b)
        | some (b, e) =>
          cacheWord a pc b bs
          match e with
          | some e =>
            cacheWord a (pc + 8) e es
            return .ok (patchBase ps pc b, some (patchExt ps pc e))
          | none => return .ok (patchBase ps pc b, none)

/-- The line of a word that a core has fetched comes into its L1, by the leaf of the fetch (R141). -/
def lineIn1 (core key : Nat) : M s0 Unit := do
  let s ← st
  match TMap.find (s.core core).icache key with
  | some w =>
    match w.leaf with
    | some e =>
      let asid := BitVec.ofNat 16 (key / 2 ^ 64)
      let va := wordOf (key % 2 ^ 64)
      modCore core fun k => { k with icache := TMap.put k.icache key { w with leaf := none } }
      let p : LPlace := if leafFar e.leaf then .far (farKey (BitVec.ofNat 8 (leafOwner e.leaf)) asid va) else .phys (leafPa e va)
      fillL1 core asid va p (some e) (sectorMask (va.toNat % 256) 8) false
    | none => pure ()
  | none => pure ()

/-- The words of the instruction that executes. -/
def setIr (base : Word) (ext : Option Word) : M s0 Unit := modMe fun x => { x with ir := base, irExt := ext }

/-- What the RUNNING context of a core issues next: none, when the fetch trapped or gave an undecodable word, whose trap is
taken. -/
def fetchInstr (a : Nat) : M s0 (Option Instr) := do
  upd (.fwd none)
  upd (.cur a)
  match ← fetch a with
  | .error (c, v) =>
    let x ← myCtx
    takeMyTrap c false x.r.pc v
    return none
  | .ok (base, ext) =>
    setIr base ext
    match decode base ext with
    | .ok i => return some i
    | .error _ =>
      let x ← myCtx
      takeMyTrap .illegal false x.r.pc base
      return none

/-- What a follower takes from its stream: none, when it has nothing to execute now (R61, R63). -/
def followInstr (core : Nat) : M s0 (Option Instr) := do
  let s ← st
  match (s.core core).trace with
  | .follower _ true (f :: _) =>
    let a := 16 * core + f.ctx
    let x := s.ctx a
    if !x.phase.alive then
      popStream core
      return none
    else if x.phase == .waiting || x.halted then return none
    else
      match s.runningCtx core with
      | some j => if 16 * core + j ≠ a then modCtx (16 * core + j) fun y => { y with phase := .ready }
      | none => pure ()
      modCtx a fun y => { y with phase := .running, r := { y.r with pc := f.pc } }
      upd (.cur a)
      upd (.fwd (some f))
      setIr f.base f.ext
      match decode f.base f.ext with
      | .ok i => return some i
      | .error _ => return none
  | _ => return none

end Sys2Proof.Machine
end

