-- ==== Sys2Proof/Machine/Strand.lean ====
section
/-! DEFINITION. Instructions of strands: SPAWN, FINISH, EXIT, YIELD, TRACE, UNTRACE, STEP (R57, R60 to R66, R71 to R80, R295,
R413, R422, R458, R459, R465, R466, R472, R476, R495). -/

namespace Sys2Proof.Machine

open Sys2Proof

variable {s0 : State}

/-! ### SPAWN -/

/-- The record of R71 under the ASID of the strand that executes SPAWN. -/
def contRecOf (ws : List Word) (asid : BitVec 16) : ContRec :=
  let w (i : Nat) : Word := ws.getD i 0
  { code := w 3, frame := w 2, join := w 1, asid := asid, prio := (w 0).extractLsb' 2 3, cls := (w 0).extractLsb' 0 2 }

/-- The 32 bytes of a record as the die's ring holds them. -/
def ContRec.words (r : ContRec) : List Word :=
  [wordOf (r.asid.toNat * 2 ^ 48 + r.prio.toNat * 4 + r.cls.toNat), r.join, r.frame, r.code]

/-- EN and 2^LOG2N of a level (R72). -/
def ContQ.on (q : ContQ) : Bool := q.cfg.getLsbD 5
def ContQ.cap (q : ContQ) : Nat := 2 ^ field q.cfg 0 5
def ContQ.full (q : ContQ) : Bool := decide (q.cap ≤ q.recs.length)

/-- A record enters at the tail of a level; the ring in device memory takes its bytes (R72). DESIGN CHOICE (log 64): the die works
on its own copy of the records and does not read the ring back, and the slot written counts appends, whatever was removed
from the middle; the spec says neither. -/
def appendRec (die level : Nat) (r : ContRec) : M s0 Unit := do
  let s ← st
  let q := (s.die die).queue level
  let at_ := field q.cfg 12 34 * 4096 + 32 * (q.tail % q.cap)
  stampLines none at_ 32
  writeMem at_ (wordsBytes r.words)
  modDie die fun d =>
    let q := d.queue level
    { d with queues := TMap.put d.queues level { q with recs := q.recs ++ [(r, s.time)], tail := q.tail + 1 } }

/-- The place 8 i bytes on. -/
def LPlace.plus (p : LPlace) (n : Nat) : LPlace :=
  match p with
  | .loc a => .loc (a + n)
  | .phys pa => .phys (pa + n)
  | .far k => .far (k + n)
  | .region off => .region (off + n)

/-- A 32-byte or longer record that an instruction reads precisely: ALIGN, the causes of a load, POISON with the record's
address (R283, R458). -/
def readRecord (va : Word) (n align : Nat) : M s0 (List Word) := do
  checkAlign [va] align
  let s ← st
  drainStores s.cur
  let xs ← checkGlobal [va] n .load false
  waitLease xs
  let mut ws : List Word := []
  for i in List.range (n / 8) do
    for x in xs do
      match x.place with
      | some p =>
        let (v, bad) ← loadPlace (va + wordOf (8 * i)) 8 (p.plus (8 * i)) false false false
        if bad.isSome then trap .poison va
        ws := ws ++ [wordOf v]
      | none => pure ()
  return ws

/-- The record of a SPAWN that has not been read yet, and its level's queue. -/
def spawnRead (a : XReg) : M s0 (Option ContRec) := do
  let c ← myCtx
  let waits := c.wait.any fun w => match w.kind with | .spawn _ => true | _ => false
  if c.prog.ans == some .spawned then return none
  else if waits then stop .stall
  else
    let rec_ := c.r.getX a
    let ws ← readRecord rec_ 32 32
    legal (field (ws.headD 0) 5 43 == 0)
    let r := contRecOf ws c.r.asid
    let s ← st
    if !((s.die (dieOf s.cur)).queue r.prio.toNat).on then trap .xlate rec_
    else return some r

def spawnBody (sc : Scope) (r : Option ContRec) : M s0 Fin := do
  match r with
  | none => return .next
  | some r =>
    release sc
    let s ← st
    let die := dieOf s.cur
    let q := (s.die die).queue r.prio.toNat
    if q.full || !q.waiting.isEmpty then
      stop (.wait { kind := .spawn r, watches := [], all := false, deadline := none })
    else
      appendRec die r.prio.toNat r
      return .next

/-- SPAWN in a gang raises ILLEGAL (R72). -/
def execSpawn (a : XReg) (sy : Sync) (s : State) : Outcome :=
  strandStepE s sy false false (do let c ← myCtx; legal c.gang.isNone) (spawnRead a) (spawnBody sy.scope)

/-! ### EXIT and FINISH -/

/-- Steps 1 to 4 of R413: a line that turns out FAULTED traps before anything is done. -/
def endingBody (sy : Sync) : M s0 Unit := do
  let s ← st
  drainStores s.cur
  let c ← myCtx
  if (oldestFault c.lines).isSome then faultTrap
  endLeases s.cur false
  release sy.scope
  signalAtEnd sy

/-- R413: the strand's own signal stands in the body, before the add of a START strand, a release at system scope (R324). -/
def exitBody (sy : Sync) : M s0 Fin := do
  endingBody sy
  let s ← st
  match (s.ctx s.cur).start with
  | some d =>
    pushScope .system
    logAdd (s.reqOf s.cur) d.ref d.inc.toNat (some d.gen) s.cur
  | none => pure ()
  return .ended

def execExit (sy : Sync) (s : State) : Outcome := strandStep s sy false true (pure ()) (exitBody sy)

/-- R76, R422. -/
def finishBody (sy : Sync) : M s0 Fin := do
  endingBody sy
  let s ← st
  let c := s.ctx s.cur
  let join := c.join.getD 0
  if join ≠ 0 then
    match ← resolveRef (s.reqOf s.cur) { rd := false, wr := true } join with
    | .error cause => reportCtx s.cur .fault c.r.index.toNat join (causeWord cause)
    | .ok k =>
      let _ ← addAt k 1 none join (s.adder s.cur)
      pure ()
  return .ended

/-- FINISH in a strand that no record started, and on an Easel core, raises ILLEGAL (R40, R76). -/
def execFinish (sy : Sync) (s : State) : Outcome :=
  strandStep s sy false true (do let c ← myCtx; let n ← myCore; legal (c.join.isSome && !isEasel n)) (finishBody sy)

/-! ### YIELD -/

def yieldBody : M s0 Fin := return .yield

def execYield (sy : Sync) (s : State) : Outcome := strandStep s sy false false (pure ()) yieldBody

/-! ### TRACE and UNTRACE -/

/-- The status of R60 for position p. -/
def State.traceStatus (s : State) (core p : Nat) : Nat :=
  let leader := core / 8 * 8 + p
  let follows (n : Nat) : Bool := (s.core n).trace != .none
  if follows core then 2
  else if 7 < p || leader = core || (s.core leader).failed then 1
  else if follows leader then 2
  else if !(s.followers core).isEmpty then 3
  else if 7 ≤ (s.followers leader).length then 4
  else 0

/-- R472. -/
def traceBody (d a : XReg) (imm : Word) : M s0 Fin := do
  let s ← st
  let core := coreOf s.cur
  let p := ((s.ctx s.cur).r.getX a + imm).toNat
  let status := s.traceStatus core p
  writeX d (wordOf status)
  if status = 0 then modCore core fun c => { c with trace := .follower (core / 8 * 8 + p) false [] }
  return .next

def execTrace (d a : XReg) (imm : Word) (sy : Sync) (s : State) : Outcome :=
  strandStep s sy false false (onEasel false) (traceBody d a imm)

/-- R66, R476: a follower leaves; its next address is its leader's. DESIGN CHOICE (log 65): the spec does not say what becomes of a
follower that has yet to join when its leader executes UNTRACE; here it goes on waiting to join. -/
def untraceBody : M s0 Fin := do
  let s ← st
  if s.fwd.isSome then leaveTrace (coreOf s.cur)
  return .next

/-- In a core that neither leads nor follows UNTRACE is a no-op, its signal included. -/
def execUntrace (sy : Sync) (s : State) : Outcome :=
  let core := coreOf s.cur
  let alone := !s.isFollower core && (s.followers core).isEmpty
  let slot : M s Unit := match sy.sig with | some g => legalSlot g.slot.toNat | none => pure ()
  strandStep s (if alone then { sy with sig := none } else sy) false false slot untraceBody

/-! ### STEP -/

/-- Steps 2 to 5 of R465; step 6 is the commit that the last arrival makes. -/
def stepArrive (k : Nat) : M s0 Fin := do
  let c ← myCtx
  let s ← st
  if c.pend.any fun p => p.cause == .poison then
    match TMap.find s.launches k with
    | some l => upd (.launch k { l with rollDue := true })
    | none => pure ()
    gangRollback k
    stop .stall
  else
    match c.reported.head? with
    | some p => reportOldest.reportPend p
    | none => pure ()
    if s.engineBusy true fun b => s.ofCtx s.cur b then
      stop (.wait { kind := .step, watches := [], all := false, deadline := none })
    else
      -- the operations' writes are the strand's to release (R187, R465)
      showEngines fun e => e.owner == s.cur
      drainEngineFar fun p => p.owner == s.cur
      release .system
      modMe fun x => { x with gang := x.gang.map fun g => { g with arrived := true } }
      gangCheck k
      let c ← myCtx
      if c.prog.ans == some .stepped then
        acquire .system
        return .next
      else stop (.wait { kind := .step, watches := [], all := false, deadline := none })

def stepBody : M s0 Fin := do
  let c ← myCtx
  match c.gang with
  | none => illegal
  | some g =>
    if c.prog.ans == some .stepped then
      acquire .system
      return .next
    else if g.arrived then stop (.wait { kind := .step, watches := [], all := false, deadline := none })
    else
      if (oldestFault c.lines).isSome then faultTrap
      stepArrive g.launch

/-- STEP outside a gang, and on an Easel core, raises ILLEGAL (R40, R465). -/
def execStep (sy : Sync) (s : State) : Outcome :=
  strandStep s sy false false (do let c ← myCtx; let n ← myCore; legal (c.gang.isSome && !isEasel n)) stepBody

end Sys2Proof.Machine
end

