-- ==== Sys2Proof/Machine/Start.lean ====
section
/-! DEFINITION. The start of a strand in a context, and the way of a context back to FREE (R49 to R53, R75, R81, R82, R194). -/

namespace Sys2Proof.Machine

open Sys2Proof

variable {s0 : State}

/-- Cells of a core with value 0 and a new generation (R194). -/
def freshCells (core base n : Nat) : M s0 Unit := do
  for i in List.range n do
    let s ← st
    upd (.cell (256 * core + base + i) { v := 0, g := (s.cell core (base + i)).g + 1 })

/-- The slots of a context bound to its own cells with mark 0 (R25, R194). -/
def State.ownSlots (s : State) (core base n : Nat) : TMap Slot :=
  (List.range n).map fun i =>
    (i, { ref := s.cellRef core (base + i), mark := 0, gen := (s.cell core (base + i)).g, loc := true })

/-- The context with a strand: everything that belonged to an earlier strand is gone. -/
def Ctx.begin (x : Ctx) (r : Regs) : Ctx :=
  { x with
    phase := .ready
    -- vector registers at and above the budget are not the launch's to clear (R51, R53)
    r := { r with v := x.r.v.filter fun p => decide (x.budget ≤ p.1) }
    errAddr := 0
    ovf := false
    stale := false
    pend := []
    lines := []
    replay := []
    replayNow := false
    straight := false
    linkBase := none
    farw := []
    leases := []
    leasesLost := false
    wait := none
    before := none
    prog := Progress.none
    handler := 0
    join := none
    start := none
    gang := none
    life := x.life + 1
    ir := 0
    irExt := none }

/-- The registers at a start (R53, R121). -/
def startRegs (easel : Bool) (pc : Word) (launch : BitVec 16) (index : BitVec 32) (param : Word) (asid : BitVec 16)
    (lsbase lslim : TMap Word) : Regs :=
  { Regs.reset easel with
    pc := pc
    seed := wordOf (index.toNat + 1)
    launch := launch
    index := index
    param := param
    asid := asid
    lsbase := lsbase
    lslim := lslim }

/-- A strand starts in context `a`, whose budget, cells and slot count stand: its cells are fresh, its slots its own. -/
def startStrand (a : Nat) (r : Regs) (f : Ctx → Ctx) : M s0 Unit := do
  let s ← st
  let x := s.ctx a
  let core := coreOf a
  freshCells core x.cellBase x.nslots
  let s ← st
  let r := { r with slots := s.ownSlots core x.cellBase x.nslots }
  upd (.ctx a (f ((s.ctx a).begin r)))
  startTime a
  startScan core

/-- The context becomes FREE; what is written to it as a register of the window stays, and so do a pre-emption request and
the count of its strands. -/
def freeCtx (a : Nat) : M s0 Unit := do
  modCtx a fun x =>
    { Ctx.reset (isEasel (coreOf a)) with
      r := { Regs.reset (isEasel (coreOf a)) with v := x.r.v }
      preempt := x.preempt
      preemptReg := x.preemptReg
      startReg := x.startReg
      replyReg := x.replyReg
      life := x.life + 1 }

/-! ### Continuation records (R71 to R75) -/

/-- The context can take the record: IDLE on a compute core, ASID and class of its launch (R74). -/
def State.takes (s : State) (a : Nat) (r : ContRec) : Bool :=
  let x := s.ctx a
  x.phase == .idle && !isEasel (coreOf a) && x.preempt.isNone && !s.keptEnded a && !(s.core (coreOf a)).failed &&
  x.budget == 16 * (r.cls.toNat + 1) &&
  (x.owner.bind fun k => TMap.find s.launches k).any fun l => l.asid == r.asid

/-- Some IDLE context of the die can take the record. -/
def State.someTakes (s : State) (die : Nat) (r : ContRec) : Bool :=
  s.ctxs.any fun p => dieOf p.1 == die && s.takes p.1 r

/-- Level and position of the record that the die hands out next: the highest level, head first (R74). -/
def State.nextRec (s : State) (die : Nat) : Option (Nat × Nat × ContRec) :=
  [7, 6, 5, 4, 3, 2, 1, 0].findSome? fun l =>
    ((s.die die).queue l).recs.zipIdx.findSome? fun p =>
      if s.someTakes die p.1.1 then some (l, p.2, p.1.1) else none

/-- A record leaves a level: the oldest waiting SPAWN of the level is appended and completes (R72). -/
def popRec (die level i : Nat) : M s0 Unit := do
  modDie die fun d =>
    let q := d.queue level
    { d with queues := TMap.put d.queues level { q with recs := q.recs.eraseIdx i } }
  let s ← st
  match ((s.die die).queue level).waiting with
  | [] => pure ()
  | b :: rest =>
    modDie die fun d => { d with queues := TMap.put d.queues level { d.queue level with waiting := rest } }
    match (s.ctx b).wait with
    | some w =>
      match w.kind with
      | .spawn r =>
        appendRec die level r
        wakeCtx b (some .spawned)
      | _ => pure ()
    | none => pure ()

/-- R75. -/
def startRecord (a : Nat) (r : ContRec) : M s0 Unit := do
  let s ← st
  match (s.ctx a).owner.bind fun k => TMap.find s.launches k with
  | none => pure ()
  | some l =>
    let regs := startRegs false r.code l.num 0xFFFFFFFF l.param l.asid l.lsbase l.lslim
    startStrand a ((regs.setX 1 r.frame).setX 2 r.join) fun x => { x with join := some r.join }

/-- CONTINUATION_TAKE: the context takes the record that the die hands out next, when it can (R74). -/
def continuationTakeBody (a : Nat) : M s0 Unit := do
  let s ← st
  match s.nextRec (dieOf a) with
  | some (l, i, r) =>
    require "CONTINUATION_TAKE" (s.takes a r)
    popRec (dieOf a) l i
    startRecord a r
  | none => notEnabled "CONTINUATION_TAKE"

def execContinuationTake (a : Nat) (s : State) : Outcome := run s (continuationTakeBody a)

/-- CONTINUATION_AGING: the oldest record of a level below 7 moves to the tail of the next level, which takes it (R73). The
entry time is the die's; its cycles are not device time, so any moment may be the one. -/
def continuationAgingBody (die level : Nat) : M s0 Unit := do
  let s ← st
  let up := (s.die die).queue (level + 1)
  match ((s.die die).queue level).recs with
  | [] => notEnabled "CONTINUATION_AGING"
  | (r, _) :: _ =>
    require "CONTINUATION_AGING" (decide (level < 7) && up.on && !up.full)
    popRec die level 0
    appendRec die (level + 1) r

def execContinuationAging (die level : Nat) (s : State) : Outcome := run s (continuationAgingBody die level)

/-! ### The end (R81, R82) -/

/-- DRAIN_COMPLETE: the last store and signal of an ended strand completes (R81). A FAULTED line that no strand replays
any more is recorded (R358). -/
def drainCompleteBody (a : Nat) : M s0 Unit := do
  let s ← st
  let x := s.ctx a
  -- on a failed core a suspended transfer counts as drained, and the context becomes FREE (R189, R360)
  let failed := (s.core (coreOf a)).failed
  require "DRAIN_COMPLETE"
    (x.phase == .draining && (firstAwaiting x.lines).isNone && !s.engineBusy (!failed) fun b => s.ofCtx a b)
  for l in x.lines do
    match l.faulted with
    | some c => reportCtx a .fault x.r.index.toNat l.va (causeWord c)
    | none => pure ()
  drainFar a
  if x.owner.isNone || failed then freeCtx a
  else
    modCtx a fun x =>
      { x with
        phase := .idle
        lines := []
        replay := []
        replayNow := false
        straight := false
        linkBase := none
        pend := []
        ovf := false
        stale := false
        join := none
        start := none
        r := { x.r with slots := [] } }

def execDrainComplete (a : Nat) (s : State) : Outcome := run s (drainCompleteBody a)

end Sys2Proof.Machine
end

