-- ==== Sys2Proof/Machine/System.lean ====
section
/-! DEFINITION. TRAP, ERET, SRD, SWR and the special registers (R45, R52, R58, R69, R103, R121, R124, R134, R139, R231, R348,
R352, R355, R412, R454, R460 to R462, R473, R474). -/

namespace Sys2Proof.Machine

open Sys2Proof

variable {s0 : State}

/-! ### TRAP -/

/-- The ring of the strand's die takes a user call (R231, R232). -/
def State.ringCall (s : State) : Bool :=
  !isEasel (coreOf s.cur) && (s.ctx s.cur).r.mode == .user && (s.die (dieOf s.cur)).sysring.getLsbD 4

/-- The counter FREE for a call of a context; a cell serves the waits of its own core alone (R193). -/
def freeCtr (agent : Nat) : M s0 (Except Cause Ctr) := do
  let s ← st
  let d := s.die (dieOf agent)
  match ← resolveRef (homeReq (dieOf agent) d.sysasid) { rd := true, wr := false } d.sysfree with
  | .ok (.cell core c) => return if core = coreOf agent then .ok (.cell core c) else .error .xlate
  | r => return r

/-- A call that is parked after a fault, with its ticket, once it has one: until FREE advances past its present value, or, where FREE
names no counter, until it names one again and advances (R232). -/
def parkedWait (agent : Nat) (t : Option Nat) : M s0 Wait := do
  match ← freeCtr agent with
  | .error _ => return { kind := .sysPark t, watches := [], all := false, deadline := none }
  | .ok k =>
    let s ← st
    return { kind := .sysPark t, watches := [{ slot := 0, ctr := k, mark := s.ctrV k + 1, listed := false, seq := 0 }]
             all := true, deadline := none }

/-- The ticket of R231. A fault of the counter TAKE is logged, and the strand is parked without a ticket (R232). -/
def takeTicket (die : Nat) : M s0 (Option Nat) := do
  let s ← st
  let d := s.die die
  match ← resolveRef (homeReq die d.sysasid) { rd := false, wr := true } d.systake with
  | .error c =>
    logEvent die .fault 0 s.cur d.systake (causeWord c)
    return none
  | .ok k =>
    let r ← addAt k 1 none d.systake (Adder.party s.cur)
    return some r.old.toNat

/-- A call by the ring: parked until the die posts it (R231); the reply is the answer (R367). -/
def ringBody : M s0 Fin := do
  let c ← myCtx
  let waits := c.wait.any fun w => match w.kind with | .sysPark _ | .sysPost _ => true | _ => false
  match c.prog.ans with
  | some (.value v) =>
    acquire .system
    writeX 1 v
    return .next
  | _ =>
    if waits then stop .stall
    else
      let s ← st
      -- the record's POSTED add releases the strand's stores
      drainStores s.cur
      match ← takeTicket (dieOf s.cur) with
      | some t => stop (.wait { kind := .sysPark (some t), watches := [], all := true, deadline := none })
      | none =>
        let w ← parkedWait s.cur none
        stop (.wait w)

def trapSysBody (code : BitVec 16) : M s0 Fin := do
  let s ← st
  let c ← myCtx
  let answered := match c.prog.ans with | some (.value _) => true | _ => c.wait.isSome
  if s.ringCall || answered then ringBody else return .trapped .syscall (code.zeroExtend 64)

def execTrapSys (code : BitVec 16) (sy : Sync) (s : State) : Outcome :=
  strandStep s sy false false (pure ()) (trapSysBody code)

def trapBrkBody (code : BitVec 16) : M s0 Fin := return .trapped .brk (code.zeroExtend 64)

def execTrapBrk (code : BitVec 16) (sy : Sync) (s : State) : Outcome :=
  strandStep s sy false false (pure ()) (trapBrkBody code)

/-! ### ERET -/

/-- R352, R412: the signal is delivered in the mode of issue. -/
def eretBody (sy : Sync) : M s0 Fin := do
  signalAtEnd sy
  modMe fun x => { x.modR Regs.leaveTrap with handler := x.handler - 1 }
  -- back at the instruction of a trap under R152, which replays the FAULTED lines (R153)
  modMe fun x => { x with replayNow := x.replay.contains x.r.pc }
  let c ← myCtx
  return .back c.r.pc

def execEret (sy : Sync) (s : State) : Outcome := strandStep s sy false true kernelOnly (eretBody sy)

/-! ### Special registers -/

inductive SReg where
  | vl | fcsr | seed | err | strand | core | cluster | die | node | grp | rank | launch | time | cause | epc | tval
  | status | asid | quantum | mcause | mepc | mtval
  | lsbase (n : Nat) | lslim (n : Nat)
  deriving DecidableEq, Repr

/-- R103. -/
def sreg (n : BitVec 12) : Option SReg :=
  let k := n.toNat
  if k = 0x000 then some .vl
  else if k = 0x001 then some .fcsr
  else if k = 0x002 then some .seed
  else if k = 0x003 then some .err
  else if k = 0x010 then some .strand
  else if k = 0x011 then some .core
  else if k = 0x012 then some .cluster
  else if k = 0x013 then some .die
  else if k = 0x014 then some .node
  else if k = 0x015 then some .grp
  else if k = 0x016 then some .rank
  else if k = 0x017 then some .launch
  else if k = 0x018 then some .time
  else if k = 0x020 then some .cause
  else if k = 0x021 then some .epc
  else if k = 0x022 then some .tval
  else if k = 0x023 then some .status
  else if k = 0x024 then some .asid
  else if k = 0x025 then some .quantum
  else if k = 0x026 then some .mcause
  else if k = 0x027 then some .mepc
  else if k = 0x028 then some .mtval
  else if 0x030 ≤ k ∧ k ≤ 0x037 then some (.lsbase (k - 0x030))
  else if 0x038 ≤ k ∧ k ≤ 0x03F then some (.lslim (k - 0x038))
  else none

/-- Who may read a register (R103). -/
def SReg.reads : SReg → Guard
  | .cause | .epc | .tval | .status | .asid | .quantum | .lsbase _ | .lslim _ => .kernel
  | .mcause | .mepc | .mtval => .monitor
  | _ => .any

/-- Who may write a register; none: no mode (R45, R103). -/
def SReg.writes : SReg → Option Guard
  | .vl | .fcsr | .seed | .err => some .any
  | .time | .mcause | .mepc | .mtval => some .monitor
  | .cause | .epc | .tval | .status | .asid | .quantum | .lsbase _ | .lslim _ => some .kernel
  | _ => none

def TrapRegs.causeWord (t : TrapRegs) : Word := wordOf ((if t.deferred then 256 else 0) + t.code.toNat)

def bit (b : Bool) (n : Nat) : Nat := if b then 2 ^ n else 0

/-- sr.status (R348). -/
def Regs.statusWord (r : Regs) : Word :=
  wordOf (bit r.mintrap 7 + r.mpmode.code.toNat * 32 + bit r.intrap 4 + r.pmode.code.toNat * 4 + r.mode.code.toNat)

/-- sr.err (R355). -/
def Ctx.errWord (c : Ctx) : Word :=
  wordOf ((vaNode c.errAddr).toNat * 2 ^ 56 + field c.errAddr 0 48 * 256 + min c.pend.length 8 * 16 + bit c.ovf 3 +
    bit c.stale 2 + bit (c.pend.any (·.engine)) 1 + bit (c.pend.any Pend.isRead) 0)

/-- sr.fcsr (R124). -/
def Regs.fcsrWord (r : Regs) : Word := wordOf (r.rm.toNat * 2 ^ 13 + r.flags.toNat)

/-- What SRD reads. -/
def State.sregRead (s : State) (x : SReg) : Word :=
  let c := s.ctx s.cur
  let core := coreOf s.cur
  match x with
  | .vl => c.r.vl.zeroExtend 64
  | .fcsr => c.r.fcsrWord
  | .seed => c.r.seed
  | .err => c.errWord
  | .strand => wordOf (c.r.launch.toNat * 2 ^ 48 + s.cur % 16 * 2 ^ 32 + c.r.index.toNat)
  | .core => wordOf core
  | .cluster => if isEasel core then 0xFF else wordOf (clusterOfCore core)
  | .die => wordOf (dieOfCore core)
  | .node => s.nodeId.zeroExtend 64
  | .grp => c.r.grp
  | .rank => c.r.rank
  | .launch => c.r.param
  | .time => s.timeW
  | .cause => c.r.ktrap.causeWord
  | .epc => c.r.ktrap.epc
  | .tval => c.r.ktrap.tval
  | .status => c.r.statusWord
  | .asid => c.r.asid.zeroExtend 64
  | .quantum => (s.core core).quantum.zeroExtend 64
  | .mcause => c.r.mtrap.causeWord
  | .mepc => c.r.mtrap.epc
  | .mtval => c.r.mtrap.tval
  | .lsbase n => TMap.get 0 c.r.lsbase n
  | .lslim n => TMap.get 0 c.r.lslim n

/-- R460. -/
def srdBody (d : XReg) (x : SReg) : M s0 Fin := do
  let s ← st
  writeX d (s.sregRead x)
  return .next

def srdPre (n : BitVec 12) : M s0 Unit := do
  let c ← myCtx
  match sreg n with
  | none => illegal
  | some x => if x.reads.admits c.r.mode then pure () else privileged

def withSreg (n : BitVec 12) (f : SReg → M s0 Fin) : M s0 Fin :=
  match sreg n with
  | none => illegal
  | some x => f x

def execSrd (d : XReg) (n : BitVec 12) (sy : Sync) (s : State) : Outcome :=
  strandStep s sy false false (srdPre n) (withSreg n (srdBody d))

def modeOf (n : Nat) : Option Mode :=
  if n = 0 then some .user else if n = 1 then some .kernel else if n = 2 then some .monitor else none

/-- A write of sr.status (R348): MODE is unchanged, MINTRAP and MPMODE take a monitor's write alone. -/
def Regs.writeStatus (r : Regs) (v : Word) : Regs :=
  let k := { r with intrap := v.getLsbD 4, pmode := (modeOf (field v 2 2)).getD r.pmode }
  if r.mode = .monitor then { k with mintrap := v.getLsbD 7, mpmode := (modeOf (field v 5 2)).getD r.mpmode } else k

/-- A write of sr.fcsr (R124). -/
def Regs.writeFcsr (r : Regs) (v : Word) : Regs :=
  let rm := v.extractLsb' 13 3
  { r with rm := if rm = 0 || rm = 6 || rm = 7 then r.rm else rm, flags := v.truncate 6 }

/-- A write of sr.err (R355). -/
def Ctx.writeErr (c : Ctx) (v : Word) : Ctx :=
  { c with
    errAddr := wordOf (field v 56 8 * 2 ^ 56 + field v 8 48)
    ovf := c.ovf && !v.getLsbD 3
    stale := c.stale && !v.getLsbD 2
    pend := if v.getLsbD 0 then c.pend.filter fun p => !p.isRead else c.pend }

def TrapRegs.writeCause (t : TrapRegs) (v : Word) : TrapRegs := { t with code := v.truncate 8, deferred := v.getLsbD 8 }

/-- sr.vl after a write of a value (R454). -/
def vlOf (core : Nat) (v : Nat) : BitVec 7 := BitVec.ofNat 7 (max 1 (min v (vlMax core)))

/-- R461. -/
def sregWrite (x : SReg) (v : Word) : M s0 Unit := do
  let s ← st
  let core := coreOf s.cur
  let r (f : Regs → Regs) : M s0 Unit := modMe fun c => c.modR f
  match x with
  | .vl => r fun r => { r with vl := vlOf core v.toNat }
  | .fcsr => r fun r => r.writeFcsr v
  | .seed => r fun r => { r with seed := if v = 0 then 1 else v }
  | .err => modMe fun c => c.writeErr v
  | .time => if s.time ≤ v.toNat then upd (.pass (v.toNat - s.time))
  | .cause => r fun r => { r with ktrap := r.ktrap.writeCause v }
  | .epc => r fun r => { r with ktrap := { r.ktrap with epc := v } }
  | .tval => r fun r => { r with ktrap := { r.ktrap with tval := v } }
  | .status => r fun r => r.writeStatus v
  | .asid => r fun r => { r with asid := v.truncate 16 }
  | .quantum => modCore core fun c => { c with quantum := v.truncate 32 }
  | .mcause => r fun r => { r with mtrap := r.mtrap.writeCause v }
  | .mepc => r fun r => { r with mtrap := { r.mtrap with epc := v } }
  | .mtval => r fun r => { r with mtrap := { r.mtrap with tval := v } }
  | .lsbase n => r fun r => { r with lsbase := TMap.put r.lsbase n (keepBits v 61 3 ||| keepBits v 8 11) }
  | .lslim n => r fun r => { r with lslim := TMap.put r.lslim n (keepBits v 8 11) }
  | .strand | .core | .cluster | .die | .node | .grp | .rank | .launch => pure ()

def swrBody (a : XReg) (x : SReg) : M s0 Fin := do
  let v ← readX a
  sregWrite x v
  return .next

/-- PRIV: no mode or another mode may write the register; a kernel's PMODE of 0b10 (R348). -/
def swrPre (n : BitVec 12) (a : XReg) : M s0 Unit := do
  let c ← myCtx
  match sreg n with
  | none => illegal
  | some x =>
    let allowed := match x.writes with | some g => g.admits c.r.mode | none => false
    if !allowed then privileged
    else if x == .status && c.r.mode == .kernel && field (c.r.getX a) 2 2 == 2 then privileged
    else pure ()

def execSwr (n : BitVec 12) (a : XReg) (sy : Sync) (s : State) : Outcome :=
  strandStep s sy false false (swrPre n a) (withSreg n (swrBody a))

end Sys2Proof.Machine
end

