-- ==== Sys2Proof/Machine/Image.lean ====
section
/-! DEFINITION. Checkpoint images: the context record as a save writes it and as RESTORE reads it (R191, R225, R365, R366). -/

namespace Sys2Proof.Machine

open Sys2Proof

/-- Reset value of a shadowed Stencil register: 1 for the counts (R262). -/
def shadowReset (fn : Nat) : Word := if (2 ≤ fn && fn ≤ 4) || (8 ≤ fn && fn ≤ 10) then 1 else 0

/-- What a shadowed register keeps of a word: its reserved bits read 0 and are not written (R8, R262 to R264). DESIGN CHOICE
(log 68): R491 has XSET store the value as given; here that is the value of the fields. -/
def shadowKeep (fn : Nat) (v : Word) : Word :=
  if (2 ≤ fn && fn ≤ 4) || (8 ≤ fn && fn ≤ 10) || fn = 16 then keepBits v 0 32
  else if fn = 14 then keepBits v 4 10 ||| keepBits v 0 3
  else if fn = 18 then keepBits v 32 32 ||| keepBits v 0 8
  else v

/-- The word at an offset of a record. -/
def wordIn (bs : List Byte) (off : Nat) : Word := bytesWord ((List.drop off bs).take 8)

/-! ### Writing a record -/

/-- The addresses of the local store that a save takes: by region in ascending number, each once. -/
def Regs.savedAddrs (r : Regs) (core : Nat) : List Nat :=
  (List.range 8).flatMap fun n =>
    let lo := field (TMap.get 0 r.lsbase n) 8 11 * 256
    let hi := min (field (TMap.get 0 r.lslim n) 8 11 * 256 + 256) (lsSize core)
    ((List.range (hi - lo)).map (lo + ·)).filter fun i => r.inRegion n i && !(List.range n).any fun m => r.inRegion m i

/-- The bytes of a line that hold the strand's stores. -/
def SLine.stored (l : SLine) : List (Option Byte) :=
  (List.range 256).map fun i =>
    (l.ops.filter fun o => o.red.isNone).foldl
      (fun b o => if o.off ≤ i ∧ i < o.off + o.size then some ((natBytes 8 o.data.toNat).getD (i - o.off) 0) else b) none

/-- Lines in ascending age. -/
def insertLine (x : SLine) : List SLine → List SLine
  | [] => [x]
  | y :: r => if x.age < y.age then x :: y :: r else y :: insertLine x r

/-- The FAULTED lines of a context, oldest first. -/
def Ctx.faultedLines (x : Ctx) : List SLine :=
  (x.lines.filter fun l => l.faulted.isSome).foldl (fun l y => insertLine y l) []

/-- A FAULTED line: VA; ASID and cause; write mask; data. -/
def SLine.image (l : SLine) : List Byte :=
  let bs := l.stored
  let mask := (bs.zipIdx.map fun p => if p.1.isSome then 2 ^ p.2 else 0).sum
  natBytes 8 l.va.toNat ++
  natBytes 8 (l.asid.toNat * 2 ^ 48 + ((l.faulted.map Cause.code).getD 0).toNat) ++
  natBytes 32 mask ++ bs.map (·.getD 0) ++ List.replicate 16 0

/-- How a system call stands: posted, replied, ticket, reply (R366, H3 and H4). -/
def Ctx.callWords (x : Ctx) : Word × Word :=
  match x.prog.ans with
  | some (.value v) => (0x6000000000000000, v)
  | _ =>
    match x.wait with
    | some w =>
      match w.kind with
      | .sysPark (some t) => (wordOf (2 ^ 63 + t % 2 ^ 32), 0)
      | .sysPost t => (wordOf (2 ^ 62 + t % 2 ^ 32), 0)
      | _ => (0, 0)
    | none => (0, 0)

def State.strandWord (s : State) (a : Nat) : Word :=
  let r := (s.ctx a).r
  wordOf (r.launch.toNat * 2 ^ 48 + a % 16 * 2 ^ 32 + r.index.toNat)

/-- MEMBER, LEADER, POS, LPOS of a context's core (R365, R366, H2). -/
def State.traceWord (s : State) (core : Nat) : Nat :=
  match (s.core core).trace with
  | .follower l _ _ => 2 ^ 63 + core % 8 * 2 ^ 59 + l % 8 * 2 ^ 56
  | .none => if (s.followers core).isEmpty then 0 else 2 ^ 62 + core % 8 * 2 ^ 59 + core % 8 * 2 ^ 56

/-- A slot: REF, MARK, its third word, and the value of a local counter (R194). -/
def State.slotWords (s : State) (a n : Nat) : List Word :=
  let sl := s.slot a n
  let v := if sl.loc then (match s.localRef sl.ref with | some (c, i) => (s.cell c i).v | none => 0) else 0
  [sl.ref, sl.mark, wordOf (sl.gen.toNat * 2 ^ 48 + bit sl.loc 0), v]

/-- The words before the vector registers. -/
def State.recordHead (s : State) (a : Nat) (lsBytes nfault : Nat) : List Word :=
  let x := s.ctx a
  let r := x.r
  let (h3, h4) := x.callWords
  let d := x.start.getD { ref := 0, gen := 0, inc := 0 }
  [wordOf (x.budget * 2 ^ 48 + x.nslots * 2 ^ 32 + x.pend.length * 2 ^ 28 + nfault * 2 ^ 24), wordOf lsBytes,
   wordOf (s.traceWord (coreOf a) + bit x.join.isSome 55 + bit x.start.isSome 54), h3, h4, x.join.getD 0, d.ref,
   wordOf (d.gen.toNat * 2 ^ 48 + d.inc.toNat)] ++
  (List.range 64).map (fun n => r.getX (BitVec.ofNat 6 n)) ++ (List.range 8).map (fun n => r.getK (BitVec.ofNat 3 n)) ++
  [r.pc, r.vl.zeroExtend 64, r.fcsrWord, r.seed, x.errWord, s.strandWord a, r.grp, r.rank, r.param, r.ktrap.causeWord,
   r.ktrap.epc, r.ktrap.tval, r.statusWord, r.asid.zeroExtend 64] ++
  (List.range 8).map (TMap.get 0 r.lsbase) ++ (List.range 8).map (TMap.get 0 r.lslim) ++ [0, 0] ++
  (List.range 21).map (fun fn => TMap.get (shadowReset fn) r.shadow fn) ++ [0, 0, 0]

/-- The context record of a strand (R366). -/
def State.recordBytes (s : State) (a : Nat) : List Byte :=
  let x := s.ctx a
  let addrs := x.r.savedAddrs (coreOf a)
  let faults := x.faultedLines
  wordsBytes (s.recordHead a addrs.length faults.length) ++
  ((List.range x.budget).flatMap fun n => natBytes 256 (x.r.getV (BitVec.ofNat 6 n)).toNat) ++
  wordsBytes ((List.range x.nslots).flatMap (s.slotWords a)) ++
  wordsBytes (x.pend.flatMap fun p => [wordOf (p.cause.code.toNat * 2 ^ 56), p.tval]) ++
  faults.flatMap SLine.image ++ addrs.map (s.lsByte (coreOf a))

/-- What the record has no field for. -/
def State.aside (s : State) (a : Nat) : Aside :=
  let x := s.ctx a
  { launch := x.r.launch
    index := x.r.index
    asid := x.r.asid
    leases := x.leases.map fun l => { l with live := false }
    lines := x.faultedLines.map fun l => { l with ops := l.ops.filter fun o => o.red.isSome }
    engine := x.pend.map (·.engine)
    steps := (((s.gangOf a).bind fun k => TMap.find s.launches k).map (·.steps)).getD []
    step := (x.gang.map (·.step)).getD 0
    replay := x.replay
    replayNow := x.replayNow
    straight := x.straight
    linkBase := x.linkBase
    handed := x.prog.handed
    stream := match (s.core (coreOf a)).trace with | .follower _ _ q => q | .none => []
    groups := ((x.owner.bind fun k => TMap.find s.launches k).map (·.groups)).getD []
    record := s.recordBytes a }

/-! ### Reading a record -/

def recBudget (bs : List Byte) : Nat := field (wordIn bs 0) 48 16
def recSlots (bs : List Byte) : Nat := field (wordIn bs 0) 32 16
def recPends (bs : List Byte) : Nat := field (wordIn bs 0) 28 4
def recFaults (bs : List Byte) : Nat := field (wordIn bs 0) 24 4
def recLocal (bs : List Byte) : Nat := (wordIn bs 8).toNat
def recMember (bs : List Byte) : Bool := (wordIn bs 16).getLsbD 63
def recLeader (bs : List Byte) : Bool := (wordIn bs 16).getLsbD 62
def recPos (bs : List Byte) : Nat := field (wordIn bs 16) 59 3
def recLpos (bs : List Byte) : Nat := field (wordIn bs 16) 56 3

/-- Offsets of the parts behind the vector registers. -/
def recSlotsAt (bs : List Byte) : Nat := 1088 + 256 * recBudget bs
def recPendsAt (bs : List Byte) : Nat := recSlotsAt bs + 32 * recSlots bs
def recFaultsAt (bs : List Byte) : Nat := recPendsAt bs + 16 * recPends bs
def recLocalAt (bs : List Byte) : Nat := recFaultsAt bs + 320 * recFaults bs

/-- A record whose parts fill it. -/
def recordOk (bs : List Byte) : Bool :=
  let b := recBudget bs
  (b == 16 || b == 32 || b == 48 || b == 64) && decide (recSlots bs ≤ 256) && decide (recPends bs ≤ 8) &&
  decide (recFaults bs ≤ 8) && recLocalAt bs + recLocal bs == bs.length

def TrapRegs.ofWords (cause epc tval : Word) : TrapRegs :=
  { code := cause.truncate 8, deferred := cause.getLsbD 8, epc := epc, tval := tval }

/-- The registers of a record (R366), for a core. -/
def recordRegs (core : Nat) (bs : List Byte) : Regs :=
  let sr (i : Nat) : Word := wordIn bs (640 + 8 * i)
  let mode (lo : Nat) : Mode := (modeOf (field (sr 12) lo 2)).getD .user
  { Regs.reset (isEasel core) with
    x := (List.range 63).map fun i => (i + 1, wordIn bs (64 + 8 * (i + 1)))
    k := (List.range 7).map fun i => (i + 1, wordIn bs (576 + 8 * (i + 1)))
    v := (List.range (recBudget bs)).map fun i => (i, BitVec.ofNat 2048 (bytesNat ((List.drop (1088 + 256 * i) bs).take 256)))
    pc := sr 0
    vl := vlOf core (sr 1).toNat
    rm := (Regs.writeFcsr (Regs.reset false) (sr 2)).rm
    flags := (sr 2).truncate 6
    seed := if sr 3 = 0 then 1 else sr 3
    launch := (sr 5).extractLsb' 48 16
    index := (sr 5).truncate 32
    grp := sr 6 &&& 0x80FF80FF80FF80FF
    rank := sr 7
    param := sr 8
    ktrap := TrapRegs.ofWords (sr 9) (sr 10) (sr 11)
    mode := mode 0
    pmode := mode 2
    intrap := (sr 12).getLsbD 4
    mpmode := mode 5
    mintrap := (sr 12).getLsbD 7
    asid := (sr 13).truncate 16
    lsbase := (List.range 8).map fun n => (n, keepBits (sr (14 + n)) 61 3 ||| keepBits (sr (14 + n)) 8 11)
    lslim := (List.range 8).map fun n => (n, keepBits (sr (22 + n)) 8 11)
    shadow := (List.range 21).map fun fn => (fn, shadowKeep fn (wordIn bs (896 + 8 * fn))) }

/-- The slots of a record in a new block of cells: a local counter is the fresh cell (R225). -/
def State.recordSlots (s : State) (core base : Nat) (bs : List Byte) : TMap Slot :=
  (List.range (recSlots bs)).map fun i =>
    let w (j : Nat) : Word := wordIn bs (recSlotsAt bs + 32 * i + 8 * j)
    let loc := (w 2).getLsbD 0
    (i,
      { ref := if loc then s.cellRef core (base + i) else w 0
        mark := w 1
        gen := if loc then (s.cell core (base + i)).g else (w 2).extractLsb' 48 16
        loc := loc })

/-- The value that the fresh cell of slot i takes. -/
def recordCell (bs : List Byte) (i : Nat) : Word :=
  if (wordIn bs (recSlotsAt bs + 32 * i + 16)).getLsbD 0 then wordIn bs (recSlotsAt bs + 32 * i + 24) else 0

def causeOfCode (n : Nat) : Cause :=
  [.illegal, .priv, .align, .lsprot, .xlate, .wrprot, .cow, .ctrpage, .ctrovf, .capfail, .tagmiss, .shape, .pipe, .poison,
    .syscall, .brk, .stepfail].getD (n - 1) .illegal

/-- The stores of a masked line, in pieces of at most 8 bytes. -/
def maskPieces (has : Nat → Bool) : Nat → Nat → List (Nat × Nat)
  | 0, off => if has off then [(off, 1)] else []
  | l + 1, off =>
    if (List.range (2 ^ (l + 1))).all fun i => has (off + i) then [(off, 2 ^ (l + 1))]
    else maskPieces has l off ++ maskPieces has l (off + 2 ^ l)

/-- FAULTED line i of a record. -/
def recordLine (bs : List Byte) (mode : Mode) (i : Nat) : SLine :=
  let at_ := recFaultsAt bs + 320 * i
  let w1 := wordIn bs (at_ + 8)
  let mask := bytesNat ((List.drop (at_ + 16) bs).take 32)
  let data := (List.drop (at_ + 48) bs).take 256
  let ps := (List.range 32).flatMap fun c => maskPieces mask.testBit 3 (8 * c)
  { va := wordIn bs at_, asid := w1.extractLsb' 48 16, faulted := some (causeOfCode (field w1 0 8)), age := i, queued := none
    ops := ps.map fun p =>
      { off := p.1, size := p.2, data := bytesWord ((List.drop p.1 data).take p.2), red := none, mode := mode, byST := false, seq := 0 } }

/-- Pending error i of a record. -/
def recordPend (bs : List Byte) (engine : Bool) (seq i : Nat) : Pend :=
  let at_ := recPendsAt bs + 16 * i
  { cause := causeOfCode (field (wordIn bs at_) 56 8), tval := wordIn bs (at_ + 8), engine := engine, seq := seq }

/-- The lines of a record with the REDs that the strand took along. -/
def joinReds (ls reds : List SLine) : List SLine :=
  ls.map fun l =>
    match reds.find? fun r => r.va == l.va && r.asid == l.asid with
    | some r => { l with ops := l.ops ++ r.ops }
    | none => l

/-- The wait of a system call that was parked, or posted and not replied to; else the reply (R368). -/
def recordCall (bs : List Byte) : Option WaitKind × Option Ans :=
  let h3 := wordIn bs 24
  let t := field h3 0 32
  if h3.getLsbD 63 then (some (.sysPark (some t)), none)
  else if h3.getLsbD 62 then
    (if h3.getLsbD 61 then (none, some (.value (wordIn bs 32))) else (some (.sysPost t), none))
  else (none, none)

end Sys2Proof.Machine
end

