-- ==== Sys2Proof/Machine/Queue.lean ====
section
/-! DEFINITION. Queues and slots of the sequencers: descriptors, map, unmap, notify, retirement, and the packets WAITC, SIGC,
FENCE (R212 to R217, R226 to R228). -/

namespace Sys2Proof.Machine

open Sys2Proof

variable {s0 : State}

/-- A sequencer's number as an adder: R176 gives it none, so what a record shows of it is open. -/
def seqAgent : M s0 Nat := do
  let w ← openWord
  return 2 ^ 32 + w.toNat

/-- A queue descriptor (R212). -/
structure Queue where
  base : Word
  wridx : Word
  consumed : Word
  asid : BitVec 16
  log2n : Nat
  err : Word
  shares : Word
  retire : Word
  deriving DecidableEq, Repr

def State.queueAt (s : State) (desc : Nat) : Queue :=
  let w (i : Nat) : Word := s.physWord (desc + 8 * i)
  { base := w 0, wridx := w 1, consumed := w 2, asid := (w 3).extractLsb' 48 16, log2n := field (w 3) 36 4, err := w 4,
    shares := w 5, retire := w 6 }

def modThread (die slot : Nat) (f : Thread → Thread) : M s0 Unit := do
  let s ← st
  upd (.thread (64 * die + slot) (f (s.thread die slot)))

/-- The descriptor that a thread serves. -/
def State.queueOf (s : State) (die slot : Nat) : Queue := s.queueAt ((s.thread die slot).desc.getD 0)

/-! ### Map and unmap (R213 to R215) -/

/-- PENDING bit of a die in a descriptor. -/
def setPending (die desc : Nat) (b : Bool) : M s0 Unit := do
  let s ← st
  let byte := s.physByte (desc + 24)
  let mask : Byte := BitVec.ofNat 8 (2 ^ die)
  stampLines none (desc + 24) 1
  writeMem (desc + 24) [if b then byte ||| mask else byte &&& ~~~mask]

/-- The unmapping at a packet boundary: NEXTd, and the notify that the thread holds, go to the descriptor. -/
def unmapNow (die slot : Nat) : M s0 Unit := do
  let s ← st
  let t := s.thread die slot
  match t.desc with
  | some d =>
    stampLines none (d + 64 + 8 * die) 8
    writeMem (d + 64 + 8 * die) (natBytes 8 t.next.toNat)
    if t.notified || decide (t.next.toNat < t.limit.toNat) then setPending die d true
  | none => pure ()
  modThread die slot fun t => { t with mapped := false, notified := false, unmap := false, limit := t.next, st := .idle }

/-- A notify reaches a mapped thread: an idle one reads WRIDX, a busy one holds it. -/
def notifyThread (die slot : Nat) : M s0 Unit := do
  let s ← st
  let t := s.thread die slot
  if t.st == .idle then modThread die slot fun t => { t with limit := (s.queueOf die slot).wridx }
  else modThread die slot fun t => { t with notified := true }

/-- DESIGN CHOICE (log 83): a die counts a queue's launches by its descriptor's address, across maps, and afresh at a map with
NEXTd = 0; the spec does not say how a die knows L of R228 at a later map. -/
def mapNow (die slot : Nat) (descW : Word) : M s0 Unit := do
  let d := descW.toNat
  let s ← st
  let next := s.physWord (d + 64 + 8 * die)
  modThread die slot fun t =>
    { t with mapped := true, desc := some d, next := next, limit := next, notified := false, st := .idle, unmap := false,
             remap := none }
  if next = 0 then upd (.qcount (8 * d + die) 0)
  if (s.physByte (d + 24)).getLsbD die then
    setPending die d false
    notifyThread die slot

/-- A boundary of a thread: an unmap that is due, and the map that follows it (R214). -/
def boundary (die slot : Nat) : M s0 Unit := do
  let s ← st
  let t := s.thread die slot
  if t.unmap then
    unmapNow die slot
    match t.remap with
    | some d => mapNow die slot d
    | none => pure ()

/-- The write of SLOTCTL reaches a die: a share that is being placed is placed in full first; a wait is abandoned. -/
def slotWrite (die slot : Nat) (remap : Option Word) : M s0 Unit := do
  let s ← st
  let t := s.thread die slot
  if t.mapped then
    modThread die slot fun t => { t with unmap := true, remap := remap }
    match t.st with
    | .placing _ => pure ()
    | _ => boundary die slot
  else
    match remap with
    | some d => mapNow die slot d
    | none => pure ()

def queueMapBody (slot : Nat) (desc : Word) : M s0 Unit := do
  require "QUEUE_MAP" (decide (slot < 32) && field desc 0 7 == 0 && field desc 46 18 == 0)
  for die in List.range 8 do
    slotWrite die slot (some desc)

def execQueueMap (slot : Nat) (desc : Word) (s : State) : Outcome := run s (queueMapBody slot desc)

def queueUnmapBody (slot : Nat) : M s0 Unit := do
  require "QUEUE_UNMAP" (decide (slot < 32))
  for die in List.range 8 do
    slotWrite die slot none

def execQueueUnmap (slot : Nat) (s : State) : Outcome := run s (queueUnmapBody slot)

/-- NOTIFY (R213, R215): an unmapped slot sets PENDING of the descriptor last mapped; a slot never mapped drops it. -/
def notifyBody (slot : Nat) : M s0 Unit := do
  require "NOTIFY" (decide (slot < 32))
  for die in List.range 8 do
    let s ← st
    let t := s.thread die slot
    if t.mapped then notifyThread die slot
    else
      match t.desc with
      | some d => setPending die d true
      | none => pure ()

def execNotify (slot : Nat) (s : State) : Outcome := run s (notifyBody slot)

/-! ### Packets (R216, R217) -/

/-- The thread halts until its slot is mapped again. -/
def haltThread (die slot : Nat) (code : RecCode) (addr detail : Word) : M s0 Unit := do
  let s ← st
  let q := s.queueOf die slot
  writeRecord (seqReq die q.asid) (seqParty (seqReq die q.asid)) q.err code 0 (s.thread die slot).next.toNat addr detail
  modThread die slot fun t => { t with st := .halted }

/-- BADPACKET for a field: what the record's ADDR and DETAIL hold is open. -/
def badPacket (die slot : Nat) (code : RecCode) : M s0 Unit := do
  let a ← openWord
  let d ← openWord
  haltThread die slot code a d

/-- The packet that an idle thread fetches: its words, or none when the thread has halted. `want` is the event's TYPE. -/
def fetchPacket (name : String) (die slot : Nat) (want : Nat → Bool) : M s0 (Option (List Word)) := do
  let s ← st
  let t := s.thread die slot
  require name (decide (die < 8) && decide (slot < 32) && t.mapped && t.st == .idle && decide (t.next.toNat < t.limit.toNat))
  let q := s.queueOf die slot
  let at_ := q.base + wordOf (64 * (t.next.toNat % 2 ^ q.log2n))
  acquireFar (seqParty (seqReq die q.asid))
  match ← readWords (seqReq die q.asid) (seqParty (seqReq die q.asid)) at_ 8 with
  | .error (c, _) =>
    require name (want 0)
    haltThread die slot .badpacket at_ (causeWord c)
    return none
  | .ok ws =>
    require name (want (field (ws.headD 0) 0 8))
    return some ws

/-- Retirement of the packet at NEXT (R216); `once` is the effect of the last die. -/
def retire (die slot : Nat) (once : M s0 Unit) : M s0 Unit := do
  let s ← st
  let q := s.queueOf die slot
  let i := (s.thread die slot).next.toNat
  let n := 2 ^ q.log2n
  let agent ← seqAgent
  let old ← seqAdd (seqReq die q.asid) q.err (q.retire + wordOf (8 * (i % n))) 1 none 0 agent
  if old == some (wordOf (8 * (i / n) + 7)) then once
  let _ ← seqAdd (seqReq die q.asid) q.err q.consumed 1 none 0 agent
  let s ← st
  modThread die slot fun t =>
    { t with next := t.next + 1, st := .idle, notified := false, limit := (s.queueOf die slot).wridx }
  boundary die slot

def wordAt (ws : List Word) (i : Nat) : Word := ws.getD i 0

/-! ### WAITC and FENCE (R226, R228) -/

/-- The satisfied wait of a thread on a counter is an acquire at system scope, and the packet retires. -/
def threadDone (die slot : Nat) (k : Ctr) : M s0 Unit := do
  let s ← st
  let party := seqParty (seqReq die (s.queueOf die slot).asid)
  acquireFar party
  observe party k
  retire die slot (pure ())

/-- The wait of a thread on a counter: satisfied at once, or a wait. Only the contexts of its own core wait on a local counter
(R193): DESIGN CHOICE (log 66), such a reference halts the thread as one that names no counter does. -/
def threadWait (die slot : Nat) (fence : Bool) (ref mark : Word) (timeout : Option Nat) : M s0 Unit := do
  let s ← st
  let q := s.queueOf die slot
  match ← resolveRef (seqReq die q.asid) { rd := true, wr := false } ref with
  | .error c => haltThread die slot .waitfail ref (causeWord c)
  | .ok k =>
    if isLocalRef ref then
      let d ← openWord
      haltThread die slot .waitfail ref d
    else
      let s ← st
      if decide (mark.toNat ≤ (s.ctrV k).toNat) then threadDone die slot k
      else
        let w ← mkWatch [] 0 k mark
        modThread die slot fun t => { t with st := .waits fence w (timeout.map (s.time + ·)) .open_ }

def waitcPacketBody (die slot : Nat) : M s0 Unit := do
  match ← fetchPacket "WAITC_PACKET" die slot fun t => t == 3 with
  | none => pure ()
  | some ws =>
    if field (wordAt ws 0) 8 56 ≠ 0 || (ws.drop 4).any fun w => w != 0 then badPacket die slot .badpacket
    else
      let limit := wordAt ws 3
      threadWait die slot false (wordAt ws 1) (wordAt ws 2) 
        (if limit = BitVec.allOnes 64 then none else some limit.toNat)

def execWaitcPacket (die slot : Nat) (s : State) : Outcome := run s (waitcPacketBody die slot)

def fencePacketBody (die slot : Nat) : M s0 Unit := do
  match ← fetchPacket "FENCE_PACKET" die slot fun t => t == 6 with
  | none => pure ()
  | some ws =>
    if field (wordAt ws 0) 8 56 ≠ 0 || (ws.drop 1).any fun w => w != 0 then badPacket die slot .badpacket
    else
      let s ← st
      let desc := (s.thread die slot).desc.getD 0
      threadWait die slot true (s.queueAt desc).shares (wordOf (8 * TMap.get 0 s.qcount (8 * desc + die))) none

def execFencePacket (die slot : Nat) (s : State) : Outcome := run s (fencePacketBody die slot)

/-- No thread that a home woke before number `n` is still to go on (R203). DESIGN CHOICE (log 86): this orders threads woken on
different counters as well; R203 orders the waiters of one counter. -/
def State.firstWoken (s : State) (n : Nat) : Bool :=
  s.threads.all fun p => match p.2.st with | .waits _ _ _ (.woken m) => decide (n ≤ m) | _ => true

/-- The end of a thread's wait: broken by a CRESET or timed out, it halts the thread with WAITFAIL; woken by its home, or
satisfied at a poll, it is done. A poll that finds the list no longer full registers the wait (R204). -/
def threadWakeBody (name : String) (die slot : Nat) (fence : Bool) : M s0 Unit := do
  let s ← st
  match (s.thread die slot).st with
  | .waits f w dl e =>
    require name (f == fence)
    match e with
    | .broken => badPacket die slot .waitfail
    | .woken n =>
      require name (s.firstWoken n)
      threadDone die slot w.ctr
    | .open_ =>
      if s.satWatch w then threadDone die slot w.ctr
      else if dl.any fun t => decide (t ≤ s.time) then badPacket die slot .waitfail
      else
        require name (!w.listed)
        let y ← mkWatch [] 0 w.ctr w.mark
        require name y.listed
        modThread die slot fun t => { t with st := .waits f y dl .open_ }
  | _ => notEnabled name

def execWaitcWake (die slot : Nat) (s : State) : Outcome := run s (threadWakeBody "WAITC_WAKE" die slot false)

def execFencePacketWake (die slot : Nat) (s : State) : Outcome :=
  run s (threadWakeBody "FENCE_PACKET_WAKE" die slot true)

/-! ### SIGC (R227) -/

def sigcPacketBody (die slot : Nat) : M s0 Unit := do
  match ← fetchPacket "SIGC_PACKET" die slot fun t => t == 4 with
  | none => pure ()
  | some ws =>
    if field (wordAt ws 0) 8 56 ≠ 0 || field (wordAt ws 2) 48 16 ≠ 0 || field (wordAt ws 3) 16 48 ≠ 0 ||
        (ws.drop 4).any fun w => w != 0 then badPacket die slot .badpacket
    else
      let s ← st
      let q := s.queueOf die slot
      let agent ← seqAgent
      retire die slot do
        let _ ← seqAdd (seqReq die q.asid) q.err (wordAt ws 1) (field (wordAt ws 2) 0 48) (some ((wordAt ws 3).truncate 16))
          0 agent
        pure ()

def execSigcPacket (die slot : Nat) (s : State) : Outcome := run s (sigcPacketBody die slot)

end Sys2Proof.Machine
end

