-- ==== Sys2Proof/Machine/Launch.lean ====
section
/-! DEFINITION. Launches: KERNEL packets, placement, the completion of a share, ARM and tagged launches (R142, R218 to R225, R229,
R230, R234). -/

namespace Sys2Proof.Machine

open Sys2Proof

variable {s0 : State}

/-! ### The fields of a KERNEL packet (R217, R218) -/

def kernelFieldsOk (ws : List Word) : Bool :=
  let w := wordAt ws
  field (w 0) 0 8 == 1 && decide (1 ≤ field (w 0) 32 32) && decide (field (w 0) 24 8 ≤ 64) &&
  (field (w 0) 24 8 == 0 || (w 0).getLsbD 12) && field (w 0) 13 3 == 0 && field (w 0) 8 3 == 0 && w 7 == 0 &&
  (w 2).toNat % 8 == 0

/-- A loaded kernel of an address space: image base and entry (R220, R322). -/
def State.kernelAt (s : State) (asid : BitVec 16) (ktab : Word) : Option (Word × KernEntry) :=
  s.images.findSome? fun p =>
    if p.2.asid == asid && !p.2.withdrawn then
      (p.2.kernels.find? fun e => e.1 == ktab).map fun e => (p.2.base, e.2)
    else none

/-- Words of a launch structure; any fault or poison is BADLAUNCH (R220). -/
def launchWords (q : Req) (va : Word) (n : Nat) : M s0 (Option (List Word)) := do
  match ← readWords q (seqParty q) va n with
  | .error _ => return none
  | .ok ws => return some ws

/-- Bytes of a launch structure as a number. -/
def launchField (q : Req) (va : Word) (n : Nat) : M s0 (Option Nat) := do
  match ← readRange q (seqParty q) va n with
  | .error _ => return none
  | .ok g => return if g.poison.isSome then none else some (bytesNat g.bytes)

/-- The patch table (R105). -/
def readPatches (q : Req) (kernel param : Word) (ps : List (Word × Word × Bool)) : M s0 (Option (List Patch)) := do
  let mut out : List Patch := []
  let mut ok := true
  for (off, poff, wide) in ps do
    match ← launchField q (param + poff) (if wide then 8 else 4) with
    | some v => out := out ++ [{ at_ := kernel + off, wide := wide, value := wordOf v }]
    | none => ok := false
  return if ok then some out else none

/-! ### Shares (R222) -/

/-- DIEMASK; 0 stands for all dies. -/
def dieMaskOf (w0 : Word) : Nat := if field w0 16 8 = 0 then 0xFF else field w0 16 8

def maskCount (mask : Nat) (below : Nat) : Nat := ((List.range below).filter fun d => mask.testBit d).length

/-- Whether a strand without a placement entry belongs to a die. -/
def inShare (strands mask d i : Nat) : Bool :=
  let m := maskCount mask 8
  let r := maskCount mask d
  mask.testBit d && decide (strands * r / m ≤ i) && decide (i < strands * (r + 1) / m)

/-- The strands of a die, ascending, with the cores that a placement table names (none: no table). -/
def shareOf (strands mask : Nat) (place : Option (List Nat)) (d : Nat) : List (Nat × Option Nat) :=
  match place with
  | none =>
    if mask.testBit d then
      let m := maskCount mask 8
      let r := maskCount mask d
      let lo := strands * r / m
      (List.range (strands * (r + 1) / m - lo)).map fun i => (lo + i, none)
    else []
  | some es =>
    es.zipIdx.filterMap fun p =>
      if p.1 = 0xFFFF then (if inShare strands mask d p.2 then some (p.2, none) else none)
      else if dieOfCore p.1 = d then some (p.2, some p.1) else none

/-- The compute cores of a die that are not marked failed, ascending (R223). -/
def State.usable (s : State) (die : Nat) : List Nat :=
  ((List.range 192).map fun i => 192 * die + i).filter fun n => !(s.core n).failed

/-- The gang capacity of a die (R220). -/
def State.gangCap (s : State) (die nslots : Nat) : Nat :=
  (s.usable die).length * (if nslots = 0 then 16 else min 16 (256 / nslots))

/-- A placement entry that refuses the launch (R220). -/
def State.placeBad (s : State) (mask e : Nat) : Bool :=
  e != 0xFFFF && (decide (1536 ≤ e) || (s.core e).failed || !mask.testBit (dieOfCore e))

/-! ### Reading a launch (R218 to R220) -/

/-- The words of sr.lsbase or sr.lslim in an attribute record, as SWR would store them. -/
def regionWords (lim : Bool) (ws : List Word) : TMap Word :=
  (ws.zipIdx.map fun p => (p.2, if lim then keepBits p.1 8 11 else keepBits p.1 61 3 ||| keepBits p.1 8 11)).filter
    fun p => p.2 != 0

/-! ### Groups (R67, R68) -/

/-- VALID and SIZE_M1 of entry g of a group table. -/
def tabValid (ws : List Word) (g : Nat) : Bool := (wordAt ws (4 * g)).getLsbD 32
def tabSize (ws : List Word) (g : Nat) : Nat := field (wordAt ws (4 * g)) 0 16 + 1

/-- The members of a group by rank: SIZE_M1 + 1 different strands at most, and none of an entry that defines no group. -/
def memberList (ws : List Word) (g : Nat) : List Nat :=
  if tabValid ws g then (Config.members ws g).dedup.take (tabSize ws g) else []

/-- The group of a strand at a position, and the strand's rank there, which is unique within the group. -/
def groupAt (ws : List Word) (index pos : Nat) : Option (Nat × Nat) :=
  (Config.groupOf ws index pos).bind fun g =>
    let ms := memberList ws g.val
    if ms.contains index then some (g.val, ms.idxOf index) else none

/-- Some entry of the table defines a group. -/
def anyGroup (ws : List Word) : Bool := (List.range 256).any (tabValid ws)

/-- The table violates R68: a strand in more than four groups, or without a group at a position that the kernel declares. -/
def groupsBad (ws : List Word) (strands : Nat) (gpos : BitVec 4) : Bool :=
  (gpos != 0 && !anyGroup ws) ||
  (anyGroup ws && (List.range strands).any fun i =>
    decide (4 < ((List.range 256).filter fun g => (memberList ws g).contains i).length) ||
    (List.range 4).any fun p => gpos.getLsbD p && (groupAt ws i p).isNone)

/-- Where a packet came from, and what its launch reports to. -/
structure Source where
  asid : BitVec 16
  origin : Nat × Nat
  num : BitVec 16
  err : Word
  shares : Option Word
  deriving DecidableEq, Repr

/-- The launch of a KERNEL packet with its placement table: none when a check of R220 refuses it. DESIGN CHOICE (log 82): an ATTR that
is not a multiple of 256 is read where it points; the spec gives the record its alignment and no refusal. -/
def readLaunch (die : Nat) (o : Source) (ws : List Word) : M s0 (Option (Launch × Option (List Nat))) := do
  let s ← st
  let q := seqReq die o.asid
  let w := wordAt ws
  let strands := field (w 0) 32 32
  let mask := dieMaskOf (w 0)
  let gang := (w 0).getLsbD 12
  let root := s.walkWord ((s.die die).rootbase.toNat % 2 ^ 46 + 8 * o.asid.toNat)
  match s.kernelAt o.asid (w 1) with
  | none => return none
  | some (base, e) =>
    if !root.getLsbD 63 then return none
    let attr ← if w 4 = 0 then pure (some []) else launchWords q (w 4) 18
    match attr with
    | none => return none
    | some at_ =>
      let placeVa := wordAt at_ 16
      let place ← if placeVa = 0 then pure (some none) else do
        let t ← readRange q (seqParty q) placeVa (2 * strands)
        pure (match t with
          | .ok g => if g.poison.isSome then none
            else some (some ((List.range strands).map fun i => bytesNat ((g.bytes.drop (2 * i)).take 2)))
          | .error _ => none)
      -- without an attribute record there are no steps (R219)
      let steps ← if field (w 0) 24 8 = 0 || w 4 = 0 then pure (some [])
        else launchWords q (wordAt at_ 17) (field (w 0) 24 8)
      let groups ← if w 3 = 0 then pure (some []) else launchWords q (w 3) 1024
      let patches ← readPatches q (base + e.entry) (w 2) (e.patches.take 64)
      match place, steps, groups, patches with
      | some pl, some steps, some gt, some ps =>
        let s ← st
        let badPlace := match pl with | some es => es.any (s.placeBad mask) | none => false
        let badGroup := groupsBad gt strands e.groups
        let tooBig := gang && (List.range 8).any fun d =>
          decide (s.gangCap d e.slots.val < (shareOf strands mask pl d).length)
        if badPlace || badGroup || tooBig then return none
        else
          return some
            ({ num := o.num, asid := o.asid, ktab := w 1, origin := o.origin, words := ws, err := o.err, shares := o.shares
               done := { ref := w 5, gen := (w 6).extractLsb' 48 16, inc := (w 6).extractLsb' 0 48 }
               entry := base + e.entry, budget := 16 * (e.cls.toNat + 1), nslots := e.slots.val, param := w 2
               groups := gt, gpos := e.groups, lsbase := regionWords false (at_.take 8)
               lslim := regionWords true ((at_.drop 8).take 8), strands := strands, dieMask := mask, gang := gang
               fuse := (w 0).getLsbD 11, steps := steps, patches := ps, restore := [], perDie := [], step := 0
               rollbacks := 0, journal := [], unrepeatable := false, rollDue := false, ended := []
               routes := [] }, pl)
      | _, _, _, _ => return none

/-! ### The completion of a share (R82, R224) -/

/-- The DONE and SHARES adds of a share. -/
def shareAdds (die : Nat) (asid : BitVec 16) (err : Word) (num : BitVec 16) (done : DoneRef) (shares : Option Word) :
    M s0 Unit := do
  let agent ← seqAgent
  let _ ← seqAdd (seqReq die asid) err done.ref done.inc.toNat (some done.gen) num agent
  match shares with
  | some r =>
    let _ ← seqAdd (seqReq die asid) err r 1 none num agent
    pure ()
  | none => pure ()

/-- The launch runs a kernel of the image. -/
def Image.runs (i : Image) (l : Launch) : Bool := i.asid == l.asid && i.kernels.any fun e => e.1 == l.ktab

/-- A withdrawn image is gone when the last launch of its kernels has completed (R322). -/
def freeImages : M s0 Unit := do
  let s ← st
  upd (.images (s.images.filter fun p => !p.2.withdrawn || s.launches.any fun l => p.2.runs l.2))

def finishShare (die k : Nat) : M s0 Unit := do
  let s ← st
  match TMap.find s.launches k with
  | none => pure ()
  | some l =>
    let sh := TMap.get { todo := [], placed := 0, complete := false } l.perDie die
    let l := { l with perDie := TMap.put l.perDie die { sh with complete := true } }
    upd (.launch k l)
    shareAdds die l.asid l.err l.num l.done l.shares
    if l.perDie.length == 8 && l.perDie.all fun p => p.2.complete then
      upd (.noLaunch k)
      freeImages

/-- SHARE_COMPLETION: the whole share is placed, every strand of the launch on the die has ended, and no context drains; the
contexts become FREE together. -/
def shareCompletionBody (die k : Nat) : M s0 Unit := do
  let s ← st
  match TMap.find s.launches k with
  | none => notEnabled "SHARE_COMPLETION"
  | some l =>
    let mine := (s.ctxs.filter fun p => dieOf p.1 == die && p.2.owner == some k).map (·.1)
    let sh := TMap.find l.perDie die
    require "SHARE_COMPLETION" (sh.any (fun x => x.todo.isEmpty && !x.complete) &&
      mine.all fun a => (s.ctx a).phase == .idle && (s.ctx a).preempt.isNone && !s.keptEnded a)
    for a in mine do
      freeCtx a
    finishShare die k

def execShareCompletion (die k : Nat) (s : State) : Outcome := run s (shareCompletionBody die k)

/-! ### KERNEL (R220, R221) -/

/-- A refused launch: BADLAUNCH, and the adds of a completed share. -/
def refuseLaunch (die : Nat) (o : Source) (who : Nat) (ws : List Word) : M s0 Unit := do
  let a ← openWord
  let d ← openWord
  writeRecord (seqReq die o.asid) (seqParty (seqReq die o.asid)) o.err .badlaunch o.num who a d
  shareAdds die o.asid o.err o.num
    { ref := wordAt ws 5, gen := (wordAt ws 6).extractLsb' 48 16, inc := (wordAt ws 6).extractLsb' 0 48 } o.shares

/-- A new launch takes a number: the reductions of the launch that had it are over, or go on without it (log 71). -/
def retireReductions (l : Launch) : M s0 Unit := do
  let s ← st
  if l.restore.isEmpty && !s.glaze.redus.isEmpty then
    let its (r : Redu) : Bool := r.num == some l.num && r.by_.asid == l.asid
    upd (.glaze
      { s.glaze with
        redus := (s.glaze.redus.filter fun p => !(its p.2 && p.2.closed)).map fun p =>
          (p.1, if its p.2 then { p.2 with num := none } else p.2) })

/-- The launch under which a die's share goes: the one that another die made from the same packet, or a new one. -/
def enterLaunch (die : Nat) (l : Launch) (share : List (Nat × Option Nat)) : M s0 Nat := do
  let s ← st
  let found := s.launches.find? fun p =>
    p.2.origin == l.origin && p.2.words == l.words && p.2.num == l.num && (TMap.find p.2.perDie die).isNone
  let sh : Share := { todo := share, placed := 0, complete := false }
  match found with
  | some (k, x) =>
    upd (.launch k { x with perDie := TMap.put x.perDie die sh })
    return k
  | none =>
    let k ← freshSeq
    retireReductions l
    upd (.launch k { l with perDie := [(die, sh)] })
    return k

/-- The thread has placed a share, or owes none; the arm thread has placed the next fire of entry `e`. -/
def placedAll (die slot e : Nat) : M s0 Unit := do
  let s ← st
  if slot < 32 then
    let key := 8 * (s.thread die slot).desc.getD 0 + die
    upd (.qcount key (TMap.get 0 s.qcount key + 1))
    retire die slot (pure ())
  else
    let x := s.arm die e
    upd (.arm (64 * die + e) { x with due := x.due.tail })
    modThread die slot fun t => { t with st := .idle }

/-- A die's share of a launch is found: an empty one completes at once, and may be the last of a gang to be placed (R77). -/
def beginShare (die slot e : Nat) (l : Launch) (share : List (Nat × Option Nat)) : M s0 Unit := do
  let k ← enterLaunch die l share
  if share.isEmpty then
    finishShare die k
    placedAll die slot e
    gangCheck k
  else modThread die slot fun t => { t with st := .placing k }

def runKernel (die slot e : Nat) (o : Source) (who : Nat) (ws : List Word) : M s0 Unit := do
  match ← readLaunch die o ws with
  | none =>
    refuseLaunch die o who ws
    placedAll die slot e
  | some (l, place) => beginShare die slot e l (shareOf l.strands l.dieMask place die)

/-- The arm thread takes the next fire of an entry that has one, and runs the template with PARAM at the buffer (R230). Which
entry it takes when several have fires is open. -/
def armKernel (die : Nat) : M s0 Unit := do
  let s ← st
  require "KERNEL_PACKET" ((s.thread die 32).st == .idle)
  let ready := (List.range 64).filter fun e => !(s.arm die e).due.isEmpty
  let i ← if ready.length ≤ 1 then pure 0 else choose ready.length
  let e := ready.getD i 0
  let x := s.arm die e
  match x.due with
  | [] => notEnabled "KERNEL_PACKET"
  | f :: _ =>
    let o : Source :=
      { asid := x.asid, origin := (2 * e + 1, f.num), num := BitVec.ofNat 16 (32768 + 512 * e + f.num % 512), err := x.err
        shares := none }
    acquireFar (seqParty (seqReq die x.asid))
    match ← readWords (seqReq die x.asid) (seqParty (seqReq die x.asid)) x.template 8 with
    | .error _ =>
      let a ← openWord
      let d ← openWord
      writeRecord (seqReq die x.asid) (seqParty (seqReq die x.asid)) x.err .badlaunch o.num a.toNat a d
      placedAll die 32 e
    | .ok ws =>
      let ws := ws.set 2 f.param
      let who ← openWord
      if kernelFieldsOk ws then runKernel die 32 e o who.toNat ws
      else
        refuseLaunch die o who.toNat ws
        placedAll die 32 e

/-- KERNEL_PACKET; a packet that is unreadable, or of no known TYPE, halts the thread here (R217). -/
def kernelPacketBody (die slot : Nat) : M s0 Unit := do
  if slot = 32 then armKernel die
  else
    match ← fetchPacket "KERNEL_PACKET" die slot fun t => t ≤ 1 || 6 < t with
    | none => pure ()
    | some ws =>
      if !kernelFieldsOk ws then badPacket die slot .badpacket
      else
        let s ← st
        let q := s.queueOf die slot
        let i := (s.thread die slot).next.toNat
        let o : Source :=
          { asid := q.asid, origin := (2 * (s.thread die slot).desc.getD 0, i)
            num := BitVec.ofNat 16 (1024 * slot + i % 1024), err := q.err, shares := some q.shares }
        runKernel die slot 0 o i ws

def execKernelPacket (die slot : Nat) (s : State) : Outcome := run s (kernelPacketBody die slot)

/-! ### Placement (R223) -/

/-- The bases at which a core has a free block of n cells (R194). -/
def State.freeBases (s : State) (core n : Nat) : List Nat :=
  let taken := (List.range (numCtx core)).filterMap fun j =>
    let x := s.ctx (16 * core + j)
    if x.phase == .free then none else some (x.cellBase, x.nslots)
  if n = 0 then [0]
  else (List.range (257 - n)).filter fun b => taken.all fun t => decide (b + n ≤ t.1) || decide (t.1 + t.2 ≤ b)

/-- The context of a core that a strand of launch k gets: the lowest that is FREE, with a free block, or IDLE of the launch. DESIGN
CHOICE (log 85): a context with a pre-emption request, BUSY, is passed over; the spec does not say. -/
def State.placeCtx (s : State) (core k n : Nat) : Option Nat :=
  let room := !(s.freeBases core n).isEmpty
  (List.range 16).find? fun j =>
    let x := s.ctx (16 * core + j)
    (x.phase == .free && room && x.preempt.isNone) || (x.phase == .idle && x.owner == some k && x.preempt.isNone)

def State.clusterCtxs (s : State) (cluster : Nat) : List Ctx :=
  (s.ctxs.filter fun p => coreOf p.1 / 8 == cluster && !isEasel (coreOf p.1) && p.2.phase != .free).map (·.2)

/-- The cluster is empty or in the mode that the launch asks for (R142). -/
def State.fuseOk (s : State) (cluster : Nat) (fuse : Bool) : Bool :=
  (s.clusterCtxs cluster).isEmpty || NatSet.has s.fused cluster == fuse

/-- The core and context for the j-th strand of a share. -/
def State.placeAt (s : State) (die k j : Nat) (l : Launch) (entry : Option Nat) : Option (Nat × Nat) :=
  let fits (core : Nat) : Option (Nat × Nat) :=
    if s.fuseOk (core / 8) l.fuse && !(s.core core).failed then (s.placeCtx core k l.nslots).map fun i => (core, i) else none
  match entry with
  | some core => fits core
  | none =>
    let us := s.usable die
    let c := us.length
    (List.range c).findSome? fun i => fits (us.getD ((j + i) % c) 0)

/-- The mode of a cluster at a placement: a change, which only an empty cluster makes, invalidates every line of the eight L1s
(R142). -/
def setMode (cluster : Nat) (fuse : Bool) : M s0 Unit := do
  let s ← st
  if NatSet.has s.fused cluster != fuse then
    upd (.fused (if fuse then NatSet.add s.fused cluster else NatSet.drop s.fused cluster))
    for i in List.range 8 do
      modCore (8 * cluster + i) fun c => { c with l1 := [] }

/-- The change of an engine's owner at a placement on an empty cluster (R234, R275). -/
def setOwner (cluster : Nat) (asid : BitVec 16) : M s0 Unit := do
  let s ← st
  if (s.clusterCtxs cluster).isEmpty then
    let f := s.fresco cluster
    if f.owner == asid then upd (.fresco cluster f)
    else
      upd (.fresco cluster
        { f with
          banks := [0, 1, 2, 3].map fun b =>
            let x := TMap.get Bank.reset f.banks b
            (b, { x with valid := false, gen := x.gen + 1 })
          tiles := []
          status := []
          prog := { f.prog with count := 0 }
          caps := []
          owner := asid })
      upd (.stencil cluster { s.stencil cluster with entries := [] })

/-- sr.grp and sr.rank of a strand: VALID, GID and RANK of each declared position (R69). -/
def grpWord (l : Launch) (index : Nat) : Word :=
  wordOf (((List.range 4).map fun p =>
    if l.gpos.getLsbD p then ((groupAt l.groups index p).map fun g => (g.1 + 2 ^ 15) * 2 ^ (16 * p)).getD 0 else 0).sum)

def rankWord (l : Launch) (index : Nat) : Word :=
  wordOf (((List.range 4).map fun p =>
    if l.gpos.getLsbD p then ((groupAt l.groups index p).map fun g => g.2 * 2 ^ (16 * p)).getD 0 else 0).sum)

/-- A context is the launch's: a FREE one takes a block of cells, an IDLE one keeps its own. -/
def takeCtx (k : Nat) (l : Launch) (core i : Nat) : M s0 Unit := do
  setMode (core / 8) l.fuse
  setOwner (core / 8) l.asid
  let s ← st
  let a := 16 * core + i
  if (s.ctx a).phase == .free then
    let bs := s.freeBases core l.nslots
    let n ← if bs.length ≤ 1 then pure 0 else choose bs.length
    modCtx a fun x => { x with owner := some k, budget := l.budget, nslots := l.nslots, cellBase := bs.getD n 0 }

/-- A launch strand starts (R53). -/
def placeStrand (k : Nat) (l : Launch) (index core i : Nat) : M s0 Unit := do
  takeCtx k l core i
  let r := startRegs false l.entry l.num (BitVec.ofNat 32 index) l.param l.asid l.lsbase l.lslim
  startStrand (16 * core + i) { r with grp := grpWord l index, rank := rankWord l index } fun x =>
    { x with
      gang := if l.gang then
        some { launch := k, step := 0, arrived := false, checkpoint := x.r, err := { addr := 0, ovf := false, stale := false } }
        else none }

/-! ### Restoring saved strands (R190, R191, R225, R276, R299) -/

/-- The context of a core that a saved strand gets: the lowest that is FREE or IDLE of the launch, with a free block of cells;
in a trace set, the one with its own number. -/
def State.restoreCtx (s : State) (k core was : Nat) (bs : List Byte) : Option Nat :=
  let traced := recMember bs || recLeader bs
  if (s.core core).failed || (!isEasel core && !s.fuseOk (core / 8) false) then none
  else
    (List.range (numCtx core)).find? fun j =>
      let a := 16 * core + j
      let x := s.ctx a
      (!traced || j == was) && x.preempt.isNone && (x.phase == .free || (x.phase == .idle && x.owner == some k)) &&
      !(((Upd.ctx a (Ctx.reset (isEasel core))).apply s).freeBases core (recSlots bs)).isEmpty

/-- The stores of a line with numbers of their own, in order. -/
def renumber (l : SLine) : M s0 SLine := do
  let mut ops : List SOp := []
  for o in l.ops do
    let q ← freshSeq
    ops := ops ++ [{ o with seq := q }]
  let q ← freshSeq
  return { l with ops := ops, age := q }

/-- The FAULTED lines of a record, with the REDs that the strand took along. -/
def restoreLines (bs : List Byte) (mode : Mode) (reds : List SLine) : M s0 (List SLine) := do
  let mut out : List SLine := []
  for l in joinReds ((List.range (recFaults bs)).map (recordLine bs mode)) reds do
    let x ← renumber l
    out := out ++ [x]
  return out

/-- The pending errors of a record; a POISON whose origin the strand did not take along is either of the two. -/
def restorePend (bs : List Byte) (engine : List Bool) : M s0 (List Pend) := do
  let mut out : List Pend := []
  for i in List.range (recPends bs) do
    let q ← freshSeq
    let p := recordPend bs true q i
    let e ←
      if p.cause != .poison then pure true
      else match engine[i]? with
        | some b => pure b
        | none => do
          let n ← choose 2
          pure (n == 1)
    out := out ++ [{ p with engine := e }]
  return out

/-- What the strand of a record took along: this device knows it of the images that it has saved itself. -/
def State.takenAlong (s : State) (r : Regs) (bs : List Byte) : Option Aside :=
  s.saved.find? fun x => x.launch == r.launch && x.index == r.index && x.asid == r.asid && x.record == bs

/-- The instructions that replay the FAULTED lines of a record (R153): those that the strand took along; else the one to which a
handler of a deferred trap returns. -/
def replayOf (kept : Option Aside) (r : Regs) (bs : List Byte) : List Word :=
  match kept with
  | some y => y.replay
  | none => if r.intrap && r.ktrap.deferred && recFaults bs != 0 then [r.ktrap.epc] else []

/-- The words of a waiting system call, for its record and its completion. -/
def refetch (a : Nat) : M s0 Unit := do
  match ← fetch a with
  | .ok (b, e) => modCtx a fun x => { x with ir := b, irExt := e }
  | .error _ => pure ()

/-- A saved strand in context `a`, whose cells are fresh at `base`. -/
def restoreRegs (k : Nat) (l : Launch) (a base : Nat) (bs : List Byte) : M s0 Unit := do
  let s ← st
  let core := coreOf a
  let x := s.ctx a
  let r := { recordRegs core bs with slots := s.recordSlots core base bs }
  let user := r.mode == .user || (r.intrap && r.pmode == .user)
  let kept := s.takenAlong r bs
  let lines ← restoreLines bs (if user then .user else .kernel) ((kept.map (·.lines)).getD [])
  let pend ← restorePend bs ((kept.map (·.engine)).getD [])
  let err := wordIn bs (640 + 32)
  let e : ErrReg := { addr := wordOf (field err 56 8 * 2 ^ 56 + field err 8 48), ovf := err.getLsbD 3, stale := err.getLsbD 2 }
  let h2 := wordIn bs 16
  let h7 := wordIn bs 56
  let (call, ans) := recordCall bs
  let inCall := call.isSome || ans.isSome
  let y := x.begin r
  upd (.ctx a
    { y with
      phase := if call.isSome then .waiting else .ready
      r := { y.r with v := r.v ++ y.r.v }
      errAddr := e.addr
      ovf := e.ovf
      stale := e.stale
      pend := pend
      lines := lines
      replay := replayOf kept r bs
      replayNow := kept.any (·.replayNow)
      straight := kept.any (·.straight)
      linkBase := kept.bind (·.linkBase)
      -- the handlers that the strand is in, at most one of each mode (R65, R351)
      handler := bit y.r.intrap 0 + bit y.r.mintrap 0
      leases := (kept.map (·.leases)).getD []
      leasesLost := kept.isNone
      wait := call.map fun w => { kind := w, watches := [], all := true, deadline := none }
      prog := { Progress.none with field := inCall, sig := inCall, ans := ans, handed := kept.any (·.handed) }
      join := if h2.getLsbD 55 then some (wordIn bs 40) else none
      start := if h2.getLsbD 54 then
        some { ref := wordIn bs 48, gen := h7.extractLsb' 48 16, inc := h7.extractLsb' 0 48 } else none
      gang := if l.gang then
        some { launch := k, step := (kept.map (·.step)).getD 0, arrived := false, checkpoint := { r with v := r.v ++ y.r.v }
               err := e }
        else none })
  match kept with
  | some y =>
    let s ← st
    match TMap.find s.launches k with
    | some x => if x.gang then upd (.launch k { x with steps := y.steps, step := y.step })
    | none => pure ()
  | none => pure ()
  for (p, b) in (r.savedAddrs core).zip (List.drop (recLocalAt bs) bs) do
    upd (.lsByte (lsKey core p) b)
  if inCall then refetch a

/-- RESTORE of one saved strand. -/
def restoreStrand (k : Nat) (l : Launch) (core i : Nat) (bs : List Byte) : M s0 Unit := do
  let a := 16 * core + i
  if !isEasel core then
    setMode (core / 8) false
    setOwner (core / 8) l.asid
  freeCtx a
  let s ← st
  let n := recSlots bs
  let bases := s.freeBases core n
  let j ← if bases.length ≤ 1 then pure 0 else choose bases.length
  let base := bases.getD j 0
  modCtx a fun x => { x with owner := some k, budget := recBudget bs, nslots := n, cellBase := base }
  freshCells core base n
  for c in List.range n do
    let s ← st
    upd (.cell (256 * core + base + c) { s.cell core (base + c) with v := recordCell bs c })
  restoreRegs k l a base bs
  if recMember bs then
    -- the forwarded instructions that the strand took along
    let left := ((s.takenAlong (recordRegs core bs) bs).map (·.stream)).getD []
    modCore core fun c => { c with trace := .follower (8 * (core / 8) + recLpos bs) true left }
  acquireFar a
  startTime a
  startScan core

/-- The next strand of a die's share; none when no core qualifies. -/
def placeNext (die k : Nat) : M s0 Bool := do
  let s ← st
  match TMap.find s.launches k with
  | none => return false
  | some l =>
    match TMap.find l.perDie die with
    | none => return false
    | some sh =>
      match sh.todo with
      | [] => return false
      | (idx, entry) :: rest =>
        let next := { l with perDie := TMap.put l.perDie die { sh with todo := rest, placed := sh.placed + 1 } }
        match TMap.find l.restore idx with
        | some (core, was, bs) =>
          match s.restoreCtx k core was bs with
          | none => return false
          | some i =>
            upd (.launch k next)
            restoreStrand k l core i bs
            return true
        | none =>
          match s.placeAt die k sh.placed l entry with
          | none => return false
          | some (core, i) =>
            upd (.launch k next)
            placeStrand k l idx core i
            return true

/-- A gang, and the members of a trace set, are placed at once. -/
def Launch.atOnce (l : Launch) : Bool := l.gang || l.restore.any fun p => recMember p.2.2.2 || recLeader p.2.2.2

/-- One placement turn of a thread: one strand, or a share that goes at once. -/
def placeTurn (die thread : Nat) : M s0 Unit := do
  let s ← st
  match (s.thread die thread).st with
  | .placing k =>
    match TMap.find s.launches k with
    | none => notEnabled "STRAND_PLACEMENT"
    | some l =>
      let n := ((TMap.find l.perDie die).map fun x => x.todo.length).getD 0
      for _ in List.range (if l.atOnce then n else 1) do
        let ok ← placeNext die k
        require "STRAND_PLACEMENT" ok
      let s ← st
      let left : Nat := (((TMap.find s.launches k).bind fun l => TMap.find l.perDie die).map fun x => x.todo.length).getD 0
      if left = 0 then placedAll die thread (l.origin.1 / 2)
  | _ => notEnabled "STRAND_PLACEMENT"

/-- Whether a part of a meaning would run through. -/
def works {α : Type} (m : M s0 α) : M s0 Bool := fun s =>
  match m s with
  | .ok _ _ => .ok true s
  | .error _ _ => .ok false s

/-- The threads that have their turn before `thread` when `last` had the last one: ascending slot order, the arm thread after the
32 slots (R216, R230). -/
def turnsBefore (last thread : Nat) : List Nat := ((List.range 33).map fun i => (last + 1 + i) % 33).takeWhile (· != thread)

/-- STRAND_PLACEMENT: threads with strands waiting take one turn each, in slot order; one that is blocked skips it (R216,
R223). -/
def strandPlacementBody (die thread : Nat) : M s0 Unit := do
  let s ← st
  for t in turnsBefore (s.die die).turn thread do
    if (s.thread die t).st.isPlacing then
      let b ← works (placeTurn die t)
      require "STRAND_PLACEMENT" (!b)
  placeTurn die thread
  modDie die fun d => { d with turn := thread }

def execStrandPlacement (die thread : Nat) (s : State) : Outcome := run s (strandPlacementBody die thread)

/-! ### ARM and tagged launches (R229, R230) -/

/-- The reserved fields of an ARM packet. DESIGN CHOICE (log 81): bits 63..16 and bit 14 of word 0, of which R229 does not speak, are
reserved too. -/
def armFieldsOk (ws : List Word) : Bool :=
  let w := wordAt ws
  field (w 0) 16 48 == 0 && !(w 0).getLsbD 14 && (w 3).toNat % 256 == 0 && field (w 4) 32 32 == 0 &&
  decide (field (w 4) 28 4 ≤ 8) && decide (8 ≤ field (w 4) 24 4) && field (w 4) 12 12 % 8 == 0 && w 6 == 0 && w 7 == 0

/-- The value of a template's DONE. DESIGN CHOICE (log 84): of a template or a DONE that cannot be read it is 0, and a parameter block
that cannot be read gives no bytes; R230 speaks of neither. -/
def templateDone (die : Nat) (asid : BitVec 16) (template : Word) : M s0 (Word × Nat) := do
  match ← readWords (seqReq die asid) (seqParty (seqReq die asid)) template 8 with
  | .error _ => return (0, 0)
  | .ok ws =>
    match ← resolveRef (seqReq die asid) { rd := true, wr := false } (wordAt ws 5) with
    | .error _ => return (0, field (wordAt ws 6) 0 48)
    | .ok k =>
      let s ← st
      return (s.ctrV k, field (wordAt ws 6) 0 48)

def armPacketBody (die slot : Nat) : M s0 Unit := do
  match ← fetchPacket "ARM_PACKET" die slot fun t => t == 5 with
  | none => pure ()
  | some ws =>
    if !armFieldsOk ws then badPacket die slot .badpacket
    else
      let s ← st
      let q := s.queueOf die slot
      let e := field (wordAt ws 0) 8 6
      require "ARM_PACKET" (s.arm die e).due.isEmpty
      let w4 := wordAt ws 4
      let psize := field w4 12 12
      let bad := decide (psize < field w4 0 12 + 8) || decide (2 ^ field w4 24 4 ≤ psize)
      let valid := (wordAt ws 0).getLsbD 15
      if bad then
        let a ← openWord
        let d ← openWord
        writeRecord (seqReq die q.asid) (seqParty (seqReq die q.asid)) q.err .badarm 0 (s.thread die slot).next.toNat a d
      let (v, _) ← templateDone die q.asid (wordAt ws 2)
      upd (.arm (64 * die + e)
        { valid := valid && !bad, tag := wordAt ws 1, template := wordAt ws 2, bufbase := wordAt ws 3, sizes := w4
          err := wordAt ws 5, asid := q.asid, fires := 0, base := v, due := [] })
      retire die slot (pure ())

def execArmPacket (die slot : Nat) (s : State) : Outcome := run s (armPacketBody die slot)

/-- A message that is dropped is logged, under a code that the spec does not name. -/
def dropMessage (die : Nat) : M s0 Unit := do
  let code ← choose 13
  let who ← openWord
  let a ← openWord
  let d ← openWord
  logEvent die (recCodeOf code) 0 who.toNat a d

/-- A write by a sequencer or an ingress: a fault is recorded in ERR. -/
def bufferWrite (q : Req) (err va : Word) (bs : List Byte) : M s0 Unit := do
  match ← writeRange q (seqParty q) va bs with
  | .ok _ => pure ()
  | .error (c, a) =>
    let who ← openWord
    writeRecord q (seqParty q) err .fault 0 who.toNat a (causeWord c)

/-- The fire of an accepted message: its buffer, then its hand-over to all eight sequencers. -/
def fireArm (die e : Nat) (x : Arm) (payload : List Byte) : M s0 Unit := do
  let q := seqReq die x.asid
  let psize := field x.sizes 12 12
  let buf := x.bufbase + wordOf (x.fires % 2 ^ field x.sizes 28 4 * 2 ^ field x.sizes 24 4)
  let block ← do
    match ← readWords q (seqParty q) x.template 8 with
    | .error _ => pure []
    | .ok ws =>
      match ← readRange q (seqParty q) (wordAt ws 2) psize with
      | .error _ => pure []
      | .ok g => pure g.bytes
  bufferWrite q x.err buf block
  bufferWrite q x.err (buf + wordOf psize) payload
  bufferWrite q x.err (buf + wordOf (field x.sizes 0 12)) (natBytes 8 (buf + wordOf psize).toNat)
  for d in List.range 8 do
    let s ← st
    let y := s.arm d e
    upd (.arm (64 * d + e) { y with fires := x.fires + 1, due := y.due ++ [{ num := x.fires, param := buf }] })
    upd (.thread (64 * d + 32) (s.thread d 32))

/-- A tagged message of a master at the ingress of a die (R230, R372, R445): 0 accepted, 1 dropped, 3 refused by the die's
access table. While only the buffer condition fails, the sender is held. -/
def taggedBody (name : String) (die master : Nat) (asid : BitVec 16) (tag : Word) (payload : List Byte) : M s0 Nat := do
  let s ← st
  if !admits (s.access die 2 master) false true false asid then return 3
  else
    match (List.range 64).find? fun e => (s.arm die e).valid && (s.arm die e).tag == tag with
    | none =>
      dropMessage die
      return 1
    | some e =>
      let x := s.arm die e
      if 2 ^ field x.sizes 24 4 < payload.length + field x.sizes 12 12 then
        dropMessage die
        return 1
      else
        let (v, inc) ← templateDone die x.asid x.template
        let n := 2 ^ field x.sizes 28 4
        require name (decide (x.base.toNat + 8 * inc * (x.fires + 1) ≤ v.toNat + 8 * inc * n))
        fireArm die e x payload
        return 0

/-- TAGGED_LAUNCH_MESSAGE: a message of another device; one of an unmapped job is dropped and logged (R373). -/
def taggedLaunchMessageBody (m : TagMsg) : M s0 Unit := do
  let s ← st
  require "TAGGED_LAUNCH_MESSAGE" (decide (m.die < 8))
  match s.jobSpace m.die m.job with
  | none => dropMessage m.die
  | some (n, some asid) =>
    let _ ← taggedBody "TAGGED_LAUNCH_MESSAGE" m.die (masterJob n) asid m.tag m.payload
    pure ()
  | some (_, none) => pure ()

def execTaggedLaunchMessage (m : TagMsg) (s : State) : Outcome := run s (taggedLaunchMessageBody m)

end Sys2Proof.Machine
end

