-- ==== Sys2Proof/Machine/Shawin.lean ====
section
/-! DEFINITION. Shawin portable code: operations and their operands, kernel records and their verification, the types
(R300 to R306). -/

namespace Sys2Proof.Machine

open Sys2Proof

/-- Why the loader refuses an image (R321). -/
inductive LoadRefusal where
  | badmagic | badsig | version | rollback | level | format | type | spill
  deriving DecidableEq, Repr

/-! ### LEB128 (R300) -/

/-- The bytes of one LEB128 value: at most `fuel`, and what follows. -/
def lebSplit : Nat → List Byte → Option (List Byte × List Byte)
  | 0, _ => none
  | _ + 1, [] => none
  | n + 1, b :: bs =>
    if b.getLsbD 7 then (lebSplit n bs).map fun p => (b :: p.1, p.2) else some ([b], bs)

/-- Seven value bits a byte, the low group first. -/
def lebNat : List Byte → Nat
  | [] => 0
  | b :: bs => b.toNat % 128 + 128 * lebNat bs

/-- ULEB128: at most 10 bytes, no more than the value needs, below 2^64. -/
def uleb (bs : List Byte) : Option (Nat × List Byte) :=
  match lebSplit 10 bs with
  | none => none
  | some (v, rest) =>
    let n := lebNat v
    if (1 < v.length && v.getLastD 0 == 0) || decide (2 ^ 64 ≤ n) then none else some (n, rest)

/-- SLEB128: the sign is bit 6 of the last byte. -/
def sleb (bs : List Byte) : Option (Int × List Byte) :=
  match lebSplit 10 bs with
  | none => none
  | some (v, rest) =>
    let last := v.getLastD 0
    let prev := (v.dropLast).getLastD 0
    let n : Int := if last.getLsbD 6 then (lebNat v : Int) - (2 ^ (7 * v.length) : Nat) else lebNat v
    let long := 1 < v.length && ((last == 0 && !prev.getLsbD 6) || (last == 0x7F && prev.getLsbD 6))
    if long || decide (n < -(2 ^ 63 : Int)) || decide ((2 ^ 63 : Int) ≤ n) then none else some (n, rest)

/-! ### Types (R301) -/

inductive VTy where
  | i8 | i16 | i32 | i64 | f16 | bf16 | f32 | f64 | ptr
  | vi8 | vi16 | vi32 | vf16 | vbf16 | vf32
  | tv
  deriving DecidableEq, Repr

def VTy.ofCode (n : Nat) : Option VTy :=
  if n = 0x01 then some .i8 else if n = 0x02 then some .i16 else if n = 0x03 then some .i32
  else if n = 0x04 then some .i64 else if n = 0x05 then some .f16 else if n = 0x06 then some .bf16
  else if n = 0x07 then some .f32 else if n = 0x08 then some .f64 else if n = 0x09 then some .ptr
  else if n = 0x11 then some .vi8 else if n = 0x12 then some .vi16 else if n = 0x13 then some .vi32
  else if n = 0x15 then some .vf16 else if n = 0x16 then some .vbf16 else if n = 0x17 then some .vf32
  else if n = 0x20 then some .tv else none

def VTy.isVec : VTy → Bool
  | .vi8 | .vi16 | .vi32 | .vf16 | .vbf16 | .vf32 => true
  | _ => false

/-- An integer scalar; ptr counts as one. -/
def VTy.isIntS : VTy → Bool
  | .i8 | .i16 | .i32 | .i64 | .ptr => true
  | _ => false

/-- A scalar that floating-point operations take. -/
def VTy.isFp : VTy → Bool
  | .f32 | .f64 => true
  | _ => false

def VTy.isHalf : VTy → Bool
  | .f16 | .bf16 => true
  | _ => false

def VTy.isVecInt : VTy → Bool
  | .vi8 | .vi16 | .vi32 => true
  | _ => false

def VTy.isVecFp : VTy → Bool
  | .vf16 | .vbf16 | .vf32 => true
  | _ => false

/-- The TYPE of the elements; ptr is a 64-bit integer. -/
def VTy.elem : VTy → Ty
  | .i8 | .vi8 => .i8
  | .i16 | .vi16 => .i16
  | .i32 | .vi32 => .i32
  | .i64 | .ptr | .tv => .i64
  | .f16 | .vf16 => .f16
  | .bf16 | .vbf16 => .bf16
  | .f32 | .vf32 => .f32
  | .f64 => .f64

def VTy.width (t : VTy) : Nat := t.elem.bits

/-- SIZE of a memory access of one element. -/
def VTy.size (t : VTy) : Size :=
  if t.width = 8 then .b else if t.width = 16 then .h else if t.width = 32 then .w else .d

/-- The cost in native registers (R301, R302). -/
def VTy.cost (t : VTy) : Nat := if t.isVec then t.width / 8 else 1

/-- Where one type is required, ptr and i64 count as one. -/
def VTy.same (a b : VTy) : Bool := a == b || ((a == .i64 || a == .ptr) && (b == .i64 || b == .ptr))

/-! ### Operations (R300, R305, R306) -/

/-- Operand kinds (R300). -/
inductive OKind where
  | r | u | s | t
  deriving DecidableEq, Repr

/-- The operands of the operations 0x01 to 0x37 (R305), in order. -/
def kernelShapes : List (List OKind) := [
  [.r, .u], [.r, .s], [.r, .r],
  [.r, .r, .r], [.r, .r, .r], [.r, .r, .r], [.r, .r, .r], [.r, .r, .r], [.r, .r, .r], [.r, .r, .r],
  [.r, .r, .r], [.r, .r, .r], [.r, .r, .r], [.r, .r, .r], [.r, .r, .r], [.r, .r, .r],
  [.r, .r, .r, .r],
  [.r, .r], [.r, .r], [.r, .r], [.r, .r], [.r, .r], [.r, .r], [.r, .r],
  [.r, .r, .r, .u], [.r, .r, .r, .r], [.r, .r, .u], [.r, .r], [.r, .r], [.r, .r], [.r, .r, .r],
  [.r, .r, .s], [.r, .s, .r], [.r, .r, .s], [.r, .s, .r], [.r, .r, .r], [.r, .r, .r],
  [.r, .u, .r, .r], [.u, .r, .r], [.r, .r, .r, .r], [.r, .r, .u, .t], [.t], [],
  [.r, .u, .r, .r], [.r, .u, .r], [.u, .r], [.u], [.r], [], [.r, .u], [.r, .r],
  [.u, .r], [.u, .r, .r, .u], [.u, .r, .r, .u], []]

/-- The operands of the operations 0x80 to 0x93 (R306), in order: the site, then the row's. -/
def dynamicShapes : List (List OKind) := [
  [.u, .r, .u, .r], [.u, .r, .u, .r], [.u, .u, .u, .r], [.u, .u, .u, .r],
  [.u, .r, .r, .u], [.u, .r, .r, .u], [.u, .u],
  [.u, .r, .r, .r], [.u, .r, .r, .r], [.u, .r, .r, .r], [.u, .r, .r, .r], [.u, .r, .r, .r], [.u, .r, .r, .r],
  [.u, .r, .r, .r],
  [.u, .r, .t], [.u, .r, .r], [.u, .r, .r], [.u, .u, .r], [.u, .r], [.u, .r, .r, .u]]

/-- The operands of an opcode; none: the opcode is refused. -/
def opShape (op : Nat) : Option (List OKind) :=
  if op = 0 then none
  else if op ≤ 0x37 then kernelShapes[op - 1]?
  else if 0x80 ≤ op ∧ op ≤ 0x93 then dynamicShapes[op - 0x80]?
  else none

/-- An operation with its operands in order. -/
structure ShOp where
  op : Nat
  args : List Int
  deriving DecidableEq, Repr

def ShOp.int (o : ShOp) (i : Nat) : Int := o.args.getD i 0

def ShOp.nat (o : ShOp) (i : Nat) : Nat := (o.int i).toNat

/-- One operand of a kind. -/
def takeArg (k : OKind) (bs : List Byte) : Option (Int × List Byte) :=
  match k with
  | .r | .u => (uleb bs).map fun p => ((p.1 : Int), p.2)
  | .s | .t => sleb bs

def takeArgs : List OKind → List Byte → Option (List Int × List Byte)
  | [], bs => some ([], bs)
  | k :: ks, bs =>
    match takeArg k bs with
    | none => none
    | some (v, rest) => (takeArgs ks rest).map fun p => (v :: p.1, p.2)

/-- One operation, and the bytes that follow it. -/
def takeOp : List Byte → Option (ShOp × List Byte)
  | [] => none
  | b :: bs =>
    match opShape b.toNat with
    | none => none
    | some ks => (takeArgs ks bs).map fun p => ({ op := b.toNat, args := p.1 }, p.2)

/-- n operations. -/
def takeOps : Nat → List Byte → Option (List ShOp × List Byte)
  | 0, bs => some ([], bs)
  | n + 1, bs =>
    match takeOp bs with
    | none => none
    | some (o, rest) => (takeOps n rest).map fun p => (o :: p.1, p.2)

/-- The operations whose first operand is the register that they define. -/
def definesFirst (op : Nat) : Bool :=
  (1 ≤ op && op ≤ 0x20) || op == 0x22 || op == 0x24 || op == 0x26 || op == 0x28 || op == 0x2C || op == 0x2D ||
  op == 0x32 || op == 0x33

/-- The registers named by the r operands. -/
def ShOp.regs (o : ShOp) : List Nat :=
  ((((opShape o.op).getD []).zip o.args).filter fun p => p.1 == .r).map fun p => p.2.toNat

def ShOp.defs (o : ShOp) : List Nat := if definesFirst o.op then o.regs.take 1 else []

def ShOp.uses (o : ShOp) : List Nat := if definesFirst o.op then o.regs.drop 1 else o.regs

/-- The relative target of a branch (R300): br, jmp, test. -/
def ShOp.target (o : ShOp) : Option Int :=
  if o.op = 0x29 then some (o.int 3) else if o.op = 0x2A then some (o.int 0)
  else if o.op = 0x8E then some (o.int 2) else none

/-! ### The types of the operands (R301, R305) -/

/-- The rows 0x04 to 0x10: add, sub, mul, div, rem, and, or, xor, shl, shr, sra, min, max. -/
def binTypeOk (op : Nat) (t : VTy) : Bool :=
  let arith := op == 0x04 || op == 0x05 || op == 0x06 || op == 0x0F || op == 0x10
  if t.isIntS then true
  else if t.isFp then arith || op == 0x07
  else if t.isVecInt then op != 0x07 && op != 0x08
  else if t.isVecFp then arith
  else false

/-- The type rules of an operation on the types of its registers. -/
def typeOk (T : Nat → VTy) (o : ShOp) : Bool :=
  let t (i : Nat) : VTy := T (o.nat i)
  let scalar (x : VTy) : Bool := !x.isVec && x != .tv
  let int64 (x : VTy) : Bool := x == .i64 || x == .ptr
  let op := o.op
  if op = 0x01 then scalar (t 0)
  else if op = 0x02 then (t 0).isIntS || (t 0).isFp
  else if op = 0x03 then (t 0).same (t 1)
  else if op ≤ 0x10 then (t 0).same (t 1) && (t 0).same (t 2) && binTypeOk op (t 0)
  else if op = 0x11 then t 0 == t 1 && t 0 == t 2 && t 0 == t 3 && ((t 0).isFp || (t 0).isVecFp)
  else if op ≤ 0x18 then
    t 0 == t 1 && ((t 0).isVecFp || ((t 0).isFp && !(t 0 == .f64 && 0x17 ≤ op)))
  else if op = 0x19 then
    (t 1).same (t 2) &&
    (if (t 1).isVec then (t 0).isVecInt && (t 0).width == (t 1).width
     else ((t 1).isIntS || (t 1).isFp) && int64 (t 0))
  else if op = 0x1A then
    (t 0).same (t 2) && (t 0).same (t 3) &&
    (if (t 0).isVec then (t 1).isVecInt && (t 1).width == (t 0).width
     else ((t 0).isIntS || (t 0).isFp) && (t 1).isIntS)
  else if op = 0x1B then
    if (t 0).isVec then (t 1).isVec && t 0 != t 1
    else scalar (t 0) && scalar (t 1) && ((t 0).isIntS && (t 1).isIntS || (t 0).elem != (t 1).elem)
  else if op = 0x1C then (t 0).isVec && !(t 1).isVec && t 1 != .tv && t 1 != .ptr && !(t 1).isHalf && (t 0).elem == (t 1).elem
  else if op = 0x1D ∨ op = 0x1E then (t 0 == .f32 && t 1 == .vf32) || (t 0 == .i32 && t 1 == .vi32)
  else if op = 0x1F then
    (t 1).isVec && !(t 0).isVec && t 0 != .tv && t 0 != .ptr && !(t 0).isHalf && (t 0).elem == (t 1).elem && (t 2).isIntS
  else if op = 0x20 ∨ op = 0x22 then t 0 != .tv && int64 (t 1)
  else if op = 0x21 ∨ op = 0x23 then int64 (t 0) && t 2 != .tv
  else if op = 0x24 then (t 0 == .vi32 || t 0 == .vf32) && int64 (t 1) && t 2 == .vi32
  else if op = 0x25 then int64 (t 0) && t 1 == .vi32 && (t 2 == .vi32 || t 2 == .vf32)
  else if op = 0x26 then
    (t 0).same (t 3) && int64 (t 2) &&
    (if t 0 == .f32 then o.nat 1 == 0 || o.nat 1 == 7 else (t 0 == .i32 || int64 (t 0)) && o.nat 1 != 7)
  else if op = 0x27 then
    int64 (t 1) && o.nat 0 != 0 &&
    (if t 2 == .f32 then o.nat 0 == 7 else (t 2 == .i32 || int64 (t 2)) && o.nat 0 != 7)
  else if op = 0x28 then
    (t 0).same (t 2) && (t 0).same (t 3) && int64 (t 1) && (t 0 == .f32 || t 0 == .i32 || int64 (t 0))
  else if op = 0x29 then (t 0).isIntS && (t 1).isIntS
  else if op ≤ 0x2B then true
  else if op = 0x2C then int64 (t 0) && int64 (t 2) && int64 (t 3)
  else if op = 0x2D then int64 (t 0) && int64 (t 2)
  else if op = 0x2E then int64 (t 1)
  else if op = 0x2F ∨ op = 0x31 ∨ op = 0x37 then true
  else if op = 0x30 ∨ op = 0x32 then int64 (t 0)
  else if op = 0x33 then int64 (t 0) && int64 (t 1)
  else if op = 0x34 then int64 (t 1)
  else if op = 0x35 ∨ op = 0x36 then int64 (t 1) && int64 (t 2)
  else false

/-- The ranges of the u operands, beside those that a kernel's PSIZE and SLOTS set (R305). -/
def rangeOk (T : Nat → VTy) (o : ShOp) : Bool :=
  let op := o.op
  if op = 0x01 then o.nat 1 % ((T (o.nat 0)).width / 8) == 0
  else if op = 0x19 then o.nat 3 ≤ 6 && !(o.nat 3 == 6 && ((T (o.nat 1)).isIntS || (T (o.nat 1)).isVecInt))
  else if op = 0x1B then 1 ≤ o.nat 2 && o.nat 2 ≤ 6
  else if 0x20 ≤ op ∧ op ≤ 0x23 then
    -- the displacement of the last register that the template loads or stores fits an IMM word
    (let disp := if op % 2 = 0 then o.int 2 else o.int 1
     let t := T (o.nat (if op % 2 = 0 then 0 else 2))
     decide (-(2 ^ 59 : Int) ≤ disp) && decide (disp + 256 * ((t.cost : Int) - 1) < (2 ^ 59 : Int)))
  else if op = 0x26 then o.nat 1 ≤ 7
  else if op = 0x27 then o.nat 0 ≤ 7
  else if op = 0x29 then o.nat 2 ≤ 5
  else if op = 0x2C ∨ op = 0x2D then o.nat 1 ≤ 255
  else if op = 0x2E then o.nat 0 ≤ 255
  else if op = 0x2F then o.nat 0 ≤ 2
  else if op = 0x32 then o.nat 1 ≤ 6
  else if op = 0x34 then o.nat 0 ≤ 3
  else if op = 0x35 ∨ op = 0x36 then o.nat 0 ≤ 31 && o.nat 3 < 2 ^ 28
  else true

/-- The counter slot that an operation names. -/
def ShOp.slot (o : ShOp) : Option Nat :=
  if o.op = 0x2C ∨ o.op = 0x2D then some (o.nat 1) else if o.op = 0x2E then some (o.nat 0) else none

/-! ### Kernel records (R303, R304) -/

structure KRec where
  psize : Nat
  budget : Nat
  slots : Nat
  types : List VTy
  /-- position of a const, offset of its 8-byte parameter -/
  patches : List (Nat × Nat)
  ops : List ShOp
  deriving DecidableEq, Repr

def KRec.ty (k : KRec) (r : Nat) : VTy := k.types.getD r .tv

/-- n ULEB128 values. -/
def ulebs : Nat → List Byte → Option (List Nat × List Byte)
  | 0, bs => some ([], bs)
  | n + 1, bs =>
    match uleb bs with
    | none => none
    | some (v, rest) => (ulebs n rest).map fun p => (v :: p.1, p.2)

def pairs : List Nat → List (Nat × Nat)
  | a :: b :: r => (a, b) :: pairs r
  | _ => []

/-- The fields of a kernel record; FORMAT for a value that breaks R300 or a limit, TYPE for a type code. -/
def readKernelRecord (bs : List Byte) : Except LoadRefusal KRec :=
  match ulebs 4 bs with
  | some ([psize, budget, slots, nregs], r1) =>
    if 4096 < psize || !(budget == 16 || budget == 32 || budget == 48 || budget == 64) || 256 < slots || nregs == 0 ||
        65535 < nregs || r1.length < nregs then .error .format
    else
      let tys := (r1.take nregs).map fun b => VTy.ofCode b.toNat
      if tys.any fun t => t.isNone || t == some .tv then .error .type
      else
        match uleb (r1.drop nregs) with
        | none => .error .format
        | some (np, r2) =>
          if 64 < np then .error .format
          else
            match ulebs (2 * np) r2 with
            | none => .error .format
            | some (ps, r3) =>
              match uleb r3 with
              | none => .error .format
              | some (nops, r4) =>
                if nops == 0 || 2 ^ 20 < nops then .error .format
                else
                  match takeOps nops r4 with
                  | none => .error .format
                  | some (ops, _) =>
                    .ok { psize := psize, budget := budget, slots := slots, types := tys.filterMap id
                          patches := pairs ps, ops := ops }
  | _ => .error .format

/-- Each register that an operation reads is defined by an operation at a lower position (R303). -/
def definedBefore (seen : NatSet) : List ShOp → Bool
  | [] => true
  | o :: r => (o.uses.all fun x => NatSet.has seen x) && definedBefore (o.defs.foldl NatSet.add seen) r

/-- The targets lie within the kernel. -/
def targetsIn (k : KRec) : Bool :=
  k.ops.zipIdx.all fun p =>
    match p.1.target with
    | some t => decide (0 ≤ (p.2 : Int) + t) && decide ((p.2 : Int) + t < k.ops.length)
    | none => true

/-- The patch entries name distinct consts and 8-byte parameters (R304). -/
def patchesOk (k : KRec) : Bool :=
  (k.patches.map (·.1)).Nodup &&
  k.patches.all fun p => ((k.ops[p.1]?).any fun o => o.op == 0x02) && p.2 % 8 == 0 && p.2 + 8 ≤ k.psize

/-- R303: what is not a type rule refuses with FORMAT, a type rule with TYPE. -/
def verify (k : KRec) : Except LoadRefusal Unit :=
  if k.ops.any fun o => 0x38 ≤ o.op then .error .format
  else if k.ops.any fun o => o.regs.any fun r => k.types.length ≤ r then .error .format
  else if !(k.ops.all (typeOk k.ty)) then .error .type
  else if !(k.ops.all (rangeOk k.ty)) then .error .format
  else if k.ops.any fun o => o.op == 0x01 && k.psize ≤ o.nat 1 then .error .format
  else if k.ops.any fun o => o.slot.any fun n => k.slots ≤ n then .error .format
  else if !(definedBefore [] k.ops) then .error .format
  else if !(targetsIn k) || !(patchesOk k) then .error .format
  else if !((k.ops.getLast?).any fun o => o.op == 0x2B || o.op == 0x2A) then .error .format
  else .ok ()

end Sys2Proof.Machine
end

