-- ==== Sys2Proof/Machine/Translate.lean ====
section
/-! DEFINITION. Translation of Shawin kernels: the templates, register assignment, spilling, the code (R305 to R316). -/

namespace Sys2Proof.Machine

open Sys2Proof

/-! ### Template instructions -/

/-- A register field of a template's native instruction: unused, a scalar register, working register W j (R309), or native
register k of a virtual register. -/
inductive Opd where
  | none
  | x (n : Nat)
  | w (j : Nat)
  | vr (r k : Nat)
  deriving DecidableEq, Repr

/-- A native instruction of a template: its fields, whether it reads and writes the register in D, its words from the
register numbers and a branch offset, and the operation that it branches to. -/
structure TIns where
  d : Opd
  a : Opd
  b : Opd
  c : Opd
  rd : Bool
  wr : Bool
  make : BitVec 6 → BitVec 6 → BitVec 6 → BitVec 6 → Word → Instr
  tgt : Option Nat
  /-- the second word, where the first decodes to no instruction that has one -/
  ext : Option Word := none

def syNone : Sync := { ext := .none, wait := none, sig := none, scope := .device }
def syImm : Sync := { ext := .imm, wait := none, sig := none, scope := .device }
def syEng : Sync := { ext := .eng, wait := none, sig := none, scope := .device }

/-- An IMM word when the immediate exceeds IMM28 (R305). -/
def syFor (v : Word) : Sync := if fitsImm28 v then syNone else syImm

/-- X0 to X4 are x3 to x7 (R309). -/
def X0 : Opd := .x 3
def X2 : Opd := .x 5
def X3 : Opd := .x 6
def X4 : Opd := .x 7
def xZero : Opd := .x 0

def ins1 (d a : Opd) (f : BitVec 6 → BitVec 6 → Instr) : TIns :=
  { d := d, a := a, b := .none, c := .none, rd := false, wr := true, make := fun d a _ _ _ => f d a, tgt := none }

def ins2 (d a b : Opd) (f : BitVec 6 → BitVec 6 → BitVec 6 → Instr) : TIns :=
  { d := d, a := a, b := b, c := .none, rd := false, wr := true, make := fun d a b _ _ => f d a b, tgt := none }

def ins3 (d a b c : Opd) (f : BitVec 6 → BitVec 6 → BitVec 6 → BitVec 6 → Instr) : TIns :=
  { d := d, a := a, b := b, c := c, rd := false, wr := true, make := fun d a b c _ => f d a b c, tgt := none }

/-- An instruction without a result in D. -/
def insNo (a b : Opd) (f : BitVec 6 → BitVec 6 → Instr) : TIns :=
  { d := .none, a := a, b := b, c := .none, rd := false, wr := false, make := fun _ a b _ _ => f a b, tgt := none }

/-- A store or RED: its data register stands in D. -/
def insStore (d a b : Opd) (f : BitVec 6 → BitVec 6 → BitVec 6 → Instr) : TIns :=
  { d := d, a := a, b := b, c := .none, rd := true, wr := false, make := fun d a b _ _ => f d a b, tgt := none }

def tLi (d : Opd) (v : Word) : TIns := ins1 d .none fun d _ => .li d v (syFor v)
def tShli (d a : Opd) (n : Nat) : TIns := ins1 d a fun d a => .shli d a (wordOf n) syNone
def tShri (d a : Opd) (n : Nat) : TIns := ins1 d a fun d a => .shri d a (wordOf n) syNone
def tSrai (d a : Opd) (n : Nat) : TIns := ins1 d a fun d a => .srai d a (wordOf n) syNone
def tAndi (d a : Opd) (v : Word) : TIns := ins1 d a fun d a => .andi d a v (syFor v)
def tXori (d a : Opd) (v : Word) : TIns := ins1 d a fun d a => .xori d a v (syFor v)
def tOr (d a b : Opd) : TIns := ins2 d a b fun d a b => .or d a b syNone
def tVor (d a b : Opd) : TIns := ins2 d a b fun d a b => .vor .i32 0 d a b syNone
def tVrot (d a b : Opd) : TIns := ins2 d a b fun d a b => .vrot 0 d a b syNone
def tBcast (d a : Opd) : TIns := ins1 d a fun d a => .vbcast .w 0 d a syNone
def tVext (d a b : Opd) : TIns := ins2 d a b fun d a b => .vext d a b syNone
def tVcvt (t f : Ty) (r : Rnd) (d a : Opd) : TIns := ins1 d a fun d a => .vcvt t f r 0 d a syNone
/-- VCMP into k1. -/
def tVcmp (t : Ty) (p : Pred) (a b : Opd) : TIns := insNo a b fun a b => .vcmp t p 0 1 a b syNone
/-- VSEL under k1. -/
def tVsel (d a b : Opd) : TIns := ins2 d a b fun d a b => .vsel 1 d a b syNone

def rndOf (n : Nat) : Rnd := Rnd.ofCode (BitVec.ofNat 3 n)
def predOf (n : Nat) : Pred := Pred.ofCode (BitVec.ofNat 6 n)

/-! ### Templates (R305, R307, R308) -/

/-- An i8, i16 or i32 scalar result is sign-extended again (R307). -/
def signAgain (t : VTy) (d : Opd) (l : List TIns) : List TIns :=
  if t.isIntS && t.width < 64 then l ++ [tShli d d (64 - t.width), tSrai d d (64 - t.width)] else l

/-- const of a value that no patch replaces. -/
def constInto (d : Opd) (v : Word) : List TIns :=
  if fitsImm60 v then [tLi d v]
  else [tLi d (v.sshiftRight 4), tShli d d 4, ins1 d d fun d a => .ori d a (v &&& 0xF) syNone]

/-- The scalar integer instructions of the rows 0x04 to 0x10. -/
def intBin (op : Nat) (d a b : BitVec 6) : Instr :=
  if op = 0x04 then .add d a b syNone else if op = 0x05 then .sub d a b syNone
  else if op = 0x06 then .mul d a b syNone else if op = 0x07 then .div d a b syNone
  else if op = 0x08 then .rem d a b syNone else if op = 0x09 then .and d a b syNone
  else if op = 0x0A then .or d a b syNone else if op = 0x0B then .xor d a b syNone
  else if op = 0x0C then .shl d a b syNone else if op = 0x0D then .shr d a b syNone
  else if op = 0x0E then .sra d a b syNone else if op = 0x0F then .min d a b syNone
  else .max d a b syNone

def fpBin (op : Nat) (t : Ty) (d a b : BitVec 6) : Instr :=
  if op = 0x04 then .fadd t .rne d a b syNone else if op = 0x05 then .fsub t .rne d a b syNone
  else if op = 0x06 then .fmul t .rne d a b syNone else if op = 0x07 then .fdiv t .rne d a b syNone
  else if op = 0x0F then .fmin t d a b syNone else .fmax t d a b syNone

def vecBin (op : Nat) (t : Ty) (d a b : BitVec 6) : Instr :=
  let r : Rnd := if t.isInt then .dyn else .rne
  if op = 0x04 then .vadd t r 0 d a b syNone else if op = 0x05 then .vsub t r 0 d a b syNone
  else if op = 0x06 then .vmul t r 0 d a b syNone
  else if op = 0x09 then .vand t 0 d a b syNone else if op = 0x0A then .vor t 0 d a b syNone
  else if op = 0x0B then .vxor t 0 d a b syNone else if op = 0x0C then .vshl t 0 d a b syNone
  else if op = 0x0D then .vshr t 0 d a b syNone else if op = 0x0E then .vsra t 0 d a b syNone
  else if op = 0x0F then .vmin t 0 d a b syNone else .vmax t 0 d a b syNone

def binTemplate (t : VTy) (op d a b : Nat) : List TIns :=
  if t.isIntS then signAgain t (.vr d 0) [ins2 (.vr d 0) (.vr a 0) (.vr b 0) (intBin op)]
  else if t.isFp then [ins2 (.vr d 0) (.vr a 0) (.vr b 0) (fpBin op t.elem)]
  else (List.range t.cost).map fun k => ins2 (.vr d k) (.vr a k) (.vr b k) (vecBin op t.elem)

/-- LI of 1.0. -/
def oneInto (t : VTy) (d : Opd) : List TIns :=
  if t = .f64 then [tLi d 0x3FF, tShli d d 52] else [tLi d 0x3F800000]

def vecUnary (op : Nat) (t : Ty) (k : KReg) (d a : BitVec 6) : Instr :=
  if op = 0x12 then .vneg t k d a syNone else if op = 0x13 then .vabs t k d a syNone
  else if op = 0x14 then .vsqrt t .rne k d a syNone else if op = 0x15 then .vrcp t .rne k d a syNone
  else if op = 0x16 then .vrsq t .rne k d a syNone else if op = 0x17 then .vexp2 t .rne k d a syNone
  else .vlog2 t .rne k d a syNone

/-- The rows 0x12 to 0x18: neg, abs, sqrt, rcp, rsqrt, exp2, log2. -/
def unaryTemplate (t : VTy) (op dn an : Nat) : List TIns :=
  let d : Opd := .vr dn 0
  let a : Opd := .vr an 0
  if t.isVec then (List.range t.cost).map fun k => ins1 (.vr dn k) (.vr an k) (vecUnary op t.elem 0)
  else if op = 0x12 then
    if t = .f64 then [tLi X0 1, tShli X0 X0 63, ins2 d a X0 fun d a b => .xor d a b syNone]
    else [tXori d a 0x80000000]
  else if op = 0x13 then
    if t = .f64 then [tLi X0 (BitVec.allOnes 64), tShri X0 X0 1, ins2 d a X0 fun d a b => .and d a b syNone]
    else [tAndi d a 0x7FFFFFFF]
  else if op = 0x14 then [ins1 d a fun d a => .fsqrt t.elem .rne d a syNone]
  else if op = 0x15 then oneInto t X0 ++ [ins2 d X0 a fun d a b => .fdiv t.elem .rne d a b syNone]
  else if t = .f64 then
    [ins1 X3 a fun d a => .fsqrt .f64 .rne d a syNone] ++ oneInto t X0 ++
      [ins2 d X0 X3 fun d a b => .fdiv .f64 .rne d a b syNone]
  else
    [tLi X0 1, ins1 .none X0 fun _ a => .kmov (.kx 1 a) syNone, ins2 (.w 0) a xZero fun d a b => .vins d a b syNone,
     ins1 (.w 0) (.w 0) (vecUnary op .f32 1), tVext d (.w 0) xZero]

/-- The scalar integer compares from SLT, SLTU and XORI; equality by XOR and SLTU. -/
def intCmp (p : Nat) (d a b : Opd) : List TIns :=
  let slt (x y : Opd) : TIns := ins2 d x y fun d a b => .slt d a b syNone
  let not_ : TIns := tXori d d 1
  let differ : List TIns :=
    [ins2 X0 a b fun d a b => .xor d a b syNone, ins2 d xZero X0 fun d a b => .sltu d a b syNone]
  if p = 0 then differ ++ [not_]
  else if p = 1 then differ
  else if p = 2 then [slt a b]
  else if p = 3 then [slt b a, not_]
  else if p = 4 then [slt b a]
  else [slt a b, not_]

/-- The widening of one part to 32-bit elements: part q of f of a register, through W0. -/
def widenPart (t f : Ty) (n q : Nat) (d a : Opd) : List TIns :=
  if q = 0 then [tVcvt t f .rne d a] else [tLi X0 (wordOf (q * 64 / n)), tVrot (.w 0) a X0, tVcvt t f .rne d (.w 0)]

/-- Steps 3 and 4 of the narrow-lane forms: W1 back to w bits, into its lanes, joined in W5. -/
def narrowJoin (t : Ty) (n q : Nat) : List TIns :=
  [tVcvt t .i32 .rne (.w 1) (.w 1)] ++
  (if q = 0 then [tVor (.w 5) (.w 1) (.w 1)]
   else [tLi X0 (wordOf (64 - q * 64 / n)), tVrot (.w 1) (.w 1) X0, tVor (.w 5) (.w 5) (.w 1)])

def intOfWidth (w : Nat) : Ty := if w = 8 then .i8 else if w = 16 then .i16 else .i32

/-- All ones in W3 and zero in W4. -/
def onesAndZero : List TIns := [tLi X0 (BitVec.allOnes 64), tBcast (.w 3) X0, tBcast (.w 4) xZero]

def cmpTemplate (td ta : VTy) (d a b pred : Nat) : List TIns :=
  if ta.isIntS then intCmp pred (.vr d 0) (.vr a 0) (.vr b 0)
  else if ta.isFp then
    [ins2 (.vr d 0) (.vr a 0) (.vr b 0) fun d a b => .fcmp ta.elem (predOf pred) d a b syNone]
  else if ta.width = 32 then
    onesAndZero ++ (List.range ta.cost).flatMap fun k =>
      [tVcmp ta.elem (predOf pred) (.vr a k) (.vr b k), tVsel (.vr d k) (.w 3) (.w 4)]
  else
    let n := 32 / ta.width
    let wide : Ty := if ta.isVecFp then .f32 else .i32
    onesAndZero ++ (List.range ta.cost).flatMap fun k =>
      ((List.range n).flatMap fun q =>
        widenPart wide ta.elem n q (.w 1) (.vr a k) ++ widenPart wide ta.elem n q (.w 2) (.vr b k) ++
        [tVcmp wide (predOf pred) (.w 1) (.w 2), tVsel (.w 1) (.w 3) (.w 4)] ++
        narrowJoin (intOfWidth td.width) n q) ++
      [tVor (.vr d k) (.w 5) (.w 5)]

def selTemplate (td tc : VTy) (d c a b : Nat) : List TIns :=
  if !td.isVec then
    signAgain td (.vr d 0) [ins3 (.vr d 0) (.vr c 0) (.vr a 0) (.vr b 0) fun d a b c => .sel d a b c syNone]
  else if td.width = 32 then
    [tBcast (.w 4) xZero] ++ (List.range td.cost).flatMap fun k =>
      [tVcmp .i32 .ne (.vr c k) (.w 4), tVsel (.vr d k) (.vr a k) (.vr b k)]
  else
    let n := 32 / td.width
    let ti := intOfWidth td.width
    [tBcast (.w 4) xZero] ++ (List.range td.cost).flatMap fun k =>
      ((List.range n).flatMap fun q =>
        widenPart .i32 tc.elem n q (.w 1) (.vr c k) ++ [tVcmp .i32 .ne (.w 1) (.w 4)] ++
        widenPart .i32 ti n q (.w 1) (.vr a k) ++ widenPart .i32 ti n q (.w 2) (.vr b k) ++
        [tVsel (.w 1) (.w 1) (.w 2)] ++ narrowJoin ti n q) ++
      [tVor (.vr d k) (.w 5) (.w 5)]

/-- R307: vectors of one width, widening, narrowing. A rotation count that never changes is loaded once. -/
def vecCvt (td ta : VTy) (r : Rnd) (d a : Nat) : List TIns :=
  let cv (x y : Opd) : TIns := tVcvt td.elem ta.elem r x y
  if td.width = ta.width then (List.range td.cost).map fun k => cv (.vr d k) (.vr a k)
  else if ta.width < td.width then
    let f := td.width / ta.width
    (if f = 2 then [tLi X0 32] else []) ++ (List.range td.cost).flatMap fun k =>
      let q := k % f
      if q = 0 then [cv (.vr d k) (.vr a (k / f))]
      else (if f = 2 then [] else [tLi X0 (wordOf (q * 64 / f))]) ++
        [tVrot (.w 0) (.vr a (k / f)) X0, cv (.vr d k) (.w 0)]
  else
    let f := ta.width / td.width
    (if f = 2 then [tLi X0 32] else []) ++ (List.range td.cost).flatMap fun j =>
      ((List.range f).flatMap fun q =>
        [cv (.w 1) (.vr a (f * j + q))] ++
        (if q = 0 then [tVor (.w 3) (.w 1) (.w 1)]
         else (if f = 2 then [] else [tLi X0 (wordOf (64 - q * 64 / f))]) ++
          [tVrot (.w 2) (.w 1) X0, tVor (.w 3) (.w 3) (.w 2)])) ++
      [tVor (.vr d j) (.w 3) (.w 3)]

def cvtTemplate (td ta : VTy) (r : Rnd) (dn an : Nat) : List TIns :=
  let d : Opd := .vr dn 0
  let a : Opd := .vr an 0
  if td.isVec then vecCvt td ta r dn an
  else if td.isIntS && ta.isIntS then
    signAgain td d
      (if ta.width ≤ td.width then [tOr d a xZero]
       else
        [tLi X0 (BitVec.ofInt 64 (-(2 ^ (td.width - 1) : Nat))), ins2 d a X0 fun d a b => .max d a b syNone,
         tLi X0 (wordOf (2 ^ (td.width - 1) - 1)), ins2 d d X0 fun d a b => .min d a b syNone])
  else signAgain td d [ins1 d a fun d a => .fcvt td.elem ta.elem r d a syNone]

/-- R308. -/
def sumTemplate (t : VTy) (isMax : Bool) (d a : Nat) : List TIns :=
  let f (x y z : BitVec 6) : Instr := vecBin (if isMax then 0x10 else 0x04) t.elem x y z
  let i (x y z : Opd) : TIns := ins2 x y z f
  signAgain (if t = .vi32 then .i32 else .f32) (.vr d 0)
    ([i (.w 0) (.vr a 0) (.vr a 2), i (.w 1) (.vr a 1) (.vr a 3), i (.w 0) (.w 0) (.w 1)] ++
     ([32, 16, 8, 4, 2, 1].flatMap fun h =>
       [tLi X0 (wordOf h), tVrot (.w 1) (.w 0) X0, i (.w 0) (.w 0) (.w 1)]) ++
     [tVext (.vr d 0) (.w 0) xZero])

def log2w (w : Nat) : Nat := if w = 8 then 3 else if w = 16 then 4 else 5

/-- lane: the register of the group and the lane in it come from the index modulo 256. -/
def laneTemplate (td ta : VTy) (d a i : Nat) : List TIns :=
  let w := ta.width
  [tAndi X3 (.vr i 0) 255] ++ (if w < 32 then [tShri X3 X3 (5 - log2w w)] else []) ++
  [tShri X4 X3 6, tAndi X3 X3 63, tVext X0 (.vr a 0) X3] ++
  ((List.range (ta.cost - 1)).flatMap fun k =>
    [tVext X2 (.vr a (k + 1)) X3, ins1 X4 X4 fun d a => .addi d a (BitVec.allOnes 64) syNone,
     ins3 X0 X4 X0 X2 fun d a b c => .sel d a b c syNone]) ++
  signAgain td (.vr d 0)
    (if w < 32 then
      [tAndi X3 (.vr i 0) (wordOf (32 / w - 1)), tShli X3 X3 (log2w w), ins2 (.vr d 0) X0 X3 fun d a b => .shr d a b syNone]
     else [tOr (.vr d 0) X0 xZero])

def loadTemplate (t : VTy) (sp : Space) (d p : Nat) (disp : Word) : List TIns :=
  if t.isVec then
    (List.range t.cost).map fun k =>
      let v := disp + wordOf (256 * k)
      ins1 (.vr d k) (.vr p 0) fun d a => .vld .w sp 0 d a (.unit v) (syFor v)
  else signAgain t (.vr d 0) [ins1 (.vr d 0) (.vr p 0) fun d a => .ld t.size sp d a (.disp disp) (syFor disp)]

def storeTemplate (t : VTy) (sp : Space) (p a : Nat) (disp : Word) : List TIns :=
  if t.isVec then
    (List.range t.cost).map fun k =>
      let v := disp + wordOf (256 * k)
      insStore (.vr a k) (.vr p 0) .none fun d a _ => .vst .w sp 0 d a (.unit v) (syFor v)
  else [insStore (.vr a 0) (.vr p 0) .none fun d a _ => .st t.size sp d a (.disp disp) (syFor disp)]

/-- VSHL of the indices by 2 into W0; W1 holds the 2. -/
def gatherIndex (idx k : Nat) : TIns := ins2 (.w 0) (.vr idx k) (.w 1) fun d a b => .vshl .i32 0 d a b syNone

def aopOf (n : Nat) : AOp := AOp.ofCode (BitVec.ofNat 3 n)

def casTemplate (t : VTy) (d p a b : Nat) : List TIns :=
  let two := d == b
  signAgain t (.vr d 0)
    ((if two then [tOr X0 (.vr b 0) xZero] else []) ++ [tOr (.vr d 0) (.vr a 0) xZero] ++
     [{ d := .vr d 0, a := .vr p 0, b := if two then X0 else .vr b 0, c := .none, rd := true, wr := true
        make := fun d a b _ _ => .cas t.size .global d a b 0 syNone, tgt := none }])

/-- The words of MMUL and MDRAIN by FN and EOP of ctl; an RND of dyn in a drain is translated as rne. -/
def engineWords (op : BitVec 8) (tile ctl : Nat) (a b : BitVec 6) : Word × Option Word :=
  let c : BitVec 28 := BitVec.ofNat 28 ctl
  let fn : BitVec 6 := c.extractLsb' 0 6
  let eop : BitVec 22 := c.extractLsb' 6 22
  let eop := if op = 0xA3 && eop.extractLsb' 15 3 == 0 then eop ||| (1 <<< 15) else eop
  (formG op (BitVec.ofNat 6 tile) a b 0 fn eop 0 syEng).words

/-- MMUL and MDRAIN; a ctl that decodes to no form is translated to its words all the same. -/
def tEngine (op : BitVec 8) (tile ctl : Nat) (a b : Opd) : TIns :=
  { insNo a b fun a b =>
      match decode (engineWords op tile ctl a b).1 (engineWords op tile ctl a b).2 with
      | .ok i => i
      | .error _ => .illegalOpcode (engineWords op tile ctl a b).1 with
    ext := (engineWords op tile ctl 0 0).2 }

/-- The template of a kernel-profile operation at a position: the types of the registers, the offset of the const's patch.
(R305) -/
def template (T : Nat → VTy) (pos : Nat) (patched : Bool) (o : ShOp) : List TIns :=
  let n := o.nat
  let r (i : Nat) : Opd := .vr (n i) 0
  let t (i : Nat) : VTy := T (n i)
  let tgt (i : Nat) : Option Nat := some ((pos : Int) + o.int i).toNat
  let op := o.op
  if op = 0x01 then
    signAgain (t 0) (r 0)
      [ins1 (r 0) (.x 1) fun d a => .ld (t 0).size .global d a (.disp (wordOf (n 1))) (syFor (wordOf (n 1)))]
  else if op = 0x02 then
    if patched then
      -- the immediate as it stands, or 0 (R304)
      let v : Int := if -(2 ^ 59 : Int) ≤ o.int 1 && o.int 1 < (2 ^ 59 : Int) then o.int 1 else 0
      [ins1 (r 0) .none fun d _ => .li d (BitVec.ofInt 64 v) syImm]
    else
      let v := if t 0 == .f32 then wordOf (o.int 1 % 2 ^ 32).toNat else BitVec.ofInt 64 (o.int 1)
      signAgain (t 0) (r 0) (constInto (r 0) v)
  else if op = 0x03 then
    if (t 0).isVec then (List.range (t 0).cost).map fun k => tVor (.vr (n 0) k) (.vr (n 1) k) (.vr (n 1) k)
    else signAgain (t 0) (r 0) [tOr (r 0) (r 1) xZero]
  else if op ≤ 0x10 then binTemplate (t 0) op (n 0) (n 1) (n 2)
  else if op = 0x11 then
    if (t 0).isVec then (List.range (t 0).cost).map fun k =>
      ins3 (.vr (n 0) k) (.vr (n 1) k) (.vr (n 2) k) (.vr (n 3) k) fun d a b c => .vfma (t 0).elem .rne 0 d a b c syNone
    else [ins3 (r 0) (r 1) (r 2) (r 3) fun d a b c => .ffma (t 0).elem .rne d a b c syNone]
  else if op ≤ 0x18 then unaryTemplate (t 0) op (n 0) (n 1)
  else if op = 0x19 then cmpTemplate (t 0) (t 1) (n 0) (n 1) (n 2) (n 3)
  else if op = 0x1A then selTemplate (t 0) (t 1) (n 0) (n 1) (n 2) (n 3)
  else if op = 0x1B then cvtTemplate (t 0) (t 1) (rndOf (n 2)) (n 0) (n 1)
  else if op = 0x1C then
    (List.range (t 0).cost).map fun k => ins1 (.vr (n 0) k) (r 1) fun d a => .vbcast (t 0).size 0 d a syNone
  else if op = 0x1D then sumTemplate (t 1) false (n 0) (n 1)
  else if op = 0x1E then sumTemplate (t 1) true (n 0) (n 1)
  else if op = 0x1F then laneTemplate (t 0) (t 1) (n 0) (n 1) (n 2)
  else if op = 0x20 then loadTemplate (t 0) .global (n 0) (n 1) (BitVec.ofInt 64 (o.int 2))
  else if op = 0x21 then storeTemplate (t 2) .global (n 0) (n 2) (BitVec.ofInt 64 (o.int 1))
  else if op = 0x22 then loadTemplate (t 0) .loc (n 0) (n 1) (BitVec.ofInt 64 (o.int 2))
  else if op = 0x23 then storeTemplate (t 2) .loc (n 0) (n 2) (BitVec.ofInt 64 (o.int 1))
  else if op = 0x24 then
    [tLi X0 2, tBcast (.w 1) X0] ++ (List.range (t 0).cost).flatMap fun k =>
      [gatherIndex (n 2) k, ins2 (.vr (n 0) k) (r 1) (.w 0) fun d a b => .vld .w .global 0 d a (.indexed 0 b) syNone]
  else if op = 0x25 then
    [tLi X0 2, tBcast (.w 1) X0] ++ (List.range (t 2).cost).flatMap fun k =>
      [gatherIndex (n 1) k,
       insStore (.vr (n 2) k) (r 0) (.w 0) fun d a b => .vst .w .global 0 d a (.indexed 0 b) syNone]
  else if op = 0x26 then
    signAgain (t 0) (r 0)
      [ins2 (r 0) (r 2) (r 3) fun d a b => .amo (t 0).size .global (aopOf (n 1)) d a b 0 syNone]
  else if op = 0x27 then
    [insStore (r 2) (r 1) .none fun d a _ => .red (t 2).size .global (aopOf (n 0)) d a 0 syNone]
  else if op = 0x28 then casTemplate (t 0) (n 0) (n 1) (n 2) (n 3)
  else if op = 0x29 then
    [{ insNo (r 0) (r 1) (fun _ _ => .finish syNone) with
       make := fun _ a b _ off => .br (Cond.ofCode (BitVec.ofNat 6 (n 2))) a b off (syFor off), tgt := tgt 3 }]
  else if op = 0x2A then
    [{ insNo .none .none (fun _ _ => .finish syNone) with make := fun _ _ _ _ off => .j off (syFor off), tgt := tgt 0 }]
  else if op = 0x2B then [insNo .none .none fun _ _ => .exit syNone]
  else if op = 0x2C then
    let slot := BitVec.ofNat 8 (n 1)
    [insNo (r 2) .none fun a _ => .cmark slot a 0 syNone, ins2 (r 0) .none (r 3) fun d _ b => .cwait d slot b syNone]
  else if op = 0x2D then
    [ins1 (r 0) (r 2) fun d a => .cadd d (BitVec.ofNat 8 (n 1)) a 0 syNone]
  else if op = 0x2E then [insNo (r 1) .none fun a _ => .cbind (BitVec.ofNat 8 (n 0)) a syNone]
  else if op = 0x2F then [insNo .none .none fun _ _ => .fence { syNone with scope := Scope.ofCode (BitVec.ofNat 2 (n 0)) }]
  else if op = 0x30 then [insNo (r 0) .none fun a _ => .spawn a syNone]
  else if op = 0x31 then [insNo .none .none fun _ _ => .finish syNone]
  else if op = 0x32 then [ins1 (r 0) .none fun d _ => .srd d (BitVec.ofNat 12 (0x10 + n 1)) syNone]
  else if op = 0x33 then
    ((List.range 21).flatMap fun i =>
      [ins1 X0 (r 1) fun d a => .ld .d .global d a (.disp (wordOf (8 * i))) syNone,
       insNo X0 .none fun a _ => .xset (BitVec.ofNat 6 i) a syEng]) ++
    [ins1 (r 0) .none fun d _ => .xgo d syEng]
  else if op = 0x34 then [insNo (r 1) .none fun a _ => .mloadw (BitVec.ofNat 2 (n 0)) a .here syEng]
  else if op = 0x35 then [tEngine 0xA1 (n 0) (n 3) (r 1) (r 2)]
  else if op = 0x36 then [tEngine 0xA3 (n 0) (n 3) (r 1) (r 2)]
  else if op = 0x37 then [insNo .none .none fun _ _ => .step syNone]
  else []

/-! ### Intervals (R311) -/

structure Interval where
  r : Nat
  s : Nat
  e : Nat
  deriving DecidableEq, Repr

/-- From the lowest to the highest position that defines or reads each register. -/
def rawIntervals (ops : List ShOp) : TMap (Nat × Nat) :=
  (ops.zipIdx).foldl
    (fun m p => (p.1.defs ++ p.1.uses).foldl
      (fun m r => match TMap.find m r with
        | some (s, _) => TMap.put m r (s, p.2)
        | none => TMap.put m r (p.2, p.2)) m)
    []

/-- Backward branches: position and target. -/
def backEdges (ops : List ShOp) : List (Nat × Nat) :=
  ops.zipIdx.filterMap fun p =>
    match p.1.target with
    | some t => if t ≤ 0 then some (p.2, ((p.2 : Int) + t).toNat) else none
    | none => none

def widenOnce (edges : List (Nat × Nat)) (iv : Interval) : Interval :=
  edges.foldl (fun iv p => if iv.s ≤ p.1 && p.2 ≤ iv.e then { iv with s := min iv.s p.2, e := max iv.e p.1 } else iv) iv

/-- Repeated until no interval changes. -/
def widenAll (edges : List (Nat × Nat)) : Nat → List Interval → List Interval
  | 0, l => l
  | n + 1, l =>
    let l' := l.map (widenOnce edges)
    if l' = l then l else widenAll edges n l'

/-- The order of visits: start, then register number. -/
def insertIv (x : Interval) : List Interval → List Interval
  | [] => [x]
  | y :: r => if x.s < y.s || (x.s == y.s && x.r < y.r) then x :: y :: r else y :: insertIv x r

def intervals (ops : List ShOp) : List Interval :=
  let edges := backEdges ops
  let raw := (rawIntervals ops).map fun p => { r := p.1, s := p.2.1, e := p.2.2 : Interval }
  (widenAll edges (2 * edges.length + 2) raw).foldl (fun l x => insertIv x l) []

/-! ### Assignment and spilling (R309, R312, R313) -/

/-- The state of the assignment: free registers of a pool ascending, assigned intervals with their registers; for the
whole kernel each register's native registers, the position and slot of each spill in the order of the decisions, and the
stores of spilled registers. -/
structure Pools where
  freeX : NatSet
  freeV : NatSet
  active : List (Interval × List Nat)
  homes : TMap (List Nat)
  spills : TMap (Nat × Nat)
  slotsX : Nat
  slotsV : Nat
  stores : List (Nat × Nat × List Nat)
  deriving DecidableEq, Repr

def Pools.start (budget : Nat) : Pools where
  freeX := (List.range 48).map (· + 8)
  freeV := List.range (budget - 9)
  active := []
  homes := []
  spills := []
  slotsX := 0
  slotsV := 0
  stores := []

def Pools.free (p : Pools) (vec : Bool) : NatSet := if vec then p.freeV else p.freeX

def Pools.setFree (p : Pools) (vec : Bool) (l : NatSet) : Pools :=
  if vec then { p with freeV := l } else { p with freeX := l }

def Pools.release (p : Pools) (vec : Bool) (rs : List Nat) : Pools := p.setFree vec (rs.foldl NatSet.add (p.free vec))

/-- Intervals whose end is below the position give their registers back. -/
def Pools.expire (T : Nat → VTy) (p : Pools) (pos : Nat) : Pools :=
  let gone := p.active.filter fun x => decide (x.1.e < pos)
  gone.foldl (fun q x => q.release (T x.1.r).isVec x.2) { p with active := p.active.filter fun x => decide (pos ≤ x.1.e) }

/-- The interval gets its lowest free registers. -/
def Pools.give (T : Nat → VTy) (p : Pools) (iv : Interval) : Pools :=
  let vec := (T iv.r).isVec
  let rs := List.take (T iv.r).cost (p.free vec)
  { p.setFree vec (List.drop (T iv.r).cost (p.free vec)) with
    active := p.active ++ [(iv, rs)], homes := TMap.put p.homes iv.r rs }

/-- A spilled interval gets the next slots of its class. -/
def Pools.spill (T : Nat → VTy) (p : Pools) (iv : Interval) (pos : Nat) : Pools :=
  if (T iv.r).isVec then
    { p with spills := TMap.put p.spills iv.r (pos, p.slotsV), slotsV := p.slotsV + (T iv.r).cost }
  else { p with spills := TMap.put p.spills iv.r (pos, p.slotsX), slotsX := p.slotsX + 1 }

/-- The farthest end first; then the later start; then the higher register number. -/
def spillsBefore (x y : Interval) : Bool :=
  decide (y.e < x.e) || (x.e == y.e && (decide (y.s < x.s) || (x.s == y.s && decide (y.r < x.r))))

def insertSpill (x : Interval) : List Interval → List Interval
  | [] => [x]
  | y :: r => if spillsBefore x y then x :: y :: r else y :: insertSpill x r

/-- The candidates in turn. -/
def spillTurn (T : Nat → VTy) (iv : Interval) : List Interval → Pools → Pools
  | [], p => p.spill T iv iv.s
  | c :: r, p =>
    if c.r = iv.r then p.spill T iv iv.s
    else
      let rs := ((p.active.find? fun x => x.1.r == c.r).map (·.2)).getD []
      let p := p.spill T c iv.s
      let p := { p with
        active := p.active.filter fun x => x.1.r != c.r
        stores := p.stores ++ [(iv.s, c.r, rs)] }
      let p := p.release (T c.r).isVec rs
      if (T iv.r).cost ≤ (p.free (T iv.r).isVec).length then p.give T iv else spillTurn T iv r p

def visit (T : Nat → VTy) (p : Pools) (iv : Interval) : Pools :=
  let p := p.expire T iv.s
  let vec := (T iv.r).isVec
  if (T iv.r).cost ≤ (p.free vec).length then p.give T iv
  else
    let same := (p.active.map (·.1)).filter fun x => (T x.r).isVec == vec
    spillTurn T iv ((iv :: same).foldl (fun l x => insertSpill x l) []) p

def assign (k : KRec) : Pools := (intervals k.ops).foldl (visit k.ty) (Pools.start k.budget)

/-- The least power of two that is at least n and 256; none above 16 KiB. -/
def spillSize (n : Nat) : Option Nat :=
  ([8, 9, 10, 11, 12, 13, 14] : List Nat).find? fun i => decide (n ≤ 2 ^ i)

/-! ### Code (R310, R314, R315) -/

/-- Where native register k of a virtual register is at a position: a register, or an offset from x2. -/
inductive Home where
  | reg (n : Nat)
  | slot (off : Nat) (vec : Bool)
  deriving DecidableEq, Repr

def Pools.home (T : Nat → VTy) (p : Pools) (pos r k : Nat) : Home :=
  let vec := (T r).isVec
  let reg : Home := .reg (((TMap.find p.homes r).getD []).getD k 0)
  match TMap.find p.spills r with
  | some (q, s) => if q ≤ pos then .slot (if vec then 256 * (s + k) else 256 * p.slotsV + 8 * s) vec else reg
  | none => reg

/-- A load from, and a store to, the spill area. -/
def reload (vec : Bool) (n off : Nat) : Instr :=
  let v := wordOf off
  if vec then .vld .w .loc 0 (BitVec.ofNat 6 n) 2 (.unit v) (syFor v)
  else .ld .d .loc (BitVec.ofNat 6 n) 2 (.disp v) (syFor v)

def saveTo (vec : Bool) (n off : Nat) : Instr :=
  let v := wordOf off
  if vec then .vst .w .loc 0 (BitVec.ofNat 6 n) 2 (.unit v) (syFor v)
  else .st .d .loc (BitVec.ofNat 6 n) 2 (.disp v) (syFor v)

/-- A native instruction of the code; `tgt`: it branches to an operation. -/
structure Native where
  make : Word → Instr
  tgt : Option Nat
  ext : Option Word := none

def Native.plain (i : Instr) : Native := { make := fun _ => i, tgt := none }

/-- Its words for a branch offset. -/
def Native.words (n : Native) (off : Word) : Word × Option Word :=
  let w := encode (n.make off)
  (w.1, w.2.or n.ext)

/-- One template instruction with its reloads before it and its store after it (R314). -/
def emit (budget : Nat) (home : Nat → Nat → Home) (t : TIns) : List Native :=
  let srcs := [t.a, t.b, t.c]
  -- the position of a source among the source register fields that the instruction has
  let pos (j : Nat) : Nat := ((srcs.take j).filter fun s => s != .none).length
  -- the register of the source in field j
  let src (j : Nat) : Nat :=
    match srcs.getD j .none with
    | .none => 0
    | .x n => n
    | .w n => budget - 9 + n
    | .vr r k =>
      match home r k with
      | .reg n => n
      | .slot _ vec =>
        let first := (List.range 3).find? fun i => srcs.getD i .none == .vr r k
        let i := pos (first.getD j)
        if vec then budget - 3 + i else 5 + i
  let loads := (List.range 3).filterMap fun j =>
    match srcs.getD j .none with
    | .vr r k =>
      match home r k with
      | .slot off vec =>
        if (List.range j).any fun i => srcs.getD i .none == .vr r k then none
        else some (Native.plain (reload vec (if vec then budget - 3 + pos j else 5 + pos j) off))
      | .reg _ => none
    | _ => none
  let dst : Nat × Option (Nat × Bool) :=
    match t.d with
    | .none => (0, none)
    | .x n => (n, none)
    | .w n => (budget - 9 + n, none)
    | .vr r k =>
      match home r k with
      | .reg n => (n, none)
      | .slot off vec => (if vec then budget - 3 else 4, some (off, vec))
  let b (n : Nat) : BitVec 6 := BitVec.ofNat 6 n
  let before := match dst.2 with
    | some (off, vec) => if t.rd then [Native.plain (reload vec dst.1 off)] else []
    | none => []
  let after := match dst.2 with
    | some (off, vec) => if t.wr then [Native.plain (saveTo vec dst.1 off)] else []
    | none => []
  loads ++ before ++ [{ make := t.make (b dst.1) (b (src 0)) (b (src 1)) (b (src 2)), tgt := t.tgt, ext := t.ext }] ++ after

/-- The prologue (R310); the spill area of a context has 2^i bytes. -/
def prologue (i : Nat) : List Native :=
  ([.srd 1 0x17 syNone, .srd 3 0x10 syNone, .shri 3 3 32 syNone, .andi 3 3 15 syNone, .addi 3 3 1 syNone,
    .shli 3 3 (wordOf i) syNone, .li 2 0x80000 syNone, .sub 2 2 3 syNone, .setvl 3 0 64 syNone] : List Instr).map
    Native.plain

/-- The code of one operation: the stores of what is spilled here, then its template. -/
def opCode (k : KRec) (p : Pools) (pos : Nat) (o : ShOp) : List Native :=
  let stores := (p.stores.filter fun s => s.1 == pos).flatMap fun s =>
    s.2.2.zipIdx.filterMap fun r =>
      match p.home k.ty pos s.2.1 r.2 with
      | .slot off vec => some (Native.plain (saveTo vec r.1 off))
      | .reg _ => none
  let patched := k.patches.any fun x => x.1 == pos
  stores ++ (template k.ty pos patched o).flatMap (emit k.budget (p.home k.ty pos))

def Native.len (n : Native) : Nat := if (n.words 0).2.isSome then 2 else 1

def codeLen (l : List Native) : Nat := (l.map Native.len).sum

/-- The word offset at which the code of each operation starts. -/
def starts : Nat → List (List Native) → List Nat
  | _, [] => []
  | n, c :: r => n :: starts (n + codeLen c) r

/-- The words of the code from word offset n on. -/
def codeWords (labels : List Nat) : Nat → List Native → List Word
  | _, [] => []
  | n, x :: r =>
    let off : Word := match x.tgt with
      | some t => BitVec.ofInt 64 ((labels.getD t 0 : Int) - (n : Int))
      | none => 0
    let w := x.words off
    match w.2 with
    | some e => w.1 :: e :: codeWords labels (n + 2) r
    | none => w.1 :: codeWords labels (n + 1) r

/-- A translated kernel: its words, its budget and slots, its parameter bytes, its patches as byte offset of the LI
and offset of the parameter. -/
structure Translated where
  words : List Word
  budget : Nat
  slots : Nat
  psize : Nat
  patches : List (Nat × Nat)
  deriving DecidableEq, Repr

/-- A kernel record that passes the verification of R303. -/
def verifiedRecord (bs : List Byte) : Except LoadRefusal KRec :=
  match readKernelRecord bs with
  | .error e => .error e
  | .ok k =>
    match verify k with
    | .error e => .error e
    | .ok _ => .ok k

/-- The translation of a verified kernel record (R316). -/
def translate (k : KRec) : Except LoadRefusal Translated :=
  let p := assign k
  match spillSize (256 * p.slotsV + 8 * p.slotsX) with
  | none => .error .spill
  | some i =>
    let pro := prologue i
    let codes := k.ops.zipIdx.map fun o => opCode k p o.2 o.1
    let labels := starts (codeLen pro) codes
    -- the LI of a patched const stands first in its code, behind the stores
    let li (pos : Nat) : Nat :=
      labels.getD pos 0 + codeLen ((codes.getD pos []).take ((p.stores.filter fun s => s.1 == pos).map fun s =>
        s.2.2.length).sum)
    .ok
      { words := codeWords labels 0 (pro ++ codes.flatten), budget := k.budget, slots := k.slots, psize := k.psize
        patches := k.patches.map fun x => (8 * li x.1, x.2) }

end Sys2Proof.Machine
end

