-- ==== Sys2Proof/Machine/Loader.lean ====
section
/-! DEFINITION. The loader: the checks of an image, its installation and publication, its withdrawal (R23, R104, R318 to R322,
R378). -/

namespace Sys2Proof.Machine

open Sys2Proof

variable {s0 : State}

/-! ### The header (R318) -/

def imgMagic (img : List Byte) : Nat := field (wordIn img 0) 0 32
def imgRollback (img : List Byte) : Word := wordIn img 16
def imgSigoff (img : List Byte) : Nat := field (wordIn img 24) 32 32
def imgKeyid (img : List Byte) : Nat := field (wordIn img 24) 16 16
def imgSections (img : List Byte) : Nat := field (wordIn img 32) 0 32
def imgSectoff (img : List Byte) : Nat := field (wordIn img 32) 32 32
def imgKernels (img : List Byte) : Nat := field (wordIn img 40) 0 32
def imgKtaboff (img : List Byte) : Nat := field (wordIn img 40) 32 32
def imgShawin (img : List Byte) : Bool := imgMagic img == 0x4E574853
def imgNative (img : List Byte) : Bool := imgMagic img == 0x544E4856

/-- The signature of R320, under the key that KEYID names in a set. -/
def imgSigned (img : List Byte) (keys : List (Nat × BitVec 256)) : Bool :=
  img.length == imgSigoff img + 7856 &&
  match keys.find? fun k => k.1 == imgKeyid img with
  | some k => Config.sigOk (natBytes 32 k.2.toNat) (img.take (imgSigoff img)) (List.drop (imgSigoff img) img)
  | none => false

/-- The header's reserved fields and ranges. -/
def headerOk (img : List Byte) : Bool :=
  field (wordIn img 8) 32 32 == 0 && (imgNative img || field (wordIn img 8) 0 32 == 0) &&
  imgSigoff img % 8 == 0 && decide (128 ≤ imgSigoff img) && field (wordIn img 24) 0 16 == 0 &&
  decide (1 ≤ imgSections img) && decide (imgSections img ≤ 64) && decide (imgKernels img ≤ 4096) &&
  ((List.range 10).all fun i => wordIn img (48 + 8 * i) == 0) &&
  decide (imgSectoff img + 32 * imgSections img ≤ imgSigoff img) && decide (imgKtaboff img ≤ imgSigoff img)

/-! ### Sections (R319) -/

/-- An entry of the section table, with its index. -/
structure Sect where
  index : Nat
  kind : Nat
  align : Nat
  off : Nat
  size : Nat
  deriving DecidableEq, Repr

def imgSect (img : List Byte) (i : Nat) : Sect :=
  let w (j : Nat) : Word := wordIn img (imgSectoff img + 32 * i + 8 * j)
  { index := i, kind := field (w 0) 56 8, align := field (w 0) 0 5, off := (w 1).toNat, size := (w 2).toNat }

def imgSects (img : List Byte) : List Sect := (List.range (imgSections img)).map (imgSect img)

/-- The section has bytes in the image. -/
def Sect.filled (x : Sect) : Bool := x.kind != 3

/-- Where the loader puts a section, from the image's base: at a multiple of its alignment (R319). -/
def Sect.place (x : Sect) (img : List Byte) : Word :=
  let m := BitVec.ofNat 64 (2 ^ x.align - 1)
  (Config.sectionOffset img x.index + m) &&& ~~~m

def Sect.holds (x : Sect) (off : Nat) : Bool := x.filled && decide (x.off ≤ off) && decide (off < x.off + x.size)

def sectOk (img : List Byte) (x : Sect) : Bool :=
  let w (j : Nat) : Word := wordIn img (imgSectoff img + 32 * x.index + 8 * j)
  decide (1 ≤ x.kind) && decide (x.kind ≤ 6) && field (w 0) 5 51 == 0 && decide (x.align ≤ 16) && w 3 == 0 &&
  (x.filled || x.off == 0) && (!x.filled || decide (x.off + x.size ≤ imgSigoff img)) &&
  (x.kind != 4 || imgNative img) && (x.kind != 5 || imgShawin img)

def disjointSects (xs : List Sect) : Bool :=
  xs.all fun x => xs.all fun y =>
    x.index == y.index || !x.filled || !y.filled || decide (x.off + x.size ≤ y.off) || decide (y.off + y.size ≤ x.off)

/-! ### Patch lists of native images (R28, R104) -/

/-- The base word has IMM28, DISP28 or OFF28: with that field zero it takes an IMM word, and it is not of format C. DESIGN CHOICE
(log 70): an instruction of format M with mode 0b01, whose DISP28 must be zero, has none to patch; the spec does not say. -/
def hasImm28 (base : Word) : Bool :=
  match decode ((base &&& 0xFF7FFFFFF0000000) ||| 0x0080000000000000) (some 0x2000000000000000) with
  | .ok (.cadd _ _ _ _ _) | .ok (.cmark _ _ _ _) | .ok (.illegalOpcode _) => false
  | .ok _ => true
  | .error _ => false

/-- One entry of a patch list, for an instruction at an offset of a kernel whose code starts at an offset of the image. -/
def patchOk (img : List Byte) (code len params : Nat) (p : Word × Word × Bool) : Bool :=
  let at_ := code + p.1.toNat
  let base := wordIn img at_
  let imm := hasExt base && field (wordIn img (at_ + 8)) 60 4 == 2
  p.1.toNat % 8 == 0 && decide (p.1.toNat < len) && decide (p.2.1.toNat + (if p.2.2 then 8 else 4) ≤ params) &&
  (if p.2.2 then imm else hasImm28 base && !imm)

/-! ### The checks of R321 -/

/-- A kernel as it is published: its table entry, and the code that the loader translated. -/
abbrev Loaded := KernEntry × List Word

/-- A kernel of a native image (check 7): its entry as it lies in memory. -/
def nativeKernel (img : List Byte) (i : Nat) : Except LoadRefusal Loaded :=
  let e := Config.kernel img i
  match (imgSects img).find? fun x => x.kind == 4 && x.holds e.entry.toNat with
  | none => .error .format
  | some x =>
    if decide (64 < e.patches.length) ||
        !(e.patches.all (patchOk img e.entry.toNat (Config.kernelLen img i) e.params.toNat)) then .error .format
    else .ok ({ e with entry := x.place img + wordOf (e.entry.toNat - x.off) }, [])

/-- The Shawin code section that an offset of the image lies in. -/
def shawinSect (img : List Byte) (off : Nat) : Option Sect := (imgSects img).find? fun x => x.kind == 5 && x.holds off

/-- The kernel table entries of a Shawin image name records in its Shawin code sections (R319). -/
def recordsIn (img : List Byte) : Bool :=
  (List.range (imgKernels img)).all fun i => (shawinSect img (Config.kernel img i).entry.toNat).isSome

/-- The bytes of a section from an offset of the image on. -/
def Sect.from_ (x : Sect) (img : List Byte) (off : Nat) : List Byte := (List.drop off img).take (x.off + x.size - off)

/-- The record of a kernel of a Shawin image, verified (check 8). -/
def shawinRecord (img : List Byte) (i : Nat) : Except LoadRefusal KRec :=
  let e := Config.kernel img i
  match shawinSect img e.entry.toNat with
  | none => .error .format
  | some x => verifiedRecord (x.from_ img e.entry.toNat)

/-- A dynamic function (check 8): operations of the dynamic profile on scalar types, whole and in their ranges (R300, R301, R306).
DESIGN CHOICE (log 90): R306 says that opcodes 0x94 to 0xFF are refused, and not with which refusal; FORMAT, as R305 gives the kernel
profile's. -/
def checkDynamic (img : List Byte) (f : DynFunc) : Except LoadRefusal Unit :=
  match shawinSect img f.off with
  | none => .error .format
  | some x =>
    match takeOps f.ops (x.from_ img f.off) with
    | none => .error .format
    | some (ops, _) =>
      let tys := f.types.map fun b => VTy.ofCode b.toNat
      let ty (r : Nat) : VTy := (tys.getD r none).getD .tv
      if tys.any fun t => t.isNone || t.any VTy.isVec then .error .type
      else if ops.any fun o => o.regs.any fun r => tys.length ≤ r then .error .format
      else if ops.any fun o => decide (o.op < 0x80) && !typeOk ty o then .error .type
      else if ops.any fun o => if o.op < 0x80 then !rangeOk ty o else decide (65536 ≤ o.nat 0) then .error .format
      else .ok ()

/-- A kernel of a Shawin image, translated (check 9). -/
def shawinKernel (img : List Byte) (i : Nat) (k : KRec) : Except LoadRefusal Loaded :=
  let e := Config.kernel img i
  match translate k with
  | .error r => .error r
  | .ok t =>
    .ok
      ({ name := e.name, entry := 256 * Config.codeBlock img i, cls := BitVec.ofNat 2 (t.budget / 16 - 1)
         slots := ⟨t.slots % 257, Nat.mod_lt _ (by decide)⟩, groups := e.groups, params := BitVec.ofNat 13 t.psize
         patches := t.patches.map fun p => (wordOf p.1, wordOf p.2, true) }, t.words)

/-- Every kernel of an image: all are verified before any is translated (R303). -/
def loadKernels (img : List Byte) : Except LoadRefusal (List Loaded) :=
  let is := List.range (imgKernels img)
  if imgShawin img then
    match is.mapM (shawinRecord img), (Config.dynamicFuncs img).mapM (checkDynamic img) with
    | .error r, _ | .ok _, .error r => .error r
    | .ok ks, .ok _ => (is.zip ks).mapM fun p => shawinKernel img p.1 p.2
  else is.mapM (nativeKernel img)

/-- The checks in their order, with a key set and a floor. -/
def checkImage (img : List Byte) (keys : List (Nat × BitVec 256)) (floor : Word) : Except LoadRefusal (List Loaded) :=
  if !imgShawin img && !imgNative img then .error .badmagic
  else if !imgSigned img keys then .error .badsig
  else if field (wordIn img 0) 48 16 ≠ 1 then .error .version
  else if 0 < field (wordIn img 0) 32 16 then .error .version
  else if (imgRollback img).toNat < floor.toNat then .error .rollback
  else if imgNative img && field (wordIn img 8) 0 32 != 1 then .error .level
  else if !headerOk img || !((imgSects img).all (sectOk img)) || !disjointSects (imgSects img) ||
      !Config.kernelTableOk img || (imgShawin img && !recordsIn img) then .error .format
  else loadKernels img

/-- The entry of an image in the measurement log (R378). -/
def measureImage (img : List Byte) : M s0 Unit := do
  let s ← st
  upd (.measure
    { hash := Config.sha256 img, magic := BitVec.ofNat 32 (imgMagic img), rollback := imgRollback img, time := s.time })

/-! ### Installation (R322) -/

/-- Bytes at an address of an address space, through its tables: an image is loaded into mapped pages of this device. -/
def installBytes (asid : BitVec 16) (va : Word) (bs : List Byte) : M s0 Unit := do
  let mut rest := bs
  for (a, k) in parts va bs.length do
    let e ← walkM 0 asid a
    let s ← st
    require "LOAD_IMAGE" (canonical a && vaNode a == s.nodeId && leafV e.leaf && !leafFar e.leaf && s.inModule (leafPa e a))
    for (l, n) in lineParts a.toNat k do
      stampLines none (leafPa e a + l) n
      writeKeyed (leafPa e a + l) ((List.drop l rest).take n) (leafKey e.leaf)
    rest := List.drop k rest

/-- The loader's ICINV with device extent over a range, behind its own writes (R322). -/
def forgetCode (asid : BitVec 16) (va : Word) (n : Nat) : M s0 Unit := do
  let s ← st
  if n ≠ 0 then
    coverWords
      { extent := .device, core := 0, asid := asid, range := icRange va (wordOf n), stores := s.codeSeq, farAcq := s.farSeq
        farSeen := [] }

/-- The sections that a strand can reach, those of dynamic functions among them (R326), and the translated code. -/
def installImage (asid : BitVec 16) (base : Word) (img : List Byte) (ks : List Loaded) : M s0 Unit := do
  for x in imgSects img do
    let va := base + x.place img
    if x.kind ≤ 5 then
      installBytes asid va (if x.filled then (List.drop x.off img).take x.size else List.replicate x.size 0)
      if x.kind = 4 then forgetCode asid va x.size
  for k in ks do
    installBytes asid (base + k.1.entry) (wordsBytes k.2)
    forgetCode asid (base + k.1.entry) (8 * k.2.length)

/-- LOAD_IMAGE, at a base that is aligned as every section may ask (R319: at most 64 KiB): a refused image leaves nothing loaded; an accepted one is installed, published, and measured. -/
def loadImageBody (asid : BitVec 16) (base : Word) (img : List Byte) : M s0 Unit := do
  let s ← st
  require "LOAD_IMAGE" (base.toNat % 65536 == 0)
  match checkImage img s.primer.keys s.primer.floor with
  | .error _ => pure ()
  | .ok ks =>
    installImage asid base img ks
    let id ← freshSeq
    let s ← st
    upd (.images (TMap.put s.images id
      { asid := asid, kernels := ks.zipIdx.map fun p => (base + Config.kernelOffset img p.2, p.1.1), base := base
        size := imgSigoff img, withdrawn := false }))
    measureImage img

def execLoadImage (asid : BitVec 16) (base : Word) (img : List Byte) (s : State) : Outcome :=
  run s (loadImageBody asid base img)

/-- UNLOAD_IMAGE: the entries are withdrawn; placed launches run on. -/
def unloadImageBody (id : Nat) : M s0 Unit := do
  let s ← st
  match TMap.find s.images id with
  | none => notEnabled "UNLOAD_IMAGE"
  | some i =>
    require "UNLOAD_IMAGE" (!i.withdrawn)
    upd (.images (TMap.put s.images id { i with withdrawn := true }))
    freeImages

def execUnloadImage (id : Nat) (s : State) : Outcome := run s (unloadImageBody id)

end Sys2Proof.Machine
end

