-- ==== Sys2Proof/Machine/Boot.lean ====
section
/-! DEFINITION. Reset, Primer's boot, keys, attestation, Still, the debug unlock, device time (R4, R45, R374 to R381). -/

namespace Sys2Proof.Machine

open Sys2Proof

variable {s0 : State}

def modPrimer (f : Primer → Primer) : M s0 Unit := do
  let s ← st
  upd (.primer (f s.primer))

/-! ### Reset -/

def execReset (s : State) : Outcome := .next s.restart

/-- A thermal trip resets the package. -/
def execThermalTrip (s : State) : Outcome := .next s.restart

/-! ### The boot (R375, R376) -/

/-- The next number from Primer's random source; an unlock has zeroed the generator state (R381). -/
def drawRandom : M s0 (BitVec 256) := do
  let s ← st
  modPrimer fun p => { p with drawn := p.drawn + 1 }
  return if s.primer.unlocked then Config.randomZeroed s.primer.drawn else Config.random s.primer.drawn

/-- A failure discards what was fetched; Primer waits 2^k seconds, k the failures, at most 6. -/
def bootFail : M s0 Unit := do
  let s ← st
  modPrimer fun p =>
    { p with
      boot := .wait
      failures := p.failures + 1
      request := none
      accepted := none
      region := []
      regionW := []
      retryAt := s.time + 2 ^ min (p.failures + 1) 6 * 10 ^ 9 }

/-- Step 2: a boot request goes out on the first of ports 0 to 15 with a link, with a fresh nonce and the hash of the identity
public key; without a link the step fails. -/
def bootRequest : M s0 Unit := do
  let s ← st
  if s.primer.boot = .ports then
    modPrimer fun p => { p with tries := p.tries + 1 }
    match (List.range 16).find? (Config.portLink · s.primer.tries) with
    | none => bootFail
    | some port =>
      let n ← drawRandom
      modPrimer fun p => { p with boot := .manifest, nonce := n, request := some (port, n, Config.identity) }

/-- BOOT_RETRY_TIMER: step 2 again. -/
def bootRetryTimerBody : M s0 Unit := do
  let s ← st
  require "BOOT_RETRY_TIMER" (s.primer.boot == .wait && decide (s.primer.retryAt ≤ s.time))
  modPrimer fun p => { p with boot := .ports }

def execBootRetryTimer (s : State) : Outcome := run s bootRetryTimerBody

/-- The signer of a manifest: the key whose hash is OPHASH, or ROOTHASH when OPHASH is zero. -/
def manifestSigner : BitVec 256 := if Config.opHash = 0 then Config.rootHash else Config.opHash

/-- Step 3: a manifest for the nonce of the boot request. -/
def manifestGood (p : Primer) (m : Manifest) : Bool :=
  m.nonce == p.nonce && Config.sha256 m.publicKey == manifestSigner &&
  Config.sigOk m.publicKey (Config.manifestBytes m.location m.floor m.keys m.nonce) m.signature

def manifestBody (m : Manifest) : M s0 Unit := do
  let s ← st
  require "MANIFEST" (s.primer.boot == .manifest)
  if manifestGood s.primer m then modPrimer fun p => { p with boot := .image, accepted := some m }
  else bootFail

def execManifest (m : Manifest) (s : State) : Outcome := run s (manifestBody m)

/-- The monitor starts in context 0 of core 1,536, in monitor mode. Its entry and its slots are open. -/
def startMonitor (img : List Byte) : M s0 Unit := do
  let n ← choose 257
  let a := 16 * 1536
  modCtx a fun x => { x with owner := none, budget := 64, nslots := n, cellBase := 0 }
  let r := startRegs true (Config.monitorBase + Config.monitorEntry img) 0 0 0 0 [] []
  startStrand a { r with mode := .monitor } id

/-- Steps 4 and 5; the monitor then installs the manifest's keys and gives the loader its floor (R376). -/
def monitorImageFetchedBody (img : List Byte) : M s0 Unit := do
  let s ← st
  match s.primer.boot, s.primer.accepted with
  | .image, some m =>
    let floor := if m.floor.toNat ≤ Config.floor.toNat then Config.floor else m.floor
    match if 2 ^ 26 < img.length then .error .format else checkImage img m.keys floor with
    | .error _ => bootFail
    | .ok _ =>
      measureImage img
      modPrimer fun p => { p with boot := .running, floor := m.floor, keys := m.keys, region := img, regionW := [] }
      startMonitor img
  | _, _ => notEnabled "MONITOR_IMAGE_FETCHED"

def execMonitorImageFetched (img : List Byte) (s : State) : Outcome := run s (monitorImageFetchedBody img)

/-! ### Keys and attestation (R377, R378) -/

/-- KEYCTL: a new key of a number; what was written under the old one is garbled from now on. -/
def keyctlBody (v : Word) : M s0 Unit := do
  if v.getLsbD 63 then
    upd (.newKey (field v 0 7))
    modPrimer fun p => { p with drawn := p.drawn + 1 }

def execKeyctl (v : Word) (s : State) : Outcome := run s (keyctlBody v)

/-- The bytes of the measurement log. -/
def State.logBytes (s : State) : List Byte :=
  s.log.flatMap fun m => Config.measureBytes m.hash m.magic m.rollback m.time

/-- ATTESTATION_CHALLENGE. After an unlock the identity key is zeroed. -/
def attestationChallengeBody (nonce : BitVec 256) : M s0 Unit := do
  let s ← st
  let msg := Config.challengeBytes nonce (Config.sha256 s.logBytes) s.log.length Config.identity
  let sig := if s.primer.unlocked then Config.signErased msg else Config.signWith Config.devseed msg
  modPrimer fun p => { p with signed := sig :: p.signed }

def execAttestationChallenge (nonce : BitVec 256) (s : State) : Outcome := run s (attestationChallengeBody nonce)

/-! ### Still and the debug unlock (R380, R381) -/

def execStill (s : State) : Outcome := run s (upd .stop)

/-- FREEZE_PIN: a freeze in the cycle of a KEYCTL write holds either outcome. -/
def freezePinBody : M s0 Unit := do
  let s ← st
  match s.agenda with
  | .event (.keyctl v) :: r =>
    let i ← choose 2
    if i = 1 then
      keyctlBody v
      upd (.agenda r)
  | _ => pure ()
  upd .stop

def execFreezePin (s : State) : Outcome := run s freezePinBody

def unlockGood (p : Primer) (publicKey sig : List Byte) : Bool :=
  Config.debugHash != 0 && Config.sha256 publicKey == Config.debugHash &&
  Config.sigOk publicKey (natBytes 32 p.debugNonce.toNat) sig

/-- DEBUG_UNLOCK: the keys and the generator state are erased, then the debug port's entries are enabled: VALID is 1, and what else
an enabled entry holds is open. -/
def debugUnlockBody (publicKey sig : List Byte) : M s0 Unit := do
  let s ← st
  if unlockGood s.primer publicKey sig then
    for k in List.range 128 do
      upd (.newKey k)
    modPrimer fun p => { p with unlocked := true }
    let n ← drawRandom
    modPrimer fun p => { p with debugNonce := n }
    for d in List.range 8 do
      for t in List.range 5 do
        let w ← openWord
        modDie d fun x => { x with access := TMap.put x.access (2048 * t + 1977) (0x8000000000000000 ||| keepBits w 60 3 ||| keepBits w 0 32) }

def execDebugUnlock (publicKey sig : List Byte) (s : State) : Outcome := run s (debugUnlockBody publicKey sig)

/-! ### Identity and time (R45, R376) -/

/-- NODEID: the first write after reset. -/
def execNodeid (v : Word) (s : State) : Outcome := run s (upd (.latchNode (v.truncate 8)))

/-- PTP_CORRECTION: the rate of device time changes by at most 100 ppm, and the time is not stepped. The rate is Config.elapsed's. -/
def ptpCorrectionBody (ppm : Int) : M s0 Unit := require "PTP_CORRECTION" (decide (-100 ≤ ppm) && decide (ppm ≤ 100))

def execPtpCorrection (ppm : Int) (s : State) : Outcome := run s (ptpCorrectionBody ppm)

end Sys2Proof.Machine
end

