-- ==== Sys2Proof/Machine/Branch.lean ====
section
/-! DEFINITION. Branches and jumps (R397, R398, R428, R437). -/

namespace Sys2Proof.Machine

open Sys2Proof

variable {s0 : State}

/-- COND of BR (R398). -/
def Cond.holds (c : Cond) (a b : Word) : Bool :=
  match c with
  | .eq => a == b
  | .ne => a != b
  | .lt => a.slt b
  | .ge => !a.slt b
  | .ltu => a.ult b
  | .geu => !a.ult b

/-- A branch that is taken when the condition on the registers holds. -/
def branchBody (off : Word) (f : Regs → Bool) : M s0 Fin := do
  let c ← myCtx
  return if f c.r then .jump (branchTarget c.r.pc off) else .next

def branch (sy : Sync) (off : Word) (f : Regs → Bool) (s : State) : Outcome :=
  strandStep s sy false false (pure ()) (branchBody off f)

def execBr (c : Cond) (a b : XReg) (off : Word) (sy : Sync) : State → Outcome :=
  branch sy off fun r => Cond.holds c (r.getX a) (r.getX b)

def execJ (off : Word) (sy : Sync) : State → Outcome := branch sy off fun _ => true

/-- A jump: the target and the link are taken before any register is written (R428). JR and JLR (`enter`) alone enter crack mode
(R325, R429). -/
def jumpBody (enter : Bool) (link : Option XReg) (sy : Sync) (f : Regs → Word) : M s0 Fin := do
  let c ← myCtx
  match link with
  | some d => writeX d (nextPc c.r.pc sy)
  | none => pure ()
  return if enter then .enter (f c.r) else .jump (f c.r)

def jump (enter : Bool) (link : Option XReg) (sy : Sync) (f : Regs → Word) (s : State) : Outcome :=
  strandStep s sy false false (pure ()) (jumpBody enter link sy f)

def execJl (d : XReg) (off : Word) (sy : Sync) : State → Outcome := jump false (some d) sy fun r => branchTarget r.pc off
def execJr (a : XReg) (off : Word) (sy : Sync) : State → Outcome := jump true none sy fun r => branchTarget (r.getX a) off
def execJlr (d a : XReg) (off : Word) (sy : Sync) : State → Outcome :=
  jump true (some d) sy fun r => branchTarget (r.getX a) off

/-- R437. -/
def loopBody (d : XReg) (off : Word) : M s0 Fin := do
  let c ← myCtx
  let n := c.r.getX d - 1
  writeX d n
  return if n ≠ 0 then .jump (branchTarget c.r.pc off) else .next

def execLoop (d : XReg) (off : Word) (sy : Sync) (s : State) : Outcome :=
  strandStep s sy false false (pure ()) (loopBody d off)

/-- The lanes below sr.vl as a mask (R397). -/
def laneMask (vl : Nat) : Word := wordOf (2 ^ vl - 1)

/-- Followers of a leader's context that have joined and whose corresponding context holds a strand: their cores (R64); none to a
handler, whose instructions are not forwarded (R65). -/
def State.maskFollowers (s : State) (a : Nat) : List Nat :=
  (if (s.ctx a).handler = 0 then s.followers (coreOf a) else []).filter fun n =>
    (match (s.core n).trace with | .follower _ j _ => j | .none => false) && (s.ctx (16 * n + a % 16)).phase.alive

/-- The masks that BANY and BALL of a leader read: its own and those of its followers (R64). -/
def State.maskSets (s : State) (a : Nat) (k : KReg) : List (Word × Word) :=
  let of (c : Ctx) : Word × Word := (c.r.getK k &&& laneMask c.r.lanes, laneMask c.r.lanes)
  of (s.ctx a) :: (s.maskFollowers a).map fun n => of (s.ctx (16 * n + a % 16))

/-- Some follower but `self`, which is executing the head of its own stream, has yet to execute what its stream holds (R64). -/
def State.followersBehind (s : State) (a : Nat) (self : Option Nat) : Bool :=
  (s.maskFollowers a).any fun n =>
    match (s.core n).trace with
    | .follower _ _ q => !(if self == some n then q.tail else q).isEmpty
    | .none => false

/-- Where BANY or BALL of a leader's context goes. -/
def State.maskTarget (s : State) (a : Nat) (k : KReg) (off : Word) (sy : Sync) (f : List (Word × Word) → Bool) : Word :=
  if f (s.maskSets a k) then branchTarget (s.ctx a).r.pc off else nextPc (s.ctx a).r.pc sy

/-- The branch of a leader's context is decided: its followers are on the leader's path from now on (R64, R66). -/
def decideMask (a : Nat) (t : Word) : M s0 Fin := do
  let s ← st
  for n in s.maskFollowers a do
    modCtx (16 * n + a % 16) fun x => { x with r := { x.r with pc := t } }
  modCtx a fun x => { x with prog := { x.prog with fin := some (.back t) } }
  return .back t

/-- A forwarded BANY or BALL evaluates nothing (R63); the last follower to execute it decides the branch. A leader hands it on first,
stalls in place until its followers have executed it, and goes where the combined value says (R64). -/
def maskBranchBody (k : KReg) (off : Word) (sy : Sync) (f : List (Word × Word) → Bool) : M s0 Fin := do
  let s ← st
  let c ← myCtx
  match (s.core (coreOf s.cur)).trace with
  | .follower l _ _ =>
    let a := 16 * l + s.cur % 16
    if (s.ctx a).prog.made = 0 || s.followersBehind a (some (coreOf s.cur)) then return .next
    else decideMask a (s.maskTarget a k off sy f)
  | .none =>
    let a := s.cur
    if (s.maskFollowers a).isEmpty && c.prog.made = 0 then
      return if f (s.maskSets a k) then .jump (branchTarget c.r.pc off) else .next
    else if c.prog.made = 0 then
      forward c.r.pc c.r.pc
      madeOne
      stop .stall
    else if s.followersBehind a none then stop .stall
    else decideMask a (s.maskTarget a k off sy f)

def execBany (k : KReg) (off : Word) (sy : Sync) (s : State) : Outcome :=
  strandStep s sy false false (pure ()) (maskBranchBody k off sy fun l => l.any fun p => p.1 != 0)

def execBall (k : KReg) (off : Word) (sy : Sync) (s : State) : Outcome :=
  strandStep s sy false false (pure ()) (maskBranchBody k off sy fun l => l.all fun p => p.1 == p.2)

end Sys2Proof.Machine
end

