-- ==== Sys2Proof/Machine/Dynamic.lean ====
section
/-! DEFINITION. The dynamic runtime: shapes and kinds, the inline-cache unit, GUARD, TAGCHK, ALLOC, and the start of an Easel
strand (R323, R324, R329 to R337, R345, R394, R424, R425, R469). -/

namespace Sys2Proof.Machine

open Sys2Proof

variable {s0 : State}

/-! ### Shape and Kind (R332) -/

def tagOf (v : Word) : BitVec 3 := v.truncate 3

/-- What the header and the KIND word of a value say: Shape, Kind, and whether a read missed L1. -/
structure Seen where
  shape : BitVec 32
  kind : BitVec 32
  miss : Bool
  deriving DecidableEq, Repr

/-- The header and, of a tensor, the KIND word are read as loads (R158); they are read only of a heap pointer. -/
def seeValue (v : Word) : M s0 Seen := do
  if isHeap v then
    if v.toNat % 16 ≠ 0 then trap .align v
    let (hs, m) ← loadMany .global [v] 8 false
    let h := wordOf (hs.headD 0)
    let shape := h.extractLsb' 32 32
    if h.getLsbD 29 then
      let (ks, m') ← loadMany .global [v + 16] 8 false
      let k : BitVec 32 := 0x80000000 ||| BitVec.ofNat 32 (ks.headD 0 % 2 ^ 16)
      return { shape := shape, kind := k, miss := m || m' }
    else return { shape := shape, kind := shape, miss := m }
  else
    let w : BitVec 32 := 0xFFFFFFF8 + (tagOf v).zeroExtend 32
    return { shape := w, kind := w, miss := false }

/-! ### The inline-cache unit (R333 to R337) -/

/-- The set of a site when the site and an address space own it. -/
def Core.icOwned (c : Core) (asid site : BitVec 16) : Option IcSet :=
  (TMap.find c.ic (site.toNat % 1024)).filter fun x => x.asid == asid && x.site == site

/-- R334: 0 a miss, 1 a megamorphic site, else the DATA of the way; and whether another core has cleared the site since. -/
def IcSet.probe (x : IcSet) (rshape : BitVec 32) (atag : BitVec 3) : Word × Bool :=
  if x.mega then (1, x.cleared)
  else match x.ways.find? fun w => w.rshape == rshape && w.atag == atag with
    | some w => (w.data, w.cleared)
    | none => (0, false)

def Core.icProbe (c : Core) (asid site : BitVec 16) (rshape : BitVec 32) (atag : BitVec 3) : Word × Bool :=
  match c.icOwned asid site with
  | some x => x.probe rshape atag
  | none => (0, false)

/-- R335: a fill of a set that the site owns. -/
def IcSet.fill (x : IcSet) (e : IcEntry) : IcSet :=
  if x.mega then x
  else if x.ways.any fun w => w.rshape == e.rshape && w.atag == e.atag then
    { x with ways := x.ways.map fun w => if w.rshape == e.rshape && w.atag == e.atag then e else w }
  else if x.ways.length < 4 then { x with ways := x.ways ++ [e] }
  else { x with ways := [], mega := true, cleared := false }

def Core.icFill (c : Core) (asid site : BitVec 16) (e : IcEntry) : Core :=
  let x := match c.icOwned asid site with
    | some x => x.fill e
    | none => { site := site, asid := asid, ways := [e], mega := false, cleared := false }
  { c with ic := TMap.put c.ic (site.toNat % 1024) x }

def Core.icClear (c : Core) (asid site : BitVec 16) : Core :=
  match c.icOwned asid site with
  | some _ => { c with ic := TMap.del c.ic (site.toNat % 1024) }
  | none => c

def Core.icClearAll (c : Core) (asid : BitVec 16) : Core := { c with ic := c.ic.filter fun p => p.2.asid != asid }

/-- Entries of sets that `f` names have been cleared on another core (R337). -/
def Core.icElsewhere (c : Core) (f : IcSet → Bool) : Core :=
  { c with
    ic := c.ic.map fun p =>
      if f p.2 then (p.1, { p.2 with ways := p.2.ways.map fun w => { w with cleared := true }, cleared := true }) else p }

/-- The other cores' entries of what core `n` has cleared. -/
def icElsewhere (n : Nat) (f : IcSet → Bool) : M s0 Unit := do
  let s ← st
  for (k, _) in s.cores do
    if k ≠ n then modCore k fun m => m.icElsewhere f

/-- R334: the result of a probe, and whether a read of the receiver missed L1. An entry whose site another core has cleared gives
either outcome (R337). -/
def probe (site recv arg : Word) : M s0 (Word × Bool) := do
  let c ← myCtx
  let v ← seeValue recv
  let n ← myCore
  let s ← st
  let (w, cleared) := (s.core n).icProbe c.r.asid (site.truncate 16) v.shape (tagOf arg)
  let i ← if cleared then choose 2 else pure 0
  return (if i = 1 then 0 else w, v.miss)

def icprobeBody (d a b : XReg) (site : Word) : M s0 Fin := do
  let c ← myCtx
  let (v, miss) ← probe site (c.r.getX a) (c.r.getX b)
  writeX d v
  return loaded miss

/-- A site above 65,535 raises ILLEGAL (R334). -/
def icprobePre (site : Word) : M s0 Unit := do
  onEasel true
  legal (decide (site.toNat < 65536))

def execIcprobe (d a b : XReg) (site : Word) (sy : Sync) (s : State) : Outcome :=
  strandStep s sy false false (icprobePre site) (icprobeBody d a b site)

def icfillBody (x a b c : XReg) : M s0 Fin := do
  let k ← myCtx
  let v ← seeValue (k.r.getX a)
  let n ← myCore
  modCore n fun m => m.icFill k.r.asid ((k.r.getX x).truncate 16)
    { rshape := v.shape, atag := tagOf (k.r.getX b), data := k.r.getX c, cleared := false }
  return loaded v.miss

/-- A DATA of 0 or 1 raises ILLEGAL (R335). -/
def icfillPre (c : XReg) : M s0 Unit := do
  onEasel true
  let v ← readX c
  legal (decide (1 < v.toNat))

def execIcfill (x a b c : XReg) (sy : Sync) (s : State) : Outcome :=
  strandStep s sy false false (icfillPre c) (icfillBody x a b c)

def icfillSiteBody (x : XReg) : M s0 Fin := do
  let k ← myCtx
  let n ← myCore
  modCore n fun m => m.icClear k.r.asid ((k.r.getX x).truncate 16)
  icElsewhere n fun y => y.asid == k.r.asid && y.site == (k.r.getX x).truncate 16
  return .next

def execIcfillSite (x : XReg) (sy : Sync) (s : State) : Outcome :=
  strandStep s sy false false (onEasel true) (icfillSiteBody x)

def icfillAllBody : M s0 Fin := do
  let k ← myCtx
  let n ← myCore
  modCore n fun m => m.icClearAll k.r.asid
  icElsewhere n fun y => y.asid == k.r.asid
  return .next

def execIcfillAll (sy : Sync) (s : State) : Outcome := strandStep s sy false false (onEasel true) icfillAllBody

/-! ### GUARD and TAGCHK (R336) -/

/-- R424. A follower goes where its leader went and evaluates nothing (R63). -/
def guardBody (a b : XReg) (off : Word) : M s0 Fin := do
  let s ← st
  if s.fwd.isSome then return .next
  else
    let c ← myCtx
    let v ← seeValue (c.r.getX a)
    let t := branchTarget c.r.pc off
    if v.kind ≠ (c.r.getX b).truncate 32 then return if v.miss then .offcoreAt t false else .jump t
    else return loaded v.miss

def execGuard (a b : XReg) (off : Word) (sy : Sync) (s : State) : Outcome :=
  strandStep s sy false false (pure ()) (guardBody a b off)

/-- R469. -/
def execTagchk (a b : XReg) (off : Word) (sy : Sync) : State → Outcome :=
  branch sy off fun r => !(r.getX b).getLsbD (tagOf (r.getX a)).toNat

/-! ### ALLOC (R345) -/

/-- The words of a new object: the header without MARK and OLD, AUX, and nil in each slot. -/
def objectWords (header : Word) (size : Nat) : List Word :=
  [header &&& ~~~(0xC0000000 : Word), 0] ++ List.replicate (size / 8 - 2) 2

/-- R345: one object of the nursery whose descriptor lies at a local address. -/
def allocAt (at_ header : Word) : M s0 Word := do
  let core ← myCore
  if at_.toNat % 16 ≠ 0 then trap .align at_
  let (vs, _) ← loadMany .loc [at_, at_ + 8] 8 false
  let _ ← checkLocal [at_] 8 false true
  let top := wordOf (vs.getD 0 0)
  let lim := vs.getD 1 0
  let size := 16 * (field header 0 16 + 1)
  if top.toNat % 16 ≠ 0 then trap .align top
  if lim < top.toNat + size then trap .syscall (wordOf (2 ^ 63 + size))
  afterSignal
  -- their faults, translation's among them, are deferred (R394)
  storeSeq ((objectWords header size).zipIdx.map fun p => Put.mk1 8 (top + wordOf (8 * p.2), p.1.toNat)) none false true
  let s ← st
  writeLsFor (s.gangOf s.cur) core at_.toNat (natBytes 8 (top.toNat + size))
  return top

def allocBody (d a b : XReg) : M s0 Fin := do
  let c ← myCtx
  let top ← allocAt (c.r.getX a) (c.r.getX b)
  writeX d top
  return .next

def execAlloc (d a b : XReg) (sy : Sync) (s : State) : Outcome :=
  strandStep s sy false false (onEasel true) (allocBody d a b)

/-! ### The start of an Easel strand (R323, R324) -/

/-- A start record with a field that must be zero, or too many slots. -/
def startRecordBad (ws : List Word) : Bool :=
  let w := wordAt ws
  field (w 3) 41 22 != 0 || field (w 3) 16 16 != 0 || decide (256 < field (w 3) 32 9) || w 7 != 0

def startDone (ws : List Word) : DoneRef :=
  { ref := wordAt ws 5, gen := (wordAt ws 6).extractLsb' 48 16, inc := (wordAt ws 6).extractLsb' 0 48 }

/-- The words of sr.lsbase and sr.lslim that REGIONS names: none when they cannot be read. -/
def readRegions (q : Req) (a : Nat) (va : Word) : M s0 (Option (List Word)) := do
  if va = 0 then return some []
  else
    match ← readWords q a va 16 with
    | .ok ws => return some ws
    | .error _ => return none

/-- The record is readable: the strand starts, or its DONE receives DONE_INC at once. DESIGN CHOICE (log 72): REGIONS that cannot be
read count as a record that cannot be read. -/
def startFromRecord (a : Nat) (record : Nat) (ws : List Word) : M s0 Unit := do
  let s ← st
  let core := coreOf a
  let w := wordAt ws
  let asid : BitVec 16 := (w 3).truncate 16
  let done := startDone ws
  let q : Req := { die := dieOf a, asid := asid, user := false, master := core }
  let n := field (w 3) 32 9
  let bases := s.freeBases core n
  if startRecordBad ws || bases.isEmpty then logAdd q done.ref done.inc.toNat (some done.gen) a
  else
    match ← readRegions q a (w 4) with
    | none =>
      let detail ← openWord
      logEvent 0 .badlaunch 0 a (wordOf record) detail
    | some rs =>
      let i ← if bases.length ≤ 1 then pure 0 else choose bases.length
      modCtx a fun x => { x with owner := none, budget := 64, nslots := n, cellBase := bases.getD i 0 }
      let r := startRegs true (w 0) 0 0 (w 1) asid (regionWords false (rs.take 8)) (regionWords true (rs.drop 8))
      let r := { r.setX 2 (w 2) with mode := if (w 3).getLsbD 63 then .kernel else .user }
      startStrand a r fun x => { x with start := some done }

/-- The context can read a start record: memory behind a link that is up and holds no poison, and access table 0 of the record's die
admits the core (R371, R372). DESIGN CHOICE (log 91): the ASID of that access is the record's own; the spec names none. -/
def State.recordReadable (s : State) (a record : Nat) : Bool :=
  s.inModule record && !(List.range 64).any (fun i => s.poisoned (record + i)) &&
  admits (s.access (paDie record) 0 (coreOf a)) true false false ((wordAt (s.physWords record 8) 3).truncate 16)

/-- EASEL_START: a write to the START register of a context. -/
def easelStartBody (a : Nat) (value : Word) : M s0 Unit := do
  let s ← st
  require "EASEL_START" (isAgent a && isEasel (coreOf a))
  if (s.ctx a).phase == .free then
    let record := (keepBits value 6 58).toNat
    modCtx a fun x => { x with startReg := keepBits value 6 58 }
    if s.recordReadable a record then
      startFromRecord a record (s.physWords record 8)
    else
      let detail ← openWord
      logEvent 0 .badlaunch 0 a (wordOf record) detail

def execEaselStart (a : Nat) (value : Word) (s : State) : Outcome := run s (easelStartBody a value)

end Sys2Proof.Machine
end

