-- ==== Sys2Proof/Machine/Crack.lean ====
section
/-! DEFINITION. Crack mode: the crack unit of an Easel core (R317, R325 to R328, R339, R340, R343). -/

namespace Sys2Proof.Machine

open Sys2Proof

variable {s0 : State}

/-! ### Fetching an operation (R326) -/

/-- The byte of memory that a crack address names. -/
def crackVa (pc : Word) : Word := wordOf (field pc 56 8 * 2 ^ 56 + field pc 0 48)

/-- The crack address n bytes on. -/
def crackOn (pc : Word) (n : Nat) : Word := (pc &&& 0xFFFF000000000000) ||| wordOf ((field pc 0 48 + n) % 2 ^ 48)

def crackBack (pc : Word) (n : Nat) : Word := crackOn pc (2 ^ 48 - n)

/-- An operand is cut off by the end of the bytes. -/
def moreBytes : List OKind → List Byte → Bool
  | [], _ => false
  | _ :: ks, bs =>
    match lebSplit 10 bs with
    | none => decide (bs.length < 10)
    | some (_, rest) => moreBytes ks rest

/-- The bytes do not yet hold a whole operation. -/
def incomplete : List Byte → Bool
  | [] => true
  | b :: bs =>
    match opShape b.toNat with
    | none => false
    | some ks => moreBytes ks bs

/-- The bytes from an offset of the first of some words on, each word in its version k (R106). -/
def bytesAt (fs : List Fetched) (off k : Nat) : List Byte :=
  (fs.flatMap fun f => natBytes 8 (versionAt f.words k).toNat).drop off

/-- The most versions that one of the words has. -/
def versionsOf (fs : List Fetched) : Nat := fs.foldl (fun n f => max n f.words.length) 1

/-- The operation at the start of bytes and its length; none: the bytes are none. -/
def opAt (bs : List Byte) : Option (ShOp × Nat) := (takeOp bs).map fun p => (p.1, bs.length - p.2.length)

/-- The words from an aligned address on, as many as the operation has at an offset of the first in one of its versions, and the fault
that cut them short; at most seven. -/
def crackWords (a off : Nat) : Nat → Word → List Fetched → M s0 (List Fetched × Option (Cause × Word))
  | 0, _, fs => return (fs, none)
  | n + 1, va, fs => do
    if !fs.isEmpty && (List.range (versionsOf fs)).all fun k => !incomplete (bytesAt fs off k) then return (fs, none)
    else
      match ← fetchWord a va with
      | .error c => return (fs, some (c, va))
      | .ok f => crackWords a off n (va + 8) (fs ++ [f])

/-- Words that an operation at an offset of the first extends over. -/
def wordsSpanned (off len : Nat) : Nat := (off + len + 7) / 8

/-- Two words of an operation's version k, or more, have several versions. -/
def mixed (fs : List Fetched) (off k : Nat) : Bool :=
  match opAt (bytesAt fs off k) with
  | some p => decide (1 < ((fs.take (wordsSpanned off p.2)).filter fun f => decide (1 < f.words.length)).length)
  | none => false

/-- ILLEGAL of the crack unit: sr.tval holds the 8 bytes at the operation's address. -/
def crackIllegal {α : Type} (a : Nat) (va : Word) : M s0 α := do
  let bytes (r : Except Cause Fetched) : List Byte :=
    match r with
    | .ok f => natBytes 8 (f.words.getLastD 0).toNat
    | .error _ => List.replicate 8 0
  let k := va.toNat % 8
  let lo ← fetchWord a (va - wordOf k)
  let hi ← fetchWord a (va - wordOf k + 8)
  trap .illegal (bytesWord ((bytes lo ++ bytes hi).drop k |>.take 8))

/-- The operation at the program counter: of one of the versions that its words have; ILLEGAL where it spans words of different
versions (R106, R109, R326). -/
def crackFetch (a : Nat) (va : Word) : M s0 (ShOp × Nat) := do
  let off := va.toNat % 8
  let first := va - wordOf off
  let (fs, cut) ← crackWords a off 7 first []
  let n := versionsOf fs
  let n' := if (List.range n).any (mixed fs off) then n + 1 else n
  let i ← if n' ≤ 1 then pure 0 else choose n'
  if i = n then crackIllegal a va
  else
    let bs := bytesAt fs off i
    match opAt bs, cut with
    | some p, _ =>
      for (f, j) in (fs.take (wordsSpanned off p.2)).zipIdx do
        cacheWord a (first + wordOf (8 * j)) (versionAt f.words i) f
      return p
    | none, some (c, w) => if incomplete bs then trap c w else crackIllegal a va
    | none, none => crackIllegal a va

/-! ### Branch targets (R300) -/

/-- The length of the operation at an address, when there is one. -/
def lenAt (a : Nat) (va : Word) : M s0 (Option Nat) := do
  let off := va.toNat % 8
  let (fs, _) ← crackWords a off 7 (va - wordOf off) []
  return (opAt (bytesAt fs off (versionsOf fs - 1))).map (·.2)

/-- n operations further on. -/
def opsOn (a : Nat) (pc : Word) (n : Nat) : M s0 (Option Word) := do
  let mut at_ : Option Word := some pc
  for _ in List.range n do
    match at_ with
    | some p =>
      match ← lenAt a (crackVa p) with
      | some k => at_ := some (crackOn p k)
      | none => at_ := none
    | none => pure ()
  return at_

/-- The addresses from which n operations lead to an address. -/
def opsBack (a : Nat) (pc : Word) (n : Nat) : M s0 (List Word) := do
  let mut at_ : List Word := [pc]
  for _ in List.range n do
    let mut found : List Word := []
    for p in at_ do
      for k in List.range 41 do
        let q := crackBack p (k + 1)
        match ← lenAt a (crackVa q) with
        | some m => if m = k + 1 && !found.contains q then found := found ++ [q]
        | none => pure ()
    at_ := found
  return at_

/-- The operation t operations from the present one. Several byte addresses may lie as many operations back: one of them. -/
def crackTarget (a : Nat) (pc : Word) (t : Int) : M s0 Word := do
  if 0 ≤ t then
    match ← opsOn a pc t.toNat with
    | some p => return p
    | none => crackIllegal a (crackVa pc)
  else
    let ps ← opsBack a pc (-t).toNat
    let i ← if ps.length ≤ 1 then pure 0 else choose ps.length
    match ps[i]? with
    | some p => return p
    | none => crackIllegal a (crackVa pc)

/-! ### The native instructions of templates -/

/-- The scalar integer instructions of the templates. -/
def aluOf (i : Instr) : Option (XReg × (Regs → Word)) :=
  match i with
  | .add d a b _ => some (d, fun r => r.getX a + r.getX b)
  | .sub d a b _ => some (d, fun r => r.getX a - r.getX b)
  | .mul d a b _ => some (d, fun r => r.getX a * r.getX b)
  | .div d a b _ => some (d, fun r => divWord true (r.getX a) (r.getX b))
  | .rem d a b _ => some (d, fun r => remWord true (r.getX a) (r.getX b))
  | .and d a b _ => some (d, fun r => r.getX a &&& r.getX b)
  | .or d a b _ => some (d, fun r => r.getX a ||| r.getX b)
  | .xor d a b _ => some (d, fun r => r.getX a ^^^ r.getX b)
  | .shl d a b _ => some (d, fun r => r.getX a <<< shiftAmount (r.getX b))
  | .shr d a b _ => some (d, fun r => r.getX a >>> shiftAmount (r.getX b))
  | .sra d a b _ => some (d, fun r => (r.getX a).sshiftRight (shiftAmount (r.getX b)))
  | .slt d a b _ => some (d, fun r => boolWord ((r.getX a).slt (r.getX b)))
  | .sltu d a b _ => some (d, fun r => boolWord ((r.getX a).ult (r.getX b)))
  | .min d a b _ => some (d, fun r => if (r.getX b).slt (r.getX a) then r.getX b else r.getX a)
  | .max d a b _ => some (d, fun r => if (r.getX a).slt (r.getX b) then r.getX b else r.getX a)
  | .andi d a v _ => some (d, fun r => r.getX a &&& v)
  | .ori d a v _ => some (d, fun r => r.getX a ||| v)
  | .xori d a v _ => some (d, fun r => r.getX a ^^^ v)
  | .shli d a v _ => some (d, fun r => r.getX a <<< v.toNat)
  | .shri d a v _ => some (d, fun r => r.getX a >>> v.toNat)
  | .srai d a v _ => some (d, fun r => (r.getX a).sshiftRight v.toNat)
  | .sel d a b c _ => some (d, fun r => if r.getX a ≠ 0 then r.getX b else r.getX c)
  | .li d v _ => some (d, fun _ => v)
  | _ => none

/-- The floating-point instructions of the templates. -/
def fpOf (i : Instr) : Option (XReg × (Regs → Nat × Flags)) :=
  match i with
  | .fadd t m d a b _ => some (d, fun r => fAdd (tyFmt t) (r.rnd m) (r.fsrc a t) (r.fsrc b t))
  | .fsub t m d a b _ => some (d, fun r => fSub (tyFmt t) (r.rnd m) (r.fsrc a t) (r.fsrc b t))
  | .fmul t m d a b _ => some (d, fun r => fMul (tyFmt t) (r.rnd m) (r.fsrc a t) (r.fsrc b t))
  | .ffma t m d a b c _ => some (d, fun r => fFma (tyFmt t) (r.rnd m) (r.fsrc a t) (r.fsrc b t) (r.fsrc c t))
  | .fdiv t m d a b _ => some (d, fun r => fDiv (tyFmt t) (r.rnd m) (r.fsrc a t) (r.fsrc b t))
  | .fsqrt t m d a _ => some (d, fun r => fSqrt (tyFmt t) (r.rnd m) (r.fsrc a t))
  | .fmin t d a b _ => some (d, fun r => fMinMax (tyFmt t) true (r.fsrc a t) (r.fsrc b t))
  | .fmax t d a b _ => some (d, fun r => fMinMax (tyFmt t) false (r.fsrc a t) (r.fsrc b t))
  | .fcmp t p d a b _ => some (d, fun r =>
      let (v, fl) := fCmp p ((tyFmt t).decode (r.fsrc a t)) ((tyFmt t).decode (r.fsrc b t))
      (if v then 1 else 0, fl))
  | _ => none

/-- A native instruction of a template of scalar types. Those that an Easel core has not raise ILLEGAL (R40). -/
def crackNative (i : Instr) : M s0 Fin := do
  setIr (encode i).1 (encode i).2
  match aluOf i, fpOf i with
  | some (d, f), _ => aluBody d f
  | none, some (d, f) => fpBody d f
  | none, none =>
    match i with
    | .fcvt t f m d a _ => fcvtBody t f m d a
    | .ld sz sp d a m _ => ldBody sz sp d (fun r => ea1 r a m) true
    | .st sz sp d a m _ => stBody sz sp d fun r => ea1 r a m
    | .amo sz sp op d a b v _ => amoBody sz sp op d a b v
    | .cas sz sp d a b v _ => casBody sz sp d a b v
    | .red sz sp op d a v _ => redBody sz sp op d a v
    | .kmov f _ => kmovBody f
    | .vins d a b _ => vinsBody d a b
    | .vext d a b _ => vextBody d a b
    | .vrsq t m k d a _ => elemBody t.bits k d fun r e => fElem FV.rsqrt (tyFmt t) (r.rnd m) (r.el a t e)
    | .vexp2 t m k d a _ => elemBody t.bits k d fun r e => fElem FV.exp2 (tyFmt t) (r.rnd m) (r.el a t e)
    | .vlog2 t m k d a _ => elemBody t.bits k d fun r e => fElem FV.log2 (tyFmt t) (r.rnd m) (r.el a t e)
    | .cmark n a v _ =>
      legalSlot n.toNat
      cmarkBody n a v
    | .cwait d n b sy =>
      legalSlot n.toNat
      cwaitBody d n none false b sy.scope
    | .cadd d n a v sy =>
      legalSlot n.toNat
      caddBody d n a v sy.scope
    | .cbind n a _ =>
      legalSlot n.toNat
      cbindBody n a
    | .fence sy =>
      release sy.scope
      fenceBody sy.scope
    | .spawn a sy =>
      let r ← spawnRead a
      spawnBody sy.scope r
    | .srd d n _ => withSreg n (srdBody d)
    | _ => illegal

/-- How a template has come along: a reference that missed L1, a trap that follows the operation. -/
structure CrackRun where
  miss : Bool
  late : Option (Cause × Word)
  deriving DecidableEq, Repr

/-- The native instructions of a template in order, each of which makes its own stores. -/
def crackRun : List Instr → CrackRun → M s0 CrackRun
  | [], x => return x
  | i :: r, x => do
    let fin ← crackNative i
    modMe fun y => { y with prog := { y.prog with made := 0 } }
    match fin with
    | .offcore _ => crackRun r { x with miss := true }
    | .trapped c v => crackRun r { x with late := some (c, v) }
    | _ => crackRun r x

/-- The operation ends: the strand goes on at a crack or native address. A trap that follows the operation names the next
one in sr.epc, which `complete` takes to be 8 bytes on. -/
def crackEnd (x : CrackRun) (next : Word) : M s0 Fin := do
  match x.late with
  | some (c, v) =>
    modMe fun y => y.modR fun r => { r with pc := next - 8 }
    return .trapped c v
  | none => return if x.miss then .offcoreAt next true else .enter next

/-! ### The frame (R317, R327) -/

/-- Virtual register n is the 8-byte local word at x2 + 8n. -/
def crackHome (r _ : Nat) : Home := .slot (8 * r) false

def frameAddr (r : Regs) (n : Nat) : Word := r.getX 2 + wordOf (8 * n)

def loadLocal (va : Word) : M s0 Word := do
  let (vs, _) ← loadMany .loc [va] 8 false
  return wordOf (vs.headD 0)

def frame (n : Nat) : M s0 Word := do
  let c ← myCtx
  loadLocal (frameAddr c.r n)

def setFrame (n : Nat) (v : Word) : M s0 Unit := do
  let c ← myCtx
  storeMany .loc [(frameAddr c.r n, v.toNat)] 8 none false

/-- The working registers after a template whose instructions the spec gives in outline. -/
def scratch : M s0 Unit := do
  for i in List.range 5 do
    let w ← openWord
    writeX (BitVec.ofNat 6 (3 + i)) w

/-- X0 holds the site, X1 to X4 the operands (R339). -/
def passOperands (site : Nat) (vs : List Word) : M s0 Unit := do
  writeX 3 (wordOf site)
  for (v, i) in (vs.take 4).zipIdx do
    writeX (BitVec.ofNat 6 (4 + i)) v

/-- A native routine or handler is entered with link x61. -/
def enterNative (site : Nat) (vs : List Word) (next : Word) : M s0 Unit := do
  passOperands site vs
  writeX 61 next

/-- A handler, by JR or JLR (R340). -/
def enterHandler (site : Nat) (vs : List Word) (target next : Word) : M s0 Fin := do
  enterNative site vs next
  return .enter target

/-- R339: a JL, which enters no crack mode (R325). -/
def slowPath (o : ShOp) (vs : List Word) (next : Word) : M s0 Fin := do
  let target ← loadLocal (wordOf (0x100 + 8 * (o.op - 0x80)))
  enterNative (o.nat 0) vs next
  return .jump target

/-- The fast path has ended with a result in the frame. -/
def fastEnd (miss : Bool) (next : Word) : M s0 Fin := do
  scratch
  return if miss then .offcoreAt next true else .enter next

/-- Where the strand's link stack starts is the runtime's; it is one address for the strand. -/
def linkBase : M s0 Word := do
  let c ← myCtx
  match c.linkBase with
  | some w => return w
  | none =>
    let w ← openWord
    modMe fun x => { x with linkBase := some w }
    return w

/-- Frame register 0 of the outermost frame: the link stack's lowest entry holds its x2 (R327). -/
def globalsObject : M s0 Word := do
  let c ← myCtx
  let base ← linkBase
  if c.r.getX 60 = base then frame 0
  else
    let x2 ← loadLocal (base + 8)
    loadLocal x2

/-! ### The operations 0x80 to 0x93 (R306, R340) -/

/-- An operand whose tag is reserved sends its operation to the slow path (R329). -/
def reservedTag (v : Word) : Bool := decide (4 ≤ (tagOf v).toNat)

/-- getp, setp, getg, setg on an object; `new`: the value that is set. -/
def slotOp (o : ShOp) (obj : Word) (new : Option Word) (vs : List Word) (next : Word) : M s0 Fin := do
  let (p, m) ← if reservedTag obj || new.any reservedTag then pure (0, false) else probe (wordOf (o.nat 0)) obj 0
  if p.toNat < 2 then slowPath o vs next
  else if let some v := new then
    afterSignal
    storeSeq ({ va := obj + p, val := v.toNat, size := 8 } :: if isHeap v then [{ va := card (obj + p), val := 1, size := 1 }] else [])
      none false false
    fastEnd m next
  else
    let (ws, m') ← loadMany .global [obj + p] 8 false
    setFrame (o.nat 3) (wordOf (ws.headD 0))
    fastEnd (m || m') next

/-- call and callm (R327). -/
def callOp (o : ShOp) (next : Word) : M s0 Fin := do
  let callee ← frame (o.nat 1)
  let arg ← frame (o.nat 2)
  let vs := [callee, wordOf (o.nat 2), wordOf (o.nat 3)]
  let (p, m) ← if reservedTag callee || reservedTag arg then pure (0, false) else probe (wordOf (o.nat 0)) callee arg
  if p.toNat < 2 then slowPath o vs next
  else if isCrack p then
    let c ← myCtx
    let sp := c.r.getX 60
    storeMany .loc [(sp, next.toNat), (sp + 8, (c.r.getX 2).toNat)] 8 none false
    writeX 60 (sp + 16)
    writeX 2 (frameAddr c.r (o.nat 2))
    fastEnd m p
  else enterHandler (o.nat 0) vs p next

/-- ret (R327). -/
def retOp : M s0 Fin := do
  let c ← myCtx
  let sp := c.r.getX 60 - 16
  let x2 ← loadLocal (sp + 8)
  let target ← loadLocal sp
  writeX 60 sp
  writeX 2 x2
  return .enter target

/-- A small integer's value (R329). -/
def smallInt (v : Word) : Int := (v.sshiftRight 3).toInt

def fitsSmall (i : Int) : Bool := decide (-(2 ^ 60 : Int) ≤ i) && decide (i < (2 ^ 60 : Int))

def ofSmall (i : Int) : Word := (BitVec.ofInt 64 i <<< 3) ||| 1

/-- true and false (R329). -/
def taggedBool (b : Bool) : Word := if b then 0x12 else 0xA

/-- addd to eqd on two small integers: none takes the slow path. -/
def intResult (op : Nat) (a b : Int) : Option Word :=
  let num (i : Int) : Option Word := if fitsSmall i then some (ofSmall i) else none
  if op = 0x87 then num (a + b)
  else if op = 0x88 then num (a - b)
  else if op = 0x89 then num (a * b)
  else if op = 0x8A then none
  else if op = 0x8B then some (taggedBool (decide (a < b)))
  else if op = 0x8C then some (taggedBool (decide (a ≤ b)))
  else some (taggedBool (decide (a = b)))

/-- addd to eqd on two FP32 values. -/
def fpResult (op a b : Nat) : Word × Flags :=
  let num (x : Nat × Flags) : Word × Flags := (wordOf (x.1 * 2 ^ 32 + 3), x.2)
  let cmp (p : Pred) : Word × Flags :=
    let (v, fl) := fCmp p (Fmt.f32.decode a) (Fmt.f32.decode b)
    (taggedBool v, fl)
  if op = 0x87 then num (fAdd Fmt.f32 .rne a b)
  else if op = 0x88 then num (fSub Fmt.f32 .rne a b)
  else if op = 0x89 then num (fMul Fmt.f32 .rne a b)
  else if op = 0x8A then num (fDiv Fmt.f32 .rne a b)
  else if op = 0x8B then cmp .lt
  else if op = 0x8C then cmp .le
  else cmp .eq

def arithOp (o : ShOp) (next : Word) : M s0 Fin := do
  let a ← frame (o.nat 2)
  let b ← frame (o.nat 3)
  let vs := [wordOf (o.nat 1), a, b]
  if tagOf a == 1 && tagOf b == 1 then
    match intResult o.op (smallInt a) (smallInt b) with
    | some v =>
      setFrame (o.nat 1) v
      fastEnd false next
    | none => slowPath o vs next
  else if tagOf a == 3 && tagOf b == 3 then
    let (v, fl) := fpResult o.op (field a 32 32) (field b 32 32)
    setFrame (o.nat 1) v
    raiseFlags fl
    fastEnd false next
  else if isHeap a && !reservedTag b then
    let (p, _) ← probe (wordOf (o.nat 0)) a b
    if p.toNat < 2 then slowPath o vs next else enterHandler (o.nat 0) vs p next
  else slowPath o vs next

/-- test: a branch on a value against false and nil. -/
def testOp (a : Nat) (o : ShOp) (pc next : Word) : M s0 Fin := do
  let v ← frame (o.nat 1)
  let falsy := v == 0xA || v == 0x2
  if falsy != Config.testTruthy then
    let t ← crackTarget a pc (o.int 2)
    fastEnd false t
  else fastEnd false next

def boxOp (o : ShOp) (next : Word) : M s0 Fin := do
  let v ← frame (o.nat 2)
  let vs := [wordOf (o.nat 1), v]
  if o.op = 0x8F then
    if fitsSmall v.toInt then
      setFrame (o.nat 1) (ofSmall v.toInt)
      fastEnd false next
    else slowPath o vs next
  else if tagOf v == 1 then
    setFrame (o.nat 1) (v >>> 3)
    fastEnd false next
  else slowPath o vs next

def tensorOp (o : ShOp) (next : Word) : M s0 Fin := do
  let out ← frame (o.nat 2)
  let inp ← frame (o.nat 2 + 1)
  let vs := [wordOf (o.nat 1), wordOf (o.nat 2)]
  let (p, _) ← if reservedTag out || reservedTag inp then pure (0, false) else probe (wordOf (o.nat 0)) out inp
  if p.toNat < 2 then slowPath o vs next else enterHandler (o.nat 0) vs p next

/-- An address lies in the memory of another device (R143, R146). -/
def State.liesFar (s : State) (a : Nat) (va : Word) : Bool :=
  vaNode va != s.nodeId ||
  (let e := s.walk (dieOf a) (s.ctx a).r.asid va
   leafV e.leaf && leafFar e.leaf)

/-- tready (R343): the wait is an acquire at the scope of R342, which is that of the tensor's DATA. -/
def treadyOp (o : ShOp) (next : Word) : M s0 Fin := do
  let t ← frame (o.nat 1)
  let (rs, m) ← loadMany .global [t + 96] 8 false
  let (ts, m') ← loadMany .global [t + 104] 8 false
  let (ds, _) ← loadMany .global [t + 88] 8 false
  writeX 3 (wordOf (rs.headD 0))
  writeX 4 (wordOf (ts.headD 0))
  let _ ← crackNative (.cbind 0 3 syNone)
  let _ ← crackNative (.cmark 0 4 0 syNone)
  let s ← st
  let far := s.liesFar s.cur (wordOf (ds.headD 0))
  waitField { syNone with ext := .sync, wait := some 0, scope := if far then .system else .device }
  fastEnd (m || m') next

/-- The number of the image that an address of an address space lies in. -/
def State.imageAt (s : State) (asid : BitVec 16) (va : Word) : Nat :=
  ((s.images.find? fun p => p.2.asid == asid && decide ((va - p.2.base).toNat < p.2.size)).map (·.1)).getD 0

/-- new: ALLOC with the header of the image's shape table, whose limit trap takes the slow path. -/
def newOp (o : ShOp) (pc next : Word) : M s0 Fin := do
  let s ← st
  let c ← myCtx
  let asid := c.r.asid
  setIr (encode (.alloc 4 5 6 syNone)).1 none
  match ← attempt (allocAt (Config.nursery asid (coreOf s.cur)) (Config.shapeHeader (s.imageAt asid (crackVa pc)) (o.nat 1))) with
  | .ok top =>
    setFrame (Config.newResult asid pc % 65536) top
    fastEnd false next
  | .error (.trap .syscall _ _ _) => slowPath o [wordOf (o.nat 1)] next
  | .error x => stop x

/-- isa: GUARD against the entry of the image's shape table. -/
def isaOp (o : ShOp) (pc next : Word) : M s0 Fin := do
  let s ← st
  let c ← myCtx
  let v ← frame (o.nat 2)
  let k ← seeValue v
  setFrame (o.nat 1) (taggedBool (k.kind == Config.shapeKind (s.imageAt c.r.asid (crackVa pc)) (o.nat 3)))
  fastEnd k.miss next

def dynamicOp (a : Nat) (o : ShOp) (pc next : Word) : M s0 Fin := do
  let op := o.op
  let num (i : Nat) : Word := wordOf (o.nat i)
  if op = 0x80 ∨ op = 0x81 then
    let obj ← frame (o.nat 1)
    if op = 0x81 then
      let v ← frame (o.nat 3)
      slotOp o obj (some v) [obj, num 2, v] next
    else slotOp o obj none [obj, num 2, num 3] next
  else if op = 0x82 ∨ op = 0x83 then
    let obj ← globalsObject
    if op = 0x83 then
      let v ← frame (o.nat 3)
      slotOp o obj (some v) [num 1, num 2, v] next
    else slotOp o obj none [num 1, num 2, num 3] next
  else if op = 0x84 ∨ op = 0x85 then callOp o next
  else if op = 0x86 then newOp o pc next
  else if op ≤ 0x8D then arithOp o next
  else if op = 0x8E then testOp a o pc next
  else if op ≤ 0x90 then boxOp o next
  else if op = 0x91 then tensorOp o next
  else if op = 0x92 then treadyOp o next
  else isaOp o pc next

/-! ### The crack unit -/

/-- br and jmp. -/
def crackBranch (a : Nat) (o : ShOp) (pc next : Word) : M s0 Fin := do
  if o.op = 0x2A then
    let t ← crackTarget a pc (o.int 0)
    return .enter t
  else
    let x ← frame (o.nat 0)
    let y ← frame (o.nat 1)
    writeX 5 x
    writeX 6 y
    if Cond.holds (Cond.ofCode (BitVec.ofNat 6 (o.nat 2))) x y then
      let t ← crackTarget a pc (o.int 3)
      return .enter t
    else return .enter next

/-- One operation, with the types of the function that holds it. A pairing that R305 has no row for, a vector type, or an
operand outside its range raises ILLEGAL. -/
def crackOp (a : Nat) (o : ShOp) (T : Nat → VTy) (pc next : Word) : M s0 Fin := do
  if 0x80 ≤ o.op then
    if 65536 ≤ o.nat 0 then crackIllegal a (crackVa pc) else dynamicOp a o pc next
  else if (o.regs.any fun r => (T r).isVec) || !typeOk T o || !rangeOk T o then crackIllegal a (crackVa pc)
  else if o.op = 0x29 ∨ o.op = 0x2A then crackBranch a o pc next
  else if o.op = 0x2B then retOp
  else
    let code := ((template T 0 false o).flatMap (emit 64 crackHome)).map fun n => n.make 0
    let x ← crackRun code { miss := false, late := none }
    crackEnd x next

def crackBody : M s0 Fin := do
  let s ← st
  let c ← myCtx
  let pc := c.r.pc
  let (o, n) ← crackFetch s.cur (crackVa pc)
  crackOp s.cur o (fun r => (VTy.ofCode (Config.vregType c.r.asid pc r)).getD .tv) pc (crackOn pc n)

/-- CRACK_OPERATION: the RUNNING context of an Easel core, at a crack address. -/
def crackOperationBody (a : Nat) : M s0 Unit := do
  let s ← st
  require "CRACK_OPERATION"
    (isEasel (coreOf a) && !(s.core (coreOf a)).failed && s.runningCtx (coreOf a) == some (a % 16) &&
      isCrack (s.ctx a).r.pc && !(s.ctx a).straight)
  upd (.fwd none)
  upd (.cur a)
  let _ ← attempt (issue syNone false false (pure ()) (pure ()) fun _ => crackBody)
  pure ()

def execCrackOperation (a : Nat) (s : State) : Outcome := run s (crackOperationBody a)

end Sys2Proof.Machine
end

