-- ==== Sys2Proof/Machine/Glaze.lean ====
section
/-! DEFINITION. The Glaze nodes: reductions and corrections, NSEND and the ingress of routed tokens, messages (R280 to R293, R442
to R448). -/

namespace Sys2Proof.Machine

open Sys2Proof

variable {s0 : State}

def modGlaze (f : Glaze → Glaze) : M s0 Unit := do
  let s ← st
  upd (.glaze (f s.glaze))

/-- The node that performs a strand's operation: that of its palette die. -/
def glazeReq (b : Issuer) : Req :=
  { die := dieOf b.agent, asid := b.asid, user := b.user, master := masterGlaze (dieOf b.agent) }

def glazeAgent (b : Issuer) : Nat := 25472 + dieOf b.agent

/-- An error of a read or write of an operation, pending in its strand (R288). -/
def pendFaults (b : Issuer) (fs : List Faulted) : M s0 Unit := do
  match ← pickFault fs with
  | some (c, a) => enginePend b c a
  | none => pure ()

/-- The completion signal. -/
def glazeSignal (b : Issuer) : M s0 Unit := do
  match b.sig with
  | some g => engineSignal b (glazeReq b) (glazeAgent b) g
  | none => pure ()

/-- The same at a later moment than the operation's writes. -/
def glazeSignalLater (b : Issuer) : M s0 Unit := do
  match b.sig with
  | some g => signalLater b true (dieOf b.agent) (glazeAgent b) g
  | none => pure ()

/-! ### Failing datapaths (R360)

`lost` is what an operation meets when its datapath fails a second time: POISON, as a fault of its own. -/

/-- Two writes of one operation, as `writeBoth`; when the datapath fails, each element is written or not. -/
def writeLost (lost : List Faulted) (q : Req) (agent : Nat) (va1 : Word) (n1 : Nat) (bs1 : List Byte) (va2 : Word) (n2 : Nat)
    (bs2 : List Byte) : M s0 (List Faulted) := do
  if lost.isEmpty then writeBoth q agent va1 n1 bs1 va2 n2 bs2
  else
    writeEarly q agent va1 n1 bs1 []
    writeEarly q agent va2 n2 bs2 []
    return lost

/-! ### Descriptors (R283) -/

def alignAll (l : List (Word × Nat)) : M s0 Unit :=
  match minWord ((l.filter fun p => p.1.toNat % p.2 != 0).map (·.1)) with
  | some a => trap .align a
  | none => pure ()

def canonicalAll (l : List Word) : M s0 Unit :=
  match minWord (l.filter fun a => !canonical a) with
  | some a => trap .xlate a
  | none => pure ()

def descCount (ws : List Word) : Nat := field (wordAt ws 6) 0 32

def reduDescOk (ws : List Word) : Bool :=
  field (wordAt ws 6) 32 32 == 0 && wordAt ws 7 == 0 && decide (1 ≤ descCount ws) && decide (descCount ws ≤ 2 ^ 24) &&
  (wordAt ws 0).toNat % 256 == 0 && (wordAt ws 1).toNat % 64 == 0

/-- The descriptor of a reduction, captured at issue. -/
def reduDesc (va : Word) : M s0 (List Word) := do
  let ws ← readRecord va 64 64
  legal (reduDescOk ws)
  canonicalAll [wordAt ws 0, wordAt ws 1]
  return ws

/-! ### NRED (R280 to R288) -/

/-- The group at a position of sr.grp: its index; VALID. -/
def grpValid (r : Regs) (pos : Nat) : Bool := r.grp.getLsbD (16 * pos + 15)
def grpId (r : Regs) (pos : Nat) : Nat := field r.grp (16 * pos) 8
def grpRank (r : Regs) (pos : Nat) : Nat := field r.rank (16 * pos) 16

/-- Members of a group of the strand's launch (R67). -/
def State.groupSize (s : State) (a gid : Nat) : Nat :=
  match (s.ctx a).owner.bind fun k => TMap.find s.launches k with
  | some l => field (wordAt l.groups (4 * gid)) 0 16 + 1
  | none => 1

def nredPre (pos : Nat) : M s0 Unit := do
  let s ← st
  let c := s.ctx s.cur
  legal (grpValid c.r pos)
  legal (decide (s.groupSize s.cur (grpId c.r pos) ≤ 1024))

/-- The descriptor of an NRED. -/
def nredEarly (t : Ty) (a b : XReg) : M s0 (List Word) := do
  let c ← myCtx
  alignAll [(c.r.getX b, 64), (c.r.getX a, t.bits / 8)]
  reduDesc (c.r.getX b)

def nredBody (isMax : Bool) (t : Ty) (pos : Nat) (a : XReg) (sy : Sync) (ws : List Word) : M s0 Fin := do
  let c ← myCtx
  let src := c.r.getX a
  let is ← issuer sy
  engineAcquire (glazeAgent is) sy.scope
  let id ← freshSeq
  let s ← st
  let x : NRed :=
    { by_ := is, isMax := isMax, ty := t, src := src, words := ws, member := grpRank c.r pos
      size := s.groupSize s.cur (grpId c.r pos), gid := grpId c.r pos, num := c.r.launch }
  modGlaze fun g => { g with nreds := TMap.put g.nreds id x }
  return .next

def execNred (isMax : Bool) (t : Ty) (pos : BitVec 2) (a b : XReg) (sy : Sync) (s : State) : Outcome :=
  strandStepE s sy true true (nredPre pos.toNat) (nredEarly t a b) (nredBody isMax t pos.toNat a sy)

/-- The Op of a reduction; bf16 elements are FP32 leaf values. -/
def reduOp (isMax : Bool) (t : Ty) : Nat → Nat → Nat × Flags :=
  redOp (if t = .i32 then .i32 else .f32) (if isMax then .max else .add) .rne

def reduIdentity (isMax : Bool) (t : Ty) : Nat := redIdentity (if t = .i32 then .i32 else .f32) (if isMax then .max else .add)

/-- Leaf values of a source (R281). -/
def leafVals (t : Ty) (count : Nat) (bs : List Byte) : List Nat :=
  let v := bytesNat bs
  (List.range count).map fun i =>
    if t = .bf16 then v / 2 ^ (16 * i) % 2 ^ 16 * 2 ^ 16 else v / 2 ^ (32 * i) % 2 ^ 32

/-- The contributions agree on DEST, CAREA, FN, TYPE and COUNT (R287). -/
def Redu.agrees (r : Redu) (x : NRed) : Bool :=
  r.isMax == x.isMax && r.ty == x.ty && wordAt r.words 0 == wordAt x.words 0 && wordAt r.words 1 == wordAt x.words 1 &&
  descCount r.words == descCount x.words

/-- The reduction's elements and the flags of every Op. -/
def Redu.result (r : Redu) : List Nat × Flags :=
  let at_ (e c : Nat) : Option Nat := (r.present.find? fun p => p.member == c).map fun p => p.vals.getD e 0
  let l := (List.range (descCount r.words)).map fun e => combine (reduOp r.isMax r.ty) (at_ e) 10 0
  (l.map fun p => p.1.getD (reduIdentity r.isMax r.ty), l.foldl (fun f p => f ||| p.2) 0)

/-- The header (R285). -/
def Redu.header (r : Redu) (time : Word) (fl : Flags) : List Byte :=
  let bits := (r.present.map fun p => 2 ^ p.member).sum
  let w16 := field (wordAt r.words 5) 0 32 * 2 ^ 32 + fl.toNat * 2 ^ 22 + r.size * 2 ^ 11 + r.present.length
  natBytes 128 bits ++ wordsBytes [wordOf w16, time, wordOf (r.ty.code.toNat * 16 + (if r.isMax then 1 else 0))] ++
  List.replicate 104 0

/-- The root writes the result; DONE follows as an add of its own (R285). -/
def closeRedu (id : Nat) (lost : List Faulted) : M s0 Unit := do
  let s ← st
  match TMap.find s.glaze.redus id with
  | none => pure ()
  | some r =>
    actFor r.by_
    let (vals, fl) := r.result
    let q := { glazeReq r.by_ with die := r.die, master := masterGlaze r.die }
    let agent := 25472 + r.die
    let dest := wordAt r.words 0
    let fs ← writeLost lost q agent dest 8 (r.header s.timeW fl) (dest + 256) 4 (vals.flatMap fun v => natBytes 4 v)
    match ← pickFault fs with
    | some (c, a) => logEvent r.die .fault (r.num.getD 0) agent a (causeWord c)
    | none => pure ()
    signalLater r.by_ false r.die agent
      { ref := wordAt r.words 2, gen := (wordAt r.words 5).extractLsb' 48 16, inc := 1, scope := .system }
    modGlaze fun g => { g with redus := TMap.put g.redus id { r with closed := true, present := [] } }

/-- A contribution that disagrees, or a second one of a member: logged in the launch's error record (R287). -/
def discardContribution (x : NRed) : M s0 Unit := do
  let a ← openWord
  let d ← openWord
  let who ← openWord
  match x.by_.err with
  | some (err, asid, launch) =>
    writeRecord (seqReq (dieOf x.by_.agent) asid) (glazeAgent x.by_) err .discard launch who.toNat a d
  | none => logEvent (dieOf x.by_.agent) .discard 0 (glazeAgent x.by_) a d

/-- The SEQ of a descriptor. -/
def descSeq (ws : List Word) : Nat := field (wordAt ws 5) 0 32

def State.findRedu (s : State) (x : NRed) : Option (Nat × Redu) :=
  s.glaze.redus.find? fun p =>
    p.2.num == some x.num && p.2.by_.asid == x.by_.asid && p.2.gid == x.gid && descSeq p.2.words == descSeq x.words

/-- The reduction that a contribution belongs to: its first contribution settles it. Which palette die holds the root is
open (R280). DESIGN CHOICE (log 71): a reduction is told from others by launch number, address space, group and SEQ, so that a strand
restored under its number stays a member of its group; SEQs are in use until another launch takes the number. -/
def reduFor (x : NRed) : M s0 (Nat × Redu) := do
  let s ← st
  match s.findRedu x with
  | some p => return p
  | none =>
    let id ← freshSeq
    let die ← choose 8
    let r : Redu :=
      { by_ := x.by_, num := some x.num, gid := x.gid, isMax := x.isMax, ty := x.ty, words := x.words, size := x.size, die := die
        present := [], seen := [], closed := false }
    modGlaze fun g => { g with redus := TMap.put g.redus id r }
    return (id, r)

/-- A leaf hands in what it read; none: absent. -/
def contribute (x : NRed) (vals : Option (List Nat)) (onTime : Bool) : M s0 Unit := do
  let (id, r) ← reduFor x
  if r.seen.contains x.member then discardContribution x
  else
    let r := { r with seen := r.seen ++ [x.member] }
    let ok := r.agrees x
    if !ok then discardContribution x
    let con : Option Contrib := if ok then vals.map fun v => { member := x.member, vals := v } else none
    let onTime := onTime && !r.closed
    let r := match con with
      | some c => if onTime then { r with present := r.present ++ [c] } else r
      | none => r
    modGlaze fun g => { g with redus := TMap.put g.redus id r }
    match con with
    | some c =>
      if !onTime then
        let n ← freshSeq
        modGlaze fun g => { g with lates := TMap.put g.lates n { by_ := x.by_, words := x.words, con := c } }
    | none => pure ()
    if !r.closed then
      if r.present.length = r.size then closeRedu id []
      -- every member has reported, one of them as absent: whether the tree waits for the deadline is open
      else if r.seen.length = r.size then
        let i ← choose 2
        if i = 1 then closeRedu id []

/-- NRED_SOURCE_READ (R284, R288). -/
def nredSourceReadBody (id : Nat) (lost : List Faulted) : M s0 Unit := do
  let s ← st
  match TMap.find s.glaze.nreds id with
  | none => notEnabled "NRED_SOURCE_READ"
  | some x =>
    actFor x.by_
    let n := descCount x.words
    let (pieces, bad) ← readPieces (glazeReq x.by_) (glazeAgent x.by_) x.src (n * (x.ty.bits / 8))
    let bad := bad ++ lost
    modGlaze fun g => { g with nreds := TMap.del g.nreds id }
    pendFaults x.by_ bad
    glazeSignal x.by_
    let dl := wordAt x.words 4
    contribute x (if bad.isEmpty then some (leafVals x.ty n (pieces.flatMap (·.2))) else none)
      (dl == BitVec.allOnes 64 || decide (s.time < dl.toNat))

def execNredSourceRead (id : Nat) (s : State) : Outcome := run s (nredSourceReadBody id [])

/-- REDUCTION_DEADLINE (R282). -/
def reductionDeadlineBody (id : Nat) : M s0 Unit := do
  let s ← st
  match TMap.find s.glaze.redus id with
  | none => notEnabled "REDUCTION_DEADLINE"
  | some r =>
    let dl := wordAt r.words 4
    require "REDUCTION_DEADLINE" (!r.closed && dl != BitVec.allOnes 64 && decide (dl.toNat ≤ s.time))
    closeRedu id []

def execReductionDeadline (seq : Nat) (s : State) : Outcome := run s (reductionDeadlineBody seq)

/-- Size of a correction slot (R286). -/
def slotSize (count : Nat) : Nat := 64 + 64 * ((count + 15) / 16)

/-- LATE_CONTRIBUTION (R286). -/
def lateContributionBody (id : Nat) (lost : List Faulted) : M s0 Unit := do
  let s ← st
  match TMap.find s.glaze.lates id with
  | none => notEnabled "LATE_CONTRIBUTION"
  | some x =>
    actFor x.by_
    let q := glazeReq x.by_
    let agent := glazeAgent x.by_
    let at_ := wordAt x.words 1 + wordOf (x.con.member * slotSize (descCount x.words))
    let w0 := field (wordAt x.words 5) 0 32 * 2 ^ 32 + 2 ^ 31 + x.con.member
    let fs ← writeLost lost q agent (at_ + 64) 4 (x.con.vals.flatMap fun v => natBytes 4 v) at_ 8
      (wordsBytes [wordOf w0, s.timeW])
    match ← pickFault fs with
    | some (c, a) => logEvent q.die .fault ((x.by_.err.map (·.2.2)).getD 0) agent a (causeWord c)
    | none => pure ()
    modGlaze fun g => { g with lates := TMap.del g.lates id }
    signalLater x.by_ false q.die agent
      { ref := wordAt x.words 3, gen := (wordAt x.words 5).extractLsb' 32 16, inc := 1, scope := .system }

def execLateContribution (id : Nat) (s : State) : Outcome := run s (lateContributionBody id [])

/-! ### NCORR (R289) -/

def ncorrBody (scale : Bool) (d : XReg) (sy : Sync) (ws : List Word) : M s0 Fin := do
  let is ← issuer sy
  engineAcquire (glazeAgent is) sy.scope
  let id ← freshSeq
  modGlaze fun g => { g with ncorrs := TMap.put g.ncorrs id { by_ := is, scale := scale, d := d, words := ws } }
  return .next

/-- The descriptor of an NCORR. -/
def ncorrEarly (a : XReg) : M s0 (List Word) := do
  let c ← myCtx
  reduDesc (c.r.getX a)

def execNcorrApply (d a : XReg) (sy : Sync) (s : State) : Outcome :=
  strandStepE s sy true true (pure ()) (ncorrEarly a) (ncorrBody false d sy)
def execNcorrScale (d a : XReg) (sy : Sync) (s : State) : Outcome :=
  strandStepE s sy true true (pure ()) (ncorrEarly a) (ncorrBody true d sy)

/-- A result as NCORR reads it. -/
structure Result where
  present : Nat
  w16 : Word
  w18 : Word
  vals : List Nat

def Result.npres (r : Result) : Nat := field r.w16 0 11
def Result.ntotal (r : Result) : Nat := field r.w16 11 11
def Result.scaled (r : Result) : Bool := r.w16.getLsbD 31
def Result.isMax (r : Result) : Bool := r.w18.getLsbD 0
def Result.ty (r : Result) : Ty := if field r.w18 4 4 = 2 then .i32 else .f32

def Result.setFlags (r : Result) (f : Flags) : Result := { r with w16 := r.w16 ||| (f.zeroExtend 64 <<< 22) }

/-- A correction slot's elements join the result. -/
def Result.apply (r : Result) (c : Nat) (vals : List Nat) : Result :=
  let l : List (Nat × Flags) := (r.vals.zip vals).map fun p => reduOp r.isMax r.ty p.1 p.2
  let r1 : Result := { r with present := r.present ||| 2 ^ c, w16 := r.w16 + 1, vals := l.map fun p => p.1 }
  r1.setFlags (l.foldl (fun f p => f ||| p.2) 0)

/-- The scaled result. -/
def Result.scale (r : Result) : Result :=
  let n := (r.ntotal : Int)
  let p := (r.npres : Int)
  let (f, ff) := Fmt.f32.deliver .rne (FV.div (FV.fin false r.ntotal 0) (FV.fin false r.npres 0)).1 0
  let l : List (Nat × Flags) := r.vals.map fun v =>
    if r.ty = .i32 then
      let (u, sat) := saturate true 32 ((sextInt v 32 * n).tdiv p)
      (u, Flags.invalid sat)
    else fMul Fmt.f32 .rne v f
  let fl := l.foldl (fun g p => g ||| p.2) (if r.ty = .i32 then 0 else ff)
  let r1 : Result := { r with w16 := r.w16 ||| 0x80000000, vals := l.map fun p => p.1 }
  r1.setFlags fl

/-- Every correction that is valid and not yet applied; the faults of the reads. -/
def applyCorrections (x : NCorr) (r0 : Result) : M s0 (Result × Nat × List Faulted) := do
  let q := glazeReq x.by_
  let agent := glazeAgent x.by_
  let count := descCount x.words
  let mut r := r0
  let mut n := 0
  let mut bad : List Faulted := []
  for c in List.range r0.ntotal do
    if !r0.present.testBit c then
      let at_ := wordAt x.words 1 + wordOf (c * slotSize count)
      match ← readWord q agent at_ with
      | .error f => bad := bad ++ [f]
      | .ok w =>
        if w.getLsbD 31 && field w 32 32 == field (wordAt x.words 5) 0 32 then
          let (pieces, fs) ← readPieces q agent (at_ + 64) (4 * count)
          if fs.isEmpty then
            r := r.apply c (leafVals .i32 count (pieces.flatMap (·.2)))
            n := n + 1
          bad := bad ++ fs
  return (r, n, bad)

/-- The result goes back: PRESENT, W16 and the elements. -/
def writeResult (x : NCorr) (r : Result) (lost : List Faulted) : M s0 (List Faulted) := do
  let q := glazeReq x.by_
  let agent := glazeAgent x.by_
  let dest := wordAt x.words 0
  writeLost lost q agent dest 8 (natBytes 128 r.present ++ natBytes 8 r.w16.toNat) (dest + 256) 4
    (r.vals.flatMap fun v => natBytes 4 v)

/-- What an NCORR does; the applied count, open where its reads or writes fault. -/
def ncorrEffect (x : NCorr) (lost : List Faulted) : M s0 (Word × List Faulted) := do
  let q := glazeReq x.by_
  let dest := wordAt x.words 0
  let count := descCount x.words
  let (head, b1) ← readPieces q (glazeAgent x.by_) dest 256
  let (data, b2) ← readPieces q (glazeAgent x.by_) (dest + 256) (4 * count)
  if !(b1 ++ b2).isEmpty then
    let v ← openWord
    return (v, b1 ++ b2 ++ lost)
  else
    let h := head.flatMap (·.2)
    let r : Result :=
      { present := bytesNat (h.take 128), w16 := bytesWord ((h.drop 128).take 8), w18 := bytesWord ((h.drop 144).take 8)
        vals := leafVals .i32 count (data.flatMap (·.2)) }
    if r.scaled then return (0, lost)
    else if x.scale then
      if !r.isMax && r.npres != 0 then
        let bad ← writeResult x r.scale lost
        return (0, bad)
      else return (0, lost)
    else
      let (r1, n, bad) ← applyCorrections x r
      let bad2 ← if n = 0 then pure lost else writeResult x r1 lost
      let v ← if (bad ++ bad2).isEmpty then pure (wordOf n) else openWord
      return (v, bad ++ bad2)

/-- NCORR_COMPLETE: the result's writes and xD, then the signal (R289). -/
def ncorrCompleteBody (id : Nat) (lost : List Faulted) : M s0 Unit := do
  let s ← st
  match TMap.find s.glaze.ncorrs id with
  | none => notEnabled "NCORR_COMPLETE"
  | some x =>
    actFor x.by_
    let (v, bad) ← ncorrEffect x lost
    modGlaze fun g => { g with ncorrs := TMap.del g.ncorrs id }
    pendFaults x.by_ bad
    let s ← st
    if s.ofCtx x.by_.agent x.by_ then
      modCtx x.by_.agent fun c => c.setX x.d v
    glazeSignalLater x.by_

def execNcorrComplete (id : Nat) (s : State) : Outcome := run s (ncorrCompleteBody id [])

/-! ### NSEND (R290, R293) -/

def nsendDescOk (route : Bool) (ws : List Word) : Bool :=
  let w3 := wordAt ws 3
  (wordAt ws 0).toNat % 64 == 0 &&
  (if route then wordAt ws 2 == 0 && w3 == 0
   else field w3 13 27 == 0 && field w3 4 4 == 0 && decide (8 ≤ field w3 8 5) && decide (field w3 8 5 ≤ 24) &&
     decide (field w3 0 4 ≤ 8) && (wordAt ws 2 == 0 || field w3 40 8 != 0))

/-- NSEND in route mode outside a gang, or for a table on another device (R292). -/
def routeLegal (ws : List Word) : M s0 Unit := do
  let s ← st
  let base := wordAt ws 0
  legal (vaNode base == s.nodeId)
  match ← xlate (s.reqOf s.cur) .load base with
  | .ok (.far _) => illegal
  | _ => pure ()

/-- The descriptor of an NSEND. -/
def nsendEarly (route : Bool) (b : XReg) : M s0 (List Word) := do
  let c ← myCtx
  let ws ← readRecord (c.r.getX b) 32 32
  legal (nsendDescOk route ws)
  if route then routeLegal ws
  return ws

def nsendBody (route : Bool) (a : XReg) (sy : Sync) (ws : List Word) : M s0 Fin := do
  let c ← myCtx
  let is ← issuer sy
  engineAcquire (glazeAgent is) sy.scope
  let id ← freshSeq
  let x : NSend := { by_ := is, route := route, src := c.r.getX a, words := ws, index := c.r.index }
  modGlaze fun g => { g with nsends := TMap.put g.nsends id x }
  return .next

def execNsend (a b : XReg) (sy : Sync) (s : State) : Outcome :=
  strandStepE s sy true true (pure ()) (nsendEarly false b) (nsendBody false a sy)

def execNsendRoute (a b : XReg) (sy : Sync) (s : State) : Outcome :=
  strandStepE s sy true true
    (do
      let c ← myCtx
      legal c.gang.isSome)
    (nsendEarly true b) (nsendBody true a sy)

/-- Word 1 of a block or a record: sr.node, FAULT, INDEX, and a length for a message. -/
def State.senderWord (s : State) (fault : Bool) (bytes : Nat) (index : BitVec 32) : Word :=
  wordOf (s.nodeId.toNat * 2 ^ 56 + (if fault then 2 ^ 48 else 0) + bytes * 2 ^ 32 + index.toNat)

/-- The payload goes out. After a fault each byte of the destination is the old one or the payload's. -/
def sendPayload (lost : List Faulted) (q : Req) (agent : Nat) (src dst : Word) (n : Nat) : M s0 (List Faulted) := do
  let (pieces, bad) ← readPieces q agent src n
  let bad := bad ++ lost
  if bad.isEmpty then writeElems q agent dst 1 (pieces.flatMap (·.2))
  else
    let mask ← openNat
    for (off, bs) in pieces do
      for (b, i) in bs.zipIdx do
        if mask.testBit (off + i) then
          let _ ← writeRange q agent (dst + wordOf (off + i)) [b]
          pure ()
    return bad

/-- A plain block (R290). After a fault words 0 and 1 are written; whether words 2 to 7 are is open. -/
def plainSend (x : NSend) (lost : List Faulted) : M s0 Unit := do
  let s ← st
  let q := glazeReq x.by_
  let agent := glazeAgent x.by_
  let w3 := wordAt x.words 3
  let step := field (wordAt x.words 1) 32 32
  let bytes := field (wordAt x.words 1) 0 32
  let slot := wordAt x.words 0 + wordOf (step % 2 ^ field w3 0 4 * 2 ^ field w3 8 5)
  let f1 ← sendPayload lost q agent x.src (slot + 64) (min bytes (2 ^ field w3 8 5 - 64))
  let n ← if f1.isEmpty then pure 6 else choose 7
  let f2 ← writeElems q agent slot 8
    (wordsBytes ([wordAt x.words 1, s.senderWord (!f1.isEmpty) 0 x.index] ++ List.replicate n 0))
  pendFaults x.by_ (f1 ++ f2)
  if wordAt x.words 2 ≠ 0 then
    signalLater x.by_ true q.die agent
      { ref := wordAt x.words 2, gen := w3.extractLsb' 48 16, inc := field w3 40 8, scope := x.by_.scope }
  glazeSignalLater x.by_

/-- The next token record of a route-mode payload: its table, its bytes, the bytes left; none, or a fault. -/
def nextToken (x : NSend) (at_ : Word) (left : Nat) : M s0 (Except Faulted (Option (Word × List Byte))) := do
  let q := glazeReq x.by_
  let agent := glazeAgent x.by_
  if left < 64 then return .ok none
  else
    match ← readWord q agent at_ with
    | .error f => return .error f
    | .ok w =>
      let table := wordAt x.words 0 + wordOf (320 * field w 32 8)
      match ← readWord q agent table with
      | .error f => return .error f
      | .ok h =>
        let n := 64 + field h 32 32
        if left < n then return .ok none
        else
          match ← readRange q agent at_ n with
          | .error f => return .error f
          | .ok g => match g.poison with
            | some a => return .error (.poison, a)
            | none => return .ok (some (table, g.bytes))

/-- Records of a payload, as far as they are read in full. -/
def readTokens (x : NSend) : Nat → Word → Nat → M s0 (List (Word × List Byte) × List Faulted)
  | 0, _, _ => pure ([], [])
  | n + 1, at_, left => do
    match ← nextToken x at_ left with
    | .error f => return ([], [f])
    | .ok none => return ([], [])
    | .ok (some (table, bs)) =>
      let (l, f) ← readTokens x n (at_ + wordOf bs.length) (left - bs.length)
      return ((table, bs) :: l, f)

/-- Records go to the ingress of the palette die that owns the page of DBASE (R293); of a failing datapath some first ones do. -/
def routeSend (x : NSend) (lost : List Faulted) : M s0 Unit := do
  let bytes := field (wordAt x.words 1) 0 32
  let (all, bad) ← readTokens x (bytes / 64) x.src bytes
  let n ← if lost.isEmpty then pure all.length else choose (all.length + 1)
  let l := all.take n
  let bad := bad ++ lost
  match ← xlate (glazeReq x.by_) .load (wordAt x.words 0) with
  | .ok (.phys pa) =>
    for (table, bs) in l do
      let id ← freshSeq
      let t : Token :=
        { launch := x.by_.launch.getD 0, base := wordAt x.words 0, table := table, asid := x.by_.asid, agent := x.by_.agent, die := paDie pa
          sender := x.index, bytes := bs, staged := false }
      modGlaze fun g => { g with tokens := TMap.put g.tokens id t }
    pendFaults x.by_ bad
  | .ok (.far _) => pendFaults x.by_ (bad ++ [(Cause.xlate, wordAt x.words 0)])
  | .error c => pendFaults x.by_ (bad ++ [(c, wordAt x.words 0)])

/-- NSEND_COMPLETE: the SIGREF add and the completion signal of a plain block follow its writes as adds of their own; a routed one
completes when the ingress has its records (R290, R448). -/
def nsendCompleteBody (id : Nat) (lost : List Faulted) : M s0 Unit := do
  let s ← st
  match TMap.find s.glaze.nsends id with
  | none => notEnabled "NSEND_COMPLETE"
  | some x =>
    actFor x.by_
    modGlaze fun g => { g with nsends := TMap.del g.nsends id }
    if x.route then
      routeSend x lost
      glazeSignal x.by_
    else plainSend x lost

def execNsendComplete (id : Nat) (s : State) : Outcome := run s (nsendCompleteBody id [])

/-- The launch's ingress units know the table set of a record, with so many tables (R293, R294). -/
def Launch.withRoute (l : Launch) (t : Token) : Launch :=
  let groups := (t.table - t.base).toNat / 320 + 1
  let its (r : RouteSet) : Bool := r.die == t.die && r.base == t.base && r.asid == t.asid
  if l.routes.any its then
    { l with routes := l.routes.map fun r => if its r then { r with groups := max r.groups groups, used := true } else r }
  else { l with routes := l.routes ++ [{ die := t.die, base := t.base, asid := t.asid, groups := groups, used := true }] }

def noteRoute (t : Token) : M s0 Unit := do
  let s ← st
  match TMap.find s.launches t.launch with
  | some l => upd (.launch t.launch (l.withRoute t))
  | none => pure ()

/-- ROUTE_STAGE: the record is staged, or dropped when NSTAGE records of its table are (R293). -/
def routeStageBody (id : Nat) : M s0 Unit := do
  let s ← st
  match TMap.find s.glaze.tokens id with
  | none => notEnabled "ROUTE_STAGE"
  | some t =>
    require "ROUTE_STAGE" (!t.staged)
    actIngress t.launch
    noteRoute t
    let q : Req := { die := t.die, asid := t.asid, user := false, master := masterGlaze t.die }
    let agent := 25472 + t.die
    let n := (s.glaze.tokens.filter fun p =>
      p.2.staged && p.2.launch == t.launch && p.2.table == t.table && p.2.die == t.die).length
    match ← readWords q agent t.table 5 with
    | .error (c, a) =>
      modGlaze fun g => { g with tokens := TMap.del g.tokens id }
      logEvent t.die .fault 0 agent a (causeWord c)
    | .ok ws =>
      if n < field (wordAt ws 4) 0 32 then
        glazeWrite q agent (wordAt ws 3 + wordOf (n * t.bytes.length)) t.bytes
        modGlaze fun g => { g with tokens := TMap.put g.tokens id { t with staged := true } }
      else
        modGlaze fun g => { g with tokens := TMap.del g.tokens id }
        glazeWrite q agent (t.table + 36) (natBytes 4 (field (wordAt ws 4) 32 32 + 1))
    gangCheck t.launch

def execRouteStage (id : Nat) (s : State) : Outcome := run s (routeStageBody id)

/-! ### MSG (R442 to R446) -/

def ringDescOk (ws : List Word) (bytes : Nat) : Bool :=
  let w4 := wordAt ws 4
  let rec_ := field w4 8 4
  field w4 12 36 == 0 && field w4 4 4 == 0 && wordAt ws 5 == 0 && wordAt ws 6 == 0 && wordAt ws 7 == 0 &&
  decide (6 ≤ rec_) && decide (rec_ ≤ 12) && decide (1 ≤ field w4 0 4) && (wordAt ws 0).toNat % 2 ^ rec_ == 0 &&
  decide (bytes + 16 ≤ 2 ^ rec_) && !isLocalRef (wordAt ws 1)

/-- The message leaves; the context is WAITING until its xD is written. -/
def sendMsg (m : Msg) : M s0 Fin := do
  let id ← freshSeq
  modGlaze fun g => { g with msgs := TMap.put g.msgs id m }
  return .message id

/-- The ticket of an append (R444); a TAKE that names no counter is a pending error. -/
def appendTicket (b : Issuer) (take : Word) : M s0 (Option Nat) := do
  match ← resolveRef (glazeReq b) { rd := true, wr := true } take with
  | .error c =>
    enginePend b c take
    return none
  | .ok k =>
    let s ← st
    let r ← addAt k 1 none take (s.engineAdder b (glazeAgent b))
    return some r.old.toNat

/-- The length of an append, X(C). -/
def msgAppPre (c : XReg) : M s0 Unit := do
  let x ← myCtx
  legal (decide ((x.r.getX c).toNat < 65536))

/-- The ring descriptor of an append. -/
def msgAppEarly (b c : XReg) : M s0 (List Word) := do
  let x ← myCtx
  let ws ← readRecord (x.r.getX b) 64 64
  legal (ringDescOk ws (x.r.getX c).toNat)
  return ws

def msgAppBody (d a c : XReg) (sy : Sync) (ws : List Word) : M s0 Fin := do
  let x ← myCtx
  let n := (x.r.getX c).toNat
  let is ← issuer sy
  engineAcquire (glazeAgent is) sy.scope
  let t ← appendTicket is (wordAt ws 1)
  sendMsg { by_ := is, tag := none, d := d, words := ws, src := x.r.getX a, bytes := n, ticket := t, written := false
            index := x.r.index }

def execMsgApp (d a b c : XReg) (sy : Sync) (s : State) : Outcome :=
  strandStepE s sy true true (msgAppPre c) (msgAppEarly b c) (msgAppBody d a c sy)

/-- NODE and length of a tagged message, X(C). -/
def msgTagPre (c : XReg) : M s0 Unit := do
  let x ← myCtx
  legal (field (x.r.getX c) 16 40 == 0)

def msgTagBody (d a b c : XReg) (sy : Sync) : M s0 Fin := do
  let x ← myCtx
  let w := x.r.getX c
  let is ← issuer sy
  engineAcquire (glazeAgent is) sy.scope
  sendMsg
    { by_ := is, tag := some (x.r.getX b, vaNode w), d := d, words := [], src := x.r.getX a, bytes := field w 0 16
      ticket := none, written := false, index := x.r.index }

def execMsgTag (d a b c : XReg) (sy : Sync) (s : State) : Outcome :=
  strandStep s sy true true (msgTagPre c) (msgTagBody d a b c sy)

/-- The record of an append, once FREE allows. -/
def appendMessage (m : Msg) (t : Nat) (lost : List Faulted) : M s0 Unit := do
  let q := glazeReq m.by_
  let agent := glazeAgent m.by_
  let w4 := wordAt m.words 4
  match ← resolveRef q { rd := true, wr := false } (wordAt m.words 2) with
  | .error _ => notEnabled "MSG_APPEND_COMPLETE"
  | .ok k =>
    let s ← st
    require "MSG_APPEND_COMPLETE" (decide (t + 1 ≤ (s.ctrV k).toNat + 2 ^ field w4 0 4))
    let rec_ := wordAt m.words 0 + wordOf (t % 2 ^ field w4 0 4 * 2 ^ field w4 8 4)
    let f1 ← sendPayload lost q agent m.src (rec_ + 16) m.bytes
    let f2 ← writeElems q agent (rec_ + 8) 8 (natBytes 8 (s.senderWord (!f1.isEmpty) m.bytes m.index).toNat)
    let f3 ← writeElems q agent rec_ 8 (natBytes 8 (t + 1))
    pendFaults m.by_ (f1 ++ f2 ++ f3)

/-- The POSTED add of an append. -/
def postMessage (m : Msg) : M s0 Unit :=
  engineSignal m.by_ (glazeReq m.by_) (glazeAgent m.by_)
    { ref := wordAt m.words 3, gen := (wordAt m.words 4).extractLsb' 48 16, inc := 1, scope := .system }

/-- The status of a tagged message (R445). Another device's answer is open. -/
def tagMessage (m : Msg) (tag : Word) (node : BitVec 8) (lost : List Faulted) : M s0 Word := do
  let s ← st
  let q := glazeReq m.by_
  let (pieces, bad) ← readPieces q (glazeAgent m.by_) m.src m.bytes
  if !(bad ++ lost).isEmpty then
    pendFaults m.by_ (bad ++ lost)
    return 2
  else
    let r ← if node = s.nodeId then do
        let die ← choose 8
        taggedBody "MSG_APPEND_COMPLETE" die (masterGlaze q.die) m.by_.asid tag (pieces.flatMap (·.2))
      else do
        let i ← choose 3
        pure (if i = 2 then 3 else i)
    if r = 3 then enginePend m.by_ .xlate m.src
    return wordOf r

/-- The end of a MSG of either form: xD is written, then the signal, and the context goes on (R446). -/
def endMsg (id : Nat) (m : Msg) (v : Word) : M s0 Unit := do
  modGlaze fun g => { g with msgs := TMap.del g.msgs id }
  let a := m.by_.agent
  let s ← st
  if s.ofCtx a m.by_ then
    modCtx a fun c => c.setX m.d v
    if (s.ctx a).wait.any fun w => w.kind == .msg id then wakeCtx a none
  glazeSignal m.by_

/-- MSG_APPEND_COMPLETE: an append writes its record; when it comes again it adds POSTED and ends (R186, R444). A tagged message is
answered (R445). -/
def msgAppendCompleteBody (id : Nat) (lost : List Faulted) : M s0 Unit := do
  let s ← st
  match TMap.find s.glaze.msgs id with
  | none => notEnabled "MSG_APPEND_COMPLETE"
  | some m =>
    actFor m.by_
    match m.tag, m.ticket with
    | some (tag, node), _ =>
      let v ← tagMessage m tag node lost
      endMsg id m v
    | none, some t =>
      if m.written then
        postMessage m
        endMsg id m (wordOf t)
      else
        appendMessage m t lost
        modGlaze fun g => { g with msgs := TMap.put g.msgs id { m with written := true } }
    | none, none =>
      let v ← openWord
      endMsg id m v

def execMsgAppendComplete (id : Nat) (s : State) : Outcome := run s (msgAppendCompleteBody id [])

/-! ### A failing Glaze datapath (R360) -/

/-- The operations that a die's node has under way. -/
def glazeOps (s : State) (die : Nat) : List (List Faulted → M s0 Unit) :=
  let mine (b : Issuer) : Bool := dieOf b.agent == die
  (s.glaze.nreds.filter fun p => mine p.2.by_).map (fun p => nredSourceReadBody p.1) ++
  (s.glaze.redus.filter fun p => p.2.die == die && !p.2.closed).map (fun p => closeRedu p.1) ++
  (s.glaze.lates.filter fun p => mine p.2.by_).map (fun p => lateContributionBody p.1) ++
  (s.glaze.nsends.filter fun p => mine p.2.by_).map (fun p => nsendCompleteBody p.1) ++
  (s.glaze.ncorrs.filter fun p => mine p.2.by_).map (fun p => ncorrCompleteBody p.1) ++
  (s.glaze.msgs.filter fun p => mine p.2.by_ && !p.2.written).map fun p => msgAppendCompleteBody p.1

/-- One of them ends with POISON, and signals; where is open. -/
def failGlaze (die : Nat) : M s0 Unit := do
  let s ← st
  let ops : List (List Faulted → M s0 Unit) := glazeOps s die
  let i ← if ops.length ≤ 1 then pure 0 else choose ops.length
  match ops[i]? with
  | some f =>
    let a ← openWord
    f [(.poison, a)]
  | none => notEnabled "CHECKER_MISMATCH"

end Sys2Proof.Machine
end

