-- ==== Sys2Proof/Machine/Matrix.lean ====
section
/-! DEFINITION. The arithmetic of the Fresco engine: formats, plane rows, MX blocks, the column sum, the microprogram (R115 to
R118, R128, R129, R235 to R237, R242 to R251). -/

namespace Sys2Proof.Machine

open Sys2Proof

/-! ### Formats by code (R235) -/

/-- The floating-point format of the elements of a code; none: integers. i4x rows and banks hold e4m3 codes. -/
def planeFmt (code : Nat) : Option Fmt :=
  match code with
  | 0 => some Fmt.bf16 | 1 => some Fmt.f16 | 2 => some Fmt.e4m3 | 3 => some Fmt.e5m2 | 4 => some Fmt.e4m3
  | 5 => some Fmt.e5m2 | 6 => some Fmt.e3m2 | 7 => some Fmt.e2m3 | 8 => some Fmt.e2m1 | 12 => some Fmt.e4m3
  | _ => none

/-- E, the exponent planes. -/
def planeE (code : Nat) : Nat := match planeFmt code with | some f => f.ebits | none => 0

/-- S, the significand planes. -/
def planeS (code : Nat) : Nat := match planeFmt code with | some f => f.fbits + 1 | none => if code = 11 then 4 else 8

/-- X: the format has a scale plane. -/
def planeX (code : Nat) : Bool := (4 ≤ code && code ≤ 8) || code == 10 || code == 12

/-- Planes of a row without the scale plane. -/
def planeCount (code : Nat) : Nat := 1 + planeE code + planeS code

def rowBytes (code : Nat) : Nat := 32 * (planeCount code + (if planeX code then 1 else 0))

/-- Bits of an element in memory. -/
def elemWidth (code : Nat) : Nat :=
  match code with
  | 0 | 1 => 16 | 6 | 7 => 6 | 8 | 11 | 12 => 4 | 13 | 14 => 32 | _ => 8

/-- A finite number times 2^k. -/
def FV.scale (v : FV) (k : Int) : FV :=
  match v with
  | .fin n m e => .fin n m (e + k)
  | v => v

/-- The value of an element under an E8M0 scale (R116). -/
def FV.underScale (v : FV) (scale : Nat) : FV := if scale = 0xFF then .nan false else v.scale ((scale : Int) - 127)

def FV.ofInt (v : Int) : FV := .fin (decide (v < 0)) v.natAbs 0

/-- The value of an element code, before its scale (R111, R114). -/
def codeVal (code w : Nat) : FV :=
  match planeFmt code with
  | some f => f.decode w
  | none =>
    if code = 10 then (FV.ofInt (sextInt w 8)).scale (-6)
    else FV.ofInt (sextInt w (if code = 11 then 4 else 8))

/-! ### Plane rows (R236, R237) -/

/-- Bits q0 to q0 + n - 1 of element i of a row, the first plane's most significant. -/
def planeField (row q0 n i : Nat) : Nat :=
  (List.range n).foldl (fun v j => 2 * v + (if row.testBit (256 * (q0 + j) + i) then 1 else 0)) 0

/-- The scale byte that covers element i. -/
def planeScale (code row i : Nat) : Nat := row / 2 ^ (256 * planeCount code + 8 * (i / 32)) % 256

/-- Element i of a plane row, whose bytes are the number `row`, at precision P (R237). -/
def planeElem (code p row i : Nat) : FV :=
  let ee := planeE code
  let ss := planeS code
  let neg := row.testBit i
  let e := planeField row 1 ee i
  let m := planeField row (1 + ee) ss i
  let mp := m - m % 2 ^ (ss - p)
  let after := m % 2 ^ (ss - 1)
  let v : FV :=
    match planeFmt code with
    | none => .fin neg mp (if code = 10 then -6 else 0)
    | some f =>
      if f.top = .ieee ∧ e = f.maxE then
        (if after = 0 then .inf neg else .nan (decide (after < 2 ^ (ss - 2))))
      else if f.top = .oneNan ∧ e = f.maxE ∧ after = 2 ^ f.fbits - 1 then .nan false
      else .fin neg mp ((max e 1 : Nat) - (f.bias : Int) - f.fbits)
  if planeX code then v.underScale (planeScale code row i) else v

/-- Plane q of an element code: sign, exponent field, significand with its leading bit, or magnitude (R236). -/
def codePlane (code w q : Nat) : Bool :=
  let ee := planeE code
  let ss := planeS code
  match planeFmt code with
  | some f =>
    let frac := w % 2 ^ f.fbits
    let e := w / 2 ^ f.fbits % 2 ^ ee
    let sig := if e = 0 then frac else 2 ^ f.fbits + frac
    if q = 0 then w.testBit (ee + f.fbits) else if q ≤ ee then e.testBit (ee - q) else sig.testBit (ss + ee - q)
  | none =>
    let v := sextInt w (if code = 11 then 4 else 8)
    if q = 0 then decide (v < 0) else v.natAbs.testBit (ss - q)

/-- The plane bytes of a row of element codes, without its scale plane. -/
def planesOf (code : Nat) (ws : List Nat) : List Byte :=
  (List.range (planeCount code)).flatMap fun q =>
    (List.range 32).map fun b =>
      BitVec.ofNat 8 (((List.range 8).map fun j => if codePlane code (ws.getD (8 * b + j) 0) q then 2 ^ j else 0).sum)

/-! ### I4X (R118) -/

/-- The e4m3 code of position e among packed 4-bit codes, and whether it is a format error. -/
def i4xCode (nib : Nat → Nat) (e : Nat) : Nat × Bool :=
  let c := nib e
  let even := e / 2 * 2
  if e % 2 = 0 ∧ c = 8 then (nib (e + 1) * 16 + 8, false)
  else if e % 2 = 1 ∧ nib even = 8 then (0, false)
  else if c = 8 then (0, true)
  else
    let v := sextInt c 4
    ((Fmt.e4m3.round .rne 0 (decide (v < 0)) v.natAbs 0).1, false)

/-! ### MX blocks (R117) -/

/-- Exp(t): the exponent of a nonzero magnitude (R129). -/
def expOf (m : Nat) (e : Int) : Int := (bitLen m : Int) - 1 + e

def mxEmax (code : Nat) : Int :=
  match code with
  | 4 => 8 | 5 => 15 | 6 => 4 | 7 => 2 | 8 => 2 | _ => 0

/-- Exponents of the nonzero finite numbers of a list. -/
def exponents (vs : List FV) : List Int :=
  vs.filterMap fun v => match v with
    | .fin _ m e => if m = 0 then none else some (expOf m e)
    | _ => none

def maxInt : List Int → Option Int
  | [] => none
  | x :: l => match maxInt l with
    | none => some x
    | some y => some (max x y)

/-- One element of a block under 2^X: saturation raises NX alone; MXINT8 saturates to -127 and +127. -/
def mxElem (code : Nat) (r : Rnd) (x : Int) (v : FV) : Nat × Flags :=
  match v with
  | .fin neg m e =>
    match planeFmt code with
    | some f =>
      let (c, fl) := f.round r 0 neg m (e - x)
      if fl &&& Flags.of != 0 then (f.signBit neg + f.maxCode, Flags.nx) else (c, fl)
    | none =>
      let (t, inexact) := roundAt r neg m (e - x + 6) 0 0
      let u := min t 127
      (((if neg then -(u : Int) else u) % 256).toNat, Flags.inexact (inexact || decide (127 < t)))
  | _ => (0, 0)

/-- The scale and the element codes of 32 values, with the flags. -/
def mxBlock (code : Nat) (r : Rnd) (vs : List FV) : Nat × List Nat × Flags :=
  if vs.any fun v => match v with | .fin _ _ _ => false | _ => true then (0xFF, vs.map fun _ => 0, Flags.nv)
  else
    match maxInt (exponents vs) with
    | none => (0, vs.map fun _ => 0, 0)
    | some e =>
      let x := max (-127) (min 127 (e - mxEmax code))
      let cs := vs.map (mxElem code r x)
      ((x + 127).toNat, cs.map (·.1), cs.foldl (fun a c => a ||| c.2) 0)

/-! ### The column sum (R128, R129) -/

/-- TruncTo: the signed multiple of 2^q, and whether a bit was discarded. -/
def truncTo (neg : Bool) (m : Nat) (e q : Int) : Int × Bool :=
  let (t, lost) : Nat × Bool :=
    if q ≤ e then (m * 2 ^ (e - q).toNat, false) else (m / 2 ^ (q - e).toNat, m % 2 ^ (q - e).toNat != 0)
  (if neg then -(t : Int) else t, lost)

/-- Trunc40. -/
def trunc40 (s : Int) (q : Int) : FV × Flags :=
  let m := s.natAbs
  let neg := decide (s < 0)
  if m = 0 then (.fin false 0 0, 0)
  else
    let drop := bitLen m - 40
    let fl := Flags.inexact (m % 2 ^ drop != 0)
    let e := expOf m q
    if 511 < e then (.inf neg, fl ||| Flags.of)
    else if e < -512 then (.fin false 0 0, fl ||| Flags.uf)
    else (.fin neg (m / 2 ^ drop) (q + drop), fl)

/-- One group of R129: the carry and up to 16 products. -/
def groupSum (ts : List FV) : FV × Flags :=
  let pos := ts.any fun t => t == .inf false
  let neg := ts.any fun t => t == .inf true
  if ts.any FV.isNan then (.nan false, Flags.invalid (pos && neg))
  else if pos && neg then (.nan false, Flags.nv)
  else if pos then (.inf false, 0)
  else if neg then (.inf true, 0)
  else
    match maxInt (exponents ts) with
    | none => (.fin false 0 0, 0)
    | some emax =>
      let q := emax - 42
      let parts := ts.map fun t => match t with | .fin n m e => truncTo n m e q | _ => (0, false)
      let (v, fl) := trunc40 ((parts.map (·.1)).sum) q
      (v, fl ||| Flags.inexact (parts.any (·.2)))

/-- The groups of 16 terms, `n` at most. -/
def groupSums : Nat → FV → List FV → FV × Flags
  | 0, c, _ => (c, 0)
  | n + 1, c, ts =>
    let (v, f1) := groupSum (c :: ts.take 16)
    let (w, f2) := groupSums n v (ts.drop 16)
    (w, f1 ||| f2)

/-- The value of a tile element. -/
def tileVal (int : Bool) (w : BitVec 32) : FV := if int then FV.ofInt w.toInt else Fmt.f32.decode w.toNat

/-- Widen (R129): W has no zero but +0 (R128). -/
def widen (int : Bool) (w : BitVec 32) : FV :=
  match tileVal int w with
  | .fin neg m e => .fin (neg && m != 0) m e
  | v => v

/-- Narrow (R129). -/
def narrow (int : Bool) (v : FV) : BitVec 32 × Flags :=
  let (c, fl) := if int then fToInt .rne 0 true 32 v else fvToFmt Fmt.f32 .rne 0 v
  (BitVec.ofNat 32 c, fl)

/-- SU of a result (R244): its exponent exceeds every bound that the operands allow. -/
def suspicious (acc : FV) (as ws : List FV) (r : FV) : Bool :=
  let b0 := match maxInt (exponents as), maxInt (exponents ws) with
    | some x, some y => [x + y + 9]
    | _, _ => []
  match maxInt (b0 ++ (exponents [acc]).map (· + 1)), exponents [r] with
  | some b, [e] => decide (b < e)
  | none, [_] => true
  | _, _ => false

/-- Column (R129, R244): the new tile word. -/
def column (int : Bool) (acc : BitVec 32) (as ws : List FV) : BitVec 32 × Flags :=
  let a0 := widen int acc
  let prods := (as.zip ws).map fun p => FV.mul p.1 p.2
  let (v, f1) := groupSums ((prods.length + 15) / 16) a0 (prods.map (·.1))
  let (w, f2) := narrow int v
  let su := if !int && suspicious a0 as ws (Fmt.f32.decode w.toNat) then Flags.su else 0
  (w, prods.foldl (fun f p => f ||| p.2) 0 ||| f1 ||| f2 ||| su ||| snanFlags [a0])

/-- The word of a row that misses in skip mode (R242). -/
def missWord (int : Bool) (acc : BitVec 32) : BitVec 32 × Flags := narrow int (widen int acc)

/-! ### Microprogram (R250, R251) -/

/-- A micro-operation's fields. -/
def microOp (ops : Word) (j : Nat) : Nat := field ops (16 * j) 16

/-- MOP 7 or a nonzero reserved bit in an operation below COUNT. -/
def microBad (count : Nat) (ops : Word) : Bool :=
  (List.range count).any fun j => microOp ops j / 2 ^ 13 == 7 || microOp ops j % 2 ^ 8 != 0

def microAlu (mop x y : Nat) : Nat × Flags :=
  match mop with
  | 0 => fAdd Fmt.f32 .rne x y
  | 1 => fSub Fmt.f32 .rne x y
  | 2 => fMul Fmt.f32 .rne x y
  | 3 => fMinMax Fmt.f32 false x y
  | 4 => fMinMax Fmt.f32 true x y
  | 5 =>
    let a := Fmt.f32.decode x
    let b := Fmt.f32.decode y
    (if FV.lt b a then 0x3F800000 else 0, snanFlags [a, b])
  | _ => let (v, fl) := fSub Fmt.f32 .rne x y; (v % 2 ^ 31, fl)

/-- s, m and the flags of a cell. -/
structure Micro where
  s : Nat
  m : Nat
  fl : Flags

def microStep (kappa a w op : Nat) (c : Micro) : Micro :=
  let x := match op / 2 ^ 10 % 4 with | 0 => c.s | 1 => a | 2 => w | _ => c.m
  let y := match op / 2 ^ 8 % 4 with | 0 => c.s | 1 => a | 2 => w | _ => kappa
  let (v, fl) := microAlu (op / 2 ^ 13) x y
  if op.testBit 12 then { s := v, m := c.m, fl := c.fl ||| fl } else { s := c.s, m := v, fl := c.fl ||| fl }

/-- A tile word by the microprogram. -/
def microColumn (count : Nat) (ops : Word) (kappa : Nat) (acc : BitVec 32) (as ws : List FV) : BitVec 32 × Flags :=
  let c := (as.zip ws).foldl
    (fun c p =>
      let (a, f1) := fvToFmt Fmt.f32 .rne 0 p.1
      let (w, f2) := fvToFmt Fmt.f32 .rne 0 p.2
      (List.range count).foldl (fun c j => microStep kappa a w (microOp ops j) c) { c with fl := c.fl ||| f1 ||| f2 })
    ({ s := acc.toNat, m := 0, fl := 0 } : Micro)
  (BitVec.ofNat 32 c.s, c.fl)

/-! ### Drains (R248) -/

/-- A tile value converted to an element of a code that is no MX format. -/
def drainElem (code : Nat) (r : Rnd) (v : FV) : Nat × Flags :=
  match code with
  | 13 => fvToFmt Fmt.f32 r 0 v
  | 14 => fToInt r 0 true 32 v
  | 9 => fToInt r 0 true 8 v
  | 11 => fToInt r 0 true 4 v
  | _ => match planeFmt code with
    | some f => fvToFmt f r 0 v
    | none => (0, 0)

/-- The plane row of 256 values: bytes of the planes, bytes of the scale plane that are written, flags. -/
def drainRow (code : Nat) (r : Rnd) (vs : List FV) : List Byte × List Byte × Flags :=
  if planeX code then
    let bs := (List.range 8).map fun j => mxBlock code r ((vs.drop (32 * j)).take 32)
    (planesOf code (bs.flatMap fun b => b.2.1), bs.map fun b => BitVec.ofNat 8 b.1, bs.foldl (fun f b => f ||| b.2.2) 0)
  else
    let cs := vs.map (drainElem code r)
    (planesOf code (cs.map (·.1)), [], cs.foldl (fun f c => f ||| c.2) 0)

end Sys2Proof.Machine
end

