-- ==== Sys2Proof/Machine/Fresco.lean ====
section
/-! DEFINITION. The Fresco engine: the issue of its commands, their order, what each does, capabilities (R233 to R258, R440,
R441). -/

namespace Sys2Proof.Machine

open Sys2Proof

variable {s0 : State}

def modFresco (n : Nat) (f : Fresco → Fresco) : M s0 Unit := do
  let s ← st
  upd (.fresco n (f (s.fresco n)))

/-- The number under which the model keeps commands that another device's engine has admitted. -/
def foreignEngine : Nat := 192

/-! ### The scoreboard (R252) -/

inductive Res where
  | bank (b : Nat)
  | tile (t : Nat)
  | prog
  deriving DecidableEq, Repr

def Instr.frescoReads (i : Instr) : List Res :=
  match i with
  | .mmul t _ _ _ zero _ _ _ _ bm _ _ =>
    (if zero then [] else [.tile t.toNat]) ++ (((List.range 4).filter fun b => bm.getLsbD b).map Res.bank) ++ [.prog]
  | .mgrad t _ _ _ zero _ _ b _ _ _ _ => (if zero then [] else [.tile t.toNat]) ++ [.bank b.toNat]
  | .mdrain t _ _ _ _ _ _ _ _ _ _ _ => [.tile t.toNat]
  | _ => []

def Instr.frescoWrites (i : Instr) : List Res :=
  match i with
  | .mloadw b _ _ _ => [.bank b.toNat]
  | .mmul t _ _ _ _ _ _ _ _ _ _ _ => [.tile t.toNat]
  | .mgrad t _ _ _ _ _ _ _ _ _ _ _ => [.tile t.toNat]
  | .mdrain t _ _ _ _ clr _ _ _ _ _ _ => if clr then [.tile t.toNat] else []
  | .mprog _ _ _ _ _ => [.prog]
  | _ => []

def Instr.isMprog (i : Instr) : Bool := match i with | .mprog _ _ _ _ _ => true | _ => false

/-- The command writes the record that an MSTAT reads. -/
def writesRecord (sel n : Nat) (i : Instr) : Bool :=
  match i with
  | .mloadw b _ _ _ => sel == 2 && b.toNat == n % 4
  | .mmul t _ _ _ _ _ _ _ _ _ _ _ => sel ≤ 1 && t.toNat == n % 32
  | .mgrad t _ _ _ _ _ _ _ _ _ _ _ => sel ≤ 1 && t.toNat == n % 32
  | .mdrain t _ _ _ _ _ _ _ _ _ _ _ => sel ≤ 1 && t.toNat == n % 32
  | .mprog _ _ _ _ _ => sel == 3 || sel == 4
  | _ => false

/-- SEL and the number of the record that an MSTAT reads. -/
def FCmd.record (c : FCmd) : Option (Nat × Nat) :=
  match c.instr with
  | .mstat _ _ sel _ _ => some (sel.toNat, c.xa.toNat)
  | _ => none

/-- The later command waits for the earlier one; MPROG waits for every command, and every command for it. -/
def frescoConflict (earlier later : FCmd) : Bool :=
  Instr.isMprog earlier.instr || Instr.isMprog later.instr ||
  ((Instr.frescoWrites earlier.instr).any fun r =>
    (Instr.frescoReads later.instr).contains r || (Instr.frescoWrites later.instr).contains r) ||
  ((Instr.frescoReads earlier.instr).any fun r => (Instr.frescoWrites later.instr).contains r) ||
  later.record.any (fun r => writesRecord r.1 r.2 earlier.instr) ||
  earlier.record.any fun r => writesRecord r.1 r.2 later.instr

/-! ### Records (R240, R245, R246) -/

def Bank.word (b : Bank) : Word :=
  wordOf ((if b.valid then 2 ^ 63 else 0) + b.fmt.toNat * 2 ^ 48 + b.expert.toNat * 2 ^ 32 + b.gen.toNat * 2 ^ 16 +
    b.cause.toNat * 2 ^ 8 + (if b.nv then 16 else 0))

def Fresco.bank (f : Fresco) (b : Nat) : Bank := TMap.get Bank.reset f.banks b

/-- MSTAT's record. -/
def Fresco.stat (f : Fresco) (sel n : Nat) : Word :=
  match sel with
  | 0 => (TMap.get (0, 0) f.status (n % 32)).1
  | 1 => (TMap.get (0, 0) f.status (n % 32)).2
  | 2 => (f.bank (n % 4)).word
  | 3 => wordOf (f.prog.kappa.toNat * 2 ^ 32 + (if f.prog.format then 128 else 0) + f.prog.count.toNat)
  | 4 => f.prog.ops
  | _ => f.owner.zeroExtend 64

/-- CAUSE codes of R245. -/
inductive FCause where
  | none | tagmiss | xlate | poison | psrange | format | wrprot | cow | ctrpage
  deriving DecidableEq, Repr

def FCause.num : FCause → Nat
  | .none => 0 | .tagmiss => 1 | .xlate => 2 | .poison => 3 | .psrange => 4 | .format => 5 | .wrprot => 6 | .cow => 7
  | .ctrpage => 8

def fcauseOf (c : Cause) : FCause :=
  match c with
  | .poison => .poison | .wrprot => .wrprot | .cow => .cow | .ctrpage => .ctrpage | _ => .xlate

def writeStatus (cl tile op : Nat) (cause : FCause) (rows : Nat) (shape : Bool) (fl : Flags) (miss : Word) : M s0 Unit :=
  modFresco cl fun f =>
    { f with
      status := TMap.put f.status tile
        (wordOf (op * 2 ^ 56 + cause.num * 2 ^ 40 + rows * 2 ^ 32 + (if shape then 128 else 0) + fl.toNat), miss) }

/-- One of the causes that a command has met: which one it met first is open (R186). -/
def pickCause (cs : List FCause) : M s0 (Option FCause) :=
  match cs.dedup with
  | [] => pure Option.none
  | [c] => pure (some c)
  | c :: r => do
    let i ← choose (r.length + 1)
    return some ((c :: r).getD i c)

/-! ### MLOADW (R239, R240) -/

def engineReq (cl : Nat) (c : FCmd) : Req :=
  { die := dieOfCluster cl, asid := c.asid, user := c.by_.user, master := masterEngine cl }

/-- Bits lo to lo + n - 1 of a packed array. -/
def packed (bs : Nat) (w e : Nat) : Nat := bs / 2 ^ (e * w) % 2 ^ w

/-- The codes of one column, as a bank holds them, and whether one is a format error. -/
def columnCodes (fmt kcnt : Nat) (bs : List Byte) : List Nat × Bool :=
  let v := bytesNat bs
  if fmt = 12 then
    let cs := (List.range kcnt).map (i4xCode (packed v 4))
    (cs.map (·.1), cs.any (·.2))
  else ((List.range kcnt).map (packed v (elemWidth fmt)), false)

/-- A failed MLOADW; `nv`: it met an I4X format error before. -/
def failBank (cl b : Nat) (cause : FCause) (nv : Bool) : M s0 Unit :=
  modFresco cl fun f =>
    { f with banks := TMap.put f.banks b { f.bank b with valid := false, cause := BitVec.ofNat 8 cause.num, nv := nv } }

/-- Ranges of one address each: the bytes, or the causes met. -/
def readAll (q : Req) (agent : Nat) (rs : List (Word × Nat)) : M s0 (List (List Byte) × List FCause) := do
  let mut out : List (List Byte) := []
  let mut bad : List FCause := []
  for (va, n) in rs do
    match ← readRange q agent va n with
    | .error (c, _) =>
      out := out ++ [[]]
      bad := bad ++ [fcauseOf c]
    | .ok g =>
      out := out ++ [g.bytes]
      if g.poison.isSome then bad := bad ++ [.poison]
  return (out, bad)

def mloadwEffect (cl : Nat) (c : FCmd) (b : Nat) : M s0 Unit := do
  modFresco cl fun f => { f with banks := TMap.put f.banks b { f.bank b with gen := (f.bank b).gen + 1 } }
  let q := engineReq cl c
  let agent := 25088 + cl
  match ← readWords q agent c.xa 4 with
  | .error (e, _) => failBank cl b (fcauseOf e) false
  | .ok ws =>
    let w (i : Nat) : Word := ws.getD i 0
    let fmt := field (w 2) 28 4
    let ncols := field (w 2) 40 8 + 1
    let kcnt := field (w 2) 32 8 + 1
    let unit := if elemWidth fmt < 8 then 32 else elemWidth fmt / 8
    if field (w 2) 0 28 ≠ 0 || decide (12 < fmt) || (w 0).toNat % unit ≠ 0 || (w 3).toNat % unit ≠ 0 then
      failBank cl b .format false
    else
      let cols := (List.range ncols).map fun k => (w 0 + wordOf k * w 3, (kcnt * elemWidth fmt + 7) / 8)
      let scs := if planeX fmt then (List.range ncols).map fun k => (w 1 + wordOf (8 * k), (kcnt + 31) / 32) else []
      let (data, bad1) ← readAll q agent cols
      let (scales, bad2) ← readAll q agent scs
      let codes := data.map (columnCodes fmt kcnt)
      match ← pickCause (bad1 ++ bad2) with
      | some cause =>
        -- whether a column with a format error was read before the failure is open
        let n ← if codes.any (·.2) then choose 2 else pure 0
        failBank cl b cause (n == 1)
      | Option.none =>
        let ents := (codes.zipIdx.flatMap fun p => p.1.1.zipIdx.map fun x => (256 * p.2 + x.2, x.1)).filter fun p => p.2 != 0
        let scl := (scales.zipIdx.flatMap fun p => p.1.zipIdx.map fun x => (8 * p.2 + x.2, x.1.toNat)).filter
          fun p => p.2 != 0x7F
        modFresco cl fun f =>
          { f with
            banks := TMap.put f.banks b
              { valid := true, fmt := BitVec.ofNat 4 fmt, expert := (w 2).extractLsb' 48 16, gen := (f.bank b).gen, cause := 0
                nv := codes.any (·.2), w := ents, scale := scl } }

/-! ### MMUL and MGRAD (R241 to R244, R247, R251) -/

/-- The tag byte of row i. -/
def State.tagByte (s : State) (cl at_ i : Nat) : Nat := (s.planeByte cl (at_ - 64 + i)).toNat

/-- A plane row as a number. -/
def State.planeRow (s : State) (cl at_ code i : Nat) : Nat :=
  bytesNat (s.planeBytes cl (at_ + i * rowBytes code) (rowBytes code))

/-- A byte of the row carries poison; bytes 8 to 31 of a scale plane are ignored. -/
def State.rowPoisoned (s : State) (cl at_ code i : Nat) : Bool :=
  (List.range (32 * planeCount code + (if planeX code then 8 else 0))).any fun j =>
    s.planePoisoned cl (at_ + i * rowBytes code + j)

def rowElems (code p row : Nat) : List FV := (List.range 256).map (planeElem code p row)

/-- Column c of a bank. -/
def Bank.column (b : Bank) (c : Nat) : List FV :=
  (List.range 256).map fun k =>
    let v := codeVal b.fmt.toNat (TMap.get 0 b.w (256 * c + k))
    if planeX b.fmt.toNat then v.underScale (TMap.get 0x7F b.scale (8 * c + k / 32)) else v

def tileKey (t i c : Nat) : Nat := 16384 * t + 256 * i + c

def Fresco.tileWord (f : Fresco) (t i c : Nat) : BitVec 32 := TMap.get 0 f.tiles (tileKey t i c)

/-- A row of new tile words with the flags. -/
def rowOf (f : Nat → BitVec 32 × Flags) : List (BitVec 32) × Flags :=
  let r := (List.range 256).map f
  (r.map (·.1), r.foldl (fun a x => a ||| x.2) 0)

def writeTile (cl t : Nat) (rows : List (Nat × List (BitVec 32))) : M s0 Unit :=
  modFresco cl fun f =>
    { f with
      tiles := rows.foldl (fun m p => p.2.zipIdx.foldl (fun m x => TMap.set 0 m (tileKey t p.1 x.2) x.1) m) f.tiles }

/-- What MMUL takes from the state. -/
structure MmulArgs where
  tile : Nat
  zero : Bool
  skipMode : Bool
  int : Bool
  afmt : Nat
  prec : Nat
  bmask : BitVec 4

/-- The fate of row i. -/
inductive RowFate where
  | invalid | miss | hit (b : Nat)
  deriving DecidableEq, Repr

def rowFate (tag : Nat) (bmask : BitVec 4) (valids : List Bool) : RowFate :=
  let b := tag % 4
  if tag < 128 then .invalid else if bmask.getLsbD b && valids.getD b false then .hit b else .miss

/-- One row of an MMUL. -/
def mmulRow (s : State) (cl at_ : Nat) (a : MmulArgs) (i : Nat) (fate : RowFate) : Option (List (BitVec 32) × Flags) :=
  let f := s.fresco cl
  let acc (c : Nat) : BitVec 32 := if a.zero then 0 else f.tileWord a.tile i c
  match fate with
  | .invalid => none
  | .miss => some (rowOf fun c => missWord a.int (acc c))
  | .hit b =>
    let p := if a.prec = 0 then planeS a.afmt else a.prec
    let xs := rowElems a.afmt p (s.planeRow cl at_ a.afmt i)
    let bank := f.bank b
    some (rowOf fun c =>
      if f.prog.count = 0 then column a.int (acc c) xs (bank.column c)
      else microColumn f.prog.count.toNat f.prog.ops f.prog.kappa.toNat (acc c) xs (bank.column c))

/-- A plane row or tag plane passes 0x3F_FFFF. -/
def passesPlane (at_ bytes : Nat) : Bool := decide (planeSize < at_ + bytes)

/-- The same of plane rows without a tag plane: no row, none passes. -/
def passesRows (at_ bytes : Nat) : Bool := decide (0 < bytes) && passesPlane at_ bytes

def mmulEffect (cl : Nat) (c : FCmd) (a : MmulArgs) (req bound : Nat) : M s0 Unit := do
  let s ← st
  let n := min req bound
  let shape := decide (bound < req)
  let at_ := c.xa.toNat
  let done (cause : FCause) (fl : Flags) (miss : Word) : M s0 Unit := writeStatus cl a.tile 0xA1 cause n shape fl miss
  if passesPlane at_ (n * rowBytes a.afmt) then done .psrange 0 0
  else
    let fates := (List.range n).map fun i => (i, rowFate (s.tagByte cl at_ i) a.bmask c.valids)
    let hits := fates.filterMap fun p => match p.2 with | .hit b => some (p.1, b) | _ => none
    let misses := (fates.filter fun p => p.2 == .miss).map (·.1)
    let missW := wordOf ((misses.map fun i => 2 ^ i).sum)
    let poison := ((List.range n).any fun i => s.planePoisoned cl (at_ - 64 + i)) ||
      hits.any fun p => s.rowPoisoned cl at_ a.afmt p.1
    let f := s.fresco cl
    let badFmt := a.int && (f.prog.count != 0 ||
      hits.any fun p => (f.bank p.2).fmt != 9 && (f.bank p.2).fmt != 11)
    let missed := !misses.isEmpty && !a.skipMode
    if missed then enginePend c.by_ .tagmiss (wordOf (cl * 256 + a.tile))
    let cause ← pickCause
      ((if poison then [.poison] else []) ++ (if badFmt then [.format] else []) ++ (if missed then [.tagmiss] else []))
    match cause with
    | some e => done e 0 missW
    | Option.none =>
      let rows := fates.filterMap fun p => (mmulRow s cl at_ a p.1 p.2).map fun r => (p.1, r)
      writeTile cl a.tile (rows.map fun r => (r.1, r.2.1))
      done .none (rows.foldl (fun x r => x ||| r.2.2) 0) missW

/-- One row of an MGRAD: `rs` are the rows of A and of G that count, by number. -/
def mgradRow (f : Fresco) (t i : Nat) (zero : Bool) (rs : List (Option (List FV × List FV))) : List (BitVec 32) × Flags :=
  rowOf fun c =>
    let acc : BitVec 32 := if zero then 0 else f.tileWord t i c
    let pair := rs.map fun r => match r with
      | some (xs, gs) => (xs.getD i (.fin false 0 0), gs.getD c (.fin false 0 0))
      | none => (.fin false 0 0, .fin false 0 0)
    column false acc (pair.map (·.1)) (pair.map (·.2))

def mgradEffect (cl : Nat) (c : FCmd) (t : Nat) (zero : Bool) (afmt gfmt bank kq goff : Nat) (req bound : Nat) :
    M s0 Unit := do
  let s ← st
  let n := min req bound
  let at_ := c.xa.toNat
  let gat := 4096 * goff
  let done (cause : FCause) (fl : Flags) : M s0 Unit := writeStatus cl t 0xA2 cause n (decide (bound < req)) fl 0
  if passesPlane at_ (n * rowBytes afmt) || passesRows gat (n * rowBytes gfmt) then done .psrange 0
  else
    let counts (r : Nat) : Bool :=
      decide (r < n) && decide (128 ≤ s.tagByte cl at_ r) && s.tagByte cl at_ r % 4 == bank
    let used := (List.range 64).filter counts
    if ((List.range n).any fun i => s.planePoisoned cl (at_ - 64 + i)) ||
        used.any fun r => s.rowPoisoned cl at_ afmt r || s.rowPoisoned cl gat gfmt r then done .poison 0
    else
      let rs := (List.range 64).map fun r =>
        if counts r then
          some (((rowElems afmt (planeS afmt) (s.planeRow cl at_ afmt r)).drop (64 * kq)).take 64,
            rowElems gfmt (planeS gfmt) (s.planeRow cl gat gfmt r))
        else Option.none
      let f := s.fresco cl
      let rows := (List.range 64).map fun i => (i, mgradRow f t i zero rs)
      writeTile cl t (rows.map fun r => (r.1, r.2.1))
      done .none (rows.foldl (fun x r => x ||| r.2.2) 0)

/-! ### MDRAIN (R248, R249) -/

structure DrainArgs where
  tile : Nat
  planes : Bool
  clr : Bool
  int : Bool
  ofmt : Nat
  rnd : Rnd
  ncols : Nat

/-- The elements of a drain to memory. At a fault any of the elements whose pages admit the write may have been
written. -/
def drainMemory (cl : Nat) (c : FCmd) (size : Nat) (elems : List Nat) : M s0 (Option FCause) := do
  let bad ← writeElems (engineReq cl c) (25088 + cl) c.xa size (elems.flatMap fun v => natBytes size v)
  pickCause (bad.map fun f => fcauseOf f.1)

def clearRows (cl t n : Nat) : M s0 Unit :=
  modFresco cl fun f => { f with tiles := f.tiles.filter fun p => !(p.1 / 16384 == t && decide (p.1 % 16384 / 256 < n)) }

/-- The values of a row that a drain converts (R248). -/
def drainVals (f : Fresco) (a : DrainArgs) (i cols : Nat) : List FV :=
  (List.range cols).map fun k => tileVal a.int (f.tileWord a.tile i k)

/-- The rounding of a drain (R248). -/
def drainRnd (c : FCmd) (a : DrainArgs) : Rnd := if a.rnd = .dyn then rmRnd c.rm else a.rnd

/-- Elements of a drain to memory that are written before it is complete (R186). -/
def drainEarly (cl : Nat) (c : FCmd) (a : DrainArgs) (req bound : Nat) : M s0 Unit := do
  let s ← st
  let f := s.fresco cl
  let size := elemWidth a.ofmt / 8
  let es := (List.range (min req bound)).flatMap fun i =>
    (drainVals f a i a.ncols).map fun v => (drainElem a.ofmt (drainRnd c a) v).1
  let q := engineReq cl c
  let bad ← faultyParts q c.xa (size * es.length)
  writeEarly q (25088 + cl) c.xa size (es.flatMap fun v => natBytes size v) bad

/-- MDRAIN. DESIGN CHOICE (log 87): after a drain to memory that has stopped at a fault the flags of the status word are 0; R249 does not
say whether the flags of elements already converted are recorded. -/
def mdrainEffect (cl : Nat) (c : FCmd) (a : DrainArgs) (req bound : Nat) : M s0 Unit := do
  let s ← st
  let n := min req bound
  let f := s.fresco cl
  let r := drainRnd c a
  let done (cause : FCause) (fl : Flags) : M s0 Unit := writeStatus cl a.tile 0xA3 cause n (decide (bound < req)) fl 0
  let vals (i cols : Nat) : List FV := drainVals f a i cols
  if a.planes then
    let at_ := c.xa.toNat
    if passesRows at_ (n * rowBytes a.ofmt) then done .psrange 0
    else
      let rows := (List.range n).map fun i => drainRow a.ofmt r (vals i 256)
      for (p, i) in rows.zipIdx do
        writePlane cl (at_ + i * rowBytes a.ofmt) (p.1 ++ p.2.1)
      if a.clr then clearRows cl a.tile n
      done .none (rows.foldl (fun x p => x ||| p.2.2) 0)
  else
    let cs := (List.range n).flatMap fun i => (vals i a.ncols).map (drainElem a.ofmt r)
    match ← drainMemory cl c (elemWidth a.ofmt / 8) (cs.map (·.1)) with
    | some e => done e 0
    | Option.none =>
      if a.clr then clearRows cl a.tile n
      done .none (cs.foldl (fun x p => x ||| p.2) 0)

/-! ### MPROG (R250) -/

def mprogEffect (cl : Nat) (c : FCmd) (count : BitVec 3) : M s0 Unit :=
  modFresco cl fun f =>
    if microBad count.toNat c.xa then { f with prog := { f.prog with format := true } }
    else { f with prog := { count := count, ops := c.xa, kappa := c.xb.truncate 32, format := false } }

/-! ### Start and completion -/

/-- Another device's engine has carried out a command that this device's strand sent: whether an MMUL missed a tag there is
open (R242). -/
def foreignEffect (c : FCmd) : M s0 Unit := do
  match c.instr with
  | .mmul t _ _ _ _ sk _ _ _ _ tg _ =>
    let n ← choose 2
    if !sk && n = 1 then
      let clus := match tg with | .remote _ k _ _ => k.toNat | .here => 0
      enginePend c.by_ .tagmiss (wordOf (clus * 256 + t.toNat))
  | _ => pure ()

/-- The agent number of the engine that carries out a command (R176). -/
def cmdAgent (cl : Nat) (c : FCmd) : Nat :=
  if cl = foreignEngine then
    match c.instr with
    | .mloadw _ _ tg _ | .mmul _ _ _ _ _ _ _ _ _ _ tg _ | .mgrad _ _ _ _ _ _ _ _ _ _ tg _
    | .mdrain _ _ _ _ _ _ _ _ _ _ tg _ | .mprog _ _ _ tg _ | .mstat _ _ _ tg _ =>
      match tg with
      | .remote node _ _ _ => 65536 + node.toNat
      | .here => 25088 + cl
    | _ => 25088 + cl
  else 25088 + cl

/-- The effect of a command, or the status of a failed read of its shape record. -/
def commandEffect (cl : Nat) (c : FCmd) : M s0 Unit :=
  let rowed (tile op : Nat) (f : Nat → Nat → M s0 Unit) : M s0 Unit :=
    match c.rows with
    | .error e => writeStatus cl tile op (if e = 3 then .poison else .xlate) 0 false 0 0
    | .ok (req, bound) => f req bound
  match c.instr with
  | .mloadw b _ _ _ => mloadwEffect cl c b.toNat
  | .mmul t _ _ _ zero sk tt af pr bm _ _ =>
    rowed t.toNat 0xA1
      (mmulEffect cl c
        { tile := t.toNat, zero := zero, skipMode := sk, int := tt, afmt := af.toNat, prec := pr.toNat, bmask := bm })
  | .mgrad t _ _ _ zero af gf b kq go _ _ =>
    rowed t.toNat 0xA2 (mgradEffect cl c t.toNat zero af.toNat gf.toNat b.toNat kq.toNat go.toNat)
  | .mdrain t _ _ _ ps clr tt ofm r nc _ _ =>
    rowed t.toNat 0xA3
      (mdrainEffect cl c
        { tile := t.toNat, planes := ps, clr := clr, int := tt, ofmt := ofm.toNat, rnd := r, ncols := nc.toNat + 1 })
  | .mprog _ _ n _ _ => mprogEffect cl c n
  | _ => pure ()

/-- The requester of a command's signal: the engine; for another device's engine, in the place of the issuing core. -/
def signalReq (b : Issuer) (cl : Nat) : Req :=
  { die := if 25088 ≤ b.agent then dieOfCluster cl else dieOf b.agent, asid := b.asid, user := b.user
    master := if cl = foreignEngine then coreOf b.agent else masterEngine cl }

/-- The commands accepted before one. -/
def earlierCmds (cmds : List FCmd) (seq : Nat) : List FCmd := cmds.takeWhile fun c => c.seq != seq

/-- A started drain to memory writes some of its elements before it is complete (R186). -/
def drainPart (cl seq : Nat) : M s0 Unit := do
  let s ← st
  match (s.fresco cl).cmds.find? fun c => c.seq == seq with
  | none => pure ()
  | some c =>
    match c.instr, c.rows with
    | .mdrain t _ _ _ false clr tt ofm r nc _ _, .ok (req, bound) =>
      if c.started && decide (cl < foreignEngine) then
        actFor c.by_
        drainEarly cl c
          { tile := t.toNat, planes := false, clr := clr, int := tt, ofmt := ofm.toNat, rnd := r, ncols := nc.toNat + 1 }
          req bound
    | _, _ => pure ()

/-- FRESCO_COMMAND_START: no conflict with an earlier command that is not complete (R252). -/
def frescoCommandStartBody (cl seq : Nat) : M s0 Unit := do
  let s ← st
  let f := s.fresco cl
  match f.cmds.find? fun c => c.seq == seq with
  | none => notEnabled "FRESCO_COMMAND_START"
  | some c =>
    require "FRESCO_COMMAND_START"
      (!c.started && (cl == foreignEngine || !(earlierCmds f.cmds seq).any fun e => frescoConflict e c))
    modFresco cl fun f =>
      { f with
        cmds := f.cmds.map fun x =>
          if x.seq == seq then { x with started := true, valids := (List.range 4).map fun b => (f.bank b).valid } else x }

def execFrescoCommandStart (cl seq : Nat) (s : State) : Outcome := run s (frescoCommandStartBody cl seq)

/-- MSTAT writes xD when it completes (R246, R440); what another device's engine answers is open. -/
def mstatEffect (cl : Nat) (c : FCmd) : M s0 Unit := do
  match c.instr, c.record with
  | .mstat d _ _ _ _, some (sel, n) =>
    let s ← st
    if c.by_.agent < 25088 && s.ofCtx c.by_.agent c.by_ then
      let v ← if cl < foreignEngine then pure ((s.fresco cl).stat sel n) else openWord
      modCtx c.by_.agent fun x => x.setX d v
  | _, _ => pure ()

/-- FRESCO_COMMAND_COMPLETE: the effect, then the signal (R187, R254). -/
def frescoCommandCompleteBody (cl seq : Nat) : M s0 Unit := do
  let s ← st
  match (s.fresco cl).cmds.find? fun c => c.seq == seq with
  | none => notEnabled "FRESCO_COMMAND_COMPLETE"
  | some c =>
    require "FRESCO_COMMAND_COMPLETE" c.started
    actFor c.by_
    mstatEffect cl c
    if cl < foreignEngine then commandEffect cl c else foreignEffect c
    modFresco cl fun f => { f with cmds := f.cmds.filter fun x => x.seq != seq }
    match c.by_.sig with
    | some g =>
      engineSignal c.by_ (signalReq c.by_ cl) (cmdAgent cl c) g
    | none => pure ()

def execFrescoCommandComplete (cl seq : Nat) (s : State) : Outcome := run s (frescoCommandCompleteBody cl seq)

/-! ### Issue (R241, R254 to R257, R440, R441) -/

/-- The addresses that issue checks, with their alignment. -/
def frescoAddrs (i : Instr) (xa xb : Word) : List (Word × Bool) :=
  let planes : Word × Bool := (xa, xa.toNat % 64 == 0 && decide (64 ≤ xa.toNat))
  let shape (shp : Bool) : List (Word × Bool) := if shp then [(xb, xb.toNat % 16 == 0)] else []
  match i with
  | .mloadw _ _ _ _ => [(xa, xa.toNat % 32 == 0)]
  | .mmul _ _ _ shp _ _ _ _ _ _ _ _ => planes :: shape shp
  | .mgrad _ _ _ shp _ _ _ _ _ _ _ _ => planes :: shape shp
  | .mdrain _ _ _ shp ps _ _ ofm _ _ _ _ =>
    (xa, if ps then xa.toNat % 64 == 0 else xa.toNat % (elemWidth ofm.toNat / 8) == 0) :: shape shp
  | _ => []

def frescoChecks (i : Instr) (xa xb : Word) : M s0 Unit := do
  let as := frescoAddrs i xa xb
  match minWord ((as.filter fun p => !p.2).map (·.1)) with
  | some a => trap .align a
  | none => pure ()
  match minWord ((as.filter fun p => !canonical p.1).map (·.1)) with
  | some a => trap .xlate a
  | none => pure ()

/-- SHP of a command that takes a row count. -/
def Instr.rowSource (i : Instr) : Option Bool :=
  match i with
  | .mmul _ _ _ shp _ _ _ _ _ _ _ _ => some shp
  | .mgrad _ _ _ shp _ _ _ _ _ _ _ _ => some shp
  | .mdrain _ _ _ shp _ _ _ _ _ _ _ _ => some shp
  | _ => none

/-- req and bound (R33, R241): the shape record is read at the fork. -/
def readRows (q : Req) (agent : Nat) (i : Instr) (xb : Word) : M s0 (Except Nat (Nat × Nat)) := do
  match Instr.rowSource i with
  | none => return .ok (0, 64)
  | some false => return .ok (xb.toNat, 64)
  | some true =>
    match ← readRange q agent xb 8 with
    | .error _ => return .error 2
    | .ok g =>
      if g.poison.isSome then return .error 3
      else
        let w := bytesWord g.bytes
        let b := field w 32 32
        return .ok (field w 0 32, if b = 0 || decide (64 < b) then 64 else b)

/-- The engine accepts a command. -/
def acceptCmd (cl : Nat) (i : Instr) (xa xb : Word) (asid : BitVec 16) (b : Issuer) (rm : BitVec 3) : M s0 Unit := do
  let q : Req := { die := dieOfCluster cl, asid := asid, user := b.user, master := masterEngine cl }
  actFor b
  let rows ← if cl = foreignEngine then pure (.ok (0, 64)) else readRows q (25088 + cl) i xb
  let n ← freshSeq
  modFresco cl fun f =>
    { f with
      cmds := f.cmds ++
        [{ seq := n, instr := i, xa := xa, xb := xb, asid := asid, by_ := b, rows := rows, rm := rm, started := false
           valids := [] }] }

/-- The RIGHTS bit of a command, from bit 126 down (R255). -/
def Instr.rightBit (i : Instr) : Nat :=
  match i with
  | .mloadw _ _ _ _ => 6
  | .mmul _ _ _ _ _ _ _ _ _ _ _ _ => 5
  | .mgrad _ _ _ _ _ _ _ _ _ _ _ _ => 4
  | .mdrain _ _ _ _ _ _ _ _ _ _ _ _ => 3
  | .mprog _ _ _ _ _ => 2
  | _ => 1

/-- Table 4 of the engine's die admits a master (R371). -/
def State.capTable (s : State) (cl master : Nat) (asid : BitVec 16) (user : Bool) : Bool :=
  admits (s.access (dieOfCluster cl) 4 master) false true (user && decide (master < 1568)) asid

def State.cap (s : State) (cl : Nat) (idx : BitVec 6) : Cap := TMap.get Cap.reset (s.fresco cl).caps idx.toNat

/-- Entry CIDX admits the command. -/
def Cap.admits (c : Cap) (i : Instr) (secret : BitVec 48) : Bool :=
  c.valid && c.secret == secret && c.rights.getLsbD (Instr.rightBit i)

/-- The engine and the address space of a command's memory operands: none, another device's engine. -/
def frescoTarget (i : Instr) (tg : Target) : M s0 (Option (Nat × BitVec 16)) := do
  let s ← st
  let c := s.ctx s.cur
  match tg with
  | .here =>
    let cl := clusterOfCore (coreOf s.cur)
    if (s.fresco cl).owner ≠ c.r.asid then trap .capfail 0
    return some (cl, c.r.asid)
  | .remote node clus idx secret =>
    let cidx : Word := idx.zeroExtend 64
    if node = s.nodeId then
      let cap := s.cap clus.toNat idx
      if s.capTable clus.toNat (coreOf s.cur) c.r.asid (c.r.mode == .user) &&
          cap.admits i ((c.r.getX secret).truncate 48) then
        return some (clus.toNat, cap.asid)
      else trap .capfail cidx
    else
      let n ← choose 2
      if n = 0 then trap .capfail cidx
      return none

/-- The signal of a command that completes at issue, by the engine of an agent number. -/
def signalNow (b : Issuer) (cl agent : Nat) : M s0 Unit := do
  match b.sig with
  | some g => engineSignal b (signalReq b cl) agent g
  | none => pure ()

/-- A command that the engine runs by itself. -/
def frescoBody (i : Instr) (a b : XReg) (tg : Target) (sy : Sync) : M s0 Fin := do
  let c ← myCtx
  let xa := c.r.getX a
  let xb := c.r.getX b
  frescoChecks i xa xb
  match ← frescoTarget i tg with
  | some (cl, asid) =>
    let is ← issuer sy
    engineAcquire (25088 + cl) sy.scope
    acceptCmd cl i xa xb asid is c.r.rm
  | none =>
    let is ← issuer sy
    acceptCmd foreignEngine i xa xb c.r.asid is c.r.rm
  return .next

/-- R256: a command with REM = 0 on an Easel core. -/
def frescoPre (tg : Target) : M s0 Unit :=
  match tg with
  | .here => onEasel false
  | .remote _ _ _ _ => pure ()

def fresco (i : Instr) (a b : XReg) (tg : Target) (sy : Sync) (s : State) : Outcome :=
  strandStep s sy true true (frescoPre tg) (frescoBody i a b tg sy)

def execMloadw (b : BReg) (a : XReg) (tg : Target) (sy : Sync) : State → Outcome := fresco (.mloadw b a tg sy) a 0 tg sy
def execMmul (t : TReg) (a b : XReg) (shp zero sk tt : Bool) (afmt prec bmask : BitVec 4) (tg : Target) (sy : Sync) :
    State → Outcome :=
  fresco (.mmul t a b shp zero sk tt afmt prec bmask tg sy) a b tg sy
def execMgrad (t : TReg) (a b : XReg) (shp zero : Bool) (afmt gfmt : BitVec 4) (bank kq : BitVec 2) (goff : BitVec 10)
    (tg : Target) (sy : Sync) : State → Outcome :=
  fresco (.mgrad t a b shp zero afmt gfmt bank kq goff tg sy) a b tg sy
def execMdrain (t : TReg) (a b : XReg) (shp ps clr tt : Bool) (ofmt : BitVec 4) (r : Rnd) (ncols : BitVec 8)
    (tg : Target) (sy : Sync) : State → Outcome :=
  fresco (.mdrain t a b shp ps clr tt ofmt r ncols tg sy) a b tg sy
def execMprog (a b : XReg) (count : BitVec 3) (tg : Target) (sy : Sync) : State → Outcome :=
  fresco (.mprog a b count tg sy) a b tg sy

def execMstat (d a : XReg) (sel : BitVec 6) (tg : Target) (sy : Sync) : State → Outcome :=
  fresco (.mstat d a sel tg sy) a 0 tg sy

/-- R257. Refusal by table 4 is CAPFAIL as a remote command's is. -/
def mcapBody (idx : BitVec 6) (a b : XReg) (tg : Target) (sy : Sync) : M s0 Fin := do
  let s ← st
  let c := s.ctx s.cur
  let (cl, cidx) : Nat × Word := match tg with
    | .here => (clusterOfCore (coreOf s.cur), 0)
    | .remote _ clus i _ => (clus.toNat, i.zeroExtend 64)
  let ok := match tg with
    | .here => (s.fresco cl).owner == c.r.asid
    | .remote node _ _ _ => node == s.nodeId
  if !ok || !s.capTable cl (coreOf s.cur) c.r.asid (c.r.mode == .user) then trap .capfail cidx
  let xa := c.r.getX a
  let xb := c.r.getX b
  let is ← issuer sy
  modFresco cl fun f =>
    { f with
      caps := TMap.put f.caps idx.toNat
        { valid := xb.getLsbD 63, rights := xb.extractLsb' 56 7, asid := xb.truncate 16, secret := xa.truncate 48 } }
  signalNow is cl (25088 + cl)
  return .next

def execMcap (idx : BitVec 6) (a b : XReg) (tg : Target) (sy : Sync) (s : State) : Outcome :=
  strandStep s sy true true
    (do
      frescoPre tg
      kernelOnly)
    (mcapBody idx a b tg sy)

/-! ### Admission of another device's command (R255) -/

/-- The signal of a remote command as the engine keeps it. -/
def RemoteSig.add (g : RemoteSig) : SigAdd := { ref := g.ref, gen := g.gen, inc := g.inc.toNat, scope := g.scope }

/-- The ENG word of a remote command that names this engine, without wait and signal. -/
def remoteEng (c : RemoteCmd) : Word :=
  wordOf (3 * 2 ^ 60 + 2 ^ 31 + 2 ^ 30 + c.cluster % 256 * 2 ^ 14 + c.cidx.toNat * 2 ^ 8)

/-- The issuer of a command of another device. -/
def remoteIssuer (c : RemoteCmd) : Issuer :=
  { agent := 65536 + c.node.toNat, life := 0, launch := none, err := none, asid := c.asid, user := c.user, seq := 0
    sig := c.sig.map RemoteSig.add, slot := none, scope := (c.sig.map (·.scope)).getD .device, index := 0 }

/-- A command of a job slot, whose accesses are of an address space, is accepted, or refused without effect. The issuer's RM is not known here. -/
def admitRemote (c : RemoteCmd) (slot : Nat) (asid : BitVec 16) (i : Instr) : M s0 Unit := do
  let s ← st
  let cap := s.cap c.cluster c.cidx
  if s.capTable c.cluster (masterJob slot) asid c.user && cap.admits i c.secret then
    let rm ← choose 5
    let n ← freshSeq
    match c.sig with
    | some g => engineAcquire (25088 + c.cluster) g.scope
    | none => pure ()
    acceptCmd c.cluster i c.xa c.xb cap.asid { remoteIssuer c with seq := n } (BitVec.ofNat 3 (rm + 1))

/-- REMOTE_COMMAND_ADMISSION: a command of a job that the network interface maps, to one address space (R255, R373). -/
def remoteCommandAdmissionBody (c : RemoteCmd) : M s0 Unit := do
  let s ← st
  require "REMOTE_COMMAND_ADMISSION" (decide (c.cluster < 192) && decide (c.die < 8))
  match decode c.base (some (remoteEng c)) with
  | .error _ => notEnabled "REMOTE_COMMAND_ADMISSION"
  | .ok i =>
    match i with
    | .mloadw _ _ _ _ | .mmul _ _ _ _ _ _ _ _ _ _ _ _ | .mgrad _ _ _ _ _ _ _ _ _ _ _ _ | .mdrain _ _ _ _ _ _ _ _ _ _ _ _
    | .mprog _ _ _ _ _ | .mstat _ _ _ _ _ =>
      match s.jobSpace c.die c.job with
      | none => dropUnmapped c.die (65536 + c.node.toNat) c.xa
      | some (slot, some asid) => admitRemote c slot asid i
      | some (_, none) => pure ()
    | _ => notEnabled "REMOTE_COMMAND_ADMISSION"

def execRemoteCommandAdmission (c : RemoteCmd) (s : State) : Outcome := run s (remoteCommandAdmissionBody c)

end Sys2Proof.Machine
end

