-- ==== Sys2Proof/Machine/Stencil.lean ====
section
/-! DEFINITION. The Stencil unit: shadowed registers, transfers, chunks, faults and replay (R260 to R279, R491 to R493). -/

namespace Sys2Proof.Machine

open Sys2Proof

variable {s0 : State}

/-! ### The registers of a transfer (R262 to R264) -/

def Ctl.reg (c : Ctl) (fn : Nat) : Word := TMap.get (shadowReset fn) c fn

def Ctl.src (c : Ctl) : Word := c.reg 0
def Ctl.dst (c : Ctl) : Word := c.reg 1
def Ctl.count (c : Ctl) (n : Nat) : Nat := field (c.reg (2 + n)) 0 32
def Ctl.stride (c : Ctl) (n : Nat) : Word := c.reg (5 + n)
def Ctl.dcount (c : Ctl) (n : Nat) : Nat := field (c.reg (8 + n)) 0 32
def Ctl.dstride (c : Ctl) (n : Nat) : Word := c.reg (11 + n)
def Ctl.mode (c : Ctl) : Word := c.reg 14
def Ctl.index (c : Ctl) : Word := c.reg 15
def Ctl.chunk (c : Ctl) : Nat := field (c.reg 16) 0 32
def Ctl.sigref (c : Ctl) : Word := c.reg 17
def Ctl.sigctl (c : Ctl) : Word := c.reg 18
def Ctl.super (c : Ctl) : Word := c.reg 19
def Ctl.frec (c : Ctl) : Word := c.reg 20
def Ctl.op (c : Ctl) : Nat := field c.mode 0 3
def Ctl.pfmt (c : Ctl) : Nat := field c.mode 4 4
def Ctl.esize (c : Ctl) : Nat := 2 ^ field c.mode 8 2
def Ctl.srcLocal (c : Ctl) : Bool := c.mode.getLsbD 10
def Ctl.dstLocal (c : Ctl) : Bool := c.mode.getLsbD 11
def Ctl.perChunk (c : Ctl) : Bool := c.mode.getLsbD 12
def Ctl.isize (c : Ctl) : Nat := if c.mode.getLsbD 13 then 8 else 4
def Ctl.toPlanes (c : Ctl) : Bool := c.op == 3
def Ctl.fromPlanes (c : Ctl) : Bool := c.op == 4
def Ctl.planes (c : Ctl) : Bool := c.toPlanes || c.fromPlanes

/-- N (R265, R266). -/
def Ctl.units (c : Ctl) : Nat :=
  if c.toPlanes then c.count 1 * c.count 2
  else if c.fromPlanes then c.dcount 1 * c.dcount 2
  else c.count 0 * c.count 1 * c.count 2

/-- Elements of less than a byte. -/
def Ctl.packed (c : Ctl) : Bool := elemWidth c.pfmt < 8

/-- Bytes that an address of the memory side is a multiple of. -/
def Ctl.unit (c : Ctl) : Nat := if c.planes then max 1 (elemWidth c.pfmt / 8) else c.esize

/-- The fields that address memory, with the sizes that they are multiples of (R267). -/
def Ctl.aligned (c : Ctl) : List (Word × Nat) :=
  let u := c.unit
  let src := [(c.src, u), (c.stride 0, u), (c.stride 1, u)] ++ (if c.op = 1 then [] else [(c.stride 2, u)])
  let dst := [(c.dst, u), (c.dstride 0, u), (c.dstride 1, u)] ++ (if c.op = 2 then [] else [(c.dstride 2, u)])
  (if c.fromPlanes then [] else src) ++ (if c.toPlanes then [] else dst) ++
  (if c.op = 1 || c.op = 2 then [(c.index, c.isize)] else [])

/-- The plane side's offset. -/
def Ctl.planeAt (c : Ctl) : Nat := if c.toPlanes then c.dst.toNat else c.src.toNat

/-- R267: the configuration is valid. -/
def Ctl.valid (c : Ctl) : Bool :=
  decide (c.op ≤ 4) && decide (c.units < 2 ^ 40) &&
  (c.planes || c.dcount 0 * c.dcount 1 * c.dcount 2 == c.units) &&
  (c.aligned.all fun p => p.1.toNat % p.2 == 0) &&
  (!c.planes || (decide (c.pfmt ≤ 12) && !(c.fromPlanes && c.pfmt == 12) && c.planeAt % 32 == 0 &&
    !(decide (0 < c.units) && passesPlane c.planeAt (c.units * rowBytes c.pfmt)) &&
    !(c.packed && (if c.toPlanes then c.stride 0 else c.dstride 0) != 0))) &&
  !(c.sigref != 0 && field c.sigctl 0 8 == 0) && c.frec.toNat % 8 == 0

/-! ### Accesses of a chunk (R265, R266, R270) -/

/-- A fault: address, cause of R272, access of R272. -/
structure XFault where
  addr : Word
  cause : Cause
  access : Nat
  deriving DecidableEq, Repr

def xcause (c : Cause) : Nat :=
  match c with
  | .wrprot => 2 | .cow => 3 | .ctrpage => 4 | .poison => 5 | .lsprot => 6 | _ => 1

/-- Where a write of a transfer goes. -/
inductive XDst where
  | glob (va : Word)
  | loc (va : Word)
  | plane (off : Nat)
  deriving DecidableEq, Repr

/-- A write of a transfer, the access of R272 that it is, and the numbers of its elements for which a read or a check has met a
fault. -/
structure XWrite where
  dst : XDst
  bytes : List Byte
  access : Nat
  bad : List Nat
  deriving DecidableEq, Repr

/-- What a unit of a transfer does: its writes, flags and faults. -/
structure XUnit where
  writes : List XWrite
  flags : Flags
  faults : List XFault
  deriving DecidableEq, Repr

def Xfer.core (x : Xfer) : Nat := coreOf x.by_.agent

def stencilReq (cl : Nat) (x : Xfer) : Req :=
  { die := dieOfCluster cl, asid := x.by_.asid, user := x.by_.user, master := masterStencil cl }

def stencilAgent (cl : Nat) : Nat := 25280 + cl

/-- The lowest byte of a local access that R133 refuses, or the regions at the XGO when the issuer was in user mode. -/
def Xfer.refused (x : Xfer) (rd wr : Bool) (va : Word) (n : Nat) : Option Word :=
  ((List.range n).find? fun i =>
    !(decide (va.toNat + i < lsSize x.core) &&
    (!x.by_.user || { Regs.reset false with lsbase := x.lsbase, lslim := x.lslim }.lsGrants rd wr (va.toNat + i)))).map
    fun i => va + wordOf i

/-- Bytes of global memory, or zeros with the fault. -/
def fetchGlobal (cl : Nat) (x : Xfer) (va : Word) (n access : Nat) : M s0 (List Byte × List XFault) := do
  match ← readRange (stencilReq cl x) (stencilAgent cl) va n with
  | .error (c, a) => return (List.replicate n 0, [{ addr := a, cause := c, access := access }])
  | .ok g =>
    return (g.bytes, match g.poison with
      | some a => [{ addr := a, cause := .poison, access := access }]
      | none => [])

/-- Bytes of the source side; poisoned bytes of local store are a fault too (R361). -/
def fetchSrc (cl : Nat) (x : Xfer) (va : Word) (n : Nat) : M s0 (List Byte × List XFault) := do
  if x.ctl.srcLocal then
    let s ← st
    match x.refused true false va n with
    | some a => return (List.replicate n 0, [{ addr := a, cause := .lsprot, access := 0 }])
    | none =>
      let bad := (List.range n).find? fun i => s.lsPoisoned x.core (va.toNat + i)
      let bs ← hideLater false (lsKey x.core va.toNat) (s.lsBytes x.core va.toNat n)
      return (bs, match bad with
        | some i => [{ addr := va + wordOf i, cause := .poison, access := 0 }]
        | none => [])
  else fetchGlobal cl x va n 0

/-- The same of `n` bytes in elements of `k`, each for itself where the whole meets a fault: the bytes and the faulting elements. -/
def fetchElems (cl : Nat) (x : Xfer) (va : Word) (n k : Nat) : M s0 (List Byte × List Nat × List XFault) := do
  let (bs, f) ← fetchSrc cl x va n
  if f.isEmpty then return (bs, [], [])
  else
    let mut out : List Byte := []
    let mut bad : List Nat := []
    let mut faults : List XFault := []
    for i in List.range (n / k) do
      let (bs, f) ← fetchSrc cl x (va + wordOf (k * i)) k
      out := out ++ bs
      if !f.isEmpty then bad := bad ++ [i]
      faults := faults ++ f
    return (out, bad, faults)

/-- The destination's check: a global write meets the causes of a store, then POISON. DESIGN CHOICE (log 69): whether a write to a
poisoned byte meets POISON is open at each write, since R270 names the cause and R355 lets a plain write replace the byte. -/
def checkDst (cl : Nat) (x : Xfer) (loc : Bool) (va : Word) (n access : Nat) : M s0 (List XFault) := do
  if loc then
    return match x.refused false true va n with
      | none => []
      | some a => [{ addr := a, cause := .lsprot, access := access }]
  else
    let mut out : List XFault := []
    for (a, k) in parts va n do
      match ← xlate (stencilReq cl x) .store a with
      | .error c => out := out ++ [{ addr := a, cause := c, access := access }]
      | .ok (.phys pa) =>
        if isConfig pa then out := out ++ [{ addr := a, cause := .xlate, access := access }]
        else
          let s ← st
          match (List.range k).find? fun i => s.poisoned (pa + i) with
          | some i => if (← choose 2) = 1 then out := out ++ [{ addr := a + wordOf i, cause := .poison, access := access }]
          | none => pure ()
      | .ok (.far _) => if (← choose 2) = 1 then out := out ++ [{ addr := a, cause := .poison, access := access }]
    return out

/-- The same of `n` bytes in elements of `k`: the faulting elements and their faults. -/
def checkElems (cl : Nat) (x : Xfer) (loc : Bool) (va : Word) (n k access : Nat) : M s0 (List Nat × List XFault) := do
  if (← checkDst cl x loc va n access).isEmpty then return ([], [])
  else
    let mut bad : List Nat := []
    let mut faults : List XFault := []
    for i in List.range (n / k) do
      let f ← checkDst cl x loc (va + wordOf (k * i)) k access
      if !f.isEmpty then bad := bad ++ [i]
      faults := faults ++ f
    return (bad, faults)

def xdst (loc : Bool) (va : Word) : XDst := if loc then .loc va else .glob va

/-- Idx(m). -/
def fetchIndex (cl : Nat) (x : Xfer) (m : Nat) : M s0 (Word × List XFault) := do
  let n := x.ctl.isize
  let (bs, f) ← fetchGlobal cl x (x.ctl.index + wordOf (m * n)) n 2
  return (wordOfInt (sextInt (bytesNat bs) (8 * n)), f)

/-- Element e of a copy, a gather or a scatter (R265). -/
def elementUnit (cl : Nat) (x : Xfer) (e : Nat) : M s0 XUnit := do
  let c := x.ctl
  let i0 := e % c.count 0
  let i1 := e / c.count 0 % c.count 1
  let i2 := e / (c.count 0 * c.count 1)
  let j0 := e % c.dcount 0
  let j1 := e / c.dcount 0 % c.dcount 1
  let j2 := e / (c.dcount 0 * c.dcount 1)
  let (srow, f1) ← do
    if c.op = 1 then
      let (v, f) ← fetchIndex cl x (i1 + c.count 1 * i2)
      pure (v * c.stride 1, f)
    else pure (wordOf i1 * c.stride 1 + wordOf i2 * c.stride 2, [])
  let (drow, f2) ← do
    if c.op = 2 then
      let (v, f) ← fetchIndex cl x (j1 + c.dcount 1 * j2)
      pure (v * c.dstride 1, f)
    else pure (wordOf j1 * c.dstride 1 + wordOf j2 * c.dstride 2, [])
  let va := c.src + wordOf i0 * c.stride 0 + srow
  let vd := c.dst + wordOf j0 * c.dstride 0 + drow
  let (bs, f3) ← if f1.isEmpty then fetchSrc cl x va c.esize else pure ([], [])
  let f4 ← if f2.isEmpty then checkDst cl x c.dstLocal vd c.esize 1 else pure []
  let faults := f1 ++ f2 ++ f3 ++ f4
  return {
    writes := [{ dst := xdst c.dstLocal vd, bytes := bs, access := 1, bad := if faults.isEmpty then [] else [0] }]
    flags := 0, faults := faults }

/-- The memory ranges of the 256 elements of a row that starts at `va`, in order. -/
def rowRanges (fmt : Nat) (va stride : Word) : List (Word × Nat) :=
  let n := elemWidth fmt / 8
  if elemWidth fmt < 8 then [(va, 32 * elemWidth fmt)]
  else if stride = 0 || stride = wordOf n then [(va, 256 * n)]
  else (List.range 256).map fun i => (va + wordOf i * stride, n)

/-- Bytes of the elements of a row that are read or written one by one: of a packed format one. -/
def Ctl.rowUnit (c : Ctl) : Nat := max 1 (elemWidth c.pfmt / 8)

/-- The elements of a row that lie in a unit of its memory side (a byte, of a packed format). -/
def rowUnitOf (fmt i : Nat) : List Nat :=
  let w := elemWidth fmt
  if w < 8 then (List.range 2).map (fun j => w * i / 8 + j) |>.filter fun j => decide (8 * j < w * i + w) else [i]

/-- Row n of to-planes. -/
def toPlanesUnit (cl : Nat) (x : Xfer) (n : Nat) : M s0 XUnit := do
  let c := x.ctl
  let fmt := c.pfmt
  let va := c.src + wordOf (n % c.count 1) * c.stride 1 + wordOf (n / c.count 1) * c.stride 2
  let mut bytes : List Byte := []
  let mut bad : List Nat := []
  let mut faults : List XFault := []
  for (a, k) in rowRanges fmt va (c.stride 0) do
    let (bs, e, f) ← fetchElems cl x a k c.rowUnit
    bad := bad ++ e.map fun i => bytes.length / c.rowUnit + i
    bytes := bytes ++ bs
    faults := faults ++ f
  let (scales, f) ← if planeX fmt then fetchGlobal cl x (c.index + wordOf (8 * n)) 8 3 else pure ([], [])
  let v := bytesNat bytes
  let codes := (List.range 256).map fun i =>
    if fmt = 12 then i4xCode (packed v 4) i else (packed v (elemWidth fmt) i, false)
  let lost := if bad.isEmpty then [] else (List.range 256).filter fun i => (rowUnitOf fmt i).any bad.contains
  let lostBytes := ((lost.map (· / 8)).dedup.flatMap fun j => (List.range (planeCount fmt)).map fun p => 32 * p + j) ++
    if f.isEmpty then [] else (List.range 8).map (32 * planeCount fmt + ·)
  return {
    writes :=
      [{ dst := .plane (c.dst.toNat + n * rowBytes fmt), bytes := planesOf fmt (codes.map (·.1)) ++ scales, access := 1
         bad := lostBytes }]
    flags := Flags.invalid (codes.any (·.2))
    faults := faults ++ f }

/-- The code of element i of a plane row, and whether it saturates (R266). -/
def planeCode (fmt row i : Nat) : Nat × Bool :=
  let ee := planeE fmt
  let ss := planeS fmt
  let neg := row.testBit i
  let e := planeField row 1 ee i
  let m := planeField row (1 + ee) ss i
  match planeFmt fmt with
  | some f => ((if neg then 2 ^ (ee + f.fbits) else 0) + e * 2 ^ f.fbits + m % 2 ^ f.fbits, false)
  | none => saturate true (if fmt = 11 then 4 else 8) (if neg then -(m : Int) else m)

/-- Row n of from-planes. -/
def fromPlanesUnit (cl : Nat) (x : Xfer) (n : Nat) : M s0 XUnit := do
  let c := x.ctl
  let fmt := c.pfmt
  let s ← st
  let off := c.src.toNat + n * rowBytes fmt
  let row := bytesNat (s.planeBytes cl off (rowBytes fmt))
  let used := 32 * planeCount fmt + (if planeX fmt then 8 else 0)
  let lost := (List.range used).filter fun i => s.planePoisoned cl (off + i)
  let f1 : List XFault := match lost with
    | i :: _ => [{ addr := wordOf (off + i), cause := .poison, access := 0 }]
    | [] => []
  let vd := c.dst + wordOf (n % c.dcount 1) * c.dstride 1 + wordOf (n / c.dcount 1) * c.dstride 2
  let codes := (List.range 256).map (planeCode fmt row)
  let w := elemWidth fmt
  let all := natBytes (32 * w) ((codes.zipIdx.map fun p => p.1.1 * 2 ^ (w * p.2)).sum)
  let lostElems := if lost.isEmpty then [] else
    (List.range 256).filter fun i => lost.any fun j => decide (j < 32 * planeCount fmt) && j % 32 == i / 8
  let lostUnits := (lostElems.flatMap (rowUnitOf fmt)).dedup
  let mut writes : List XWrite := []
  let mut faults : List XFault := f1
  let mut at_ := 0
  for (a, k) in rowRanges fmt vd (c.dstride 0) do
    let (bad, f) ← checkElems cl x c.dstLocal a k c.rowUnit 1
    faults := faults ++ f
    let first := at_ / c.rowUnit
    let gone := lostUnits.filterMap fun i => if first ≤ i then some (i - first) else none
    writes := writes ++ [{ dst := xdst c.dstLocal a, bytes := (all.drop at_).take k, access := 1, bad := bad ++ gone }]
    at_ := at_ + k
  let scales := natBytes 8 (row / 2 ^ (256 * planeCount fmt))
  let va := c.index + wordOf (8 * n)
  let f2 ← if planeX fmt then checkDst cl x false va 8 3 else pure []
  let badScale := (if f2.isEmpty then [] else List.range 8) ++
    lost.filterMap fun j => if 32 * planeCount fmt ≤ j then some (j - 32 * planeCount fmt) else none
  return {
    writes := if planeX fmt then writes ++ [{ dst := .glob va, bytes := scales, access := 3, bad := badScale }] else writes
    flags := Flags.invalid (codes.any (·.2))
    faults := faults ++ f2 }

def xferUnit (cl : Nat) (x : Xfer) (n : Nat) : M s0 XUnit :=
  if x.ctl.toPlanes then toPlanesUnit cl x n
  else if x.ctl.fromPlanes then fromPlanesUnit cl x n
  else elementUnit cl x n

/-- One write of a unit, or its fault: what a page table has come to say since the unit was checked is met here. -/
def performWrite (cl : Nat) (x : Xfer) (w : XWrite) : M s0 (Option XFault) := do
  match w.dst with
  | .glob va =>
    match ← writeRange (stencilReq cl x) (stencilAgent cl) va w.bytes with
    | .ok _ => return none
    | .error (c, a) => return some { addr := a, cause := c, access := w.access }
  | .loc va =>
    match x.refused false true va w.bytes.length with
    | none =>
      let s ← st
      writeLsFor (s.issuerGang x.by_) x.core va.toNat w.bytes
      return none
    | some a => return some { addr := a, cause := .lsprot, access := w.access }
  | .plane off =>
    writePlane cl off w.bytes
    return none

/-- The writes of a unit. -/
def performUnit (cl : Nat) (x : Xfer) (u : XUnit) : M s0 (Option XFault) := do
  let mut bad : Option XFault := none
  for w in u.writes do
    let f ← performWrite cl x w
    bad := bad.orElse fun _ => f
  return bad

/-- The destination `n` bytes on. -/
def XDst.shift (d : XDst) (n : Nat) : XDst :=
  match d with
  | .glob va => .glob (va + wordOf n)
  | .loc va => .loc (va + wordOf n)
  | .plane off => .plane (off + n)

/-- The elements of a write that have met no fault, each of which is written alone (R186): of `n` bytes in memory, of bytes in planes
and scales. -/
def XWrite.pieces (w : XWrite) (n : Nat) : List XWrite :=
  let k := match w.dst with | .plane _ => 1 | _ => if w.access = 3 then 1 else n
  ((List.range ((w.bytes.length + k - 1) / k)).filter fun i => !w.bad.contains i).map fun i =>
    { w with dst := w.dst.shift (k * i), bytes := (w.bytes.drop (k * i)).take k, bad := [] }

/-- Any of the elements of a chunk's units are written, those of a faulting unit that meet no fault themselves among them
(R186, R271). -/
def performSome (cl : Nat) (x : Xfer) (us : List XUnit) : M s0 Unit := do
  let mask ← openNat
  let ps := us.flatMap fun u => u.writes.flatMap fun w => w.pieces x.ctl.unit
  for (w, i) in ps.zipIdx do
    if mask.testBit i then
      let _ ← performWrite cl x w
      pure ()

/-- The elements of a list in the order that a number picks. -/
def shuffle {α : Type} (p : Nat) : Nat → List α → List α
  | 0, _ => []
  | n + 1, l =>
    match l[p % l.length]? with
    | none => []
    | some a => a :: shuffle (p / l.length) n (l.eraseIdx (p % l.length))

/-! ### Transfers (R261, R268 to R275) -/

def modXfer (cl e : Nat) (f : Xfer → Xfer) : M s0 Unit := do
  let s ← st
  match TMap.find (s.stencil cl).entries e with
  | some x => upd (.stencil cl { s.stencil cl with entries := TMap.put (s.stencil cl).entries e (f x) })
  | none => pure ()

def State.xferId (s : State) (cl e : Nat) (seq : BitVec 32) : Word :=
  wordOf (s.nodeId.toNat * 2 ^ 56 + cl * 2 ^ 40 + e * 2 ^ 34 + seq.toNat)

/-- The end of the chunk at the cursor. -/
def Xfer.chunkEnd (x : Xfer) : Nat :=
  if x.ctl.chunk = 0 then x.ctl.units else min x.ctl.units (x.cursor + x.ctl.chunk)

/-- `k` signals of a transfer (R269). -/
def xferSignal (cl : Nat) (x : Xfer) (k : Nat) : M s0 Unit := do
  let q : Req := { stencilReq cl x with die := dieOf x.by_.agent }
  match x.by_.sig with
  | some g => engineSignal x.by_ q (stencilAgent cl) { g with inc := k * g.inc }
  | none => pure ()
  if x.ctl.sigref ≠ 0 then
    engineSignal x.by_ q (stencilAgent cl)
      { ref := x.ctl.sigref, gen := x.ctl.sigctl.extractLsb' 48 16, inc := k * field x.ctl.sigctl 0 8, scope := x.by_.scope }

/-- Every unit of the chunk at the cursor, evaluated before any of its writes. -/
def chunkUnits (cl : Nat) (x : Xfer) : M s0 (List XUnit) := do
  let mut out : List XUnit := []
  for i in List.range (x.chunkEnd - x.cursor) do
    let u ← xferUnit cl x (x.cursor + i)
    out := out ++ [u]
  return out

/-- The fault of the lowest unit among numbered ones. -/
def lowestOf (fs : List (Nat × XFault)) : Option XFault :=
  (fs.foldl (fun (m : Option (Nat × XFault)) f => match m with | some g => if f.1 < g.1 then some f else m | none => some f)
    none).map (·.2)

/-- The fault record (R272). -/
def State.faultRecord (s : State) (cl e : Nat) (x : Xfer) (f : XFault) : List Word :=
  [s.xferId cl e x.seq, wordOf x.cursor, f.addr,
    wordOf (xcause f.cause * 2 ^ 56 + f.access * 2 ^ 48 + x.faults % 2 ^ 32 * 2 ^ 16 + x.by_.asid.toNat), 0, 0, 0, 0]

/-- Signals that a transfer without a supervisor still delivers. -/
def Xfer.signalsLeft (x : Xfer) : Nat :=
  if x.ctl.perChunk then
    (if x.ctl.chunk = 0 then 1 else (x.ctl.units - x.cursor + x.ctl.chunk - 1) / x.ctl.chunk)
  else 1

/-- What a fault does to the transfer (R271, R274). -/
def settleFault (cl e : Nat) (x : Xfer) (f : XFault) : M s0 Unit := do
  let x := { x with faults := x.faults + 1 }
  if x.cancel then modXfer cl e fun _ => { x with st := .done, cause := 8 }
  else if x.ctl.super ≠ 0 then
    modXfer cl e fun _ => { x with st := .suspended, cause := BitVec.ofNat 8 (xcause f.cause) }
    let s ← st
    let _ ← writeRange (stencilReq cl x) (stencilAgent cl) x.ctl.frec (wordsBytes (s.faultRecord cl e x f))
    engineSignal x.by_ { stencilReq cl x with die := dieOf x.by_.agent } (stencilAgent cl)
      { ref := x.ctl.super, gen := x.ctl.sigctl.extractLsb' 32 16, inc := 1, scope := .system }
  else
    modXfer cl e fun _ => { x with st := .done, cause := BitVec.ofNat 8 (xcause f.cause) }
    enginePend x.by_ f.cause f.addr
    xferSignal cl x x.signalsLeft

/-- The chunk at the cursor is complete. -/
def endChunk (cl e : Nat) (x : Xfer) (us : List XUnit) : M s0 Unit := do
  let next := x.chunkEnd
  let last := decide (x.ctl.units ≤ next)
  let x := { x with cursor := next, flags := us.foldl (fun f (u : XUnit) => f ||| u.flags) x.flags }
  let x := if x.cancel then { x with st := .done, cause := 8 } else if last then { x with st := .done } else x
  modXfer cl e fun _ => x
  if x.ctl.perChunk || last then xferSignal cl x 1

/-- CHUNK_COMPLETE: the units of the chunk are written in any order (R268). Where source and destination overlap, an element is the
value before the chunk, or one that the chunk has written (R265). A write that faults after all stops the chunk (R271). -/
def chunkCompleteBody (cl e : Nat) : M s0 Unit := do
  let s ← st
  match TMap.find (s.stencil cl).entries e with
  | none => notEnabled "CHUNK_COMPLETE"
  | some x =>
    require "CHUNK_COMPLETE" (x.st == .running)
    actFor x.by_
    let us ← chunkUnits cl x
    require "CHUNK_COMPLETE" (us.all fun u => u.faults.isEmpty)
    let mask ← openNat
    let order ← openNat
    let mut bad : List (Nat × XFault) := []
    for (u, i) in shuffle order us.length us.zipIdx do
      let v ← xferUnit cl x (x.cursor + i)
      match ← performUnit cl x (if mask.testBit i && v.faults.isEmpty then v else u) with
      | some f => bad := (i, f) :: bad
      | none => pure ()
    match lowestOf bad with
    | some f => settleFault cl e x f
    | none => endChunk cl e x us

def execChunkComplete (cl e : Nat) (s : State) : Outcome := run s (chunkCompleteBody cl e)

/-- The fault of the lowest unit (R271). -/
def lowestFault (us : List XUnit) : M s0 (Option XFault) := do
  match us.find? fun u => !u.faults.isEmpty with
  | none => return none
  | some u =>
    let i ← if u.faults.length ≤ 1 then pure 0 else choose u.faults.length
    return u.faults[i]?

/-- CHUNK_FAULT: some access of the chunk faults; any of its other elements may have been written. -/
def chunkFaultBody (cl e : Nat) : M s0 Unit := do
  let s ← st
  match TMap.find (s.stencil cl).entries e with
  | none => notEnabled "CHUNK_FAULT"
  | some x =>
    require "CHUNK_FAULT" (x.st == .running)
    actFor x.by_
    let us ← chunkUnits cl x
    match ← lowestFault us with
    | none => notEnabled "CHUNK_FAULT"
    | some f =>
      performSome cl x us
      settleFault cl e x f

/-- A running transfer writes some of the elements of its chunk before the chunk is complete (R186). -/
def chunkEarly (cl e : Nat) : M s0 Unit := do
  let s ← st
  match TMap.find (s.stencil cl).entries e with
  | none => pure ()
  | some x =>
    if x.st == .running then
      actFor x.by_
      let us ← chunkUnits cl x
      performSome cl x us

def execChunkFault (cl e : Nat) (s : State) : Outcome := run s (chunkFaultBody cl e)

/-! ### The instructions (R277, R278, R491 to R493) -/

/-- A format G instruction that completes at issue. -/
def execXset (fn : BitVec 6) (a : XReg) (sy : Sync) (s : State) : Outcome :=
  strandStep s sy false false (onEasel false) do
    let c ← myCtx
    modMe fun x => x.modR fun r => { r with shadow := TMap.put r.shadow fn.toNat (shadowKeep fn.toNat (c.r.getX a)) }
    return .next

/-- The lowest entry that is FREE or DONE (R275). -/
def Stencil.freeEntry (x : Stencil) : Option Nat :=
  (List.range 64).find? fun e => match TMap.find x.entries e with | none => true | some y => y.st == .done

def nextXferSeq (q : BitVec 32) : BitVec 32 := if q + 1 = 0 then 1 else q + 1

def xgoBody (d : XReg) (sy : Sync) : M s0 Fin := do
  let s ← st
  let c := s.ctx s.cur
  let cl := clusterOfCore (coreOf s.cur)
  match (s.stencil cl).freeEntry with
  | none => stop .stall
  | some e =>
    let is ← issuer sy
    engineAcquire (stencilAgent cl) sy.scope
    let u := s.stencil cl
    let x : Xfer :=
      { st := .running, seq := u.seq, ctl := c.r.shadow, by_ := is, lsbase := c.r.lsbase, lslim := c.r.lslim, cursor := 0
        faults := 0, cause := 0, flags := 0, cancel := false }
    let ok := x.ctl.valid
    let x := if !ok then { x with st := .done, cause := 7 } else if x.ctl.units = 0 then { x with st := .done } else x
    upd (.stencil cl { seq := nextXferSeq u.seq, entries := TMap.put u.entries e x })
    writeX d (s.xferId cl e u.seq)
    if x.st == .done then xferSignal cl x 1
    return .next

def execXgo (d : XReg) (sy : Sync) (s : State) : Outcome := strandStep s sy true true (onEasel false) (xgoBody d sy)

/-- What a request of R278 finds: a refusal, no transfer, or the unit, entry and transfer. -/
inductive XFound where
  | refused | none
  | some (cl e : Nat) (x : Xfer)

def State.findXfer (s : State) (id : Word) : XFound :=
  let c := s.ctx s.cur
  let cl := field id 40 8
  let e := field id 34 6
  if vaNode id ≠ s.nodeId || decide (191 < cl) then .refused
  else
    match TMap.find (s.stencil cl).entries e with
    | .none => .none
    | .some x =>
      if s.xferId cl e x.seq ≠ id then .none
      else if c.r.mode == .user && c.r.asid ≠ x.by_.asid then .refused
      else .some cl e x

def XferSt.code : XferSt → Nat
  | .running => 1 | .suspended => 2 | .done => 3

def Xfer.word (x : Xfer) : Word :=
  wordOf (x.st.code * 2 ^ 62 + x.cause.toNat * 2 ^ 48 + x.flags.toNat * 2 ^ 40 + x.cursor)

def xstatBody (d a : XReg) : M s0 Fin := do
  let s ← st
  writeX d (match s.findXfer ((s.ctx s.cur).r.getX a) with | .some _ _ x => x.word | _ => 0)
  return .next

def execXstat (d a : XReg) (sy : Sync) (s : State) : Outcome := strandStep s sy false false (pure ()) (xstatBody d a)

def xresumeBody (d a : XReg) : M s0 Fin := do
  let s ← st
  match s.findXfer ((s.ctx s.cur).r.getX a) with
  | .refused => writeX d 3
  | .none => writeX d 2
  | .some cl e x =>
    if x.st == .suspended then
      modXfer cl e fun x => { x with st := .running, cause := 0 }
      writeX d 0
    else writeX d 1
  return .next

def execXresume (d a : XReg) (sy : Sync) (s : State) : Outcome := strandStep s sy false false (pure ()) (xresumeBody d a)

def xcancelBody (d a : XReg) : M s0 Fin := do
  let s ← st
  match s.findXfer ((s.ctx s.cur).r.getX a) with
  | .refused => writeX d 3
  | .none => writeX d 2
  | .some cl e x =>
    match x.st with
    | .done => writeX d 1
    | .suspended =>
      modXfer cl e fun x => { x with st := .done, cause := 8 }
      writeX d 0
    | .running =>
      modXfer cl e fun x => { x with cancel := true }
      writeX d 0
  return .next

def execXcancel (d a : XReg) (sy : Sync) (s : State) : Outcome := strandStep s sy false false (pure ()) (xcancelBody d a)

end Sys2Proof.Machine
end

