-- ==== Sys2Proof/Machine/Errors.lean ====
section
/-! DEFINITION. Checkers, uncorrectable errors, and the memory links (R298, R360, R361, R383). -/

namespace Sys2Proof.Machine

open Sys2Proof

variable {s0 : State}

/-! ### Checkers (R360) -/

/-- The record of a strand that a checker or an uncorrectable error ends, in the error log of its palette die (R358). What ADDR and
DETAIL hold is open. DESIGN CHOICE (log 92): the POISON record of a context error goes there like the PIPE record of R360. -/
def recordFailed (a : Nat) (code : RecCode) : M s0 Unit := do
  let s ← st
  let addr ← openWord
  let detail ← openWord
  logEvent (dieOf a) code (s.ctx a).r.launch (s.ctx a).r.index.toNat addr detail

/-- Strands that a checker or an uncorrectable error ends: their records, the failure of the gangs that they are members of, and their
end without the release of EXIT (R298, R360, R361). -/
def failStrands (as : List Nat) (code : RecCode) : M s0 Unit := do
  for a in as do
    recordFailed a code
  let s ← st
  for k in (as.filterMap s.gangOf).dedup do
    gangFail k
  for a in as do
    let s ← st
    if (s.ctx a).phase.alive then abandon a

/-- A core that leads or follows leaves its trace set. -/
def dissolveTrace (core : Nat) : M s0 Unit := do
  let s ← st
  for n in core :: s.followers core do
    leaveTrace n
    startScan n

/-- The second mismatch of a core's instruction: the core is marked failed, every strand ends with a PIPE record, its contexts
become FREE once they have drained, and a gang that it has a member of fails (R298). -/
def failCore (core : Nat) : M s0 Unit := do
  modCore core fun c => { c with failed := true }
  dissolveTrace core
  let s ← st
  let mine := (s.ctxs.filter fun p => coreOf p.1 == core).map (·.1)
  failStrands (mine.filter fun a => (s.ctx a).phase.alive) .pipe
  for a in mine do
    let s ← st
    if (s.ctx a).phase == .idle then freeCtx a

/-- A Fresco command that its engine ends: its status or record says POISON, and it signals. -/
def failCommand (cl : Nat) (c : FCmd) : M s0 Unit := do
  actFor c.by_
  match c.instr with
  | .mloadw b _ _ _ => failBank cl b.toNat .poison false
  | .mmul t _ _ _ _ _ _ _ _ _ _ _ => writeStatus cl t.toNat 0xA1 .poison 0 false 0 0
  | .mgrad t _ _ _ _ _ _ _ _ _ _ _ => writeStatus cl t.toNat 0xA2 .poison 0 false 0 0
  | .mdrain t _ _ _ _ _ _ _ _ _ _ _ => writeStatus cl t.toNat 0xA3 .poison 0 false 0 0
  | _ => pure ()
  mstatEffect cl c
  modFresco cl fun f => { f with cmds := f.cmds.filter fun x => x.seq != c.seq }
  match c.by_.sig with
  | some g => engineSignal c.by_ (signalReq c.by_ cl) (25088 + cl) g
  | none => pure ()

/-- One of the operations of an engine that its checker meets. -/
def failEngine (master : Nat) : M s0 Unit := do
  let s ← st
  if master < 1760 then
    let cl := master - 1568
    let cs := (s.fresco cl).cmds.filter (·.started)
    let i ← if cs.length ≤ 1 then pure 0 else choose cs.length
    match cs[i]? with
    | some c => failCommand cl c
    | none => notEnabled "CHECKER_MISMATCH"
  else if 1952 ≤ master then failGlaze (master - 1952)
  else
    let cl := master - 1760
    let es := (s.stencil cl).entries.filter fun e => e.2.st == .running
    let i ← if es.length ≤ 1 then pure 0 else choose es.length
    match es[i]? with
    | some (e, x) =>
      actFor x.by_
      modXfer cl e fun _ => { x with st := .done, cause := BitVec.ofNat 8 (xcause .poison) }
      xferSignal cl x x.signalsLeft
    | none => notEnabled "CHECKER_MISMATCH"

/-- CHECKER_MISMATCH of a core, or of an engine by its master number; the retry of a first mismatch has no visible effect. -/
def checkerMismatchBody (core : Nat) (second : Bool) : M s0 Unit := do
  require "CHECKER_MISMATCH" (decide (core < 1960))
  if second then
    if core < numCores then failCore core else failEngine core

def execCheckerMismatch (core : Nat) (second : Bool) (s : State) : Outcome := run s (checkerMismatchBody core second)

/-! ### Uncorrectable errors (R361) -/

/-- A counter that holds all ones now. -/
def loseCounter (c : Ctr) (die : Nat) (ref : Word) : M s0 Unit := do
  setCtrV c (BitVec.allOnes 64)
  wakeWaiters c
  let who ← openWord
  let detail ← openWord
  logEvent die .poison 0 who.toNat ref detail

def uncorrectableErrorBody (p : UncPlace) : M s0 Unit := do
  let s ← st
  match p with
  | .memory pa n =>
    require "UNCORRECTABLE_ERROR" (decide (n ≤ 256) && (List.range n).all fun i => s.inModule (pa + i))
    for i in List.range n do
      upd (.poison (pa + i))
  | .localStore core addr n =>
    require "UNCORRECTABLE_ERROR" (decide (core < numCores) && decide (addr + n ≤ lsSize core))
    for i in List.range n do
      upd (.lsPoison (lsKey core (addr + i)))
  | .plane cluster off n =>
    require "UNCORRECTABLE_ERROR" (decide (cluster < 192) && decide (off + n ≤ planeSize))
    for i in List.range n do
      upd (.planePoison (planeKey cluster (off + i)))
  | .bank cluster bank =>
    require "UNCORRECTABLE_ERROR" (decide (cluster < 192) && decide (bank < 4))
    failBank cluster bank .poison ((s.fresco cluster).bank bank).nv
  | .cell core cell =>
    require "UNCORRECTABLE_ERROR" (decide (core < numCores) && decide (cell < 256))
    loseCounter (.cell core cell) (dieOfCore core) (s.cellRef core cell)
  | .homeWord pa =>
    require "UNCORRECTABLE_ERROR" (s.inModule pa && pa % 8 == 0)
    loseCounter (.home pa) (paDie pa) (wordOf pa)
  | .context a =>
    require "UNCORRECTABLE_ERROR" (isAgent a && (s.ctx a).phase.alive)
    failStrands [a] .poison

def execUncorrectableError (p : UncPlace) (s : State) : Outcome := run s (uncorrectableErrorBody p)

/-! ### Memory links (R44, R383) -/

/-- Device link 6n + j is link j of palette die n (R44). -/
def modLink (link : Nat) (f : Link → Link) : M s0 Unit :=
  modDie (link / 6) fun d => { d with links := TMap.put d.links (link % 6) (f (TMap.get Link.reset d.links (link % 6))) }

/-- LINK_POISON_REPORT: the report is counted, and poisons the line. -/
def linkPoisonReportBody (link offset : Nat) : M s0 Unit := do
  let s ← st
  let pa := link / 6 * 2 ^ 43 + link % 6 * 2 ^ 40 + offset / 256 * 256
  require "LINK_POISON_REPORT" (decide (link < 48) && decide (offset < 2 ^ 40) && s.inModule pa && s.linkUp pa)
  modLink link fun l => { l with uncorr := satInc l.uncorr }
  for i in List.range 256 do
    upd (.poison (pa + i))

def execLinkPoisonReport (link offset : Nat) (s : State) : Outcome := run s (linkPoisonReportBody link offset)

def linkDownBody (link : Nat) : M s0 Unit := do
  require "LINK_DOWN" (decide (link < 48))
  modLink link fun l => { l with up := false }

def execLinkDown (link : Nat) (s : State) : Outcome := run s (linkDownBody link)

/-- LINK_TRAINED: a module of up to 256 GiB answers behind the link (R44). -/
def linkTrainedBody (link capacity : Nat) : M s0 Unit := do
  require "LINK_TRAINED" (decide (link < 48) && decide (capacity ≤ moduleMax))
  modLink link fun l => { l with up := true, capacity := BitVec.ofNat 16 capacity }

def execLinkTrained (link capacity : Nat) (s : State) : Outcome := run s (linkTrainedBody link capacity)

def correctedErrorReportBody (link : Nat) : M s0 Unit := do
  require "CORRECTED_ERROR_REPORT" (decide (link < 48))
  modLink link fun l => { l with corr := satInc l.corr }

def execCorrectedErrorReport (link : Nat) (s : State) : Outcome := run s (correctedErrorReportBody link)

end Sys2Proof.Machine
end

