-- ==== Sys2Proof/Machine/Events.lean ====
section
/-! DEFINITION. Events of contexts, cores and homes (R50, R56, R58, R150, R173, R176, R195, R200, R204, R231, R232, R367, R370,
R373, R379). -/

namespace Sys2Proof.Machine

open Sys2Proof

variable {s0 : State}

/-- A context at an instruction boundary: nothing of its instruction has been done beyond its wait (R58). -/
def Progress.whole (p : Progress) : Bool := p.boundary && !p.sig && !p.handed && p.part.isNone

/-- QUANTUM_EXPIRY: the core switches and the context becomes READY; QUANTUM counts as it stood at the last switch (R58). Cycles
are not modelled: any boundary may be the one. -/
def quantumExpiryBody (core : Nat) : M s0 Unit := do
  let s ← st
  match s.runningCtx core with
  | none => notEnabled "QUANTUM_EXPIRY"
  | some j =>
    require "QUANTUM_EXPIRY" ((s.ctx (16 * core + j)).prog.whole && (s.core core).bound != 0 && (s.core core).trace == .none && !(s.core core).failed)
    switchOut (16 * core + j) .ready

def execQuantumExpiry (core : Nat) (s : State) : Outcome := run s (quantumExpiryBody core)

/-- An off-core reference that an event of its own completes: a load or an atomic, or a STEP that waits for the strand's engine
operations (R465). -/
def State.returns (s : State) (a : Nat) (w : Wait) : Bool :=
  match w.kind with
  | .ref => true
  | .step => !(s.ctx a).gang.any (·.arrived) && !s.engineBusy true fun b => s.ofCtx a b
  | _ => false

/-- REFERENCE_COMPLETE: the data of a load, or the answer of an atomic operation, has returned (R50). -/
def referenceCompleteBody (a : Nat) : M s0 Unit := do
  let s ← st
  require "REFERENCE_COMPLETE" ((s.ctx a).phase == .waiting && (s.ctx a).wait.any (s.returns a))
  wakeCtx a none

def execReferenceComplete (a : Nat) (s : State) : Outcome := run s (referenceCompleteBody a)

/-- STORE_HOME_CHECK: the first home answers the request of an awaiting line; which line is open (R150, R166), and how many of its
stores are performed before another agent's next access (R158). The stores that follow an awaiting store of another line keep
waiting. -/
def storeHomeCheckBody (a : Nat) : M s0 Unit := do
  let s ← st
  let lines := (s.ctx a).lines
  let waiting := lines.filter fun l => l.faulted.isNone
  let i ← if waiting.length ≤ 1 then pure 0 else choose waiting.length
  match waiting[i]? with
  | none => notEnabled "STORE_HOME_CHECK"
  | some l =>
    let due := duePrefix lines l
    let n ← if due.length ≤ 1 then pure due.length else do
      let k ← choose due.length
      pure (k + 1)
    let ok ← checkLine a l (due.take n)
    -- behind a lease the request takes its place in the line's queue, once
    require "STORE_HOME_CHECK" (ok || l.queued.isNone)

def execStoreHomeCheck (a : Nat) (s : State) : Outcome := run s (storeHomeCheckBody a)

/-- LEASE_BOUND_EXPIRY: a lease ends at its bound, which is in cycles: any moment may be the one (R173). -/
def leaseBoundExpiryBody (a line : Nat) : M s0 Unit := do
  let s ← st
  require "LEASE_BOUND_EXPIRY" ((s.ctx a).leases.any fun l => l.live && l.line == line)
  settleHolder a
  modCtx a fun x =>
    { x with leases := x.leases.map fun l => if l.live && l.line == line then { l with live := false } else l }
  wakeLine line

def execLeaseBoundExpiry (a line : Nat) (s : State) : Outcome := run s (leaseBoundExpiryBody a line)

/-! ### Waits -/

/-- WAIT_POLL: a wait that its home's full list refused reads its counters, and tries to register again (R204). -/
def waitPollBody (a : Nat) : M s0 Unit := do
  let s ← st
  match (s.ctx a).wait with
  | none => notEnabled "WAIT_POLL"
  | some w =>
    let lost := w.kind == .field && w.watches.isEmpty
    require "WAIT_POLL" (lost || w.watches.any fun x => !x.listed)
    if lost then wakeCtx a none
    else if s.satWait w then endWait a w
    else
      let mut ws : List Watch := []
      for x in w.watches do
        if x.listed then ws := ws ++ [x]
        else
          let y ← mkWatch ws x.slot x.ctr x.mark
          ws := ws ++ [y]
      modCtx a fun x => { x with wait := some { w with watches := ws } }

def execWaitPoll (a : Nat) (s : State) : Outcome := run s (waitPollBody a)

/-- CWAIT_TIMEOUT: status 2, never before the deadline; of a wait that is satisfied by then, 0 (R200, R408). -/
def cwaitTimeoutBody (a : Nat) : M s0 Unit := do
  let s ← st
  match (s.ctx a).wait with
  | none => notEnabled "CWAIT_TIMEOUT"
  | some w =>
    require "CWAIT_TIMEOUT" (w.kind == .cwait && w.deadline.any fun t => decide (t ≤ s.time))
    if s.satWait w then endWait a w else wakeCtx a (some (.cwait 2 0))

def execCwaitTimeout (a : Nat) (s : State) : Outcome := run s (cwaitTimeoutBody a)

/-! ### System calls by the ring (R231, R232, R367) -/

/-- The record of a call, in ticket order: word 0 is written last. The layout of the core and context in word 1 is open. -/
def State.callRecord (s : State) (a t : Nat) : List Word :=
  let c := s.ctx a
  let x (n : XReg) : Word := c.r.getX n
  [wordOf (t + 1), Config.ringWho a, c.ir &&& 0xFFFF, x 1, x 2, x 3, x 4, x 5]

/-- A fault on behalf of a call is logged, and the strand stays parked (R232). -/
def parkUntilMore (a : Nat) (t : Option Nat) (c : Cause) (addr : Word) : M s0 Unit := do
  logEvent (dieOf a) .fault 0 a addr (causeWord c)
  let w ← parkedWait a t
  modCtx a fun x => { x with wait := some w }

/-- The writes of a call, and POSTED, a release at system scope: a fault of the ring or of POSTED parks the strand again. -/
def postCall (a t : Nat) : M s0 Unit := do
  let s ← st
  let d := s.die (dieOf a)
  let q := homeReq (dieOf a) d.sysasid
  let at_ := keepBits d.sysring 12 52 + wordOf (64 * (t % 2 ^ field d.sysring 0 4))
  let ws := s.callRecord a t
  match ← writeRange q a (at_ + 8) (wordsBytes ws.tail) with
  | .error (c, b) => parkUntilMore a (some t) c b
  | .ok _ =>
    match ← writeWord q a at_ (ws.headD 0) with
    | .error (c, b) => parkUntilMore a (some t) c b
    | .ok _ =>
      match ← resolveRef q { rd := false, wr := true } d.sysposted with
      | .error c => parkUntilMore a (some t) c d.sysposted
      | .ok p =>
        pushScopeOf a .system
        let _ ← addAt p 1 none d.sysposted (Adder.party a)
        modCtx a fun x => { x with wait := some { kind := .sysPost t, watches := [], all := false, deadline := none } }

/-- A parked call of the die with a lower ticket that waits for nothing but its turn goes first (R231). -/
def State.lowerTicket (s : State) (a t : Nat) : Bool :=
  s.ctxs.any fun p =>
    dieOf p.1 == dieOf a &&
      match p.2.wait with
      | some w => match w.kind with | .sysPark (some u) => decide (u < t) && w.all && w.watches.all s.satWatch | _ => false
      | none => false

/-- A parked call whose watch no longer stands for FREE watches the counter that FREE names now (R232). -/
def rewatch (a : Nat) (t : Option Nat) : M s0 Unit := do
  let w ← parkedWait a t
  require "SYSCALL_POST" w.all
  modCtx a fun x => { x with wait := some w }

/-- A parked call goes on: it takes its ticket, or posts once FREE allows the ticket (R231). -/
def postParked (a : Nat) (t : Option Nat) : M s0 Unit := do
  let s ← st
  let d := s.die (dieOf a)
  match t with
  | none =>
    match ← resolveRef (homeReq (dieOf a) d.sysasid) { rd := false, wr := true } d.systake with
    | .error c => parkUntilMore a none c d.systake
    | .ok k =>
      let r ← addAt k 1 none d.systake (Adder.party a)
      modCtx a fun x =>
        { x with wait := some { kind := .sysPark (some r.old.toNat), watches := [], all := true, deadline := none } }
  | some t =>
    match ← freeCtr a with
    | .error c => parkUntilMore a (some t) c d.sysfree
    | .ok k =>
      let s ← st
      require "SYSCALL_POST"
        (!s.lowerTicket a t && decide (t + 1 ≤ (s.ctrV k).toNat + 2 ^ field d.sysring 0 4))
      postCall a t

/-- SYSCALL_POST: a step of a parked call. -/
def syscallPostBody (a : Nat) : M s0 Unit := do
  let s ← st
  match (s.ctx a).wait with
  | none => notEnabled "SYSCALL_POST"
  | some w =>
    require "SYSCALL_POST" ((s.die (dieOf a)).sysring.getLsbD 4)
    match w.kind with
    | .sysPark t =>
      let now ← freeCtr a
      let moved := match now with | .ok k => w.watches.any fun x => x.ctr != k | .error _ => false
      if !w.all || moved then rewatch a t
      else
        require "SYSCALL_POST" (w.watches.all s.satWatch)
        postParked a t
    | _ => notEnabled "SYSCALL_POST"

def execSyscallPost (a : Nat) (s : State) : Outcome := run s (syscallPostBody a)

/-- SYSCALL_REPLY: a write of REPLY word 1 (R367); the TRAP completes when the context issues again. -/
def syscallReplyBody (a : Nat) (word1 : Word) : M s0 Unit := do
  let s ← st
  require "SYSCALL_REPLY" (isAgent a)
  let hit := (s.ctx a).wait.any fun w =>
    match w.kind with
    | .sysPost t => word1.getLsbD 63 && t % 2 ^ 32 == field word1 0 32
    | _ => false
  if hit then wakeCtx a (some (.value (s.ctx a).replyReg))

def execSyscallReply (a : Nat) (word1 : Word) (s : State) : Outcome := run s (syscallReplyBody a word1)

/-! ### Homes -/

/-- The strand's operation that an add belongs to, as its issuer. -/
def addIssuer (r : AddReq) (i : AddIssuer) (s : State) : Issuer :=
  { agent := i.ctx, life := i.life
    launch := if (s.ctx i.ctx).life = i.life then (s.ctx i.ctx).owner else none
    err := i.err, asid := r.asid, user := false, seq := i.order
    sig := none, slot := none, scope := .device, index := i.index }

/-- COUNTER_ADD_AT_HOME: an add of an engine, a signal or a packet (R195, R497). -/
def counterAddAtHomeBody (r : AddReq) : M s0 Unit := do
  require "COUNTER_ADD_AT_HOME" (decide (r.amount < 2 ^ 48))
  let q : Req := { die := r.die, asid := r.asid, user := false, master := masterPrimer }
  match r.issuer with
  | none => logAdd q r.ref r.amount r.gen r.agent
  | some i =>
    let s ← st
    let b := addIssuer r i s
    match ← resolveRef q { rd := false, wr := true } r.ref with
    | .error c => enginePend b c r.ref
    | .ok c =>
      let s ← st
      let _ ← addAt c r.amount r.gen r.ref (s.engineAdder b r.agent)
      pure ()

def execCounterAddAtHome (r : AddReq) (s : State) : Outcome := run s (counterAddAtHomeBody r)

/-- A read-write of a remote agent at its home; the answer leaves the device. Poisoned data is not written (R396). What another
device's page was forwarded for goes on to that device (R143). -/
def remoteUpdate (q : Req) (agent : Nat) (va : Word) (n : Nat) (f : Nat → Nat) : M s0 Unit := do
  if va.toNat % n = 0 then
    match ← xlate q .atomic va with
    | .ok (.phys pa) =>
      if !isConfig pa then
        let s ← st
        if s.leasedByOther agent pa then notEnabled "REMOTE_ACCESS"
        let key := s.keyOf q.die q.asid va pa
        let bs ← readKeyed pa n key
        if !(List.range n).any fun i => s.poisoned (pa + i) then
          stampLines none pa n
          writeKeyed pa (natBytes n (f (bytesNat bs))) key
    | .ok (.far key) =>
      settleFar key n
      let s ← st
      let old := bytesNat ((List.range n).map fun i => s.farByte (key + i))
      writeFarHome agent key (natBytes n (f old))
    | .error _ => pure ()

/-- A RED of a remote agent (R132, R171, R183, R451). -/
def remoteRed (q : Req) (agent : Nat) (va : Word) (n : Nat) (op : AOp) (val : Nat) : M s0 Unit := do
  if va.toNat % n = 0 then
    match ← xlate q .store va with
    | .ok (.phys pa) =>
      if !isConfig pa then
        let s ← st
        if s.leasedByOther agent pa then notEnabled "REMOTE_ACCESS"
        redHome agent q.die q.asid pa (s.keyOf q.die q.asid va pa) n op val
        stampLines none pa n
    | .ok (.far key) => farRedHome agent q.die q.asid key n op val
    | .error _ => pure ()

def remoteOpBody (q : Req) (agent : Nat) (va : Word) (op : RemoteOp) : M s0 Unit := do
  match op with
  | .read n =>
    let _ ← readRange q agent va n
    pure ()
  | .write bs =>
    let _ ← writeRange q agent va bs
    pure ()
  | .amo o sz b =>
    let w := sizeBits sz
    remoteUpdate q agent va (sizeBytes sz) fun old => (aopApply o w old (b.toNat % 2 ^ w)).1
  | .red o sz b =>
    remoteRed q agent va (sizeBytes sz) o (b.toNat % 2 ^ sizeBits sz)
  | .cas sz e n =>
    let w := sizeBits sz
    remoteUpdate q agent va (sizeBytes sz) fun old => if old = e.toNat % 2 ^ w then n.toNat % 2 ^ w else old
  | .ctrAdd amount gen =>
    require "REMOTE_ACCESS" (decide (amount < 2 ^ 48))
    match ← resolveRef q { rd := false, wr := true } va with
    | .ok k =>
      let _ ← addAt k amount gen va (Adder.party agent)
      pure ()
    | .error _ => pure ()
  | .ctrReset =>
    -- a local counter is reached as the target of a signal alone (R193)
    if isLocalRef va then return ()
    match ← resolveRef q { rd := false, wr := true } va with
    | .ok k =>
      let _ ← resetCtr k none
      pure ()
    | .error _ => pure ()

/-- An address as this device's tables translate it. An access that another device has forwarded to an OWNER keeps the NODE of its
page, and is walked here like any other (R143). A local reference stays as it is. -/
def State.homeVa (s : State) (va : Word) : Word :=
  if isLocalRef va then va else wordOf (s.nodeId.toNat * 2 ^ 56 + field va 0 56)

/-- REMOTE_ACCESS (R143, R176, R373, R379): a packet that does not authenticate is logged with AUTH, a message of an unmapped job
under a code that the spec does not name; the job's entry of the access table gives the address space. -/
def remoteAccessBody (r : RemoteAcc) : M s0 Unit := do
  let s ← st
  let agent := 65536 + r.node.toNat
  require "REMOTE_ACCESS" (decide (r.die < 8))
  if !r.authentic then
    let d ← openWord
    logEvent r.die .auth 0 agent r.va d
  else
    match s.jobSpace r.die r.job with
    | none => dropUnmapped r.die agent r.va
    | some (_, none) => pure ()
    | some (slot, some asid) =>
      let va := s.homeVa r.va
      if vaNode va == s.nodeId then
        remoteOpBody { die := r.die, asid := asid, user := false, master := masterJob slot } agent va r.op

def execRemoteAccess (r : RemoteAcc) (s : State) : Outcome := run s (remoteAccessBody r)

/-! ### Registers and words -/

/-- REGISTER_WRITE: a write that reaches a configuration register, admitted by its target (R370). -/
def registerWriteBody (device : Bool) (die off : Nat) (v : Word) : M s0 Unit := do
  match cfgReg device die off with
  | some r => if die < 8 then cfgWrite r v else notEnabled "REGISTER_WRITE"
  | none => notEnabled "REGISTER_WRITE"

def execRegisterWrite (device : Bool) (die off : Nat) (v : Word) (s : State) : Outcome :=
  run s (registerWriteBody device die off v)

/-- ILLEGAL_OPCODE: the strand that executes has fetched a word that names no instruction (R100). -/
def illegalOpcodeBody (base : Word) : M s0 Unit := do
  setIr base none
  let c ← myCtx
  takeMyTrap .illegal false c.r.pc base

def execIllegalOpcode (base : Word) (s : State) : Outcome := run s (illegalOpcodeBody base)

end Sys2Proof.Machine
end

