-- ==== Sys2Proof/Machine/Save.lean ====
section
/-! DEFINITION. Pre-emption: the request, the halt, the save and its image; RESTORE packets (R189 to R191, R225, R275, R276, R299,
R362 to R368). -/

namespace Sys2Proof.Machine

open Sys2Proof

variable {s0 : State}

/-! ### The request (R362) -/

/-- The requester of a save: the context's core, in the context's address space. -/
def saveReq (a : Nat) (x : Ctx) : Req := { die := dieOf a, asid := x.r.asid, user := false, master := coreOf a }

/-- The cores of a core's trace set: none, when it is in none. -/
def State.traceSet (s : State) (core : Nat) : List Nat :=
  let leader := match (s.core core).trace with | .follower l _ _ => l | .none => core
  match s.followers leader with
  | [] => []
  | fs => leader :: fs

/-- The gang of a context's strand, or of the one that has ended there in the open step (R79, R299). -/
def State.gangIn (s : State) (a : Nat) : Option Nat :=
  (s.gangOf a).orElse fun _ => if s.keptEnded a then (s.ctx a).owner else none

/-- The contexts that a save of a context takes in beside it: those of its gang and of its trace set. -/
def State.partners (s : State) (a : Nat) : List Nat :=
  let set := s.traceSet (coreOf a)
  let gang := s.gangIn a
  (s.ctxs.filter fun p =>
    ((p.2.phase.alive || p.2.phase == .draining) && set.contains (coreOf p.1)) ||
      (gang.isSome && s.gangIn p.1 == gang)).map (·.1)

def closePartners (s : State) : Nat → List Nat → List Nat
  | 0, l => l
  | n + 1, l => closePartners s n (l ++ l.flatMap s.partners).dedup

/-- The set that a request to a context takes in. -/
def State.saveSet (s : State) (a : Nat) : List Nat := closePartners s (s.cores.length + s.launches.length + 1) [a]

/-- PREEMPT_REQUEST: a write while BUSY is ignored. A record that cannot be read requests nothing, and is logged. -/
def preemptRequestBody (a : Nat) (value : Word) : M s0 Unit := do
  require "PREEMPT_REQUEST" (isAgent a)
  let s ← st
  let x := s.ctx a
  if x.preempt.isNone then
    modCtx a fun x => { x with preemptReg := keepBits value 6 58 }
    match ← readWords (saveReq a x) a (keepBits value 6 58) 8 with
    | .error (c, v) => logEvent (dieOf a) .fault 0 a v (causeWord c)
    | .ok ws =>
      let w := wordAt ws
      let id ← freshSeq
      let p : Preempt :=
        { id := id, asid := x.r.asid, image := w 0, isize := w 1
          done := { ref := w 2, gen := (w 3).extractLsb' 48 16, inc := (w 3).extractLsb' 0 48 }, halted := false }
      let s ← st
      for b in s.saveSet a do
        modCtx b fun x => { x with preempt := x.preempt.orElse fun _ => some p }

def execPreemptRequest (a : Nat) (value : Word) (s : State) : Outcome := run s (preemptRequestBody a value)

/-! ### The halt (R363) -/

/-- A follower context stops where its leader's has stopped: it has executed what the leader's has forwarded, but for an instruction
that the leader itself has yet to complete (R61, R65). -/
def State.streamDone (s : State) (a : Nat) : Bool :=
  match (s.core (coreOf a)).trace with
  | .follower l true q =>
    let lead := s.ctx (16 * l + a % 16)
    let left := (q.filter fun f => f.ctx == a % 16).length
    (lead.halted || !lead.phase.alive) && (left == 0 || (lead.prog.handed && left == 1))
  | _ => true

/-- A load or a lease whose data has not returned is executed again (R363): the strand stands before it. Followers that have it do not
get it again. -/
def takeBack (a : Nat) : M s0 Unit := do
  let s ← st
  let x := s.ctx a
  match x.wait, x.before with
  | some w, some b =>
    if w.kind == .ref then
      let own (p : Pend) : Bool := p.isRead && decide (b.seq ≤ p.seq)
      let handed := x.handler == 0 && !(s.followers (coreOf a)).isEmpty
      modCtx a fun x =>
        { x with
          r := b.r, straight := b.straight, wait := none, before := none, phase := .ready
          pend := x.pend.filter fun p => !own p
          errAddr := if x.pend.any own then b.errAddr else x.errAddr
          prog := { x.prog with handed := handed } }
  | _, _ => pure ()

/-- CONTEXT_HALT: the context stops issuing at an instruction boundary outside monitor mode and keeps its state until the save
completes (R50, R363): a wait that is not satisfied then, or data that has not returned, is executed again. A SPAWN held by a full queue
is abandoned (R459). -/
def contextHaltBody (a : Nat) : M s0 Unit := do
  let s ← st
  let x := s.ctx a
  require "CONTEXT_HALT" (x.preempt.isSome && !x.halted && x.phase.alive && x.r.mode != .monitor && x.prog.boundary &&
    s.streamDone a)
  abandonSpawn a
  leaveQueue a
  takeBack a
  modCtx a fun x => { x with preempt := x.preempt.map fun p => { p with halted := true } }
  -- the core runs its other contexts
  if x.phase == .running then switchOut a .running

def execContextHalt (a : Nat) (s : State) : Outcome := run s (contextHaltBody a)

/-! ### The image (R365) -/

/-- The words of a header. -/
def headerWords (launch : BitVec 16) (status nctx : Nat) (asid : BitVec 16) (gang : Bool) (patchOff total : Word) :
    List Word :=
  [0x000000014B434856, wordOf (launch.toNat * 2 ^ 48 + status * 2 ^ 40 + nctx), wordOf (asid.toNat * 2 ^ 48 + bit gang 0),
   patchOff, total] ++ List.replicate 11 0

/-- The directory: offset; size, core and context. -/
def directoryWords : Nat → List (Nat × Nat) → List Word
  | _, [] => []
  | off, (a, size) :: r =>
    wordOf off :: wordOf (size * 2 ^ 32 + coreOf a * 2 ^ 5 + a % 16) :: directoryWords (off + size) r

/-- 64 entries of the patch table. -/
def patchWords (ps : List Patch) : List Word :=
  (List.range 64).flatMap fun i =>
    match ps[i]? with
    | some p => [p.at_ ||| (if p.wide then 1 else 0), p.value]
    | none => [0, 0]

/-- The header that a save gives, and the rest of the image. -/
def State.image (s : State) (status : Nat) (live : List Nat) : List Byte × List Byte :=
  let recs := live.map fun a => (a, s.recordBytes a)
  let first := 128 + 16 * live.length
  let patchOff := first + (recs.map fun p => p.2.length).sum
  let x := s.ctx (live.headD 0)
  let head := headerWords x.r.launch status live.length x.r.asid x.gang.isSome (wordOf patchOff) (wordOf (patchOff + 1024))
  (wordsBytes head,
   wordsBytes (directoryWords first (recs.map fun p => (p.1, p.2.length))) ++ recs.flatMap (·.2) ++
   wordsBytes (patchWords (s.patches (live.headD 0))))

/-! ### The save (R189 to R191, R364) -/

/-- The contexts of a request. -/
def State.requested (s : State) (p : Preempt) : List Nat :=
  (s.ctxs.filter fun c => c.2.preempt.any fun q => q.id == p.id).map (·.1)

/-- A context of a request that does not take it away issues again in the state that it held (R50). A SPAWN or an access that the
request took out of its queue executes again. DESIGN CHOICE (log 67): a context that held RUNNING is READY when its core runs another by then. -/
def resume (a : Nat) : M s0 Unit := do
  let s ← st
  let x := s.ctx a
  match x.wait with
  | some w =>
    match w.kind with
    | .spawn _ | .leased _ => modCtx a fun x => { x with wait := none, phase := if x.phase == .waiting then .ready else x.phase }
    | _ => pure ()
  | none => pure ()
  let busy := x.phase == .running && x.halted && (s.runningCtx (coreOf a)).isSome
  modCtx a fun x => { x with preempt := none, phase := if busy then .ready else x.phase }
  startScan (coreOf a)

/-- A suspended transfer that touches local store ends with the save of its issuer (R275, R276). -/
def cancelLocal (live : List Nat) : M s0 Unit := do
  let s ← st
  for (n, x) in s.stencils do
    upd (.stencil n
      { x with
        entries := x.entries.map fun e =>
          if e.2.st == .suspended && (e.2.ctl.srcLocal || e.2.ctl.dstLocal) && live.any fun a => s.ofCtx a e.2.by_ then
            (e.1, { e.2 with st := .done, cause := 8 })
          else e })

/-- The request ends: DONE receives its add, and the contexts that are not saved go on. -/
def endRequest (a : Nat) (q : Req) (p : Preempt) (members : List Nat) : M s0 Unit := do
  for b in members do
    resume b
  logAdd q p.done.ref p.done.inc.toNat (some p.done.gen) a

/-- The saved strands leave their contexts and cores: their leases end, and a suspended transfer that touches local store ends
with them (R191, R275). -/
def leaveCores (live : List Nat) : M s0 Unit := do
  cancelLocal live
  for b in live do
    endLeases b false
    freeCtx b
  for n in (live.map coreOf).dedup do
    leaveTrace n
    startScan n

/-- The image of the strands, when it fits; else the header alone. -/
def writeImage (a : Nat) (q : Req) (p : Preempt) (members live : List Nat) : M s0 Unit := do
  let s ← st
  let (head, rest) := s.image 0 live
  let along := live.map s.aside
  if p.isize.toNat < head.length + rest.length then
    match ← writeRange q a p.image (s.image 1 live).1 with
    | .ok _ => pure ()
    | .error (c, v) => logEvent q.die .fault 0 a v (causeWord c)
    endRequest a q p members
  else
    match ← writeRange q a p.image (head ++ rest) with
    | .error (c, v) =>
      logEvent q.die .fault 0 a v (causeWord c)
      endRequest a q p members
    | .ok _ =>
      let s ← st
      upd (.saved (along ++ s.saved.filter fun x => !along.contains x))
      endRequest a q p []
      for b in members do
        modCtx b fun x => { x with preempt := none }
      leaveCores live

/-- The header of a request to contexts without strands. -/
def writeEmpty (a : Nat) (q : Req) (p : Preempt) (members : List Nat) : M s0 Unit := do
  let l ← openWord
  let off ← openWord
  let total ← openWord
  match ← writeRange q a p.image (wordsBytes (headerWords (l.truncate 16) 2 0 q.asid false off total)) with
  | .ok _ => pure ()
  | .error (c, v) => logEvent q.die .fault 0 a v (causeWord c)
  endRequest a q p members

/-- Every member is halted with its stores checked, or holds no strand. -/
def State.memberReady (s : State) (a : Nat) : Bool :=
  let x := s.ctx a
  if x.phase.alive then
    x.halted && (x.gang.isSome || (firstAwaiting x.lines).isNone) && !s.engineBusy false fun b => s.ofCtx a b
  else x.phase != .draining

/-- SAVE_COMPLETE: the drained save. A gang is rolled back first; one that fails there ends, and has nothing to save. -/
def saveCompleteBody (a : Nat) : M s0 Unit := do
  let s ← st
  match (s.ctx a).preempt with
  | none => notEnabled "SAVE_COMPLETE"
  | some p =>
    let members := s.requested p
    require "SAVE_COMPLETE" (members.all s.memberReady)
    for k in (members.filterMap s.gangOf).dedup do
      gangRollback k
    let s ← st
    if members.all fun b => (s.ctx b).phase != .draining then
      let live := members.filter fun b => (s.ctx b).phase.alive
      let q := { saveReq a (s.ctx a) with asid := p.asid }
      -- a release at device and at system scope, of what the strands have joined and of their own drained operations (R190)
      let pushed (owner op num : Nat) : Bool := live.any fun b => b == owner || s.joined b op num
      showEngines fun e => pushed e.owner e.op e.num
      drainEngineFar fun e => pushed e.owner e.op e.num
      for b in live do
        drainFar b
      if live.isEmpty then writeEmpty a q p members else writeImage a q p members live

def execSaveComplete (a : Nat) (s : State) : Outcome := run s (saveCompleteBody a)

/-! ### RESTORE (R225) -/

def restoreFieldsOk (ws : List Word) : Bool :=
  let w := wordAt ws
  field (w 0) 8 56 == 0 && w 2 == 0 && w 3 == 0 && w 7 == 0

/-- The records of an image, with the cores and contexts that its directory names. -/
def readRecords (q : Req) (base : Word) (dir : List Word) (n : Nat) : M s0 (Option (List (Nat × Nat × List Byte))) := do
  let mut out : List (Nat × Nat × List Byte) := []
  let mut ok := true
  for i in List.range n do
    let w1 := wordAt dir (2 * i + 1)
    match ← readRange q (seqParty q) (base + wordAt dir (2 * i)) (field w1 32 32) with
    | .error _ => ok := false
    | .ok g =>
      if g.poison.isSome || !recordOk g.bytes then ok := false
      else out := out ++ [(field w1 5 11, field w1 0 4, g.bytes)]
  return if ok then some out else none

/-- The placement entries of the saved contexts, by their order in the image (R219, R225). -/
def readPlaces (q : Req) (attr : Word) (n : Nat) : M s0 (Option (List Nat)) := do
  let none_ := List.replicate n 0xFFFF
  if attr = 0 then return some none_
  else
    match ← launchWords q attr 18 with
    | none => return none
    | some at_ =>
      if wordAt at_ 16 = 0 then return some none_
      else
        match ← readRange q (seqParty q) (wordAt at_ 16) (2 * n) with
        | .error _ => return none
        | .ok g =>
          return if g.poison.isSome then none
            else some ((List.range n).map fun i => bytesNat ((List.drop (2 * i) g.bytes).take 2))

/-- A saved context that goes to a core: its recorded core, and its record. -/
structure Landing where
  core : Nat
  ctx : Nat
  was : Nat
  bytes : List Byte

/-- Members of a trace set land in one cluster, each at its recorded position; two contexts are of one set when their cores stood
in one cluster under one leader (R225). -/
def traceOk (rs : List Landing) : Bool :=
  let ts := rs.filter fun r => recMember r.bytes || recLeader r.bytes
  ts.all fun r =>
    r.core % 8 == recPos r.bytes && !isEasel r.core &&
    ts.all fun y => !(y.was / 8 == r.was / 8 && recLpos y.bytes == recLpos r.bytes) || y.core / 8 == r.core / 8

/-- The group table that the strands of an image carry on with: the one that this device's save took along; else, of an image from
elsewhere, a free one: a checkpoint image has no field for it. -/
def State.imageTable (s : State) (asid num : BitVec 16) (rs : List Landing) : List Word :=
  ((s.saved.find? fun x => x.asid == asid && rs.any fun r => r.bytes == x.record).map (·.groups)).getD
    (Config.imageGroups asid num)

/-- A core that no saved context may go to. -/
def State.coreBad (s : State) (core ctx : Nat) : Bool :=
  decide (numCores ≤ core) || decide (numCtx core ≤ ctx) || (s.core core).failed

/-- The launch of an image: none when a check of R220 or R225 refuses it. -/
def readImage (die : Nat) (o : Source) (ws : List Word) : M s0 (Option Launch) := do
  let s ← st
  let q := seqReq die o.asid
  let base := wordAt ws 1
  let root := s.walkWord ((s.die die).rootbase.toNat % 2 ^ 46 + 8 * o.asid.toNat)
  match ← launchWords q base 16 with
  | none => return none
  | some h =>
    let n := field (wordAt h 1) 0 32
    if wordAt h 0 != 0x000000014B434856 || field (wordAt h 1) 40 8 == 1 || decide (16 * numCores < n) ||
        !root.getLsbD 63 then return none
    else
      let dir ← launchWords q (base + 128) (2 * n)
      let recs ← readRecords q base (dir.getD []) n
      let places ← readPlaces q (wordAt ws 4) n
      let pt ← if n = 0 then pure (some []) else launchWords q (base + wordAt h 3) 128
      match dir, recs, places, pt with
      | some _, some rs, some ps, some pt =>
        let s ← st
        let rs := (rs.zip ps).map fun p =>
          ({ core := if p.2 = 0xFFFF then p.1.1 else p.2, ctx := p.1.2.1, was := p.1.1, bytes := p.1.2.2 } : Landing)
        let num : BitVec 16 := (wordAt h 1).extractLsb' 48 16
        let gang := (wordAt h 2).getLsbD 0
        let cap := (rs.map fun r => recSlots r.bytes).foldl max 0
        let tooBig := gang && (List.range 8).any fun d =>
          decide (s.gangCap d cap < (rs.filter fun r => dieOfCore r.core == d).length)
        if ps.any (s.placeBad 0xFF) || rs.any (fun r => s.coreBad r.core r.ctx) || !traceOk rs || tooBig then return none
        else
          let patches := (List.range 64).filterMap fun i =>
            let a := wordAt pt (2 * i)
            if a = 0 then none
            else some { at_ := a &&& ~~~(1 : Word), wide := a.getLsbD 0, value := wordAt pt (2 * i + 1) : Patch }
          return some
            { num := num, asid := o.asid, ktab := 0, origin := o.origin, words := ws, err := o.err
              shares := o.shares, done := { ref := wordAt ws 5, gen := (wordAt ws 6).extractLsb' 48 16, inc := (wordAt ws 6).extractLsb' 0 48 }
              entry := 0, budget := 64, nslots := 0, param := 0, groups := s.imageTable o.asid num rs, gpos := 0, lsbase := [], lslim := []
              strands := n, dieMask := 0xFF, gang := gang, fuse := false, steps := [], patches := patches
              restore := rs.zipIdx.map fun p => (p.2, (p.1.core, p.1.ctx, p.1.bytes)), perDie := [], step := 0, rollbacks := 0, journal := []
              unrepeatable := false, rollDue := false, ended := [], routes := [] }
      | _, _, _, _ => return none

def runRestore (die slot : Nat) (o : Source) (who : Nat) (ws : List Word) : M s0 Unit := do
  match ← readImage die o ws with
  | none =>
    refuseLaunch die o who ws
    placedAll die slot 0
  | some l =>
    beginShare die slot 0 l
      ((l.restore.filter fun p => dieOfCore p.2.1 == die).map fun p => (p.1, some p.2.1))

def restorePacketBody (die slot : Nat) : M s0 Unit := do
  match ← fetchPacket "RESTORE_PACKET" die slot fun t => t == 2 with
  | none => pure ()
  | some ws =>
    if !restoreFieldsOk ws then badPacket die slot .badpacket
    else
      let s ← st
      let q := s.queueOf die slot
      let i := (s.thread die slot).next.toNat
      let o : Source :=
        { asid := q.asid, origin := (2 * (s.thread die slot).desc.getD 0, i), num := 0, err := q.err, shares := some q.shares }
      runRestore die slot o i ws

def execRestorePacket (die slot : Nat) (s : State) : Outcome := run s (restorePacketBody die slot)

end Sys2Proof.Machine
end

