-- ==== Sys2Proof/Machine/Storage.lean ====
section
/-! DEFINITION. The storage clients (R384, R385). -/

namespace Sys2Proof.Machine

open Sys2Proof

variable {s0 : State}

def storageReq (die : Nat) (asid : BitVec 16) : Req := { die := die, asid := asid, user := false, master := masterStorage die }

def storageAgent (die : Nat) : Nat := 25480 + die

/-- A write of a storage client; a fault is logged at its palette die. -/
def storageWrite (die : Nat) (asid : BitVec 16) (va : Word) (bs : List Byte) : M s0 Unit := do
  match ← writeRange (storageReq die asid) (storageAgent die) va bs with
  | .ok _ => pure ()
  | .error (c, a) => logEvent die .fault 0 (storageAgent die) a (causeWord c)

/-- The 16 bytes of an NVMe completion entry: the command's identifier and the status; the other fields are open. -/
def completionBytes (c : StorCmd) (status : BitVec 16) (w0 w1 : Word) : List Byte :=
  natBytes 8 w0.toNat ++ natBytes 4 w1.toNat ++ natBytes 2 (field (wordAt c.words 0) 16 16) ++
  natBytes 2 (status.toNat * 2 % 65536 + w1.toNat / 2 ^ 32 % 2)

/-- The operation whose event executes is a command of a client (R385). -/
def actStorage (die id : Nat) : M s0 Unit := upd (.eop (storageAgent die) id)

/-- A command as an operation, for its signal. -/
def storageIssuer (c : StorCmd) (id : Nat) : Issuer where
  agent := storageAgent c.die
  life := 0
  launch := none
  err := none
  asid := c.asid
  user := false
  seq := id
  sig := none
  slot := none
  scope := .system
  index := 0

/-- The completion entry; the add of SIGINC to SIGREF, carrying SIGGEN, a release at system scope, follows as an add of its own. -/
def finishStorage (c : StorCmd) (id : Nat) (status : BitVec 16) : M s0 Unit := do
  let w0 ← openWord
  let w1 ← openWord
  storageWrite c.die c.asid (wordAt c.words 11) (completionBytes c status w0 w1)
  signalLater (storageIssuer c id) false c.die (storageAgent c.die)
    { ref := wordAt c.words 9, gen := (wordAt c.words 10).extractLsb' 48 16, inc := field (wordAt c.words 10) 0 8
      scope := .system }

/-- The status of an entry that is not sent: Invalid Opcode (1), Invalid Field (2). -/
def storageRefusal (ws : List Word) : Option (BitVec 16) :=
  let w := wordAt ws
  if 2 < field (w 0) 0 8 then some 1
  else if w 4 != 0 || decide (63 < (w 8).toNat) || field (w 10) 8 40 != 0 || field (w 10) 0 8 == 0 ||
      (ws.drop 12).any fun x => x != 0 then some 2
  else none

/-- One entry of the ring: a command of its own (R385). -/
def submitEntry (die : Nat) (j : Nat) : M s0 Unit := do
  let id ← freshSeq
  let s ← st
  addJoins (2 * opKey id) (s.joinsOf (2 * storageAgent die))
  actStorage die id
  let d := s.die die
  let at_ := keepBits d.storq 12 52 + wordOf (128 * (j % 2 ^ field d.storq 0 4))
  match ← readWords (storageReq die d.storasid) (storageAgent die) at_ 16 with
  | .error (c, a) => logEvent die .fault 0 (storageAgent die) a (causeWord c)
  | .ok ws =>
    let c : StorCmd := { die := die, asid := d.storasid, words := ws }
    match storageRefusal ws with
    | some e => finishStorage c id e
    | none =>
      let s ← st
      upd (.stor (TMap.put s.stor id c))

/-- STORAGE_SUBMIT: the entries from the last submitted one up to index i − 1, at most a ring of them; a ring of a size outside
4 to 12 has none. -/
def storageSubmitBody (die : Nat) (i : Word) : M s0 Unit := do
  require "STORAGE_SUBMIT" (decide (die < 8))
  let s ← st
  let d := s.die die
  let n := field d.storq 0 4
  modDie die fun d => { d with storbell := i }
  if 4 ≤ n ∧ n ≤ 12 then
    let lo := max d.storbell.toNat (i.toNat - 2 ^ n)
    for j in List.range (i.toNat - lo) do
      submitEntry die (lo + j)

def execStorageSubmit (die : Nat) (i : Word) (s : State) : Outcome := run s (storageSubmitBody die i)

/-- Bytes of a Write: its logical blocks, as NVMe counts them in bits 15..0 of command dword 12, of its target's block size (PRESUMED,
log 93). -/
def writeLength (c : StorCmd) : Nat :=
  (field (wordAt c.words 6) 0 16 + 1) * Config.blockBytes (Config.storageTarget c.die (wordAt c.words 8).toNat)

/-- The client reads the data of a Write under STORASID; what it meets there is logged at its palette die, and which status the target
then reports is open. -/
def readWriteData (c : StorCmd) : M s0 Unit := do
  match ← readRange (storageReq c.die c.asid) (storageAgent c.die) (wordAt c.words 3) (writeLength c) with
  | .error (e, a) => logEvent c.die .fault 0 (storageAgent c.die) a (causeWord e)
  | .ok g => match g.poison with
    | some a => logEvent c.die .fault 0 (storageAgent c.die) a (causeWord .poison)
    | none => pure ()

/-- STORAGE_COMPLETE: a Read has written its data, a Write has been accepted, a Flush reports its status. -/
def storageCompleteBody (die id : Nat) (status : BitVec 16) (data : List Byte) : M s0 Unit := do
  let s ← st
  match TMap.find s.stor id with
  | none => notEnabled "STORAGE_COMPLETE"
  | some c =>
    require "STORAGE_COMPLETE" (c.die == die && decide (status.toNat < 32768))
    upd (.stor (TMap.del s.stor id))
    actStorage die id
    if field (wordAt c.words 0) 0 8 == 1 then readWriteData c
    if field (wordAt c.words 0) 0 8 == 2 && status == 0 then
      storageWrite die c.asid (wordAt c.words 3) data
    finishStorage c id status

def execStorageComplete (die id : Nat) (status : BitVec 16) (data : List Byte) (s : State) : Outcome :=
  run s (storageCompleteBody die id status data)

end Sys2Proof.Machine
end

