-- ==== Sys2Proof/Machine/Dispatch.lean ====
section
/-! DEFINITION. The meaning of each instruction and event. -/

namespace Sys2Proof.Machine

def exec (i : Instr) (s : State) : Host.Outcome State Fault Refusal :=
  match i with
  | .add d a b sy => Sys2Proof.Machine.execAdd d a b sy s
  | .addi d a imm sy => Sys2Proof.Machine.execAddi d a imm sy s
  | .sub d a b sy => Sys2Proof.Machine.execSub d a b sy s
  | .mul d a b sy => Sys2Proof.Machine.execMul d a b sy s
  | .mulh d a b sy => Sys2Proof.Machine.execMulh d a b sy s
  | .mulhu d a b sy => Sys2Proof.Machine.execMulhu d a b sy s
  | .div d a b sy => Sys2Proof.Machine.execDiv d a b sy s
  | .divu d a b sy => Sys2Proof.Machine.execDivu d a b sy s
  | .rem d a b sy => Sys2Proof.Machine.execRem d a b sy s
  | .remu d a b sy => Sys2Proof.Machine.execRemu d a b sy s
  | .and d a b sy => Sys2Proof.Machine.execAnd d a b sy s
  | .andi d a imm sy => Sys2Proof.Machine.execAndi d a imm sy s
  | .or d a b sy => Sys2Proof.Machine.execOr d a b sy s
  | .ori d a imm sy => Sys2Proof.Machine.execOri d a imm sy s
  | .xor d a b sy => Sys2Proof.Machine.execXor d a b sy s
  | .xori d a imm sy => Sys2Proof.Machine.execXori d a imm sy s
  | .shl d a b sy => Sys2Proof.Machine.execShl d a b sy s
  | .shli d a imm sy => Sys2Proof.Machine.execShli d a imm sy s
  | .shr d a b sy => Sys2Proof.Machine.execShr d a b sy s
  | .shri d a imm sy => Sys2Proof.Machine.execShri d a imm sy s
  | .sra d a b sy => Sys2Proof.Machine.execSra d a b sy s
  | .srai d a imm sy => Sys2Proof.Machine.execSrai d a imm sy s
  | .slt d a b sy => Sys2Proof.Machine.execSlt d a b sy s
  | .sltu d a b sy => Sys2Proof.Machine.execSltu d a b sy s
  | .slti d a imm sy => Sys2Proof.Machine.execSlti d a imm sy s
  | .min d a b sy => Sys2Proof.Machine.execMin d a b sy s
  | .max d a b sy => Sys2Proof.Machine.execMax d a b sy s
  | .minu d a b sy => Sys2Proof.Machine.execMinu d a b sy s
  | .maxu d a b sy => Sys2Proof.Machine.execMaxu d a b sy s
  | .clz d a sy => Sys2Proof.Machine.execClz d a sy s
  | .popc d a sy => Sys2Proof.Machine.execPopc d a sy s
  | .sel d a b c sy => Sys2Proof.Machine.execSel d a b c sy s
  | .li d imm sy => Sys2Proof.Machine.execLi d imm sy s
  | .adr d imm sy => Sys2Proof.Machine.execAdr d imm sy s
  | .fadd t r d a b sy => Sys2Proof.Machine.execFadd t r d a b sy s
  | .fsub t r d a b sy => Sys2Proof.Machine.execFsub t r d a b sy s
  | .fmul t r d a b sy => Sys2Proof.Machine.execFmul t r d a b sy s
  | .ffma t r d a b c sy => Sys2Proof.Machine.execFfma t r d a b c sy s
  | .fdiv t r d a b sy => Sys2Proof.Machine.execFdiv t r d a b sy s
  | .fsqrt t r d a sy => Sys2Proof.Machine.execFsqrt t r d a sy s
  | .fmin t d a b sy => Sys2Proof.Machine.execFmin t d a b sy s
  | .fmax t d a b sy => Sys2Proof.Machine.execFmax t d a b sy s
  | .fcmp t p d a b sy => Sys2Proof.Machine.execFcmp t p d a b sy s
  | .fcvt t f r d a sy => Sys2Proof.Machine.execFcvt t f r d a sy s
  | .fclass t d a sy => Sys2Proof.Machine.execFclass t d a sy s
  | .br c a b off sy => Sys2Proof.Machine.execBr c a b off sy s
  | .j off sy => Sys2Proof.Machine.execJ off sy s
  | .jl d off sy => Sys2Proof.Machine.execJl d off sy s
  | .jr a off sy => Sys2Proof.Machine.execJr a off sy s
  | .jlr d a off sy => Sys2Proof.Machine.execJlr d a off sy s
  | .loop d off sy => Sys2Proof.Machine.execLoop d off sy s
  | .bany k off sy => Sys2Proof.Machine.execBany k off sy s
  | .ball k off sy => Sys2Proof.Machine.execBall k off sy s
  | .vadd t r m d a b sy => Sys2Proof.Machine.execVadd t r m d a b sy s
  | .vsub t r m d a b sy => Sys2Proof.Machine.execVsub t r m d a b sy s
  | .vmul t r m d a b sy => Sys2Proof.Machine.execVmul t r m d a b sy s
  | .vfma t r m d a b c sy => Sys2Proof.Machine.execVfma t r m d a b c sy s
  | .vmin t m d a b sy => Sys2Proof.Machine.execVmin t m d a b sy s
  | .vmax t m d a b sy => Sys2Proof.Machine.execVmax t m d a b sy s
  | .vand t m d a b sy => Sys2Proof.Machine.execVand t m d a b sy s
  | .vor t m d a b sy => Sys2Proof.Machine.execVor t m d a b sy s
  | .vxor t m d a b sy => Sys2Proof.Machine.execVxor t m d a b sy s
  | .vshl t m d a b sy => Sys2Proof.Machine.execVshl t m d a b sy s
  | .vshr t m d a b sy => Sys2Proof.Machine.execVshr t m d a b sy s
  | .vsra t m d a b sy => Sys2Proof.Machine.execVsra t m d a b sy s
  | .vabs t m d a sy => Sys2Proof.Machine.execVabs t m d a sy s
  | .vneg t m d a sy => Sys2Proof.Machine.execVneg t m d a sy s
  | .vrcp t r m d a sy => Sys2Proof.Machine.execVrcp t r m d a sy s
  | .vrsq t r m d a sy => Sys2Proof.Machine.execVrsq t r m d a sy s
  | .vexp2 t r m d a sy => Sys2Proof.Machine.execVexp2 t r m d a sy s
  | .vlog2 t r m d a sy => Sys2Proof.Machine.execVlog2 t r m d a sy s
  | .vsqrt t r m d a sy => Sys2Proof.Machine.execVsqrt t r m d a sy s
  | .vcmp t p m d a b sy => Sys2Proof.Machine.execVcmp t p m d a b sy s
  | .vsel m d a b sy => Sys2Proof.Machine.execVsel m d a b sy s
  | .vcvt t f r m d a sy => Sys2Proof.Machine.execVcvt t f r m d a sy s
  | .vdot t r m d a b c sy => Sys2Proof.Machine.execVdot t r m d a b c sy s
  | .vbcast sz m d a sy => Sys2Proof.Machine.execVbcast sz m d a sy s
  | .vext d a b sy => Sys2Proof.Machine.execVext d a b sy s
  | .vins d a b sy => Sys2Proof.Machine.execVins d a b sy s
  | .vperm m d a b sy => Sys2Proof.Machine.execVperm m d a b sy s
  | .vrot m d a b sy => Sys2Proof.Machine.execVrot m d a b sy s
  | .viota m d a sy => Sys2Proof.Machine.execViota m d a sy s
  | .vcomp m d a sy => Sys2Proof.Machine.execVcomp m d a sy s
  | .vred t op r m d a sy => Sys2Proof.Machine.execVred t op r m d a sy s
  | .vscan t op r m d a sy => Sys2Proof.Machine.execVscan t op r m d a sy s
  | .vtopk t m d a b sy => Sys2Proof.Machine.execVtopk t m d a b sy s
  | .vtag m a b sy => Sys2Proof.Machine.execVtag m a b sy s
  | .setvl d a imm sy => Sys2Proof.Machine.execSetvl d a imm sy s
  | .kand d a b sy => Sys2Proof.Machine.execKand d a b sy s
  | .kor d a b sy => Sys2Proof.Machine.execKor d a b sy s
  | .kxor d a b sy => Sys2Proof.Machine.execKxor d a b sy s
  | .knot d a sy => Sys2Proof.Machine.execKnot d a sy s
  | .kmov f sy => Sys2Proof.Machine.execKmov f sy s
  | .kpopc d a sy => Sys2Proof.Machine.execKpopc d a sy s
  | .kff d a sy => Sys2Proof.Machine.execKff d a sy s
  | .ld sz sp d a m sy => Sys2Proof.Machine.execLd sz sp d a m sy s
  | .st sz sp d a m sy => Sys2Proof.Machine.execSt sz sp d a m sy s
  | .vld sz sp k d a m sy => Sys2Proof.Machine.execVld sz sp k d a m sy s
  | .vst sz sp k d a m sy => Sys2Proof.Machine.execVst sz sp k d a m sy s
  | .amo sz sp op d a b disp sy => Sys2Proof.Machine.execAmo sz sp op d a b disp sy s
  | .cas sz sp d a b disp sy => Sys2Proof.Machine.execCas sz sp d a b disp sy s
  | .red sz sp op d a disp sy => Sys2Proof.Machine.execRed sz sp op d a disp sy s
  | .lease a disp sy => Sys2Proof.Machine.execLease a disp sy s
  | .unlease d a disp sy => Sys2Proof.Machine.execUnlease d a disp sy s
  | .cbind slot a sy => Sys2Proof.Machine.execCbind slot a sy s
  | .cmark slot a imm sy => Sys2Proof.Machine.execCmark slot a imm sy s
  | .cadd d slot a imm sy => Sys2Proof.Machine.execCadd d slot a imm sy s
  | .cwait d slot b sy => Sys2Proof.Machine.execCwait d slot b sy s
  | .cwaitAny d slot a b sy => Sys2Proof.Machine.execCwaitAny d slot a b sy s
  | .cwaitAll d slot a b sy => Sys2Proof.Machine.execCwaitAll d slot a b sy s
  | .cread d slot sy => Sys2Proof.Machine.execCread d slot sy s
  | .creset slot sy => Sys2Proof.Machine.execCreset slot sy s
  | .fence sy => Sys2Proof.Machine.execFence sy s
  | .efence sy => Sys2Proof.Machine.execEfence sy s
  | .tblfence a b sy => Sys2Proof.Machine.execTblfence a b sy s
  | .icinv ext a b sy => Sys2Proof.Machine.execIcinv ext a b sy s
  | .spawn a sy => Sys2Proof.Machine.execSpawn a sy s
  | .finish sy => Sys2Proof.Machine.execFinish sy s
  | .yield sy => Sys2Proof.Machine.execYield sy s
  | .exit sy => Sys2Proof.Machine.execExit sy s
  | .trace d a imm sy => Sys2Proof.Machine.execTrace d a imm sy s
  | .untrace sy => Sys2Proof.Machine.execUntrace sy s
  | .step sy => Sys2Proof.Machine.execStep sy s
  | .mloadw b a tg sy => Sys2Proof.Machine.execMloadw b a tg sy s
  | .mmul t a b shp zero skip tt afmt prec bmask tg sy => Sys2Proof.Machine.execMmul t a b shp zero skip tt afmt prec bmask tg sy s
  | .mgrad t a b shp zero afmt gfmt bank kq goff tg sy => Sys2Proof.Machine.execMgrad t a b shp zero afmt gfmt bank kq goff tg sy s
  | .mdrain t a b shp ps clr tt ofmt r ncols tg sy => Sys2Proof.Machine.execMdrain t a b shp ps clr tt ofmt r ncols tg sy s
  | .mprog a b count tg sy => Sys2Proof.Machine.execMprog a b count tg sy s
  | .mstat d a sel tg sy => Sys2Proof.Machine.execMstat d a sel tg sy s
  | .mcap idx a b tg sy => Sys2Proof.Machine.execMcap idx a b tg sy s
  | .xset fn a sy => Sys2Proof.Machine.execXset fn a sy s
  | .xgo d sy => Sys2Proof.Machine.execXgo d sy s
  | .xstat d a sy => Sys2Proof.Machine.execXstat d a sy s
  | .xresume d a sy => Sys2Proof.Machine.execXresume d a sy s
  | .xcancel d a sy => Sys2Proof.Machine.execXcancel d a sy s
  | .msgTag d a b c sy => Sys2Proof.Machine.execMsgTag d a b c sy s
  | .msgApp d a b c sy => Sys2Proof.Machine.execMsgApp d a b c sy s
  | .nsend a b sy => Sys2Proof.Machine.execNsend a b sy s
  | .nsendRoute a b sy => Sys2Proof.Machine.execNsendRoute a b sy s
  | .nred isMax t pos a b sy => Sys2Proof.Machine.execNred isMax t pos a b sy s
  | .ncorrApply d a sy => Sys2Proof.Machine.execNcorrApply d a sy s
  | .ncorrScale d a sy => Sys2Proof.Machine.execNcorrScale d a sy s
  | .icprobe d a b site sy => Sys2Proof.Machine.execIcprobe d a b site sy s
  | .icfill s_ a b c sy => Sys2Proof.Machine.execIcfill s_ a b c sy s
  | .icfillSite s_ sy => Sys2Proof.Machine.execIcfillSite s_ sy s
  | .icfillAll sy => Sys2Proof.Machine.execIcfillAll sy s
  | .guard a b off sy => Sys2Proof.Machine.execGuard a b off sy s
  | .ldslot d a disp sy => Sys2Proof.Machine.execLdslot d a disp sy s
  | .stslot d a disp sy => Sys2Proof.Machine.execStslot d a disp sy s
  | .tagchk a b off sy => Sys2Proof.Machine.execTagchk a b off sy s
  | .alloc d a b sy => Sys2Proof.Machine.execAlloc d a b sy s
  | .wbar a disp sy => Sys2Proof.Machine.execWbar a disp sy s
  | .trapSys code sy => Sys2Proof.Machine.execTrapSys code sy s
  | .trapBrk code sy => Sys2Proof.Machine.execTrapBrk code sy s
  | .eret sy => Sys2Proof.Machine.execEret sy s
  | .srd d srn sy => Sys2Proof.Machine.execSrd d srn sy s
  | .swr srn a sy => Sys2Proof.Machine.execSwr srn a sy s
  | .quantumExpiry core => Sys2Proof.Machine.execQuantumExpiry core s
  | .referenceComplete a => Sys2Proof.Machine.execReferenceComplete a s
  | .drainComplete a => Sys2Proof.Machine.execDrainComplete a s
  | .continuationTake a => Sys2Proof.Machine.execContinuationTake a s
  | .continuationAging die level => Sys2Proof.Machine.execContinuationAging die level s
  | .storeHomeCheck a => Sys2Proof.Machine.execStoreHomeCheck a s
  | .leaseBoundExpiry a line => Sys2Proof.Machine.execLeaseBoundExpiry a line s
  | .remoteAccess acc => Sys2Proof.Machine.execRemoteAccess acc s
  | .counterAddAtHome req => Sys2Proof.Machine.execCounterAddAtHome req s
  | .waitPoll a => Sys2Proof.Machine.execWaitPoll a s
  | .cwaitTimeout a => Sys2Proof.Machine.execCwaitTimeout a s
  | .frescoCommandStart cluster seq => Sys2Proof.Machine.execFrescoCommandStart cluster seq s
  | .frescoCommandComplete cluster seq => Sys2Proof.Machine.execFrescoCommandComplete cluster seq s
  | .remoteCommandAdmission c => Sys2Proof.Machine.execRemoteCommandAdmission c s
  | .chunkComplete cluster entry => Sys2Proof.Machine.execChunkComplete cluster entry s
  | .chunkFault cluster entry => Sys2Proof.Machine.execChunkFault cluster entry s
  | .nredSourceRead id => Sys2Proof.Machine.execNredSourceRead id s
  | .reductionDeadline seq => Sys2Proof.Machine.execReductionDeadline seq s
  | .lateContribution id => Sys2Proof.Machine.execLateContribution id s
  | .nsendComplete id => Sys2Proof.Machine.execNsendComplete id s
  | .routeStage id => Sys2Proof.Machine.execRouteStage id s
  | .msgAppendComplete id => Sys2Proof.Machine.execMsgAppendComplete id s
  | .taggedLaunchMessage m => Sys2Proof.Machine.execTaggedLaunchMessage m s
  | .queueMap slot desc => Sys2Proof.Machine.execQueueMap slot desc s
  | .queueUnmap slot => Sys2Proof.Machine.execQueueUnmap slot s
  | .notify slot => Sys2Proof.Machine.execNotify slot s
  | .kernelPacket die slot => Sys2Proof.Machine.execKernelPacket die slot s
  | .strandPlacement die thread => Sys2Proof.Machine.execStrandPlacement die thread s
  | .shareCompletion die launch => Sys2Proof.Machine.execShareCompletion die launch s
  | .restorePacket die slot => Sys2Proof.Machine.execRestorePacket die slot s
  | .waitcPacket die slot => Sys2Proof.Machine.execWaitcPacket die slot s
  | .waitcWake die slot => Sys2Proof.Machine.execWaitcWake die slot s
  | .sigcPacket die slot => Sys2Proof.Machine.execSigcPacket die slot s
  | .fencePacket die slot => Sys2Proof.Machine.execFencePacket die slot s
  | .fencePacketWake die slot => Sys2Proof.Machine.execFencePacketWake die slot s
  | .armPacket die slot => Sys2Proof.Machine.execArmPacket die slot s
  | .easelStart a value => Sys2Proof.Machine.execEaselStart a value s
  | .crackOperation a => Sys2Proof.Machine.execCrackOperation a s
  | .syscallPost a => Sys2Proof.Machine.execSyscallPost a s
  | .syscallReply a word1 => Sys2Proof.Machine.execSyscallReply a word1 s
  | .preemptRequest a value => Sys2Proof.Machine.execPreemptRequest a value s
  | .contextHalt a => Sys2Proof.Machine.execContextHalt a s
  | .saveComplete a => Sys2Proof.Machine.execSaveComplete a s
  | .storageSubmit die i_ => Sys2Proof.Machine.execStorageSubmit die i_ s
  | .storageComplete die id status data => Sys2Proof.Machine.execStorageComplete die id status data s
  | .checkerMismatch core second => Sys2Proof.Machine.execCheckerMismatch core second s
  | .uncorrectableError p => Sys2Proof.Machine.execUncorrectableError p s
  | .linkPoisonReport link offset => Sys2Proof.Machine.execLinkPoisonReport link offset s
  | .linkDown link => Sys2Proof.Machine.execLinkDown link s
  | .reset => Sys2Proof.Machine.execReset s
  | .manifest m => Sys2Proof.Machine.execManifest m s
  | .monitorImageFetched image => Sys2Proof.Machine.execMonitorImageFetched image s
  | .bootRetryTimer => Sys2Proof.Machine.execBootRetryTimer s
  | .thermalTrip => Sys2Proof.Machine.execThermalTrip s
  | .attestationChallenge nonce => Sys2Proof.Machine.execAttestationChallenge nonce s
  | .debugUnlock publicKey signature => Sys2Proof.Machine.execDebugUnlock publicKey signature s
  | .keyctl value => Sys2Proof.Machine.execKeyctl value s
  | .still => Sys2Proof.Machine.execStill s
  | .freezePin => Sys2Proof.Machine.execFreezePin s
  | .nodeid value => Sys2Proof.Machine.execNodeid value s
  | .ptpCorrection ppm => Sys2Proof.Machine.execPtpCorrection ppm s
  | .loadImage asid base image => Sys2Proof.Machine.execLoadImage asid base image s
  | .unloadImage id => Sys2Proof.Machine.execUnloadImage id s
  | .registerWrite device die off value => Sys2Proof.Machine.execRegisterWrite device die off value s
  | .ncorrComplete id => Sys2Proof.Machine.execNcorrComplete id s
  | .linkTrained link capacity => Sys2Proof.Machine.execLinkTrained link capacity s
  | .correctedErrorReport link => Sys2Proof.Machine.execCorrectedErrorReport link s
  | .illegalOpcode base => Sys2Proof.Machine.execIllegalOpcode base s

end Sys2Proof.Machine
end

