-- ==== Sys2Proof/Machine/Turns.lean ====
section
/-! DEFINITION. The turns that the device can take by itself: what a core issues, and the events of its own parts. -/

namespace Sys2Proof.Machine

open Sys2Proof

/-- Events of a context that may be enabled; an event's own meaning says whether it is. -/
def ctxTurns (a : Nat) (c : Ctx) : List Instr :=
  (if c.wait.isSome then [.referenceComplete a, .waitPoll a, .cwaitTimeout a, .syscallPost a] else []) ++
  (if c.phase = .draining then [.drainComplete a] else []) ++
  (if c.phase = .idle then [.continuationTake a] else []) ++
  (if c.lines.isEmpty then [] else [.storeHomeCheck a]) ++
  (if c.preempt.isSome then [.contextHalt a, .saveComplete a] else []) ++
  (c.leases.filter (·.live)).map fun l => .leaseBoundExpiry a l.line

def State.coreTurns (s : State) (n : Nat) : List Turn :=
  let issues := match (s.core n).trace with
    | .follower _ true (_ :: _) => true
    | .follower _ _ _ => false
    | .none => (s.runningCtx n).isSome
  if issues then [.issue n, .event (.quantumExpiry n)] else []

def State.engineTurns (s : State) : List Instr :=
  (s.frescos.flatMap fun p => p.2.cmds.flatMap fun c =>
    [.frescoCommandStart p.1 c.seq, .frescoCommandComplete p.1 c.seq]) ++
  (s.stencils.flatMap fun p => p.2.entries.flatMap fun e => [.chunkComplete p.1 e.1, .chunkFault p.1 e.1]) ++
  (s.glaze.nreds.map fun p => .nredSourceRead p.1) ++ ((s.glaze.redus.filter fun p => !p.2.closed).map fun p => .reductionDeadline p.1) ++
  (s.glaze.lates.map fun p => .lateContribution p.1) ++ (s.glaze.nsends.map fun p => .nsendComplete p.1) ++
  ((s.glaze.tokens.filter fun p => !p.2.staged).map fun p => .routeStage p.1) ++
  (s.glaze.msgs.map fun p => .msgAppendComplete p.1) ++ (s.glaze.ncorrs.map fun p => .ncorrComplete p.1)

/-- Parts of operations that may come next: writes of a started command of the device's own engines, and of the earliest chunk of a
running transfer, before they complete, and signals that are owed (R186); lines of fetched words (R141); Primer's boot request
(R375). -/
def State.partTurns (s : State) : List Part :=
  (s.frescos.flatMap fun p => (p.2.cmds.filter fun c => c.started && decide (p.1 < foreignEngine)).map fun c => .drain p.1 c.seq) ++
  (s.stencils.flatMap fun p => (p.2.entries.filter fun e => e.2.st == .running).map fun e => .chunk p.1 e.1) ++
  (List.range s.owed.length).map Part.signal ++
  (s.cores.flatMap fun p => (p.2.icache.filter fun w => w.2.leaf.isSome).map fun w => .line p.1 w.1) ++
  if s.primer.boot = .ports then [.bootRequest] else []

/-- Packets and waits of the sequencer threads, placements, shares, continuation queues. -/
def State.seqTurns (s : State) : List Instr :=
  (s.threads.flatMap fun p =>
    let die := p.1 / 64
    let slot := p.1 % 64
    match p.2.st with
    | .idle => [.kernelPacket die slot, .restorePacket die slot, .waitcPacket die slot, .sigcPacket die slot,
      .fencePacket die slot, .armPacket die slot]
    | .placing _ => [.strandPlacement die slot]
    | .waits _ _ _ _ => [.waitcWake die slot, .fencePacketWake die slot]
    | .halted => []) ++
  (s.launches.flatMap fun l => l.2.perDie.map fun p => .shareCompletion p.1 l.1) ++
  (s.dies.flatMap fun d => d.2.queues.map fun q => .continuationAging d.1 q.1)

/-- Primer's own timer. -/
def State.bootTurns (s : State) : List Instr := if s.primer.boot = .wait then [.bootRetryTimer] else []

/-- A reset, which a thermal trip is too (R380). -/
def Turn.leavesStill : Turn → Bool
  | .event .reset | .event .thermalTrip => true
  | _ => false

/-- Every turn that the device may take next by itself. -/
def State.turns (s : State) : List Turn :=
  (((s.ctxs.map fun p => coreOf p.1) ++ s.cores.map (·.1)).dedup.flatMap s.coreTurns) ++
  s.partTurns.map Turn.part ++
  ((s.ctxs.flatMap fun p => ctxTurns p.1 p.2) ++ s.engineTurns ++ s.seqTurns ++ s.bootTurns).map Turn.event

end Sys2Proof.Machine
end

