-- ==== Sys2Proof/Machine/Step.lean ====
section
/-! DEFINITION. One step of the device: the next turn of the agenda, or one that the device can take. -/

namespace Sys2Proof.Machine

open Sys2Proof

variable {s0 : State}

/-- What a core issues, once its words are fetched. -/
def runFetched (s : State) (m : M s (Option Instr)) : Host.Outcome State Fault Refusal :=
  match m ⟨s, .refl⟩ with
  | .ok (some i) s' => exec i s'.val
  | .ok none s' => .next s'.val
  | .error _ s' => .next s'.val

/-- One issue of a core. -/
def issueCore (core : Nat) (s : State) : Host.Outcome State Fault Refusal :=
  if (s.core core).failed then .next s
  else if s.isFollower core then runFetched s (followInstr core)
  else
    match s.runningCtx core with
    | none => run s (startScan core)
    | some j =>
      match s.rollDueOf (16 * core + j) with
      | some k => run s (gangRollback k)
      | none =>
        if isEasel core && isCrack (s.ctx (16 * core + j)).r.pc && !(s.ctx (16 * core + j)).straight then exec (.crackOperation (16 * core + j)) s
        else runFetched s (fetchInstr (16 * core + j))

def takeTurn (t : Turn) (s : State) : Host.Outcome State Fault Refusal :=
  match t with
  | .event e => exec e s
  | .issue core => issueCore core s
  | .part (.drain cluster seq) => run s (drainPart cluster seq)
  | .part (.chunk cluster entry) => run s (chunkEarly cluster entry)
  | .part (.signal n) => run s (deliverOwed n)
  | .part (.line core key) => run s (lineIn1 core key)
  | .part .bootRequest => run s bootRequest

/-- Device time passes (R4), and interrupts and records that fell due are made (R148, R383). -/
def advance (agenda : List Turn) : M s0 Unit := do
  let s ← st
  upd (.agenda agenda)
  upd (.pass (Config.elapsed s.tick))
  upd .nextTick
  migInterrupts
  linkEvents

def State.advance (s : State) (agenda : List Turn) : State :=
  match Machine.advance agenda ⟨s, .refl⟩ with
  | .ok _ s' => s'.val
  | .error _ s' => s'.val

/-- With an empty agenda the device takes one of the turns that it can take, in an order that the spec leaves open; a turn
that turns out not to be enabled changes nothing but time. -/
def State.openTurn (s : State) : Host.Outcome State Fault Refusal :=
  match s.turns with
  | [] => .next s
  | t :: ts =>
    let s1 := Upd.choose.apply s
    match takeTurn ((t :: ts).getD (Config.pick s.oracle % (ts.length + 1)) t) s1 with
    | .refused _ => .next s1
    | o => o

/-- One step. While Still holds only a reset is taken (R380). -/
def step (s : State) : Host.Outcome State Fault Refusal :=
  match s.agenda with
  | [] => if s.still then .fault .still else (s.advance []).openTurn
  | t :: r => if s.still && !t.leavesStill then .fault .still else takeTurn t (s.advance r)

/-! ### The word that the next step fetches -/

/-- Core that runs the word: an Easel core for the instructions that only it has (R338). -/
def fetchCore (w : Nat) : Nat :=
  let op := w / 2 ^ 56 % 256
  if 0xC0 ≤ op ∧ op ≤ 0xC6 then 1536 else 0

def putBytes (m : Memory) (a n v : Nat) : Memory :=
  ((natBytes n v).zipIdx).foldl (fun m p => Memory.write m (a + p.2) p.1) m

/-- The state with an instruction where the next step fetches: context 0 of a core of die 0 is RUNNING at 0x20000 of
address space 0, whose tables map the first 512 MiB of the module behind memory link 0, and the agenda holds that core's
issue. -/
def State.withFetchWord (s : State) (nbits w : Nat) : State :=
  let core := fetchCore (w % 2 ^ nbits)
  let a := 16 * core
  let node := s.nodeId.toNat * 2 ^ 56
  let pc := wordOf (node + 0x20000)
  let c := s.ctx a
  let d := s.die 0
  let cold (m : TMap L1Line) : TMap L1Line := m.filter fun p => p.1 % 2 ^ 64 != pc.toNat
  let written (k : Nat) : Bool := k == 0 || k == 0x40 || k == 0x2000 || k == 0x4000 || k == 0x4001
  let m := putBytes s.mem 0 8 0x8000000000000200
  let m := putBytes m 0x200 8 0x8000000000000001
  let m := putBytes m 0x10000 8 0xE002000000000000
  let m := putBytes m 0x20000 16 (w % 2 ^ nbits)
  { s with
    mem := m
    bad := s.bad.filter fun x => x ≥ 0x30000 || (x ≥ 0x208 && x < 0x10000)
    lineKey := s.lineKey.filter fun p => p.1 != 0x200
    fadds := s.fadds.filter fun p => !written (p.1 / 2)
    engOld := s.engOld.filter fun p => !written p.1
    codeOld := s.codeOld.filter fun p => !written p.1
    ctxs := TMap.put s.ctxs a
      { c with
        phase := .running
        wait := none
        prog := Progress.none
        replay := []
        replayNow := false
        straight := false
        preempt := none
        gang := none
        owner := none
        life := c.life + 1
        r := { c.r with pc := pc, asid := 0 } }
    cores := TMap.put s.cores core { s.core core with failed := false, trace := .none, l1 := cold (s.core core).l1, icache := [] }
    dies := TMap.put s.dies 0
      { d with
        rootbase := 0
        tlb := d.tlb.filter fun p => p.1 / 2 ^ 32 != 0 && !p.2.any fun e => leafG e.leaf
        l2 := cold d.l2
        links := TMap.put d.links 0 { s.link 0 0 with up := true, capacity := 1 }
        access := TMap.put d.access core 0xF00000000000FFFF }
    still := false
    agenda := [.issue core] }

end Sys2Proof.Machine
end

