-- ==== Sys2Proof/Safety.lean ====
section
/-! DEFINITION. What holds in every state that a run passes through, and the words in which statements speak of a step. -/

namespace Sys2Proof.Machine

open Sys2Proof

/-- The byte memories have their canonical form. -/
def State.Canonical (s : State) : Prop :=
  Memory.wf s.mem = true ∧ Memory.wf s.ls = true ∧ Memory.wf s.plane = true ∧ Memory.wf s.far = true

/-- The keyed parts of the state are listed by rising key, each key once. -/
def State.Ordered (s : State) : Prop :=
  TMap.sorted s.ctxs = true ∧ TMap.sorted s.cores = true ∧ TMap.sorted s.dies = true ∧ TMap.sorted s.lineKey = true ∧
  TMap.sorted s.keyGen = true ∧ TMap.sorted s.cells = true ∧ TMap.sorted s.hgen = true ∧
  TMap.sorted s.launches = true ∧ TMap.sorted s.threads = true ∧ TMap.sorted s.slotctl = true ∧
  TMap.sorted s.qcount = true ∧ TMap.sorted s.arms = true ∧ TMap.sorted s.frescos = true ∧
  TMap.sorted s.stencils = true

/-- Registers of the strand that executes. -/
def State.regs (s : State) : Regs := (s.ctx s.cur).r

/-- The strand that executes is on no follower and leads none, owes no message and no register's result, replays no line, waits for
nothing, and has just come to its instruction. -/
def State.Alone (s : State) : Prop :=
  s.fwd = none ∧ (s.core (coreOf s.cur)).trace = .none ∧ s.followers (coreOf s.cur) = [] ∧
  (s.glaze.msgs.any fun p => s.ofCtx s.cur p.2.by_) = false ∧
  s.owedX s.cur = [] ∧
  ((s.ctx s.cur).replayNow && (s.ctx s.cur).replay.contains s.regs.pc) = false ∧ (s.ctx s.cur).prog = Progress.none ∧ (s.ctx s.cur).wait = none

/-- The instruction has no wait and no signal, and the strand is alone. -/
def State.Quiet (s : State) (sy : Sync) : Prop := sy.wait = none ∧ sy.sig = none ∧ s.Alone

/-- The strand holds the registers `r`, and nothing of its last instruction is left to do; `straight`: that was a jump to a crack
address that does not enter crack mode (R429). -/
def State.retireAs (s : State) (r : Regs) (straight : Bool) : State :=
  (Upd.ctx s.cur { s.ctx s.cur with r := r, prog := Progress.none, straight := straight }).apply s

def State.retire (s : State) (r : Regs) : State := s.retireAs r false

/-- The strand holds the registers `r` and goes on at the next instruction. -/
def State.goOn (s : State) (sy : Sync) (r : Regs) : State := s.retire { r with pc := nextPc s.regs.pc sy }

/-- A trap halts the core instead of being taken (R350). -/
def State.doubleTrap (s : State) : Bool := s.regs.mode == .monitor && s.regs.mintrap

/-- The strand has taken a trap (R351). -/
def State.trapped (s : State) (c : Cause) (deferred : Bool) (epc tval : Word) : State :=
  (Upd.ctx s.cur
    { s.ctx s.cur with
      r := s.regs.enterTrap (s.die (dieOf s.cur)).kvec (s.die (dieOf s.cur)).mvec c deferred epc tval
      prog := Progress.none
      handler := (s.ctx s.cur).handler + 1
      replayNow := false
      straight := false }).apply s

/-- The strand has left a trap handler with the registers `r` (R352); FAULTED lines are replayed where a deferred trap was taken
(R153). -/
def State.returned (s : State) (r : Regs) : State :=
  (Upd.ctx s.cur
    { s.ctx s.cur with
      r := r
      prog := Progress.none
      handler := (s.ctx s.cur).handler - 1
      replayNow := (s.ctx s.cur).replay.contains r.pc
      straight := false }).apply s

end Sys2Proof.Machine
end

