-- ==== Sys2Proof/Safety/Values.lean ====
section
/-! DEFINITION. What the rules of the spec say that instructions compute from the registers of their strand, as statements use
it: written from the rules, beside the model's own definitions. -/

namespace Sys2Proof.Machine.Expected

open Sys2Proof

/-- A register, the value it receives, and the synchronisation of the instruction. -/
abbrev Result := XReg × Word × Sync

/-- The integer instructions of R391, R393, R410, R436, R438, R447, R449, R452, R453, R456, R457, R468 and R494. -/
def scalarInt (i : Instr) (r : Regs) : Option Result :=
  let x := r.getX
  match i with
  | .add d a b sy => some (d, x a + x b, sy)
  | .addi d a v sy => some (d, x a + v, sy)
  | .sub d a b sy => some (d, x a - x b, sy)
  | .mul d a b sy => some (d, ((x a).setWidth 128 * (x b).setWidth 128).extractLsb' 0 64, sy)
  | .mulh d a b sy => some (d, ((x a).signExtend 128 * (x b).signExtend 128).extractLsb' 64 64, sy)
  | .mulhu d a b sy => some (d, ((x a).setWidth 128 * (x b).setWidth 128).extractLsb' 64 64, sy)
  | .div d a b sy =>
    some (d,
      if x b = 0 then BitVec.allOnes 64
      else if x a = BitVec.intMin 64 ∧ x b = BitVec.allOnes 64 then BitVec.intMin 64
      else BitVec.ofInt 64 ((x a).toInt.tdiv (x b).toInt), sy)
  | .divu d a b sy => some (d, if x b = 0 then BitVec.allOnes 64 else x a / x b, sy)
  | .rem d a b sy =>
    some (d,
      if x b = 0 then x a
      else if x a = BitVec.intMin 64 ∧ x b = BitVec.allOnes 64 then 0
      else BitVec.ofInt 64 ((x a).toInt.tmod (x b).toInt), sy)
  | .remu d a b sy => some (d, if x b = 0 then x a else x a % x b, sy)
  | .and d a b sy => some (d, x a &&& x b, sy)
  | .andi d a v sy => some (d, x a &&& v, sy)
  | .or d a b sy => some (d, x a ||| x b, sy)
  | .ori d a v sy => some (d, x a ||| v, sy)
  | .xor d a b sy => some (d, x a ^^^ x b, sy)
  | .xori d a v sy => some (d, x a ^^^ v, sy)
  | .shl d a b sy => some (d, x a <<< (x b % 64), sy)
  | .shli d a v sy => some (d, x a <<< v, sy)
  | .shr d a b sy => some (d, x a >>> (x b % 64), sy)
  | .shri d a v sy => some (d, x a >>> v, sy)
  | .sra d a b sy => some (d, (x a).sshiftRight' (x b % 64), sy)
  | .srai d a v sy => some (d, (x a).sshiftRight' v, sy)
  | .slt d a b sy => some (d, if (x a).toInt < (x b).toInt then 1 else 0, sy)
  | .sltu d a b sy => some (d, if (x a).toNat < (x b).toNat then 1 else 0, sy)
  | .slti d a v sy => some (d, if (x a).toInt < v.toInt then 1 else 0, sy)
  | .min d a b sy => some (d, if (x a).toInt ≤ (x b).toInt then x a else x b, sy)
  | .max d a b sy => some (d, if (x a).toInt ≤ (x b).toInt then x b else x a, sy)
  | .minu d a b sy => some (d, if (x a).toNat ≤ (x b).toNat then x a else x b, sy)
  | .maxu d a b sy => some (d, if (x a).toNat ≤ (x b).toNat then x b else x a, sy)
  | .clz d a sy => some (d, if x a = 0 then 64 else BitVec.ofNat 64 (63 - (x a).toNat.log2), sy)
  | .popc d a sy => some (d, BitVec.ofNat 64 ((List.range 64).countP fun i => (x a).getLsbD i), sy)
  | .sel d a b c sy => some (d, if x a ≠ 0 then x b else x c, sy)
  | .li d v sy => some (d, v, sy)
  | .adr d v sy => some (d, r.pc + v, sy)
  | _ => none

/-- The branches of R397, R398, R428, R437 and R469: the registers after, with the address of the next instruction. BANY and BALL ask of
the lanes below sr.vl. -/
def branch (i : Instr) (r : Regs) : Option (Regs × Sync) :=
  let x := r.getX
  let after (sy : Sync) : Word := r.pc + 8 * (if sy.ext = .none then 1 else 2)
  let go (sy : Sync) (t : Bool) (off : Word) : Word := if t then r.pc + 8 * off else after sy
  match i with
  | .br c a b off sy =>
    let t := match c with
      | .eq => decide (x a = x b)
      | .ne => decide (x a ≠ x b)
      | .lt => decide ((x a).toInt < (x b).toInt)
      | .ge => decide ((x b).toInt ≤ (x a).toInt)
      | .ltu => decide ((x a).toNat < (x b).toNat)
      | .geu => decide ((x b).toNat ≤ (x a).toNat)
    some ({ r with pc := go sy t off }, sy)
  | .j off sy => some ({ r with pc := r.pc + 8 * off }, sy)
  | .jl d off sy => some ({ r.setX d (after sy) with pc := r.pc + 8 * off }, sy)
  | .jr a off sy => some ({ r with pc := x a + 8 * off }, sy)
  | .jlr d a off sy => some ({ r.setX d (after sy) with pc := x a + 8 * off }, sy)
  | .loop d off sy => some ({ r.setX d (x d - 1) with pc := go sy (decide (x d - 1 ≠ 0)) off }, sy)
  | .bany k off sy => some ({ r with pc := go sy (decide (∃ i < r.vl.toNat, (r.getK k).getLsbD i = true)) off }, sy)
  | .ball k off sy => some ({ r with pc := go sy (decide (∀ i < r.vl.toNat, (r.getK k).getLsbD i = true)) off }, sy)
  | .tagchk a b off sy => some ({ r with pc := go sy (!(x b).getLsbD ((x a).toNat % 8)) off }, sy)
  | _ => none

/-- The jumps that enter crack mode at a crack address (R325, R429). -/
def enters : Instr → Bool
  | .jr .. | .jlr .. => true
  | _ => false

/-- The rounding mode of an instruction: dyn is RM of sr.fcsr (R119, R124). -/
def mode (r : Regs) (m : Rnd) : Rnd :=
  if m = .dyn then
    (if r.rm = 2 then .rtz else if r.rm = 3 then .rdn else if r.rm = 4 then .rup else if r.rm = 5 then .rna else .rne)
  else m

/-- Fsrc(A, T): the number that the low bits of a register hold (R127, R416). -/
def fsrc (r : Regs) (a : XReg) (t : Ty) : FV := (tyFmt t).decode ((r.getX a).toNat % 2 ^ t.bits)

/-- Round(v, T), with the flags of the operation. -/
def rounded (t : Ty) (m : Rnd) (v : FV × Flags) : Nat × Flags := (tyFmt t).deliver m v.1 v.2

/-- A predicate on two numbers, and NV (R417). -/
def predicate (p : Pred) (a b : FV) : Bool × Flags :=
  let nan := a.isNan || b.isNan
  let holds := match p with
    | .eq => !nan && FV.eq a b
    | .ne => nan || !FV.eq a b
    | .lt => !nan && FV.lt a b
    | .le => !nan && !FV.lt b a
    | .gt => !nan && FV.lt b a
    | .ge => !nan && !FV.lt a b
    | .un => nan
  let invalid := match p with
    | .eq | .ne | .un => a.isSnan || b.isSnan
    | _ => nan
  (holds, if invalid then Flags.nv else 0)

/-- The floating-point instructions of R414, R416, R417 and R423: the code that the register receives, and the flags. -/
def scalarFp (i : Instr) (r : Regs) : Option (XReg × (Nat × Flags) × Sync) :=
  let x := fsrc r
  match i with
  | .fadd t m d a b sy => some (d, rounded t (mode r m) (FV.add (mode r m) (x a t) (x b t)), sy)
  | .fsub t m d a b sy => some (d, rounded t (mode r m) (FV.add (mode r m) (x a t) (x b t).neg), sy)
  | .fmul t m d a b sy => some (d, rounded t (mode r m) (FV.mul (x a t) (x b t)), sy)
  | .ffma t m d a b c sy => some (d, rounded t (mode r m) (FV.fma (mode r m) (x a t) (x b t) (x c t)), sy)
  | .fdiv t m d a b sy => some (d, rounded t (mode r m) (FV.div (x a t) (x b t)), sy)
  | .fsqrt t m d a sy => some (d, rounded t (mode r m) (FV.sqrt (x a t)), sy)
  | .fmin t d a b sy =>
    some (d, fMinMax (tyFmt t) true ((r.getX a).toNat % 2 ^ t.bits) ((r.getX b).toNat % 2 ^ t.bits), sy)
  | .fmax t d a b sy =>
    some (d, fMinMax (tyFmt t) false ((r.getX a).toNat % 2 ^ t.bits) ((r.getX b).toNat % 2 ^ t.bits), sy)
  | .fcmp t p d a b sy =>
    let c := predicate p (x a t) (x b t)
    some (d, (if c.1 then 1 else 0, c.2), sy)
  | .fclass t d a sy =>
    let c := (r.getX a).toNat % 2 ^ t.bits
    some (d, (fClass (tyFmt t) c, 0), sy)
  | _ => none

/-- One step of the random sequence of sr.seed that FCVT takes with rsr (R122, R418): the new seed, and the draw. -/
def fcvt (t f : Ty) (m : Rnd) (a : XReg) (r : Regs) : Nat × Flags :=
  convert t f (mode r m) (seedDraw r.seed).2 ((r.getX a).toNat % 2 ^ f.bits)

/-- What FCVT writes to a register for a code of a type: signed integers are sign-extended, all else is zero-extended
(R418). -/
def extended (t : Ty) (code : Nat) : Word :=
  match t with
  | .i8 | .i16 | .i32 | .i64 => BitVec.ofInt 64 (if code % 2 ^ t.bits < 2 ^ (t.bits - 1) then (code % 2 ^ t.bits : Nat) else (code % 2 ^ t.bits : Nat) - (2 ^ t.bits : Nat))
  | _ => BitVec.ofNat 64 code

/-! ### Vectors -/

/-- Element e of a vector register, of a type's width. -/
def el (r : Regs) (v : VReg) (t : Ty) (e : Nat) : Nat := vElem (r.getV v) t.bits e

/-- Element e of w bits is active: its lane lies below sr.vl and its mask bit is 1 (R477). -/
def active (r : Regs) (k : KReg) (w e : Nat) : Prop := e * w / 32 < r.vl.toNat ∧ (r.getK k).getLsbD (e * w / 32) = true

/-- An integer operation modulo 2^w, or a floating-point one rounded once (R480). -/
def arith (t : Ty) (m : Rnd) (n : Nat) (v : FV × Flags) : Nat × Flags :=
  if t.isInt then (n % 2 ^ t.bits, 0) else rounded t m v

/-- The smaller or larger of two elements (R480, R423). -/
def pick (t : Ty) (smaller : Bool) (a b : Nat) : Nat × Flags :=
  match t with
  | .i8 | .i16 | .i32 | .i64 =>
    let x := sextInt a t.bits
    let y := sextInt b t.bits
    (if smaller then (if y < x then b else a) else (if x < y then b else a), 0)
  | .u8 | .u16 | .u32 | .u64 => (if smaller then (if b < a then b else a) else (if a < b then b else a), 0)
  | _ => fMinMax (tyFmt t) smaller a b

/-- The element-wise instructions of R479, R480, R481 and R484: element width, mask, destination, and the value and flags of an
active element; `lanes` is VLMAX of the core. -/
def elementwise (i : Instr) (lanes : Nat) (r : Regs) : Option (Nat × KReg × VReg × (Nat → Nat × Flags) × Sync) :=
  let num (v : VReg) (t : Ty) (e : Nat) : FV := (tyFmt t).decode (el r v t e)
  let lane (v : VReg) (i : Nat) : Nat := el r v .u32 i
  match i with
  | .vadd t m k d a b sy =>
    some (t.bits, k, d, fun e =>
      arith t (mode r m) (el r a t e + el r b t e) (FV.add (mode r m) (num a t e) (num b t e)), sy)
  | .vsub t m k d a b sy =>
    some (t.bits, k, d, fun e =>
      arith t (mode r m) (el r a t e + (2 ^ t.bits - el r b t e)) (FV.add (mode r m) (num a t e) (num b t e).neg), sy)
  | .vmul t m k d a b sy =>
    some (t.bits, k, d, fun e => arith t (mode r m) (el r a t e * el r b t e) (FV.mul (num a t e) (num b t e)), sy)
  | .vfma t m k d a b c sy =>
    some (t.bits, k, d, fun e =>
      rounded t (mode r m) (FV.fma (mode r m) (num a t e) (num b t e) (num c t e)), sy)
  | .vmin t k d a b sy => some (t.bits, k, d, fun e => pick t true (el r a t e) (el r b t e), sy)
  | .vmax t k d a b sy => some (t.bits, k, d, fun e => pick t false (el r a t e) (el r b t e), sy)
  | .vand t k d a b sy => some (t.bits, k, d, fun e => (el r a t e &&& el r b t e, 0), sy)
  | .vor t k d a b sy => some (t.bits, k, d, fun e => (el r a t e ||| el r b t e, 0), sy)
  | .vxor t k d a b sy => some (t.bits, k, d, fun e => (el r a t e ^^^ el r b t e, 0), sy)
  | .vshl t k d a b sy => some (t.bits, k, d, fun e => (el r a t e * 2 ^ (el r b t e % t.bits), 0), sy)
  | .vshr t k d a b sy => some (t.bits, k, d, fun e => (el r a t e / 2 ^ (el r b t e % t.bits), 0), sy)
  | .vsra t k d a b sy =>
    some (t.bits, k, d, fun e =>
      ((sextInt (el r a t e) t.bits / (2 ^ (el r b t e % t.bits) : Nat) % (2 ^ t.bits : Nat)).toNat, 0), sy)
  | .vabs t k d a sy =>
    some (t.bits, k, d, fun e =>
      (if t.isInt then (if 2 ^ (t.bits - 1) ≤ el r a t e ∧ tySigned t then 2 ^ t.bits - el r a t e else el r a t e)
       else el r a t e % 2 ^ (t.bits - 1), 0), sy)
  | .vneg t k d a sy =>
    some (t.bits, k, d, fun e =>
      (if t.isInt then 2 ^ t.bits - el r a t e else el r a t e ^^^ 2 ^ (t.bits - 1), 0), sy)
  | .vrcp t m k d a sy => some (t.bits, k, d, fun e => rounded t (mode r m) (FV.div (.fin false 1 0) (num a t e)), sy)
  | .vrsq t m k d a sy => some (t.bits, k, d, fun e => rounded t (mode r m) (FV.rsqrt (num a t e)), sy)
  | .vexp2 t m k d a sy => some (t.bits, k, d, fun e => rounded t (mode r m) (FV.exp2 (num a t e)), sy)
  | .vlog2 t m k d a sy => some (t.bits, k, d, fun e => rounded t (mode r m) (FV.log2 (num a t e)), sy)
  | .vsqrt t m k d a sy => some (t.bits, k, d, fun e => rounded t (mode r m) (FV.sqrt (num a t e)), sy)
  | .vdot t m k d a b c sy =>
    some (32, k, d, fun i =>
      if t.isInt then (dotInt t r a b c i, 0)
      else
        let p (j : Nat) : FV × Flags := FV.mul (num a t (2 * i + j)) (num b t (2 * i + j))
        let s1 := FV.add (mode r m) (num c .f32 i) (p 0).1
        let s2 := FV.add (mode r m) s1.1 (p 1).1
        rounded .f32 (mode r m) (s2.1, (p 0).2 ||| (p 1).2 ||| s1.2 ||| s2.2), sy)
  | .vbcast sz k d a sy =>
    some (32, k, d, fun i =>
      (match sz with
       | .b => (r.getX a).toNat % 2 ^ 8 * 0x01010101
       | .h => (r.getX a).toNat % 2 ^ 16 * 0x00010001
       | .w => (r.getX a).toNat % 2 ^ 32
       | .d => if i % 2 = 0 then (r.getX a).toNat % 2 ^ 32 else (r.getX a).toNat / 2 ^ 32, 0), sy)
  | .vperm k d a b sy => some (32, k, d, fun i => (lane a (lane b i % lanes), 0), sy)
  | .vrot k d a b sy => some (32, k, d, fun i => (lane a ((i + (r.getX b).toNat) % lanes), 0), sy)
  | .viota k d a sy => some (32, k, d, fun i => ((r.getX a).toNat + i, 0), sy)
  | _ => none

/-- The lanes that take part: below sr.vl, with their mask bit set, ascending (R477). -/
def live (r : Regs) (k : KReg) : List Nat := (List.range r.vl.toNat).filter fun i => (r.getK k).getLsbD i

/-- Op of VRED and VSCAN (R487). -/
def op (t : Ty) (o : ROp) (m : Rnd) (a b : Nat) : Nat × Flags :=
  match o with
  | .add =>
    if t.isInt then ((a + b) % 2 ^ 32, 0)
    else Fmt.f32.deliver m (FV.add m (Fmt.f32.decode a) (Fmt.f32.decode b)).1 (FV.add m (Fmt.f32.decode a) (Fmt.f32.decode b)).2
  | .min => pick t true a b
  | .max => pick t false a b
  | .and => (a &&& b, 0)
  | .or => (a ||| b, 0)
  | .xor => (a ^^^ b, 0)

/-- The values of a list put together from its first on, and the flags of every Op. -/
def along (f : Nat → Nat → Nat × Flags) : List Nat → Nat × Flags
  | [] => (0, 0)
  | x :: l => l.foldl (fun v y => ((f v.1 y).1, v.2 ||| (f v.1 y).2)) (x, 0)

/-- The value of lane i precedes that of lane j in the order of R489, or they are equal and i is the lower lane. -/
def before (t : Ty) (r : Regs) (a : VReg) (i j : Nat) : Bool :=
  let above (x y : Nat) : Bool :=
    if t.isInt then decide (intVal (tySigned t) 32 y < intVal (tySigned t) 32 x)
    else (!(Fmt.f32.decode x).isNan && (Fmt.f32.decode y).isNan) || FV.lt (Fmt.f32.decode y) (Fmt.f32.decode x)
  let x := el r a .u32 i
  let y := el r a .u32 j
  above x y || (!above y x && decide (i < j))

/-- VSEL, VCOMP, VINS, VSCAN and VTOPK (R481, R487, R489): the destination, the value of each lane that is written, and the
flags. -/
def lanewise (i : Instr) (lanes : Nat) (r : Regs) : Option (VReg × (Nat → Option Nat) × Flags × Sync) :=
  let lane (v : VReg) (i : Nat) : Nat := el r v .u32 i
  let vl := r.vl.toNat
  match i with
  | .vsel k d a b sy =>
    some (d, fun i => if i < vl then some (if (r.getK k).getLsbD i then lane a i else lane b i) else none, 0, sy)
  | .vcomp k d a sy =>
    some (d, fun i => if i < vl then some (((live r k)[i]?.map (lane a)).getD 0) else none, 0, sy)
  | .vins d a b sy =>
    some (d, fun i => if i = (r.getX b).toNat ∧ i < lanes then some ((r.getX a).toNat % 2 ^ 32) else none, 0, sy)
  | .vscan t o m k d a sy =>
    let f := op t o (mode r m)
    some (d, fun i =>
      if i ∈ live r k then some (along f (((live r k).filter fun j => decide (j ≤ i)).map (lane a))).1 else none,
      (along f ((live r k).map (lane a))).2, sy)
  | .vtopk t k d a b sy =>
    let n := min (r.getX b).toNat (live r k).length
    some (d, fun i =>
      if i < n then (live r k).find? fun j => ((live r k).countP fun x => before t r a x j) == i
      else if i < vl then some 0xFFFFFFFF else none,
      if !t.isInt && (live r k).any fun i => (Fmt.f32.decode (lane a i)).isSnan then Flags.nv else 0, sy)
  | _ => none

/-- Masks, SETVL and the vector instructions that write a scalar register (R430, R455, R481, R487): the registers after. -/
def masks (i : Instr) (lanes : Nat) (r : Regs) : Option (Regs × Sync) :=
  let vl := r.vl.toNat
  match i with
  | .kand d a b sy => some (r.setK d (r.getK a &&& r.getK b), sy)
  | .kor d a b sy => some (r.setK d (r.getK a ||| r.getK b), sy)
  | .kxor d a b sy => some (r.setK d (r.getK a ^^^ r.getK b), sy)
  | .knot d a sy => some (r.setK d (~~~r.getK a), sy)
  | .kmov (.kk d a) sy => some (r.setK d (r.getK a), sy)
  | .kmov (.kx d a) sy => some (r.setK d (r.getX a), sy)
  | .kmov (.xk d a) sy => some (r.setX d (r.getK a), sy)
  | .kpopc d a sy => some (r.setX d (BitVec.ofNat 64 ((List.range vl).countP fun i => (r.getK a).getLsbD i)), sy)
  | .kff d a sy => some (r.setX d (BitVec.ofNat 64 (((List.range vl).find? fun i => (r.getK a).getLsbD i).getD 64)), sy)
  | .vext d a b sy =>
    some (r.setX d (if (r.getX b).toNat < lanes then BitVec.ofNat 64 (el r a .u32 (r.getX b).toNat) else 0), sy)
  | .setvl d a v sy =>
    let n := min (r.getX a + v).toNat lanes
    some ({ r.setX d (BitVec.ofNat 64 n) with vl := BitVec.ofNat 7 (max n 1) }, sy)
  | .vred t o m k d a sy =>
    let v := combine (op t o (mode r m)) (fun i => if i ∈ live r k then some (el r a .u32 i) else none)
      (if lanes = 64 then 6 else 3) 0
    some ({ r.setX d (extended t (v.1.getD (redIdentity t o))) with flags := r.flags ||| v.2 }, sy)
  | _ => none

/-- The predicate of VCMP on two elements, and NV (R482). -/
def compare (t : Ty) (p : Pred) (a b : Nat) : Bool × Flags :=
  if t.isInt then
    let x := intVal (tySigned t) t.bits a
    let y := intVal (tySigned t) t.bits b
    ((match p with
      | .eq => decide (x = y)
      | .ne => decide (x ≠ y)
      | .lt => decide (x < y)
      | .le => decide (x ≤ y)
      | .gt => decide (y < x)
      | .ge => decide (y ≤ x)
      | .un => false), 0)
  else predicate p ((tyFmt t).decode a) ((tyFmt t).decode b)

/-- sr.seed after n draws (R122). -/
def seedAfter (n : Nat) (seed : Word) : Word := n.repeat (fun x => (seedDraw x).1) seed

/-- The elements that VCVT converts: all below its count, of equal widths the active ones (R483). -/
def converted (t f : Ty) (k : KReg) (r : Regs) : List Nat :=
  let w := max t.bits f.bits
  (List.range (r.vl.toNat * 32 / w)).filter fun e =>
    decide (t.bits ≠ f.bits) || (r.getK k).getLsbD (e * w / 32)

/-- The conversion of the element that stands at a place in that list (R126, R483). -/
def conversion (t f : Ty) (m : Rnd) (a : VReg) (r : Regs) (e place : Nat) : Nat × Flags :=
  convert t f (mode r m) (seedDraw (seedAfter (if m = .rsr then place else 0) r.seed)).2 (el r a f e)

end Sys2Proof.Machine.Expected
end

