-- ==== Sys2Proof/Safety/Special.lean ====
section
/-! DEFINITION. The special registers as R103 and the rules that it names lay them out: who may read and write each, what a read
gives, and what a write leaves. -/

namespace Sys2Proof.Machine.Expected

open Sys2Proof

/-- User, kernel, monitor, ascending (R348). -/
def level : Mode → Nat
  | .user => 0
  | .kernel => 1
  | .monitor => 2

/-- A word whose fields stand at the given lowest bits. -/
def fields (l : List (Nat × Nat)) : Word := BitVec.ofNat 64 (l.map fun p => p.2 * 2 ^ p.1).sum

/-- sr.cause and sr.mcause (R353). -/
def causeWord (t : TrapRegs) : Word := fields [(8, if t.deferred then 1 else 0), (0, t.code.toNat)]

/-- sr.status (R348). -/
def status (r : Regs) : Word :=
  fields [(7, if r.mintrap then 1 else 0), (5, level r.mpmode), (4, if r.intrap then 1 else 0), (2, level r.pmode),
    (0, level r.mode)]

/-- sr.err (R355). -/
def err (c : Ctx) : Word :=
  fields [(56, c.errAddr.toNat / 2 ^ 56), (8, c.errAddr.toNat % 2 ^ 48), (4, min c.pend.length 8),
    (3, if c.ovf then 1 else 0), (2, if c.stale then 1 else 0), (1, if c.pend.any (·.engine) then 1 else 0),
    (0, if c.pend.any fun p => p.cause = .poison && !p.engine then 1 else 0)]

/-- A special register (R103): the lowest mode that may read it, the lowest mode that may write it, and what SRD gives. -/
def special (s : State) (n : Nat) : Option (Nat × Option Nat × Word) :=
  let c := s.ctx s.cur
  let r := c.r
  let core := coreOf s.cur
  if n = 0x000 then some (0, some 0, r.vl.zeroExtend 64)
  else if n = 0x001 then some (0, some 0, fields [(13, r.rm.toNat), (0, r.flags.toNat)])
  else if n = 0x002 then some (0, some 0, r.seed)
  else if n = 0x003 then some (0, some 0, err c)
  else if n = 0x010 then some (0, none, fields [(48, r.launch.toNat), (32, s.cur % 16), (0, r.index.toNat)])
  else if n = 0x011 then some (0, none, BitVec.ofNat 64 core)
  else if n = 0x012 then some (0, none, if core < 1536 then BitVec.ofNat 64 (core / 8) else 0xFF)
  else if n = 0x013 then some (0, none, BitVec.ofNat 64 (if core < 1536 then core / 192 else (core - 1536) / 4))
  else if n = 0x014 then some (0, none, (s.node.getD 0).zeroExtend 64)
  else if n = 0x015 then some (0, none, r.grp)
  else if n = 0x016 then some (0, none, r.rank)
  else if n = 0x017 then some (0, none, r.param)
  else if n = 0x018 then some (0, some 2, BitVec.ofNat 64 s.time)
  else if n = 0x020 then some (1, some 1, causeWord r.ktrap)
  else if n = 0x021 then some (1, some 1, r.ktrap.epc)
  else if n = 0x022 then some (1, some 1, r.ktrap.tval)
  else if n = 0x023 then some (1, some 1, status r)
  else if n = 0x024 then some (1, some 1, r.asid.zeroExtend 64)
  else if n = 0x025 then some (1, some 1, (s.core core).quantum.zeroExtend 64)
  else if n = 0x026 then some (2, some 2, causeWord r.mtrap)
  else if n = 0x027 then some (2, some 2, r.mtrap.epc)
  else if n = 0x028 then some (2, some 2, r.mtrap.tval)
  else if 0x030 ≤ n ∧ n < 0x038 then some (1, some 1, TMap.get 0 r.lsbase (n - 0x030))
  else if 0x038 ≤ n ∧ n < 0x040 then some (1, some 1, TMap.get 0 r.lslim (n - 0x038))
  else none

/-- The strand's context with other registers. -/
def withRegs (s : State) (r : Regs) : State := (Upd.ctx s.cur { s.ctx s.cur with r := r }).apply s

/-- A mode field of sr.status after a write of its two bits: 0b11 leaves it (R348). -/
def modeField (old : Mode) (n : Nat) : Mode :=
  if n = 0 then .user else if n = 1 then .kernel else if n = 2 then .monitor else old

/-- What a write of the word w to a register leaves (R461 and the rules that it names). -/
def written (s : State) (n : Nat) (w : Word) : State :=
  let c := s.ctx s.cur
  let r := c.r
  let core := coreOf s.cur
  let k := w.toNat
  if n = 0x000 then
    withRegs s { r with vl := BitVec.ofNat 7 (max 1 (min k (if core < 1536 then 64 else 8))) }
  else if n = 0x001 then
    let rm := k / 2 ^ 13 % 8
    withRegs s
      { r with
        rm := if rm = 0 ∨ rm = 6 ∨ rm = 7 then r.rm else BitVec.ofNat 3 rm
        flags := BitVec.ofNat 6 k }
  else if n = 0x002 then withRegs s { r with seed := if w = 0 then 1 else w }
  else if n = 0x003 then
    (Upd.ctx s.cur
      { c with
        errAddr := fields [(56, k / 2 ^ 56), (0, k / 2 ^ 8 % 2 ^ 48)]
        ovf := c.ovf && !w.getLsbD 3
        stale := c.stale && !w.getLsbD 2
        pend := if w.getLsbD 0 then c.pend.filter fun p => !(p.cause = .poison && !p.engine) else c.pend }).apply s
  else if n = 0x018 then { s with time := max s.time k }
  else if n = 0x020 then withRegs s { r with ktrap := { r.ktrap with code := w.truncate 8, deferred := w.getLsbD 8 } }
  else if n = 0x021 then withRegs s { r with ktrap := { r.ktrap with epc := w } }
  else if n = 0x022 then withRegs s { r with ktrap := { r.ktrap with tval := w } }
  else if n = 0x023 then
    let r1 := { r with intrap := w.getLsbD 4, pmode := modeField r.pmode (k / 4 % 4) }
    withRegs s
      (if r.mode = .monitor then { r1 with mintrap := w.getLsbD 7, mpmode := modeField r.mpmode (k / 32 % 4) } else r1)
  else if n = 0x024 then withRegs s { r with asid := w.truncate 16 }
  else if n = 0x025 then (Upd.core core { s.core core with quantum := w.truncate 32 }).apply s
  else if n = 0x026 then withRegs s { r with mtrap := { r.mtrap with code := w.truncate 8, deferred := w.getLsbD 8 } }
  else if n = 0x027 then withRegs s { r with mtrap := { r.mtrap with epc := w } }
  else if n = 0x028 then withRegs s { r with mtrap := { r.mtrap with tval := w } }
  else if n < 0x038 then
    withRegs s
      { r with lsbase := TMap.put r.lsbase (n - 0x030) (fields [(61, k / 2 ^ 61), (8, k / 2 ^ 8 % 2 ^ 11)]) }
  else withRegs s { r with lslim := TMap.put r.lslim (n - 0x038) (fields [(8, k / 2 ^ 8 % 2 ^ 11)]) }

end Sys2Proof.Machine.Expected
end

