-- ==== Sys2Proof/Safety/Memory.lean ====
section
/-! DEFINITION. What the rules say of a strand's accesses to local and global memory, as statements use it. -/

namespace Sys2Proof.Machine.Expected

open Sys2Proof

/-- Bytes of a SIZE (R87). -/
def size : Size → Nat
  | .b => 1
  | .h => 2
  | .w => 4
  | .d => 8

/-- The little-endian number of a list of bytes (R7). -/
def number (bs : List Byte) : Nat := (bs.zipIdx.map fun p => p.1.toNat * 256 ^ p.2).sum

/-- Byte i of a number. -/
def byteOf (v i : Nat) : Byte := BitVec.ofNat 8 (v / 256 ^ i)

/-- The byte that a list of writes of n bytes each, in order, leaves at an address; none where no write covers it. -/
def lastWrite (ws : List (Nat × Nat)) (n a : Nat) : Option Byte :=
  ws.foldl (fun b w => if w.1 ≤ a ∧ a < w.1 + n then some (byteOf w.2 (a - w.1)) else b) none

/-- LD and ST of an element, and VLD and VST of the active elements, in ascending order: the addresses (R87, R431, R485). -/
def address1 (r : Regs) (a : XReg) (m : Addr1) : Word :=
  match m with
  | .disp d => r.getX a + d
  | .reg b => r.getX a + r.getX b

def addressV (r : Regs) (sz : Size) (a : XReg) (m : AddrV) (e : Nat) : Word :=
  match m with
  | .unit d => r.getX a + d + BitVec.ofNat 64 (e * size sz)
  | .strided d s => r.getX a + d + BitVec.ofNat 64 e * r.getX s
  | .indexed d v => r.getX a + d + BitVec.ofNat 64 (el r v .u32 e)

/-- The active elements of VLD and VST (R485). -/
def elements (r : Regs) (sz : Size) (k : KReg) : List Nat :=
  (List.range (r.vl.toNat * 4 / size sz)).filter fun e => (r.getK k).getLsbD (e * size sz / 4)

/-- The new value of an atomic operation on w bits (R395). -/
def atomic (o : AOp) (w old b : Nat) : Nat :=
  match o with
  | .swap => b
  | .add => (old + b) % 2 ^ w
  | .and => old &&& b
  | .or => old ||| b
  | .xor => old ^^^ b
  | .min => if sextInt b w < sextInt old w then b else old
  | .max => if sextInt old w < sextInt b w then b else old
  | .fadd => (atomicFadd old b).1

/-- The flags of an atomic operation: fadd's alone (R130, R395). -/
def atomicFlags (o : AOp) (old b : Nat) : Flags :=
  match o with
  | .fadd => (atomicFadd old b).2
  | _ => 0

/-! ### Local store (R133 to R137) -/

/-- Byte a of the local store of the strand's core. -/
def localKey (s : State) (a : Nat) : Nat := coreOf s.cur * 2 ^ 20 + a

/-- A local access of n bytes that is aligned and that R133 and R135 permit. -/
def LocalAccess (s : State) (rd wr : Bool) (va : Word) (n : Nat) : Prop :=
  va.toNat % n = 0 ∧
  ∀ i < n,
    va.toNat + i < (if coreOf s.cur < 1536 then 0x80000 else 0x40000) ∧
    (s.regs.mode ≠ .user ∨
      ∃ g < 8,
        let base := TMap.get 0 s.regs.lsbase g
        let lim := TMap.get 0 s.regs.lslim g
        base.getLsbD 63 = true ∧ (rd = true → base.getLsbD 62 = true) ∧ (wr = true → base.getLsbD 61 = true) ∧
        base.toNat / 256 % 2 ^ 11 * 256 ≤ va.toNat + i ∧ va.toNat + i ≤ lim.toNat / 256 % 2 ^ 11 * 256 + 255)

/-- The n local bytes from an address on carry no poison. -/
def LocalClean (s : State) (va : Word) (n : Nat) : Prop := ∀ i < n, NatSet.has s.lsBad (localKey s (va.toNat + i)) = false

/-- The number that n local bytes hold. -/
def localValue (s : State) (va : Word) (n : Nat) : Nat :=
  number ((List.range n).map fun i => Memory.read s.ls (localKey s (va.toNat + i)))

/-- Between two states nothing differs but the local store of the strand's core, where exactly the bytes that the writes
cover have their new values and lose their poison, the journal of the strand's gang, if it has one, and, where an engine operation of
the strand is or has been under way, what such operations may not see yet of its stores (R185). -/
def LocalWritten (s t : State) (ws : List (Nat × Nat)) (n : Nat) : Prop :=
  t = { s with ls := t.ls, lsBad := t.lsBad, launches := t.launches, unseen := t.unseen, seq := t.seq } ∧
  ((s.engineBusy true fun b => b.agent == s.cur) = false → (∀ e ∈ s.unseen, e.agent ≠ s.cur) →
    t.unseen = s.unseen ∧ t.seq = s.seq) ∧
  (s.gangOf s.cur = none → t.launches = s.launches) ∧
  (∀ k, Memory.read t.ls k =
    (lastWrite (ws.map fun w => (localKey s w.1, w.2)) n k).getD (Memory.read s.ls k)) ∧
  (∀ k, NatSet.has t.lsBad k =
    (NatSet.has s.lsBad k && (lastWrite (ws.map fun w => (localKey s w.1, w.2)) n k).isNone))

/-! ### Global memory -/

/-- A global address is near memory that a requester's access of the kind may reach without a choice of the device's: its group
of leaves agrees, and what the die's translation cache holds of its page is the page as it stands. A counter word has lost no
byte. -/
def Translates (s : State) (q : Req) (k : Kind) (va : Word) (pa : Nat) : Prop :=
  let e := s.walk q.die q.asid va
  va.toNat / 2 ^ 48 % 2 ^ 8 = 0 ∧ vaNode va = s.nodeId ∧ s.contOthers q.die q.asid va e = [] ∧
  (∀ x ∈ s.cached q.die q.asid va, x = e) ∧ s.checkLeaf q k va e = .ok (.phys pa) ∧ isConfig pa = false ∧
  (leafK e.leaf = true → ∀ i < 8, s.poisoned (pa / 8 * 8 + i) = false)

/-- A line of near memory was written under the key of the page that holds it for a requester, or not at all. -/
def Readable (s : State) (q : Req) (va : Word) (pa : Nat) : Prop :=
  TMap.find s.lineKey (pa / 256) = none ∨
  TMap.find s.lineKey (pa / 256) = some (s.keyTag (leafKey (s.walk q.die q.asid va).leaf))

/-- A line that L1, or the L2 of the core's die, holds of an address: under the ASID, or of a page with G = 1 (R141, R143). -/
def Caches (s : State) (core : Nat) (asid : BitVec 16) (va : Word) (x : L1Line) : Prop :=
  let line := va - BitVec.ofNat 64 (va.toNat % 256)
  ∃ k, ((k, x) ∈ (s.core (s.l1Core core va)).l1 ∨ (core < 1536 ∧ (k, x) ∈ (s.die (dieOfCore core)).l2)) ∧
    (k = asid.toNat * 2 ^ 64 + line.toNat ∨
      (k % 2 ^ 64 = line.toNat ∧ ∃ e, x.leaf = some e ∧ leafG e.leaf = true))

/-- A cached line of an address came with the translation that the die holds now, and holds what memory holds unless its read lease
is over for the strand (R141, R159). -/
def Current (s : State) (a : Nat) (va : Word) (pa : Nat) (x : L1Line) : Prop :=
  x.place (s.reqOf a) va = .ok (.phys pa) ∧ s.cached (dieOf a) (s.ctx a).r.asid va ≠ [] ∧
  (x.rts < s.pts a ∨ x.bytes = (List.range 256).map fun i => Memory.read s.mem (pa / 256 * 256 + i))

/-- An access of a context of the device that does not reach the monitor's region is near memory, with no lease of another agent on
the address. -/
def Maps (s : State) (k : Kind) (va : Word) (pa : Nat) : Prop :=
  s.cur < 25088 ∧ (s.regs.mode = .monitor → s.primer.region = []) ∧
  Translates s (s.reqOf s.cur) k va pa ∧ s.leasedByOther s.cur pa = false ∧ Readable s (s.reqOf s.cur) va pa ∧
  ∀ x, Caches s (coreOf s.cur) s.regs.asid va x → Current s s.cur va pa x

/-- No atomic sums are open on the line of a physical address (R171). -/
def NoPartials (s : State) (pa : Nat) : Prop := ∀ p ∈ s.fadds, p.1 / 64 ≠ pa / 256

/-- The n bytes from a physical address on carry no poison, no atomic sums are open on their lines, and every engine's write of them
has become visible on every die. -/
def Clean (s : State) (pa n : Nat) : Prop :=
  (∀ i < n, s.poisoned (pa + i) = false) ∧
  ∀ i < n, NoPartials s (pa + i) ∧ ∀ p ∈ s.engOld, p.1 ≠ (pa + i) / 8

/-- The number that n bytes of device memory hold. -/
def memValue (s : State) (pa n : Nat) : Nat := number ((List.range n).map fun i => Memory.read s.mem (pa + i))

/-- Nothing is on its way to another device's memory: no far write of the strand, and none of an engine. -/
def NothingFar (s : State) : Prop := (s.ctx s.cur).farw = [] ∧ s.farPend = []

/-- What no load, store or fence of a strand changes: every register of its context but those given, the other contexts but for
a core's choice of the next one, and every memory; of other devices', but for far writes on their way. -/
def Keeps (s t : State) : Prop :=
  t.ls = s.ls ∧ t.lsBad = s.lsBad ∧ t.plane = s.plane ∧ t.planeBad = s.planeBad ∧ t.cells = s.cells ∧ t.hgen = s.hgen ∧
  (NothingFar s → t.far = s.far) ∧ t.frescos = s.frescos ∧ t.stencils = s.stencils ∧ t.glaze = s.glaze ∧ t.launches = s.launches ∧
  t.threads = s.threads ∧ t.primer = s.primer ∧ t.time = s.time ∧ t.still = s.still ∧ t.cur = s.cur ∧
  ∀ a, a ≠ s.cur → (t.ctx a).r = (s.ctx a).r

/-- No other agent of the device can access local store meanwhile: no engine has a command, no transfer runs. -/
def EnginesIdle (s : State) : Prop :=
  (∀ p ∈ s.frescos, p.2.cmds = []) ∧ ∀ p ∈ s.stencils, ∀ e ∈ p.2.entries, e.2.st ≠ .running

/-- No other agent of the device can access memory meanwhile: no engine, no other strand with its stores, no Glaze node and no
storage client. Between the elements of a VLD or VST another agent's access may fall (R158). -/
def NoOthers (s : State) : Prop :=
  EnginesIdle s ∧ (∀ p ∈ s.ctxs, p.1 ≠ s.cur → p.2.phase.alive = false ∧ p.2.lines = []) ∧
  s.glaze.nreds = [] ∧ s.glaze.redus = [] ∧ s.glaze.nsends = [] ∧ s.glaze.msgs = [] ∧ s.glaze.lates = [] ∧ s.stor = [] ∧
  ∀ d ∈ s.dies, ∀ i < 64, (s.access d.1 0 (masterJob i)).getLsbD 63 = false

/-- Nothing has changed but logical times, what parties and counters know of engines' writes, and which free values have been taken:
no instruction reads them (R159, R178). -/
def Timed (s t : State) : Prop := t = { s with times := t.times, joins := t.joins, oracle := t.oracle }

/-! ### Releases and acquires (R177, R180, R188) -/

/-- An engine's write that some party may still miss (R186, R188). -/
def Hidden (s : State) (c : Nat) (e : EngW) : Prop := ∃ l, (c, l) ∈ s.engOld ∧ e ∈ l

/-- Between two states nothing differs but writes of engines that have become visible on every die, or have been performed at their
home devices. -/
def Released (s t : State) : Prop :=
  t =
    { s with
      engOld := t.engOld, farPend := t.farPend, far := t.far, farOld := t.farOld, farSeq := t.farSeq, farFloor := t.farFloor
      farFadds := t.farFadds, dies := t.dies, oracle := t.oracle } ∧
  (∀ c e, Hidden t c e → Hidden s c e) ∧ (∀ p ∈ t.farPend, p ∈ s.farPend) ∧
  (s.farPend = [] → t = { s with engOld := t.engOld })

/-- What a release of the strand at a scope carries of the engine operations that it has joined: beyond group scope their writes of near
memory become visible on every die; at system scope those of far memory are performed. Nothing else changes. -/
def Carried (s t : State) (sc : Scope) : Prop :=
  Released s t ∧
  (∀ c e, Hidden t c e ↔ Hidden s c e ∧ (sc = .group ∨ s.joined s.cur e.op e.num = false)) ∧
  (∀ p, p ∈ t.farPend ↔ p ∈ s.farPend ∧ (sc ≠ .system ∨ s.joined s.cur p.op p.num = false)) ∧
  (sc ≠ .system → t = { s with engOld := t.engOld })

/-- What a fence of the strand leaves of writes on their way: as a release carries, the strand's own far writes among them. -/
def Fenced (s t : State) (sc : Scope) : Prop :=
  (∃ u, Carried s u sc ∧
    t =
      { u with
        ctxs := t.ctxs, far := t.far, farOld := t.farOld, farSeq := t.farSeq, farFloor := t.farFloor, farFadds := t.farFadds
        dies := t.dies, oracle := t.oracle }) ∧
  (∀ a, t.ctx a = if a = s.cur ∧ sc = .system then { s.ctx a with farw := [] } else s.ctx a) ∧
  (sc ≠ .system ∨ NothingFar s →
    t.far = s.far ∧ t.farOld = s.farOld ∧ t.farSeq = s.farSeq ∧ t.farFloor = s.farFloor ∧ t.farFadds = s.farFadds ∧
    t.dies = s.dies ∧ t.oracle = s.oracle)

/-- After an acquire of an agent: at system scope no stale far line serves it (R177, R180). -/
def acquired (s : State) (agent : Nat) (sc : Scope) : TMap Nat :=
  if sc = .system then TMap.put s.farAcq agent s.farSeq else s.farAcq

/-! ### The store buffer (R150) -/

/-- A store or RED enters the line of its address, or opens one; `byST` of an ST. -/
def push (c : Ctx) (va : Word) (n : Nat) (data : Word) (red : Option AOp) (byST : Bool) (seq : Nat) : Ctx :=
  let line := va - BitVec.ofNat 64 (va.toNat % 256)
  let o : SOp :=
    { off := va.toNat % 256, size := n, data := data, red := red, mode := c.r.mode, byST := byST, seq := seq }
  if c.lines.any fun l => l.va == line && l.asid == c.r.asid then
    { c with lines := c.lines.map fun l => if l.va = line ∧ l.asid = c.r.asid then { l with ops := l.ops ++ [o] } else l }
  else
    { c with
      lines := c.lines ++
        [{ va := line, asid := c.r.asid, faulted := none, age := seq, queued := none, ops := [o] }] }

/-- Stores and REDs in order, each with the next number of the device's order. -/
def pushes (c : Ctx) (n : Nat) (red : Option AOp) (byST : Bool) : List (Word × Word) → Nat → Ctx
  | [], _ => c
  | (va, v) :: l, seq => pushes (push c va n v red byST seq) n red byST l (seq + 1)

/-- Aligned global addresses with a zero middle byte, whose lines fit in the eight that a context holds beside those it has
(R137, R138, R150). -/
def Bufferable (s : State) (vas : List Word) (n : Nat) : Prop :=
  let c := s.ctx s.cur
  (∀ va ∈ vas, va.toNat % n = 0 ∧ va.toNat / 2 ^ 48 % 2 ^ 8 = 0) ∧
  (c.lines.map fun l => (l.va, l.asid)).length +
      (((vas.map fun va => (va - BitVec.ofNat 64 (va.toNat % 256), c.r.asid)).dedup).filter fun p =>
        !(c.lines.map fun l => (l.va, l.asid)).contains p).length ≤ 8 ∧
  ∀ l ∈ c.lines, l.faulted = none

/-- An address maps to no configuration register, by any translation that an access may get (R370). -/
def NoConfig (s : State) (va : Word) : Prop :=
  vaNode va ≠ s.nodeId ∨
  ∀ e ∈ s.translations (dieOf s.cur) s.regs.asid va,
    leafV e.leaf = true → leafFar e.leaf = false → isConfig (leafPa e va) = false

/-- The stores of ST, VST, RED, STSLOT and WBAR to global memory: the size of each, its operation, whether ST makes them, and the
addresses with their data, in order (R450, R463, R467, R485, R490). A store of STSLOT's card stands apart. -/
def stores (i : Instr) (r : Regs) : Option (Nat × Option AOp × Bool × List (Word × Word) × Sync) :=
  match i with
  | .st sz .global d a m sy =>
    some (size sz, none, true, [(address1 r a m, BitVec.ofNat 64 ((r.getX d).toNat % 2 ^ (8 * size sz)))], sy)
  | .vst sz .global k d a m sy =>
    some (size sz, none, false,
      (elements r sz k).map fun e => (addressV r sz a m e, BitVec.ofNat 64 (vElem (r.getV d) (8 * size sz) e)), sy)
  | .red sz .global o d a disp sy =>
    some (size sz, some o, false, [(r.getX a + disp, BitVec.ofNat 64 ((r.getX d).toNat % 2 ^ (8 * size sz)))], sy)
  | .wbar a disp sy => some (1, none, false, [(card (r.getX a + disp), 1)], sy)
  | _ => none

/-- The elements that an access touches: its space, the size of each, their addresses. -/
def accesses (i : Instr) (r : Regs) : Option (Space × Nat × List Word × Sync) :=
  match i with
  | .ld sz sp _ a m sy => some (sp, size sz, [address1 r a m], sy)
  | .ldslot _ a disp sy => some (.global, 8, [r.getX a + disp], sy)
  | .st sz sp _ a m sy => some (sp, size sz, [address1 r a m], sy)
  | .stslot _ a disp sy => some (.global, 8, [r.getX a + disp], sy)
  | .vld sz sp k _ a m sy => some (sp, size sz, (elements r sz k).map (addressV r sz a m), sy)
  | .vst sz sp k _ a m sy => some (sp, size sz, (elements r sz k).map (addressV r sz a m), sy)
  | .amo sz sp _ _ a _ disp sy => some (sp, size sz, [r.getX a + disp], sy)
  | .cas sz sp _ a _ disp sy => some (sp, size sz, [r.getX a + disp], sy)
  | .red sz sp _ _ a disp sy => some (sp, size sz, [r.getX a + disp], sy)
  | _ => none

/-- What the access asks of its region: loads read, stores and RED write, atomics both (R134, R135). -/
def asks : Instr → Bool × Bool
  | .ld .. | .vld .. | .ldslot .. => (true, false)
  | .amo .. | .cas .. => (true, true)
  | _ => (false, true)

/-- 64-bit elements need an even sr.vl (R485). -/
def evenLanes (i : Instr) (r : Regs) : Prop :=
  match i with
  | .vld .d .. | .vst .d .. => r.vl.toNat % 2 = 0
  | _ => True

end Sys2Proof.Machine.Expected
end

