-- ==== Sys2Proof/Safety/Counter.lean ====
section
/-! DEFINITION. What the rules say of counters, slots, waits and signals, as statements use it: for counters in cells. -/

namespace Sys2Proof.Machine.Expected

open Sys2Proof

/-- The core and cell that the strand's slot is bound to, when its reference names a cell of this device (R193, R194). -/
def cellOf (s : State) (n : Nat) : Option (Nat × Nat) :=
  let ref := (s.slot s.cur n).ref
  if isLocalRef ref && vaNode ref == s.nodeId then s.localRef ref else none

/-- V of the cell of a slot has reached its MARK (R199). -/
def satisfied (s : State) (n : Nat) : Bool :=
  match cellOf s n with
  | some (core, c) => decide ((s.slot s.cur n).mark.toNat ≤ (s.cell core c).v.toNat)
  | none => false

/-- No context and no packet waits on a counter. -/
def Unwatched (s : State) (c : Ctr) : Prop :=
  (∀ p ∈ s.ctxs, ∀ w, p.2.wait = some w → ∀ y ∈ w.watches, y.ctr ≠ c) ∧
  ∀ p ∈ s.threads, ∀ f w d b, p.2.st = .waits f w d b → w.ctr ≠ c

/-- Nothing waits on a cell. -/
def NoWaiters (s : State) (core c : Nat) : Prop := Unwatched s (.cell core c)

/-- The strand has no store under way, and is in no gang. -/
def Settled (s : State) : Prop := (s.ctx s.cur).lines = [] ∧ (s.ctx s.cur).farw = [] ∧ (s.ctx s.cur).gang = none

/-- The registers with a slot set. -/
def withSlot (r : Regs) (n : Nat) (sl : Slot) : Regs := { r with slots := TMap.put r.slots n sl }

/-- Between two states nothing differs but contexts' slots and progress, cells, the order numbers, what an acquire leaves behind, logical
times, and what a release carries; of the strand's slots, only GEN. -/
def SlotsKept (s t : State) : Prop :=
  (∃ u, Released s u ∧
    t =
      { u with
        ctxs := t.ctxs, cells := t.cells, seq := t.seq, farAcq := t.farAcq, times := t.times, joins := t.joins
        oracle := t.oracle }) ∧
  (∀ a, a ≠ s.cur → t.ctx a = s.ctx a) ∧
  ∀ n, (t.slot s.cur n).ref = (s.slot s.cur n).ref ∧ (t.slot s.cur n).mark = (s.slot s.cur n).mark

/-- The register instructions whose result the rules give whole: the registers after, with the pc (R388 ff.). -/
def exact (i : Instr) (lanes : Nat) (r : Regs) : Option (Regs × Sync) :=
  let after (sy : Sync) : Word := r.pc + 8 * (if sy.ext = .none then 1 else 2)
  match scalarInt i r, scalarFp i r, branch i r, masks i lanes r with
  | some (d, v, sy), _, _, _ => some ({ r.setX d v with pc := after sy }, sy)
  | none, some (d, v, sy), _, _ =>
    some ({ r.setX d (BitVec.ofNat 64 v.1) with flags := r.flags ||| v.2, pc := after sy }, sy)
  | none, none, some (q, sy), _ => some (q, sy)
  | none, none, none, some (q, sy) => some ({ q with pc := after sy }, sy)
  | none, none, none, none => none

/-- The slots that the forms of CWAIT watch, in ascending order, with the destination, the timeout and the kind of the form:
any is true of the one form too (R407). -/
def cwait (i : Instr) (r : Regs) : Option (XReg × List Nat × Bool × Word × Nat × Bool × Sync) :=
  let chosen (n : BitVec 8) (a : XReg) : List Nat :=
    ((List.range 64).filter fun j => (r.getX a).getLsbD j).map fun j => n.toNat + j
  match i with
  | .cwait d n b sy => some (d, [n.toNat], false, r.getX b, n.toNat, false, sy)
  | .cwaitAny d n a b sy => some (d, chosen n a, false, r.getX b, n.toNat, true, sy)
  | .cwaitAll d n a b sy => some (d, chosen n a, true, r.getX b, n.toNat, false, sy)
  | _ => none

end Sys2Proof.Machine.Expected
end

