-- ==== Sys2Proof/Safety/Strand.lean ====
section
/-! DEFINITION. What the rules say of switches, trace sets and records, as statements use it. -/

namespace Sys2Proof.Machine.Expected

open Sys2Proof

/-- Contexts of a core (R40). -/
def contexts (core : Nat) : Nat := if core < 1536 then 16 else 8

/-- A context that a switch may select. -/
def ready (s : State) (a : Nat) : Prop :=
  (s.ctx a).phase = .ready ∧ ∀ p, (s.ctx a).preempt = some p → p.halted = false

/-- The context that runs after context i of a core has switched out as READY: the first READY one in the order i + 1, i + 2,
…, i, modulo the core's contexts (R56). -/
def Selected (s : State) (core i j : Nat) : Prop :=
  ∃ k < contexts core, j = (i + 1 + k) % contexts core ∧ (j = i ∨ ready s (16 * core + j)) ∧
    ∀ m < k, (i + 1 + m) % contexts core ≠ i ∧ ¬ ready s (16 * core + (i + 1 + m) % contexts core)

/-- Context i of a core runs alone, and its core can switch. -/
def RunsAlone (s : State) (core i : Nat) : Prop :=
  i < contexts core ∧ (s.core core).failed = false ∧ (s.core core).trace = .none ∧
  (s.ctx (16 * core + i)).phase = .running ∧ (s.ctx (16 * core + i)).preempt = none ∧
  ∀ j < contexts core, j ≠ i → (s.ctx (16 * core + j)).phase ≠ .running

/-- A switch of context i: the selected context runs, i is READY unless it is that one, and no context's registers change
but those of the executing strand. -/
def Switched (s t : State) (core i : Nat) : Prop :=
  ∃ j, Selected s core i j ∧ (t.ctx (16 * core + j)).phase = .running ∧
    (j ≠ i → (t.ctx (16 * core + i)).phase = .ready) ∧ (t.core core).last = i ∧
    ∀ a, a ≠ 16 * core + i → a ≠ 16 * core + j → t.ctx a = s.ctx a

/-- The status of TRACE for a position (R60). -/
def traceStatus (s : State) (core p : Nat) : Nat :=
  let leader := core / 8 * 8 + p
  let follows (n : Nat) : Prop := (s.core n).trace ≠ .none
  if follows core then 2
  else if 8 ≤ p ∨ leader = core ∨ (s.core leader).failed = true then 1
  else if follows leader then 2
  else if s.followers core ≠ [] then 3
  else if 7 ≤ (s.followers leader).length then 4
  else 0

/-- A core that ICINV covers (R107). -/
def coversIcinv (e : Extent) (issuer core : Nat) : Bool :=
  match e with
  | .core => decide (core = issuer)
  | .cluster => decide (core = issuer ∨ (issuer < 1536 ∧ core < 1536 ∧ core / 8 = issuer / 8))
  | .die => decide (dieOfCore core = dieOfCore issuer)
  | .device => true

/-- Word i of a record of near memory. -/
def recordWord (s : State) (pa i : Nat) : Word := BitVec.ofNat 64 (memValue s (pa + 8 * i) 8)

end Sys2Proof.Machine.Expected
end

