-- ==== Sys2Proof/Safety/Engine.lean ====
section
/-! DEFINITION. What the rules say of the engines' commands and transfers, as statements use it. -/

namespace Sys2Proof.Machine.Expected

open Sys2Proof

/-- The commands that a Fresco engine accepts: the operand registers and the target (R440). MLOADW and MSTAT have no second
operand, and read x0. -/
def engineCommand (i : Instr) : Option (XReg × XReg × Target × Sync) :=
  match i with
  | .mloadw _ a tg sy => some (a, 0, tg, sy)
  | .mmul _ a b _ _ _ _ _ _ _ tg sy => some (a, b, tg, sy)
  | .mgrad _ a b _ _ _ _ _ _ _ tg sy => some (a, b, tg, sy)
  | .mdrain _ a b _ _ _ _ _ _ _ tg sy => some (a, b, tg, sy)
  | .mprog a b _ tg sy => some (a, b, tg, sy)
  | .mstat _ a _ tg sy => some (a, 0, tg, sy)
  | _ => none

/-- The engine and address space of a command that the engine admits: its own cluster's, owned by the strand's ASID, or another
of the device through a capability entry (R255 to R257). -/
def admitted (s : State) (i : Instr) (tg : Target) : Option (Nat × BitVec 16) :=
  match tg with
  | .here =>
    let cl := coreOf s.cur / 8
    if coreOf s.cur < 1536 ∧ (s.fresco cl).owner = s.regs.asid then some (cl, s.regs.asid) else none
  | .remote node clus idx secret =>
    let cl := clus.toNat
    let cap := TMap.get Cap.reset (s.fresco cl).caps idx.toNat
    if node = s.nodeId ∧ cap.valid = true ∧ cap.secret = (s.regs.getX secret).truncate 48 ∧
        cap.rights.getLsbD (Instr.rightBit i) = true ∧
        admits (s.access (cl / 24) 4 (coreOf s.cur)) false true (decide (s.regs.mode = .user ∧ coreOf s.cur < 1568))
          s.regs.asid = true
    then some (cl, cap.asid) else none

/-- The record of who issued an operation that signals nothing, at its scope. -/
def issuerOf (s : State) (sc : Scope) : Issuer where
  agent := s.cur
  life := (s.ctx s.cur).life
  launch := (s.ctx s.cur).owner
  err := ((s.ctx s.cur).owner.bind fun k => TMap.find s.launches k).map fun l => (l.err, l.asid, l.num)
  asid := s.regs.asid
  user := decide (s.regs.mode = .user)
  seq := s.seq
  sig := none
  slot := none
  scope := sc
  index := s.regs.index

/-- A command as its engine accepts it: its row count is given in the instruction's register, bounded by 64 (R241). -/
def accepted (s : State) (i : Instr) (xa xb : Word) (asid : BitVec 16) (sc : Scope) : FCmd where
  seq := s.seq + 1
  instr := i
  xa := xa
  xb := xb
  asid := asid
  by_ := issuerOf s sc
  rows := .ok (if (Instr.rowSource i).isSome then (xb.toNat, 64) else (0, 64))
  rm := s.regs.rm
  started := false
  valids := []

/-- A transfer that copies `n` elements of `k` bytes of the issuing core's local store, in one chunk and in ascending order,
between ranges that do not meet, and that signals nothing (R262 to R268). -/
def LocalCopy (x : Xfer) (n k : Nat) : Prop :=
  let c := x.ctl
  x.st = .running ∧ x.cancel = false ∧ x.cursor = 0 ∧ c.op = 0 ∧ c.srcLocal = true ∧ c.dstLocal = true ∧ c.esize = k ∧
  c.count 0 = n ∧ c.count 1 = 1 ∧ c.count 2 = 1 ∧ c.dcount 0 = n ∧ c.dcount 1 = 1 ∧ c.dcount 2 = 1 ∧ c.chunk = 0 ∧ 0 < n ∧
  c.stride 0 = BitVec.ofNat 64 k ∧ c.dstride 0 = BitVec.ofNat 64 k ∧ c.sigref = 0 ∧ x.by_.sig = none ∧
  x.by_.user = false ∧ x.by_.launch = none ∧
  c.dst.toNat + n * k ≤ lsSize x.core ∧
  (c.src.toNat + n * k ≤ c.dst.toNat ∨ c.dst.toNat + n * k ≤ c.src.toNat)

end Sys2Proof.Machine.Expected
end

