-- ==== Sys2Proof/Safety/Runtime.lean ====
section
/-! DEFINITION. What the rules say of dynamic values, the inline-cache unit, allocation and the descriptors of collectives, as
statements use it. -/

namespace Sys2Proof.Machine.Expected

open Sys2Proof

/-- Shape and Kind of a value; a heap pointer's header, and a tensor's KIND word, are clean near memory (R332). -/
def Sees (s : State) (v : Word) (shape kind : BitVec 32) : Prop :=
  if v ≠ 0 ∧ v.toNat % 8 = 0 then
    v.toNat % 16 = 0 ∧ ∃ pa, Maps s .load v pa ∧ Clean s pa 8 ∧
      let h := memValue s pa 8
      shape = BitVec.ofNat 32 (h / 2 ^ 32) ∧
      (h / 2 ^ 29 % 2 = 0 → kind = shape) ∧
      (h / 2 ^ 29 % 2 = 1 → ∃ pk, Maps s .load (v + 16) pk ∧ Clean s pk 8 ∧
        kind = BitVec.ofNat 32 (2 ^ 31 + memValue s pk 8 % 2 ^ 16))
  else shape = BitVec.ofNat 32 (0xFFFFFFF8 + v.toNat % 8) ∧ kind = shape

/-- The set of a site in a core's unit, when the address space and the site own it (R333). -/
def owned (s : State) (core : Nat) (asid site : BitVec 16) : Option IcSet :=
  match TMap.find (s.core core).ic (site.toNat % 1024) with
  | some x => if x.asid = asid ∧ x.site = site then some x else none
  | none => none

/-- ICPROBE (R334). -/
def probed (s : State) (core : Nat) (asid site : BitVec 16) (shape : BitVec 32) (tag : BitVec 3) : Word :=
  match owned s core asid site with
  | none => 0
  | some x =>
    if x.mega then 1
    else ((x.ways.find? fun w => decide (w.rshape = shape ∧ w.atag = tag)).map (·.data)).getD 0

/-- The set after ICFILL fill (R335). -/
def filled (x : Option IcSet) (asid site : BitVec 16) (e : IcEntry) : IcSet :=
  let same (w : IcEntry) : Bool := decide (w.rshape = e.rshape ∧ w.atag = e.atag)
  match x with
  | none => { site := site, asid := asid, ways := [e], mega := false, cleared := false }
  | some x =>
    if x.mega then x
    else if x.ways.any same then { x with ways := x.ways.map fun w => if same w then e else w }
    else if x.ways.length < 4 then { x with ways := x.ways ++ [e] }
    else { x with ways := [], mega := true, cleared := false }

/-- The site has been cleared on another core since the unit's answer was filled: a probe may give either outcome (R337). -/
def clearedElsewhere (s : State) (core : Nat) (asid site : BitVec 16) : Prop :=
  ∃ y, owned s core asid site = some y ∧ (y.cleared = true ∨ ∃ w ∈ y.ways, w.cleared = true)

/-- A core whose sets that `f` names another core has cleared. -/
def flagged (c : Core) (f : IcSet → Bool) : Core :=
  { c with
    ic := c.ic.map fun p =>
      if f p.2 then (p.1, { p.2 with ways := p.2.ways.map fun w => { w with cleared := true }, cleared := true }) else p }

/-- The stores of ALLOC: the header without bits 31 and 30, AUX, and nil in each slot (R345). -/
def objectStores (top header : Word) : List (Word × Word) :=
  let size := 16 * (header.toNat % 2 ^ 16 + 1)
  (top, header - BitVec.ofNat 64 (header.toNat / 2 ^ 30 % 4 * 2 ^ 30)) :: (top + 8, 0) ::
    (List.range (size / 8 - 2)).map fun i => (top + BitVec.ofNat 64 (16 + 8 * i), 2)

/-! ### Descriptors of collectives -/

/-- The descriptor of a reduction (R283). -/
def ReductionDesc (w : Nat → Word) : Prop :=
  (w 0).toNat % 256 = 0 ∧ (w 0).toNat / 2 ^ 48 % 2 ^ 8 = 0 ∧ (w 1).toNat % 64 = 0 ∧ (w 1).toNat / 2 ^ 48 % 2 ^ 8 = 0 ∧
  1 ≤ (w 6).toNat % 2 ^ 32 ∧ (w 6).toNat % 2 ^ 32 ≤ 2 ^ 24 ∧ (w 6).toNat / 2 ^ 32 = 0 ∧ w 7 = 0

/-- The descriptor of NSEND (R290, R291). -/
def SendDesc (route : Bool) (w : Nat → Word) : Prop :=
  (w 0).toNat % 64 = 0 ∧ (w 0).toNat / 2 ^ 48 % 2 ^ 8 = 0 ∧
  (route = true → w 2 = 0 ∧ w 3 = 0) ∧
  (route = false →
    (w 3).toNat % 16 ≤ 8 ∧ (w 3).toNat / 2 ^ 4 % 16 = 0 ∧ 8 ≤ (w 3).toNat / 2 ^ 8 % 32 ∧ (w 3).toNat / 2 ^ 8 % 32 ≤ 24 ∧
    (w 3).toNat / 2 ^ 13 % 2 ^ 27 = 0 ∧ (w 2 = 0 ∨ (w 3).toNat / 2 ^ 40 % 2 ^ 8 ≠ 0))

/-- The ring descriptor of an append of a number of bytes (R443). -/
def RingDesc (w : Nat → Word) (bytes : Nat) : Prop :=
  let r := (w 4).toNat / 2 ^ 8 % 16
  1 ≤ (w 4).toNat % 16 ∧ (w 4).toNat / 2 ^ 4 % 16 = 0 ∧ 6 ≤ r ∧ r ≤ 12 ∧ (w 4).toNat / 2 ^ 12 % 2 ^ 36 = 0 ∧
  (w 0).toNat % 2 ^ r = 0 ∧ bytes + 16 ≤ 2 ^ r ∧ isLocalRef (w 1) = false ∧ w 5 = 0 ∧ w 6 = 0 ∧ w 7 = 0

/-- A strand whose stores are all checked, and that has just come to its instruction. -/
def Idle (s : State) : Prop :=
  (s.ctx s.cur).lines = [] ∧ (s.ctx s.cur).farw = [] ∧ (s.ctx s.cur).prog = Progress.none

/-- A clean record of n bytes of near memory that a strand reads, within one line. -/
def Record (s : State) (va : Word) (n pa : Nat) : Prop :=
  va.toNat % n = 0 ∧ Maps s .load va pa ∧ Clean s pa n

/-- The first n words of a record. -/
def recordWords (s : State) (pa n : Nat) : List Word := (List.range n).map (recordWord s pa)

end Sys2Proof.Machine.Expected
end

