-- ==== Sys2Proof/Safety/Device.lean ====
section
/-! DEFINITION. What the rules say of the accesses and adds of parties that are no strand, and of a packet's retirement, as
statements use it. -/

namespace Sys2Proof.Machine.Expected

open Sys2Proof

/-- No lease lives and nothing waits behind one: no access of another party is held back. -/
def Unleased (s : State) : Prop :=
  ∀ p ∈ s.ctxs, (∀ l ∈ p.2.leases, l.live = false) ∧ p.2.prog.lease = none ∧ ∀ l ∈ p.2.lines, l.queued = none

/-- A party reads words of near memory that lie in one line. -/
def Reads (s : State) (q : Req) (agent : Nat) (va : Word) (ws : List Word) : Prop :=
  ∃ pa, va.toNat % 8 = 0 ∧ va.toNat % 256 + 8 * ws.length ≤ 256 ∧ Translates s q .load va pa ∧
    s.leasedByOther agent pa = false ∧ Readable s q va pa ∧ Clean s pa (8 * ws.length) ∧ ws = recordWords s pa ws.length

/-- A party reads n clean bytes of near memory that lie in one page. -/
def ReadsBytes (s : State) (q : Req) (agent : Nat) (va : Word) (n pa : Nat) : Prop :=
  va.toNat % 2 ^ 16 + n ≤ 2 ^ 16 ∧ Translates s q .load va pa ∧ Clean s pa n ∧
  ∀ i < n, s.leasedByOther agent (pa + i) = false ∧ Readable s q va (pa + i)

/-- A party's write of n bytes that lie in one page reaches near memory, under one key, whatever those bytes hold; no atomic sums
are open on their lines. -/
def Writes (s : State) (q : Req) (agent : Nat) (va : Word) (n pa : Nat) : Prop :=
  va.toNat % 2 ^ 16 + n ≤ 2 ^ 16 ∧ s.linkUp pa = true ∧
  (∀ i < n, s.leasedByOther agent (pa + i) = false ∧ NoPartials s (pa + i) ∧ Readable s q va (pa + i)) ∧
  ∀ (m : Memory) (b : NatSet),
    (∀ x, ¬ (pa ≤ x ∧ x < pa + n) → Memory.read m x = Memory.read s.mem x ∧ NatSet.has b x = NatSet.has s.bad x) →
    let u := { s with mem := m, bad := b }
    Translates u q .store va pa ∧ leafKey (u.walk q.die q.asid va).leaf = leafKey (s.walk q.die q.asid va).leaf

/-- Between two memories only the n bytes from an address on differ, which hold these. -/
def Wrote (s t : State) (pa : Nat) (bs : List Byte) : Prop :=
  ∀ x, Memory.read t.mem x = if pa ≤ x then ((bs[x - pa]?).getD (Memory.read s.mem x)) else Memory.read s.mem x

/-- A reference names a cell of this device on which nothing waits (R193). -/
def CellRef (s : State) (ref : Word) (k x : Nat) : Prop :=
  isLocalRef ref = true ∧ s.localRef ref = some (k, x) ∧ NoWaiters s k x

/-- A cell has grown by an amount, and no other cell has changed. -/
def Grown (s t : State) (k x n : Nat) : Prop :=
  ∀ c i, t.cell c i =
    if 256 * c + i = 256 * k + x then { s.cell k x with v := (s.cell k x).v + BitVec.ofNat 64 n } else s.cell c i

/-- An add of n, which carries a generation, fits a cell. -/
def Fits (s : State) (k x n : Nat) (gen : Option (BitVec 16)) : Prop :=
  (s.cell k x).v.toNat + n < 2 ^ 64 ∧ ∀ g, gen = some g → g = (s.cell k x).g

/-- An operation that a strand issued and that has no signal to deliver. -/
def Silent (b : Issuer) : Prop := b.sig = none

/-! ### Packets (R212 to R216) -/

/-- The thread has come to a packet, and these are its words. -/
def Packet (s : State) (die slot : Nat) (ws : List Word) : Prop :=
  let t := s.thread die slot
  let q := s.queueOf die slot
  die < 8 ∧ slot < 32 ∧ t.mapped = true ∧ t.st = .idle ∧ t.next.toNat < t.limit.toNat ∧ ws.length = 8 ∧
  Reads s (seqReq die q.asid) (2 ^ 32 + die) (q.base + BitVec.ofNat 64 (64 * (t.next.toNat % 2 ^ q.log2n))) ws

/-- The line of a home counter was last written under a key that has not been renewed since, or under none (R377). -/
def KeyStands (s : State) (pa : Nat) : Prop := ∀ w, TMap.find s.lineKey (pa / 256) = some w → w = s.keyTag (w % 128)

/-- A reference names a home counter of near memory on which nothing waits, whatever the eight bytes from another address on
hold. -/
def HomeRef (s : State) (q : Req) (ref : Word) (pa other : Nat) : Prop :=
  isLocalRef ref = false ∧ ref.toNat % 8 = 0 ∧
  admits (s.access (paDie pa) 1 q.master) false true q.byUser q.asid = true ∧ Clean s pa 8 ∧
  memValue s pa 8 + 1 < 2 ^ 64 ∧ Unwatched s (.home pa) ∧ KeyStands s pa ∧
  ∀ m : Memory, (∀ x, ¬ (other ≤ x ∧ x < other + 8) → Memory.read m x = Memory.read s.mem x) →
    Translates { s with mem := m } q (.counter false true) ref pa

/-- A reference names a home counter of near memory that a thread's wait reads (R226, R228), and this is its value. -/
def WaitRef (s : State) (q : Req) (ref : Word) (pa v : Nat) : Prop :=
  isLocalRef ref = false ∧ ref.toNat % 8 = 0 ∧ Translates s q (.counter true false) ref pa ∧ KeyStands s pa ∧
  admits (s.access (paDie pa) 1 q.master) true false q.byUser q.asid = true ∧ Clean s pa 8 ∧ memValue s pa 8 = v

/-- The counters of a packet's retirement: RETIRE's word and CONSUMED are different home counters apart from the
descriptor. -/
def Retires (s : State) (die slot pr pc : Nat) : Prop :=
  let t := s.thread die slot
  let q := s.queueOf die slot
  let r := seqReq die q.asid
  HomeRef s r (q.retire + BitVec.ofNat 64 (8 * (t.next.toNat % 2 ^ q.log2n))) pr pc ∧ HomeRef s r q.consumed pc pr ∧
  pr ≠ pc ∧ t.unmap = false ∧
  ∀ d, t.desc = some d → ∀ p, p = pr ∨ p = pc → p + 8 ≤ d ∨ d + 128 ≤ p

/-- The packet has retired: both counters have grown by 1, and the thread stands before the next packet (R216). -/
def Retired (s t : State) (die slot pr pc : Nat) : Prop :=
  (∀ x, Memory.read t.mem x =
    if pr ≤ x ∧ x < pr + 8 then byteOf (memValue s pr 8 + 1) (x - pr)
    else if pc ≤ x ∧ x < pc + 8 then byteOf (memValue s pc 8 + 1) (x - pc)
    else Memory.read s.mem x) ∧
  t.thread die slot =
    { s.thread die slot with
      next := (s.thread die slot).next + 1, st := .idle, notified := false, limit := (s.queueOf die slot).wridx }

/-! ### Loading an image (R322) -/

/-- What an image of kernels puts at which addresses of its address space: the sections that strands reach, zeros where they have
no bytes, and the kernels' translated code. -/
def imageRanges (img : List Byte) (base : Word) (ks : List Loaded) : List (Word × List Byte) :=
  ((imgSects img).filter fun x => decide (x.kind ≤ 5)).map (fun x =>
    (base + x.place img,
      if x.filled then (img.drop x.off).take x.size else List.replicate x.size 0)) ++
  ks.map fun k => (base + k.1.entry, wordsBytes k.2)

/-- The pieces of ranges that lie in one page each, at physical addresses. -/
def imagePieces (rs : List (Word × List Byte)) (place : Word → Nat) : List (Nat × List Byte) :=
  rs.flatMap fun r => (parts r.1 r.2.length).map fun p => (place p.1, (r.2.drop (p.1 - r.1).toNat).take p.2)

/-- An address of an address space is mapped to a module that answers. -/
def Mapped (s : State) (asid : BitVec 16) (va : Word) (pa : Nat) : Prop :=
  let e := s.walk 0 asid va
  va.toNat / 2 ^ 48 % 2 ^ 8 = 0 ∧ vaNode va = s.nodeId ∧ s.contOthers 0 asid va e = [] ∧
  (∀ x ∈ s.cached 0 asid va, x = e) ∧ leafV e.leaf = true ∧ leafFar e.leaf = false ∧ leafPa e va = pa ∧
  s.inModule pa = true ∧ s.linkUp pa = true

/-- The pages of ranges are mapped, each line under one key, whatever the bytes that go there; no atomic sums are open on their
lines. -/
def Loadable (s : State) (asid : BitVec 16) (rs : List (Word × List Byte)) (place : Word → Nat) : Prop :=
  (∀ p ∈ imagePieces rs place, ∀ i < p.2.length, NoPartials s (p.1 + i)) ∧
  ∃ key : Nat → Nat, ∀ (m : Memory) (b : NatSet),
    (∀ x, (∀ p ∈ imagePieces rs place, ¬ (p.1 ≤ x ∧ x < p.1 + p.2.length)) →
      Memory.read m x = Memory.read s.mem x ∧ NatSet.has b x = NatSet.has s.bad x) →
    ∀ r ∈ rs, ∀ p ∈ parts r.1 r.2.length,
      let u := { s with mem := m, bad := b }
      Mapped u asid p.1 (place p.1) ∧
      ∀ i < p.2,
        let line := (place p.1 + i) / 256
        leafKey (u.walk 0 asid p.1).leaf = key line ∧
        (TMap.find s.lineKey line = none ∨ TMap.find s.lineKey line = some (s.keyTag (key line)))

/-- The byte that pieces, in order, leave at an address; none where no piece covers it. -/
def pieceByte (ps : List (Nat × List Byte)) (x : Nat) : Option Byte :=
  ps.foldl (fun b p => if p.1 ≤ x ∧ x < p.1 + p.2.length then some (p.2.getD (x - p.1) 0) else b) none

/-! ### Crack mode (R326, R340) -/

/-- The bytes at the strand's crack address, in one line of clean near memory that no fetch may find another version of. -/
def CrackAt (s : State) (bs : List Byte) : Prop :=
  let pc := s.regs.pc
  let va := BitVec.ofNat 64 (pc.toNat / 2 ^ 56 * 2 ^ 56 + pc.toNat % 2 ^ 48)
  let q := s.reqOf s.cur
  pc.toNat / 2 ^ 48 % 2 ^ 8 = 0xCB ∧ (s.regs.mode ≠ .monitor ∨ s.primer.region = []) ∧
  ∃ pa, Translates s q .fetch va pa ∧ Readable s q va pa ∧ va.toNat % 256 + bs.length ≤ 256 ∧
    (∀ x, Caches s (coreOf s.cur) s.regs.asid va x →
      x.fetchPlace q va = .ok (.phys pa) ∧ s.cached (dieOf s.cur) s.regs.asid va ≠ []) ∧
    Clean s (pa / 256 * 256) 256 ∧ (∀ i < bs.length, Memory.read s.mem (pa + i) = bs.getD i 0) ∧
    ∀ i < 32,
      TMap.find s.codeOld (pa / 256 * 32 + i) = none ∧
      ∀ w ∈ TMap.find (s.core (coreOf s.cur)).icache (s.regs.asid.toNat * 2 ^ 64 + va.toNat / 256 * 256 + 8 * i),
        w.word = BitVec.ofNat 64 (memValue s (pa / 256 * 256 + 8 * i) 8)

/-- addd, subd, muld, ltd, led and eqd of two small integers; none: the result does not fit, or the operation is divd. -/
def smallResult (op : Nat) (a b : Word) : Option Word :=
  let x := (a.sshiftRight 3).toInt
  let y := (b.sshiftRight 3).toInt
  let num (z : Int) : Option Word := if -(2 ^ 60) ≤ z ∧ z < 2 ^ 60 then some (BitVec.ofInt 64 (8 * z + 1)) else none
  let truth (p : Bool) : Option Word := some (if p then 0x12 else 0xA)
  if op = 0x87 then num (x + y)
  else if op = 0x88 then num (x - y)
  else if op = 0x89 then num (x * y)
  else if op = 0x8B then truth (decide (x < y))
  else if op = 0x8C then truth (decide (x ≤ y))
  else if op = 0x8D then truth (decide (x = y))
  else none

end Sys2Proof.Machine.Expected
end

