-- ==== Sys2Proof/Certificates/Slice0/Obligations.lean ====
section
/-! DEFINITION. The statements for the provers. -/

open Sys2Proof Sys2Proof.Machine

/-- A scalar integer instruction writes its result to its register and goes on; nothing else of the device changes. x0
discards the result. -/
def Obligations.ScalarIntegerResult : Prop :=
  ∀ (i : Instr) (s : State) (d : XReg) (v : Word) (sy : Sync),
    Expected.scalarInt i s.regs = some (d, v, sy) → s.Quiet sy → exec i s = .next (s.goOn sy (s.regs.setX d v))

/-- A scalar floating-point instruction writes its rounded result, ORs its flags into sr.fcsr and goes on; nothing else
changes.
FCVT writes the converted value, extended to the register, ORs the flags, and with rsr takes one draw from sr.seed. -/
def Obligations.ScalarFloatResult : Prop :=
  (∀ (i : Instr) (s : State) (d : XReg) (v : Nat × Flags) (sy : Sync),
    Expected.scalarFp i s.regs = some (d, v, sy) → s.Quiet sy →
    exec i s = .next (s.goOn sy { s.regs.setX d (BitVec.ofNat 64 v.1) with flags := s.regs.flags ||| v.2 })) ∧
  (∀ (t f : Ty) (m : Rnd) (d a : XReg) (sy : Sync) (s : State), s.Quiet sy →
    exec (.fcvt t f m d a sy) s =
      .next (s.goOn sy
        { s.regs.setX d (Expected.extended t (Expected.fcvt t f m a s.regs).1) with
          flags := s.regs.flags ||| (Expected.fcvt t f m a s.regs).2
          seed := if m = .rsr then (seedDraw s.regs.seed).1 else s.regs.seed }))

/-- Branches and jumps: the link or the count is written, and the strand goes on at the target or at the next
instruction; nothing else changes. A crack address as a target enters crack mode of JR and JLR alone: every other jump there is
marked as one that goes straight on. -/
def Obligations.BranchResult : Prop :=
  ∀ (i : Instr) (s : State) (r : Regs) (sy : Sync),
    Expected.branch i s.regs = some (r, sy) → s.Quiet sy →
    ∃ straight : Bool, exec i s = .next (s.retireAs r straight) ∧
      (straight = true → Expected.enters i = false ∧ r.pc.toNat / 2 ^ 48 % 2 ^ 8 = 0xCB) ∧
      (Expected.enters i = false → r.pc ≠ nextPc s.regs.pc sy → r.pc.toNat / 2 ^ 48 % 2 ^ 8 = 0xCB → straight = true)

/-- An element-wise vector instruction writes every active element of its destination and keeps every other element, ORs the
flags of the active elements into sr.fcsr, and goes on; nothing else changes.
64-bit elements with an odd sr.vl raise ILLEGAL, with the instruction's base word in sr.tval; nothing is written. -/
def Obligations.ElementwiseResult : Prop :=
  (∀ (i : Instr) (s : State) (w : Nat) (k : KReg) (d : VReg) (f : Nat → Nat × Flags) (sy : Sync),
    Expected.elementwise i (vlMax (coreOf s.cur)) s.regs = some (w, k, d, f, sy) → s.Quiet sy →
    (w < 64 ∨ s.regs.vl.toNat % 2 = 0) →
    ∃ (v : VWord) (fl : Flags),
      exec i s = .next (s.goOn sy { s.regs.setV d v with flags := fl }) ∧
      (∀ e, e * w + w ≤ 2048 →
        (Expected.active s.regs k w e → vElem v w e = (f e).1 % 2 ^ w) ∧
        (¬ Expected.active s.regs k w e → vElem v w e = vElem (s.regs.getV d) w e)) ∧
      (∀ b, fl.getLsbD b = true ↔
        (s.regs.flags.getLsbD b = true ∨ ∃ e, Expected.active s.regs k w e ∧ (f e).2.getLsbD b = true))) ∧
  (∀ (i : Instr) (s : State) (w : Nat) (k : KReg) (d : VReg) (f : Nat → Nat × Flags) (sy : Sync),
    Expected.elementwise i (vlMax (coreOf s.cur)) s.regs = some (w, k, d, f, sy) → s.Quiet sy →
    w = 64 → s.regs.vl.toNat % 2 = 1 → s.doubleTrap = false →
    exec i s = .next (s.trapped .illegal false s.regs.pc (s.ctx s.cur).ir))

/-- The mask instructions, SETVL, VEXT and VRED write their register and go on; nothing else changes. k0 discards a write.
VSEL, VCOMP, VINS, VSCAN and VTOPK write the lanes that their rules name, keep the others, OR their flags into sr.fcsr and
go on; nothing else changes. -/
def Obligations.MaskResult : Prop :=
  (∀ (i : Instr) (s : State) (r : Regs) (sy : Sync),
    Expected.masks i (vlMax (coreOf s.cur)) s.regs = some (r, sy) → s.Quiet sy → exec i s = .next (s.goOn sy r)) ∧
  (∀ (i : Instr) (s : State) (d : VReg) (f : Nat → Option Nat) (fl : Flags) (sy : Sync),
    Expected.lanewise i (vlMax (coreOf s.cur)) s.regs = some (d, f, fl, sy) → s.Quiet sy →
    s.regs.vl.toNat ≤ 64 →
    ∃ v : VWord,
      exec i s = .next (s.goOn sy { s.regs.setV d v with flags := s.regs.flags ||| fl }) ∧
      ∀ e < 64, vLane v e = ((f e).map (· % 2 ^ 32)).getD (vLane (s.regs.getV d) e))

/-- VCMP sets the mask bit of every active lane to its predicate, keeps every other bit, ORs its flags into sr.fcsr and goes
on; k0 discards the bits, not the flags. Nothing else changes. -/
def Obligations.VectorCompareResult : Prop :=
  ∀ (t : Ty) (p : Pred) (k d : KReg) (a b : VReg) (sy : Sync) (s : State), s.Quiet sy → s.regs.vl.toNat ≤ 64 →
    let c (i : Nat) : Bool × Flags := Expected.compare t p (Expected.el s.regs a t i) (Expected.el s.regs b t i)
    ∃ (w : Word) (fl : Flags),
      exec (.vcmp t p k d a b sy) s = .next (s.goOn sy { s.regs.setK d w with flags := fl }) ∧
      (∀ i < 64, w.getLsbD i = if i ∈ Expected.live s.regs k then (c i).1 else (s.regs.getK d).getLsbD i) ∧
      (∀ b, fl.getLsbD b = true ↔
        (s.regs.flags.getLsbD b = true ∨ ∃ i ∈ Expected.live s.regs k, (c i).2.getLsbD b = true))

/-- VCVT converts its elements in ascending order, with rsr one draw each; with different widths the rest of the lanes below
sr.vl is zero; every other element is kept. -/
def Obligations.VectorConvertResult : Prop :=
  ∀ (t f : Ty) (m : Rnd) (k : KReg) (d a : VReg) (sy : Sync) (s : State), s.Quiet sy →
    (max t.bits f.bits < 64 ∨ s.regs.vl.toNat % 2 = 0) → s.regs.vl.toNat ≤ 64 →
    let es := Expected.converted t f k s.regs
    ∃ (v : VWord) (fl : Flags),
      exec (.vcvt t f m k d a sy) s =
        .next (s.goOn sy
          { s.regs.setV d v with
            flags := fl
            seed := if m = .rsr then Expected.seedAfter es.length s.regs.seed else s.regs.seed }) ∧
      (∀ e place, es[place]? = some e →
        vElem v t.bits e = (Expected.conversion t f m a s.regs e place).1 % 2 ^ t.bits) ∧
      (∀ e, e * t.bits + t.bits ≤ 2048 → e ∉ es →
        vElem v t.bits e =
          if t.bits ≠ f.bits ∧ e * t.bits < s.regs.vl.toNat * 32 then 0 else vElem (s.regs.getV d) t.bits e) ∧
      (∀ b, fl.getLsbD b = true ↔
        (s.regs.flags.getLsbD b = true ∨
          ∃ e place, es[place]? = some e ∧ (Expected.conversion t f m a s.regs e place).2.getLsbD b = true))

/-- VTAG writes the 64 bytes of the tag plane at its offset, a valid byte with the row's tag for an active lane and zero for every
other, and goes on; nothing else changes. A misaligned offset is ALIGN, one past the store LSPROT, and an Easel core's ILLEGAL; then
nothing is written. -/
def Obligations.TagPlaneResult : Prop :=
  ∀ (m : KReg) (a : VReg) (b : XReg) (sy : Sync) (s : State), s.Quiet sy →
    let off := s.regs.getX b
    let o := off.toNat
    let first := coreOf s.cur / 8 * 2 ^ 22 + o
    let inside (x : Nat) : Prop := first ≤ x ∧ x < first + 64
    (coreOf s.cur < 1536 → o % 64 = 0 → o ≤ 0x3FFFC0 →
      ∃ t : State, exec (.vtag m a b sy) s = .next (t.goOn sy s.regs) ∧
        t = { s with plane := t.plane, planeBad := t.planeBad } ∧
        (∀ i < 64, Memory.read t.plane (first + i) =
          if i ∈ Expected.live s.regs m then BitVec.ofNat 8 (0x80 + Expected.el s.regs a .u32 i % 4) else 0) ∧
        (∀ x, ¬ inside x → Memory.read t.plane x = Memory.read s.plane x) ∧
        ∀ x, NatSet.has t.planeBad x = true ↔ NatSet.has s.planeBad x = true ∧ ¬ inside x) ∧
    (s.doubleTrap = false →
      (coreOf s.cur < 1536 → o % 64 ≠ 0 → exec (.vtag m a b sy) s = .next (s.trapped .align false s.regs.pc off)) ∧
      (coreOf s.cur < 1536 → o % 64 = 0 → 0x3FFFC0 < o →
        exec (.vtag m a b sy) s = .next (s.trapped .lsprot false s.regs.pc off)) ∧
      (1536 ≤ coreOf s.cur → exec (.vtag m a b sy) s = .next (s.trapped .illegal false s.regs.pc (s.ctx s.cur).ir)))

/-! ### Special registers and traps -/

/-- SRD of a register that the mode may read writes its value to X(D) and goes on; nothing else changes.
SWR of a register that the mode may write leaves what the register's rule says and goes on; nothing else changes.
SRD and SWR of a number that the table does not hold take ILLEGAL; of a register that the mode may not read, or write,
or of PMODE 0b10 by the kernel, PRIV. The base word goes to sr.tval, and nothing is written. -/
def Obligations.SpecialRegisterAccess : Prop :=
  (∀ (d : XReg) (n : BitVec 12) (sy : Sync) (s : State) (rd : Nat) (wr : Option Nat) (v : Word),
    Expected.special s n.toNat = some (rd, wr, v) → rd ≤ Expected.level s.regs.mode → s.Quiet sy →
    exec (.srd d n sy) s = .next (s.goOn sy (s.regs.setX d v))) ∧
  (∀ (n : BitVec 12) (a : XReg) (sy : Sync) (s : State) (rd wr : Nat) (v : Word),
    Expected.special s n.toNat = some (rd, some wr, v) → wr ≤ Expected.level s.regs.mode → s.Quiet sy →
    ¬ (n = 0x023 ∧ s.regs.mode = .kernel ∧ (s.regs.getX a).toNat / 4 % 4 = 2) →
    let t := Expected.written s n.toNat (s.regs.getX a)
    exec (.swr n a sy) s = .next (t.goOn sy t.regs)) ∧
  (∀ (n : BitVec 12) (x : XReg) (sy : Sync) (s : State), s.Quiet sy → s.doubleTrap = false →
    let ill : Host.Outcome State Fault Refusal := .next (s.trapped .illegal false s.regs.pc (s.ctx s.cur).ir)
    let priv : Host.Outcome State Fault Refusal := .next (s.trapped .priv false s.regs.pc (s.ctx s.cur).ir)
    match Expected.special s n.toNat with
    | none => exec (.srd x n sy) s = ill ∧ exec (.swr n x sy) s = ill
    | some (rd, wr, _) =>
      (Expected.level s.regs.mode < rd → exec (.srd x n sy) s = priv) ∧
      ((∀ m, wr = some m → Expected.level s.regs.mode < m) → exec (.swr n x sy) s = priv) ∧
      (n = 0x023 → s.regs.mode = .kernel → (s.regs.getX x).toNat / 4 % 4 = 2 → exec (.swr n x sy) s = priv))

/-- Trap entry: a trap enters monitor mode from monitor mode, and from kernel mode with INTRAP = 1 or for SYSCALL and BRK;
it saves cause, pc, value and mode in that mode's registers, sets its in-trap bit and goes to its vector. In monitor mode with
MINTRAP = 1 it writes no register and marks the core failed. Nothing else of the device changes, but for the progress of
the trapped instruction, the count of the context's handlers, and what is to happen next. -/
def Obligations.TrapEntry : Prop :=
  ∀ (s : State) (a : Nat) (c : Cause) (deferred : Bool) (epc tval : Word),
    let x := s.ctx a
    let d := s.die (dieOf a)
    let saved : TrapRegs := { code := c.code, deferred := deferred, epc := epc, tval := tval }
    let monitor := x.r.mode = .monitor ∨ (x.r.mode = .kernel ∧ (x.r.intrap = true ∨ c = .syscall ∨ c = .brk))
    ∃ τ : At s, takeTrap a c deferred epc tval ⟨s, .refl⟩ = .ok () τ ∧
      ((x.r.mode = .monitor ∧ x.r.mintrap = true) →
        τ.val.ctxs = s.ctxs ∧ (τ.val.core (coreOf a)).failed = true) ∧
      (¬ (x.r.mode = .monitor ∧ x.r.mintrap = true) → monitor →
        τ.val = (Upd.ctx a
          { x with
            r := { x.r with mtrap := saved, mpmode := x.r.mode, mintrap := true, pc := d.mvec, mode := .monitor }
            prog := Progress.none, handler := x.handler + 1, replayNow := false, straight := false }).apply s) ∧
      (¬ (x.r.mode = .monitor ∧ x.r.mintrap = true) → ¬ monitor →
        τ.val = (Upd.ctx a
          { x with
            r := { x.r with ktrap := saved, pmode := x.r.mode, intrap := true, pc := d.kvec, mode := .kernel }
            prog := Progress.none, handler := x.handler + 1, replayNow := false, straight := false }).apply s)

/-- TRAP .brk, and TRAP .sys where the die's ring takes no call of the strand, trap after the instruction: sr.epc holds the
address of the next one, sr.tval CODE16.
ERET takes PRIV in user mode. In kernel and in monitor mode the saved pc and mode of that mode come back, and its in-trap
bit is cleared; at an instruction that took a deferred trap the FAULTED lines are to be replayed. Nothing else changes.
An undecodable opcode is ILLEGAL with the base word in sr.tval, the base word being the instruction that the context then
holds. -/
def Obligations.TrapInstructionResult : Prop :=
  (∀ (code : BitVec 16) (sy : Sync) (s : State), s.Quiet sy → s.doubleTrap = false →
    exec (.trapBrk code sy) s = .next (s.trapped .brk false (nextPc s.regs.pc sy) (code.zeroExtend 64)) ∧
    ((s.regs.mode ≠ .user ∨ 1536 ≤ coreOf s.cur ∨ (s.die (dieOf s.cur)).sysring.getLsbD 4 = false) →
      exec (.trapSys code sy) s = .next (s.trapped .syscall false (nextPc s.regs.pc sy) (code.zeroExtend 64)))) ∧
  (∀ (sy : Sync) (s : State), s.Quiet sy →
    (s.regs.mode = .user → exec (.eret sy) s = .next (s.trapped .priv false s.regs.pc (s.ctx s.cur).ir)) ∧
    (s.regs.mode = .kernel →
      exec (.eret sy) s =
        .next (s.returned { s.regs with pc := s.regs.ktrap.epc, mode := s.regs.pmode, intrap := false })) ∧
    (s.regs.mode = .monitor →
      exec (.eret sy) s =
        .next (s.returned { s.regs with pc := s.regs.mtrap.epc, mode := s.regs.mpmode, mintrap := false }))) ∧
  (∀ (base : Word) (s : State), (s.core (coreOf s.cur)).trace = .none → s.doubleTrap = false →
    (s.ctx s.cur).prog.lease = none →
    exec (.illegalOpcode base) s =
      .next (((Upd.ctx s.cur { s.ctx s.cur with ir := base, irExt := none }).apply s).trapped .illegal false s.regs.pc base))

/-! ### Memory -/

/-- A local LD gives the bytes zero-extended; a local VLD writes every active element and keeps the others, while no engine's
access can fall between its elements. Nothing else changes. -/
def Obligations.LocalLoadResult : Prop :=
  (∀ (sz : Size) (d a : XReg) (m : Addr1) (sy : Sync) (s : State), s.Quiet sy →
    let va := Expected.address1 s.regs a m
    Expected.LocalAccess s true false va (Expected.size sz) → Expected.LocalClean s va (Expected.size sz) →
    exec (.ld sz .loc d a m sy) s =
      .next (s.goOn sy (s.regs.setX d (BitVec.ofNat 64 (Expected.localValue s va (Expected.size sz)))))) ∧
  (∀ (sz : Size) (k : KReg) (d : VReg) (a : XReg) (m : AddrV) (sy : Sync) (s : State), s.Quiet sy →
    let va := Expected.addressV s.regs sz a m
    let es := Expected.elements s.regs sz k
    let w := 8 * Expected.size sz
    (sz = .d → s.regs.vl.toNat % 2 = 0) →
    (∀ e ∈ es, Expected.LocalAccess s true false (va e) (Expected.size sz) ∧
      Expected.LocalClean s (va e) (Expected.size sz)) →
    (Expected.EnginesIdle s ∨ es.length ≤ 1) →
    ∃ v : VWord, exec (.vld sz .loc k d a m sy) s = .next (s.goOn sy (s.regs.setV d v)) ∧
      ∀ e, e * w + w ≤ 2048 →
        vElem v w e =
          if e ∈ es then Expected.localValue s (va e) (Expected.size sz) else vElem (s.regs.getV d) w e)

/-- A local ST writes its bytes, and a local VST those of every active element, the highest element last, while no engine's
access can fall between them; nothing else changes but the journal of a gang. -/
def Obligations.LocalStoreResult : Prop :=
  (∀ (sz : Size) (d a : XReg) (m : Addr1) (sy : Sync) (s : State), s.Quiet sy →
    let va := Expected.address1 s.regs a m
    Expected.LocalAccess s false true va (Expected.size sz) →
    ∃ t : State, exec (.st sz .loc d a m sy) s = .next (t.goOn sy s.regs) ∧
      Expected.LocalWritten s t [(va.toNat, (s.regs.getX d).toNat)] (Expected.size sz)) ∧
  (∀ (sz : Size) (k : KReg) (d : VReg) (a : XReg) (m : AddrV) (sy : Sync) (s : State), s.Quiet sy →
    let va := Expected.addressV s.regs sz a m
    let es := Expected.elements s.regs sz k
    (sz = .d → s.regs.vl.toNat % 2 = 0) → (∀ e ∈ es, Expected.LocalAccess s false true (va e) (Expected.size sz)) →
    (Expected.EnginesIdle s ∨ es.length ≤ 1) →
    ∃ t : State, exec (.vst sz .loc k d a m sy) s = .next (t.goOn sy s.regs) ∧
      Expected.LocalWritten s t (es.map fun e => ((va e).toNat, vElem (s.regs.getV d) (8 * Expected.size sz) e))
        (Expected.size sz))

/-- Local AMO, CAS and RED: the old value goes to X(D) (not RED's), the bytes take the new one, and fadd's flags go to sr.fcsr,
of RED to the atomic flag register of the ASID at the strand's die. Nothing else changes but the journal of a gang. -/
def Obligations.LocalAtomicResult : Prop :=
  ∀ (sz : Size) (o : AOp) (d a b : XReg) (disp : Word) (sy : Sync) (s : State), s.Quiet sy →
    let va := s.regs.getX a + disp
    let n := Expected.size sz
    let low (x : XReg) : Nat := (s.regs.getX x).toNat % 2 ^ (8 * n)
    let old := Expected.localValue s va n
    Expected.LocalClean s va n →
    (Expected.LocalAccess s true true va n →
      (∃ t : State,
        exec (.amo sz .loc o d a b disp sy) s =
          .next (t.goOn sy
            { s.regs.setX d (BitVec.ofNat 64 old) with
              flags := s.regs.flags ||| Expected.atomicFlags o old (low b) }) ∧
        Expected.LocalWritten s t [(va.toNat, Expected.atomic o (8 * n) old (low b))] n) ∧
      (∃ t : State,
        exec (.cas sz .loc d a b disp sy) s = .next (t.goOn sy (s.regs.setX d (BitVec.ofNat 64 old))) ∧
        Expected.LocalWritten s t [(va.toNat, if old = low d then low b else old)] n)) ∧
    (Expected.LocalAccess s false true va n →
      let die := s.die (dieOf s.cur)
      let fl := Expected.atomicFlags o old (low d)
      let u : State :=
        if fl = 0 then s
        else
          (Upd.die (dieOf s.cur)
            { die with
              aflags := TMap.put die.aflags s.regs.asid.toNat
                (TMap.get 0 die.aflags s.regs.asid.toNat ||| (fl.truncate 5 &&& 0x17)) }).apply s
      ∃ t : State,
        exec (.red sz .loc o d a disp sy) s = .next (t.goOn sy s.regs) ∧
        Expected.LocalWritten u t [(va.toNat, Expected.atomic o (8 * n) old (low d))] n)

/-- A local LD that meets poison completes: poisoned bytes read as zero, and POISON becomes pending with the address of the read,
unless eight errors are held.
A local element that R133 or R135 does not permit traps as LSPROT when every element is aligned; the access has no
effect. -/
def Obligations.LocalAccessErrors : Prop :=
  (∀ (sz : Size) (d a : XReg) (m : Addr1) (sy : Sync) (s : State), s.Quiet sy →
    let va := Expected.address1 s.regs a m
    let n := Expected.size sz
    let bad (i : Nat) : Bool := NatSet.has s.lsBad (Expected.localKey s (va.toNat + i))
    Expected.LocalAccess s true false va n → (s.ctx s.cur).phase = .running → (s.ctx s.cur).pend.length < 8 →
    (∃ i < n, bad i = true) →
    ∃ t : State,
      exec (.ld sz .loc d a m sy) s =
        .next (t.goOn sy
          (s.regs.setX d (BitVec.ofNat 64 (Expected.number ((List.range n).map fun j =>
            if bad j then 0 else Memory.read s.ls (Expected.localKey s (va.toNat + j))))))) ∧
      t = { s with ctxs := t.ctxs, seq := t.seq } ∧ (∀ x, x ≠ s.cur → t.ctx x = s.ctx x) ∧ t.regs = s.regs ∧
      { cause := .poison, tval := va, engine := false, seq := s.seq } ∈ (t.ctx s.cur).pend ∧
      ∀ p ∈ (s.ctx s.cur).pend, p ∈ (t.ctx s.cur).pend) ∧
  (∀ (i : Instr) (s : State) (n : Nat) (vas : List Word) (sy : Sync),
    Expected.accesses i s.regs = some (.loc, n, vas, sy) → s.Quiet sy → Expected.evenLanes i s.regs →
    s.doubleTrap = false → (∀ b ∈ vas, b.toNat % n = 0) →
    ∀ va ∈ vas, ¬ Expected.LocalAccess s (Expected.asks i).1 (Expected.asks i).2 va n →
    (∀ b ∈ vas, ¬ Expected.LocalAccess s (Expected.asks i).1 (Expected.asks i).2 b n → va.toNat ≤ b.toNat) →
    exec i s = .next (s.trapped .lsprot false s.regs.pc va))

/-- In both spaces a misaligned element traps as ALIGN with the lowest misaligned element address; the access has no effect,
and no other check comes before. -/
def Obligations.MisalignedElementTraps : Prop :=
  ∀ (i : Instr) (s : State) (sp : Space) (n : Nat) (vas : List Word) (sy : Sync),
    Expected.accesses i s.regs = some (sp, n, vas, sy) → s.Quiet sy → Expected.evenLanes i s.regs →
    s.doubleTrap = false → ∀ va ∈ vas, va.toNat % n ≠ 0 → (∀ b ∈ vas, b.toNat % n ≠ 0 → va.toNat ≤ b.toNat) →
    exec i s = .next (s.trapped .align false s.regs.pc va)

/-- A global LD, LDSLOT or VLD of near memory gives the bytes that memory holds, a VLD while no other agent's access can fall
between its elements; no memory changes, and no other register. The context waits for the reference or goes on, as L1 missed
or hit.
Where a cache line is of an earlier version by a lease that reaches the strand's logical time, an LD may give that one (R159). -/
def Obligations.GlobalLoadResult : Prop :=
  (∀ (sz : Size) (d a : XReg) (m : Addr1) (sy : Sync) (s : State) (pa : Nat) (x : L1Line), s.Quiet sy →
    let va := Expected.address1 s.regs a m
    let n := Expected.size sz
    s.cur < 25088 → (s.regs.mode = .monitor → s.primer.region = []) →
    (s.ctx s.cur).lines = [] → va.toNat % n = 0 → Expected.Translates s (s.reqOf s.cur) .load va pa →
    s.leasedByOther s.cur pa = false → Expected.Readable s (s.reqOf s.cur) va pa → Expected.Clean s pa n →
    Expected.Caches s (coreOf s.cur) s.regs.asid va x → (∀ y, Expected.Caches s (coreOf s.cur) s.regs.asid va y → y = x) →
    x.place (s.reqOf s.cur) va = .ok (.phys pa) →
    s.cached (dieOf s.cur) s.regs.asid va ≠ [] → x.bytes.length = 256 → s.pts s.cur ≤ x.rts →
    ∃ (t : State) (v : Nat), exec (.ld sz .global d a m sy) s = .next t ∧ Expected.Keeps s t ∧ t.mem = s.mem ∧
      t.bad = s.bad ∧ t.regs = { s.regs.setX d (BitVec.ofNat 64 v) with pc := nextPc s.regs.pc sy } ∧
      (v = Expected.number ((List.range n).map fun i => x.bytes.getD (va.toNat % 256 + i) 0) ∨
        v = Expected.memValue s pa n)) ∧
  (∀ (sz : Size) (d a : XReg) (m : Addr1) (sy : Sync) (s : State) (pa : Nat), s.Quiet sy →
    let va := Expected.address1 s.regs a m
    let n := Expected.size sz
    (s.ctx s.cur).lines = [] → va.toNat % n = 0 → Expected.Maps s .load va pa → Expected.Clean s pa n →
    ∃ t : State, exec (.ld sz .global d a m sy) s = .next t ∧ Expected.Keeps s t ∧ t.mem = s.mem ∧ t.bad = s.bad ∧
      t.regs = { s.regs.setX d (BitVec.ofNat 64 (Expected.memValue s pa n)) with pc := nextPc s.regs.pc sy } ∧
      ((t.ctx s.cur).phase = .waiting ∨ (t.ctx s.cur).phase = (s.ctx s.cur).phase)) ∧
  (∀ (d a : XReg) (disp : Word) (sy : Sync) (s : State) (pa : Nat), s.Quiet sy →
    let va := s.regs.getX a + disp
    (s.ctx s.cur).lines = [] → va.toNat % 8 = 0 → Expected.Maps s .load va pa → Expected.Clean s pa 8 →
    ∃ t : State, exec (.ldslot d a disp sy) s = .next t ∧ Expected.Keeps s t ∧ t.mem = s.mem ∧ t.bad = s.bad ∧
      t.regs = { s.regs.setX d (BitVec.ofNat 64 (Expected.memValue s pa 8)) with pc := nextPc s.regs.pc sy }) ∧
  (∀ (sz : Size) (k : KReg) (d : VReg) (a : XReg) (m : AddrV) (sy : Sync) (s : State) (pa : Nat → Nat), s.Quiet sy →
    let va := Expected.addressV s.regs sz a m
    let es := Expected.elements s.regs sz k
    let n := Expected.size sz
    (sz = .d → s.regs.vl.toNat % 2 = 0) → (s.ctx s.cur).lines = [] → (Expected.NoOthers s ∨ es.length ≤ 1) →
    (∀ e ∈ es, (va e).toNat % n = 0 ∧ Expected.Maps s .load (va e) (pa e) ∧ Expected.Clean s (pa e) n) →
    ∃ (t : State) (v : VWord), exec (.vld sz .global k d a m sy) s = .next t ∧ Expected.Keeps s t ∧ t.mem = s.mem ∧
      t.bad = s.bad ∧ t.regs = { s.regs.setV d v with pc := nextPc s.regs.pc sy } ∧
      ∀ e, e * (8 * n) + 8 * n ≤ 2048 →
        vElem v (8 * n) e = if e ∈ es then Expected.memValue s (pa e) n else vElem (s.regs.getV d) (8 * n) e)

/-- A global AMO or CAS of near memory reads and writes its bytes in one step: the old value goes to X(D), the new one to memory,
and every other byte of memory and every other register stays; fadd's flags go to sr.fcsr. -/
def Obligations.GlobalAtomicResult : Prop :=
  ∀ (sz : Size) (o : AOp) (d a b : XReg) (disp : Word) (sy : Sync) (s : State) (pa : Nat), s.Quiet sy →
    let va := s.regs.getX a + disp
    let n := Expected.size sz
    let low (x : XReg) : Nat := (s.regs.getX x).toNat % 2 ^ (8 * n)
    let old := Expected.memValue s pa n
    (s.ctx s.cur).lines = [] → va.toNat % n = 0 → Expected.Maps s .atomic va pa → Expected.Clean s pa n →
    (∃ t : State, exec (.amo sz .global o d a b disp sy) s = .next t ∧ Expected.Keeps s t ∧
      (∀ x, Memory.read t.mem x =
        if pa ≤ x ∧ x < pa + n then Expected.byteOf (Expected.atomic o (8 * n) old (low b)) (x - pa)
        else Memory.read s.mem x) ∧
      t.regs =
        { s.regs.setX d (BitVec.ofNat 64 old) with
          flags := s.regs.flags ||| Expected.atomicFlags o old (low b)
          pc := nextPc s.regs.pc sy }) ∧
    (∃ t : State, exec (.cas sz .global d a b disp sy) s = .next t ∧ Expected.Keeps s t ∧
      (∀ x, Memory.read t.mem x =
        if pa ≤ x ∧ x < pa + n then Expected.byteOf (if old = low d then low b else old) (x - pa)
        else Memory.read s.mem x) ∧
      t.regs = { s.regs.setX d (BitVec.ofNat 64 old) with pc := nextPc s.regs.pc sy })

/-- A global ST, VST, RED or WBAR enters the store buffer in element order and goes on: memory and every register but the pc
stay; an 8-byte ST does so where no configuration register stands. One to a configuration register that the mode may not write takes
PRIV, and nothing enters.
STSLOT stores like ST.d; a nonzero heap pointer, one whose low three bits are zero, is followed by the byte 1 for the card
of the address. -/
def Obligations.StoreBufferResult : Prop :=
  (∀ (i : Instr) (s : State) (n : Nat) (red : Option AOp) (byST : Bool) (l : List (Word × Word)) (sy : Sync),
    Expected.stores i s.regs = some (n, red, byST, l, sy) → s.Quiet sy → Expected.evenLanes i s.regs →
    Expected.Bufferable s (l.map (·.1)) n → (byST = true → n = 8 → ∀ p ∈ l, Expected.NoConfig s p.1) →
    ∃ t : State, exec i s = .next (t.goOn sy s.regs) ∧
      t.ctx s.cur = Expected.pushes (s.ctx s.cur) n red byST l s.seq ∧
      t = { s with ctxs := t.ctxs, seq := s.seq + l.length } ∧ ∀ a, a ≠ s.cur → t.ctx a = s.ctx a) ∧
  (∀ (d a : XReg) (m : Addr1) (sy : Sync) (s : State) (r : CfgReg), s.Quiet sy → s.doubleTrap = false →
    let va := Expected.address1 s.regs a m
    let e := s.walk (dieOf s.cur) s.regs.asid va
    va.toNat % 8 = 0 → va.toNat / 2 ^ 48 % 2 ^ 8 = 0 → vaNode va = s.nodeId → leafV e.leaf = true → leafFar e.leaf = false →
    s.contOthers (dieOf s.cur) s.regs.asid va e = [] → (∀ x ∈ s.cached (dieOf s.cur) s.regs.asid va, x = e) →
    s.checkLeaf (s.reqOf s.cur) .store va e = .ok (.phys (leafPa e va)) → cfgRegAt (leafPa e va) = some r →
    isConfig (leafPa e va) = true → r.guard.admits s.regs.mode = false →
    exec (.st .d .global d a m sy) s = .next (s.trapped .priv false s.regs.pc (s.ctx s.cur).ir)) ∧
  (∀ (d a : XReg) (disp : Word) (sy : Sync) (s : State), s.Quiet sy →
    let va := s.regs.getX a + disp
    let v := s.regs.getX d
    let heap := v ≠ 0 ∧ v.toNat % 8 = 0
    Expected.Bufferable s [va, card va] 1 → va.toNat % 8 = 0 →
    ∃ t : State, exec (.stslot d a disp sy) s = .next (t.goOn sy s.regs) ∧
      t.ctx s.cur =
        (if heap then
          Expected.push (Expected.push (s.ctx s.cur) va 8 v none false s.seq) (card va) 1 1 none false (s.seq + 1)
         else Expected.push (s.ctx s.cur) va 8 v none false s.seq) ∧
      t = { s with ctxs := t.ctxs, seq := if heap then s.seq + 2 else s.seq + 1 } ∧
      ∀ x, x ≠ s.cur → t.ctx x = s.ctx x)

/-- LEASE of a line of near memory that the context does not hold, while it holds fewer than four, adds the lease with its grant
time and the die's bound, and changes no memory and no register but the pc.
UNLEASE writes 2 where the context has no lease on the line, 1 where the lease had ended, else 0, and the lease is gone;
nothing else changes while no access waits behind it and no store of the strand is under way. (Of a strand that a save of
another device's has brought here the first status is open: the model's, log 46.) -/
def Obligations.LeaseResult : Prop :=
  (∀ (a : XReg) (disp : Word) (sy : Sync) (s : State) (pa : Nat), s.Quiet sy →
    let c := s.ctx s.cur
    let va := s.regs.getX a + disp
    let line := va - BitVec.ofNat 64 (va.toNat % 256)
    let bound := (s.die (dieOf s.cur)).leaseBound.toNat
    c.lines = [] → Expected.Maps s .lease va pa → (∀ l ∈ c.leases, l.va = line → l.asid = c.r.asid → l.live = false) →
    (c.leases.filter (·.live)).length < 4 →
    ∃ t : State, exec (.lease a disp sy) s = .next t ∧ Expected.Keeps s t ∧ t.mem = s.mem ∧ t.bad = s.bad ∧
      t.regs = { s.regs with pc := nextPc s.regs.pc sy } ∧
      { va := line, asid := c.r.asid, line := pa / 256, granted := s.time, bound := bound, live := bound != 0 } ∈
        (t.ctx s.cur).leases ∧
      ∀ l ∈ c.leases, l.live = true → l ∈ (t.ctx s.cur).leases) ∧
  (∀ (d a : XReg) (disp : Word) (sy : Sync) (s : State), s.Quiet sy →
    let c := s.ctx s.cur
    let va := s.regs.getX a + disp
    let line := va - BitVec.ofNat 64 (va.toNat % 256)
    let l := c.leases.find? fun l => l.va == line && l.asid == c.r.asid
    (l = none → c.leasesLost = false → exec (.unlease d a disp sy) s = .next (s.goOn sy (s.regs.setX d 2))) ∧
    ∀ x, l = some x → c.lines = [] → (∀ p ∈ s.ctxs, ∀ w, p.2.wait = some w → w.kind ≠ .leased x.line) →
      exec (.unlease d a disp sy) s =
        .next (((Upd.ctx s.cur { c with leases := c.leases.filter fun y => y != x }).apply s).goOn sy
          (s.regs.setX d (if x.live then 0 else 1))))

/-! ### Counters -/

/-- CBIND of 0 binds the slot to its own cell, and of a reference to a cell of the core to that cell, with MARK 0 and the cell's
generation; CMARK sets MARK to X(A) + Imm; CREAD, with no store of the strand under way, gives V and refreshes GEN. Nothing
else changes.
CBIND traps: ALIGN for a misaligned global address; XLATE for a local reference that names another core's cell or no
counter. -/
def Obligations.SlotResult : Prop :=
  (∀ (n : BitVec 8) (d a : XReg) (v : Word) (sy : Sync) (s : State), s.Quiet sy → n.toNat < (s.ctx s.cur).nslots →
    let core := coreOf s.cur
    let ref := s.regs.getX a
    let own := (s.ctx s.cur).cellBase + n.toNat
    (ref = 0 →
      exec (.cbind n a sy) s =
        .next (s.goOn sy (Expected.withSlot s.regs n.toNat
          { ref := s.cellRef core own, mark := 0, gen := (s.cell core own).g, loc := true }))) ∧
    (∀ c, isLocalRef ref = true → s.localRef ref = some (core, c) →
      exec (.cbind n a sy) s =
        .next (s.goOn sy (Expected.withSlot s.regs n.toNat
          { ref := ref, mark := 0, gen := (s.cell core c).g, loc := true }))) ∧
    exec (.cmark n a v sy) s =
      .next (s.goOn sy (Expected.withSlot s.regs n.toNat
        { s.slot s.cur n.toNat with mark := s.regs.getX a + v })) ∧
    ∀ k c, Expected.cellOf s n.toNat = some (k, c) → (s.ctx s.cur).lines = [] →
      ∃ t : State, Expected.Timed s t ∧
        exec (.cread d n sy) s =
          .next (t.goOn sy (Expected.withSlot (s.regs.setX d (s.cell k c).v) n.toNat
            { s.slot s.cur n.toNat with gen := (s.cell k c).g }))) ∧
  (∀ (n : BitVec 8) (a : XReg) (sy : Sync) (s : State), s.Quiet sy → n.toNat < (s.ctx s.cur).nslots →
    s.doubleTrap = false →
    let ref := s.regs.getX a
    (ref ≠ 0 → isLocalRef ref = false → ref.toNat % 8 ≠ 0 →
      exec (.cbind n a sy) s = .next (s.trapped .align false s.regs.pc ref)) ∧
    (ref ≠ 0 → isLocalRef ref = true → (∀ c, s.localRef ref ≠ some (coreOf s.cur, c)) →
      exec (.cbind n a sy) s = .next (s.trapped .xlate false s.regs.pc ref)))

/-- CBIND, CREAD and CADD on a counter page of near memory that the counter home admits: the binding with the home's generation;
V into X(D); V grown by X(A) + Imm while nothing waits on the counter. No other byte of memory changes, and no register but
X(D), the slot's GEN and the pc. -/
def Obligations.HomeCounterResult : Prop :=
  ∀ (n : BitVec 8) (d a : XReg) (v ref : Word) (sy : Sync) (s : State) (pa : Nat),
    s.Quiet sy → n.toNat < (s.ctx s.cur).nslots → isLocalRef ref = false → ref.toNat % 8 = 0 →
    Expected.Maps s (.counter true true) ref pa → Expected.Clean s pa 8 →
    let adm (rd wr : Bool) : Prop :=
      admits (s.access (paDie pa) 1 (s.reqOf s.cur).master) rd wr (s.reqOf s.cur).byUser s.regs.asid = true
    let sl := s.slot s.cur n.toNat
    let old := Expected.memValue s pa 8
    let amount := (s.regs.getX a + v).toNat
    (ref ≠ 0 → s.regs.getX a = ref → adm true false →
      ∃ t : State, exec (.cbind n a sy) s = .next t ∧ Expected.Keeps s t ∧ t.mem = s.mem ∧
        t.regs =
          { Expected.withSlot s.regs n.toNat { ref := ref, mark := 0, gen := s.homeGen pa, loc := false } with
            pc := nextPc s.regs.pc sy }) ∧
    (sl.ref = ref → adm true false → (s.ctx s.cur).lines = [] →
      ∃ t : State, exec (.cread d n sy) s = .next t ∧ Expected.Keeps s t ∧ t.mem = s.mem ∧
        t.regs =
          { Expected.withSlot (s.regs.setX d (BitVec.ofNat 64 old)) n.toNat { sl with gen := s.homeGen pa } with
            pc := nextPc s.regs.pc sy }) ∧
    (sl.ref = ref → adm (decide (d ≠ 0)) true → Expected.Settled s → amount < 2 ^ 48 → old + amount < 2 ^ 64 →
      Expected.Unwatched s (.home pa) →
      ∃ t : State, exec (.cadd d n a v sy) s = .next t ∧ Expected.Keeps s t ∧
        (∀ x, Memory.read t.mem x =
          if pa ≤ x ∧ x < pa + 8 then Expected.byteOf (old + amount) (x - pa) else Memory.read s.mem x) ∧
        t.regs =
          (if d = 0 then { s.regs with pc := nextPc s.regs.pc sy }
           else
            { Expected.withSlot (s.regs.setX d (BitVec.ofNat 64 old)) n.toNat { sl with gen := s.homeGen pa } with
              pc := nextPc s.regs.pc sy }))

/-- CADD on a cell on which nothing waits: it releases at its scope, and V grows by X(A) + Imm; with a destination, X(D) takes the
old V and GEN is refreshed, and a sum above 2^64 - 1 saturates and then traps as CTROVF after the instruction. An amount of 2^48 or more traps as
CTROVF with the reference, and adds nothing.
CRESET outside user mode, on a cell on which nothing waits, with no store of the strand under way: V is 0 and the generation counts up modulo 65,536, and GEN takes
it. In user mode it takes PRIV. -/
def Obligations.CounterUpdateResult : Prop :=
  (∀ (n : BitVec 8) (d a : XReg) (v : Word) (sy : Sync) (s : State) (k c : Nat),
    s.Quiet sy → n.toNat < (s.ctx s.cur).nslots → Expected.Settled s →
    Expected.cellOf s n.toNat = some (k, c) → Expected.NoWaiters s k c →
    let amount := (s.regs.getX a + v).toNat
    let x := s.cell k c
    let sum (u : State) (y : Word) : State := if y = x.v then u else (Upd.cell (256 * k + c) { x with v := y }).apply u
    let back := Expected.withSlot (s.regs.setX d x.v) n.toNat { s.slot s.cur n.toNat with gen := x.g }
    (amount < 2 ^ 48 → x.v.toNat + amount < 2 ^ 64 →
      ∃ u w : State, Expected.Carried s u sy.scope ∧ Expected.Timed (sum u (x.v + BitVec.ofNat 64 amount)) w ∧
        exec (.cadd d n a v sy) s = .next (w.goOn sy (if d = 0 then s.regs else back))) ∧
    (amount < 2 ^ 48 → 2 ^ 64 ≤ x.v.toNat + amount → d ≠ 0 → s.doubleTrap = false →
      ∃ u w : State, Expected.Carried s u sy.scope ∧ Expected.Timed (sum u (BitVec.allOnes 64)) w ∧
        exec (.cadd d n a v sy) s =
          .next ((Expected.withRegs w back).trapped .ctrovf false (nextPc s.regs.pc sy)
            (s.slot s.cur n.toNat).ref)) ∧
    (2 ^ 48 ≤ amount → s.doubleTrap = false →
      exec (.cadd d n a v sy) s = .next (s.trapped .ctrovf false s.regs.pc (s.slot s.cur n.toNat).ref))) ∧
  (∀ (n : BitVec 8) (sy : Sync) (s : State) (k c : Nat),
    s.Quiet sy → n.toNat < (s.ctx s.cur).nslots → Expected.cellOf s n.toNat = some (k, c) → Expected.NoWaiters s k c →
    (s.regs.mode ≠ .user → (s.ctx s.cur).lines = [] → (∀ h ∈ s.held, h.ctr ≠ .cell k c) →
      ∃ t : State, Expected.Timed ((Upd.cell (256 * k + c) { v := 0, g := (s.cell k c).g + 1 }).apply s) t ∧
        exec (.creset n sy) s = .next (t.goOn sy
          (Expected.withSlot s.regs n.toNat { s.slot s.cur n.toNat with gen := (s.cell k c).g + 1 }))) ∧
    (s.regs.mode = .user → exec (.creset n sy) s = .next (s.trapped .priv false s.regs.pc (s.ctx s.cur).ir)))

/-- CWAIT on slots bound to cells, with no store of the strand under way: satisfied, it writes status 0, of the any form with the offset of the lowest satisfied slot;
unsatisfied with a timeout that is over, status 2. Only GENs of slots change beside X(D) and the pc. -/
def Obligations.CounterWaitResult : Prop :=
  ∀ (i : Instr) (s : State) (d : XReg) (ns : List Nat) (all : Bool) (limit : Word) (n : Nat) (any : Bool) (sy : Sync),
    Expected.cwait i s.regs = some (d, ns, all, limit, n, any, sy) → s.Quiet sy → n < (s.ctx s.cur).nslots →
    (s.ctx s.cur).lines = [] →
    (∀ m ∈ ns, m < (s.ctx s.cur).nslots ∧ m < 256 ∧ (Expected.cellOf s m).isSome) →
    let sat : Prop := if all then ∀ m ∈ ns, Expected.satisfied s m = true else ∃ m ∈ ns, Expected.satisfied s m = true
    (sat ∨ limit = 0) →
    ∃ (t : State) (status first : Nat),
      exec i s = .next t ∧ Expected.SlotsKept s t ∧ t.cells = s.cells ∧
      t.regs =
        { s.regs.setX d (BitVec.ofNat 64 (status + 256 * first)) with
          slots := t.regs.slots, pc := nextPc s.regs.pc sy } ∧
      (sat → status = 0) ∧ (¬ sat → status = 2) ∧ (any = false ∨ ¬ sat → first = 0) ∧
      (any = true → sat → n + first ∈ ns ∧ Expected.satisfied s (n + first) = true ∧
        ∀ m ∈ ns, Expected.satisfied s m = true → n + first ≤ m)

/-- With no store of the strand under way: CWAIT on slots bound to cells that is not satisfied and has no timeout leaves its context WAITING at the instruction,
with every register as it was, watching those cells.
A wait field on a slot of a cell below its mark leaves the context WAITING at the instruction, with every register as it
was and nothing stored or signalled. -/
def Obligations.UnsatisfiedWaitBlocks : Prop :=
  (∀ (i : Instr) (s : State) (d : XReg) (ns : List Nat) (all : Bool) (n : Nat) (any : Bool) (sy : Sync),
    Expected.cwait i s.regs = some (d, ns, all, BitVec.allOnes 64, n, any, sy) → s.Quiet sy → n < (s.ctx s.cur).nslots →
    (s.ctx s.cur).lines = [] →
    (∀ m ∈ ns, m < (s.ctx s.cur).nslots ∧ m < 256 ∧ (Expected.cellOf s m).isSome) →
    ¬ (if all then ∀ m ∈ ns, Expected.satisfied s m = true else ∃ m ∈ ns, Expected.satisfied s m = true) →
    ∃ (t : State) (w : Wait), exec i s = .next t ∧ t.regs = { s.regs with slots := t.regs.slots } ∧
      (t.ctx s.cur).phase = .waiting ∧ (t.ctx s.cur).wait = some w ∧ w.kind = .cwait ∧ w.all = all ∧ w.deadline = none ∧
      w.watches.map (·.slot) = ns ∧ t.mem = s.mem ∧ t.ls = s.ls ∧ t.cells = s.cells) ∧
  (∀ (i : Instr) (s : State) (r : Regs) (sy : Sync) (n : BitVec 8) (p : Nat × Nat),
    Expected.exact i (vlMax (coreOf s.cur)) s.regs = some (r, sy) → s.Alone → sy.wait = some n → n.toNat < (s.ctx s.cur).nslots →
    (s.ctx s.cur).lines = [] →
    (∀ g, sy.sig = some g → g.slot.toNat < (s.ctx s.cur).nslots) →
    Expected.cellOf s n.toNat = some p → Expected.satisfied s n.toNat = false →
    ∃ (t : State) (w : Wait), exec i s = .next t ∧ t.regs = s.regs ∧ (t.ctx s.cur).phase = .waiting ∧
      (t.ctx s.cur).wait = some w ∧ w.kind = .field ∧ w.watches.map (·.slot) = [n.toNat] ∧
      w.watches.map (·.ctr) = [.cell p.1 p.2] ∧ t.mem = s.mem ∧ t.ls = s.ls ∧ t.cells = s.cells)

/-- A wait field on a satisfied slot and a signal to a cell change nothing of an instruction's result: its registers are those of
its own rule, but for GENs, and the signalled cell grows by the increment.
A synchronisation field that names a slot at or above the context's slots takes ILLEGAL, with no effect. -/
def Obligations.SynchronisedResult : Prop :=
  (∀ (i : Instr) (s : State) (r : Regs) (sy : Sync),
    Expected.exact i (vlMax (coreOf s.cur)) s.regs = some (r, sy) → s.Alone → Expected.Settled s →
    (∀ n, sy.wait = some n → n.toNat < (s.ctx s.cur).nslots ∧ Expected.satisfied s n.toNat = true) →
    (∀ g, sy.sig = some g → g.slot.toNat < (s.ctx s.cur).nslots ∧
      ∃ k c, Expected.cellOf s g.slot.toNat = some (k, c) ∧ Expected.NoWaiters s k c ∧
        (s.cell k c).v.toNat + g.inc.toNat < 2 ^ 64) →
    ∃ t : State, exec i s = .next t ∧ Expected.SlotsKept s t ∧ t.regs = { r with slots := t.regs.slots } ∧
      ∀ k c, (t.cell k c).v =
        (match sy.sig with
         | some g =>
           if (Expected.cellOf s g.slot.toNat).map (fun p => 256 * p.1 + p.2) = some (256 * k + c) then
             (s.cell k c).v + BitVec.ofNat 64 g.inc.toNat
           else (s.cell k c).v
         | none => (s.cell k c).v)) ∧
  (∀ (i : Instr) (s : State) (r : Regs) (sy : Sync),
    Expected.exact i (vlMax (coreOf s.cur)) s.regs = some (r, sy) → s.Alone → s.doubleTrap = false →
    ((∃ n, sy.wait = some n ∧ (s.ctx s.cur).nslots ≤ n.toNat) ∨
      ∃ g, sy.sig = some g ∧ (s.ctx s.cur).nslots ≤ g.slot.toNat) →
    exec i s = .next (s.trapped .illegal false s.regs.pc (s.ctx s.cur).ir))

/-! ### Strands -/

/-- Fences of a strand with no store under way. FENCE goes on once its far writes, at system scope, are performed and what the engine
operations that it has joined have written is visible beyond group scope; at system scope no stale far line serves the strand any
more. EFENCE goes on when nothing is pending. TBLFENCE, when no lease and no access under way lies in its range, empties every
translation cache, L1 and L2 of the range, the cached instruction words of the range keep no translation, and every far write is
performed. ICINV discards the words of the range from the caches of its cores, and their later fetches see the stores before it. Memory
and every register but the pc stay.
EFENCE reports the oldest pending error of a strand without FAULTED lines as its precise but deferred trap, and the error
is pending no longer. -/
def Obligations.FenceResult : Prop :=
  (∀ (sy : Sync) (s : State), s.Quiet sy → (s.ctx s.cur).lines = [] →
    (∃ u w : State, Expected.Fenced s u sy.scope ∧
      Expected.Timed { u with farAcq := Expected.acquired u s.cur sy.scope } w ∧
      exec (.fence sy) s = .next (w.goOn sy s.regs)) ∧
    ((s.ctx s.cur).pend = [] → (s.ctx s.cur).ovf = false → exec (.efence sy) s = .next (s.goOn sy s.regs))) ∧
  (∀ (sy : Sync) (s : State) (p : Pend) (l : List Pend), s.Quiet sy → (s.ctx s.cur).lines = [] →
    (s.ctx s.cur).gang = none → s.doubleTrap = false → (s.ctx s.cur).pend = p :: l → p ∉ l →
    ∃ t : State, exec (.efence sy) s = .next (t.trapped p.cause true s.regs.pc p.tval) ∧
      t = { s with ctxs := t.ctxs } ∧ t.regs = s.regs ∧ (t.ctx s.cur).pend = l ∧ ∀ a, a ≠ s.cur → t.ctx a = s.ctx a) ∧
  (∀ (a b : XReg) (sy : Sync) (s : State), s.Quiet sy → (s.ctx s.cur).lines = [] → s.Ordered →
    let lo := (s.regs.getX a).toNat
    let len := (s.regs.getX b).toNat
    let range := tblRange (s.regs.getX a) (s.regs.getX b)
    -- pages first to last of an ASID, or of a page with G = 1, meet the range of X(A) and X(B)
    let inRange (id : Nat) (g : Bool) (first last : Nat) : Bool :=
      (id == s.regs.asid.toNat || g) &&
        (len == 0 || (decide (lo / 65536 ≤ last) && decide (first ≤ (lo + len - 1) / 65536)))
    let line (e : Nat × L1Line) : Bool :=
      inRange (e.1 / 2 ^ 64) (e.2.leaf.any fun l => leafG l.leaf) (e.1 % 2 ^ 64 / 65536) (e.1 % 2 ^ 64 / 65536)
    let meets (k : Nat) (l : TlbEntry) : Bool :=
      let node := s.nodeId.toNat * 2 ^ 40
      let p := k % 2 ^ 32
      let first := if l.big then p / 8192 * 8192 else if leafCont l.leaf then p / 32 * 32 else p
      let last := if l.big then p / 8192 * 8192 + 8191 else if leafCont l.leaf then p / 32 * 32 + 31 else p
      inRange (k / 2 ^ 32) (leafG l.leaf) (node + first) (node + last)
    (∀ p ∈ s.ctxs, s.fenced s.regs.asid range p.1 p.2 = false) →
    ∃ t : State, exec (.tblfence a b sy) s = .next (t.goOn sy s.regs) ∧
      t =
        { s with
          engOld := t.engOld, ctxs := t.ctxs, dies := t.dies, cores := t.cores, farPend := [], far := t.far, farOld := t.farOld
          farSeq := t.farSeq, farFloor := t.farFloor, farFadds := t.farFadds, farAcq := t.farAcq, times := t.times
          joins := t.joins, oracle := t.oracle } ∧
      (∀ c e, Expected.Hidden t c e ↔
        Expected.Hidden s c e ∧ (sy.scope = .group ∨ s.joined s.cur e.op e.num = false)) ∧
      (∀ x, t.ctx x = { s.ctx x with farw := [] }) ∧
      (∀ d, t.die d =
        { s.die d with
          aflags := (t.die d).aflags
          tlb := ((s.die d).tlb.map fun e => (e.1, e.2.filter fun l => !meets e.1 l)).filter fun e => !e.2.isEmpty
          l2 := (s.die d).l2.filter fun e => !line e }) ∧
      ∀ n, t.core n =
        { s.core n with
          l1 := (s.core n).l1.filter fun e => !line e
          icache := (s.core n).icache.map fun e =>
            if inRange (e.1 / 2 ^ 64) e.2.g (e.1 % 2 ^ 64 / 65536) (e.1 % 2 ^ 64 / 65536) then
              (e.1, { e.2 with leaf := none })
            else e }) ∧
  ∀ (e : Extent) (a b : XReg) (sy : Sync) (s : State), s.Quiet sy → (s.ctx s.cur).lines = [] →
    let lo := s.regs.getX a
    let len := s.regs.getX b
    let hit (id : Nat) (g : Bool) (va : Nat) : Bool :=
      (id == s.regs.asid.toNat || g) &&
        (len == 0 || (decide (lo.toNat ≤ va) && decide (va < min (lo.toNat + len.toNat) (2 ^ 64))))
    ∃ t : State, exec (.icinv e a b sy) s = .next (t.goOn sy s.regs) ∧
      t = { s with cores := t.cores, icCovers := t.icCovers } ∧
      (∃ v ∈ t.icCovers,
        v.stores = s.codeSeq ∧ v.extent = e ∧ v.core = coreOf s.cur ∧ v.asid = s.regs.asid ∧
        v.farAcq = TMap.get 0 s.farAcq s.cur ∧
        v.range = if len = 0 then none else some (lo.toNat, min (lo.toNat + len.toNat) (2 ^ 64))) ∧
      (∀ v ∈ s.icCovers, v ∈ t.icCovers ∨
        (v.extent = e ∧ v.core = coreOf s.cur ∧ v.asid = s.regs.asid ∧
          v.range = if len = 0 then none else some (lo.toNat, min (lo.toNat + len.toNat) (2 ^ 64)))) ∧
      ∀ n,
        t.core n =
          if Expected.coversIcinv e (coreOf s.cur) n = true then
            { s.core n with
              icache := (s.core n).icache.filter fun w => !hit (w.1 / 2 ^ 64) w.2.g (w.1 % 2 ^ 64) }
          else s.core n

/-- SPAWN outside a gang, of a clean record of near memory, with its level's queue enabled, not full and without waiters,
appends the record under the strand's ASID and goes on; into a full queue it waits with the record kept. -/
def Obligations.SpawnResult : Prop :=
  ∀ (a : XReg) (sy : Sync) (s : State) (pa : Nat), s.Quiet sy → Expected.Settled s →
    let va := s.regs.getX a
    let w := Expected.recordWord s pa
    let level := (w 0).toNat / 4 % 8
    let r : ContRec :=
      { code := w 3, frame := w 2, join := w 1, asid := s.regs.asid, prio := BitVec.ofNat 3 level,
        cls := BitVec.ofNat 2 ((w 0).toNat % 4) }
    let q := (s.die (dieOf s.cur)).queue level
    (s.ctx s.cur).wait = none → va.toNat % 32 = 0 → Expected.Maps s .load va pa → Expected.Clean s pa 32 →
    (w 0).toNat / 32 % 2 ^ 43 = 0 → q.cfg.getLsbD 5 = true →
    (q.recs.length < 2 ^ (q.cfg.toNat % 32) → q.waiting = [] →
      ∃ t : State, exec (.spawn a sy) s = .next t ∧ Expected.Keeps s t ∧
        t.regs = { s.regs with pc := nextPc s.regs.pc sy } ∧
        ((t.die (dieOf s.cur)).queue level).recs = q.recs ++ [(r, s.time)] ∧
        ((t.die (dieOf s.cur)).queue level).tail = q.tail + 1) ∧
    (2 ^ (q.cfg.toNat % 32) ≤ q.recs.length →
      ∃ t : State, exec (.spawn a sy) s = .next t ∧ Expected.Keeps s t ∧ t.mem = s.mem ∧ t.regs = s.regs ∧
        (t.ctx s.cur).phase = .waiting ∧ ((t.ctx s.cur).wait.map (·.kind)) = some (.spawn r) ∧
        ((t.die (dieOf s.cur)).queue level).recs = q.recs ∧
        ((t.die (dieOf s.cur)).queue level).waiting = q.waiting ++ [s.cur])

/-- EXIT and FINISH end the strand: its leases end and its context is DRAINING, with memory as it was. EXIT of a START strand and
FINISH with a JOIN add to a counter first, here one in a cell on which nothing waits. FINISH of a strand that no record
started, and on an Easel core, is ILLEGAL. -/
def Obligations.StrandEndResult : Prop :=
  ∀ (sy : Sync) (s : State), s.Quiet sy → Expected.Settled s → (s.ctx s.cur).pend = [] →
    let c := s.ctx s.cur
    let ended (s t : State) : Prop :=
      Expected.Keeps s t ∧ t.mem = s.mem ∧ t.regs = { s.regs with pc := nextPc s.regs.pc sy } ∧
      (t.ctx s.cur).phase = .draining ∧ (t.ctx s.cur).leases = []
    let added (k x : Nat) (n : Nat) : State :=
      { s with cells := TMap.put s.cells (256 * k + x) { s.cell k x with v := (s.cell k x).v + BitVec.ofNat 64 n } }
    (c.start = none → ∃ t : State, exec (.exit sy) s = .next t ∧ ended s t) ∧
    (∀ d k x, c.start = some d → isLocalRef d.ref = true → s.localRef d.ref = some (k, x) →
      Expected.NoWaiters s k x → d.gen = (s.cell k x).g → (s.cell k x).v.toNat + d.inc.toNat < 2 ^ 64 → d.inc ≠ 0 →
      ∃ t : State, exec (.exit sy) s = .next t ∧ ended (added k x d.inc.toNat) t) ∧
    (c.join = some 0 → coreOf s.cur < 1536 → ∃ t : State, exec (.finish sy) s = .next t ∧ ended s t) ∧
    (∀ j k x, c.join = some j → coreOf s.cur < 1536 → isLocalRef j = true → s.localRef j = some (k, x) →
      Expected.NoWaiters s k x → (s.cell k x).v.toNat + 1 < 2 ^ 64 →
      ∃ t : State, exec (.finish sy) s = .next t ∧ ended (added k x 1) t) ∧
    (c.join = none ∨ 1536 ≤ coreOf s.cur → s.doubleTrap = false →
      exec (.finish sy) s = .next (s.trapped .illegal false s.regs.pc (s.ctx s.cur).ir))

/-- YIELD goes on at the next instruction and switches: the first READY context after it runs, itself last of all. -/
def Obligations.YieldResult : Prop :=
  ∀ (sy : Sync) (s : State) (core i : Nat), s.cur = 16 * core + i → i < 16 → s.Quiet sy → Expected.RunsAlone s core i →
    ∃ t : State, exec (.yield sy) s = .next t ∧ Expected.Switched s t core i ∧ t.mem = s.mem ∧ t.ls = s.ls ∧
      t.cells = s.cells ∧ t.cur = s.cur ∧ t.regs = { s.regs with pc := nextPc s.regs.pc sy }

/-- TRACE on a compute core writes its status, and with status 0 the core becomes a follower that has yet to join; on an Easel
core it is ILLEGAL. UNTRACE in a core that neither leads nor follows only goes on; in a follower it ends the following, and
the strand goes on at its leader's next address. -/
def Obligations.TraceResult : Prop :=
  ∀ (d a : XReg) (v : Word) (sy : Sync) (s : State), sy.wait = none → sy.sig = none →
    let core := coreOf s.cur
    let p := (s.regs.getX a + v).toNat
    let status := Expected.traceStatus s core p
    (s.Alone → core < 1536 →
      exec (.trace d a v sy) s =
        .next
          (State.goOn
            (if status = 0 then
              (Upd.core core { s.core core with trace := .follower (core / 8 * 8 + p) false [] }).apply s
             else s) sy
            (s.regs.setX d (BitVec.ofNat 64 status)))) ∧
    (s.Alone → 1536 ≤ core → s.doubleTrap = false →
      exec (.trace d a v sy) s = .next (s.trapped .illegal false s.regs.pc (s.ctx s.cur).ir)) ∧
    (s.Alone → exec (.untrace sy) s = .next (s.goOn sy s.regs)) ∧
    (∀ f l j q, s.fwd = some f → (s.core core).trace = .follower l j q → s.followers core = [] →
      (s.glaze.msgs.any fun p => s.ofCtx s.cur p.2.by_) = false → s.owedX s.cur = [] →
      ((s.ctx s.cur).replayNow && (s.ctx s.cur).replay.contains s.regs.pc) = false →
      (s.ctx s.cur).prog = Progress.none →
      ∃ t : State, exec (.untrace sy) s = .next t ∧ (t.core core).trace = .none ∧ t.regs = { s.regs with pc := f.next } ∧
        t.mem = s.mem ∧ t.ls = s.ls)

/-- What a leader issues outside a trap handler is handed to every follower that has joined: a register instruction of a leader
with followers, none
of which is 64 instructions behind, has its own result, and stands at the end of their streams. -/
def Obligations.LeaderForwards : Prop :=
  ∀ (i : Instr) (s : State) (d : XReg) (v : Word) (sy : Sync) (n : Nat) (q : List Fwd),
    Expected.scalarInt i s.regs = some (d, v, sy) → sy.wait = none → sy.sig = none → s.fwd = none →
    (s.core (coreOf s.cur)).trace = .none →
    (s.glaze.msgs.any fun p => s.ofCtx s.cur p.2.by_) = false → s.owedX s.cur = [] →
    ((s.ctx s.cur).replayNow && (s.ctx s.cur).replay.contains s.regs.pc) = false →
    (s.ctx s.cur).prog = Progress.none → (s.ctx s.cur).handler = 0 → s.Ordered →
    (∀ m l j r, (s.core m).trace = .follower l j r → r.length < 64) →
    (s.core n).trace = .follower (coreOf s.cur) true q →
    ∃ t : State, exec i s = .next t ∧ t.regs = { s.regs.setX d v with pc := nextPc s.regs.pc sy } ∧ t.mem = s.mem ∧
      t.ls = s.ls ∧
      (t.core n).trace = .follower (coreOf s.cur) true
        (q ++ [{ ctx := s.cur % 16, pc := s.regs.pc, base := (s.ctx s.cur).ir, ext := (s.ctx s.cur).irExt,
                 next := nextPc s.regs.pc sy }])

/-- STEP of the last strand of a gang to arrive commits the step: the launch's step counts up with an empty journal, the strand's
checkpoint, its registers and sr.err, is at the next instruction, and it goes on. A strand that is not the last waits at its STEP,
and so does one whose engine operations are not complete. Outside a gang and on an Easel core STEP is ILLEGAL. -/
def Obligations.StepResult : Prop :=
  ∀ (sy : Sync) (s : State), s.Quiet sy →
    let c := s.ctx s.cur
    (c.gang = none ∨ 1536 ≤ coreOf s.cur → s.doubleTrap = false →
      exec (.step sy) s = .next (s.trapped .illegal false s.regs.pc c.ir)) ∧
    (∀ g, coreOf s.cur < 1536 → c.gang = some g → g.arrived = false → c.lines = [] → c.pend = [] →
      (s.engineBusy true fun b => s.ofCtx s.cur b) = true →
      ∃ t : State, exec (.step sy) s = .next t ∧ t.regs = s.regs ∧ (t.ctx s.cur).phase = .waiting ∧
        ((t.ctx s.cur).wait.map (·.kind)) = some .step ∧ (t.ctx s.cur).gang = some g ∧ t.launches = s.launches ∧
        t.mem = s.mem ∧ t.ls = s.ls) ∧
    ∀ (g : GangMember) (l : Launch), coreOf s.cur < 1536 → c.gang = some g → g.arrived = false → c.phase = .running →
      c.lines = [] → c.farw = [] → c.pend = [] → TMap.find s.launches g.launch = some l → l.rollDue = false →
      (s.engineBusy true fun b => s.ofCtx s.cur b) = false → l.perDie.length = 8 → (∀ p ∈ l.perDie, p.2.todo = []) →
      (∀ r ∈ l.routes, r.used = false) →
      (∀ h ∈ s.held, h.launch ≠ g.launch) → (∀ p ∈ s.glaze.tokens, p.2.launch ≠ g.launch) → s.cur ∈ s.gangLive g.launch →
      s.Ordered →
      ((∀ a ∈ s.gangLive g.launch, a ≠ s.cur → ∃ h, (s.ctx a).gang = some h ∧ h.arrived = true) →
        ∃ t : State, exec (.step sy) s = .next t ∧ t.regs = { s.regs with pc := nextPc s.regs.pc sy } ∧
          TMap.find t.launches g.launch =
            some { l with journal := [], unrepeatable := false, step := l.step + 1, rollbacks := 0, ended := [] } ∧
          (t.ctx s.cur).gang =
            some { g with
              step := g.step + 1, arrived := false
              checkpoint := { s.regs with pc := s.regs.pc + (if c.irExt.isSome then 16 else 8) }
              err := { addr := c.errAddr, ovf := c.ovf, stale := c.stale } } ∧
          t.mem = s.mem ∧ t.ls = s.ls ∧ t.cells = s.cells) ∧
      (∀ a ∈ s.gangLive g.launch, a ≠ s.cur → (∀ h, (s.ctx a).gang = some h → h.arrived = false) →
        ∃ t : State, exec (.step sy) s = .next t ∧ t.regs = s.regs ∧ (t.ctx s.cur).phase = .waiting ∧
          (t.ctx s.cur).gang = some { g with arrived := true } ∧ t.launches = s.launches ∧ t.mem = s.mem ∧ t.ls = s.ls)

/-! ### Engines -/

/-- A command that its engine admits, with aligned addresses of the device's form and no shape record, releases at its scope and
stands at the end of the engine's queue with its operands, the engine acquires, and the strand goes on; nothing else changes but what
the operation knows of other operations.
A command to the strand's own engine under another owner, or to an engine of this device whose capability entry does not
admit it, takes CAPFAIL with the entry's number, and the engine gets nothing. On an Easel core a command to its own engine
is ILLEGAL. -/
def Obligations.MatrixCommandIssue : Prop :=
  (∀ (i : Instr) (a b : XReg) (tg : Target) (sy : Sync) (s : State) (cl : Nat) (asid : BitVec 16),
    Expected.engineCommand i = some (a, b, tg, sy) → s.Quiet sy → Expected.Settled s →
    Expected.admitted s i tg = some (cl, asid) → cl < 192 → Instr.rowSource i ≠ some true →
    (∀ p ∈ frescoAddrs i (s.regs.getX a) (s.regs.getX b), p.2 = true ∧ p.1.toNat / 2 ^ 48 % 2 ^ 8 = 0) →
    let f := s.fresco cl
    ∃ u t : State, Expected.Carried s u sy.scope ∧ exec i s = .next (t.goOn sy s.regs) ∧
      t =
        { u with
            seq := s.seq + 2, eop := (s.cur, s.seq), joins := t.joins
            farAcq := Expected.acquired u (25088 + cl) sy.scope
            frescos := TMap.put s.frescos cl
              { f with cmds := f.cmds ++ [Expected.accepted s i (s.regs.getX a) (s.regs.getX b) asid sy.scope] } }) ∧
  (∀ (i : Instr) (a b : XReg) (tg : Target) (sy : Sync) (s : State),
    Expected.engineCommand i = some (a, b, tg, sy) → s.Quiet sy → Expected.Settled s → s.doubleTrap = false →
    (∀ p ∈ frescoAddrs i (s.regs.getX a) (s.regs.getX b), p.2 = true ∧ p.1.toNat / 2 ^ 48 % 2 ^ 8 = 0) →
    (tg = .here → 1536 ≤ coreOf s.cur →
      exec i s = .next (s.trapped .illegal false s.regs.pc (s.ctx s.cur).ir)) ∧
    (tg = .here → coreOf s.cur < 1536 → Expected.admitted s i tg = none →
      ∃ t : State, exec i s = .next (t.trapped .capfail false s.regs.pc 0) ∧
        t.frescos = s.frescos ∧ t.regs = s.regs ∧ t.mem = s.mem ∧ t.cur = s.cur) ∧
    (∀ node clus idx sec, tg = .remote node clus idx sec → node = s.nodeId → Expected.admitted s i tg = none →
      ∃ t : State, exec i s = .next (t.trapped .capfail false s.regs.pc (idx.zeroExtend 64)) ∧
        t.frescos = s.frescos ∧ t.regs = s.regs ∧ t.mem = s.mem ∧ t.cur = s.cur))

/-- A started MSTAT of a strand that lives completes: X(D) of its strand takes the record, and it leaves the engine's queue. Until
then an instruction of the strand that names X(D) stalls in place. MCAP outside user mode sets its entry of the engine that the
strand's ASID owns, releases at its scope and goes on. Nothing else changes. -/
def Obligations.MatrixQueryResult : Prop :=
  (∀ (cl seq : Nat) (s : State) (c : FCmd) (d a : XReg) (sel : BitVec 6) (tg : Target) (sy : Sync),
    let f := s.fresco cl
    let x := s.ctx c.by_.agent
    cl < 192 → f.cmds.find? (fun c => c.seq == seq) = some c → c.started = true → c.instr = .mstat d a sel tg sy →
    c.by_.sig = none → c.by_.agent < 25088 → x.life = c.by_.life →
    exec (.frescoCommandComplete cl seq) s =
      .next { s with
        eop := (c.by_.agent, c.by_.seq)
        ctxs := TMap.put s.ctxs c.by_.agent { x with r := x.r.setX d (f.stat sel.toNat c.xa.toNat) }
        frescos := TMap.put s.frescos cl { f with cmds := f.cmds.filter fun x => x.seq != seq } }) ∧
  (∀ (i : Instr) (s : State) (d : XReg) (v : Word) (sy : Sync),
    Expected.scalarInt i s.regs = some (d, v, sy) → s.followers (coreOf s.cur) = [] →
    decode (s.ctx s.cur).ir (s.ctx s.cur).irExt = .ok i → (∃ x ∈ s.owedX s.cur, x ∈ i.xregs) → exec i s = .next s) ∧
  ∀ (a b : XReg) (idx : BitVec 6) (sy : Sync) (s : State), s.Quiet sy → Expected.Settled s →
    let cl := coreOf s.cur / 8
    let f := s.fresco cl
    let xb := s.regs.getX b
    coreOf s.cur < 1536 → s.regs.mode ≠ .user → f.owner = s.regs.asid →
    admits (s.access (cl / 24) 4 (coreOf s.cur)) false true false s.regs.asid = true →
    ∃ u t : State, Expected.Carried s u sy.scope ∧ exec (.mcap idx a b .here sy) s = .next (t.goOn sy s.regs) ∧
      t =
        { u with
          seq := s.seq + 1, joins := t.joins
          frescos := TMap.put s.frescos cl
            { f with
              caps := TMap.put f.caps idx.toNat
                { valid := xb.getLsbD 63, rights := xb.extractLsb' 56 7, asid := xb.truncate 16
                  secret := (s.regs.getX a).truncate 48 } } }

/-- The engine starts a command that no earlier command in its queue conflicts with, with the banks' VALID as they stand; it
completes an MPROG by taking the microprogram, and the command leaves the queue; it admits a remote command of a job that the network
interface maps, to one address space, under the entry's ASID where its entry and its table admit it, and drops one that they do
not, or whose job's entry of access table 0 spans several address spaces. -/
def Obligations.MatrixEngineEvents : Prop :=
  (∀ (cl seq : Nat) (s : State) (c : FCmd),
    let f := s.fresco cl
    f.cmds.find? (fun c => c.seq == seq) = some c → c.started = false →
    (∀ e ∈ f.cmds.takeWhile (fun c => c.seq != seq), frescoConflict e c = false) →
    exec (.frescoCommandStart cl seq) s =
      .next { s with
        frescos := TMap.put s.frescos cl
          { f with
            cmds := f.cmds.map fun x =>
              if x.seq = seq then { x with started := true, valids := (List.range 4).map fun b => (f.bank b).valid }
              else x } }) ∧
  (∀ (cl seq : Nat) (s : State) (c : FCmd) (a b : XReg) (n : BitVec 3) (tg : Target) (sy : Sync),
    let f := s.fresco cl
    cl < 192 → f.cmds.find? (fun c => c.seq == seq) = some c → c.started = true → c.instr = .mprog a b n tg sy →
    c.by_.sig = none → microBad n.toNat c.xa = false →
    exec (.frescoCommandComplete cl seq) s =
      .next { s with
        eop := (c.by_.agent, c.by_.seq)
        frescos := TMap.put s.frescos cl
          { f with
            prog := { count := n, ops := c.xa, kappa := c.xb.truncate 32, format := false }
            cmds := f.cmds.filter fun x => x.seq != seq } }) ∧
  (∀ (c : RemoteCmd) (s : State) (i : Instr) (p : XReg × XReg × Target × Sync) (slot : Nat),
    c.cluster < 192 → c.die < 8 → decode c.base (some (remoteEng c)) = .ok i →
    Expected.engineCommand i = some p → Instr.rowSource i ≠ some true →
    let mapped (k : Nat) : Prop := (TMap.get 0 (s.die c.die).jobs k).toNat = 2 ^ 63 + c.job
    slot < 64 → mapped slot → (∀ k < slot, ¬ mapped k) →
    let e := (s.access c.die 0 (1984 + slot)).toNat
    let f := s.fresco c.cluster
    let cap := TMap.get Cap.reset f.caps c.cidx.toNat
    let ok := e / 2 ^ 16 % 2 ^ 16 = e % 2 ^ 16 ∧
      admits (s.access (c.cluster / 24) 4 (1984 + slot)) false true false (BitVec.ofNat 16 e) = true ∧ cap.valid = true ∧
      cap.secret = c.secret ∧ cap.rights.getLsbD (Instr.rightBit i) = true
    (¬ ok → exec (.remoteCommandAdmission c) s = .next s) ∧
    (ok → ∃ (t : State) (x : FCmd), exec (.remoteCommandAdmission c) s = .next t ∧
      t =
        { s with
          seq := t.seq, oracle := t.oracle, farAcq := t.farAcq, eop := t.eop
          frescos := TMap.put s.frescos c.cluster { f with cmds := f.cmds ++ [x] } } ∧
      (x.by_.agent = 65536 + c.node.toNat ∧ x.by_.sig = c.sig.map RemoteSig.add) ∧ x.instr = i ∧ x.xa = c.xa ∧ x.xb = c.xb ∧ x.asid = cap.asid ∧ x.started = false))

/-- A multiply in skip mode of clean plane rows, without a microprogram: row by row, an untagged row of the tile stays, a row
whose bank the command does not select or that was not valid takes its accumulator alone, and any other row takes the column
sums of its plane row with its bank's columns; other rows and tiles stay. -/
def Obligations.MatrixMultiplyResult : Prop :=
  ∀ (cl seq : Nat) (s : State) (c : FCmd) (t : TReg) (a b : XReg) (shp zero : Bool) (afmt prec bmask : BitVec 4)
    (tg : Target) (sy : Sync) (req bound : Nat),
    let f := s.fresco cl
    let n := min req bound
    let at_ := c.xa.toNat
    cl < 192 → f.cmds.find? (fun c => c.seq == seq) = some c → c.started = true →
    c.instr = .mmul t a b shp zero true false afmt prec bmask tg sy → c.by_.sig = none → c.rows = .ok (req, bound) →
    bound ≤ 64 → f.prog.count = 0 → at_ + n * rowBytes afmt.toNat ≤ planeSize →
    (∀ i < n, s.planePoisoned cl (at_ - 64 + i) = false ∧ s.rowPoisoned cl at_ afmt.toNat i = false) →
    ∃ u : State, exec (.frescoCommandComplete cl seq) s = .next u ∧
      u = { s with frescos := u.frescos, oracle := u.oracle, eop := u.eop } ∧
      (u.fresco cl).cmds = f.cmds.filter (fun x => x.seq != seq) ∧ (u.fresco cl).banks = f.banks ∧
      (∀ t' < 32, ∀ i < 64, ∀ k < 256,
        (u.fresco cl).tileWord t' i k =
          if t' = t.toNat ∧ i < n then
            let acc := if zero then 0 else f.tileWord t' i k
            let tag := s.tagByte cl at_ i
            if tag < 128 then f.tileWord t' i k
            else if bmask.getLsbD (tag % 4) = true ∧ c.valids.getD (tag % 4) false = true then
              (column false acc
                (rowElems afmt.toNat (if prec = 0 then planeS afmt.toNat else prec.toNat)
                  (s.planeRow cl at_ afmt.toNat i))
                ((f.bank (tag % 4)).column k)).1
            else (missWord false acc).1
          else f.tileWord t' i k)

/-- XSET sets a shadow register, whose RES0 bits stay 0 (that rule and not the whole word is the model's choice, log 68). XGO, which
releases at its scope, with a free entry and valid registers starts the transfer of its units under the next
number and gives its name. Both go on; nothing else changes but what the transfer knows of other operations.
XSTAT gives the word of the transfer that its operand names, or 0; XRESUME runs a suspended one; XCANCEL ends a suspended
one and marks a running one. XRESUME and XCANCEL write 0 for done, 1 for a transfer in another state, 2 for none, 3 for a
request that is refused. -/
def Obligations.TransferCommands : Prop :=
  (∀ (fn : BitVec 6) (d a : XReg) (sy : Sync) (s : State), s.Quiet sy → coreOf s.cur < 1536 →
    exec (.xset fn a sy) s =
      .next (s.goOn sy { s.regs with shadow := TMap.put s.regs.shadow fn.toNat (shadowKeep fn.toNat (s.regs.getX a)) }) ∧
    (let cl := coreOf s.cur / 8
     let u := s.stencil cl
     ∀ e, Expected.Settled s → Stencil.freeEntry u = some e → Ctl.valid s.regs.shadow = true →
      Ctl.units s.regs.shadow ≠ 0 →
      let x : Xfer :=
        { st := .running, seq := u.seq, ctl := s.regs.shadow, by_ := Expected.issuerOf s sy.scope, lsbase := s.regs.lsbase
          lslim := s.regs.lslim, cursor := 0, faults := 0, cause := 0, flags := 0, cancel := false }
      ∃ v t : State, Expected.Carried s v sy.scope ∧
      t =
        { v with
            seq := s.seq + 1, joins := t.joins
            farAcq := Expected.acquired v (25280 + cl) sy.scope
            stencils := TMap.put s.stencils cl
              { seq := if u.seq = BitVec.allOnes 32 then 1 else u.seq + 1, entries := TMap.put u.entries e x } } ∧
      exec (.xgo d sy) s =
        .next (t.goOn sy (s.regs.setX d
          (BitVec.ofNat 64 (s.nodeId.toNat * 2 ^ 56 + cl * 2 ^ 40 + e * 2 ^ 34 + u.seq.toNat)))))) ∧
  (∀ (d a : XReg) (sy : Sync) (s : State), s.Quiet sy →
    let answer (n : Nat) : Host.Outcome State Fault Refusal := .next (s.goOn sy (s.regs.setX d (BitVec.ofNat 64 n)))
    let put (cl e : Nat) (y : Xfer) : Host.Outcome State Fault Refusal :=
      .next (State.goOn
        { s with
          stencils := TMap.put s.stencils cl { s.stencil cl with entries := TMap.put (s.stencil cl).entries e y } }
        sy (s.regs.setX d 0))
    match s.findXfer (s.regs.getX a) with
    | .refused =>
      exec (.xstat d a sy) s = answer 0 ∧ exec (.xresume d a sy) s = answer 3 ∧ exec (.xcancel d a sy) s = answer 3
    | .none =>
      exec (.xstat d a sy) s = answer 0 ∧ exec (.xresume d a sy) s = answer 2 ∧ exec (.xcancel d a sy) s = answer 2
    | .some cl e x =>
      exec (.xstat d a sy) s = .next (s.goOn sy (s.regs.setX d x.word)) ∧
      (x.st = .suspended →
        exec (.xresume d a sy) s = put cl e { x with st := .running, cause := 0 } ∧
        exec (.xcancel d a sy) s = put cl e { x with st := .done, cause := 8 }) ∧
      (x.st = .running →
        exec (.xresume d a sy) s = answer 1 ∧ exec (.xcancel d a sy) s = put cl e { x with cancel := true }) ∧
      (x.st = .done → exec (.xresume d a sy) s = answer 1 ∧ exec (.xcancel d a sy) s = answer 1))

/-- A chunk of a copy within a local store: when every source byte is there and clean, and its strand has not stored since the XGO, its
bytes stand at the destination, no other byte changes, and the transfer is done; when the first source element lies beyond the store, the transfer without a
supervisor is done with LSPROT's cause, and the strand that issued it has the error pending. -/
def Obligations.TransferChunkResult : Prop :=
  ∀ (cl e n k : Nat) (s : State) (x : Xfer), TMap.find (s.stencil cl).entries e = some x → Expected.LocalCopy x n k →
    (x.ctl.src.toNat + n * k ≤ lsSize x.core →
      (∀ j < n * k, s.lsPoisoned x.core (x.ctl.src.toNat + j) = false) →
      (∀ u ∈ s.unseen, u.agent = x.by_.agent → u.near = true ∨ u.seq ≤ x.by_.seq) →
      ∃ t : State, exec (.chunkComplete cl e) s = .next t ∧
        t = { s with ls := t.ls, lsBad := t.lsBad, stencils := t.stencils, oracle := t.oracle, eop := t.eop } ∧
        (∀ a, Memory.read t.ls a =
          if lsKey x.core x.ctl.dst.toNat ≤ a ∧ a < lsKey x.core x.ctl.dst.toNat + n * k then
            Memory.read s.ls (lsKey x.core x.ctl.src.toNat + (a - lsKey x.core x.ctl.dst.toNat))
          else Memory.read s.ls a) ∧
        TMap.find (t.stencil cl).entries e = some { x with st := .done, cursor := n }) ∧
    (lsSize x.core ≤ x.ctl.src.toNat → x.ctl.super = 0 → x.by_.agent < 25088 →
      (s.ctx x.by_.agent).life = x.by_.life → (s.ctx x.by_.agent).phase = .running →
      (s.ctx x.by_.agent).pend.length < 8 →
      ∃ t : State, exec (.chunkFault cl e) s = .next t ∧ t.mem = s.mem ∧
        (TMap.find (t.stencil cl).entries e).map (fun y => (y.st, y.cause)) = some (.done, 6) ∧
        { cause := .lsprot, tval := x.ctl.src, engine := true, seq := x.by_.seq } ∈ (t.ctx x.by_.agent).pend)

/-! ### The dynamic runtime -/

/-- ICPROBE of a receiver that can be read gives the cached result, 1 for a megamorphic site or 0, and ICFILL changes the site's
set; memory and every other register stay, and the reads may switch the context. After a clear on another core a probe gives
either outcome (R337). The clears take the site's set, or every set of the address space, out of the core's own unit, and other
cores' units are told; nothing else changes. A site above 65,535 and a DATA of 0 or 1 are ILLEGAL.
GUARD of a value that can be read goes to its target when the value's kind is not the expected one, else to the next
instruction; it writes nothing. -/
def Obligations.InlineCacheResult : Prop :=
  (∀ (d x a b c : XReg) (n : Word) (sy : Sync) (s : State), s.Quiet sy → 1536 ≤ coreOf s.cur →
    let core := coreOf s.cur
    let asid := s.regs.asid
    let ic := (s.core core).ic
    let site := (s.regs.getX x).truncate 16
    let illegal : Host.Outcome State Fault Refusal := .next (s.trapped .illegal false s.regs.pc (s.ctx s.cur).ir)
    (∀ shape kind, (s.ctx s.cur).lines = [] → Expected.Sees s (s.regs.getX a) shape kind →
      (n.toNat < 65536 →
        ∃ (t : State) (v : Word), exec (.icprobe d a b n sy) s = .next t ∧ Expected.Keeps s t ∧ t.mem = s.mem ∧
          (t.core core).ic = ic ∧ t.regs = { s.regs.setX d v with pc := nextPc s.regs.pc sy } ∧
          (v = Expected.probed s core asid (n.truncate 16) shape ((s.regs.getX b).truncate 3) ∨
            (Expected.clearedElsewhere s core asid (n.truncate 16) ∧ v = 0))) ∧
      (1 < (s.regs.getX c).toNat →
        ∃ t : State, exec (.icfill x a b c sy) s = .next t ∧ Expected.Keeps s t ∧ t.mem = s.mem ∧
          (t.core core).ic =
            TMap.put ic (site.toNat % 1024)
              (Expected.filled (Expected.owned s core asid site) asid site
                { rshape := shape, atag := (s.regs.getX b).truncate 3, data := s.regs.getX c, cleared := false }) ∧
          t.regs = { s.regs with pc := nextPc s.regs.pc sy })) ∧
    (∃ t : State, exec (.icfillSite x sy) s = .next (t.goOn sy s.regs) ∧ t = { s with cores := t.cores } ∧
      ∀ k, t.core k =
        if k = core then
          { s.core k with
            ic := if (Expected.owned s core asid site).isSome then TMap.del ic (site.toNat % 1024) else ic }
        else Expected.flagged (s.core k) fun y => decide (y.asid = asid ∧ y.site = site)) ∧
    (∃ t : State, exec (.icfillAll sy) s = .next (t.goOn sy s.regs) ∧ t = { s with cores := t.cores } ∧
      ∀ k, t.core k =
        if k = core then { s.core k with ic := ic.filter fun p => p.2.asid != asid }
        else Expected.flagged (s.core k) fun y => decide (y.asid = asid)) ∧
    (s.doubleTrap = false →
      (65536 ≤ n.toNat → exec (.icprobe d a b n sy) s = illegal) ∧
      ((s.regs.getX c).toNat ≤ 1 → exec (.icfill x a b c sy) s = illegal))) ∧
  (∀ (a b : XReg) (off : Word) (sy : Sync) (s : State) (shape kind : BitVec 32), s.Quiet sy → (s.ctx s.cur).lines = [] →
    Expected.Sees s (s.regs.getX a) shape kind →
    ∃ t : State, exec (.guard a b off sy) s = .next t ∧ Expected.Keeps s t ∧ t.mem = s.mem ∧
      t.regs =
        { s.regs with
          pc := if kind ≠ (s.regs.getX b).truncate 32 then s.regs.pc + 8 * off else nextPc s.regs.pc sy })

/-- ALLOC with room in the nursery stores the object's words, advances TOP and gives the object's address; without room it
takes SYSCALL with 2^63 + size in sr.tval and has no effect. -/
def Obligations.AllocResult : Prop :=
  ∀ (d a b : XReg) (sy : Sync) (s : State), s.Quiet sy → 1536 ≤ coreOf s.cur →
    let desc := s.regs.getX a
    let top := BitVec.ofNat 64 (Expected.localValue s desc 8)
    let lim := Expected.localValue s (desc + 8) 8
    let size := 16 * ((s.regs.getX b).toNat % 2 ^ 16 + 1)
    let stores := Expected.objectStores top (s.regs.getX b)
    desc.toNat % 16 = 0 → Expected.LocalAccess s true true desc 8 → Expected.LocalAccess s true false (desc + 8) 8 →
    Expected.LocalClean s desc 8 → Expected.LocalClean s (desc + 8) 8 → top.toNat % 16 = 0 →
    (top.toNat + size ≤ lim → Expected.Bufferable s (stores.map (·.1)) 8 →
      ∃ t u : State, exec (.alloc d a b sy) s = .next (t.goOn sy (s.regs.setX d top)) ∧
        u.ctx s.cur = Expected.pushes (s.ctx s.cur) 8 none false stores s.seq ∧
        u = { s with ctxs := u.ctxs, seq := s.seq + stores.length } ∧ (∀ x, x ≠ s.cur → u.ctx x = s.ctx x) ∧
        Expected.LocalWritten u t [(desc.toNat, top.toNat + size)] 8) ∧
    (lim < top.toNat + size → s.doubleTrap = false →
      exec (.alloc d a b sy) s = .next (s.trapped .syscall false s.regs.pc (BitVec.ofNat 64 (2 ^ 63 + size))))

/-! ### Collectives and messages -/

/-- NRED, NCORR and NSEND of a clean descriptor that their rules admit hand their operands and the descriptor's words to the
Glaze node, and the strand goes on; nothing else changes.
MSG leaves its context WAITING for its answer, and the message is with the Glaze node: a tagged one with its tag and node,
an append with the ring's words and the value of TAKE as its ticket, to which it adds 1. -/
def Obligations.CollectiveIssue : Prop :=
  (∀ (d a b : XReg) (isMax scale : Bool) (ty : Ty) (pos : BitVec 2) (sy : Sync) (s : State) (pa : Nat), s.Quiet sy →
    Expected.Idle s →
    let r := s.regs
    let id := s.seq + 1
    let by_ := Expected.issuerOf s sy.scope
    let w := Expected.recordWord s pa
    let given (i : Instr) (g : Glaze) : Prop :=
      ∃ t : State, exec i s = .next t ∧ Expected.Keeps { s with glaze := g } t ∧ t.mem = s.mem ∧
        t.regs = { r with pc := nextPc r.pc sy }
    let gid := r.grp.toNat / 2 ^ (16 * pos.toNat) % 2 ^ 8
    (Expected.Record s (r.getX b) 64 pa → Expected.ReductionDesc w → (ty = .i32 ∨ ty = .f32 ∨ ty = .bf16) →
      (r.getX a).toNat % (ty.bits / 8) = 0 → r.grp.getLsbD (16 * pos.toNat + 15) = true →
      s.groupSize s.cur gid ≤ 1024 →
      given (.nred isMax ty pos a b sy)
        { s.glaze with
          nreds := TMap.put s.glaze.nreds id
            { by_ := by_, isMax := isMax, ty := ty, src := r.getX a, words := Expected.recordWords s pa 8
              member := r.rank.toNat / 2 ^ (16 * pos.toNat) % 2 ^ 16, size := s.groupSize s.cur gid, gid := gid
              num := r.launch } }) ∧
    (Expected.Record s (r.getX a) 64 pa → Expected.ReductionDesc w →
      given (if scale then .ncorrScale d a sy else .ncorrApply d a sy)
        { s.glaze with
          ncorrs := TMap.put s.glaze.ncorrs id
            { by_ := by_, scale := scale, d := d, words := Expected.recordWords s pa 8 } }) ∧
    (Expected.Record s (r.getX b) 32 pa → Expected.SendDesc false w →
      given (.nsend a b sy)
        { s.glaze with
          nsends := TMap.put s.glaze.nsends id
            { by_ := by_, route := false, src := r.getX a, words := Expected.recordWords s pa 4, index := r.index } }) ∧
    ∀ pb, Expected.Record s (r.getX b) 32 pa → Expected.SendDesc true w →
      Expected.Translates s (s.reqOf s.cur) .load (w 0) pb → (s.ctx s.cur).gang.isSome = true →
      given (.nsendRoute a b sy)
        { s.glaze with
          nsends := TMap.put s.glaze.nsends id
            { by_ := by_, route := true, src := r.getX a, words := Expected.recordWords s pa 4, index := r.index } }) ∧
  (∀ (d a b c : XReg) (sy : Sync) (s : State), s.Quiet sy → Expected.Idle s →
    let r := s.regs
    let id := s.seq + 1
    let xc := (r.getX c).toNat
    let by_ := Expected.issuerOf s sy.scope
    let sent (t : State) (m : Msg) : Prop :=
      Expected.Keeps { s with glaze := { s.glaze with msgs := TMap.put s.glaze.msgs id m } } t ∧
      t.regs = { r with pc := nextPc r.pc sy } ∧ (t.ctx s.cur).phase = .waiting ∧
      ((t.ctx s.cur).wait.map (·.kind)) = some (.msg id)
    (xc / 2 ^ 16 % 2 ^ 40 = 0 →
      ∃ t : State, exec (.msgTag d a b c sy) s = .next t ∧ t.mem = s.mem ∧
        sent t
          { by_ := by_, tag := some (r.getX b, (r.getX c).extractLsb' 56 8), d := d, words := [], src := r.getX a
            bytes := xc % 2 ^ 16, ticket := none, written := false, index := r.index }) ∧
    ∀ pa pt, Expected.Record s (r.getX b) 64 pa → Expected.RingDesc (Expected.recordWord s pa) xc → xc < 2 ^ 16 →
      let take := Expected.recordWord s pa 1
      let q : Req := { die := dieOf s.cur, asid := r.asid, user := decide (r.mode = .user), master := 1952 + dieOf s.cur }
      take.toNat % 8 = 0 → Expected.Translates s q (.counter true true) take pt → Expected.Clean s pt 8 →
      Expected.KeyStands s pt → (∀ k ∈ (s.ctx s.cur).owner, ∀ l ∈ TMap.find s.launches k, l.gang = false) →
      admits (s.access (paDie pt) 1 q.master) true true false r.asid = true →
      Expected.memValue s pt 8 + 1 < 2 ^ 64 →
      Expected.Unwatched s (.home pt) →
      ∃ t : State, exec (.msgApp d a b c sy) s = .next t ∧
        (∀ x, Memory.read t.mem x =
          if pt ≤ x ∧ x < pt + 8 then Expected.byteOf (Expected.memValue s pt 8 + 1) (x - pt) else Memory.read s.mem x) ∧
        sent t
          { by_ := by_, tag := none, d := d, words := Expected.recordWords s pa 8, src := r.getX a, bytes := xc
            ticket := some (Expected.memValue s pt 8), written := false, index := r.index })

/-! ### Events -/

/-- The events of a context: the quantum in force ends at an instruction boundary and the core switches; its reference returns; its
timeout comes, with status 2, or 0 of a wait that is satisfied by then; its lease reaches the bound, its stores checked; and once its last store and operation are complete it is IDLE, or
FREE where it belongs to no launch. Nothing but contexts and cores changes. -/
def Obligations.ContextEvents : Prop :=
  ∀ (s : State) (a : Nat),
    let c := s.ctx a
    let goes (t : State) : Prop :=
      t = { s with ctxs := t.ctxs, cores := t.cores } ∧ (t.ctx a).r = c.r ∧ (t.ctx a).wait = none ∧
      ((t.ctx a).phase = .ready ∨ (t.ctx a).phase = .running)
    (∀ core i, Expected.RunsAlone s core i → (s.core core).bound ≠ 0 → (s.ctx (16 * core + i)).prog.whole = true →
      ∃ t : State, exec (.quantumExpiry core) s = .next t ∧ t = { s with ctxs := t.ctxs, cores := t.cores } ∧
        Expected.Switched s t core i ∧ (t.ctx (16 * core + i)).r = (s.ctx (16 * core + i)).r) ∧
    (c.phase = .waiting → ∀ w, c.wait = some w →
      (w.kind = .ref → ∃ t : State, exec (.referenceComplete a) s = .next t ∧ goes t) ∧
      (∀ d, w.kind = .cwait → w.deadline = some d → d ≤ s.time →
        (s.satWait w = false →
          ∃ t : State, exec (.cwaitTimeout a) s = .next t ∧ goes t ∧ (t.ctx a).prog.ans = some (.cwait 2 0)) ∧
        (s.satWait w = true →
          ∃ t : State, exec (.cwaitTimeout a) s = .next t ∧ (t.ctx a).prog.ans = some (.cwait 0 (s.firstSat w)) ∧
            t.mem = s.mem ∧ t.cells = s.cells))) ∧
    (∀ l ∈ c.leases, l.live = true → c.lines = [] →
      ∃ t : State, exec (.leaseBoundExpiry a l.line) s = .next t ∧ t = { s with ctxs := t.ctxs, cores := t.cores } ∧
        (t.ctx a).leases = c.leases.map fun x => if x.live ∧ x.line = l.line then { x with live := false } else x) ∧
    (c.phase = .draining → c.lines = [] → c.farw = [] →
      (s.engineBusy true fun b => s.ofCtx a b) = false → (s.core (coreOf a)).failed = false →
      ∃ t : State, exec (.drainComplete a) s = .next t ∧ t = { s with ctxs := t.ctxs } ∧
        (t.ctx a).phase = (if c.owner = none then .free else .idle) ∧ ∀ b, b ≠ a → t.ctx b = s.ctx b)

/-- A continuation record that a context can take, at the head of those that any context of its die can take, starts the
context's next strand; the head of a level that has waited moves to the tail of the next level; a START record starts the
strand that it describes in a FREE context. -/
def Obligations.StrandStarts : Prop :=
  ∀ (s : State) (a : Nat),
    let die := dieOf a
    let started (t : State) (pc : Word) (asid : BitVec 16) : Prop :=
      ((t.ctx a).phase = .ready ∨ (t.ctx a).phase = .running) ∧ (t.ctx a).r.pc = pc ∧ (t.ctx a).r.asid = asid ∧
      (t.ctx a).lines = [] ∧ (t.ctx a).pend = [] ∧ (t.ctx a).leases = [] ∧ t.mem = s.mem
    (∀ l i r e, l < 8 → ((s.die die).queue l).recs[i]? = some (r, e) → s.takes a r = true →
      (∀ m, l < m → m < 8 → ∀ p ∈ ((s.die die).queue m).recs, s.someTakes die p.1 = false) →
      (∀ j < i, ∀ p, ((s.die die).queue l).recs[j]? = some p → s.someTakes die p.1 = false) →
      ((s.die die).queue l).waiting = [] →
      ∃ t : State, exec (.continuationTake a) s = .next t ∧ started t r.code r.asid ∧
        (t.ctx a).r.getX 1 = r.frame ∧ (t.ctx a).r.getX 2 = r.join ∧ (t.ctx a).join = some r.join ∧
        ((t.die die).queue l).recs = ((s.die die).queue l).recs.eraseIdx i) ∧
    (∀ d l r e rest, l < 7 → ((s.die d).queue l).recs = (r, e) :: rest → ((s.die d).queue l).waiting = [] →
      let up := (s.die d).queue (l + 1)
      up.cfg.getLsbD 5 = true → up.recs.length < 2 ^ (up.cfg.toNat % 32) →
      ∃ t : State, exec (.continuationAging d l) s = .next t ∧ ((t.die d).queue l).recs = rest ∧
        ((t.die d).queue (l + 1)).recs = up.recs ++ [(r, s.time)] ∧ ((t.die d).queue (l + 1)).tail = up.tail + 1 ∧
        t.ctxs = s.ctxs) ∧
    (∀ v : Word, isAgent a = true → 1536 ≤ coreOf a → (s.ctx a).phase = .free →
      let pa := v.toNat / 64 * 64
      let w := Expected.recordWord s pa
      let slots := (w 3).toNat / 2 ^ 32 % 2 ^ 9
      Expected.Clean s pa 64 → s.inModule pa = true → w 7 = 0 → (w 3).toNat / 2 ^ 16 % 2 ^ 16 = 0 →
      (w 3).toNat / 2 ^ 41 % 2 ^ 22 = 0 → slots ≤ 256 → w 4 = 0 → s.freeBases (coreOf a) slots ≠ [] →
      admits (s.access (paDie pa) 0 (coreOf a)) true false false ((w 3).truncate 16) = true →
      ∃ t : State, exec (.easelStart a v) s = .next t ∧ started t (w 0) ((w 3).truncate 16) ∧
        (t.ctx a).r.getX 2 = w 2 ∧ (t.ctx a).r.param = w 1 ∧
        (t.ctx a).r.mode = (if (w 3).getLsbD 63 then .kernel else .user) ∧ (t.ctx a).nslots = slots ∧
        (t.ctx a).start =
          some { ref := w 5, gen := BitVec.ofNat 16 ((w 6).toNat / 2 ^ 48), inc := BitVec.ofNat 48 ((w 6).toNat % 2 ^ 48) })

/-- What homes do: of a line of plain stores that its home admits the first ones are written, in order, at least one; an add to a cell counts; a remote write
that its job's entry and its page admit is written, and one that does not authenticate is logged; a waiting context whose
poll finds its counters satisfied goes on; and a configuration register takes its fields. A remote access is translated here
whatever NODE its page bears. -/
def Obligations.HomeEvents : Prop :=
  ∀ (s : State),
    (∀ (a : Nat) (l : SLine) (pa : Nat), (s.ctx a).lines = [l] → l.faulted = none → l.queued = none →
      l.va.toNat % 256 = 0 → (∀ o ∈ l.ops, o.red = none ∧ o.off + o.size ≤ 256) → (l.ops.map (·.seq)).Nodup →
      s.primer.region = [] →
      let q : Req := { s.reqOf a with asid := l.asid, user := l.ops.any fun o => o.mode == .user }
      Expected.Translates s q .store l.va pa →
      (∀ x, Expected.Caches s (coreOf a) l.asid l.va x →
        x.place q l.va = .ok (.phys pa) ∧ s.cached (dieOf a) l.asid l.va ≠ []) →
      s.leasedByOther a pa = false → s.linkUp pa = true → Expected.NoPartials s pa → Expected.Readable s q l.va pa →
      ∃ (t : State) (n : Nat), exec (.storeHomeCheck a) s = .next t ∧ (l.ops ≠ [] → 1 ≤ n) ∧
        (t.ctx a).lines.flatMap (·.ops) = l.ops.drop n ∧ (t.ctx a).r = (s.ctx a).r ∧ (∀ b, b ≠ a → t.ctx b = s.ctx b) ∧
        ∀ x, Memory.read t.mem x =
          ((l.ops.take n).foldl
            (fun b o =>
              if pa + o.off ≤ x ∧ x < pa + o.off + o.size then some (Expected.byteOf o.data.toNat (x - (pa + o.off)))
              else b)
            none).getD (Memory.read s.mem x)) ∧
    (∀ (r : AddReq) (k x : Nat), Expected.CellRef s r.ref k x → r.amount < 2 ^ 48 → Expected.Fits s k x r.amount r.gen →
      ∃ t : State, exec (.counterAddAtHome r) s = .next t ∧
        t = { s with cells := t.cells, times := t.times, joins := t.joins } ∧
        Expected.Grown s t k x r.amount) ∧
    (∀ (r : RemoteAcc), r.die < 8 →
      (r.authentic = false →
        ((s.die r.die).irqctr = 0 ∨
          ∃ k x, Expected.CellRef s (s.die r.die).irqctr k x ∧ (s.cell k x).v.toNat + 1 < 2 ^ 64) →
        ∃ t : State, exec (.remoteAccess r) s = .next t ∧ (t.die r.die).eloghead = (s.die r.die).eloghead + 1) ∧
      ∀ slot bs asid pa, r.authentic = true → slot < 64 →
        (TMap.get 0 (s.die r.die).jobs slot).toNat = 2 ^ 63 + r.job →
        (∀ k < slot, (TMap.get 0 (s.die r.die).jobs k).toNat ≠ 2 ^ 63 + r.job) →
        (s.access r.die 0 (1984 + slot)).toNat % 2 ^ 16 = asid →
        (s.access r.die 0 (1984 + slot)).toNat / 2 ^ 16 % 2 ^ 16 = asid → r.op = .write bs →
        Expected.Writes s { die := r.die, asid := BitVec.ofNat 16 asid, user := false, master := 1984 + slot }
          (65536 + r.node.toNat) (BitVec.ofNat 64 (s.nodeId.toNat * 2 ^ 56 + r.va.toNat % 2 ^ 56)) bs.length pa →
        ∃ t : State, exec (.remoteAccess r) s = .next t ∧ Expected.Wrote s t pa bs ∧ t.ctxs = s.ctxs) ∧
    (∀ (a : Nat) (w : Wait), (s.ctx a).phase = .waiting → (s.ctx a).wait = some w → (w.kind = .field ∨ w.kind = .cwait) →
      (∃ y ∈ w.watches, y.listed = false) → s.satWait w = true →
      ∃ t : State, exec (.waitPoll a) s = .next t ∧
        t = { s with ctxs := t.ctxs, cores := t.cores, times := t.times, joins := t.joins, oracle := t.oracle } ∧
        (t.ctx a).wait = none ∧
        ((t.ctx a).phase = .ready ∨ (t.ctx a).phase = .running) ∧
        (t.ctx a).r = { (s.ctx a).r with slots := (t.ctx a).r.slots }) ∧
    ∀ (d : Nat) (v : Word), d < 8 →
      let x := s.die d
      let die (y : Die) : Host.Outcome State Fault Refusal := .next ((Upd.die d y).apply s)
      let aligned := v - BitVec.ofNat 64 (v.toNat % 8)
      exec (.registerWrite false d 0x300 v) s = die { x with rootbase := v } ∧
      exec (.registerWrite false d 0x400 v) s = die { x with leaseBound := v.truncate 16 } ∧
      exec (.registerWrite false d 0x500 v) s = die { x with irqctr := v } ∧
      exec (.registerWrite true 0 (0x40000 + 16 * d) v) s = die { x with kvec := aligned } ∧
      exec (.registerWrite true 0 (0x40008 + 16 * d) v) s = die { x with mvec := aligned } ∧
      exec (.registerWrite true 0 (0x20100 + 8 * d) v) s =
        .next { s with
          agenda := s.agenda.takeWhile Turn.isEvent ++ .event (.notify d) :: s.agenda.dropWhile Turn.isEvent }

/-- A system call by the ring: the parked strand gets its ticket from TAKE; once FREE allows it, and no lower ticket waits for
its turn alone, the record stands in the ring and POSTED has counted; the reply with its ticket lets the strand go on with the
value written before, and any other write to REPLY changes nothing. -/
def Obligations.SystemCallEvents : Prop :=
  ∀ (s : State) (a : Nat) (w : Wait),
    let d := s.die (dieOf a)
    let log2n := d.sysring.toNat % 16
    (s.ctx a).wait = some w →
    (w.kind = .sysPark none → w.watches = [] → w.all = true → d.sysring.getLsbD 4 = true →
      ∀ k x, Expected.CellRef s d.systake k x → (s.cell k x).v.toNat + 1 < 2 ^ 64 →
      ∃ t : State, exec (.syscallPost a) s = .next t ∧ Expected.Grown s t k x 1 ∧
        (t.ctx a).wait =
          some { kind := .sysPark (some (s.cell k x).v.toNat), watches := [], all := true, deadline := none } ∧
        (t.ctx a).r = (s.ctx a).r ∧
        t.mem = s.mem) ∧
    (∀ n, w.kind = .sysPark (some n) → w.watches = [] → w.all = true → d.sysring.getLsbD 4 = true →
      ∀ k x k' x' pa, Expected.CellRef s d.sysfree k x → k = coreOf a → Expected.CellRef s d.sysposted k' x' →
      s.lowerTicket a n = false → n + 1 ≤ (s.cell k x).v.toNat + 2 ^ log2n → (s.cell k' x').v.toNat + 1 < 2 ^ 64 →
      log2n ≤ 10 →
      Expected.Writes s { die := dieOf a, asid := d.sysasid, user := false, master := 1976 } a
        (BitVec.ofNat 64 (d.sysring.toNat / 2 ^ 12 * 2 ^ 12 + 64 * (n % 2 ^ log2n))) 64 pa →
      ∃ t : State, exec (.syscallPost a) s = .next t ∧ Expected.Grown s t k' x' 1 ∧
        ((t.ctx a).wait.map (·.kind)) = some (.sysPost n) ∧ (t.ctx a).r = (s.ctx a).r ∧
        Expected.Wrote s t pa (wordsBytes (s.callRecord a n))) ∧
    ∀ n (word1 : Word), w.kind = .sysPost n → isAgent a = true →
      (word1.getLsbD 63 = true → word1.toNat % 2 ^ 32 = n % 2 ^ 32 →
        ∃ t : State, exec (.syscallReply a word1) s = .next t ∧ t = { s with ctxs := t.ctxs, cores := t.cores } ∧
          (t.ctx a).wait = none ∧ (t.ctx a).prog.ans = some (.value (s.ctx a).replyReg) ∧ (t.ctx a).r = (s.ctx a).r) ∧
      (¬ (word1.getLsbD 63 = true ∧ word1.toNat % 2 ^ 32 = n % 2 ^ 32) → exec (.syscallReply a word1) s = .next s)

/-- A pre-emption: the request captures its record; the context halts at its instruction and keeps its state and registers, a load
whose data is outstanding those before it; and once it has drained its image stands in memory, its context is FREE, and DONE has received its add. -/
def Obligations.PreemptionEvents : Prop :=
  ∀ (s : State) (a : Nat), isAgent a = true →
    let c := s.ctx a
    let q : Req := { die := dieOf a, asid := c.r.asid, user := false, master := coreOf a }
    (s.core (coreOf a)).trace = .none → s.followers (coreOf a) = [] → c.gang = none →
    (∀ v ws, c.preempt = none → Expected.Reads s q a (v - BitVec.ofNat 64 (v.toNat % 64)) ws → ws.length = 8 →
      ∃ t : State, exec (.preemptRequest a v) s = .next t ∧ (t.ctx a).r = c.r ∧ t.mem = s.mem ∧
        (t.ctx a).preemptReg = v - BitVec.ofNat 64 (v.toNat % 64) ∧
        (t.ctx a).preempt =
          some
            { id := s.seq, asid := c.r.asid, image := ws.getD 0 0, isize := ws.getD 1 0, halted := false
              done :=
                { ref := ws.getD 2 0, gen := BitVec.ofNat 16 ((ws.getD 3 0).toNat / 2 ^ 48)
                  inc := BitVec.ofNat 48 ((ws.getD 3 0).toNat % 2 ^ 48) } }) ∧
    ∀ p, c.preempt = some p →
      (p.halted = false → c.phase.alive = true → (∀ w r, c.wait = some w → w.kind ≠ .spawn r) → c.prog.boundary = true →
        c.prog.lease = none → c.r.mode ≠ .monitor →
        ∃ t : State, exec (.contextHalt a) s = .next t ∧ t = { s with ctxs := t.ctxs, cores := t.cores } ∧
          (t.ctx a).preempt = some { p with halted := true } ∧
          ((∀ w b, c.wait = some w → w.kind = .ref → c.before ≠ some b) →
            (t.ctx a).phase = c.phase ∧ (t.ctx a).wait = c.wait ∧ (t.ctx a).r = c.r) ∧
          ∀ w b, c.wait = some w → w.kind = .ref → c.before = some b → c.phase = .waiting →
            (t.ctx a).phase = .ready ∧ (t.ctx a).wait = none ∧ (t.ctx a).r = b.r) ∧
      ∀ k x pa, p.halted = true → c.phase.alive = true → c.lines = [] → c.farw = [] → c.leases = [] →
        s.Ordered → (∀ b, b ≠ a → (s.ctx b).preempt = none) →
        (s.engineBusy true fun b => s.ofCtx a b) = false →
        let image := (s.image 0 [a]).1 ++ (s.image 0 [a]).2
        image.length ≤ p.isize.toNat → Expected.Writes s { q with asid := p.asid } a p.image image.length pa →
        Expected.CellRef s p.done.ref k x → Expected.Fits s k x p.done.inc.toNat (some p.done.gen) →
        ∃ t : State, exec (.saveComplete a) s = .next t ∧ Expected.Wrote s t pa image ∧
          Expected.Grown s t k x p.done.inc.toNat ∧ (t.ctx a).phase = .free ∧ (t.ctx a).preempt = none

/-- The queues: NOTIFY lets an idle thread read WRIDX and a busy one hold it; a map takes the descriptor's NEXT words, an unmap
gives them back; WAITC and FENCE wait for their counter or retire, SIGC adds once for all dies. -/
def Obligations.QueueEvents : Prop :=
  ∀ (s : State) (slot : Nat), slot < 32 →
    (let th (d : Nat) : Thread := s.thread d slot
     ((∀ d < 8, (th d).mapped = true ∨ (th d).desc = none) →
       ∃ t : State, exec (.notify slot) s = .next t ∧ t = { s with threads := t.threads } ∧
         ∀ d < 8, t.thread d slot =
           if (th d).mapped = false then th d
           else if (th d).st = .idle then { th d with limit := (s.queueOf d slot).wridx }
           else { th d with notified := true }) ∧
     (∀ desc : Word, desc.toNat % 128 = 0 → desc.toNat < 2 ^ 46 → (∀ d < 8, (th d).mapped = false) →
       s.physByte (desc.toNat + 24) = 0 →
       ∃ t : State, exec (.queueMap slot desc) s = .next t ∧ t = { s with threads := t.threads, qcount := t.qcount } ∧
         ∀ d < 8,
           let next := s.physWord (desc.toNat + 64 + 8 * d)
           t.thread d slot =
             { mapped := true, desc := some desc.toNat, next := next, notified := false, st := .idle, limit := next
               unmap := false, remap := none }) ∧
     (∀ desc, desc % 128 = 0 → s.linkUp desc = true →
       (∀ d < 8, (th d).mapped = true ∧ (th d).desc = some desc ∧ (th d).st = .idle ∧ (th d).notified = false ∧
         (th d).next = (th d).limit) →
       ∃ t : State, exec (.queueUnmap slot) s = .next t ∧ (∀ d < 8, (t.thread d slot).mapped = false) ∧
         Expected.Wrote s t (desc + 64) (wordsBytes ((List.range 8).map fun d => (th d).next)))) ∧
    ∀ die < 8,
      let th := s.thread die slot
      let q := s.queueOf die slot
      let waits (i : Instr) (fence : Bool) (ref mark : Word) (deadline : Option Nat) : Prop :=
        ∀ pa v, Expected.WaitRef s (seqReq die q.asid) ref pa v → v < mark.toNat →
          ∃ (t : State) (w : Watch), exec i s = .next t ∧ t.mem = s.mem ∧ t.ctxs = s.ctxs ∧ w.ctr = .home pa ∧
            w.mark = mark ∧ t.thread die slot = { th with st := .waits fence w deadline .open_ }
      let retires (i : Instr) : Prop :=
        ∀ pr pc, Expected.Retires s die slot pr pc →
          ∃ t : State, exec i s = .next t ∧ Expected.Retired s t die slot pr pc ∧ t.cells = s.cells
      (∀ ws, Expected.Packet s die slot ws →
        let w (i : Nat) : Word := ws.getD i 0
        ((w 0) = 3 → w 4 = 0 → w 5 = 0 → w 6 = 0 → w 7 = 0 →
          waits (.waitcPacket die slot) false (w 1) (w 2)
            (if w 3 = BitVec.allOnes 64 then none else some (s.time + (w 3).toNat)) ∧
          ∀ pa v, Expected.WaitRef s (seqReq die q.asid) (w 1) pa v → (w 2).toNat ≤ v →
            retires (.waitcPacket die slot)) ∧
        ((w 0) = 6 → (∀ i < 7, w (i + 1) = 0) →
          waits (.fencePacket die slot) true q.shares
            (BitVec.ofNat 64 (8 * TMap.get 0 s.qcount (8 * th.desc.getD 0 + die))) none) ∧
        ((w 0) = 4 → (w 2).toNat / 2 ^ 48 = 0 → (w 3).toNat / 2 ^ 16 = 0 → w 4 = 0 → w 5 = 0 → w 6 = 0 → w 7 = 0 →
          let n := 2 ^ q.log2n
          ∀ pr pc, Expected.Retires s die slot pr pc → 8 * (th.next.toNat / n) + 7 < 2 ^ 64 →
            (Expected.memValue s pr 8 ≠ 8 * (th.next.toNat / n) + 7 →
              ∃ t : State, exec (.sigcPacket die slot) s = .next t ∧ Expected.Retired s t die slot pr pc ∧
                t.cells = s.cells) ∧
            ∀ k x, Expected.memValue s pr 8 = 8 * (th.next.toNat / n) + 7 →
              Expected.CellRef s (w 1) k x → Expected.Fits s k x (w 2).toNat (some ((w 3).truncate 16)) →
              ∃ t : State, exec (.sigcPacket die slot) s = .next t ∧ Expected.Retired s t die slot pr pc ∧
                Expected.Grown s t k x (w 2).toNat)) ∧
      ∀ fence w deadline, th.st = .waits fence w deadline .open_ → s.satWatch w = true →
        retires (if fence then .fencePacketWake die slot else .waitcWake die slot)

/-- Launches: a KERNEL or RESTORE packet whose structures are read and pass the checks makes its launch and lets the thread place
the die's share; a placed strand begins at the kernel's entry; a share whose strands have all ended frees its contexts
and adds DONE; ARM sets its entry; an accepted tagged message fires its entry at every die. -/
def Obligations.LaunchEvents : Prop :=
  ∀ (s : State) (die slot : Nat),
    let th := s.thread die slot
    let q := s.queueOf die slot
    let placing (i : Instr) (u : State) (l : Launch) (share : List (Nat × Option Nat)) : Prop :=
      ∃ (t : State) (k : Nat) (l' : Launch), exec i s = .next t ∧ (t.thread die slot).st = .placing k ∧ t.mem = u.mem ∧
        TMap.find t.launches k = some l' ∧ l'.words = l.words ∧ l'.num = l.num ∧
        TMap.find l'.perDie die = some { todo := share, placed := 0, complete := false }
    (∀ ws (σ τ : At s) (l : Launch) (place : Option (List Nat)), slot < 32 →
      fetchPacket "KERNEL_PACKET" die slot (fun t => t ≤ 1 || 6 < t) ⟨s, .refl⟩ = .ok (some ws) σ →
      kernelFieldsOk ws = true →
      readLaunch die
        { asid := q.asid, origin := (2 * th.desc.getD 0, th.next.toNat)
          num := BitVec.ofNat 16 (1024 * slot + th.next.toNat % 1024), err := q.err, shares := some q.shares }
        ws σ = .ok (some (l, place)) τ →
      shareOf l.strands l.dieMask place die ≠ [] →
      placing (.kernelPacket die slot) τ.val l (shareOf l.strands l.dieMask place die)) ∧
    (∀ ws (σ τ : At s) (l : Launch),
      fetchPacket "RESTORE_PACKET" die slot (fun t => t == 2) ⟨s, .refl⟩ = .ok (some ws) σ → restoreFieldsOk ws = true →
      readImage die
        { asid := q.asid, origin := (2 * th.desc.getD 0, th.next.toNat), num := 0, err := q.err, shares := some q.shares }
        ws σ = .ok (some l) τ →
      let share := (l.restore.filter fun p => dieOfCore p.2.1 == die).map fun p => (p.1, some p.2.1)
      share ≠ [] → placing (.restorePacket die slot) τ.val l share) ∧
    (∀ k l sh idx entry next rest core i, th.st = .placing k → TMap.find s.launches k = some l → l.atOnce = false →
      TMap.find l.perDie die = some sh → sh.todo = (idx, entry) :: next :: rest → TMap.find l.restore idx = none →
      (∀ u ∈ turnsBefore (s.die die).turn slot, (s.thread die u).st.isPlacing = false) →
      s.placeAt die k sh.placed l entry = some (core, i) →
      ∃ t : State, exec (.strandPlacement die slot) s = .next t ∧
        TMap.find t.launches k =
          some { l with perDie := TMap.put l.perDie die { sh with todo := next :: rest, placed := sh.placed + 1 } } ∧
        let c := t.ctx (16 * core + i)
        (c.phase = .ready ∨ c.phase = .running) ∧ c.owner = some k ∧ c.r.pc = l.entry ∧ c.r.index = BitVec.ofNat 32 idx ∧
        c.r.param = l.param ∧ c.r.asid = l.asid ∧ c.r.launch = l.num ∧ c.r.mode = .user ∧ t.mem = s.mem) ∧
    (∀ k l sh kk x, TMap.find s.launches k = some l → TMap.find l.perDie die = some sh → sh.todo = [] →
      sh.complete = false → l.shares = none → s.Ordered →
      (∀ b, dieOf b = die → (s.ctx b).owner = some k →
        (s.ctx b).phase = .idle ∧ (s.ctx b).preempt = none ∧ s.keptEnded b = false) →
      Expected.CellRef s l.done.ref kk x → Expected.Fits s kk x l.done.inc.toNat (some l.done.gen) →
      ∃ t : State, exec (.shareCompletion die k) s = .next t ∧ Expected.Grown s t kk x l.done.inc.toNat ∧
        (∀ b, dieOf b = die → (s.ctx b).owner = some k → (t.ctx b).phase = .free) ∧
        ∀ y, TMap.find t.launches k = some y → (TMap.find y.perDie die).map (·.complete) = some true) ∧
    (∀ ws tws k x pr pc, Expected.Packet s die slot ws →
      let w (i : Nat) : Word := ws.getD i 0
      let e := (w 0).toNat / 2 ^ 8 % 2 ^ 6
      let psize := (w 4).toNat / 2 ^ 12 % 2 ^ 12
      (w 0).toNat % 2 ^ 8 = 5 → armFieldsOk ws = true → (s.arm die e).due = [] →
      (w 4).toNat % 2 ^ 12 + 8 ≤ psize → psize < 2 ^ ((w 4).toNat / 2 ^ 24 % 16) → tws.length = 8 →
      Expected.Reads s (seqReq die q.asid) (2 ^ 32 + die) (w 2) tws → Expected.CellRef s (tws.getD 5 0) k x →
      Expected.Retires s die slot pr pc →
      ∃ t : State, exec (.armPacket die slot) s = .next t ∧ Expected.Retired s t die slot pr pc ∧
        t.arm die e =
          { valid := (w 0).getLsbD 15, tag := w 1, template := w 2, bufbase := w 3, sizes := w 4, err := w 5
            asid := q.asid, fires := 0, base := (s.cell k x).v, due := [] }) ∧
    ∀ (m : TagMsg) n asid e tws k x, m.die < 8 → n < 64 → (TMap.get 0 (s.die m.die).jobs n).toNat = 2 ^ 63 + m.job →
      (∀ j < n, (TMap.get 0 (s.die m.die).jobs j).toNat ≠ 2 ^ 63 + m.job) →
      (s.access m.die 0 (1984 + n)).toNat % 2 ^ 16 = asid → (s.access m.die 0 (1984 + n)).toNat / 2 ^ 16 % 2 ^ 16 = asid →
      admits (s.access m.die 2 (1984 + n)) false true false (BitVec.ofNat 16 asid) = true → e < 64 →
      let arm := s.arm m.die e
      let nbuf := 2 ^ (arm.sizes.toNat / 2 ^ 28 % 16)
      let bsize := 2 ^ (arm.sizes.toNat / 2 ^ 24 % 16)
      arm.valid = true → arm.tag = m.tag → (∀ j < e, ¬ ((s.arm m.die j).valid = true ∧ (s.arm m.die j).tag = m.tag)) →
      m.payload.length + arm.sizes.toNat / 2 ^ 12 % 2 ^ 12 ≤ bsize → tws.length = 8 →
      Expected.Reads s (seqReq m.die arm.asid) (2 ^ 32 + m.die) arm.template tws → Expected.CellRef s (tws.getD 5 0) k x →
      arm.base.toNat + 8 * ((tws.getD 6 0).toNat % 2 ^ 48) * (arm.fires + 1) ≤
        (s.cell k x).v.toNat + 8 * ((tws.getD 6 0).toNat % 2 ^ 48) * nbuf →
      Expected.Unleased s →
      ∃ t : State, exec (.taggedLaunchMessage m) s = .next t ∧
        ∀ d < 8, (t.arm d e).fires = arm.fires + 1 ∧
          (t.arm d e).due =
            (s.arm d e).due ++
              [{ num := arm.fires, param := arm.bufbase + BitVec.ofNat 64 (arm.fires % nbuf * bsize) }]

/-- What the Glaze nodes do: a contribution's leaf values join its reduction; at its deadline a reduction closes, its result
is written and its DONE add is owed; a late contribution goes to its correction slot and owes its CORR add; an add that is owed
counts once; a plain block and an appended record stand at their places, and when the append's POSTED add has counted its ticket
is the strand's answer; a token record is staged while there is room; NCORR of a scaled result answers 0. -/
def Obligations.GlazeEvents : Prop :=
  ∀ (s : State) (id : Nat),
    let node (b : Issuer) : Req := { die := dieOf b.agent, asid := b.asid, user := b.user, master := 1952 + dieOf b.agent }
    let agent (b : Issuer) : Nat := 25472 + dieOf b.agent
    let bytes (pa n : Nat) : List Byte := (List.range n).map fun i => Memory.read s.mem (pa + i)
    -- no store of the issuer's that is younger than the operation, which may see it or not (R185)
    let sees (b : Issuer) : Prop := ∀ e ∈ s.unseen, e.agent = b.agent → e.near = true → e.seq ≤ b.seq
    (∀ (x : NRed) pa, TMap.find s.glaze.nreds id = some x → Expected.Silent x.by_ → sees x.by_ →
      let n := (wordAt x.words 6).toNat % 2 ^ 32
      Expected.ReadsBytes s (node x.by_) (agent x.by_) x.src (n * (x.ty.bits / 8)) pa → s.findRedu x = none → x.size ≠ 1 →
      (wordAt x.words 4 = BitVec.allOnes 64 ∨ s.time < (wordAt x.words 4).toNat) →
      ∃ (t : State) (rid : Nat) (r : Redu) (vals : List Nat), exec (.nredSourceRead id) s = .next t ∧ t.mem = s.mem ∧
        t.glaze.nreds = TMap.del s.glaze.nreds id ∧ TMap.find t.glaze.redus rid = some r ∧ r.words = x.words ∧
        r.closed = false ∧ r.present = [{ member := x.member, vals := vals }] ∧
        ∀ e < n, vals[e]? =
          some (if x.ty = .bf16 then Expected.memValue s (pa + 2 * e) 2 * 2 ^ 16
            else if x.ty = .i32 ∨ x.ty = .f32 then Expected.memValue s (pa + 4 * e) 4
            else vals.getD e 0)) ∧
    (∀ (r : Redu) pd, TMap.find s.glaze.redus id = some r → r.closed = false →
      wordAt r.words 4 ≠ BitVec.allOnes 64 → (wordAt r.words 4).toNat ≤ s.time →
      let count := (wordAt r.words 6).toNat % 2 ^ 32
      let q : Req := { node r.by_ with die := r.die, master := 1952 + r.die }
      Expected.Writes s q (25472 + r.die) (wordAt r.words 0) (256 + 4 * count) pd →
      ∃ t : State, exec (.reductionDeadline id) s = .next t ∧
        Expected.Wrote s t pd (r.header s.timeW r.result.2 ++ r.result.1.flatMap fun v => natBytes 4 v) ∧
        t.owed =
          s.owed ++
            [{ by_ := r.by_, own := false, die := r.die, agent := 25472 + r.die
               sig :=
                 { ref := wordAt r.words 2, gen := (wordAt r.words 5).extractLsb' 48 16, inc := 1, scope := .system } }] ∧
        TMap.find t.glaze.redus id = some { r with closed := true, present := [] }) ∧
    (∀ n o k x, s.owed[n]? = some o → (∀ p ∈ s.owed.take n, p.by_.seq ≠ o.by_.seq) → Expected.CellRef s o.sig.ref k x →
      Expected.Fits s k x o.sig.inc (some o.sig.gen) →
      ∃ t : State, run s (deliverOwed n) = .next t ∧ Expected.Grown s t k x o.sig.inc ∧ t.owed = s.owed.eraseIdx n ∧
        t.mem = s.mem) ∧
    (∀ (x : Late) pa, TMap.find s.glaze.lates id = some x →
      let count := (wordAt x.words 6).toNat % 2 ^ 32
      Expected.Writes s (node x.by_) (agent x.by_)
        (wordAt x.words 1 + BitVec.ofNat 64 (x.con.member * (64 + 64 * ((count + 15) / 16)))) (64 + 4 * x.con.vals.length)
        pa →
      ∃ t : State, exec (.lateContribution id) s = .next t ∧ t.glaze.lates = TMap.del s.glaze.lates id ∧
        t.owed =
          s.owed ++
            [{ by_ := x.by_, own := false, die := dieOf x.by_.agent, agent := agent x.by_
               sig :=
                 { ref := wordAt x.words 3, gen := (wordAt x.words 5).extractLsb' 32 16, inc := 1, scope := .system } }] ∧
        Expected.memValue t pa 8 =
          ((wordAt x.words 5).toNat % 2 ^ 32 * 2 ^ 32 + 2 ^ 31 + x.con.member) % 2 ^ 64 ∧
        Expected.memValue t (pa + 8) 8 = s.time % 2 ^ 64 ∧
        ∀ e v, x.con.vals[e]? = some v → Expected.memValue t (pa + 64 + 4 * e) 4 = v % 2 ^ 32) ∧
    (∀ (x : NSend) pa ps, TMap.find s.glaze.nsends id = some x → x.route = false → Expected.Silent x.by_ → sees x.by_ →
      let w3 := (wordAt x.words 3).toNat
      let size := 2 ^ (w3 / 2 ^ 8 % 32)
      let w1 := (wordAt x.words 1).toNat
      let n := min (w1 % 2 ^ 32) (size - 64)
      wordAt x.words 2 = 0 → Expected.ReadsBytes s (node x.by_) (agent x.by_) x.src n pa →
      Expected.Writes s (node x.by_) (agent x.by_)
        (wordAt x.words 0 + BitVec.ofNat 64 (w1 / 2 ^ 32 % 2 ^ (w3 % 16) * size)) (64 + n) ps →
      ∃ t : State, exec (.nsendComplete id) s = .next t ∧ t.glaze.nsends = TMap.del s.glaze.nsends id ∧
        Expected.Wrote s t ps
          (wordsBytes [wordAt x.words 1, BitVec.ofNat 64 (s.nodeId.toNat * 2 ^ 56 + x.index.toNat), 0, 0, 0, 0, 0, 0] ++
            bytes pa n)) ∧
    (∀ (k : Token) ws ps, TMap.find s.glaze.tokens id = some k → k.staged = false →
      let q : Req := { die := k.die, asid := k.asid, user := false, master := 1952 + k.die }
      let n := (s.glaze.tokens.filter fun p =>
        p.2.staged && p.2.launch == k.launch && p.2.table == k.table && p.2.die == k.die).length
      Expected.Reads s q (25472 + k.die) k.table ws → ws.length = 5 → n < (ws.getD 4 0).toNat % 2 ^ 32 →
      Expected.Writes s q (25472 + k.die) (ws.getD 3 0 + BitVec.ofNat 64 (n * k.bytes.length)) k.bytes.length ps →
      (∃ a ∈ s.gangLive k.launch, ∀ g, (s.ctx a).gang = some g → g.arrived = false) →
      ∃ t : State, exec (.routeStage id) s = .next t ∧ Expected.Wrote s t ps k.bytes ∧
        TMap.find t.glaze.tokens id = some { k with staged := true }) ∧
    (∀ (m : Msg) ticket, TMap.find s.glaze.msgs id = some m → m.tag = none → m.ticket = some ticket →
      let w4 := (wordAt m.words 4).toNat
      let c := s.ctx m.by_.agent
      (∀ k x pa ps, m.written = false → sees m.by_ → Expected.CellRef s (wordAt m.words 2) k x →
        ticket + 1 ≤ (s.cell k x).v.toNat + 2 ^ (w4 % 16) →
        Expected.ReadsBytes s (node m.by_) (agent m.by_) m.src m.bytes pa →
        Expected.Writes s (node m.by_) (agent m.by_)
          (wordAt m.words 0 + BitVec.ofNat 64 (ticket % 2 ^ (w4 % 16) * 2 ^ (w4 / 2 ^ 8 % 16))) (16 + m.bytes) ps →
        ∃ t : State, exec (.msgAppendComplete id) s = .next t ∧
          t.glaze.msgs = TMap.put s.glaze.msgs id { m with written := true } ∧
          Expected.Wrote s t ps
            (wordsBytes [BitVec.ofNat 64 (ticket + 1),
              BitVec.ofNat 64 (s.nodeId.toNat * 2 ^ 56 + m.bytes * 2 ^ 32 + m.index.toNat)] ++ bytes pa m.bytes)) ∧
      ∀ k' x', m.written = true → Expected.Silent m.by_ → Expected.CellRef s (wordAt m.words 3) k' x' →
        Expected.Fits s k' x' 1 (some (BitVec.ofNat 16 (w4 / 2 ^ 48))) →
        c.life = m.by_.life → c.phase = .waiting → (c.wait.map (·.kind)) = some (.msg id) →
        ∃ t : State, exec (.msgAppendComplete id) s = .next t ∧ t.glaze.msgs = TMap.del s.glaze.msgs id ∧
          Expected.Grown s t k' x' 1 ∧ t.mem = s.mem ∧
          (t.ctx m.by_.agent).r = c.r.setX m.d (BitVec.ofNat 64 ticket) ∧
          ((t.ctx m.by_.agent).phase = .ready ∨ (t.ctx m.by_.agent).phase = .running)) ∧
    ∀ (x : NCorr), TMap.find s.glaze.ncorrs id = some x → Expected.Silent x.by_ →
      s.ofCtx x.by_.agent x.by_ = true →
      let count := (wordAt x.words 6).toNat % 2 ^ 32
      let done (v : Word) (u : State) : Prop :=
        ∃ t : State, exec (.ncorrComplete id) s = .next t ∧ t.glaze.ncorrs = TMap.del s.glaze.ncorrs id ∧ t.mem = u.mem ∧
          (t.ctx x.by_.agent).r = (s.ctx x.by_.agent).r.setX x.d v
      (∀ (v : Word) (τ : At s), (do actFor x.by_; ncorrEffect x [] : M s _) ⟨s, .refl⟩ = .ok (v, []) τ → done v τ.val) ∧
      ∀ pd, sees x.by_ → Expected.ReadsBytes s (node x.by_) (agent x.by_) (wordAt x.words 0) (256 + 4 * count) pd →
        Expected.memValue s (pd + 128) 8 / 2 ^ 31 % 2 = 1 → done 0 s

/-- Errors, links and storage: a first mismatch changes nothing, a second one fails the core and ends its strands; an
uncorrectable error poisons its bytes or loses its counter or bank; a link goes down, trains and counts its reports; a
submitted entry becomes a command, and a command that returns no data completes with its status and owes its add. -/
def Obligations.ErrorAndStorageEvents : Prop :=
  ∀ (s : State),
    (∀ core < 1960, exec (.checkerMismatch core false) s = .next s) ∧
    (∀ core < 1568, Expected.Unleased s → (∀ i < 16, (s.ctx (16 * core + i)).gang = none) →
      ∃ t : State, exec (.checkerMismatch core true) s = .next t ∧ (t.core core).failed = true ∧
        ∀ i < 16, (t.ctx (16 * core + i)).phase.alive = false) ∧
    (∀ pa n, n ≤ 256 → (∀ i < n, s.inModule (pa + i) = true) →
      ∃ t : State, exec (.uncorrectableError (.memory pa n)) s = .next t ∧ t = { s with bad := t.bad } ∧
        ∀ x, NatSet.has t.bad x = (NatSet.has s.bad x || decide (pa ≤ x ∧ x < pa + n))) ∧
    (∀ core addr n, core < 1568 → addr + n ≤ (if core < 1536 then 0x80000 else 0x40000) →
      ∃ t : State, exec (.uncorrectableError (.localStore core addr n)) s = .next t ∧ t = { s with lsBad := t.lsBad } ∧
        ∀ x, NatSet.has t.lsBad x =
          (NatSet.has s.lsBad x || decide (core * 2 ^ 20 + addr ≤ x ∧ x < core * 2 ^ 20 + addr + n))) ∧
    (∀ cl off n, cl < 192 → off + n ≤ 2 ^ 22 →
      ∃ t : State, exec (.uncorrectableError (.plane cl off n)) s = .next t ∧ t = { s with planeBad := t.planeBad } ∧
        ∀ x, NatSet.has t.planeBad x =
          (NatSet.has s.planeBad x || decide (cl * 2 ^ 22 + off ≤ x ∧ x < cl * 2 ^ 22 + off + n))) ∧
    (∀ cl b, cl < 192 → b < 4 →
      ∃ t : State, exec (.uncorrectableError (.bank cl b)) s = .next t ∧ t = { s with frescos := t.frescos } ∧
        ((t.fresco cl).bank b).valid = false) ∧
    (∀ core x, core < 1568 → x < 256 →
      ∃ t : State, exec (.uncorrectableError (.cell core x)) s = .next t ∧ (t.cell core x).v = BitVec.ofNat 64 (2 ^ 64 - 1)) ∧
    (∀ link < 48,
      let d := s.die (link / 6)
      let l := s.link (link / 6) (link % 6)
      let is (y : Link) : Host.Outcome State Fault Refusal :=
        .next ((Upd.die (link / 6) { d with links := TMap.put d.links (link % 6) y }).apply s)
      exec (.linkDown link) s = is { l with up := false } ∧
      (∀ n ≤ 256, exec (.linkTrained link n) s = is { l with up := true, capacity := BitVec.ofNat 16 n }) ∧
      exec (.correctedErrorReport link) s = is { l with corr := if l.corr.toNat = 2 ^ 16 - 1 then l.corr else l.corr + 1 } ∧
      ∀ off < 2 ^ 40,
        let pa := link / 6 * 2 ^ 43 + link % 6 * 2 ^ 40 + off / 256 * 256
        s.inModule pa = true → l.up = true →
        ∃ t : State, exec (.linkPoisonReport link off) s = .next t ∧
          (t.link (link / 6) (link % 6)).uncorr = (if l.uncorr.toNat = 2 ^ 16 - 1 then l.uncorr else l.uncorr + 1) ∧
          (∀ x, NatSet.has t.bad x = (NatSet.has s.bad x || decide (pa ≤ x ∧ x < pa + 256))) ∧ t.ctxs = s.ctxs) ∧
    ∀ die < 8,
      let d := s.die die
      let log2n := d.storq.toNat % 16
      let q (asid : BitVec 16) : Req := { die := die, asid := asid, user := false, master := 1960 + die }
      (∀ (i : Word) ws, 4 ≤ log2n → log2n ≤ 12 → i.toNat = d.storbell.toNat + 1 → ws.length = 16 →
        storageRefusal ws = none →
        Expected.Reads s (q d.storasid) (25480 + die)
          (BitVec.ofNat 64 (d.storq.toNat / 2 ^ 12 * 2 ^ 12 + 128 * (d.storbell.toNat % 2 ^ log2n))) ws →
        ∃ (t : State) (id : Nat), exec (.storageSubmit die i) s = .next t ∧ (t.die die).storbell = i ∧ t.mem = s.mem ∧
          TMap.find t.stor id = some { die := die, asid := d.storasid, words := ws }) ∧
      ∀ id (c : StorCmd) (status : BitVec 16) data pa, TMap.find s.stor id = some c → c.die = die →
        status.toNat < 2 ^ 15 → ¬ ((wordAt c.words 0).toNat % 2 ^ 8 = 2 ∧ status = 0) →
        ((wordAt c.words 0).toNat % 2 ^ 8 = 1 →
          ∃ pd, Expected.ReadsBytes s (q c.asid) (25480 + die) (wordAt c.words 3) (writeLength c) pd) →
        Expected.Writes s (q c.asid) (25480 + die) (wordAt c.words 11) 16 pa →
        ∃ t : State, exec (.storageComplete die id status data) s = .next t ∧ TMap.find t.stor id = none ∧
          t.owed =
            s.owed ++
              [{ by_ := storageIssuer c id, own := false, die := die, agent := 25480 + die
                 sig :=
                   { ref := wordAt c.words 9, gen := (wordAt c.words 10).extractLsb' 48 16
                     inc := (wordAt c.words 10).toNat % 2 ^ 8, scope := .system } }] ∧
          Expected.memValue t (pa + 12) 2 = (wordAt c.words 0).toNat / 2 ^ 16 % 2 ^ 16 ∧
          Expected.memValue t (pa + 14) 2 / 2 = status.toNat

/-- Reset leaves everything at its reset value but the bytes of the modules, whose keys all change, the memory of other
devices, and what is drawn anew; a thermal trip resets. (That module bytes and far memory stay is the model's, logs 1 and 7.)
After reset every context is FREE, with no pending error and no lease; the predicates read all ones (the model's, log 2) and
RM is rne; no slot of a queue is mapped, device time is 0, and the device has latched no node number. -/
def Obligations.ResetResult : Prop :=
  (∀ (s : State), ∃ t : State, exec .reset s = .next t ∧ exec .thermalTrip s = .next t ∧
    t =
      { State.reset with
        mem := s.mem, bad := s.bad, lineKey := s.lineKey, keyPlain := s.keyPlain, far := s.far, farFadds := s.farFadds
        farGen := s.farGen, keyGen := t.keyGen, primer := t.primer, oracle := s.oracle, tick := s.tick, seq := s.seq } ∧
    (∀ k < 128, TMap.get 0 t.keyGen k = TMap.get 0 s.keyGen k + 1) ∧
    t.primer =
      { Primer.reset with
        debugNonce := Config.random s.primer.drawn, tries := s.primer.tries, drawn := s.primer.drawn + 1 }) ∧
  (∀ a, (State.reset.ctx a).phase = .free ∧ (State.reset.ctx a).pend = [] ∧ (State.reset.ctx a).leases = []) ∧
  (∀ die slot, (State.reset.thread die slot).mapped = false) ∧
  State.reset.node = none ∧ State.reset.nodeId = 0 ∧ State.reset.time = 0 ∧ State.reset.still = false ∧
  (∀ n : KReg, (State.reset.ctx 0).r.getK n = BitVec.ofNat 64 (2 ^ 64 - 1)) ∧ (State.reset.ctx 0).r.rm = 1

/-- Primer: a boot request goes out on the first port with a link, and without one the boot has failed; a manifest that is signed for
the request's nonce lets the image be fetched, an image that passes the checks starts the monitor, a failure waits before the next
try, this one counted (the model's reading, log 51); KEYCTL renews one key; a challenge is signed under the key that the seed gives;
the unlock renews every key and enables the debug port's entries of every access table; NODEID latches once; a clock correction changes nothing (the model's,
log 6); Still and the freeze pin stop every clock. -/
def Obligations.PrimerEvents : Prop :=
  ∀ (s : State),
    let p := s.primer
    let failure (p : Primer) : State :=
      { s with
        primer :=
          { p with
            boot := .wait, failures := p.failures + 1, request := none, accepted := none, region := [], regionW := []
            retryAt := s.time + 2 ^ min (p.failures + 1) 6 * 1000000000 } }
    let failed (t : State) : Prop := t = failure p
    (p.boot = .wait → p.retryAt ≤ s.time → exec .bootRetryTimer s = .next { s with primer := { p with boot := .ports } }) ∧
    (p.boot = .ports →
      let p1 := { p with tries := p.tries + 1 }
      let nonce := if p.unlocked then Config.randomZeroed p.drawn else Config.random p.drawn
      run s bootRequest =
        .next
          (match (List.range 16).find? fun port => Config.portLink port p.tries with
          | none => failure p1
          | some port =>
            { s with
              primer :=
                { p1 with
                  boot := .manifest, nonce := nonce, request := some (port, nonce, Config.identity)
                  drawn := p.drawn + 1 } })) ∧
    (∀ m : Manifest, p.boot = .manifest →
      let good := m.nonce = p.nonce ∧
        Config.sha256 m.publicKey = (if Config.opHash = 0 then Config.rootHash else Config.opHash) ∧
        Config.sigOk m.publicKey (Config.manifestBytes m.location m.floor m.keys m.nonce) m.signature = true
      (good → exec (.manifest m) s = .next { s with primer := { p with boot := .image, accepted := some m } }) ∧
      (¬ good → ∃ t, exec (.manifest m) s = .next t ∧ failed t)) ∧
    (∀ img m, p.boot = .image → p.accepted = some m →
      let good := img.length ≤ 2 ^ 26 ∧
        ∃ ks, checkImage img m.keys (if m.floor.toNat ≤ Config.floor.toNat then Config.floor else m.floor) = .ok ks
      (good →
        ∃ t : State, exec (.monitorImageFetched img) s = .next t ∧
          t.primer = { p with boot := .running, floor := m.floor, keys := m.keys, region := img, regionW := [] } ∧
          t.log =
            s.log ++
              [{ hash := Config.sha256 img, magic := BitVec.ofNat 32 (imgMagic img), rollback := imgRollback img
                 time := s.time }] ∧
          (t.ctx 24576).r.mode = .monitor ∧
          ((t.ctx 24576).phase = .ready ∨ (t.ctx 24576).phase = .running)) ∧
      (¬ good → ∃ t, exec (.monitorImageFetched img) s = .next t ∧ failed t)) ∧
    (∀ v : Word,
      (v.getLsbD 63 = true →
        exec (.keyctl v) s =
          .next { s with
            keyGen := TMap.put s.keyGen (v.toNat % 128) (TMap.get 0 s.keyGen (v.toNat % 128) + 1)
            primer := { p with drawn := p.drawn + 1 } }) ∧
      (v.getLsbD 63 = false → exec (.keyctl v) s = .next s) ∧
      (∀ n, s.node = some n → exec (.nodeid v) s = .next s) ∧
      (s.node = none → exec (.nodeid v) s = .next { s with node := some (v.truncate 8) })) ∧
    (∀ nonce,
      let message := Config.challengeBytes nonce
        (Config.sha256 (s.log.flatMap fun m => Config.measureBytes m.hash m.magic m.rollback m.time)) s.log.length
        Config.identity
      exec (.attestationChallenge nonce) s =
        .next { s with
          primer :=
            { p with
              signed := (if p.unlocked then Config.signErased message else Config.signWith Config.devseed message) :: p.signed } }) ∧
    (∀ key sig,
      let good := Config.debugHash ≠ 0 ∧ Config.sha256 key = Config.debugHash ∧
        Config.sigOk key ((List.range 32).map fun i => BitVec.ofNat 8 (p.debugNonce.toNat / 256 ^ i)) sig = true
      (¬ good → exec (.debugUnlock key sig) s = .next s) ∧
      (good →
        ∃ t : State, exec (.debugUnlock key sig) s = .next t ∧ t.ctxs = s.ctxs ∧ t.mem = s.mem ∧
          t.primer = { p with unlocked := true, debugNonce := Config.randomZeroed p.drawn, drawn := p.drawn + 1 } ∧
          (∀ d < 8, ∀ tb < 5, (t.access d tb 1977).getLsbD 63 = true) ∧
          ∀ k < 128, TMap.get 0 t.keyGen k = TMap.get 0 s.keyGen k + 1)) ∧
    (∀ n : Int, -100 ≤ n → n ≤ 100 → exec (.ptpCorrection n) s = .next s) ∧
    exec .still s = .next { s with still := true } ∧
    ((∀ v l, s.agenda ≠ .event (.keyctl v) :: l) → exec .freezePin s = .next { s with still := true }) ∧
    ∃ t : State, exec .freezePin s = .next t ∧ t.still = true ∧ t.mem = s.mem ∧ t.ctxs = s.ctxs

/-- An image that the loader accepts, for a base at a multiple of 64 KiB and pages that are mapped, is installed there and published, and measured; a refused one
leaves nothing; an unloaded one is withdrawn, and gone once no launch runs its kernels. The crack unit, at an arithmetic operation
or comparison of two small integers, puts the result into the frame and goes on at the next operation; where the result does not
fit, and for divd, it enters the runtime's routine with the operands and a link. -/
def Obligations.ProgramEvents : Prop :=
  ∀ (s : State),
    (∀ asid (base : Word) img, base.toNat % 2 ^ 16 = 0 →
      (∀ e, checkImage img s.primer.keys s.primer.floor = .error e → exec (.loadImage asid base img) s = .next s) ∧
      ∀ ks place, checkImage img s.primer.keys s.primer.floor = .ok ks →
        let rs := Expected.imageRanges img base ks
        Expected.Loadable s asid rs place →
        ∃ (t : State) (id : Nat) (i : Image), exec (.loadImage asid base img) s = .next t ∧ t.ctxs = s.ctxs ∧
          (∀ x, Memory.read t.mem x =
            (Expected.pieceByte (Expected.imagePieces rs place) x).getD (Memory.read s.mem x)) ∧
          TMap.find t.images id = some i ∧ i.asid = asid ∧ i.base = base ∧ i.withdrawn = false ∧
          i.kernels = (ks.zipIdx.map fun p => (base + Config.kernelOffset img p.2, p.1.1)) ∧
          t.log =
            s.log ++
              [{ hash := Config.sha256 img, magic := BitVec.ofNat 32 (imgMagic img), rollback := imgRollback img
                 time := s.time }]) ∧
    (∀ id i, TMap.find s.images id = some i → i.withdrawn = false →
      ∃ t : State, exec (.unloadImage id) s = .next t ∧ t = { s with images := t.images } ∧
        ∀ p, p ∈ t.images ↔
          p ∈ TMap.put s.images id { i with withdrawn := true } ∧
          (p.2.withdrawn = false ∨
            ∃ l ∈ s.launches, l.2.asid = p.2.asid ∧ ∃ e ∈ p.2.kernels, e.1 = l.2.ktab)) ∧
    ∀ (a op site dst ra rb : Nat) (bs : List Byte),
      let u : State := { s with fwd := none, cur := a }
      let r := (s.ctx a).r
      let frame (n : Nat) : Word := r.getX 2 + BitVec.ofNat 64 (8 * n)
      let next := BitVec.ofNat 64 (r.pc.toNat / 2 ^ 48 * 2 ^ 48 + (r.pc.toNat + bs.length) % 2 ^ 48)
      let word (n : Nat) : Word := BitVec.ofNat 64 (Expected.localValue u (frame n) 8)
      let readable (va : Word) : Prop := Expected.LocalAccess u true false va 8 ∧ Expected.LocalClean u va 8
      let handler := BitVec.ofNat 64 (0x100 + 8 * (op - 0x80))
      (s.ctx a).straight = false →
      1536 ≤ coreOf a → (s.core (coreOf a)).failed = false → s.runningCtx (coreOf a) = some (a % 16) → u.Alone →
      Expected.CrackAt u bs → takeOp bs = some ({ op := op, args := [(site : Int), dst, ra, rb] }, []) →
      0x87 ≤ op → op ≤ 0x8D → site < 2 ^ 16 → readable (frame ra) → readable (frame rb) →
      (word ra).truncate 3 = (1 : BitVec 3) → (word rb).truncate 3 = (1 : BitVec 3) →
      (∀ v, Expected.smallResult op (word ra) (word rb) = some v → Expected.LocalAccess u false true (frame dst) 8 →
        ∃ t : State, exec (.crackOperation a) s = .next t ∧ t.mem = s.mem ∧ t.regs.pc = next ∧
          (∀ x : XReg, x.toNat < 3 ∨ 7 < x.toNat → t.regs.getX x = r.getX x) ∧ (∀ b, b ≠ a → t.ctx b = s.ctx b) ∧
          ∀ k, Memory.read t.ls k =
            (Expected.lastWrite [(Expected.localKey u (frame dst).toNat, v.toNat)] 8 k).getD (Memory.read s.ls k)) ∧
      (Expected.smallResult op (word ra) (word rb) = none → readable handler →
        ∃ t : State, exec (.crackOperation a) s = .next t ∧ t.mem = s.mem ∧ t.ls = s.ls ∧
          (∀ b, b ≠ a → t.ctx b = s.ctx b) ∧
          t.regs =
            { (((((r.setX 3 (BitVec.ofNat 64 site)).setX 4 (BitVec.ofNat 64 dst)).setX 5 (word ra)).setX 6 (word rb)).setX
                61 next) with
              pc := BitVec.ofNat 64 (Expected.localValue u handler 8) })

/-! ### The whole device -/

/-- A step issues the instruction that a RUNNING context's words in clean near memory decode to: the step is that instruction's
meaning, in the state in which the device time has passed and the words are the context's. -/
def Obligations.StepRunsDecoded : Prop :=
  ∀ (s : State) (core j pa : Nat) (i : Instr) (rest : List Turn),
    s.agenda = .issue core :: rest → s.still = false →
    let u := s.advance rest
    let a := 16 * core + j
    let pc := (u.ctx a).r.pc
    let base := BitVec.ofNat 64 (Expected.memValue u pa 8)
    let ext := if base.getLsbD 55 then some (BitVec.ofNat 64 (Expected.memValue u (pa + 8) 8)) else none
    (u.core core).failed = false → (u.core core).trace = .none → u.runningCtx core = some j → u.rollDueOf a = none →
    u.patches a = [] → u.primer.region = [] → isCrack pc = false → pc.toNat % 8 = 0 → pc.toNat % 256 + 16 ≤ 256 →
    Expected.Translates u (u.reqOf a) .fetch pc pa → Expected.Readable u (u.reqOf a) pc pa → Expected.Clean u pa 16 →
    (∀ k, k = 0 ∨ k = 8 →
      (∀ w ∈ TMap.find (u.core core).icache ((u.ctx a).r.asid.toNat * 2 ^ 64 + pc.toNat + k),
        w.word = BitVec.ofNat 64 (Expected.memValue u (pa + k) 8)) ∧
      ∀ x, Expected.Caches u core (u.ctx a).r.asid pc x →
        x.fetchPlace (u.reqOf a) (pc + BitVec.ofNat 64 k) = .ok (.phys (pa + k)) ∧
          u.cached (dieOf a) (u.ctx a).r.asid pc ≠ []) →
    TMap.find u.codeOld (pa / 8) = none → TMap.find u.codeOld (pa / 8 + 1) = none →
    decode base ext = .ok i →
    ∃ v : State, step s = exec i v ∧
      v = { u with cur := a, fwd := none, ctxs := v.ctxs, cores := v.cores, dies := v.dies, oracle := v.oracle } ∧
      v.ctx a = { u.ctx a with ir := base, irExt := ext } ∧ ∀ b, b ≠ a → v.ctx b = u.ctx b

/-- The words that the spec's examples give decode to their instructions. -/
def Obligations.DecodesWords : Prop :=
  decode 0x0701461C00000000 none = .ok (.div 5 6 7 (syNone)) ∧
  decode 0x0D01461C00000000 none = .ok (.or 5 6 7 (syNone)) ∧
  decode 0x190146000FFFFFFF none = .ok (.slti 5 6 (BitVec.ofInt 64 (-1)) (syNone)) ∧
  decode 0x6000420C00000000 none = .ok (.kand 1 2 3 (syNone)) ∧
  decode 0xD000000000000005 none = .ok (.trapSys 5 (syNone))

/-- What a well-formed instruction is encoded as decodes to it, word for word and byte for byte: no operand loses a bit. -/
def Obligations.DecodeEncode : Prop :=
  ∀ i : Instr, i.wf = true →
    decode (encode i).1 (encode i).2 = .ok i ∧ decodeBytes (encodeBytes i) = .ok (i, (encodeBytes i).length)

/-- The state after reset has the canonical form, and its maps are in order. -/
def Obligations.CanonicalReset : Prop := State.reset.Canonical ∧ State.reset.Ordered

/-- Every step keeps the canonical form of the memories, and the order of the maps of contexts, cores, dies, cells, engines,
launches and threads. -/
def Obligations.CanonicalStep : Prop :=
  ∀ s t : State, step s = .next t → (s.Canonical → t.Canonical) ∧ (s.Ordered → t.Ordered)

/-- No step takes device time back, shortens or rewrites the measurement log, or changes a latched node number, but a reset that
the agenda names. -/
def Obligations.StepKeepsHistory : Prop :=
  ∀ s t : State, step s = .next t →
    (∃ l, s.agenda = .event .reset :: l) ∨ (∃ l, s.agenda = .event .thermalTrip :: l) ∨
    (s.time ≤ t.time ∧ (∃ l, t.log = s.log ++ l) ∧ ∀ n, s.node = some n → t.node = some n)
end

