-- ==== Sys2Proof/Laws/Maps.lean ====
section
/-! SUPPORT. Sorted maps, memories and sets: what a read returns after a write, and that every operation keeps the canonical
form. -/

namespace Sys2Proof.Machine

namespace TMap

variable {α : Type}

@[simp] theorem find_put_same (m : TMap α) (k : Nat) (x : α) : find (put m k x) k = some x := by
  induction m with
  | nil => simp [put, find]
  | cons p r ih =>
    obtain ⟨a, v⟩ := p
    unfold put
    split
    · simp [find]
    · split
      · simp [find]
      · next h1 h2 => simp [find, h2, ih]

theorem find_put_ne (m : TMap α) {k j : Nat} (x : α) (h : j ≠ k) : find (put m k x) j = find m j := by
  induction m with
  | nil => simp [put, find, h]
  | cons p r ih =>
    obtain ⟨a, v⟩ := p
    unfold put
    split
    · simp [find, h]
    · split
      · next h2 => subst h2; simp [find, h]
      · simp [find, ih]

theorem find_put (m : TMap α) (k j : Nat) (x : α) : find (put m k x) j = if j = k then some x else find m j := by
  by_cases h : j = k
  · subst h; simp
  · simp [h, find_put_ne]

theorem get_put (d : α) (m : TMap α) (k j : Nat) (x : α) : get d (put m k x) j = if j = k then x else get d m j := by
  unfold get
  rw [find_put]
  split <;> rfl

@[simp] theorem get_put_same (d : α) (m : TMap α) (k : Nat) (x : α) : get d (put m k x) k = x := by simp [get]

theorem get_put_ne (d : α) (m : TMap α) {k j : Nat} (x : α) (h : j ≠ k) : get d (put m k x) j = get d m j := by
  simp [get_put, h]

@[simp] theorem put_put (m : TMap α) (k : Nat) (x y : α) : put (put m k x) k y = put m k y := by
  induction m with
  | nil => simp [put]
  | cons p r ih =>
    obtain ⟨a, v⟩ := p
    by_cases h1 : k < a
    · simp [put, h1]
    · by_cases h2 : k = a
      · subst h2; simp [put]
      · simp [put, h1, h2, ih]

theorem find_del (m : TMap α) (k j : Nat) : find (del m k) j = if j = k then none else find m j := by
  induction m with
  | nil => simp [del, find]
  | cons p r ih =>
    obtain ⟨a, v⟩ := p
    unfold del
    split
    · next h =>
      subst h
      rw [ih]
      split
      · rfl
      · next h => simp [find, h]
    · next h =>
      unfold find
      rw [ih]
      split
      · next h2 => subst h2; simp [Ne.symm h]
      · rfl

theorem get_set [DecidableEq α] (d : α) (m : TMap α) (k j : Nat) (x : α) :
    get d (set d m k x) j = if j = k then x else get d m j := by
  unfold set
  split
  · next h =>
    subst h
    unfold get
    rw [find_del]
    split <;> rfl
  · exact get_put d m k j x

/-! ### The canonical form -/

/-- Every key is above a bound. -/
def above (b : Nat) (m : TMap α) : Prop := ∀ p ∈ m, b < p.1

theorem sorted_cons (k : Nat) (v : α) (r : TMap α) : sorted ((k, v) :: r) = true ↔ above k r ∧ sorted r = true := by
  induction r generalizing k v with
  | nil => simp [sorted, above]
  | cons p r ih =>
    obtain ⟨a, w⟩ := p
    simp only [sorted, Bool.and_eq_true, decide_eq_true_eq]
    constructor
    · rintro ⟨h1, h2⟩
      refine ⟨?_, h2⟩
      intro q hq
      rcases List.mem_cons.1 hq with rfl | hq
      · exact h1
      · exact lt_trans h1 (((ih a w).1 h2).1 q hq)
    · rintro ⟨h1, h2⟩
      exact ⟨h1 _ (List.mem_cons_self ..), h2⟩

theorem above_put {b k : Nat} {m : TMap α} {x : α} (h : above b m) (hk : b < k) : above b (put m k x) := by
  induction m with
  | nil => intro p hp; simp [put] at hp; subst hp; exact hk
  | cons p r ih =>
    obtain ⟨a, v⟩ := p
    have ha : b < a := h _ (List.mem_cons_self ..)
    have hr : above b r := fun q hq => h q (List.mem_cons_of_mem _ hq)
    unfold put
    split
    · intro q hq
      rcases List.mem_cons.1 hq with rfl | hq
      · exact hk
      · exact h q hq
    · split
      · intro q hq
        rcases List.mem_cons.1 hq with rfl | hq
        · exact hk
        · exact hr q hq
      · intro q hq
        rcases List.mem_cons.1 hq with rfl | hq
        · exact ha
        · exact ih hr q hq

theorem sorted_put {m : TMap α} {k : Nat} {x : α} (h : sorted m = true) : sorted (put m k x) = true := by
  induction m with
  | nil => simp [put, sorted]
  | cons p r ih =>
    obtain ⟨a, v⟩ := p
    obtain ⟨h1, h2⟩ := (sorted_cons a v r).1 h
    unfold put
    split
    · next hk =>
      refine (sorted_cons _ _ _).2 ⟨?_, h⟩
      intro q hq
      rcases List.mem_cons.1 hq with rfl | hq
      · exact hk
      · exact lt_trans hk (h1 q hq)
    · split
      · next hk => subst hk; exact (sorted_cons _ _ _).2 ⟨h1, h2⟩
      · next hk hk2 => exact (sorted_cons _ _ _).2 ⟨above_put h1 (by omega), ih h2⟩

theorem mem_del {m : TMap α} {k : Nat} {p : Nat × α} (h : p ∈ del m k) : p ∈ m := by
  induction m with
  | nil => simp [del] at h
  | cons q r ih =>
    obtain ⟨a, v⟩ := q
    unfold del at h
    split at h
    · exact List.mem_cons_of_mem _ (ih h)
    · rcases List.mem_cons.1 h with rfl | h
      · exact List.mem_cons_self ..
      · exact List.mem_cons_of_mem _ (ih h)

theorem sorted_del {m : TMap α} {k : Nat} (h : sorted m = true) : sorted (del m k) = true := by
  induction m with
  | nil => simp [del, sorted]
  | cons p r ih =>
    obtain ⟨a, v⟩ := p
    obtain ⟨h1, h2⟩ := (sorted_cons a v r).1 h
    unfold del
    split
    · exact ih h2
    · exact (sorted_cons _ _ _).2 ⟨fun q hq => h1 q (mem_del hq), ih h2⟩

theorem mem_put {m : TMap α} {k : Nat} {x : α} {p : Nat × α} (h : p ∈ put m k x) : p = (k, x) ∨ p ∈ m := by
  induction m with
  | nil => left; simpa [put] using h
  | cons q r ih =>
    obtain ⟨a, v⟩ := q
    unfold put at h
    split at h
    · rcases List.mem_cons.1 h with h | h
      · exact .inl h
      · exact .inr h
    · split at h
      · rcases List.mem_cons.1 h with h | h
        · exact .inl h
        · exact .inr (List.mem_cons_of_mem _ h)
      · rcases List.mem_cons.1 h with h | h
        · exact .inr (h ▸ List.mem_cons_self ..)
        · rcases ih h with h | h
          · exact .inl h
          · exact .inr (List.mem_cons_of_mem _ h)

theorem sorted_filter {m : TMap α} (f : Nat × α → Bool) (h : sorted m = true) : sorted (m.filter f) = true := by
  induction m with
  | nil => simp [sorted]
  | cons p r ih =>
    obtain ⟨a, v⟩ := p
    obtain ⟨h1, h2⟩ := (sorted_cons a v r).1 h
    rw [List.filter_cons]
    split
    · exact (sorted_cons _ _ _).2 ⟨fun q hq => h1 q (List.mem_filter.1 hq).1, ih h2⟩
    · exact ih h2

theorem sorted_set [DecidableEq α] {d : α} {m : TMap α} {k : Nat} {x : α} (h : sorted m = true) :
    sorted (set d m k x) = true := by
  unfold set
  split
  · exact sorted_del h
  · exact sorted_put h

theorem sorted_range (f : Nat → α) (n : Nat) : sorted ((List.range n).map fun k => (k, f k)) = true := by
  have key (a : Nat) : sorted ((List.range' a n).map fun k => (k, f k)) = true := by
    induction n generalizing a with
    | zero => rfl
    | succ n ih =>
      refine (sorted_cons _ _ _).2 ⟨fun q hq => ?_, ih (a + 1)⟩
      obtain ⟨k, hk, rfl⟩ := List.mem_map.1 hq
      have := (List.mem_range'_1.1 hk).1
      omega
  rw [List.range_eq_range']
  exact key 0

/-- In a map in order no key is listed twice. -/
theorem nodup_of_sorted {m : TMap α} (h : sorted m = true) : (m.map (·.1)).Nodup := by
  induction m with
  | nil => simp
  | cons p r ih =>
    obtain ⟨a, v⟩ := p
    obtain ⟨h1, h2⟩ := (sorted_cons a v r).1 h
    refine List.nodup_cons.2 ⟨fun ha => ?_, ih h2⟩
    obtain ⟨q, hq, hqa⟩ := List.mem_map.1 ha
    have hlt : a < q.1 := h1 q hq
    have heq : q.1 = a := hqa
    omega

end TMap

namespace Memory

/-- A byte after a write. -/
theorem read_write (m : Memory) (a b : Nat) (x : Byte) : read (write m a x) b = if b = a then x else read m b :=
  TMap.get_set unlisted m a b x

@[simp] theorem read_write_same (m : Memory) (a : Nat) (x : Byte) : read (write m a x) a = x := by simp [read_write]

theorem read_write_ne (m : Memory) {a b : Nat} (x : Byte) (h : b ≠ a) : read (write m a x) b = read m b := by
  simp [read_write, h]

@[simp] theorem read_nil (a : Nat) : read [] a = unlisted := rfl

@[simp] theorem wf_nil : wf [] = true := rfl

/-- A write keeps the canonical form. -/
theorem wf_write {m : Memory} {a : Nat} {x : Byte} (h : wf m = true) : wf (write m a x) = true := by
  simp only [wf, Bool.and_eq_true, List.all_eq_true] at h ⊢
  obtain ⟨h1, h2⟩ := h
  unfold write TMap.set
  split
  · exact ⟨TMap.sorted_del h1, fun c hc => h2 c (TMap.mem_del hc)⟩
  · next hx =>
    refine ⟨TMap.sorted_put h1, fun c hc => ?_⟩
    rcases TMap.mem_put hc with rfl | hc
    · simpa using hx
    · exact h2 c hc

end Memory

namespace NatSet

theorem mem_add {s : NatSet} {a b : Nat} : b ∈ add s a ↔ b = a ∨ b ∈ s := by
  induction s with
  | nil => simp [add]
  | cons c r ih =>
    unfold add
    split
    · simp
    · split
      · next h => subst h; simp
      · rw [List.mem_cons, ih, List.mem_cons]
        tauto

theorem has_iff {s : NatSet} {a : Nat} : has s a = true ↔ a ∈ s := by simp [has]

theorem has_add (s : NatSet) (a b : Nat) : has (add s a) b = (has s b || b == a) := by
  rw [Bool.eq_iff_iff, has_iff, mem_add, Bool.or_eq_true, has_iff, beq_iff_eq, or_comm]

theorem has_drop (s : NatSet) (a b : Nat) : has (drop s a) b = (has s b && b != a) := by
  rw [Bool.eq_iff_iff, has_iff, Bool.and_eq_true, has_iff, drop, List.mem_filter]

end NatSet

end Sys2Proof.Machine
end

