-- ==== Sys2Proof/Laws/State.lean ====
section
/-! SUPPORT. Every field of the state after the updates that instructions make, and the readers of contexts, cores and dies. -/

namespace Sys2Proof.Machine

/-! ### ctx -/

section

variable (s : State) (a : Nat) (c : Ctx)

@[simp] theorem ctx_ctxs : ((Upd.ctx a c).apply s).ctxs = TMap.put s.ctxs a c := rfl
@[simp] theorem ctx_cores : ((Upd.ctx a c).apply s).cores = s.cores := rfl
@[simp] theorem ctx_dies : ((Upd.ctx a c).apply s).dies = s.dies := rfl
@[simp] theorem ctx_mem : ((Upd.ctx a c).apply s).mem = s.mem := rfl
@[simp] theorem ctx_bad : ((Upd.ctx a c).apply s).bad = s.bad := rfl
@[simp] theorem ctx_lineKey : ((Upd.ctx a c).apply s).lineKey = s.lineKey := rfl
@[simp] theorem ctx_keyPlain : ((Upd.ctx a c).apply s).keyPlain = s.keyPlain := rfl
@[simp] theorem ctx_keyGen : ((Upd.ctx a c).apply s).keyGen = s.keyGen := rfl
@[simp] theorem ctx_ls : ((Upd.ctx a c).apply s).ls = s.ls := rfl
@[simp] theorem ctx_lsBad : ((Upd.ctx a c).apply s).lsBad = s.lsBad := rfl
@[simp] theorem ctx_plane : ((Upd.ctx a c).apply s).plane = s.plane := rfl
@[simp] theorem ctx_planeBad : ((Upd.ctx a c).apply s).planeBad = s.planeBad := rfl
@[simp] theorem ctx_cells : ((Upd.ctx a c).apply s).cells = s.cells := rfl
@[simp] theorem ctx_hgen : ((Upd.ctx a c).apply s).hgen = s.hgen := rfl
@[simp] theorem ctx_far : ((Upd.ctx a c).apply s).far = s.far := rfl
@[simp] theorem ctx_farOld : ((Upd.ctx a c).apply s).farOld = s.farOld := rfl
@[simp] theorem ctx_farSeq : ((Upd.ctx a c).apply s).farSeq = s.farSeq := rfl
@[simp] theorem ctx_farAcq : ((Upd.ctx a c).apply s).farAcq = s.farAcq := rfl
@[simp] theorem ctx_farFloor : ((Upd.ctx a c).apply s).farFloor = s.farFloor := rfl
@[simp] theorem ctx_farPend : ((Upd.ctx a c).apply s).farPend = s.farPend := rfl
@[simp] theorem ctx_farFadds : ((Upd.ctx a c).apply s).farFadds = s.farFadds := rfl
@[simp] theorem ctx_farGen : ((Upd.ctx a c).apply s).farGen = s.farGen := rfl
@[simp] theorem ctx_fadds : ((Upd.ctx a c).apply s).fadds = s.fadds := rfl
@[simp] theorem ctx_engOld : ((Upd.ctx a c).apply s).engOld = s.engOld := rfl
@[simp] theorem ctx_joins : ((Upd.ctx a c).apply s).joins = s.joins := rfl
@[simp] theorem ctx_unseen : ((Upd.ctx a c).apply s).unseen = s.unseen := rfl
@[simp] theorem ctx_owed : ((Upd.ctx a c).apply s).owed = s.owed := rfl
@[simp] theorem ctx_times : ((Upd.ctx a c).apply s).times = s.times := rfl
@[simp] theorem ctx_codeOld : ((Upd.ctx a c).apply s).codeOld = s.codeOld := rfl
@[simp] theorem ctx_codeSeq : ((Upd.ctx a c).apply s).codeSeq = s.codeSeq := rfl
@[simp] theorem ctx_icCovers : ((Upd.ctx a c).apply s).icCovers = s.icCovers := rfl
@[simp] theorem ctx_fused : ((Upd.ctx a c).apply s).fused = s.fused := rfl
@[simp] theorem ctx_launches : ((Upd.ctx a c).apply s).launches = s.launches := rfl
@[simp] theorem ctx_threads : ((Upd.ctx a c).apply s).threads = s.threads := rfl
@[simp] theorem ctx_slotctl : ((Upd.ctx a c).apply s).slotctl = s.slotctl := rfl
@[simp] theorem ctx_qcount : ((Upd.ctx a c).apply s).qcount = s.qcount := rfl
@[simp] theorem ctx_arms : ((Upd.ctx a c).apply s).arms = s.arms := rfl
@[simp] theorem ctx_images : ((Upd.ctx a c).apply s).images = s.images := rfl
@[simp] theorem ctx_frescos : ((Upd.ctx a c).apply s).frescos = s.frescos := rfl
@[simp] theorem ctx_stencils : ((Upd.ctx a c).apply s).stencils = s.stencils := rfl
@[simp] theorem ctx_glaze : ((Upd.ctx a c).apply s).glaze = s.glaze := rfl
@[simp] theorem ctx_stor : ((Upd.ctx a c).apply s).stor = s.stor := rfl
@[simp] theorem ctx_saved : ((Upd.ctx a c).apply s).saved = s.saved := rfl
@[simp] theorem ctx_primer : ((Upd.ctx a c).apply s).primer = s.primer := rfl
@[simp] theorem ctx_log : ((Upd.ctx a c).apply s).log = s.log := rfl
@[simp] theorem ctx_held : ((Upd.ctx a c).apply s).held = s.held := rfl
@[simp] theorem ctx_time : ((Upd.ctx a c).apply s).time = s.time := rfl
@[simp] theorem ctx_node : ((Upd.ctx a c).apply s).node = s.node := rfl
@[simp] theorem ctx_still : ((Upd.ctx a c).apply s).still = s.still := rfl
@[simp] theorem ctx_agenda : ((Upd.ctx a c).apply s).agenda = s.agenda := rfl
@[simp] theorem ctx_cur : ((Upd.ctx a c).apply s).cur = s.cur := rfl
@[simp] theorem ctx_eop : ((Upd.ctx a c).apply s).eop = s.eop := rfl
@[simp] theorem ctx_fwd : ((Upd.ctx a c).apply s).fwd = s.fwd := rfl
@[simp] theorem ctx_oracle : ((Upd.ctx a c).apply s).oracle = s.oracle := rfl
@[simp] theorem ctx_tick : ((Upd.ctx a c).apply s).tick = s.tick := rfl
@[simp] theorem ctx_seq : ((Upd.ctx a c).apply s).seq = s.seq := rfl

end

/-! ### core -/

section

variable (s : State) (n : Nat) (c : Core)

@[simp] theorem core_ctxs : ((Upd.core n c).apply s).ctxs = s.ctxs := rfl
@[simp] theorem core_cores : ((Upd.core n c).apply s).cores = TMap.put s.cores n c := rfl
@[simp] theorem core_dies : ((Upd.core n c).apply s).dies = s.dies := rfl
@[simp] theorem core_mem : ((Upd.core n c).apply s).mem = s.mem := rfl
@[simp] theorem core_bad : ((Upd.core n c).apply s).bad = s.bad := rfl
@[simp] theorem core_lineKey : ((Upd.core n c).apply s).lineKey = s.lineKey := rfl
@[simp] theorem core_keyPlain : ((Upd.core n c).apply s).keyPlain = s.keyPlain := rfl
@[simp] theorem core_keyGen : ((Upd.core n c).apply s).keyGen = s.keyGen := rfl
@[simp] theorem core_ls : ((Upd.core n c).apply s).ls = s.ls := rfl
@[simp] theorem core_lsBad : ((Upd.core n c).apply s).lsBad = s.lsBad := rfl
@[simp] theorem core_plane : ((Upd.core n c).apply s).plane = s.plane := rfl
@[simp] theorem core_planeBad : ((Upd.core n c).apply s).planeBad = s.planeBad := rfl
@[simp] theorem core_cells : ((Upd.core n c).apply s).cells = s.cells := rfl
@[simp] theorem core_hgen : ((Upd.core n c).apply s).hgen = s.hgen := rfl
@[simp] theorem core_far : ((Upd.core n c).apply s).far = s.far := rfl
@[simp] theorem core_farOld : ((Upd.core n c).apply s).farOld = s.farOld := rfl
@[simp] theorem core_farSeq : ((Upd.core n c).apply s).farSeq = s.farSeq := rfl
@[simp] theorem core_farAcq : ((Upd.core n c).apply s).farAcq = s.farAcq := rfl
@[simp] theorem core_farFloor : ((Upd.core n c).apply s).farFloor = s.farFloor := rfl
@[simp] theorem core_farPend : ((Upd.core n c).apply s).farPend = s.farPend := rfl
@[simp] theorem core_farFadds : ((Upd.core n c).apply s).farFadds = s.farFadds := rfl
@[simp] theorem core_farGen : ((Upd.core n c).apply s).farGen = s.farGen := rfl
@[simp] theorem core_fadds : ((Upd.core n c).apply s).fadds = s.fadds := rfl
@[simp] theorem core_engOld : ((Upd.core n c).apply s).engOld = s.engOld := rfl
@[simp] theorem core_joins : ((Upd.core n c).apply s).joins = s.joins := rfl
@[simp] theorem core_unseen : ((Upd.core n c).apply s).unseen = s.unseen := rfl
@[simp] theorem core_owed : ((Upd.core n c).apply s).owed = s.owed := rfl
@[simp] theorem core_times : ((Upd.core n c).apply s).times = s.times := rfl
@[simp] theorem core_codeOld : ((Upd.core n c).apply s).codeOld = s.codeOld := rfl
@[simp] theorem core_codeSeq : ((Upd.core n c).apply s).codeSeq = s.codeSeq := rfl
@[simp] theorem core_icCovers : ((Upd.core n c).apply s).icCovers = s.icCovers := rfl
@[simp] theorem core_fused : ((Upd.core n c).apply s).fused = s.fused := rfl
@[simp] theorem core_launches : ((Upd.core n c).apply s).launches = s.launches := rfl
@[simp] theorem core_threads : ((Upd.core n c).apply s).threads = s.threads := rfl
@[simp] theorem core_slotctl : ((Upd.core n c).apply s).slotctl = s.slotctl := rfl
@[simp] theorem core_qcount : ((Upd.core n c).apply s).qcount = s.qcount := rfl
@[simp] theorem core_arms : ((Upd.core n c).apply s).arms = s.arms := rfl
@[simp] theorem core_images : ((Upd.core n c).apply s).images = s.images := rfl
@[simp] theorem core_frescos : ((Upd.core n c).apply s).frescos = s.frescos := rfl
@[simp] theorem core_stencils : ((Upd.core n c).apply s).stencils = s.stencils := rfl
@[simp] theorem core_glaze : ((Upd.core n c).apply s).glaze = s.glaze := rfl
@[simp] theorem core_stor : ((Upd.core n c).apply s).stor = s.stor := rfl
@[simp] theorem core_saved : ((Upd.core n c).apply s).saved = s.saved := rfl
@[simp] theorem core_primer : ((Upd.core n c).apply s).primer = s.primer := rfl
@[simp] theorem core_log : ((Upd.core n c).apply s).log = s.log := rfl
@[simp] theorem core_held : ((Upd.core n c).apply s).held = s.held := rfl
@[simp] theorem core_time : ((Upd.core n c).apply s).time = s.time := rfl
@[simp] theorem core_node : ((Upd.core n c).apply s).node = s.node := rfl
@[simp] theorem core_still : ((Upd.core n c).apply s).still = s.still := rfl
@[simp] theorem core_agenda : ((Upd.core n c).apply s).agenda = s.agenda := rfl
@[simp] theorem core_cur : ((Upd.core n c).apply s).cur = s.cur := rfl
@[simp] theorem core_eop : ((Upd.core n c).apply s).eop = s.eop := rfl
@[simp] theorem core_fwd : ((Upd.core n c).apply s).fwd = s.fwd := rfl
@[simp] theorem core_oracle : ((Upd.core n c).apply s).oracle = s.oracle := rfl
@[simp] theorem core_tick : ((Upd.core n c).apply s).tick = s.tick := rfl
@[simp] theorem core_seq : ((Upd.core n c).apply s).seq = s.seq := rfl

end

/-! ### die -/

section

variable (s : State) (d : Nat) (x : Die)

@[simp] theorem die_ctxs : ((Upd.die d x).apply s).ctxs = s.ctxs := rfl
@[simp] theorem die_cores : ((Upd.die d x).apply s).cores = s.cores := rfl
@[simp] theorem die_dies : ((Upd.die d x).apply s).dies = TMap.put s.dies d x := rfl
@[simp] theorem die_mem : ((Upd.die d x).apply s).mem = s.mem := rfl
@[simp] theorem die_bad : ((Upd.die d x).apply s).bad = s.bad := rfl
@[simp] theorem die_lineKey : ((Upd.die d x).apply s).lineKey = s.lineKey := rfl
@[simp] theorem die_keyPlain : ((Upd.die d x).apply s).keyPlain = s.keyPlain := rfl
@[simp] theorem die_keyGen : ((Upd.die d x).apply s).keyGen = s.keyGen := rfl
@[simp] theorem die_ls : ((Upd.die d x).apply s).ls = s.ls := rfl
@[simp] theorem die_lsBad : ((Upd.die d x).apply s).lsBad = s.lsBad := rfl
@[simp] theorem die_plane : ((Upd.die d x).apply s).plane = s.plane := rfl
@[simp] theorem die_planeBad : ((Upd.die d x).apply s).planeBad = s.planeBad := rfl
@[simp] theorem die_cells : ((Upd.die d x).apply s).cells = s.cells := rfl
@[simp] theorem die_hgen : ((Upd.die d x).apply s).hgen = s.hgen := rfl
@[simp] theorem die_far : ((Upd.die d x).apply s).far = s.far := rfl
@[simp] theorem die_farOld : ((Upd.die d x).apply s).farOld = s.farOld := rfl
@[simp] theorem die_farSeq : ((Upd.die d x).apply s).farSeq = s.farSeq := rfl
@[simp] theorem die_farAcq : ((Upd.die d x).apply s).farAcq = s.farAcq := rfl
@[simp] theorem die_farFloor : ((Upd.die d x).apply s).farFloor = s.farFloor := rfl
@[simp] theorem die_farPend : ((Upd.die d x).apply s).farPend = s.farPend := rfl
@[simp] theorem die_farFadds : ((Upd.die d x).apply s).farFadds = s.farFadds := rfl
@[simp] theorem die_farGen : ((Upd.die d x).apply s).farGen = s.farGen := rfl
@[simp] theorem die_fadds : ((Upd.die d x).apply s).fadds = s.fadds := rfl
@[simp] theorem die_engOld : ((Upd.die d x).apply s).engOld = s.engOld := rfl
@[simp] theorem die_joins : ((Upd.die d x).apply s).joins = s.joins := rfl
@[simp] theorem die_unseen : ((Upd.die d x).apply s).unseen = s.unseen := rfl
@[simp] theorem die_owed : ((Upd.die d x).apply s).owed = s.owed := rfl
@[simp] theorem die_times : ((Upd.die d x).apply s).times = s.times := rfl
@[simp] theorem die_codeOld : ((Upd.die d x).apply s).codeOld = s.codeOld := rfl
@[simp] theorem die_codeSeq : ((Upd.die d x).apply s).codeSeq = s.codeSeq := rfl
@[simp] theorem die_icCovers : ((Upd.die d x).apply s).icCovers = s.icCovers := rfl
@[simp] theorem die_fused : ((Upd.die d x).apply s).fused = s.fused := rfl
@[simp] theorem die_launches : ((Upd.die d x).apply s).launches = s.launches := rfl
@[simp] theorem die_threads : ((Upd.die d x).apply s).threads = s.threads := rfl
@[simp] theorem die_slotctl : ((Upd.die d x).apply s).slotctl = s.slotctl := rfl
@[simp] theorem die_qcount : ((Upd.die d x).apply s).qcount = s.qcount := rfl
@[simp] theorem die_arms : ((Upd.die d x).apply s).arms = s.arms := rfl
@[simp] theorem die_images : ((Upd.die d x).apply s).images = s.images := rfl
@[simp] theorem die_frescos : ((Upd.die d x).apply s).frescos = s.frescos := rfl
@[simp] theorem die_stencils : ((Upd.die d x).apply s).stencils = s.stencils := rfl
@[simp] theorem die_glaze : ((Upd.die d x).apply s).glaze = s.glaze := rfl
@[simp] theorem die_stor : ((Upd.die d x).apply s).stor = s.stor := rfl
@[simp] theorem die_saved : ((Upd.die d x).apply s).saved = s.saved := rfl
@[simp] theorem die_primer : ((Upd.die d x).apply s).primer = s.primer := rfl
@[simp] theorem die_log : ((Upd.die d x).apply s).log = s.log := rfl
@[simp] theorem die_held : ((Upd.die d x).apply s).held = s.held := rfl
@[simp] theorem die_time : ((Upd.die d x).apply s).time = s.time := rfl
@[simp] theorem die_node : ((Upd.die d x).apply s).node = s.node := rfl
@[simp] theorem die_still : ((Upd.die d x).apply s).still = s.still := rfl
@[simp] theorem die_agenda : ((Upd.die d x).apply s).agenda = s.agenda := rfl
@[simp] theorem die_cur : ((Upd.die d x).apply s).cur = s.cur := rfl
@[simp] theorem die_eop : ((Upd.die d x).apply s).eop = s.eop := rfl
@[simp] theorem die_fwd : ((Upd.die d x).apply s).fwd = s.fwd := rfl
@[simp] theorem die_oracle : ((Upd.die d x).apply s).oracle = s.oracle := rfl
@[simp] theorem die_tick : ((Upd.die d x).apply s).tick = s.tick := rfl
@[simp] theorem die_seq : ((Upd.die d x).apply s).seq = s.seq := rfl

end

/-! ### cell -/

section

variable (s : State) (k : Nat) (c : Cell)

@[simp] theorem cell_ctxs : ((Upd.cell k c).apply s).ctxs = s.ctxs := rfl
@[simp] theorem cell_cores : ((Upd.cell k c).apply s).cores = s.cores := rfl
@[simp] theorem cell_dies : ((Upd.cell k c).apply s).dies = s.dies := rfl
@[simp] theorem cell_mem : ((Upd.cell k c).apply s).mem = s.mem := rfl
@[simp] theorem cell_bad : ((Upd.cell k c).apply s).bad = s.bad := rfl
@[simp] theorem cell_lineKey : ((Upd.cell k c).apply s).lineKey = s.lineKey := rfl
@[simp] theorem cell_keyPlain : ((Upd.cell k c).apply s).keyPlain = s.keyPlain := rfl
@[simp] theorem cell_keyGen : ((Upd.cell k c).apply s).keyGen = s.keyGen := rfl
@[simp] theorem cell_ls : ((Upd.cell k c).apply s).ls = s.ls := rfl
@[simp] theorem cell_lsBad : ((Upd.cell k c).apply s).lsBad = s.lsBad := rfl
@[simp] theorem cell_plane : ((Upd.cell k c).apply s).plane = s.plane := rfl
@[simp] theorem cell_planeBad : ((Upd.cell k c).apply s).planeBad = s.planeBad := rfl
@[simp] theorem cell_cells : ((Upd.cell k c).apply s).cells = TMap.put s.cells k c := rfl
@[simp] theorem cell_hgen : ((Upd.cell k c).apply s).hgen = s.hgen := rfl
@[simp] theorem cell_far : ((Upd.cell k c).apply s).far = s.far := rfl
@[simp] theorem cell_farOld : ((Upd.cell k c).apply s).farOld = s.farOld := rfl
@[simp] theorem cell_farSeq : ((Upd.cell k c).apply s).farSeq = s.farSeq := rfl
@[simp] theorem cell_farAcq : ((Upd.cell k c).apply s).farAcq = s.farAcq := rfl
@[simp] theorem cell_farFloor : ((Upd.cell k c).apply s).farFloor = s.farFloor := rfl
@[simp] theorem cell_farPend : ((Upd.cell k c).apply s).farPend = s.farPend := rfl
@[simp] theorem cell_farFadds : ((Upd.cell k c).apply s).farFadds = s.farFadds := rfl
@[simp] theorem cell_farGen : ((Upd.cell k c).apply s).farGen = s.farGen := rfl
@[simp] theorem cell_fadds : ((Upd.cell k c).apply s).fadds = s.fadds := rfl
@[simp] theorem cell_engOld : ((Upd.cell k c).apply s).engOld = s.engOld := rfl
@[simp] theorem cell_joins : ((Upd.cell k c).apply s).joins = s.joins := rfl
@[simp] theorem cell_unseen : ((Upd.cell k c).apply s).unseen = s.unseen := rfl
@[simp] theorem cell_owed : ((Upd.cell k c).apply s).owed = s.owed := rfl
@[simp] theorem cell_times : ((Upd.cell k c).apply s).times = s.times := rfl
@[simp] theorem cell_codeOld : ((Upd.cell k c).apply s).codeOld = s.codeOld := rfl
@[simp] theorem cell_codeSeq : ((Upd.cell k c).apply s).codeSeq = s.codeSeq := rfl
@[simp] theorem cell_icCovers : ((Upd.cell k c).apply s).icCovers = s.icCovers := rfl
@[simp] theorem cell_fused : ((Upd.cell k c).apply s).fused = s.fused := rfl
@[simp] theorem cell_launches : ((Upd.cell k c).apply s).launches = s.launches := rfl
@[simp] theorem cell_threads : ((Upd.cell k c).apply s).threads = s.threads := rfl
@[simp] theorem cell_slotctl : ((Upd.cell k c).apply s).slotctl = s.slotctl := rfl
@[simp] theorem cell_qcount : ((Upd.cell k c).apply s).qcount = s.qcount := rfl
@[simp] theorem cell_arms : ((Upd.cell k c).apply s).arms = s.arms := rfl
@[simp] theorem cell_images : ((Upd.cell k c).apply s).images = s.images := rfl
@[simp] theorem cell_frescos : ((Upd.cell k c).apply s).frescos = s.frescos := rfl
@[simp] theorem cell_stencils : ((Upd.cell k c).apply s).stencils = s.stencils := rfl
@[simp] theorem cell_glaze : ((Upd.cell k c).apply s).glaze = s.glaze := rfl
@[simp] theorem cell_stor : ((Upd.cell k c).apply s).stor = s.stor := rfl
@[simp] theorem cell_saved : ((Upd.cell k c).apply s).saved = s.saved := rfl
@[simp] theorem cell_primer : ((Upd.cell k c).apply s).primer = s.primer := rfl
@[simp] theorem cell_log : ((Upd.cell k c).apply s).log = s.log := rfl
@[simp] theorem cell_held : ((Upd.cell k c).apply s).held = s.held := rfl
@[simp] theorem cell_time : ((Upd.cell k c).apply s).time = s.time := rfl
@[simp] theorem cell_node : ((Upd.cell k c).apply s).node = s.node := rfl
@[simp] theorem cell_still : ((Upd.cell k c).apply s).still = s.still := rfl
@[simp] theorem cell_agenda : ((Upd.cell k c).apply s).agenda = s.agenda := rfl
@[simp] theorem cell_cur : ((Upd.cell k c).apply s).cur = s.cur := rfl
@[simp] theorem cell_eop : ((Upd.cell k c).apply s).eop = s.eop := rfl
@[simp] theorem cell_fwd : ((Upd.cell k c).apply s).fwd = s.fwd := rfl
@[simp] theorem cell_oracle : ((Upd.cell k c).apply s).oracle = s.oracle := rfl
@[simp] theorem cell_tick : ((Upd.cell k c).apply s).tick = s.tick := rfl
@[simp] theorem cell_seq : ((Upd.cell k c).apply s).seq = s.seq := rfl

end

/-! ### lsByte -/

section

variable (s : State) (k : Nat) (b : Byte)

@[simp] theorem lsByte_ctxs : ((Upd.lsByte k b).apply s).ctxs = s.ctxs := rfl
@[simp] theorem lsByte_cores : ((Upd.lsByte k b).apply s).cores = s.cores := rfl
@[simp] theorem lsByte_dies : ((Upd.lsByte k b).apply s).dies = s.dies := rfl
@[simp] theorem lsByte_mem : ((Upd.lsByte k b).apply s).mem = s.mem := rfl
@[simp] theorem lsByte_bad : ((Upd.lsByte k b).apply s).bad = s.bad := rfl
@[simp] theorem lsByte_lineKey : ((Upd.lsByte k b).apply s).lineKey = s.lineKey := rfl
@[simp] theorem lsByte_keyPlain : ((Upd.lsByte k b).apply s).keyPlain = s.keyPlain := rfl
@[simp] theorem lsByte_keyGen : ((Upd.lsByte k b).apply s).keyGen = s.keyGen := rfl
@[simp] theorem lsByte_ls : ((Upd.lsByte k b).apply s).ls = Memory.write s.ls k b := rfl
@[simp] theorem lsByte_lsBad : ((Upd.lsByte k b).apply s).lsBad = NatSet.drop s.lsBad k := rfl
@[simp] theorem lsByte_plane : ((Upd.lsByte k b).apply s).plane = s.plane := rfl
@[simp] theorem lsByte_planeBad : ((Upd.lsByte k b).apply s).planeBad = s.planeBad := rfl
@[simp] theorem lsByte_cells : ((Upd.lsByte k b).apply s).cells = s.cells := rfl
@[simp] theorem lsByte_hgen : ((Upd.lsByte k b).apply s).hgen = s.hgen := rfl
@[simp] theorem lsByte_far : ((Upd.lsByte k b).apply s).far = s.far := rfl
@[simp] theorem lsByte_farOld : ((Upd.lsByte k b).apply s).farOld = s.farOld := rfl
@[simp] theorem lsByte_farSeq : ((Upd.lsByte k b).apply s).farSeq = s.farSeq := rfl
@[simp] theorem lsByte_farAcq : ((Upd.lsByte k b).apply s).farAcq = s.farAcq := rfl
@[simp] theorem lsByte_farFloor : ((Upd.lsByte k b).apply s).farFloor = s.farFloor := rfl
@[simp] theorem lsByte_farPend : ((Upd.lsByte k b).apply s).farPend = s.farPend := rfl
@[simp] theorem lsByte_farFadds : ((Upd.lsByte k b).apply s).farFadds = s.farFadds := rfl
@[simp] theorem lsByte_farGen : ((Upd.lsByte k b).apply s).farGen = s.farGen := rfl
@[simp] theorem lsByte_fadds : ((Upd.lsByte k b).apply s).fadds = s.fadds := rfl
@[simp] theorem lsByte_engOld : ((Upd.lsByte k b).apply s).engOld = s.engOld := rfl
@[simp] theorem lsByte_joins : ((Upd.lsByte k b).apply s).joins = s.joins := rfl
@[simp] theorem lsByte_unseen : ((Upd.lsByte k b).apply s).unseen = s.unseen := rfl
@[simp] theorem lsByte_owed : ((Upd.lsByte k b).apply s).owed = s.owed := rfl
@[simp] theorem lsByte_times : ((Upd.lsByte k b).apply s).times = s.times := rfl
@[simp] theorem lsByte_codeOld : ((Upd.lsByte k b).apply s).codeOld = s.codeOld := rfl
@[simp] theorem lsByte_codeSeq : ((Upd.lsByte k b).apply s).codeSeq = s.codeSeq := rfl
@[simp] theorem lsByte_icCovers : ((Upd.lsByte k b).apply s).icCovers = s.icCovers := rfl
@[simp] theorem lsByte_fused : ((Upd.lsByte k b).apply s).fused = s.fused := rfl
@[simp] theorem lsByte_launches : ((Upd.lsByte k b).apply s).launches = s.launches := rfl
@[simp] theorem lsByte_threads : ((Upd.lsByte k b).apply s).threads = s.threads := rfl
@[simp] theorem lsByte_slotctl : ((Upd.lsByte k b).apply s).slotctl = s.slotctl := rfl
@[simp] theorem lsByte_qcount : ((Upd.lsByte k b).apply s).qcount = s.qcount := rfl
@[simp] theorem lsByte_arms : ((Upd.lsByte k b).apply s).arms = s.arms := rfl
@[simp] theorem lsByte_images : ((Upd.lsByte k b).apply s).images = s.images := rfl
@[simp] theorem lsByte_frescos : ((Upd.lsByte k b).apply s).frescos = s.frescos := rfl
@[simp] theorem lsByte_stencils : ((Upd.lsByte k b).apply s).stencils = s.stencils := rfl
@[simp] theorem lsByte_glaze : ((Upd.lsByte k b).apply s).glaze = s.glaze := rfl
@[simp] theorem lsByte_stor : ((Upd.lsByte k b).apply s).stor = s.stor := rfl
@[simp] theorem lsByte_saved : ((Upd.lsByte k b).apply s).saved = s.saved := rfl
@[simp] theorem lsByte_primer : ((Upd.lsByte k b).apply s).primer = s.primer := rfl
@[simp] theorem lsByte_log : ((Upd.lsByte k b).apply s).log = s.log := rfl
@[simp] theorem lsByte_held : ((Upd.lsByte k b).apply s).held = s.held := rfl
@[simp] theorem lsByte_time : ((Upd.lsByte k b).apply s).time = s.time := rfl
@[simp] theorem lsByte_node : ((Upd.lsByte k b).apply s).node = s.node := rfl
@[simp] theorem lsByte_still : ((Upd.lsByte k b).apply s).still = s.still := rfl
@[simp] theorem lsByte_agenda : ((Upd.lsByte k b).apply s).agenda = s.agenda := rfl
@[simp] theorem lsByte_cur : ((Upd.lsByte k b).apply s).cur = s.cur := rfl
@[simp] theorem lsByte_eop : ((Upd.lsByte k b).apply s).eop = s.eop := rfl
@[simp] theorem lsByte_fwd : ((Upd.lsByte k b).apply s).fwd = s.fwd := rfl
@[simp] theorem lsByte_oracle : ((Upd.lsByte k b).apply s).oracle = s.oracle := rfl
@[simp] theorem lsByte_tick : ((Upd.lsByte k b).apply s).tick = s.tick := rfl
@[simp] theorem lsByte_seq : ((Upd.lsByte k b).apply s).seq = s.seq := rfl

end

/-! ### byte -/

section

variable (s : State) (pa : Nat) (b : Byte)

@[simp] theorem byte_ctxs : ((Upd.byte pa b).apply s).ctxs = s.ctxs := rfl
@[simp] theorem byte_cores : ((Upd.byte pa b).apply s).cores = s.cores := rfl
@[simp] theorem byte_dies : ((Upd.byte pa b).apply s).dies = s.dies := rfl
@[simp] theorem byte_mem : ((Upd.byte pa b).apply s).mem = Memory.write s.mem pa b := rfl
@[simp] theorem byte_bad : ((Upd.byte pa b).apply s).bad = NatSet.drop s.bad pa := rfl
@[simp] theorem byte_lineKey : ((Upd.byte pa b).apply s).lineKey = s.lineKey := rfl
@[simp] theorem byte_keyPlain : ((Upd.byte pa b).apply s).keyPlain = s.keyPlain := rfl
@[simp] theorem byte_keyGen : ((Upd.byte pa b).apply s).keyGen = s.keyGen := rfl
@[simp] theorem byte_ls : ((Upd.byte pa b).apply s).ls = s.ls := rfl
@[simp] theorem byte_lsBad : ((Upd.byte pa b).apply s).lsBad = s.lsBad := rfl
@[simp] theorem byte_plane : ((Upd.byte pa b).apply s).plane = s.plane := rfl
@[simp] theorem byte_planeBad : ((Upd.byte pa b).apply s).planeBad = s.planeBad := rfl
@[simp] theorem byte_cells : ((Upd.byte pa b).apply s).cells = s.cells := rfl
@[simp] theorem byte_hgen : ((Upd.byte pa b).apply s).hgen = s.hgen := rfl
@[simp] theorem byte_far : ((Upd.byte pa b).apply s).far = s.far := rfl
@[simp] theorem byte_farOld : ((Upd.byte pa b).apply s).farOld = s.farOld := rfl
@[simp] theorem byte_farSeq : ((Upd.byte pa b).apply s).farSeq = s.farSeq := rfl
@[simp] theorem byte_farAcq : ((Upd.byte pa b).apply s).farAcq = s.farAcq := rfl
@[simp] theorem byte_farFloor : ((Upd.byte pa b).apply s).farFloor = s.farFloor := rfl
@[simp] theorem byte_farPend : ((Upd.byte pa b).apply s).farPend = s.farPend := rfl
@[simp] theorem byte_farFadds : ((Upd.byte pa b).apply s).farFadds = s.farFadds := rfl
@[simp] theorem byte_farGen : ((Upd.byte pa b).apply s).farGen = s.farGen := rfl
@[simp] theorem byte_fadds : ((Upd.byte pa b).apply s).fadds = TMap.del s.fadds (pa / 4) := rfl
@[simp] theorem byte_engOld :
    ((Upd.byte pa b).apply s).engOld =
      match TMap.find s.engOld (pa / 8) with
      | some l => TMap.put s.engOld (pa / 8) (l.map fun e => e.withByte (pa % 8) b)
      | none => s.engOld := rfl
@[simp] theorem byte_joins : ((Upd.byte pa b).apply s).joins = s.joins := rfl
@[simp] theorem byte_unseen : ((Upd.byte pa b).apply s).unseen = s.unseen := rfl
@[simp] theorem byte_owed : ((Upd.byte pa b).apply s).owed = s.owed := rfl
@[simp] theorem byte_times : ((Upd.byte pa b).apply s).times = s.times := rfl
@[simp] theorem byte_codeOld : ((Upd.byte pa b).apply s).codeOld = s.codeOld := rfl
@[simp] theorem byte_codeSeq : ((Upd.byte pa b).apply s).codeSeq = s.codeSeq := rfl
@[simp] theorem byte_icCovers : ((Upd.byte pa b).apply s).icCovers = s.icCovers := rfl
@[simp] theorem byte_fused : ((Upd.byte pa b).apply s).fused = s.fused := rfl
@[simp] theorem byte_launches : ((Upd.byte pa b).apply s).launches = s.launches := rfl
@[simp] theorem byte_threads : ((Upd.byte pa b).apply s).threads = s.threads := rfl
@[simp] theorem byte_slotctl : ((Upd.byte pa b).apply s).slotctl = s.slotctl := rfl
@[simp] theorem byte_qcount : ((Upd.byte pa b).apply s).qcount = s.qcount := rfl
@[simp] theorem byte_arms : ((Upd.byte pa b).apply s).arms = s.arms := rfl
@[simp] theorem byte_images : ((Upd.byte pa b).apply s).images = s.images := rfl
@[simp] theorem byte_frescos : ((Upd.byte pa b).apply s).frescos = s.frescos := rfl
@[simp] theorem byte_stencils : ((Upd.byte pa b).apply s).stencils = s.stencils := rfl
@[simp] theorem byte_glaze : ((Upd.byte pa b).apply s).glaze = s.glaze := rfl
@[simp] theorem byte_stor : ((Upd.byte pa b).apply s).stor = s.stor := rfl
@[simp] theorem byte_saved : ((Upd.byte pa b).apply s).saved = s.saved := rfl
@[simp] theorem byte_primer : ((Upd.byte pa b).apply s).primer = s.primer := rfl
@[simp] theorem byte_log : ((Upd.byte pa b).apply s).log = s.log := rfl
@[simp] theorem byte_held : ((Upd.byte pa b).apply s).held = s.held := rfl
@[simp] theorem byte_time : ((Upd.byte pa b).apply s).time = s.time := rfl
@[simp] theorem byte_node : ((Upd.byte pa b).apply s).node = s.node := rfl
@[simp] theorem byte_still : ((Upd.byte pa b).apply s).still = s.still := rfl
@[simp] theorem byte_agenda : ((Upd.byte pa b).apply s).agenda = s.agenda := rfl
@[simp] theorem byte_cur : ((Upd.byte pa b).apply s).cur = s.cur := rfl
@[simp] theorem byte_eop : ((Upd.byte pa b).apply s).eop = s.eop := rfl
@[simp] theorem byte_fwd : ((Upd.byte pa b).apply s).fwd = s.fwd := rfl
@[simp] theorem byte_oracle : ((Upd.byte pa b).apply s).oracle = s.oracle := rfl
@[simp] theorem byte_tick : ((Upd.byte pa b).apply s).tick = s.tick := rfl
@[simp] theorem byte_seq : ((Upd.byte pa b).apply s).seq = s.seq := rfl

end

/-! ### launch -/

section

variable (s : State) (k : Nat) (l : Launch)

@[simp] theorem launch_ctxs : ((Upd.launch k l).apply s).ctxs = s.ctxs := rfl
@[simp] theorem launch_cores : ((Upd.launch k l).apply s).cores = s.cores := rfl
@[simp] theorem launch_dies : ((Upd.launch k l).apply s).dies = s.dies := rfl
@[simp] theorem launch_mem : ((Upd.launch k l).apply s).mem = s.mem := rfl
@[simp] theorem launch_bad : ((Upd.launch k l).apply s).bad = s.bad := rfl
@[simp] theorem launch_lineKey : ((Upd.launch k l).apply s).lineKey = s.lineKey := rfl
@[simp] theorem launch_keyPlain : ((Upd.launch k l).apply s).keyPlain = s.keyPlain := rfl
@[simp] theorem launch_keyGen : ((Upd.launch k l).apply s).keyGen = s.keyGen := rfl
@[simp] theorem launch_ls : ((Upd.launch k l).apply s).ls = s.ls := rfl
@[simp] theorem launch_lsBad : ((Upd.launch k l).apply s).lsBad = s.lsBad := rfl
@[simp] theorem launch_plane : ((Upd.launch k l).apply s).plane = s.plane := rfl
@[simp] theorem launch_planeBad : ((Upd.launch k l).apply s).planeBad = s.planeBad := rfl
@[simp] theorem launch_cells : ((Upd.launch k l).apply s).cells = s.cells := rfl
@[simp] theorem launch_hgen : ((Upd.launch k l).apply s).hgen = s.hgen := rfl
@[simp] theorem launch_far : ((Upd.launch k l).apply s).far = s.far := rfl
@[simp] theorem launch_farOld : ((Upd.launch k l).apply s).farOld = s.farOld := rfl
@[simp] theorem launch_farSeq : ((Upd.launch k l).apply s).farSeq = s.farSeq := rfl
@[simp] theorem launch_farAcq : ((Upd.launch k l).apply s).farAcq = s.farAcq := rfl
@[simp] theorem launch_farFloor : ((Upd.launch k l).apply s).farFloor = s.farFloor := rfl
@[simp] theorem launch_farPend : ((Upd.launch k l).apply s).farPend = s.farPend := rfl
@[simp] theorem launch_farFadds : ((Upd.launch k l).apply s).farFadds = s.farFadds := rfl
@[simp] theorem launch_farGen : ((Upd.launch k l).apply s).farGen = s.farGen := rfl
@[simp] theorem launch_fadds : ((Upd.launch k l).apply s).fadds = s.fadds := rfl
@[simp] theorem launch_engOld : ((Upd.launch k l).apply s).engOld = s.engOld := rfl
@[simp] theorem launch_joins : ((Upd.launch k l).apply s).joins = s.joins := rfl
@[simp] theorem launch_unseen : ((Upd.launch k l).apply s).unseen = s.unseen := rfl
@[simp] theorem launch_owed : ((Upd.launch k l).apply s).owed = s.owed := rfl
@[simp] theorem launch_times : ((Upd.launch k l).apply s).times = s.times := rfl
@[simp] theorem launch_codeOld : ((Upd.launch k l).apply s).codeOld = s.codeOld := rfl
@[simp] theorem launch_codeSeq : ((Upd.launch k l).apply s).codeSeq = s.codeSeq := rfl
@[simp] theorem launch_icCovers : ((Upd.launch k l).apply s).icCovers = s.icCovers := rfl
@[simp] theorem launch_fused : ((Upd.launch k l).apply s).fused = s.fused := rfl
@[simp] theorem launch_launches : ((Upd.launch k l).apply s).launches = TMap.put s.launches k l := rfl
@[simp] theorem launch_threads : ((Upd.launch k l).apply s).threads = s.threads := rfl
@[simp] theorem launch_slotctl : ((Upd.launch k l).apply s).slotctl = s.slotctl := rfl
@[simp] theorem launch_qcount : ((Upd.launch k l).apply s).qcount = s.qcount := rfl
@[simp] theorem launch_arms : ((Upd.launch k l).apply s).arms = s.arms := rfl
@[simp] theorem launch_images : ((Upd.launch k l).apply s).images = s.images := rfl
@[simp] theorem launch_frescos : ((Upd.launch k l).apply s).frescos = s.frescos := rfl
@[simp] theorem launch_stencils : ((Upd.launch k l).apply s).stencils = s.stencils := rfl
@[simp] theorem launch_glaze : ((Upd.launch k l).apply s).glaze = s.glaze := rfl
@[simp] theorem launch_stor : ((Upd.launch k l).apply s).stor = s.stor := rfl
@[simp] theorem launch_saved : ((Upd.launch k l).apply s).saved = s.saved := rfl
@[simp] theorem launch_primer : ((Upd.launch k l).apply s).primer = s.primer := rfl
@[simp] theorem launch_log : ((Upd.launch k l).apply s).log = s.log := rfl
@[simp] theorem launch_held : ((Upd.launch k l).apply s).held = s.held := rfl
@[simp] theorem launch_time : ((Upd.launch k l).apply s).time = s.time := rfl
@[simp] theorem launch_node : ((Upd.launch k l).apply s).node = s.node := rfl
@[simp] theorem launch_still : ((Upd.launch k l).apply s).still = s.still := rfl
@[simp] theorem launch_agenda : ((Upd.launch k l).apply s).agenda = s.agenda := rfl
@[simp] theorem launch_cur : ((Upd.launch k l).apply s).cur = s.cur := rfl
@[simp] theorem launch_eop : ((Upd.launch k l).apply s).eop = s.eop := rfl
@[simp] theorem launch_fwd : ((Upd.launch k l).apply s).fwd = s.fwd := rfl
@[simp] theorem launch_oracle : ((Upd.launch k l).apply s).oracle = s.oracle := rfl
@[simp] theorem launch_tick : ((Upd.launch k l).apply s).tick = s.tick := rfl
@[simp] theorem launch_seq : ((Upd.launch k l).apply s).seq = s.seq := rfl

end

/-! ### glaze -/

section

variable (s : State) (g : Glaze)

@[simp] theorem glaze_ctxs : ((Upd.glaze g).apply s).ctxs = s.ctxs := rfl
@[simp] theorem glaze_cores : ((Upd.glaze g).apply s).cores = s.cores := rfl
@[simp] theorem glaze_dies : ((Upd.glaze g).apply s).dies = s.dies := rfl
@[simp] theorem glaze_mem : ((Upd.glaze g).apply s).mem = s.mem := rfl
@[simp] theorem glaze_bad : ((Upd.glaze g).apply s).bad = s.bad := rfl
@[simp] theorem glaze_lineKey : ((Upd.glaze g).apply s).lineKey = s.lineKey := rfl
@[simp] theorem glaze_keyPlain : ((Upd.glaze g).apply s).keyPlain = s.keyPlain := rfl
@[simp] theorem glaze_keyGen : ((Upd.glaze g).apply s).keyGen = s.keyGen := rfl
@[simp] theorem glaze_ls : ((Upd.glaze g).apply s).ls = s.ls := rfl
@[simp] theorem glaze_lsBad : ((Upd.glaze g).apply s).lsBad = s.lsBad := rfl
@[simp] theorem glaze_plane : ((Upd.glaze g).apply s).plane = s.plane := rfl
@[simp] theorem glaze_planeBad : ((Upd.glaze g).apply s).planeBad = s.planeBad := rfl
@[simp] theorem glaze_cells : ((Upd.glaze g).apply s).cells = s.cells := rfl
@[simp] theorem glaze_hgen : ((Upd.glaze g).apply s).hgen = s.hgen := rfl
@[simp] theorem glaze_far : ((Upd.glaze g).apply s).far = s.far := rfl
@[simp] theorem glaze_farOld : ((Upd.glaze g).apply s).farOld = s.farOld := rfl
@[simp] theorem glaze_farSeq : ((Upd.glaze g).apply s).farSeq = s.farSeq := rfl
@[simp] theorem glaze_farAcq : ((Upd.glaze g).apply s).farAcq = s.farAcq := rfl
@[simp] theorem glaze_farFloor : ((Upd.glaze g).apply s).farFloor = s.farFloor := rfl
@[simp] theorem glaze_farPend : ((Upd.glaze g).apply s).farPend = s.farPend := rfl
@[simp] theorem glaze_farFadds : ((Upd.glaze g).apply s).farFadds = s.farFadds := rfl
@[simp] theorem glaze_farGen : ((Upd.glaze g).apply s).farGen = s.farGen := rfl
@[simp] theorem glaze_fadds : ((Upd.glaze g).apply s).fadds = s.fadds := rfl
@[simp] theorem glaze_engOld : ((Upd.glaze g).apply s).engOld = s.engOld := rfl
@[simp] theorem glaze_joins : ((Upd.glaze g).apply s).joins = s.joins := rfl
@[simp] theorem glaze_unseen : ((Upd.glaze g).apply s).unseen = s.unseen := rfl
@[simp] theorem glaze_owed : ((Upd.glaze g).apply s).owed = s.owed := rfl
@[simp] theorem glaze_times : ((Upd.glaze g).apply s).times = s.times := rfl
@[simp] theorem glaze_codeOld : ((Upd.glaze g).apply s).codeOld = s.codeOld := rfl
@[simp] theorem glaze_codeSeq : ((Upd.glaze g).apply s).codeSeq = s.codeSeq := rfl
@[simp] theorem glaze_icCovers : ((Upd.glaze g).apply s).icCovers = s.icCovers := rfl
@[simp] theorem glaze_fused : ((Upd.glaze g).apply s).fused = s.fused := rfl
@[simp] theorem glaze_launches : ((Upd.glaze g).apply s).launches = s.launches := rfl
@[simp] theorem glaze_threads : ((Upd.glaze g).apply s).threads = s.threads := rfl
@[simp] theorem glaze_slotctl : ((Upd.glaze g).apply s).slotctl = s.slotctl := rfl
@[simp] theorem glaze_qcount : ((Upd.glaze g).apply s).qcount = s.qcount := rfl
@[simp] theorem glaze_arms : ((Upd.glaze g).apply s).arms = s.arms := rfl
@[simp] theorem glaze_images : ((Upd.glaze g).apply s).images = s.images := rfl
@[simp] theorem glaze_frescos : ((Upd.glaze g).apply s).frescos = s.frescos := rfl
@[simp] theorem glaze_stencils : ((Upd.glaze g).apply s).stencils = s.stencils := rfl
@[simp] theorem glaze_glaze : ((Upd.glaze g).apply s).glaze = g := rfl
@[simp] theorem glaze_stor : ((Upd.glaze g).apply s).stor = s.stor := rfl
@[simp] theorem glaze_saved : ((Upd.glaze g).apply s).saved = s.saved := rfl
@[simp] theorem glaze_primer : ((Upd.glaze g).apply s).primer = s.primer := rfl
@[simp] theorem glaze_log : ((Upd.glaze g).apply s).log = s.log := rfl
@[simp] theorem glaze_held : ((Upd.glaze g).apply s).held = s.held := rfl
@[simp] theorem glaze_time : ((Upd.glaze g).apply s).time = s.time := rfl
@[simp] theorem glaze_node : ((Upd.glaze g).apply s).node = s.node := rfl
@[simp] theorem glaze_still : ((Upd.glaze g).apply s).still = s.still := rfl
@[simp] theorem glaze_agenda : ((Upd.glaze g).apply s).agenda = s.agenda := rfl
@[simp] theorem glaze_cur : ((Upd.glaze g).apply s).cur = s.cur := rfl
@[simp] theorem glaze_eop : ((Upd.glaze g).apply s).eop = s.eop := rfl
@[simp] theorem glaze_fwd : ((Upd.glaze g).apply s).fwd = s.fwd := rfl
@[simp] theorem glaze_oracle : ((Upd.glaze g).apply s).oracle = s.oracle := rfl
@[simp] theorem glaze_tick : ((Upd.glaze g).apply s).tick = s.tick := rfl
@[simp] theorem glaze_seq : ((Upd.glaze g).apply s).seq = s.seq := rfl

end

/-! ### choose -/

section

variable (s : State)

@[simp] theorem choose_ctxs : (Upd.choose.apply s).ctxs = s.ctxs := rfl
@[simp] theorem choose_cores : (Upd.choose.apply s).cores = s.cores := rfl
@[simp] theorem choose_dies : (Upd.choose.apply s).dies = s.dies := rfl
@[simp] theorem choose_mem : (Upd.choose.apply s).mem = s.mem := rfl
@[simp] theorem choose_bad : (Upd.choose.apply s).bad = s.bad := rfl
@[simp] theorem choose_lineKey : (Upd.choose.apply s).lineKey = s.lineKey := rfl
@[simp] theorem choose_keyPlain : (Upd.choose.apply s).keyPlain = s.keyPlain := rfl
@[simp] theorem choose_keyGen : (Upd.choose.apply s).keyGen = s.keyGen := rfl
@[simp] theorem choose_ls : (Upd.choose.apply s).ls = s.ls := rfl
@[simp] theorem choose_lsBad : (Upd.choose.apply s).lsBad = s.lsBad := rfl
@[simp] theorem choose_plane : (Upd.choose.apply s).plane = s.plane := rfl
@[simp] theorem choose_planeBad : (Upd.choose.apply s).planeBad = s.planeBad := rfl
@[simp] theorem choose_cells : (Upd.choose.apply s).cells = s.cells := rfl
@[simp] theorem choose_hgen : (Upd.choose.apply s).hgen = s.hgen := rfl
@[simp] theorem choose_far : (Upd.choose.apply s).far = s.far := rfl
@[simp] theorem choose_farOld : (Upd.choose.apply s).farOld = s.farOld := rfl
@[simp] theorem choose_farSeq : (Upd.choose.apply s).farSeq = s.farSeq := rfl
@[simp] theorem choose_farAcq : (Upd.choose.apply s).farAcq = s.farAcq := rfl
@[simp] theorem choose_farFloor : (Upd.choose.apply s).farFloor = s.farFloor := rfl
@[simp] theorem choose_farPend : (Upd.choose.apply s).farPend = s.farPend := rfl
@[simp] theorem choose_farFadds : (Upd.choose.apply s).farFadds = s.farFadds := rfl
@[simp] theorem choose_farGen : (Upd.choose.apply s).farGen = s.farGen := rfl
@[simp] theorem choose_fadds : (Upd.choose.apply s).fadds = s.fadds := rfl
@[simp] theorem choose_engOld : (Upd.choose.apply s).engOld = s.engOld := rfl
@[simp] theorem choose_joins : (Upd.choose.apply s).joins = s.joins := rfl
@[simp] theorem choose_unseen : (Upd.choose.apply s).unseen = s.unseen := rfl
@[simp] theorem choose_owed : (Upd.choose.apply s).owed = s.owed := rfl
@[simp] theorem choose_times : (Upd.choose.apply s).times = s.times := rfl
@[simp] theorem choose_codeOld : (Upd.choose.apply s).codeOld = s.codeOld := rfl
@[simp] theorem choose_codeSeq : (Upd.choose.apply s).codeSeq = s.codeSeq := rfl
@[simp] theorem choose_icCovers : (Upd.choose.apply s).icCovers = s.icCovers := rfl
@[simp] theorem choose_fused : (Upd.choose.apply s).fused = s.fused := rfl
@[simp] theorem choose_launches : (Upd.choose.apply s).launches = s.launches := rfl
@[simp] theorem choose_threads : (Upd.choose.apply s).threads = s.threads := rfl
@[simp] theorem choose_slotctl : (Upd.choose.apply s).slotctl = s.slotctl := rfl
@[simp] theorem choose_qcount : (Upd.choose.apply s).qcount = s.qcount := rfl
@[simp] theorem choose_arms : (Upd.choose.apply s).arms = s.arms := rfl
@[simp] theorem choose_images : (Upd.choose.apply s).images = s.images := rfl
@[simp] theorem choose_frescos : (Upd.choose.apply s).frescos = s.frescos := rfl
@[simp] theorem choose_stencils : (Upd.choose.apply s).stencils = s.stencils := rfl
@[simp] theorem choose_glaze : (Upd.choose.apply s).glaze = s.glaze := rfl
@[simp] theorem choose_stor : (Upd.choose.apply s).stor = s.stor := rfl
@[simp] theorem choose_saved : (Upd.choose.apply s).saved = s.saved := rfl
@[simp] theorem choose_primer : (Upd.choose.apply s).primer = s.primer := rfl
@[simp] theorem choose_log : (Upd.choose.apply s).log = s.log := rfl
@[simp] theorem choose_held : (Upd.choose.apply s).held = s.held := rfl
@[simp] theorem choose_time : (Upd.choose.apply s).time = s.time := rfl
@[simp] theorem choose_node : (Upd.choose.apply s).node = s.node := rfl
@[simp] theorem choose_still : (Upd.choose.apply s).still = s.still := rfl
@[simp] theorem choose_agenda : (Upd.choose.apply s).agenda = s.agenda := rfl
@[simp] theorem choose_cur : (Upd.choose.apply s).cur = s.cur := rfl
@[simp] theorem choose_eop : (Upd.choose.apply s).eop = s.eop := rfl
@[simp] theorem choose_fwd : (Upd.choose.apply s).fwd = s.fwd := rfl
@[simp] theorem choose_oracle : (Upd.choose.apply s).oracle = s.oracle + 1 := rfl
@[simp] theorem choose_tick : (Upd.choose.apply s).tick = s.tick := rfl
@[simp] theorem choose_seq : (Upd.choose.apply s).seq = s.seq := rfl

end

/-! ### chosen -/

section

variable (s : State) (n : Nat)

@[simp] theorem chosen_ctxs : ((Upd.chosen n).apply s).ctxs = s.ctxs := rfl
@[simp] theorem chosen_cores : ((Upd.chosen n).apply s).cores = s.cores := rfl
@[simp] theorem chosen_dies : ((Upd.chosen n).apply s).dies = s.dies := rfl
@[simp] theorem chosen_mem : ((Upd.chosen n).apply s).mem = s.mem := rfl
@[simp] theorem chosen_bad : ((Upd.chosen n).apply s).bad = s.bad := rfl
@[simp] theorem chosen_lineKey : ((Upd.chosen n).apply s).lineKey = s.lineKey := rfl
@[simp] theorem chosen_keyPlain : ((Upd.chosen n).apply s).keyPlain = s.keyPlain := rfl
@[simp] theorem chosen_keyGen : ((Upd.chosen n).apply s).keyGen = s.keyGen := rfl
@[simp] theorem chosen_ls : ((Upd.chosen n).apply s).ls = s.ls := rfl
@[simp] theorem chosen_lsBad : ((Upd.chosen n).apply s).lsBad = s.lsBad := rfl
@[simp] theorem chosen_plane : ((Upd.chosen n).apply s).plane = s.plane := rfl
@[simp] theorem chosen_planeBad : ((Upd.chosen n).apply s).planeBad = s.planeBad := rfl
@[simp] theorem chosen_cells : ((Upd.chosen n).apply s).cells = s.cells := rfl
@[simp] theorem chosen_hgen : ((Upd.chosen n).apply s).hgen = s.hgen := rfl
@[simp] theorem chosen_far : ((Upd.chosen n).apply s).far = s.far := rfl
@[simp] theorem chosen_farOld : ((Upd.chosen n).apply s).farOld = s.farOld := rfl
@[simp] theorem chosen_farSeq : ((Upd.chosen n).apply s).farSeq = s.farSeq := rfl
@[simp] theorem chosen_farAcq : ((Upd.chosen n).apply s).farAcq = s.farAcq := rfl
@[simp] theorem chosen_farFloor : ((Upd.chosen n).apply s).farFloor = s.farFloor := rfl
@[simp] theorem chosen_farPend : ((Upd.chosen n).apply s).farPend = s.farPend := rfl
@[simp] theorem chosen_farFadds : ((Upd.chosen n).apply s).farFadds = s.farFadds := rfl
@[simp] theorem chosen_farGen : ((Upd.chosen n).apply s).farGen = s.farGen := rfl
@[simp] theorem chosen_fadds : ((Upd.chosen n).apply s).fadds = s.fadds := rfl
@[simp] theorem chosen_engOld : ((Upd.chosen n).apply s).engOld = s.engOld := rfl
@[simp] theorem chosen_joins : ((Upd.chosen n).apply s).joins = s.joins := rfl
@[simp] theorem chosen_unseen : ((Upd.chosen n).apply s).unseen = s.unseen := rfl
@[simp] theorem chosen_owed : ((Upd.chosen n).apply s).owed = s.owed := rfl
@[simp] theorem chosen_times : ((Upd.chosen n).apply s).times = s.times := rfl
@[simp] theorem chosen_codeOld : ((Upd.chosen n).apply s).codeOld = s.codeOld := rfl
@[simp] theorem chosen_codeSeq : ((Upd.chosen n).apply s).codeSeq = s.codeSeq := rfl
@[simp] theorem chosen_icCovers : ((Upd.chosen n).apply s).icCovers = s.icCovers := rfl
@[simp] theorem chosen_fused : ((Upd.chosen n).apply s).fused = s.fused := rfl
@[simp] theorem chosen_launches : ((Upd.chosen n).apply s).launches = s.launches := rfl
@[simp] theorem chosen_threads : ((Upd.chosen n).apply s).threads = s.threads := rfl
@[simp] theorem chosen_slotctl : ((Upd.chosen n).apply s).slotctl = s.slotctl := rfl
@[simp] theorem chosen_qcount : ((Upd.chosen n).apply s).qcount = s.qcount := rfl
@[simp] theorem chosen_arms : ((Upd.chosen n).apply s).arms = s.arms := rfl
@[simp] theorem chosen_images : ((Upd.chosen n).apply s).images = s.images := rfl
@[simp] theorem chosen_frescos : ((Upd.chosen n).apply s).frescos = s.frescos := rfl
@[simp] theorem chosen_stencils : ((Upd.chosen n).apply s).stencils = s.stencils := rfl
@[simp] theorem chosen_glaze : ((Upd.chosen n).apply s).glaze = s.glaze := rfl
@[simp] theorem chosen_stor : ((Upd.chosen n).apply s).stor = s.stor := rfl
@[simp] theorem chosen_saved : ((Upd.chosen n).apply s).saved = s.saved := rfl
@[simp] theorem chosen_primer : ((Upd.chosen n).apply s).primer = s.primer := rfl
@[simp] theorem chosen_log : ((Upd.chosen n).apply s).log = s.log := rfl
@[simp] theorem chosen_held : ((Upd.chosen n).apply s).held = s.held := rfl
@[simp] theorem chosen_time : ((Upd.chosen n).apply s).time = s.time := rfl
@[simp] theorem chosen_node : ((Upd.chosen n).apply s).node = s.node := rfl
@[simp] theorem chosen_still : ((Upd.chosen n).apply s).still = s.still := rfl
@[simp] theorem chosen_agenda : ((Upd.chosen n).apply s).agenda = s.agenda := rfl
@[simp] theorem chosen_cur : ((Upd.chosen n).apply s).cur = s.cur := rfl
@[simp] theorem chosen_eop : ((Upd.chosen n).apply s).eop = s.eop := rfl
@[simp] theorem chosen_fwd : ((Upd.chosen n).apply s).fwd = s.fwd := rfl
@[simp] theorem chosen_oracle : ((Upd.chosen n).apply s).oracle = n := rfl
@[simp] theorem chosen_tick : ((Upd.chosen n).apply s).tick = s.tick := rfl
@[simp] theorem chosen_seq : ((Upd.chosen n).apply s).seq = s.seq := rfl

end

/-! ### nextSeq -/

section

variable (s : State)

@[simp] theorem nextSeq_ctxs : (Upd.nextSeq.apply s).ctxs = s.ctxs := rfl
@[simp] theorem nextSeq_cores : (Upd.nextSeq.apply s).cores = s.cores := rfl
@[simp] theorem nextSeq_dies : (Upd.nextSeq.apply s).dies = s.dies := rfl
@[simp] theorem nextSeq_mem : (Upd.nextSeq.apply s).mem = s.mem := rfl
@[simp] theorem nextSeq_bad : (Upd.nextSeq.apply s).bad = s.bad := rfl
@[simp] theorem nextSeq_lineKey : (Upd.nextSeq.apply s).lineKey = s.lineKey := rfl
@[simp] theorem nextSeq_keyPlain : (Upd.nextSeq.apply s).keyPlain = s.keyPlain := rfl
@[simp] theorem nextSeq_keyGen : (Upd.nextSeq.apply s).keyGen = s.keyGen := rfl
@[simp] theorem nextSeq_ls : (Upd.nextSeq.apply s).ls = s.ls := rfl
@[simp] theorem nextSeq_lsBad : (Upd.nextSeq.apply s).lsBad = s.lsBad := rfl
@[simp] theorem nextSeq_plane : (Upd.nextSeq.apply s).plane = s.plane := rfl
@[simp] theorem nextSeq_planeBad : (Upd.nextSeq.apply s).planeBad = s.planeBad := rfl
@[simp] theorem nextSeq_cells : (Upd.nextSeq.apply s).cells = s.cells := rfl
@[simp] theorem nextSeq_hgen : (Upd.nextSeq.apply s).hgen = s.hgen := rfl
@[simp] theorem nextSeq_far : (Upd.nextSeq.apply s).far = s.far := rfl
@[simp] theorem nextSeq_farOld : (Upd.nextSeq.apply s).farOld = s.farOld := rfl
@[simp] theorem nextSeq_farSeq : (Upd.nextSeq.apply s).farSeq = s.farSeq := rfl
@[simp] theorem nextSeq_farAcq : (Upd.nextSeq.apply s).farAcq = s.farAcq := rfl
@[simp] theorem nextSeq_farFloor : (Upd.nextSeq.apply s).farFloor = s.farFloor := rfl
@[simp] theorem nextSeq_farPend : (Upd.nextSeq.apply s).farPend = s.farPend := rfl
@[simp] theorem nextSeq_farFadds : (Upd.nextSeq.apply s).farFadds = s.farFadds := rfl
@[simp] theorem nextSeq_farGen : (Upd.nextSeq.apply s).farGen = s.farGen := rfl
@[simp] theorem nextSeq_fadds : (Upd.nextSeq.apply s).fadds = s.fadds := rfl
@[simp] theorem nextSeq_engOld : (Upd.nextSeq.apply s).engOld = s.engOld := rfl
@[simp] theorem nextSeq_joins : (Upd.nextSeq.apply s).joins = s.joins := rfl
@[simp] theorem nextSeq_unseen : (Upd.nextSeq.apply s).unseen = s.unseen := rfl
@[simp] theorem nextSeq_owed : (Upd.nextSeq.apply s).owed = s.owed := rfl
@[simp] theorem nextSeq_times : (Upd.nextSeq.apply s).times = s.times := rfl
@[simp] theorem nextSeq_codeOld : (Upd.nextSeq.apply s).codeOld = s.codeOld := rfl
@[simp] theorem nextSeq_codeSeq : (Upd.nextSeq.apply s).codeSeq = s.codeSeq := rfl
@[simp] theorem nextSeq_icCovers : (Upd.nextSeq.apply s).icCovers = s.icCovers := rfl
@[simp] theorem nextSeq_fused : (Upd.nextSeq.apply s).fused = s.fused := rfl
@[simp] theorem nextSeq_launches : (Upd.nextSeq.apply s).launches = s.launches := rfl
@[simp] theorem nextSeq_threads : (Upd.nextSeq.apply s).threads = s.threads := rfl
@[simp] theorem nextSeq_slotctl : (Upd.nextSeq.apply s).slotctl = s.slotctl := rfl
@[simp] theorem nextSeq_qcount : (Upd.nextSeq.apply s).qcount = s.qcount := rfl
@[simp] theorem nextSeq_arms : (Upd.nextSeq.apply s).arms = s.arms := rfl
@[simp] theorem nextSeq_images : (Upd.nextSeq.apply s).images = s.images := rfl
@[simp] theorem nextSeq_frescos : (Upd.nextSeq.apply s).frescos = s.frescos := rfl
@[simp] theorem nextSeq_stencils : (Upd.nextSeq.apply s).stencils = s.stencils := rfl
@[simp] theorem nextSeq_glaze : (Upd.nextSeq.apply s).glaze = s.glaze := rfl
@[simp] theorem nextSeq_stor : (Upd.nextSeq.apply s).stor = s.stor := rfl
@[simp] theorem nextSeq_saved : (Upd.nextSeq.apply s).saved = s.saved := rfl
@[simp] theorem nextSeq_primer : (Upd.nextSeq.apply s).primer = s.primer := rfl
@[simp] theorem nextSeq_log : (Upd.nextSeq.apply s).log = s.log := rfl
@[simp] theorem nextSeq_held : (Upd.nextSeq.apply s).held = s.held := rfl
@[simp] theorem nextSeq_time : (Upd.nextSeq.apply s).time = s.time := rfl
@[simp] theorem nextSeq_node : (Upd.nextSeq.apply s).node = s.node := rfl
@[simp] theorem nextSeq_still : (Upd.nextSeq.apply s).still = s.still := rfl
@[simp] theorem nextSeq_agenda : (Upd.nextSeq.apply s).agenda = s.agenda := rfl
@[simp] theorem nextSeq_cur : (Upd.nextSeq.apply s).cur = s.cur := rfl
@[simp] theorem nextSeq_eop : (Upd.nextSeq.apply s).eop = s.eop := rfl
@[simp] theorem nextSeq_fwd : (Upd.nextSeq.apply s).fwd = s.fwd := rfl
@[simp] theorem nextSeq_oracle : (Upd.nextSeq.apply s).oracle = s.oracle := rfl
@[simp] theorem nextSeq_tick : (Upd.nextSeq.apply s).tick = s.tick := rfl
@[simp] theorem nextSeq_seq : (Upd.nextSeq.apply s).seq = s.seq + 1 := rfl

end

/-! ### primer -/

section

variable (s : State) (p : Primer)

@[simp] theorem primer_ctxs : ((Upd.primer p).apply s).ctxs = s.ctxs := rfl
@[simp] theorem primer_cores : ((Upd.primer p).apply s).cores = s.cores := rfl
@[simp] theorem primer_dies : ((Upd.primer p).apply s).dies = s.dies := rfl
@[simp] theorem primer_mem : ((Upd.primer p).apply s).mem = s.mem := rfl
@[simp] theorem primer_bad : ((Upd.primer p).apply s).bad = s.bad := rfl
@[simp] theorem primer_lineKey : ((Upd.primer p).apply s).lineKey = s.lineKey := rfl
@[simp] theorem primer_keyPlain : ((Upd.primer p).apply s).keyPlain = s.keyPlain := rfl
@[simp] theorem primer_keyGen : ((Upd.primer p).apply s).keyGen = s.keyGen := rfl
@[simp] theorem primer_ls : ((Upd.primer p).apply s).ls = s.ls := rfl
@[simp] theorem primer_lsBad : ((Upd.primer p).apply s).lsBad = s.lsBad := rfl
@[simp] theorem primer_plane : ((Upd.primer p).apply s).plane = s.plane := rfl
@[simp] theorem primer_planeBad : ((Upd.primer p).apply s).planeBad = s.planeBad := rfl
@[simp] theorem primer_cells : ((Upd.primer p).apply s).cells = s.cells := rfl
@[simp] theorem primer_hgen : ((Upd.primer p).apply s).hgen = s.hgen := rfl
@[simp] theorem primer_far : ((Upd.primer p).apply s).far = s.far := rfl
@[simp] theorem primer_farOld : ((Upd.primer p).apply s).farOld = s.farOld := rfl
@[simp] theorem primer_farSeq : ((Upd.primer p).apply s).farSeq = s.farSeq := rfl
@[simp] theorem primer_farAcq : ((Upd.primer p).apply s).farAcq = s.farAcq := rfl
@[simp] theorem primer_farFloor : ((Upd.primer p).apply s).farFloor = s.farFloor := rfl
@[simp] theorem primer_farPend : ((Upd.primer p).apply s).farPend = s.farPend := rfl
@[simp] theorem primer_farFadds : ((Upd.primer p).apply s).farFadds = s.farFadds := rfl
@[simp] theorem primer_farGen : ((Upd.primer p).apply s).farGen = s.farGen := rfl
@[simp] theorem primer_fadds : ((Upd.primer p).apply s).fadds = s.fadds := rfl
@[simp] theorem primer_engOld : ((Upd.primer p).apply s).engOld = s.engOld := rfl
@[simp] theorem primer_joins : ((Upd.primer p).apply s).joins = s.joins := rfl
@[simp] theorem primer_unseen : ((Upd.primer p).apply s).unseen = s.unseen := rfl
@[simp] theorem primer_owed : ((Upd.primer p).apply s).owed = s.owed := rfl
@[simp] theorem primer_times : ((Upd.primer p).apply s).times = s.times := rfl
@[simp] theorem primer_codeOld : ((Upd.primer p).apply s).codeOld = s.codeOld := rfl
@[simp] theorem primer_codeSeq : ((Upd.primer p).apply s).codeSeq = s.codeSeq := rfl
@[simp] theorem primer_icCovers : ((Upd.primer p).apply s).icCovers = s.icCovers := rfl
@[simp] theorem primer_fused : ((Upd.primer p).apply s).fused = s.fused := rfl
@[simp] theorem primer_launches : ((Upd.primer p).apply s).launches = s.launches := rfl
@[simp] theorem primer_threads : ((Upd.primer p).apply s).threads = s.threads := rfl
@[simp] theorem primer_slotctl : ((Upd.primer p).apply s).slotctl = s.slotctl := rfl
@[simp] theorem primer_qcount : ((Upd.primer p).apply s).qcount = s.qcount := rfl
@[simp] theorem primer_arms : ((Upd.primer p).apply s).arms = s.arms := rfl
@[simp] theorem primer_images : ((Upd.primer p).apply s).images = s.images := rfl
@[simp] theorem primer_frescos : ((Upd.primer p).apply s).frescos = s.frescos := rfl
@[simp] theorem primer_stencils : ((Upd.primer p).apply s).stencils = s.stencils := rfl
@[simp] theorem primer_glaze : ((Upd.primer p).apply s).glaze = s.glaze := rfl
@[simp] theorem primer_stor : ((Upd.primer p).apply s).stor = s.stor := rfl
@[simp] theorem primer_saved : ((Upd.primer p).apply s).saved = s.saved := rfl
@[simp] theorem primer_primer : ((Upd.primer p).apply s).primer = p := rfl
@[simp] theorem primer_log : ((Upd.primer p).apply s).log = s.log := rfl
@[simp] theorem primer_held : ((Upd.primer p).apply s).held = s.held := rfl
@[simp] theorem primer_time : ((Upd.primer p).apply s).time = s.time := rfl
@[simp] theorem primer_node : ((Upd.primer p).apply s).node = s.node := rfl
@[simp] theorem primer_still : ((Upd.primer p).apply s).still = s.still := rfl
@[simp] theorem primer_agenda : ((Upd.primer p).apply s).agenda = s.agenda := rfl
@[simp] theorem primer_cur : ((Upd.primer p).apply s).cur = s.cur := rfl
@[simp] theorem primer_eop : ((Upd.primer p).apply s).eop = s.eop := rfl
@[simp] theorem primer_fwd : ((Upd.primer p).apply s).fwd = s.fwd := rfl
@[simp] theorem primer_oracle : ((Upd.primer p).apply s).oracle = s.oracle := rfl
@[simp] theorem primer_tick : ((Upd.primer p).apply s).tick = s.tick := rfl
@[simp] theorem primer_seq : ((Upd.primer p).apply s).seq = s.seq := rfl

end

/-! ### codeOld -/

section

variable (s : State) (m : TMap (List OldWord))

@[simp] theorem codeOld_ctxs : ((Upd.codeOld m).apply s).ctxs = s.ctxs := rfl
@[simp] theorem codeOld_cores : ((Upd.codeOld m).apply s).cores = s.cores := rfl
@[simp] theorem codeOld_dies : ((Upd.codeOld m).apply s).dies = s.dies := rfl
@[simp] theorem codeOld_mem : ((Upd.codeOld m).apply s).mem = s.mem := rfl
@[simp] theorem codeOld_bad : ((Upd.codeOld m).apply s).bad = s.bad := rfl
@[simp] theorem codeOld_lineKey : ((Upd.codeOld m).apply s).lineKey = s.lineKey := rfl
@[simp] theorem codeOld_keyPlain : ((Upd.codeOld m).apply s).keyPlain = s.keyPlain := rfl
@[simp] theorem codeOld_keyGen : ((Upd.codeOld m).apply s).keyGen = s.keyGen := rfl
@[simp] theorem codeOld_ls : ((Upd.codeOld m).apply s).ls = s.ls := rfl
@[simp] theorem codeOld_lsBad : ((Upd.codeOld m).apply s).lsBad = s.lsBad := rfl
@[simp] theorem codeOld_plane : ((Upd.codeOld m).apply s).plane = s.plane := rfl
@[simp] theorem codeOld_planeBad : ((Upd.codeOld m).apply s).planeBad = s.planeBad := rfl
@[simp] theorem codeOld_cells : ((Upd.codeOld m).apply s).cells = s.cells := rfl
@[simp] theorem codeOld_hgen : ((Upd.codeOld m).apply s).hgen = s.hgen := rfl
@[simp] theorem codeOld_far : ((Upd.codeOld m).apply s).far = s.far := rfl
@[simp] theorem codeOld_farOld : ((Upd.codeOld m).apply s).farOld = s.farOld := rfl
@[simp] theorem codeOld_farSeq : ((Upd.codeOld m).apply s).farSeq = s.farSeq := rfl
@[simp] theorem codeOld_farAcq : ((Upd.codeOld m).apply s).farAcq = s.farAcq := rfl
@[simp] theorem codeOld_farFloor : ((Upd.codeOld m).apply s).farFloor = s.farFloor := rfl
@[simp] theorem codeOld_farPend : ((Upd.codeOld m).apply s).farPend = s.farPend := rfl
@[simp] theorem codeOld_farFadds : ((Upd.codeOld m).apply s).farFadds = s.farFadds := rfl
@[simp] theorem codeOld_farGen : ((Upd.codeOld m).apply s).farGen = s.farGen := rfl
@[simp] theorem codeOld_fadds : ((Upd.codeOld m).apply s).fadds = s.fadds := rfl
@[simp] theorem codeOld_engOld : ((Upd.codeOld m).apply s).engOld = s.engOld := rfl
@[simp] theorem codeOld_joins : ((Upd.codeOld m).apply s).joins = s.joins := rfl
@[simp] theorem codeOld_unseen : ((Upd.codeOld m).apply s).unseen = s.unseen := rfl
@[simp] theorem codeOld_owed : ((Upd.codeOld m).apply s).owed = s.owed := rfl
@[simp] theorem codeOld_times : ((Upd.codeOld m).apply s).times = s.times := rfl
@[simp] theorem codeOld_codeOld : ((Upd.codeOld m).apply s).codeOld = m := rfl
@[simp] theorem codeOld_codeSeq : ((Upd.codeOld m).apply s).codeSeq = s.codeSeq + 1 := rfl
@[simp] theorem codeOld_icCovers : ((Upd.codeOld m).apply s).icCovers = s.icCovers := rfl
@[simp] theorem codeOld_fused : ((Upd.codeOld m).apply s).fused = s.fused := rfl
@[simp] theorem codeOld_launches : ((Upd.codeOld m).apply s).launches = s.launches := rfl
@[simp] theorem codeOld_threads : ((Upd.codeOld m).apply s).threads = s.threads := rfl
@[simp] theorem codeOld_slotctl : ((Upd.codeOld m).apply s).slotctl = s.slotctl := rfl
@[simp] theorem codeOld_qcount : ((Upd.codeOld m).apply s).qcount = s.qcount := rfl
@[simp] theorem codeOld_arms : ((Upd.codeOld m).apply s).arms = s.arms := rfl
@[simp] theorem codeOld_images : ((Upd.codeOld m).apply s).images = s.images := rfl
@[simp] theorem codeOld_frescos : ((Upd.codeOld m).apply s).frescos = s.frescos := rfl
@[simp] theorem codeOld_stencils : ((Upd.codeOld m).apply s).stencils = s.stencils := rfl
@[simp] theorem codeOld_glaze : ((Upd.codeOld m).apply s).glaze = s.glaze := rfl
@[simp] theorem codeOld_stor : ((Upd.codeOld m).apply s).stor = s.stor := rfl
@[simp] theorem codeOld_saved : ((Upd.codeOld m).apply s).saved = s.saved := rfl
@[simp] theorem codeOld_primer : ((Upd.codeOld m).apply s).primer = s.primer := rfl
@[simp] theorem codeOld_log : ((Upd.codeOld m).apply s).log = s.log := rfl
@[simp] theorem codeOld_held : ((Upd.codeOld m).apply s).held = s.held := rfl
@[simp] theorem codeOld_time : ((Upd.codeOld m).apply s).time = s.time := rfl
@[simp] theorem codeOld_node : ((Upd.codeOld m).apply s).node = s.node := rfl
@[simp] theorem codeOld_still : ((Upd.codeOld m).apply s).still = s.still := rfl
@[simp] theorem codeOld_agenda : ((Upd.codeOld m).apply s).agenda = s.agenda := rfl
@[simp] theorem codeOld_cur : ((Upd.codeOld m).apply s).cur = s.cur := rfl
@[simp] theorem codeOld_eop : ((Upd.codeOld m).apply s).eop = s.eop := rfl
@[simp] theorem codeOld_fwd : ((Upd.codeOld m).apply s).fwd = s.fwd := rfl
@[simp] theorem codeOld_oracle : ((Upd.codeOld m).apply s).oracle = s.oracle := rfl
@[simp] theorem codeOld_tick : ((Upd.codeOld m).apply s).tick = s.tick := rfl
@[simp] theorem codeOld_seq : ((Upd.codeOld m).apply s).seq = s.seq := rfl

end

/-! ### farAcq -/

section

variable (s : State) (m : TMap Nat)

@[simp] theorem farAcq_ctxs : ((Upd.farAcq m).apply s).ctxs = s.ctxs := rfl
@[simp] theorem farAcq_cores : ((Upd.farAcq m).apply s).cores = s.cores := rfl
@[simp] theorem farAcq_dies : ((Upd.farAcq m).apply s).dies = s.dies := rfl
@[simp] theorem farAcq_mem : ((Upd.farAcq m).apply s).mem = s.mem := rfl
@[simp] theorem farAcq_bad : ((Upd.farAcq m).apply s).bad = s.bad := rfl
@[simp] theorem farAcq_lineKey : ((Upd.farAcq m).apply s).lineKey = s.lineKey := rfl
@[simp] theorem farAcq_keyPlain : ((Upd.farAcq m).apply s).keyPlain = s.keyPlain := rfl
@[simp] theorem farAcq_keyGen : ((Upd.farAcq m).apply s).keyGen = s.keyGen := rfl
@[simp] theorem farAcq_ls : ((Upd.farAcq m).apply s).ls = s.ls := rfl
@[simp] theorem farAcq_lsBad : ((Upd.farAcq m).apply s).lsBad = s.lsBad := rfl
@[simp] theorem farAcq_plane : ((Upd.farAcq m).apply s).plane = s.plane := rfl
@[simp] theorem farAcq_planeBad : ((Upd.farAcq m).apply s).planeBad = s.planeBad := rfl
@[simp] theorem farAcq_cells : ((Upd.farAcq m).apply s).cells = s.cells := rfl
@[simp] theorem farAcq_hgen : ((Upd.farAcq m).apply s).hgen = s.hgen := rfl
@[simp] theorem farAcq_far : ((Upd.farAcq m).apply s).far = s.far := rfl
@[simp] theorem farAcq_farOld : ((Upd.farAcq m).apply s).farOld = s.farOld := rfl
@[simp] theorem farAcq_farSeq : ((Upd.farAcq m).apply s).farSeq = s.farSeq := rfl
@[simp] theorem farAcq_farAcq : ((Upd.farAcq m).apply s).farAcq = m := rfl
@[simp] theorem farAcq_farFloor : ((Upd.farAcq m).apply s).farFloor = s.farFloor := rfl
@[simp] theorem farAcq_farPend : ((Upd.farAcq m).apply s).farPend = s.farPend := rfl
@[simp] theorem farAcq_farFadds : ((Upd.farAcq m).apply s).farFadds = s.farFadds := rfl
@[simp] theorem farAcq_farGen : ((Upd.farAcq m).apply s).farGen = s.farGen := rfl
@[simp] theorem farAcq_fadds : ((Upd.farAcq m).apply s).fadds = s.fadds := rfl
@[simp] theorem farAcq_engOld : ((Upd.farAcq m).apply s).engOld = s.engOld := rfl
@[simp] theorem farAcq_joins : ((Upd.farAcq m).apply s).joins = s.joins := rfl
@[simp] theorem farAcq_unseen : ((Upd.farAcq m).apply s).unseen = s.unseen := rfl
@[simp] theorem farAcq_owed : ((Upd.farAcq m).apply s).owed = s.owed := rfl
@[simp] theorem farAcq_times : ((Upd.farAcq m).apply s).times = s.times := rfl
@[simp] theorem farAcq_codeOld : ((Upd.farAcq m).apply s).codeOld = s.codeOld := rfl
@[simp] theorem farAcq_codeSeq : ((Upd.farAcq m).apply s).codeSeq = s.codeSeq := rfl
@[simp] theorem farAcq_icCovers : ((Upd.farAcq m).apply s).icCovers = s.icCovers := rfl
@[simp] theorem farAcq_fused : ((Upd.farAcq m).apply s).fused = s.fused := rfl
@[simp] theorem farAcq_launches : ((Upd.farAcq m).apply s).launches = s.launches := rfl
@[simp] theorem farAcq_threads : ((Upd.farAcq m).apply s).threads = s.threads := rfl
@[simp] theorem farAcq_slotctl : ((Upd.farAcq m).apply s).slotctl = s.slotctl := rfl
@[simp] theorem farAcq_qcount : ((Upd.farAcq m).apply s).qcount = s.qcount := rfl
@[simp] theorem farAcq_arms : ((Upd.farAcq m).apply s).arms = s.arms := rfl
@[simp] theorem farAcq_images : ((Upd.farAcq m).apply s).images = s.images := rfl
@[simp] theorem farAcq_frescos : ((Upd.farAcq m).apply s).frescos = s.frescos := rfl
@[simp] theorem farAcq_stencils : ((Upd.farAcq m).apply s).stencils = s.stencils := rfl
@[simp] theorem farAcq_glaze : ((Upd.farAcq m).apply s).glaze = s.glaze := rfl
@[simp] theorem farAcq_stor : ((Upd.farAcq m).apply s).stor = s.stor := rfl
@[simp] theorem farAcq_saved : ((Upd.farAcq m).apply s).saved = s.saved := rfl
@[simp] theorem farAcq_primer : ((Upd.farAcq m).apply s).primer = s.primer := rfl
@[simp] theorem farAcq_log : ((Upd.farAcq m).apply s).log = s.log := rfl
@[simp] theorem farAcq_held : ((Upd.farAcq m).apply s).held = s.held := rfl
@[simp] theorem farAcq_time : ((Upd.farAcq m).apply s).time = s.time := rfl
@[simp] theorem farAcq_node : ((Upd.farAcq m).apply s).node = s.node := rfl
@[simp] theorem farAcq_still : ((Upd.farAcq m).apply s).still = s.still := rfl
@[simp] theorem farAcq_agenda : ((Upd.farAcq m).apply s).agenda = s.agenda := rfl
@[simp] theorem farAcq_cur : ((Upd.farAcq m).apply s).cur = s.cur := rfl
@[simp] theorem farAcq_eop : ((Upd.farAcq m).apply s).eop = s.eop := rfl
@[simp] theorem farAcq_fwd : ((Upd.farAcq m).apply s).fwd = s.fwd := rfl
@[simp] theorem farAcq_oracle : ((Upd.farAcq m).apply s).oracle = s.oracle := rfl
@[simp] theorem farAcq_tick : ((Upd.farAcq m).apply s).tick = s.tick := rfl
@[simp] theorem farAcq_seq : ((Upd.farAcq m).apply s).seq = s.seq := rfl

end

/-! ### Readers -/

section

variable (s : State)

theorem ctx_of_upd (a b : Nat) (c : Ctx) : ((Upd.ctx a c).apply s).ctx b = if b = a then c else s.ctx b := by
  simp [State.ctx, TMap.get_put]

@[simp] theorem ctx_upd_same (a : Nat) (c : Ctx) : ((Upd.ctx a c).apply s).ctx a = c := by simp [ctx_of_upd]

theorem ctx_upd_ne {a b : Nat} (c : Ctx) (h : b ≠ a) : ((Upd.ctx a c).apply s).ctx b = s.ctx b := by simp [ctx_of_upd, h]

@[simp] theorem core_upd_ctx (a n : Nat) (c : Ctx) : ((Upd.ctx a c).apply s).core n = s.core n := rfl
@[simp] theorem die_upd_ctx (a n : Nat) (c : Ctx) : ((Upd.ctx a c).apply s).die n = s.die n := rfl

theorem core_of_upd (n m : Nat) (c : Core) : ((Upd.core n c).apply s).core m = if m = n then c else s.core m := by
  simp [State.core, TMap.get_put]

@[simp] theorem core_upd_same (n : Nat) (c : Core) : ((Upd.core n c).apply s).core n = c := by simp [core_of_upd]
@[simp] theorem ctx_upd_core (a n : Nat) (c : Core) : ((Upd.core n c).apply s).ctx a = s.ctx a := rfl
@[simp] theorem die_upd_core (d n : Nat) (c : Core) : ((Upd.core n c).apply s).die d = s.die d := rfl

theorem die_of_upd (n m : Nat) (x : Die) : ((Upd.die n x).apply s).die m = if m = n then x else s.die m := by
  simp [State.die, TMap.get_put]

@[simp] theorem die_upd_same (n : Nat) (x : Die) : ((Upd.die n x).apply s).die n = x := by simp [die_of_upd]
@[simp] theorem ctx_upd_die (a n : Nat) (x : Die) : ((Upd.die n x).apply s).ctx a = s.ctx a := rfl
@[simp] theorem core_upd_die (d n : Nat) (x : Die) : ((Upd.die n x).apply s).core d = s.core d := rfl

@[simp] theorem ctx_upd_choose (a : Nat) : (Upd.choose.apply s).ctx a = s.ctx a := rfl
@[simp] theorem core_upd_choose (n : Nat) : (Upd.choose.apply s).core n = s.core n := rfl
@[simp] theorem die_upd_choose (d : Nat) : (Upd.choose.apply s).die d = s.die d := rfl
@[simp] theorem ctx_upd_nextSeq (a : Nat) : (Upd.nextSeq.apply s).ctx a = s.ctx a := rfl
@[simp] theorem core_upd_nextSeq (n : Nat) : (Upd.nextSeq.apply s).core n = s.core n := rfl
@[simp] theorem die_upd_nextSeq (d : Nat) : (Upd.nextSeq.apply s).die d = s.die d := rfl

/-- The last update of a context is the one that stands. -/
@[simp] theorem upd_ctx_ctx (a : Nat) (c d : Ctx) : (Upd.ctx a d).apply ((Upd.ctx a c).apply s) = (Upd.ctx a d).apply s := by
  simp [Upd.apply]

@[simp] theorem upd_core_core (n : Nat) (c d : Core) : (Upd.core n d).apply ((Upd.core n c).apply s) = (Upd.core n d).apply s := by
  simp [Upd.apply]

end

/-! ### Registers -/

section

variable (r : Regs)

@[simp] theorem getX_zero : r.getX 0 = 0 := rfl
@[simp] theorem setX_zero (v : Word) : r.setX 0 v = r := rfl
@[simp] theorem getK_zero : r.getK 0 = BitVec.allOnes 64 := rfl
@[simp] theorem setK_zero (v : Word) : r.setK 0 v = r := rfl

theorem getX_setX (d n : XReg) (v : Word) : (r.setX d v).getX n = if n = d ∧ d ≠ 0 then v else r.getX n := by
  by_cases hd : d = 0
  · subst hd
    rw [if_neg (fun h => h.2 rfl)]; rfl
  · by_cases h : n = d
    · subst h
      rw [if_pos ⟨rfl, hd⟩, Regs.getX, if_neg hd, Regs.setX, if_neg hd]
      simp
    · rw [if_neg (fun e => h e.1), Regs.getX, Regs.getX, Regs.setX, if_neg hd]
      have h' : n.toNat ≠ d.toNat := fun e => h (BitVec.eq_of_toNat_eq e)
      rw [TMap.get_put_ne _ _ _ h']

@[simp] theorem getX_setX_same (d : XReg) (v : Word) (h : d ≠ 0) : (r.setX d v).getX d = v := by
  rw [getX_setX, if_pos ⟨rfl, h⟩]

@[simp] theorem getV_setV_same (d : VReg) (v : VWord) : (r.setV d v).getV d = v := by simp [Regs.getV, Regs.setV]

theorem getV_setV_ne {d n : VReg} (v : VWord) (h : n ≠ d) : (r.setV d v).getV n = r.getV n := by
  have h' : n.toNat ≠ d.toNat := fun e => h (BitVec.eq_of_toNat_eq e)
  simp [Regs.getV, Regs.setV, TMap.get_put_ne _ _ _ h']

@[simp] theorem getX_setV (d : VReg) (v : VWord) (n : XReg) : (r.setV d v).getX n = r.getX n := rfl
@[simp] theorem getV_setX (d : XReg) (v : Word) (n : VReg) : (r.setX d v).getV n = r.getV n := by
  unfold Regs.setX; split <;> rfl

@[simp] theorem setX_pc (d : XReg) (v : Word) : (r.setX d v).pc = r.pc := by unfold Regs.setX; split <;> rfl
@[simp] theorem setX_flags (d : XReg) (v : Word) : (r.setX d v).flags = r.flags := by unfold Regs.setX; split <;> rfl
@[simp] theorem setX_seed (d : XReg) (v : Word) : (r.setX d v).seed = r.seed := by unfold Regs.setX; split <;> rfl
@[simp] theorem setX_vl (d : XReg) (v : Word) : (r.setX d v).vl = r.vl := by unfold Regs.setX; split <;> rfl
@[simp] theorem setX_mode (d : XReg) (v : Word) : (r.setX d v).mode = r.mode := by unfold Regs.setX; split <;> rfl
@[simp] theorem setV_pc (d : VReg) (v : VWord) : (r.setV d v).pc = r.pc := rfl
@[simp] theorem setV_flags (d : VReg) (v : VWord) : (r.setV d v).flags = r.flags := rfl
@[simp] theorem setK_pc (d : KReg) (v : Word) : (r.setK d v).pc = r.pc := by unfold Regs.setK; split <;> rfl
@[simp] theorem setK_flags (d : KReg) (v : Word) : (r.setK d v).flags = r.flags := by unfold Regs.setK; split <;> rfl

end

end Sys2Proof.Machine
end

