-- ==== Sys2Proof/Laws/Run.lean ====
section
/-! SUPPORT. What the parts of a meaning do to the state: each runs to one equation. -/

namespace Sys2Proof.Machine

variable {s0 : State} {α β : Type}

/-- The state on the way, one update later. -/
def At.upd (σ : At s0) (u : Upd) : At s0 := ⟨u.apply σ.val, .step u σ.property⟩

@[simp] theorem At.upd_val (σ : At s0) (u : Upd) : (σ.upd u).val = u.apply σ.val := rfl

theorem At.ext {σ τ : At s0} (h : σ.val = τ.val) : σ = τ := Subtype.ext h

@[simp] theorem run_pure (a : α) (σ : At s0) : (pure a : M s0 α) σ = .ok a σ := rfl

@[simp] theorem run_bind (m : M s0 α) (f : α → M s0 β) (σ : At s0) :
    (m >>= f) σ = match m σ with
      | .ok a τ => f a τ
      | .error e τ => .error e τ := by
  show EStateM.bind m f σ = _
  unfold EStateM.bind
  cases m σ <;> rfl

theorem run_bind_ok {m : M s0 α} {f : α → M s0 β} {σ τ : At s0} {a : α} (h : m σ = .ok a τ) : (m >>= f) σ = f a τ := by
  rw [run_bind, h]

theorem run_bind_error {m : M s0 α} {f : α → M s0 β} {σ τ : At s0} {e : Stop} (h : m σ = .error e τ) :
    (m >>= f) σ = .error e τ := by rw [run_bind, h]

@[simp] theorem run_st (σ : At s0) : (st : M s0 State) σ = .ok σ.val σ := rfl
@[simp] theorem run_upd (u : Upd) (σ : At s0) : upd u σ = .ok () (σ.upd u) := rfl
@[simp] theorem run_stop (x : Stop) (σ : At s0) : (stop x : M s0 α) σ = .error x σ := rfl
@[simp] theorem run_trap (c : Cause) (v : Word) (σ : At s0) : (trap c v : M s0 α) σ = .error (.trap c v false false) σ := rfl
@[simp] theorem run_me (σ : At s0) : me σ = .ok σ.val.cur σ := rfl
@[simp] theorem run_myCtx (σ : At s0) : myCtx σ = .ok (σ.val.ctx σ.val.cur) σ := rfl
@[simp] theorem run_myCore (σ : At s0) : myCore σ = .ok (coreOf σ.val.cur) σ := rfl
@[simp] theorem run_myDie (σ : At s0) : myDie σ = .ok (dieOf σ.val.cur) σ := rfl
@[simp] theorem run_readX (n : XReg) (σ : At s0) : readX n σ = .ok ((σ.val.ctx σ.val.cur).r.getX n) σ := rfl

@[simp] theorem run_modMe (f : Ctx → Ctx) (σ : At s0) :
    modMe f σ = .ok () (σ.upd (.ctx σ.val.cur (f (σ.val.ctx σ.val.cur)))) := rfl

@[simp] theorem run_modCtx (a : Nat) (f : Ctx → Ctx) (σ : At s0) :
    modCtx a f σ = .ok () (σ.upd (.ctx a (f (σ.val.ctx a)))) := rfl

@[simp] theorem run_modCore (n : Nat) (f : Core → Core) (σ : At s0) :
    modCore n f σ = .ok () (σ.upd (.core n (f (σ.val.core n)))) := rfl

@[simp] theorem run_modDie (n : Nat) (f : Die → Die) (σ : At s0) :
    modDie n f σ = .ok () (σ.upd (.die n (f (σ.val.die n)))) := rfl

@[simp] theorem run_writeX (d : XReg) (v : Word) (σ : At s0) :
    writeX d v σ = .ok () (σ.upd (.ctx σ.val.cur ((σ.val.ctx σ.val.cur).setX d v))) := rfl

@[simp] theorem run_writeV (d : VReg) (v : VWord) (σ : At s0) :
    writeV d v σ = .ok () (σ.upd (.ctx σ.val.cur ((σ.val.ctx σ.val.cur).modR fun r => r.setV d v))) := rfl

@[simp] theorem run_writeK (d : KReg) (v : Word) (σ : At s0) :
    writeK d v σ = .ok () (σ.upd (.ctx σ.val.cur ((σ.val.ctx σ.val.cur).modR fun r => r.setK d v))) := rfl

@[simp] theorem run_raiseFlags (f : BitVec 6) (σ : At s0) :
    raiseFlags f σ = .ok () (σ.upd (.ctx σ.val.cur ((σ.val.ctx σ.val.cur).modR fun r => { r with flags := r.flags ||| f }))) :=
  rfl

theorem run_attempt_ok {m : M s0 α} {σ τ : At s0} {a : α} (h : m σ = .ok a τ) : attempt m σ = .ok (.ok a) τ := by
  unfold attempt; rw [h]

/-- A precise trap gives the state before back, but for the free values taken. -/
theorem run_attempt_trap {m : M s0 α} {σ τ : At s0} {c : Cause} {v : Word} {d : Bool}
    (h : m σ = .error (.trap c v d false) τ) :
    attempt m σ = .ok (.error (.trap c v d false)) (σ.upd (.chosen τ.val.oracle)) := by
  unfold attempt; rw [h]; rfl

theorem run_attempt_wait {m : M s0 α} {σ τ : At s0} {w : Wait} (h : m σ = .error (.wait w) τ) :
    attempt m σ = .ok (.error (.wait w)) τ := by
  unfold attempt; rw [h]

/-- So does what another agent's lease holds back. -/
theorem run_attempt_refuse {m : M s0 α} {σ τ : At s0} {r : Refusal} (h : m σ = .error (.refuse r) τ) :
    attempt m σ = .ok (.error (.refuse r)) (σ.upd (.chosen τ.val.oracle)) := by
  unfold attempt; rw [h]; rfl

theorem run_attempt_stall {m : M s0 α} {σ τ : At s0} (h : m σ = .error .stall τ) :
    attempt m σ = .ok (.error .stall) τ := by
  unfold attempt; rw [h]

/-- The outcome of a run that ends well. -/
theorem run_ok {m : M s0 Unit} {τ : At s0} (h : m ⟨s0, .refl⟩ = .ok () τ) : run s0 m = .next τ.val := by
  unfold run; rw [h]

/-- Choices taken again as they were taken change nothing. -/
@[simp] theorem chosen_same (s : State) : (Upd.chosen s.oracle).apply s = s := rfl

end Sys2Proof.Machine
end

