-- ==== Sys2Proof/Laws/Issue.lean ====
section
/-! SUPPORT. How an instruction without synchronisation fields issues: its body runs once, and what the body answers says how the
step ends. -/

namespace Sys2Proof.Machine

variable {s0 : State} {α : Type}

theorem run_legal_true (σ : At s0) : legal true σ = .ok () σ := rfl

theorem run_legal {b : Bool} (h : b = true) (σ : At s0) : legal b σ = .ok () σ := by subst h; rfl

theorem run_legal_false {b : Bool} (h : b = false) (σ : At s0) :
    legal b σ = .error (.trap .illegal (σ.val.ctx σ.val.cur).ir false false) σ := by subst h; rfl

theorem run_legalSlot {n : Nat} {σ : At s0} (h : n < (σ.val.ctx σ.val.cur).nslots) : legalSlot n σ = .ok () σ := by
  rw [legalSlot, run_bind_ok (run_myCtx σ)]
  exact run_legal (decide_eq_true h) σ

theorem run_followersFull {σ : At s0} (h : σ.val.followers (coreOf σ.val.cur) = []) : followersFull σ = .ok false σ := by
  rw [followersFull, run_bind_ok (run_st σ), h]
  rfl

theorem run_resultOwed {σ : At s0} (h1 : (σ.val.glaze.msgs.any fun p => σ.val.ofCtx σ.val.cur p.2.by_) = false)
    (h2 : σ.val.owedX σ.val.cur = []) : resultOwed σ = .ok false σ := by
  rw [resultOwed, run_bind_ok (run_st σ), run_pure, h1, h2]
  rfl

theorem run_leaveQueue {σ : At s0} {a : Nat} (h : (σ.val.ctx a).prog.lease = none) : leaveQueue a σ = .ok () σ := by
  rw [leaveQueue, run_bind_ok (run_st σ), h]
  rfl

theorem run_frontChecks {sy : Sync} {pre : M s0 Unit} {σ : At s0} (hw : sy.wait = none) (hs : sy.sig = none) :
    frontChecks sy pre σ = pre σ := by
  rw [frontChecks, hw, hs];

theorem run_waitField_none {sy : Sync} (hw : sy.wait = none) (σ : At s0) : waitField sy σ = .ok () σ := by
  rw [waitField, hw]; rfl

theorem run_signalAtIssue_none {sy : Sync} (hs : sy.sig = none) (σ : At s0) : signalAtIssue sy σ = .ok () σ := by
  rw [signalAtIssue, hs]; rfl

theorem run_signalAtEnd_none {sy : Sync} (hs : sy.sig = none) (σ : At s0) : signalAtEnd sy σ = .ok () σ := by
  rw [signalAtEnd, hs]; rfl

theorem run_beforeBody {sy : Sync} {σ : At s0} (hw : sy.wait = none)
    (hr : ((σ.val.ctx σ.val.cur).replayNow && (σ.val.ctx σ.val.cur).replay.contains (σ.val.ctx σ.val.cur).r.pc) = false) :
    beforeBody sy σ = .ok () σ := by
  rw [beforeBody, run_bind_ok (run_myCtx σ)]
  simp only [hr, Bool.false_eq_true, if_false]
  exact run_waitField_none hw σ

theorem run_releaseAndSignal {sy : Sync} (hs : sy.sig = none) (σ : At s0) : releaseAndSignal sy false σ = .ok () σ := by
  rw [releaseAndSignal]
  simp only [hs, Option.isSome_none, Bool.or_self, Bool.false_eq_true, if_false]
  exact run_signalAtIssue_none hs σ

/-- What comes before the body passes over a quiet strand. -/
theorem run_wholly {sy : Sync} {body : M s0 Fin} {σ τ : At s0} {e : Except Stop Fin} (hw : sy.wait = none)
    (hs : sy.sig = none)
    (hr : ((σ.val.ctx σ.val.cur).replayNow && (σ.val.ctx σ.val.cur).replay.contains (σ.val.ctx σ.val.cur).r.pc) = false)
    (h : attempt body σ = .ok e τ) :
    wholly sy false (pure ()) (fun _ => body) σ =
      match e with
      | .error x => if x.undecoded then .error x τ else .ok (.error x) τ
      | .ok fin => .ok (.ok fin) τ := by
  rw [wholly, run_bind_ok (run_beforeBody hw hr), run_bind_ok (run_attempt_ok (run_pure () σ))]
  dsimp only
  rw [run_bind_ok (run_releaseAndSignal hs σ), run_bind_ok h]
  cases e with
  | error x => dsimp only; split <;> rfl
  | ok fin => rfl

/-- The strand of a state. -/
def State.before (s : State) : Before :=
  { r := s.regs, straight := (s.ctx s.cur).straight, errAddr := (s.ctx s.cur).errAddr, seq := s.seq }

theorem run_beforeNow (σ : At s0) : beforeNow σ = .ok σ.val.before σ := rfl

/-- An instruction of a quiet strand comes down to its body and its checks. -/
theorem issue_quiet {s : State} {sy : Sync} {engine : Bool} {pre : M s Unit} {body : M s Fin}
    (hq : s.Quiet sy) (hpre : pre ⟨s, .refl⟩ = .ok () ⟨s, .refl⟩) :
    issue sy false engine pre (pure ()) (fun _ => body) ⟨s, .refl⟩ =
      (do match ← attempt (wholly sy false (pure ()) fun _ => body) with
          | .error x => settle sy x
          | .ok (.error x) => settle sy x
          | .ok (.ok fin) => complete sy engine s.before fin) ⟨s, .refl⟩ := by
  obtain ⟨hw, hs, -, -, hf, hm, hn, -, hprog, -⟩ := hq
  have hfin : (s.ctx s.cur).prog.fin = none := by rw [hprog]; rfl
  rw [issue, run_bind_ok (run_followersFull hf)]
  simp only [Bool.false_eq_true, if_false]
  rw [run_bind_ok (run_resultOwed hm hn)]
  simp only [Bool.false_eq_true, if_false]
  rw [run_bind_ok (run_beforeNow _), run_bind_ok (run_myCtx _)]
  simp only [hfin]
  exact run_bind_ok (run_attempt_ok ((run_frontChecks hw hs).trans hpre))

/-- The body runs well, and the instruction completes. -/
theorem issue_body {s : State} {sy : Sync} {engine : Bool} {pre : M s Unit} {body : M s Fin} {fin : Fin} {σ : At s}
    (hq : s.Quiet sy) (hpre : pre ⟨s, .refl⟩ = .ok () ⟨s, .refl⟩) (hbody : body ⟨s, .refl⟩ = .ok fin σ) :
    issue sy false engine pre (pure ()) (fun _ => body) ⟨s, .refl⟩ = complete sy engine s.before fin σ := by
  have h : wholly sy false (pure ()) (fun _ => body) ⟨s, .refl⟩ = .ok (.ok fin) σ :=
    run_wholly hq.1 hq.2.1 hq.2.2.2.2.2.2.2.1 (run_attempt_ok hbody)
  rw [issue_quiet hq hpre, run_bind_ok (run_attempt_ok h)]

/-- The body traps precisely, and the trap is taken from the state before. -/
theorem issue_trap {s : State} {sy : Sync} {engine : Bool} {pre : M s Unit} {body : M s Fin} {σ : At s}
    {c : Cause} {v : Word} {d : Bool} (hq : s.Quiet sy) (hpre : pre ⟨s, .refl⟩ = .ok () ⟨s, .refl⟩)
    (hbody : body ⟨s, .refl⟩ = .error (.trap c v d false) σ) (ho : σ.val.oracle = s.oracle) :
    issue sy false engine pre (pure ()) (fun _ => body) ⟨s, .refl⟩ = settle sy (.trap c v d false) ⟨s, .refl⟩ := by
  have h2 : At.upd (s0 := s) ⟨s, .refl⟩ (.chosen s.oracle) = ⟨s, .refl⟩ := At.ext (chosen_same s)
  have h1 : attempt body ⟨s, .refl⟩ = .ok (.error (.trap c v d false)) ⟨s, .refl⟩ := by
    rw [run_attempt_trap hbody, ho, h2]
  have hr := hq.2.2.2.2.2.2.2.1
  rw [issue_quiet hq hpre]
  by_cases hu : (Stop.trap c v d false).undecoded = true
  · have h : wholly sy false (pure ()) (fun _ => body) ⟨s, .refl⟩ = .error (.trap c v d false) ⟨s, .refl⟩ :=
      (run_wholly hq.1 hq.2.1 hr h1).trans (if_pos hu)
    rw [run_bind_ok (run_attempt_trap h), h2]
  · have h : wholly sy false (pure ()) (fun _ => body) ⟨s, .refl⟩ = .ok (.error (.trap c v d false)) ⟨s, .refl⟩ :=
      (run_wholly hq.1 hq.2.1 hr h1).trans (if_neg hu)
    rw [run_bind_ok (run_attempt_ok h)]

theorem run_forward_none {σ : At s0} (h : σ.val.followers (coreOf σ.val.cur) = []) (pc next : Word) :
    forward pc next σ = .ok () σ := by
  rw [forward, run_bind_ok (run_st σ), h]
  split <;> rfl

theorem run_nextOf {σ : At s0} (sy : Sync) (h : σ.val.fwd = none) :
    nextOf sy σ = .ok (nextPc (σ.val.ctx σ.val.cur).r.pc sy) σ := by
  rw [nextOf, run_bind_ok (run_st σ), h]; rfl

/-- Where an instruction goes on. -/
def Fin.goesTo (f : Fin) (pc : Word) (sy : Sync) : Word :=
  match f with
  | .back t => t
  | _ => f.target.getD (nextPc pc sy)

/-- The instruction completes within the step. -/
def Fin.plain : Fin → Bool
  | .next | .jump _ | .enter _ | .back _ => true
  | _ => false

/-- The state on the way, with `State.retireAs` of a set of registers. -/
def At.retireAs (σ : At s0) (r : Regs) (straight : Bool) : At s0 :=
  σ.upd (.ctx σ.val.cur { σ.val.ctx σ.val.cur with r := r, prog := Progress.none, straight := straight })

@[simp] theorem At.retireAs_val (σ : At s0) (r : Regs) (b : Bool) : (σ.retireAs r b).val = σ.val.retireAs r b := rfl

theorem run_complete {sy : Sync} {engine : Bool} {old : Before} {fin : Fin} {σ : At s0} (hs : sy.sig = none)
    (hfin : fin.plain = true) (hf : σ.val.fwd = none) (ht : (σ.val.core (coreOf σ.val.cur)).trace = .none)
    (hl : σ.val.followers (coreOf σ.val.cur) = []) (hq : (σ.val.ctx σ.val.cur).prog.lease = none) :
    ∃ τ, complete sy engine old fin σ = .ok () τ ∧
      τ.val = σ.val.retireAs { σ.val.regs with pc := fin.goesTo σ.val.regs.pc sy } fin.straight := by
  have hb : (σ.val.isFollower (coreOf σ.val.cur)) = false := by rw [State.isFollower, ht]; rfl
  cases fin <;> try cases hfin
  all_goals
    refine ⟨σ.retireAs _ _, ?_, rfl⟩
    cases engine <;> cases hh : (σ.val.ctx σ.val.cur).prog.handed <;>
      simp [complete, run_bind, run_st, run_leaveQueue hq, hh, run_nextOf sy hf, hb, hf, signalOwed, owesSignal, hs,
        run_forward_none hl, run_modMe, Fin.goesTo, Fin.target, Fin.straight, State.regs,
        At.retireAs]

/-- The step of an instruction whose body runs well and leaves the core's trace as it was. -/
theorem strandStep_plain {s : State} {sy : Sync} {engine : Bool} {pre : M s Unit} {body : M s Fin} {fin : Fin} {σ : At s}
    (hq : s.Quiet sy) (hpre : pre ⟨s, .refl⟩ = .ok () ⟨s, .refl⟩) (hbody : body ⟨s, .refl⟩ = .ok fin σ)
    (hfin : fin.plain = true) (hcur : σ.val.cur = s.cur) (hfwd : σ.val.fwd = s.fwd) (hcores : σ.val.cores = s.cores)
    (hprog : (σ.val.ctx s.cur).prog = (s.ctx s.cur).prog) :
    strandStep s sy false engine pre body =
      .next (σ.val.retireAs { σ.val.regs with pc := fin.goesTo σ.val.regs.pc sy } fin.straight) := by
  have hq' := hq
  obtain ⟨-, hs, hf, ht, hl, -, -, -, hp, -⟩ := hq
  have ht' : (σ.val.core (coreOf σ.val.cur)).trace = .none := by rw [State.core, hcores, hcur]; exact ht
  have hl' : σ.val.followers (coreOf σ.val.cur) = [] := by rw [State.followers, hcores, hcur]; exact hl
  have hp' : (σ.val.ctx σ.val.cur).prog.lease = none := by rw [hcur, hprog, hp]; rfl
  obtain ⟨τ, h1, h2⟩ := run_complete (engine := engine) (old := s.before) hs hfin (hfwd.trans hf) ht' hl' hp'
  rw [strandStep, strandStepE, ← h2]
  refine run_ok ?_
  rw [run_bind_ok (run_attempt_ok ((issue_body hq' hpre hbody).trans h1))]
  exact run_pure _ _

/-- The same, of a body that changes nothing but the registers of its strand. -/
theorem strandStep_regs {s : State} {sy : Sync} {engine : Bool} {pre : M s Unit} {body : M s Fin} {fin : Fin} {σ : At s}
    {r : Regs} (hq : s.Quiet sy) (hpre : pre ⟨s, .refl⟩ = .ok () ⟨s, .refl⟩) (hbody : body ⟨s, .refl⟩ = .ok fin σ)
    (hσ : σ.val = (Upd.ctx s.cur { s.ctx s.cur with r := r }).apply s) (hfin : fin.plain = true) :
    strandStep s sy false engine pre body = .next (s.retireAs { r with pc := fin.goesTo r.pc sy } fin.straight) := by
  rw [strandStep_plain hq hpre hbody hfin (by rw [hσ]; rfl) (by rw [hσ]; rfl) (by rw [hσ]; rfl) (by rw [hσ]; simp), hσ]
  simp [State.retireAs, State.regs]

/-! ### Traps -/

/-- Where the strand stood does not enter a trap but as it is given. -/
theorem enterTrap_pc (r : Regs) (pc kvec mvec epc tval : Word) (c : Cause) (d : Bool) :
    Regs.enterTrap { r with pc := pc } kvec mvec c d epc tval = r.enterTrap kvec mvec c d epc tval := rfl

theorem run_takeMyTrap {σ : At s0} (c : Cause) (d : Bool) (epc tval : Word)
    (ht : (σ.val.core (coreOf σ.val.cur)).trace = .none) (hl : (σ.val.ctx σ.val.cur).prog.lease = none)
    (hm : σ.val.doubleTrap = false) :
    ∃ τ, takeMyTrap c d epc tval σ = .ok () τ ∧ τ.val = σ.val.trapped c d epc tval := by
  have hb : (σ.val.isFollower (coreOf σ.val.cur)) = false := by rw [State.isFollower, ht]; rfl
  have hm' : ((σ.val.ctx σ.val.cur).r.mode == Mode.monitor && (σ.val.ctx σ.val.cur).r.mintrap) = false := hm
  simp only [takeMyTrap, takeTrap, run_bind, run_st, run_leaveQueue hl, hb, hm', Bool.false_eq_true, if_false, run_upd]
  exact ⟨_, rfl, rfl⟩

/-- A trap that an instruction of a quiet strand ends in. -/
theorem strandStep_settle {s : State} {sy : Sync} {rel engine : Bool} {pre : M s Unit} {body : M s Fin}
    {c : Cause} {v : Word} {d : Bool} (hq : s.Quiet sy) (hm : s.doubleTrap = false)
    (h : issue sy rel engine pre (pure ()) (fun _ => body) ⟨s, .refl⟩ = settle sy (.trap c v d false) ⟨s, .refl⟩) :
    strandStep s sy rel engine pre body = .next (s.trapped c d s.regs.pc v) := by
  have hlease : (s.ctx s.cur).prog.lease = none := by rw [hq.2.2.2.2.2.2.2.2.1]; rfl
  obtain ⟨τ, h3, h4⟩ := run_takeMyTrap (s0 := s) (σ := ⟨s, .refl⟩) c d s.regs.pc v hq.2.2.2.1 hlease hm
  have h5 : settle sy (.trap c v d false) ⟨s, .refl⟩ = .ok () τ := by
    simp only [settle]
    rw [run_bind_ok (run_myCtx _)]
    exact h3
  rw [strandStep, strandStepE, ← h4]
  refine run_ok ?_
  rw [run_bind_ok (run_attempt_ok (h.trans h5))]
  exact run_pure _ _

/-- A check before the wait that fails traps at the instruction, with nothing else changed. -/
theorem strandStep_pre_trap {s : State} {sy : Sync} {rel engine : Bool} {pre : M s Unit} {body : M s Fin} {σ : At s}
    {c : Cause} {v : Word} {d : Bool} (hq : s.Quiet sy) (hm : s.doubleTrap = false)
    (hpre : pre ⟨s, .refl⟩ = .error (.trap c v d false) σ) (ho : σ.val.oracle = s.oracle) :
    strandStep s sy rel engine pre body = .next (s.trapped c d s.regs.pc v) := by
  refine strandStep_settle hq hm ?_
  obtain ⟨hw, hs, -, -, hf, hmsg, hn, -, hprog, -⟩ := hq
  have hfin : (s.ctx s.cur).prog.fin = none := by rw [hprog]; rfl
  have h2 : At.upd (s0 := s) ⟨s, .refl⟩ (.chosen s.oracle) = ⟨s, .refl⟩ := At.ext (chosen_same s)
  rw [issue, run_bind_ok (run_followersFull hf)]
  simp only [Bool.false_eq_true, if_false]
  rw [run_bind_ok (run_resultOwed hmsg hn)]
  simp only [Bool.false_eq_true, if_false]
  rw [run_bind_ok (run_beforeNow _), run_bind_ok (run_myCtx _)]
  simp only [hfin]
  rw [run_bind_ok (run_attempt_trap ((run_frontChecks hw hs).trans hpre)), ho, h2]

/-- A precise trap of the body: nothing of the body remains. -/
theorem strandStep_body_trap {s : State} {sy : Sync} {engine : Bool} {pre : M s Unit} {body : M s Fin} {σ : At s}
    {c : Cause} {v : Word} {d : Bool} (hq : s.Quiet sy) (hm : s.doubleTrap = false)
    (hpre : pre ⟨s, .refl⟩ = .ok () ⟨s, .refl⟩) (hbody : body ⟨s, .refl⟩ = .error (.trap c v d false) σ)
    (ho : σ.val.oracle = s.oracle) :
    strandStep s sy false engine pre body = .next (s.trapped c d s.regs.pc v) :=
  strandStep_settle hq hm (issue_trap hq hpre hbody ho)

/-- A trap after the instruction: sr.epc names the next one, and what the body did stays. -/
theorem strandStep_trapped {s : State} {sy : Sync} {engine : Bool} {pre : M s Unit} {body : M s Fin} {σ : At s}
    {c : Cause} {v : Word} (hq : s.Quiet sy) (hpre : pre ⟨s, .refl⟩ = .ok () ⟨s, .refl⟩)
    (hbody : body ⟨s, .refl⟩ = .ok (.trapped c v) σ) (hm : σ.val.doubleTrap = false) (hcur : σ.val.cur = s.cur)
    (hfwd : σ.val.fwd = s.fwd) (hcores : σ.val.cores = s.cores) (hprog : (σ.val.ctx s.cur).prog = (s.ctx s.cur).prog) :
    strandStep s sy false engine pre body = .next (σ.val.trapped c false (nextPc σ.val.regs.pc sy) v) := by
  have hq' := hq
  obtain ⟨-, hs, hf, ht, hl, -, -, -, hp, -⟩ := hq
  have hp' : (σ.val.ctx σ.val.cur).prog.lease = none := by rw [hcur, hprog, hp]; rfl
  have ht' : (σ.val.core (coreOf σ.val.cur)).trace = .none := by rw [State.core, hcores, hcur]; exact ht
  have hl' : σ.val.followers (coreOf σ.val.cur) = [] := by rw [State.followers, hcores, hcur]; exact hl
  have hb : (σ.val.isFollower (coreOf σ.val.cur)) = false := by rw [State.isFollower, ht']; rfl
  have hf' : σ.val.fwd = none := hfwd.trans hf
  let ρ := σ.retireAs { σ.val.regs with pc := nextPc σ.val.regs.pc sy } false
  obtain ⟨τ, h3, h4⟩ := run_takeMyTrap (σ := ρ) c false (nextPc σ.val.regs.pc sy) v
    (by simpa [ρ, State.retireAs, State.core] using ht') (by simp [ρ, State.retireAs, Progress.none])
    (by simpa [ρ, State.retireAs, State.doubleTrap, State.regs] using hm)
  have h5 : complete sy engine s.before (.trapped c v) σ = .ok () τ := by
    rw [← h3]
    cases engine <;> cases hh : (σ.val.ctx σ.val.cur).prog.handed <;>
      simp [complete, run_bind, run_st, run_leaveQueue hp', hh, run_nextOf sy hf', hf', hb, signalOwed, owesSignal, hs,
        run_forward_none hl', run_modMe, Fin.target, Fin.straight, State.regs, At.retireAs, ρ]
  have h6 : τ.val = σ.val.trapped c false (nextPc σ.val.regs.pc sy) v := by
    rw [h4]
    simp [ρ, State.trapped, State.retireAs, State.regs, enterTrap_pc]
  rw [strandStep, strandStepE, ← h6]
  refine run_ok ?_
  rw [run_bind_ok (run_attempt_ok ((issue_body hq' hpre hbody).trans h5))]
  exact run_pure _ _

end Sys2Proof.Machine
end

