-- ==== Sys2Proof/Laws/Bodies.lean ====
section
/-! SUPPORT. The shared bodies of the register instructions: what each leaves when the strand is quiet. -/

namespace Sys2Proof.Machine

variable {s0 : State}

theorem run_aluBody (d : XReg) (f : Regs → Word) (σ : At s0) :
    aluBody d f σ = .ok .next (σ.upd (.ctx σ.val.cur ((σ.val.ctx σ.val.cur).setX d (f σ.val.regs)))) := rfl

theorem goOn_def (s : State) (sy : Sync) (r : Regs) (h : r.pc = s.regs.pc) :
    s.retire { r with pc := nextPc r.pc sy } = s.goOn sy r := by rw [State.goOn, h]

/-- An instruction that writes one scalar register. -/
theorem alu_next {s : State} {sy : Sync} (hq : s.Quiet sy) (d : XReg) (f : Regs → Word) :
    alu d sy f s = .next (s.goOn sy (s.regs.setX d (f s.regs))) := by
  rw [alu, strandStep_regs hq (run_pure _ _) (run_aluBody d f _) rfl rfl]
  exact congrArg _ (goOn_def s sy _ (setX_pc _ _ _))

theorem run_branchBody (off : Word) (f : Regs → Bool) (σ : At s0) :
    branchBody off f σ = .ok (if f σ.val.regs then .jump (branchTarget σ.val.regs.pc off) else .next) σ := rfl

theorem branch_next {s : State} {sy : Sync} (hq : s.Quiet sy) (off : Word) (f : Regs → Bool) :
    branch sy off f s =
      .next (s.retireAs
        { s.regs with pc := if f s.regs then branchTarget s.regs.pc off else nextPc s.regs.pc sy }
        (f s.regs && isCrack (branchTarget s.regs.pc off))) := by
  rw [branch, strandStep_plain hq (run_pure _ _) (run_branchBody off f _) (by split <;> rfl) rfl rfl rfl rfl]
  dsimp only
  split <;> simp_all [Fin.goesTo, Fin.target, Fin.straight]

/-- A jump: JR and JLR alone enter crack mode. -/
theorem jump_next {s : State} {sy : Sync} (hq : s.Quiet sy) (enter : Bool) (link : Option XReg) (f : Regs → Word) :
    jump enter link sy f s =
      .next (s.retireAs
        { (match link with
           | some d => s.regs.setX d (nextPc s.regs.pc sy)
           | none => s.regs) with pc := f s.regs }
        (!enter && isCrack (f s.regs))) := by
  cases link with
  | none =>
    have h := strandStep_plain (engine := false) (pre := pure ()) (body := jumpBody enter none sy f)
      (fin := if enter then .enter (f s.regs) else .jump (f s.regs)) (σ := ⟨s, .refl⟩) hq (run_pure _ _) rfl
      (by cases enter <;> rfl) rfl rfl rfl rfl
    rw [jump, h]
    cases enter <;> rfl
  | some d =>
    have h := strandStep_regs (engine := false) (pre := pure ()) (body := jumpBody enter (some d) sy f)
      (fin := if enter then .enter (f s.regs) else .jump (f s.regs)) (r := s.regs.setX d (nextPc s.regs.pc sy)) hq
      (run_pure _ _) rfl rfl (by cases enter <;> rfl)
    rw [jump, h]
    cases enter <;> rfl

theorem loop_next {s : State} {sy : Sync} (hq : s.Quiet sy) (d : XReg) (off : Word) :
    execLoop d off sy s =
      .next (s.retireAs
        { s.regs.setX d (s.regs.getX d - 1) with
          pc := if s.regs.getX d - 1 ≠ 0 then branchTarget s.regs.pc off else nextPc s.regs.pc sy }
        (s.regs.getX d - 1 != 0 && isCrack (branchTarget s.regs.pc off))) := by
  have h := strandStep_regs (engine := false) (body := loopBody d off)
    (fin := if s.regs.getX d - 1 ≠ 0 then .jump (branchTarget s.regs.pc off) else .next)
    (r := s.regs.setX d (s.regs.getX d - 1)) hq (run_pure _ _) rfl rfl (by split <;> rfl)
  rw [execLoop, h]
  by_cases hn : s.regs.getX d - 1 ≠ 0
  · have hb : (s.regs.getX d - 1 != 0) = true := bne_iff_ne.2 hn
    simp only [if_pos hn, hb]
    rfl
  · have hb : (s.regs.getX d - 1 != 0) = false := by simpa using hn
    simp only [if_neg hn, hb, Fin.goesTo, Fin.target, Fin.straight, Option.getD_none, setX_pc, Bool.false_and]

theorem run_fpBody (d : XReg) (f : Regs → Nat × Flags) (σ : At s0) :
    ∃ τ, fpBody d f σ = .ok .next τ ∧
      τ.val = (Upd.ctx σ.val.cur
        ((σ.val.ctx σ.val.cur).modR fun r =>
          { r.setX d (wordOf (f σ.val.regs).1) with flags := r.flags ||| (f σ.val.regs).2 })).apply σ.val := by
  refine ⟨_, rfl, ?_⟩
  simp [Ctx.setX, Ctx.modR, State.regs]

/-- An instruction that writes one scalar register and raises flags. -/
theorem fp_next {s : State} {sy : Sync} (hq : s.Quiet sy) (d : XReg) (f : Regs → Nat × Flags) :
    fp d sy f s =
      .next (s.goOn sy { s.regs.setX d (wordOf (f s.regs).1) with flags := s.regs.flags ||| (f s.regs).2 }) := by
  obtain ⟨τ, h1, h2⟩ := run_fpBody d f (⟨s, .refl⟩ : At s)
  rw [fp, strandStep_regs hq (run_pure _ _) h1 h2 rfl]
  refine congrArg _ (goOn_def s sy _ ?_)
  simp [State.regs]

end Sys2Proof.Machine
end

