-- ==== Sys2Proof/Laws/Decode.lean ====
section
/-! SUPPORT. Packing and unpacking of the fields of instruction words, and what the decoder reads from an encoded word. -/

namespace Sys2Proof

/-! ### Fields -/

theorem extract_append_low {m n k : Nat} (x : BitVec m) (y : BitVec n) (h : s + k ≤ n) :
    (x ++ y).extractLsb' s k = y.extractLsb' s k := by
  apply BitVec.eq_of_getLsbD_eq
  intro i hi
  simp only [BitVec.getLsbD_extractLsb', BitVec.getLsbD_append, hi, decide_true, Bool.true_and]
  rw [if_pos (by omega)]

theorem extract_append_high {m n k : Nat} (x : BitVec m) (y : BitVec n) (h : n ≤ s) :
    (x ++ y).extractLsb' s k = x.extractLsb' (s - n) k := by
  apply BitVec.eq_of_getLsbD_eq
  intro i hi
  simp only [BitVec.getLsbD_extractLsb', BitVec.getLsbD_append, hi, decide_true, Bool.true_and]
  rw [if_neg (by omega), show s + i - n = s - n + i by omega]

theorem extract_all {n : Nat} (x : BitVec n) : x.extractLsb' 0 n = x := by simp

theorem Base.unpack_pack (f : Base) : Base.unpack f.pack = f := by
  obtain ⟨op, e, k, d, a, b, c, lo⟩ := f
  simp only [Base.unpack, Base.pack, Base.mk.injEq]
  refine ⟨?_, ?_, ?_, ?_, ?_, ?_, ?_, ?_⟩ <;>
    (repeat first
      | rw [extract_append_low _ _ (by decide)]
      | rw [extract_append_high _ _ (by decide)]) <;>
    simp

theorem LoA.unpack_pack (f : LoA) : LoA.unpack f.pack = f := by
  obtain ⟨a, b, c, d, e⟩ := f
  simp only [LoA.unpack, LoA.pack, LoA.mk.injEq]
  refine ⟨?_, ?_, ?_, ?_, ?_⟩ <;>
    (repeat first
      | rw [extract_append_low _ _ (by decide)]
      | rw [extract_append_high _ _ (by decide)]) <;>
    simp

theorem CM.unpack_pack (f : CM) : CM.unpack f.pack = f := by
  obtain ⟨a, b, c⟩ := f
  simp only [CM.unpack, CM.pack, CM.mk.injEq]
  refine ⟨?_, ?_, ?_⟩ <;>
    (repeat first
      | rw [extract_append_low _ _ (by decide)]
      | rw [extract_append_high _ _ (by decide)]) <;>
    simp

theorem CC.unpack_pack (f : CC) : CC.unpack f.pack = f := by
  obtain ⟨a, b⟩ := f
  simp only [CC.unpack, CC.pack, CC.mk.injEq]
  refine ⟨?_, ?_⟩ <;>
    (repeat first
      | rw [extract_append_low _ _ (by decide)]
      | rw [extract_append_high _ _ (by decide)]) <;>
    simp

theorem LoC.unpack_pack (f : LoC) : LoC.unpack f.pack = f := by
  obtain ⟨a, b, c⟩ := f
  simp only [LoC.unpack, LoC.pack, LoC.mk.injEq]
  refine ⟨?_, ?_, ?_⟩ <;>
    (repeat first
      | rw [extract_append_low _ _ (by decide)]
      | rw [extract_append_high _ _ (by decide)]) <;>
    simp

theorem LoG.unpack_pack (f : LoG) : LoG.unpack f.pack = f := by
  obtain ⟨a, b⟩ := f
  simp only [LoG.unpack, LoG.pack, LoG.mk.injEq]
  refine ⟨?_, ?_⟩ <;>
    (repeat first
      | rw [extract_append_low _ _ (by decide)]
      | rw [extract_append_high _ _ (by decide)]) <;>
    simp

theorem LoS.unpack_pack (f : LoS) : LoS.unpack f.pack = f := by
  obtain ⟨a, b⟩ := f
  simp only [LoS.unpack, LoS.pack, LoS.mk.injEq]
  refine ⟨?_, ?_⟩ <;>
    (repeat first
      | rw [extract_append_low _ _ (by decide)]
      | rw [extract_append_high _ _ (by decide)]) <;>
    simp

theorem SyncWord.unpack_pack (f : SyncWord) : SyncWord.unpack f.pack = f := by
  obtain ⟨a, b, c, d, e, g, h, i, j⟩ := f
  simp only [SyncWord.unpack, SyncWord.pack, SyncWord.mk.injEq]
  refine ⟨?_, ?_, ?_, ?_, ?_, ?_, ?_, ?_, ?_⟩ <;>
    (repeat first
      | rw [extract_append_low _ _ (by decide)]
      | rw [extract_append_high _ _ (by decide)]) <;>
    simp

theorem LowG.unpack_pack (f : LowG) : LowG.unpack f.pack = f := by
  obtain ⟨a, b, c, d, e⟩ := f
  simp only [LowG.unpack, LowG.pack, LowG.mk.injEq]
  refine ⟨?_, ?_, ?_, ?_, ?_⟩ <;>
    (repeat first
      | rw [extract_append_low _ _ (by decide)]
      | rw [extract_append_high _ _ (by decide)]) <;>
    simp

/-! ### Codes -/

@[simp] theorem Ty.ofCode_code (t : Ty) : Ty.ofCode t.code = t := by cases t <;> rfl
@[simp] theorem Rnd.ofCode_code (t : Rnd) : Rnd.ofCode t.code = t := by cases t <;> rfl
@[simp] theorem Size.ofCode_code (t : Size) : Size.ofCode t.code = t := by cases t <;> rfl
@[simp] theorem Space.ofCode_code (t : Space) : Space.ofCode t.code = t := by cases t <;> rfl
@[simp] theorem AOp.ofCode_code (t : AOp) : AOp.ofCode t.code = t := by cases t <;> rfl
@[simp] theorem Scope.ofCode_code (t : Scope) : Scope.ofCode t.code = t := by cases t <;> rfl
@[simp] theorem Cond.ofCode_code (t : Cond) : Cond.ofCode t.code = t := by cases t <;> rfl
@[simp] theorem Pred.ofCode_code (t : Pred) : Pred.ofCode t.code = t := by cases t <;> rfl
@[simp] theorem ROp.ofCode_code (t : ROp) : ROp.ofCode t.code = t := by cases t <;> rfl
@[simp] theorem Extent.ofCode_code (t : Extent) : Extent.ofCode t.code = t := by cases t <;> rfl
@[simp] theorem bit1_eq_one (b : Bool) : (bit1 b = 1#1) = (b = true) := by cases b <;> decide

/-! ### The extension word -/

theorem SyncWord.unpack_word (sy : Sync) (kind : BitVec 4) (low : BitVec 31) :
    SyncWord.unpack (sy.word kind low) =
      { kind := kind, we := bit1 sy.wait.isSome, wslot := sy.wait.getD 0, se := bit1 sy.sig.isSome
        sslot := (sy.sig.map (·.slot)).getD 0, sinc := (sy.sig.map (·.inc)).getD 0
        when_ := bit1 ((sy.sig.map (·.atIssue)).getD false), scope := sy.scope.code, low := low } := by
  rw [Sync.word, SyncWord.unpack_pack]

theorem Sync.eq_of_fields (sy : Sync) :
    ({ ext := sy.ext
       wait := if bit1 sy.wait.isSome = 1 then some (sy.wait.getD 0) else none
       sig :=
         if bit1 sy.sig.isSome = 1 then
           some
             { slot := (sy.sig.map (·.slot)).getD 0, inc := (sy.sig.map (·.inc)).getD 0
               atIssue := bit1 ((sy.sig.map (·.atIssue)).getD false) = 1 }
         else none
       scope := Scope.ofCode sy.scope.code } : Sync) = sy := by
  obtain ⟨e, w, g, c⟩ := sy
  cases w <;> cases g <;> simp

/-- What the decoder reads of the synchronisation of an instruction that is not of format G. -/
theorem Sync.ofWord_ok {imm fmtC : Bool} {sy : Sync} {v : Word} {sc : Scope} (h : sy.ok imm fmtC = true)
    (hs : sy.scope = sc ∨ (fmtC = false ∧ sc = .device)) (low : BitVec 31) : Sync.ofWord (sy.extWord v low) sc = sy := by
  have hsc : sy.ext = .none ∨ sy.ext = .imm → sy.scope = sc := by
    intro he
    rcases hs with hs | ⟨rfl, rfl⟩
    · exact hs
    · rcases he with he | he <;> simp [Sync.ok, he] at h <;> tauto
  obtain ⟨e, w, g, c⟩ := sy
  cases e with
  | none =>
    simp only [Sync.ok, Bool.and_eq_true, Option.isNone_iff_eq_none] at h
    obtain ⟨⟨rfl, rfl⟩, -⟩ := h
    simp [Sync.ofWord, Sync.extWord, ← hsc (Or.inl rfl)]
  | imm =>
    simp only [Sync.ok, Bool.and_eq_true, Option.isNone_iff_eq_none] at h
    obtain ⟨⟨⟨-, rfl⟩, rfl⟩, -⟩ := h
    have : ((2 : BitVec 4) ++ (v.truncate 60 : BitVec 60) : BitVec 64).extractLsb' 60 4 = 2 := by
      rw [extract_append_high _ _ (by decide)]; simp
    simp only [Sync.ofWord, Sync.extWord, SyncWord.unpack, this, if_true, ← hsc (Or.inr rfl)]
  | sync =>
    have h1 := Sync.eq_of_fields { ext := .sync, wait := w, sig := g, scope := c }
    simp only [Sync.ofWord, Sync.extWord, SyncWord.unpack_word]
    exact h1
  | eng => simp [Sync.ok] at h

theorem Sync.ofWord_eng {sy : Sync} (h : sy.eng = true) (v : Word) (low : BitVec 31) (sc : Scope) :
    Sync.ofWord (sy.extWord v low) sc = sy := by
  obtain ⟨e, w, g, c⟩ := sy
  simp only [Sync.eng, Bool.and_eq_true, beq_iff_eq] at h
  obtain ⟨rfl, -⟩ := h
  have h1 := Sync.eq_of_fields { ext := .eng, wait := w, sig := g, scope := c }
  simp only [Sync.ofWord, Sync.extWord, SyncWord.unpack_word]
  exact h1

theorem plain_ofWord {sy : Sync} (h : sy.plain = true) (v : Word) (low : BitVec 31) :
    Sync.ofWord (sy.extWord v low) .device = sy := Sync.ofWord_ok h (.inr ⟨rfl, rfl⟩) low

theorem imm_ofWord {sy : Sync} {v : Word} (h : sy.immOk v = true) (low : BitVec 31) :
    Sync.ofWord (sy.extWord v low) .device = sy := by
  simp only [Sync.immOk, Bool.and_eq_true] at h
  exact Sync.ofWord_ok h.1 (.inr ⟨rfl, rfl⟩) low

theorem ctr_ofWord {sy : Sync} (h : sy.ctr = true) (v : Word) (low : BitVec 31) :
    Sync.ofWord (sy.extWord v low) sy.scope = sy := Sync.ofWord_ok h (.inl rfl) low

theorem cimm_ofWord {sy : Sync} {v : Word} (h : sy.cimmOk v = true) (low : BitVec 31) :
    Sync.ofWord (sy.extWord v low) sy.scope = sy := by
  simp only [Sync.cimmOk, Bool.and_eq_true] at h
  exact Sync.ofWord_ok h.1 (.inl rfl) low

/-- The target of a Fresco command comes back. -/
theorem targetOf_ok {sy : Sync} (h : sy.eng = true) (tg : Target) (c : BitVec 6)
    (hc : match tg with | .here => True | .remote _ _ _ s => c = s) : targetOf (sy.extWord 0 tg.low) c = tg := by
  obtain ⟨e, w, g, sc⟩ := sy
  simp only [Sync.eng, Bool.and_eq_true, beq_iff_eq] at h
  obtain ⟨rfl, -⟩ := h
  have h2 : (Sync.word ⟨.eng, w, g, sc⟩ 3 tg.low).extractLsb' 0 31 = tg.low :=
    congrArg SyncWord.low (SyncWord.unpack_word ⟨.eng, w, g, sc⟩ 3 tg.low)
  simp only [targetOf, Sync.extWord, Option.getD_some, h2]
  cases tg with
  | here => simp [Target.low, LowG.unpack]
  | remote n cl i s =>
    simp only at hc
    subst hc
    simp [Target.low, LowG.unpack_pack]

theorem targetOf_secret {sy : Sync} (h : sy.eng = true) (tg : Target) :
    targetOf (sy.extWord 0#64 tg.low) tg.secretReg = tg := targetOf_ok h tg _ (by cases tg <;> simp [Target.secretReg])

theorem bitAt_append_low {m n i : Nat} (x : BitVec m) (y : BitVec n) (h : i < n) : bitAt (x ++ y) i = bitAt y i := by
  simp [bitAt, BitVec.getLsbD_append, h]

theorem bitAt_append_high {m n i : Nat} (x : BitVec m) (y : BitVec n) (h : n ≤ i) :
    bitAt (x ++ y) i = bitAt x (i - n) := by
  simp [bitAt, BitVec.getLsbD_append, Nat.not_lt.2 h]

@[simp] theorem bitAt_bit1 (b : Bool) : bitAt (bit1 b) 0 = b := by cases b <;> rfl

theorem Sync.extWord_kind {sy : Sync} {v : Word} {low : BitVec 31} {w : Word} (h : sy.extWord v low = some w) :
    (w.extractLsb' 60 4 = 2) = (sy.ext = .imm) := by
  obtain ⟨e, a, g, c⟩ := sy
  cases e with
  | none => simp [Sync.extWord] at h
  | imm =>
    simp only [Sync.extWord, Option.some.injEq] at h
    subst h
    rw [extract_append_high _ _ (by decide)]
    simp
  | sync =>
    simp only [Sync.extWord, Option.some.injEq] at h
    have h2 := congrArg SyncWord.kind (SyncWord.unpack_word ⟨.sync, a, g, c⟩ 1 0)
    rw [h] at h2
    simp only [SyncWord.unpack] at h2
    simp [h2]
  | eng =>
    simp only [Sync.extWord, Option.some.injEq] at h
    have h2 := congrArg SyncWord.kind (SyncWord.unpack_word ⟨.eng, a, g, c⟩ 3 low)
    rw [h] at h2
    simp only [SyncWord.unpack] at h2
    simp [h2]

theorem imm_payload (v : Word) : ((2 : BitVec 4) ++ (v.truncate 60 : BitVec 60) : Word).truncate 60 = v.truncate 60 := by
  change BitVec.setWidth 60 ((2 : BitVec 4) ++ (v.truncate 60 : BitVec 60)) = v.truncate 60
  apply BitVec.eq_of_getLsbD_eq
  intro i hi
  rw [BitVec.getLsbD_setWidth, BitVec.getLsbD_append]
  simp [hi]

/-- The immediate of formats I, M and B comes back. -/
theorem imm28_ok {sy : Sync} {v : Word} (h : sy.immOk v = true) (low : BitVec 31) :
    imm28 (sy.extWord v low) (lo28 v sy) = v := by
  simp only [Sync.immOk, Bool.and_eq_true] at h
  obtain ⟨-, h⟩ := h
  by_cases he : sy.ext = .imm
  · simp only [he, beq_self_eq_true, if_true, fitsImm60, beq_iff_eq] at h
    have h1 : sy.extWord v low = some ((2 : BitVec 4) ++ v.truncate 60) := by simp [Sync.extWord, he]
    simp only [imm28, h1]
    rw [if_pos ((Sync.extWord_kind h1).mpr he), imm_payload]
    exact h
  · have hb : (sy.ext == ExtKind.imm) = false := by simpa using he
    simp only [hb, Bool.false_eq_true, if_false, fitsImm28, beq_iff_eq] at h
    have h2 : (lo28 v sy).signExtend 64 = v := by simpa [lo28, he] using h
    cases h1 : sy.extWord v low with
    | none => exact h2
    | some w =>
      simp only [imm28]
      rw [if_neg (by rw [Sync.extWord_kind h1]; exact he)]
      exact h2

theorem imm16_ok {sy : Sync} {v : Word} (h : sy.cimmOk v = true) (low : BitVec 31) :
    imm16 (sy.extWord v low) (lo16 v sy) = v := by
  simp only [Sync.cimmOk, Bool.and_eq_true] at h
  obtain ⟨-, h⟩ := h
  by_cases he : sy.ext = .imm
  · simp only [he, beq_self_eq_true, if_true, fitsImm60, beq_iff_eq] at h
    have h1 : sy.extWord v low = some ((2 : BitVec 4) ++ v.truncate 60) := by simp [Sync.extWord, he]
    simp only [imm16, h1]
    rw [if_pos ((Sync.extWord_kind h1).mpr he), imm_payload]
    exact h
  · have hb : (sy.ext == ExtKind.imm) = false := by simpa using he
    simp only [hb, Bool.false_eq_true, if_false, decide_eq_true_eq] at h
    have h2 : (lo16 v sy).zeroExtend 64 = v := by
      apply BitVec.eq_of_toNat_eq
      simp [lo16, he]
      omega
    cases h1 : sy.extWord v low with
    | none => exact h2
    | some w =>
      simp only [imm16]
      rw [if_neg (by rw [Sync.extWord_kind h1]; exact he)]
      exact h2

/-- A word with an opcode that is not reserved decodes to what its fields select, when that is well formed and has these
words. -/
theorem decode_form {f : Form} {i : Instr} (he : encode i = f.words) (hw : i.wf = true)
    (hop : reservedOp f.base.op.toNat = false) (hr : rawDecode f.words.1 f.words.2 = some i) :
    decode (encode i).1 (encode i).2 = .ok i := by
  have h1 : f.words.1.extractLsb' 56 8 = f.base.op := by
    have := congrArg Base.op (Base.unpack_pack { f.base with e := bit1 (f.sy.ext != .none) })
    exact this
  rw [decode, he]
  simp only [h1, hop, Bool.false_eq_true, if_false, hr, hw, he, Bool.true_and]
  simp

theorem unpack_words (f : Form) : Base.unpack f.words.1 = { f.base with e := bit1 (f.sy.ext != .none) } :=
  Base.unpack_pack _

end Sys2Proof
end

