-- ==== Sys2Proof/Laws/PerInstr.lean ====
section
/-! SUPPORT. Statements about every instruction as syntax, one lemma per constructor: what an instruction is encoded as is
decoded to it. -/

namespace Sys2Proof.Laws.RoundTrip

set_option linter.unusedSimpArgs false
set_option linter.unusedVariables false

open Sys2Proof

/-- The words of a well-formed instruction decode to it. -/
def Statement (i : Instr) : Prop := i.wf = true → decode (encode i).1 (encode i).2 = .ok i


theorem add (d : XReg) (a : XReg) (b : XReg) (sy : Sync) : Statement (.add d a b sy) := by
  intro h
  have h0 := h
  replace h : (sy.plain) = true := h
  refine decode_form (f := formX 0x01 d a b 0 0 sy) rfl h0 rfl ?_
  rw [rawDecode, unpack_words]
  refine Eq.trans (b :=
    (let f := (formX 0x01 d a b 0 0 sy).base
     let ext := (formX 0x01 d a b 0 0 sy).words.2
     let sy := Sync.ofWord ext .device
     some (.add f.d f.a f.b sy))) rfl ?_
  simp [plain_ofWord h, formX, formA, LoA.unpack_pack, Form.words]

theorem addi (d : XReg) (a : XReg) (imm : Word) (sy : Sync) : Statement (.addi d a imm sy) := by
  intro h
  have h0 := h
  replace h : (sy.immOk imm) = true := h
  refine decode_form (f := formI 0x02 0 d a 0 0 imm sy) rfl h0 rfl ?_
  rw [rawDecode, unpack_words]
  refine Eq.trans (b :=
    (let f := (formI 0x02 0 d a 0 0 imm sy).base
     let ext := (formI 0x02 0 d a 0 0 imm sy).words.2
     let sy := Sync.ofWord ext .device
     let v := imm28 ext f.lo
     some (.addi f.d f.a v sy))) rfl ?_
  simp [imm_ofWord h, imm28_ok h, formI, Form.words]

theorem sub (d : XReg) (a : XReg) (b : XReg) (sy : Sync) : Statement (.sub d a b sy) := by
  intro h
  have h0 := h
  replace h : (sy.plain) = true := h
  refine decode_form (f := formX 0x03 d a b 0 0 sy) rfl h0 rfl ?_
  rw [rawDecode, unpack_words]
  refine Eq.trans (b :=
    (let f := (formX 0x03 d a b 0 0 sy).base
     let ext := (formX 0x03 d a b 0 0 sy).words.2
     let sy := Sync.ofWord ext .device
     some (.sub f.d f.a f.b sy))) rfl ?_
  simp [plain_ofWord h, formX, formA, LoA.unpack_pack, Form.words]

theorem mul (d : XReg) (a : XReg) (b : XReg) (sy : Sync) : Statement (.mul d a b sy) := by
  intro h
  have h0 := h
  replace h : (sy.plain) = true := h
  refine decode_form (f := formX 0x04 d a b 0 0 sy) rfl h0 rfl ?_
  rw [rawDecode, unpack_words]
  refine Eq.trans (b :=
    (let f := (formX 0x04 d a b 0 0 sy).base
     let ext := (formX 0x04 d a b 0 0 sy).words.2
     let sy := Sync.ofWord ext .device
     some (.mul f.d f.a f.b sy))) rfl ?_
  simp [plain_ofWord h, formX, formA, LoA.unpack_pack, Form.words]

theorem mulh (d : XReg) (a : XReg) (b : XReg) (sy : Sync) : Statement (.mulh d a b sy) := by
  intro h
  have h0 := h
  replace h : (sy.plain) = true := h
  refine decode_form (f := formX 0x05 d a b 0 0 sy) rfl h0 rfl ?_
  rw [rawDecode, unpack_words]
  refine Eq.trans (b :=
    (let f := (formX 0x05 d a b 0 0 sy).base
     let ext := (formX 0x05 d a b 0 0 sy).words.2
     let sy := Sync.ofWord ext .device
     some (.mulh f.d f.a f.b sy))) rfl ?_
  simp [plain_ofWord h, formX, formA, LoA.unpack_pack, Form.words]

theorem mulhu (d : XReg) (a : XReg) (b : XReg) (sy : Sync) : Statement (.mulhu d a b sy) := by
  intro h
  have h0 := h
  replace h : (sy.plain) = true := h
  refine decode_form (f := formX 0x06 d a b 0 0 sy) rfl h0 rfl ?_
  rw [rawDecode, unpack_words]
  refine Eq.trans (b :=
    (let f := (formX 0x06 d a b 0 0 sy).base
     let ext := (formX 0x06 d a b 0 0 sy).words.2
     let sy := Sync.ofWord ext .device
     some (.mulhu f.d f.a f.b sy))) rfl ?_
  simp [plain_ofWord h, formX, formA, LoA.unpack_pack, Form.words]

theorem div (d : XReg) (a : XReg) (b : XReg) (sy : Sync) : Statement (.div d a b sy) := by
  intro h
  have h0 := h
  replace h : (sy.plain) = true := h
  refine decode_form (f := formX 0x07 d a b 0 0 sy) rfl h0 rfl ?_
  rw [rawDecode, unpack_words]
  refine Eq.trans (b :=
    (let f := (formX 0x07 d a b 0 0 sy).base
     let ext := (formX 0x07 d a b 0 0 sy).words.2
     let sy := Sync.ofWord ext .device
     some (.div f.d f.a f.b sy))) rfl ?_
  simp [plain_ofWord h, formX, formA, LoA.unpack_pack, Form.words]

theorem divu (d : XReg) (a : XReg) (b : XReg) (sy : Sync) : Statement (.divu d a b sy) := by
  intro h
  have h0 := h
  replace h : (sy.plain) = true := h
  refine decode_form (f := formX 0x08 d a b 0 0 sy) rfl h0 rfl ?_
  rw [rawDecode, unpack_words]
  refine Eq.trans (b :=
    (let f := (formX 0x08 d a b 0 0 sy).base
     let ext := (formX 0x08 d a b 0 0 sy).words.2
     let sy := Sync.ofWord ext .device
     some (.divu f.d f.a f.b sy))) rfl ?_
  simp [plain_ofWord h, formX, formA, LoA.unpack_pack, Form.words]

theorem rem (d : XReg) (a : XReg) (b : XReg) (sy : Sync) : Statement (.rem d a b sy) := by
  intro h
  have h0 := h
  replace h : (sy.plain) = true := h
  refine decode_form (f := formX 0x09 d a b 0 0 sy) rfl h0 rfl ?_
  rw [rawDecode, unpack_words]
  refine Eq.trans (b :=
    (let f := (formX 0x09 d a b 0 0 sy).base
     let ext := (formX 0x09 d a b 0 0 sy).words.2
     let sy := Sync.ofWord ext .device
     some (.rem f.d f.a f.b sy))) rfl ?_
  simp [plain_ofWord h, formX, formA, LoA.unpack_pack, Form.words]

theorem remu (d : XReg) (a : XReg) (b : XReg) (sy : Sync) : Statement (.remu d a b sy) := by
  intro h
  have h0 := h
  replace h : (sy.plain) = true := h
  refine decode_form (f := formX 0x0A d a b 0 0 sy) rfl h0 rfl ?_
  rw [rawDecode, unpack_words]
  refine Eq.trans (b :=
    (let f := (formX 0x0A d a b 0 0 sy).base
     let ext := (formX 0x0A d a b 0 0 sy).words.2
     let sy := Sync.ofWord ext .device
     some (.remu f.d f.a f.b sy))) rfl ?_
  simp [plain_ofWord h, formX, formA, LoA.unpack_pack, Form.words]

theorem and (d : XReg) (a : XReg) (b : XReg) (sy : Sync) : Statement (.and d a b sy) := by
  intro h
  have h0 := h
  replace h : (sy.plain) = true := h
  refine decode_form (f := formX 0x0B d a b 0 0 sy) rfl h0 rfl ?_
  rw [rawDecode, unpack_words]
  refine Eq.trans (b :=
    (let f := (formX 0x0B d a b 0 0 sy).base
     let ext := (formX 0x0B d a b 0 0 sy).words.2
     let sy := Sync.ofWord ext .device
     some (.and f.d f.a f.b sy))) rfl ?_
  simp [plain_ofWord h, formX, formA, LoA.unpack_pack, Form.words]

theorem andi (d : XReg) (a : XReg) (imm : Word) (sy : Sync) : Statement (.andi d a imm sy) := by
  intro h
  have h0 := h
  replace h : (sy.immOk imm) = true := h
  refine decode_form (f := formI 0x0C 0 d a 0 0 imm sy) rfl h0 rfl ?_
  rw [rawDecode, unpack_words]
  refine Eq.trans (b :=
    (let f := (formI 0x0C 0 d a 0 0 imm sy).base
     let ext := (formI 0x0C 0 d a 0 0 imm sy).words.2
     let sy := Sync.ofWord ext .device
     let v := imm28 ext f.lo
     some (.andi f.d f.a v sy))) rfl ?_
  simp [imm_ofWord h, imm28_ok h, formI, Form.words]

theorem or (d : XReg) (a : XReg) (b : XReg) (sy : Sync) : Statement (.or d a b sy) := by
  intro h
  have h0 := h
  replace h : (sy.plain) = true := h
  refine decode_form (f := formX 0x0D d a b 0 0 sy) rfl h0 rfl ?_
  rw [rawDecode, unpack_words]
  refine Eq.trans (b :=
    (let f := (formX 0x0D d a b 0 0 sy).base
     let ext := (formX 0x0D d a b 0 0 sy).words.2
     let sy := Sync.ofWord ext .device
     some (.or f.d f.a f.b sy))) rfl ?_
  simp [plain_ofWord h, formX, formA, LoA.unpack_pack, Form.words]

theorem ori (d : XReg) (a : XReg) (imm : Word) (sy : Sync) : Statement (.ori d a imm sy) := by
  intro h
  have h0 := h
  replace h : (sy.immOk imm) = true := h
  refine decode_form (f := formI 0x0E 0 d a 0 0 imm sy) rfl h0 rfl ?_
  rw [rawDecode, unpack_words]
  refine Eq.trans (b :=
    (let f := (formI 0x0E 0 d a 0 0 imm sy).base
     let ext := (formI 0x0E 0 d a 0 0 imm sy).words.2
     let sy := Sync.ofWord ext .device
     let v := imm28 ext f.lo
     some (.ori f.d f.a v sy))) rfl ?_
  simp [imm_ofWord h, imm28_ok h, formI, Form.words]

theorem xor (d : XReg) (a : XReg) (b : XReg) (sy : Sync) : Statement (.xor d a b sy) := by
  intro h
  have h0 := h
  replace h : (sy.plain) = true := h
  refine decode_form (f := formX 0x0F d a b 0 0 sy) rfl h0 rfl ?_
  rw [rawDecode, unpack_words]
  refine Eq.trans (b :=
    (let f := (formX 0x0F d a b 0 0 sy).base
     let ext := (formX 0x0F d a b 0 0 sy).words.2
     let sy := Sync.ofWord ext .device
     some (.xor f.d f.a f.b sy))) rfl ?_
  simp [plain_ofWord h, formX, formA, LoA.unpack_pack, Form.words]

theorem xori (d : XReg) (a : XReg) (imm : Word) (sy : Sync) : Statement (.xori d a imm sy) := by
  intro h
  have h0 := h
  replace h : (sy.immOk imm) = true := h
  refine decode_form (f := formI 0x10 0 d a 0 0 imm sy) rfl h0 rfl ?_
  rw [rawDecode, unpack_words]
  refine Eq.trans (b :=
    (let f := (formI 0x10 0 d a 0 0 imm sy).base
     let ext := (formI 0x10 0 d a 0 0 imm sy).words.2
     let sy := Sync.ofWord ext .device
     let v := imm28 ext f.lo
     some (.xori f.d f.a v sy))) rfl ?_
  simp [imm_ofWord h, imm28_ok h, formI, Form.words]

theorem shl (d : XReg) (a : XReg) (b : XReg) (sy : Sync) : Statement (.shl d a b sy) := by
  intro h
  have h0 := h
  replace h : (sy.plain) = true := h
  refine decode_form (f := formX 0x11 d a b 0 0 sy) rfl h0 rfl ?_
  rw [rawDecode, unpack_words]
  refine Eq.trans (b :=
    (let f := (formX 0x11 d a b 0 0 sy).base
     let ext := (formX 0x11 d a b 0 0 sy).words.2
     let sy := Sync.ofWord ext .device
     some (.shl f.d f.a f.b sy))) rfl ?_
  simp [plain_ofWord h, formX, formA, LoA.unpack_pack, Form.words]

theorem shli (d : XReg) (a : XReg) (imm : Word) (sy : Sync) : Statement (.shli d a imm sy) := by
  intro h
  have h0 := h
  replace h : (sy.immOk imm && decide (imm.toNat < 64)) = true := h
  simp only [Bool.and_eq_true] at h
  refine decode_form (f := formI 0x12 0 d a 0 0 imm sy) rfl h0 rfl ?_
  rw [rawDecode, unpack_words]
  refine Eq.trans (b :=
    (let f := (formI 0x12 0 d a 0 0 imm sy).base
     let ext := (formI 0x12 0 d a 0 0 imm sy).words.2
     let sy := Sync.ofWord ext .device
     let v := imm28 ext f.lo
     some (.shli f.d f.a v sy))) rfl ?_
  simp [imm_ofWord h.1, imm28_ok h.1, formI, Form.words]

theorem shr (d : XReg) (a : XReg) (b : XReg) (sy : Sync) : Statement (.shr d a b sy) := by
  intro h
  have h0 := h
  replace h : (sy.plain) = true := h
  refine decode_form (f := formX 0x13 d a b 0 0 sy) rfl h0 rfl ?_
  rw [rawDecode, unpack_words]
  refine Eq.trans (b :=
    (let f := (formX 0x13 d a b 0 0 sy).base
     let ext := (formX 0x13 d a b 0 0 sy).words.2
     let sy := Sync.ofWord ext .device
     some (.shr f.d f.a f.b sy))) rfl ?_
  simp [plain_ofWord h, formX, formA, LoA.unpack_pack, Form.words]

theorem shri (d : XReg) (a : XReg) (imm : Word) (sy : Sync) : Statement (.shri d a imm sy) := by
  intro h
  have h0 := h
  replace h : (sy.immOk imm && decide (imm.toNat < 64)) = true := h
  simp only [Bool.and_eq_true] at h
  refine decode_form (f := formI 0x14 0 d a 0 0 imm sy) rfl h0 rfl ?_
  rw [rawDecode, unpack_words]
  refine Eq.trans (b :=
    (let f := (formI 0x14 0 d a 0 0 imm sy).base
     let ext := (formI 0x14 0 d a 0 0 imm sy).words.2
     let sy := Sync.ofWord ext .device
     let v := imm28 ext f.lo
     some (.shri f.d f.a v sy))) rfl ?_
  simp [imm_ofWord h.1, imm28_ok h.1, formI, Form.words]

theorem sra (d : XReg) (a : XReg) (b : XReg) (sy : Sync) : Statement (.sra d a b sy) := by
  intro h
  have h0 := h
  replace h : (sy.plain) = true := h
  refine decode_form (f := formX 0x15 d a b 0 0 sy) rfl h0 rfl ?_
  rw [rawDecode, unpack_words]
  refine Eq.trans (b :=
    (let f := (formX 0x15 d a b 0 0 sy).base
     let ext := (formX 0x15 d a b 0 0 sy).words.2
     let sy := Sync.ofWord ext .device
     some (.sra f.d f.a f.b sy))) rfl ?_
  simp [plain_ofWord h, formX, formA, LoA.unpack_pack, Form.words]

theorem srai (d : XReg) (a : XReg) (imm : Word) (sy : Sync) : Statement (.srai d a imm sy) := by
  intro h
  have h0 := h
  replace h : (sy.immOk imm && decide (imm.toNat < 64)) = true := h
  simp only [Bool.and_eq_true] at h
  refine decode_form (f := formI 0x16 0 d a 0 0 imm sy) rfl h0 rfl ?_
  rw [rawDecode, unpack_words]
  refine Eq.trans (b :=
    (let f := (formI 0x16 0 d a 0 0 imm sy).base
     let ext := (formI 0x16 0 d a 0 0 imm sy).words.2
     let sy := Sync.ofWord ext .device
     let v := imm28 ext f.lo
     some (.srai f.d f.a v sy))) rfl ?_
  simp [imm_ofWord h.1, imm28_ok h.1, formI, Form.words]

theorem slt (d : XReg) (a : XReg) (b : XReg) (sy : Sync) : Statement (.slt d a b sy) := by
  intro h
  have h0 := h
  replace h : (sy.plain) = true := h
  refine decode_form (f := formX 0x17 d a b 0 0 sy) rfl h0 rfl ?_
  rw [rawDecode, unpack_words]
  refine Eq.trans (b :=
    (let f := (formX 0x17 d a b 0 0 sy).base
     let ext := (formX 0x17 d a b 0 0 sy).words.2
     let sy := Sync.ofWord ext .device
     some (.slt f.d f.a f.b sy))) rfl ?_
  simp [plain_ofWord h, formX, formA, LoA.unpack_pack, Form.words]

theorem sltu (d : XReg) (a : XReg) (b : XReg) (sy : Sync) : Statement (.sltu d a b sy) := by
  intro h
  have h0 := h
  replace h : (sy.plain) = true := h
  refine decode_form (f := formX 0x18 d a b 0 0 sy) rfl h0 rfl ?_
  rw [rawDecode, unpack_words]
  refine Eq.trans (b :=
    (let f := (formX 0x18 d a b 0 0 sy).base
     let ext := (formX 0x18 d a b 0 0 sy).words.2
     let sy := Sync.ofWord ext .device
     some (.sltu f.d f.a f.b sy))) rfl ?_
  simp [plain_ofWord h, formX, formA, LoA.unpack_pack, Form.words]

theorem slti (d : XReg) (a : XReg) (imm : Word) (sy : Sync) : Statement (.slti d a imm sy) := by
  intro h
  have h0 := h
  replace h : (sy.immOk imm) = true := h
  refine decode_form (f := formI 0x19 0 d a 0 0 imm sy) rfl h0 rfl ?_
  rw [rawDecode, unpack_words]
  refine Eq.trans (b :=
    (let f := (formI 0x19 0 d a 0 0 imm sy).base
     let ext := (formI 0x19 0 d a 0 0 imm sy).words.2
     let sy := Sync.ofWord ext .device
     let v := imm28 ext f.lo
     some (.slti f.d f.a v sy))) rfl ?_
  simp [imm_ofWord h, imm28_ok h, formI, Form.words]

theorem min (d : XReg) (a : XReg) (b : XReg) (sy : Sync) : Statement (.min d a b sy) := by
  intro h
  have h0 := h
  replace h : (sy.plain) = true := h
  refine decode_form (f := formX 0x1A d a b 0 0 sy) rfl h0 rfl ?_
  rw [rawDecode, unpack_words]
  refine Eq.trans (b :=
    (let f := (formX 0x1A d a b 0 0 sy).base
     let ext := (formX 0x1A d a b 0 0 sy).words.2
     let sy := Sync.ofWord ext .device
     let la := LoA.unpack f.lo
     match la.fn.toNat with
       | 0 => some (.min f.d f.a f.b sy)
       | 1 => some (.max f.d f.a f.b sy)
       | 2 => some (.minu f.d f.a f.b sy)
       | 3 => some (.maxu f.d f.a f.b sy)
       | _ => none)) rfl ?_
  simp [plain_ofWord h, formX, formA, LoA.unpack_pack, Form.words]

theorem max (d : XReg) (a : XReg) (b : XReg) (sy : Sync) : Statement (.max d a b sy) := by
  intro h
  have h0 := h
  replace h : (sy.plain) = true := h
  refine decode_form (f := formX 0x1A d a b 0 1 sy) rfl h0 rfl ?_
  rw [rawDecode, unpack_words]
  refine Eq.trans (b :=
    (let f := (formX 0x1A d a b 0 1 sy).base
     let ext := (formX 0x1A d a b 0 1 sy).words.2
     let sy := Sync.ofWord ext .device
     let la := LoA.unpack f.lo
     match la.fn.toNat with
       | 0 => some (.min f.d f.a f.b sy)
       | 1 => some (.max f.d f.a f.b sy)
       | 2 => some (.minu f.d f.a f.b sy)
       | 3 => some (.maxu f.d f.a f.b sy)
       | _ => none)) rfl ?_
  simp [plain_ofWord h, formX, formA, LoA.unpack_pack, Form.words]

theorem minu (d : XReg) (a : XReg) (b : XReg) (sy : Sync) : Statement (.minu d a b sy) := by
  intro h
  have h0 := h
  replace h : (sy.plain) = true := h
  refine decode_form (f := formX 0x1A d a b 0 2 sy) rfl h0 rfl ?_
  rw [rawDecode, unpack_words]
  refine Eq.trans (b :=
    (let f := (formX 0x1A d a b 0 2 sy).base
     let ext := (formX 0x1A d a b 0 2 sy).words.2
     let sy := Sync.ofWord ext .device
     let la := LoA.unpack f.lo
     match la.fn.toNat with
       | 0 => some (.min f.d f.a f.b sy)
       | 1 => some (.max f.d f.a f.b sy)
       | 2 => some (.minu f.d f.a f.b sy)
       | 3 => some (.maxu f.d f.a f.b sy)
       | _ => none)) rfl ?_
  simp [plain_ofWord h, formX, formA, LoA.unpack_pack, Form.words]

theorem maxu (d : XReg) (a : XReg) (b : XReg) (sy : Sync) : Statement (.maxu d a b sy) := by
  intro h
  have h0 := h
  replace h : (sy.plain) = true := h
  refine decode_form (f := formX 0x1A d a b 0 3 sy) rfl h0 rfl ?_
  rw [rawDecode, unpack_words]
  refine Eq.trans (b :=
    (let f := (formX 0x1A d a b 0 3 sy).base
     let ext := (formX 0x1A d a b 0 3 sy).words.2
     let sy := Sync.ofWord ext .device
     let la := LoA.unpack f.lo
     match la.fn.toNat with
       | 0 => some (.min f.d f.a f.b sy)
       | 1 => some (.max f.d f.a f.b sy)
       | 2 => some (.minu f.d f.a f.b sy)
       | 3 => some (.maxu f.d f.a f.b sy)
       | _ => none)) rfl ?_
  simp [plain_ofWord h, formX, formA, LoA.unpack_pack, Form.words]

theorem clz (d : XReg) (a : XReg) (sy : Sync) : Statement (.clz d a sy) := by
  intro h
  have h0 := h
  replace h : (sy.plain) = true := h
  refine decode_form (f := formX 0x1B d a 0 0 0 sy) rfl h0 rfl ?_
  rw [rawDecode, unpack_words]
  refine Eq.trans (b :=
    (let f := (formX 0x1B d a 0 0 0 sy).base
     let ext := (formX 0x1B d a 0 0 0 sy).words.2
     let sy := Sync.ofWord ext .device
     some (.clz f.d f.a sy))) rfl ?_
  simp [plain_ofWord h, formX, formA, LoA.unpack_pack, Form.words]

theorem popc (d : XReg) (a : XReg) (sy : Sync) : Statement (.popc d a sy) := by
  intro h
  have h0 := h
  replace h : (sy.plain) = true := h
  refine decode_form (f := formX 0x1C d a 0 0 0 sy) rfl h0 rfl ?_
  rw [rawDecode, unpack_words]
  refine Eq.trans (b :=
    (let f := (formX 0x1C d a 0 0 0 sy).base
     let ext := (formX 0x1C d a 0 0 0 sy).words.2
     let sy := Sync.ofWord ext .device
     some (.popc f.d f.a sy))) rfl ?_
  simp [plain_ofWord h, formX, formA, LoA.unpack_pack, Form.words]

theorem sel (d : XReg) (a : XReg) (b : XReg) (c : XReg) (sy : Sync) : Statement (.sel d a b c sy) := by
  intro h
  have h0 := h
  replace h : (sy.plain) = true := h
  refine decode_form (f := formX 0x1D d a b c 0 sy) rfl h0 rfl ?_
  rw [rawDecode, unpack_words]
  refine Eq.trans (b :=
    (let f := (formX 0x1D d a b c 0 sy).base
     let ext := (formX 0x1D d a b c 0 sy).words.2
     let sy := Sync.ofWord ext .device
     some (.sel f.d f.a f.b f.c sy))) rfl ?_
  simp [plain_ofWord h, formX, formA, LoA.unpack_pack, Form.words]

theorem li (d : XReg) (imm : Word) (sy : Sync) : Statement (.li d imm sy) := by
  intro h
  have h0 := h
  replace h : (sy.immOk imm) = true := h
  refine decode_form (f := formI 0x1E 0 d 0 0 0 imm sy) rfl h0 rfl ?_
  rw [rawDecode, unpack_words]
  refine Eq.trans (b :=
    (let f := (formI 0x1E 0 d 0 0 0 imm sy).base
     let ext := (formI 0x1E 0 d 0 0 0 imm sy).words.2
     let sy := Sync.ofWord ext .device
     let v := imm28 ext f.lo
     some (.li f.d v sy))) rfl ?_
  simp [imm_ofWord h, imm28_ok h, formI, Form.words]

theorem adr (d : XReg) (imm : Word) (sy : Sync) : Statement (.adr d imm sy) := by
  intro h
  have h0 := h
  replace h : (sy.immOk imm) = true := h
  refine decode_form (f := formI 0x1F 0 d 0 0 0 imm sy) rfl h0 rfl ?_
  rw [rawDecode, unpack_words]
  refine Eq.trans (b :=
    (let f := (formI 0x1F 0 d 0 0 0 imm sy).base
     let ext := (formI 0x1F 0 d 0 0 0 imm sy).words.2
     let sy := Sync.ofWord ext .device
     let v := imm28 ext f.lo
     some (.adr f.d v sy))) rfl ?_
  simp [imm_ofWord h, imm28_ok h, formI, Form.words]

theorem fadd (t : Ty) (r : Rnd) (d : XReg) (a : XReg) (b : XReg) (sy : Sync) : Statement (.fadd t r d a b sy) := by
  intro h
  have h0 := h
  replace h : (t.scalarFp && r.plain && sy.plain) = true := h
  simp only [Bool.and_eq_true] at h
  refine decode_form (f := formA 0x20 0 d a b 0 t.code 0 r.code 0 sy) rfl h0 rfl ?_
  rw [rawDecode, unpack_words]
  refine Eq.trans (b :=
    (let f := (formA 0x20 0 d a b 0 t.code 0 r.code 0 sy).base
     let ext := (formA 0x20 0 d a b 0 t.code 0 r.code 0 sy).words.2
     let sy := Sync.ofWord ext .device
     let la := LoA.unpack f.lo
     let t := Ty.ofCode la.ty
     let r := Rnd.ofCode la.rnd
     some (.fadd t r f.d f.a f.b sy))) rfl ?_
  simp [plain_ofWord h.2, formA, LoA.unpack_pack, Form.words]

theorem fsub (t : Ty) (r : Rnd) (d : XReg) (a : XReg) (b : XReg) (sy : Sync) : Statement (.fsub t r d a b sy) := by
  intro h
  have h0 := h
  replace h : (t.scalarFp && r.plain && sy.plain) = true := h
  simp only [Bool.and_eq_true] at h
  refine decode_form (f := formA 0x21 0 d a b 0 t.code 0 r.code 0 sy) rfl h0 rfl ?_
  rw [rawDecode, unpack_words]
  refine Eq.trans (b :=
    (let f := (formA 0x21 0 d a b 0 t.code 0 r.code 0 sy).base
     let ext := (formA 0x21 0 d a b 0 t.code 0 r.code 0 sy).words.2
     let sy := Sync.ofWord ext .device
     let la := LoA.unpack f.lo
     let t := Ty.ofCode la.ty
     let r := Rnd.ofCode la.rnd
     some (.fsub t r f.d f.a f.b sy))) rfl ?_
  simp [plain_ofWord h.2, formA, LoA.unpack_pack, Form.words]

theorem fmul (t : Ty) (r : Rnd) (d : XReg) (a : XReg) (b : XReg) (sy : Sync) : Statement (.fmul t r d a b sy) := by
  intro h
  have h0 := h
  replace h : (t.scalarFp && r.plain && sy.plain) = true := h
  simp only [Bool.and_eq_true] at h
  refine decode_form (f := formA 0x22 0 d a b 0 t.code 0 r.code 0 sy) rfl h0 rfl ?_
  rw [rawDecode, unpack_words]
  refine Eq.trans (b :=
    (let f := (formA 0x22 0 d a b 0 t.code 0 r.code 0 sy).base
     let ext := (formA 0x22 0 d a b 0 t.code 0 r.code 0 sy).words.2
     let sy := Sync.ofWord ext .device
     let la := LoA.unpack f.lo
     let t := Ty.ofCode la.ty
     let r := Rnd.ofCode la.rnd
     some (.fmul t r f.d f.a f.b sy))) rfl ?_
  simp [plain_ofWord h.2, formA, LoA.unpack_pack, Form.words]

theorem ffma (t : Ty) (r : Rnd) (d : XReg) (a : XReg) (b : XReg) (c : XReg) (sy : Sync) : Statement (.ffma t r d a b c sy) := by
  intro h
  have h0 := h
  replace h : (t.scalarFp && r.plain && sy.plain) = true := h
  simp only [Bool.and_eq_true] at h
  refine decode_form (f := formA 0x23 0 d a b c t.code 0 r.code 0 sy) rfl h0 rfl ?_
  rw [rawDecode, unpack_words]
  refine Eq.trans (b :=
    (let f := (formA 0x23 0 d a b c t.code 0 r.code 0 sy).base
     let ext := (formA 0x23 0 d a b c t.code 0 r.code 0 sy).words.2
     let sy := Sync.ofWord ext .device
     let la := LoA.unpack f.lo
     let t := Ty.ofCode la.ty
     let r := Rnd.ofCode la.rnd
     some (.ffma t r f.d f.a f.b f.c sy))) rfl ?_
  simp [plain_ofWord h.2, formA, LoA.unpack_pack, Form.words]

theorem fdiv (t : Ty) (r : Rnd) (d : XReg) (a : XReg) (b : XReg) (sy : Sync) : Statement (.fdiv t r d a b sy) := by
  intro h
  have h0 := h
  replace h : (t.scalarFp && r.plain && sy.plain) = true := h
  simp only [Bool.and_eq_true] at h
  refine decode_form (f := formA 0x24 0 d a b 0 t.code 0 r.code 0 sy) rfl h0 rfl ?_
  rw [rawDecode, unpack_words]
  refine Eq.trans (b :=
    (let f := (formA 0x24 0 d a b 0 t.code 0 r.code 0 sy).base
     let ext := (formA 0x24 0 d a b 0 t.code 0 r.code 0 sy).words.2
     let sy := Sync.ofWord ext .device
     let la := LoA.unpack f.lo
     let t := Ty.ofCode la.ty
     let r := Rnd.ofCode la.rnd
     some (.fdiv t r f.d f.a f.b sy))) rfl ?_
  simp [plain_ofWord h.2, formA, LoA.unpack_pack, Form.words]

theorem fsqrt (t : Ty) (r : Rnd) (d : XReg) (a : XReg) (sy : Sync) : Statement (.fsqrt t r d a sy) := by
  intro h
  have h0 := h
  replace h : (t.scalarFp && r.plain && sy.plain) = true := h
  simp only [Bool.and_eq_true] at h
  refine decode_form (f := formA 0x25 0 d a 0 0 t.code 0 r.code 0 sy) rfl h0 rfl ?_
  rw [rawDecode, unpack_words]
  refine Eq.trans (b :=
    (let f := (formA 0x25 0 d a 0 0 t.code 0 r.code 0 sy).base
     let ext := (formA 0x25 0 d a 0 0 t.code 0 r.code 0 sy).words.2
     let sy := Sync.ofWord ext .device
     let la := LoA.unpack f.lo
     let t := Ty.ofCode la.ty
     let r := Rnd.ofCode la.rnd
     some (.fsqrt t r f.d f.a sy))) rfl ?_
  simp [plain_ofWord h.2, formA, LoA.unpack_pack, Form.words]

theorem fmin (t : Ty) (d : XReg) (a : XReg) (b : XReg) (sy : Sync) : Statement (.fmin t d a b sy) := by
  intro h
  have h0 := h
  replace h : (t.scalarFp && sy.plain) = true := h
  simp only [Bool.and_eq_true] at h
  refine decode_form (f := formA 0x26 0 d a b 0 t.code 0 0 0 sy) rfl h0 rfl ?_
  rw [rawDecode, unpack_words]
  refine Eq.trans (b :=
    (let f := (formA 0x26 0 d a b 0 t.code 0 0 0 sy).base
     let ext := (formA 0x26 0 d a b 0 t.code 0 0 0 sy).words.2
     let sy := Sync.ofWord ext .device
     let la := LoA.unpack f.lo
     let t := Ty.ofCode la.ty
     some (.fmin t f.d f.a f.b sy))) rfl ?_
  simp [plain_ofWord h.2, formA, LoA.unpack_pack, Form.words]

theorem fmax (t : Ty) (d : XReg) (a : XReg) (b : XReg) (sy : Sync) : Statement (.fmax t d a b sy) := by
  intro h
  have h0 := h
  replace h : (t.scalarFp && sy.plain) = true := h
  simp only [Bool.and_eq_true] at h
  refine decode_form (f := formA 0x27 0 d a b 0 t.code 0 0 0 sy) rfl h0 rfl ?_
  rw [rawDecode, unpack_words]
  refine Eq.trans (b :=
    (let f := (formA 0x27 0 d a b 0 t.code 0 0 0 sy).base
     let ext := (formA 0x27 0 d a b 0 t.code 0 0 0 sy).words.2
     let sy := Sync.ofWord ext .device
     let la := LoA.unpack f.lo
     let t := Ty.ofCode la.ty
     some (.fmax t f.d f.a f.b sy))) rfl ?_
  simp [plain_ofWord h.2, formA, LoA.unpack_pack, Form.words]

theorem fcmp (t : Ty) (p : Pred) (d : XReg) (a : XReg) (b : XReg) (sy : Sync) : Statement (.fcmp t p d a b sy) := by
  intro h
  have h0 := h
  replace h : (t.scalarFp && sy.plain) = true := h
  simp only [Bool.and_eq_true] at h
  refine decode_form (f := formA 0x28 0 d a b 0 t.code 0 0 p.code sy) rfl h0 rfl ?_
  rw [rawDecode, unpack_words]
  refine Eq.trans (b :=
    (let f := (formA 0x28 0 d a b 0 t.code 0 0 p.code sy).base
     let ext := (formA 0x28 0 d a b 0 t.code 0 0 p.code sy).words.2
     let sy := Sync.ofWord ext .device
     let la := LoA.unpack f.lo
     let t := Ty.ofCode la.ty
     some (.fcmp t (Pred.ofCode la.fn) f.d f.a f.b sy))) rfl ?_
  simp [plain_ofWord h.2, formA, LoA.unpack_pack, Form.words]

theorem fcvt (t : Ty) (f_ : Ty) (r : Rnd) (d : XReg) (a : XReg) (sy : Sync) : Statement (.fcvt t f_ r d a sy) := by
  intro h
  have h0 := h
  replace h : (t != f_ && !(t.isInt && f_.isInt) && sy.plain) = true := h
  simp only [Bool.and_eq_true] at h
  refine decode_form (f := formA 0x29 0 d a 0 0 t.code f_.code r.code 0 sy) rfl h0 rfl ?_
  rw [rawDecode, unpack_words]
  refine Eq.trans (b :=
    (let f := (formA 0x29 0 d a 0 0 t.code f_.code r.code 0 sy).base
     let ext := (formA 0x29 0 d a 0 0 t.code f_.code r.code 0 sy).words.2
     let sy := Sync.ofWord ext .device
     let la := LoA.unpack f.lo
     let t := Ty.ofCode la.ty
     let r := Rnd.ofCode la.rnd
     some (.fcvt t (Ty.ofCode la.from_) r f.d f.a sy))) rfl ?_
  simp [plain_ofWord h.2, formA, LoA.unpack_pack, Form.words]

theorem fclass (t : Ty) (d : XReg) (a : XReg) (sy : Sync) : Statement (.fclass t d a sy) := by
  intro h
  have h0 := h
  replace h : (!t.isInt && sy.plain) = true := h
  simp only [Bool.and_eq_true] at h
  refine decode_form (f := formA 0x2A 0 d a 0 0 t.code 0 0 0 sy) rfl h0 rfl ?_
  rw [rawDecode, unpack_words]
  refine Eq.trans (b :=
    (let f := (formA 0x2A 0 d a 0 0 t.code 0 0 0 sy).base
     let ext := (formA 0x2A 0 d a 0 0 t.code 0 0 0 sy).words.2
     let sy := Sync.ofWord ext .device
     let la := LoA.unpack f.lo
     let t := Ty.ofCode la.ty
     some (.fclass t f.d f.a sy))) rfl ?_
  simp [plain_ofWord h.2, formA, LoA.unpack_pack, Form.words]

theorem br (c : Cond) (a : XReg) (b : XReg) (off : Word) (sy : Sync) : Statement (.br c a b off sy) := by
  intro h
  have h0 := h
  replace h : (sy.immOk off) = true := h
  refine decode_form (f := formI 0x30 0 0 a b c.code off sy) rfl h0 rfl ?_
  rw [rawDecode, unpack_words]
  refine Eq.trans (b :=
    (let f := (formI 0x30 0 0 a b c.code off sy).base
     let ext := (formI 0x30 0 0 a b c.code off sy).words.2
     let sy := Sync.ofWord ext .device
     let v := imm28 ext f.lo
     some (.br (Cond.ofCode f.c) f.a f.b v sy))) rfl ?_
  simp [imm_ofWord h, imm28_ok h, formI, Form.words]

theorem j (off : Word) (sy : Sync) : Statement (.j off sy) := by
  intro h
  have h0 := h
  replace h : (sy.immOk off) = true := h
  refine decode_form (f := formI 0x31 0 0 0 0 0 off sy) rfl h0 rfl ?_
  rw [rawDecode, unpack_words]
  refine Eq.trans (b :=
    (let f := (formI 0x31 0 0 0 0 0 off sy).base
     let ext := (formI 0x31 0 0 0 0 0 off sy).words.2
     let sy := Sync.ofWord ext .device
     let v := imm28 ext f.lo
     some (.j v sy))) rfl ?_
  simp [imm_ofWord h, imm28_ok h, formI, Form.words]

theorem jl (d : XReg) (off : Word) (sy : Sync) : Statement (.jl d off sy) := by
  intro h
  have h0 := h
  replace h : (sy.immOk off) = true := h
  refine decode_form (f := formI 0x32 0 d 0 0 0 off sy) rfl h0 rfl ?_
  rw [rawDecode, unpack_words]
  refine Eq.trans (b :=
    (let f := (formI 0x32 0 d 0 0 0 off sy).base
     let ext := (formI 0x32 0 d 0 0 0 off sy).words.2
     let sy := Sync.ofWord ext .device
     let v := imm28 ext f.lo
     some (.jl f.d v sy))) rfl ?_
  simp [imm_ofWord h, imm28_ok h, formI, Form.words]

theorem jr (a : XReg) (off : Word) (sy : Sync) : Statement (.jr a off sy) := by
  intro h
  have h0 := h
  replace h : (sy.immOk off) = true := h
  refine decode_form (f := formI 0x33 0 0 a 0 0 off sy) rfl h0 rfl ?_
  rw [rawDecode, unpack_words]
  refine Eq.trans (b :=
    (let f := (formI 0x33 0 0 a 0 0 off sy).base
     let ext := (formI 0x33 0 0 a 0 0 off sy).words.2
     let sy := Sync.ofWord ext .device
     let v := imm28 ext f.lo
     some (.jr f.a v sy))) rfl ?_
  simp [imm_ofWord h, imm28_ok h, formI, Form.words]

theorem jlr (d : XReg) (a : XReg) (off : Word) (sy : Sync) : Statement (.jlr d a off sy) := by
  intro h
  have h0 := h
  replace h : (sy.immOk off) = true := h
  refine decode_form (f := formI 0x34 0 d a 0 0 off sy) rfl h0 rfl ?_
  rw [rawDecode, unpack_words]
  refine Eq.trans (b :=
    (let f := (formI 0x34 0 d a 0 0 off sy).base
     let ext := (formI 0x34 0 d a 0 0 off sy).words.2
     let sy := Sync.ofWord ext .device
     let v := imm28 ext f.lo
     some (.jlr f.d f.a v sy))) rfl ?_
  simp [imm_ofWord h, imm28_ok h, formI, Form.words]

theorem loop (d : XReg) (off : Word) (sy : Sync) : Statement (.loop d off sy) := by
  intro h
  have h0 := h
  replace h : (d != 0 && sy.immOk off) = true := h
  simp only [Bool.and_eq_true] at h
  refine decode_form (f := formI 0x35 0 d 0 0 0 off sy) rfl h0 rfl ?_
  rw [rawDecode, unpack_words]
  refine Eq.trans (b :=
    (let f := (formI 0x35 0 d 0 0 0 off sy).base
     let ext := (formI 0x35 0 d 0 0 0 off sy).words.2
     let sy := Sync.ofWord ext .device
     let v := imm28 ext f.lo
     some (.loop f.d v sy))) rfl ?_
  simp [imm_ofWord h.2, imm28_ok h.2, formI, Form.words]

theorem bany (k : KReg) (off : Word) (sy : Sync) : Statement (.bany k off sy) := by
  intro h
  have h0 := h
  replace h : (sy.immOk off) = true := h
  refine decode_form (f := formI 0x36 0 0 0 0 (k.zeroExtend 6) off sy) rfl h0 rfl ?_
  rw [rawDecode, unpack_words]
  refine Eq.trans (b :=
    (let f := (formI 0x36 0 0 0 0 (k.zeroExtend 6) off sy).base
     let ext := (formI 0x36 0 0 0 0 (k.zeroExtend 6) off sy).words.2
     let sy := Sync.ofWord ext .device
     let v := imm28 ext f.lo
     some (.bany (f.c.truncate 3) v sy))) rfl ?_
  simp [imm_ofWord h, imm28_ok h, formI, Form.words]

theorem ball (k : KReg) (off : Word) (sy : Sync) : Statement (.ball k off sy) := by
  intro h
  have h0 := h
  replace h : (sy.immOk off) = true := h
  refine decode_form (f := formI 0x37 0 0 0 0 (k.zeroExtend 6) off sy) rfl h0 rfl ?_
  rw [rawDecode, unpack_words]
  refine Eq.trans (b :=
    (let f := (formI 0x37 0 0 0 0 (k.zeroExtend 6) off sy).base
     let ext := (formI 0x37 0 0 0 0 (k.zeroExtend 6) off sy).words.2
     let sy := Sync.ofWord ext .device
     let v := imm28 ext f.lo
     some (.ball (f.c.truncate 3) v sy))) rfl ?_
  simp [imm_ofWord h, imm28_ok h, formI, Form.words]

theorem vadd (t : Ty) (r : Rnd) (m : KReg) (d : VReg) (a : VReg) (b : VReg) (sy : Sync) : Statement (.vadd t r m d a b sy) := by
  intro h
  have h0 := h
  replace h : (t.vecArith && t.rndOk r && sy.plain) = true := h
  simp only [Bool.and_eq_true] at h
  refine decode_form (f := formA 0x40 m d a b 0 t.code 0 r.code 0 sy) rfl h0 rfl ?_
  rw [rawDecode, unpack_words]
  refine Eq.trans (b :=
    (let f := (formA 0x40 m d a b 0 t.code 0 r.code 0 sy).base
     let ext := (formA 0x40 m d a b 0 t.code 0 r.code 0 sy).words.2
     let sy := Sync.ofWord ext .device
     let la := LoA.unpack f.lo
     let t := Ty.ofCode la.ty
     let r := Rnd.ofCode la.rnd
     let m := f.k
     some (.vadd t r m f.d f.a f.b sy))) rfl ?_
  simp [plain_ofWord h.2, formA, LoA.unpack_pack, Form.words]

theorem vsub (t : Ty) (r : Rnd) (m : KReg) (d : VReg) (a : VReg) (b : VReg) (sy : Sync) : Statement (.vsub t r m d a b sy) := by
  intro h
  have h0 := h
  replace h : (t.vecArith && t.rndOk r && sy.plain) = true := h
  simp only [Bool.and_eq_true] at h
  refine decode_form (f := formA 0x41 m d a b 0 t.code 0 r.code 0 sy) rfl h0 rfl ?_
  rw [rawDecode, unpack_words]
  refine Eq.trans (b :=
    (let f := (formA 0x41 m d a b 0 t.code 0 r.code 0 sy).base
     let ext := (formA 0x41 m d a b 0 t.code 0 r.code 0 sy).words.2
     let sy := Sync.ofWord ext .device
     let la := LoA.unpack f.lo
     let t := Ty.ofCode la.ty
     let r := Rnd.ofCode la.rnd
     let m := f.k
     some (.vsub t r m f.d f.a f.b sy))) rfl ?_
  simp [plain_ofWord h.2, formA, LoA.unpack_pack, Form.words]

theorem vmul (t : Ty) (r : Rnd) (m : KReg) (d : VReg) (a : VReg) (b : VReg) (sy : Sync) : Statement (.vmul t r m d a b sy) := by
  intro h
  have h0 := h
  replace h : (t.vecArith && t.rndOk r && sy.plain) = true := h
  simp only [Bool.and_eq_true] at h
  refine decode_form (f := formA 0x42 m d a b 0 t.code 0 r.code 0 sy) rfl h0 rfl ?_
  rw [rawDecode, unpack_words]
  refine Eq.trans (b :=
    (let f := (formA 0x42 m d a b 0 t.code 0 r.code 0 sy).base
     let ext := (formA 0x42 m d a b 0 t.code 0 r.code 0 sy).words.2
     let sy := Sync.ofWord ext .device
     let la := LoA.unpack f.lo
     let t := Ty.ofCode la.ty
     let r := Rnd.ofCode la.rnd
     let m := f.k
     some (.vmul t r m f.d f.a f.b sy))) rfl ?_
  simp [plain_ofWord h.2, formA, LoA.unpack_pack, Form.words]

theorem vfma (t : Ty) (r : Rnd) (m : KReg) (d : VReg) (a : VReg) (b : VReg) (c : VReg) (sy : Sync) : Statement (.vfma t r m d a b c sy) := by
  intro h
  have h0 := h
  replace h : (t.vecArith && !t.isInt && r.plain && sy.plain) = true := h
  simp only [Bool.and_eq_true] at h
  refine decode_form (f := formA 0x43 m d a b c t.code 0 r.code 0 sy) rfl h0 rfl ?_
  rw [rawDecode, unpack_words]
  refine Eq.trans (b :=
    (let f := (formA 0x43 m d a b c t.code 0 r.code 0 sy).base
     let ext := (formA 0x43 m d a b c t.code 0 r.code 0 sy).words.2
     let sy := Sync.ofWord ext .device
     let la := LoA.unpack f.lo
     let t := Ty.ofCode la.ty
     let r := Rnd.ofCode la.rnd
     let m := f.k
     some (.vfma t r m f.d f.a f.b f.c sy))) rfl ?_
  simp [plain_ofWord h.2, formA, LoA.unpack_pack, Form.words]

theorem vmin (t : Ty) (m : KReg) (d : VReg) (a : VReg) (b : VReg) (sy : Sync) : Statement (.vmin t m d a b sy) := by
  intro h
  have h0 := h
  replace h : (t.vecArith && sy.plain) = true := h
  simp only [Bool.and_eq_true] at h
  refine decode_form (f := formA 0x44 m d a b 0 t.code 0 0 0 sy) rfl h0 rfl ?_
  rw [rawDecode, unpack_words]
  refine Eq.trans (b :=
    (let f := (formA 0x44 m d a b 0 t.code 0 0 0 sy).base
     let ext := (formA 0x44 m d a b 0 t.code 0 0 0 sy).words.2
     let sy := Sync.ofWord ext .device
     let la := LoA.unpack f.lo
     let t := Ty.ofCode la.ty
     let m := f.k
     some (.vmin t m f.d f.a f.b sy))) rfl ?_
  simp [plain_ofWord h.2, formA, LoA.unpack_pack, Form.words]

theorem vmax (t : Ty) (m : KReg) (d : VReg) (a : VReg) (b : VReg) (sy : Sync) : Statement (.vmax t m d a b sy) := by
  intro h
  have h0 := h
  replace h : (t.vecArith && sy.plain) = true := h
  simp only [Bool.and_eq_true] at h
  refine decode_form (f := formA 0x45 m d a b 0 t.code 0 0 0 sy) rfl h0 rfl ?_
  rw [rawDecode, unpack_words]
  refine Eq.trans (b :=
    (let f := (formA 0x45 m d a b 0 t.code 0 0 0 sy).base
     let ext := (formA 0x45 m d a b 0 t.code 0 0 0 sy).words.2
     let sy := Sync.ofWord ext .device
     let la := LoA.unpack f.lo
     let t := Ty.ofCode la.ty
     let m := f.k
     some (.vmax t m f.d f.a f.b sy))) rfl ?_
  simp [plain_ofWord h.2, formA, LoA.unpack_pack, Form.words]

theorem vand (t : Ty) (m : KReg) (d : VReg) (a : VReg) (b : VReg) (sy : Sync) : Statement (.vand t m d a b sy) := by
  intro h
  have h0 := h
  replace h : (t.vecBits && sy.plain) = true := h
  simp only [Bool.and_eq_true] at h
  refine decode_form (f := formA 0x46 m d a b 0 t.code 0 0 0 sy) rfl h0 rfl ?_
  rw [rawDecode, unpack_words]
  refine Eq.trans (b :=
    (let f := (formA 0x46 m d a b 0 t.code 0 0 0 sy).base
     let ext := (formA 0x46 m d a b 0 t.code 0 0 0 sy).words.2
     let sy := Sync.ofWord ext .device
     let la := LoA.unpack f.lo
     let t := Ty.ofCode la.ty
     let m := f.k
     some (.vand t m f.d f.a f.b sy))) rfl ?_
  simp [plain_ofWord h.2, formA, LoA.unpack_pack, Form.words]

theorem vor (t : Ty) (m : KReg) (d : VReg) (a : VReg) (b : VReg) (sy : Sync) : Statement (.vor t m d a b sy) := by
  intro h
  have h0 := h
  replace h : (t.vecBits && sy.plain) = true := h
  simp only [Bool.and_eq_true] at h
  refine decode_form (f := formA 0x47 m d a b 0 t.code 0 0 0 sy) rfl h0 rfl ?_
  rw [rawDecode, unpack_words]
  refine Eq.trans (b :=
    (let f := (formA 0x47 m d a b 0 t.code 0 0 0 sy).base
     let ext := (formA 0x47 m d a b 0 t.code 0 0 0 sy).words.2
     let sy := Sync.ofWord ext .device
     let la := LoA.unpack f.lo
     let t := Ty.ofCode la.ty
     let m := f.k
     some (.vor t m f.d f.a f.b sy))) rfl ?_
  simp [plain_ofWord h.2, formA, LoA.unpack_pack, Form.words]

theorem vxor (t : Ty) (m : KReg) (d : VReg) (a : VReg) (b : VReg) (sy : Sync) : Statement (.vxor t m d a b sy) := by
  intro h
  have h0 := h
  replace h : (t.vecBits && sy.plain) = true := h
  simp only [Bool.and_eq_true] at h
  refine decode_form (f := formA 0x48 m d a b 0 t.code 0 0 0 sy) rfl h0 rfl ?_
  rw [rawDecode, unpack_words]
  refine Eq.trans (b :=
    (let f := (formA 0x48 m d a b 0 t.code 0 0 0 sy).base
     let ext := (formA 0x48 m d a b 0 t.code 0 0 0 sy).words.2
     let sy := Sync.ofWord ext .device
     let la := LoA.unpack f.lo
     let t := Ty.ofCode la.ty
     let m := f.k
     some (.vxor t m f.d f.a f.b sy))) rfl ?_
  simp [plain_ofWord h.2, formA, LoA.unpack_pack, Form.words]

theorem vshl (t : Ty) (m : KReg) (d : VReg) (a : VReg) (b : VReg) (sy : Sync) : Statement (.vshl t m d a b sy) := by
  intro h
  have h0 := h
  replace h : (t.vecBits && sy.plain) = true := h
  simp only [Bool.and_eq_true] at h
  refine decode_form (f := formA 0x49 m d a b 0 t.code 0 0 0 sy) rfl h0 rfl ?_
  rw [rawDecode, unpack_words]
  refine Eq.trans (b :=
    (let f := (formA 0x49 m d a b 0 t.code 0 0 0 sy).base
     let ext := (formA 0x49 m d a b 0 t.code 0 0 0 sy).words.2
     let sy := Sync.ofWord ext .device
     let la := LoA.unpack f.lo
     let t := Ty.ofCode la.ty
     let m := f.k
     some (.vshl t m f.d f.a f.b sy))) rfl ?_
  simp [plain_ofWord h.2, formA, LoA.unpack_pack, Form.words]

theorem vshr (t : Ty) (m : KReg) (d : VReg) (a : VReg) (b : VReg) (sy : Sync) : Statement (.vshr t m d a b sy) := by
  intro h
  have h0 := h
  replace h : (t.vecBits && sy.plain) = true := h
  simp only [Bool.and_eq_true] at h
  refine decode_form (f := formA 0x4A m d a b 0 t.code 0 0 0 sy) rfl h0 rfl ?_
  rw [rawDecode, unpack_words]
  refine Eq.trans (b :=
    (let f := (formA 0x4A m d a b 0 t.code 0 0 0 sy).base
     let ext := (formA 0x4A m d a b 0 t.code 0 0 0 sy).words.2
     let sy := Sync.ofWord ext .device
     let la := LoA.unpack f.lo
     let t := Ty.ofCode la.ty
     let m := f.k
     some (.vshr t m f.d f.a f.b sy))) rfl ?_
  simp [plain_ofWord h.2, formA, LoA.unpack_pack, Form.words]

theorem vsra (t : Ty) (m : KReg) (d : VReg) (a : VReg) (b : VReg) (sy : Sync) : Statement (.vsra t m d a b sy) := by
  intro h
  have h0 := h
  replace h : (t.vecBits && sy.plain) = true := h
  simp only [Bool.and_eq_true] at h
  refine decode_form (f := formA 0x4B m d a b 0 t.code 0 0 0 sy) rfl h0 rfl ?_
  rw [rawDecode, unpack_words]
  refine Eq.trans (b :=
    (let f := (formA 0x4B m d a b 0 t.code 0 0 0 sy).base
     let ext := (formA 0x4B m d a b 0 t.code 0 0 0 sy).words.2
     let sy := Sync.ofWord ext .device
     let la := LoA.unpack f.lo
     let t := Ty.ofCode la.ty
     let m := f.k
     some (.vsra t m f.d f.a f.b sy))) rfl ?_
  simp [plain_ofWord h.2, formA, LoA.unpack_pack, Form.words]

theorem vabs (t : Ty) (m : KReg) (d : VReg) (a : VReg) (sy : Sync) : Statement (.vabs t m d a sy) := by
  intro h
  have h0 := h
  replace h : (t.vecSign && sy.plain) = true := h
  simp only [Bool.and_eq_true] at h
  refine decode_form (f := formA 0x4F m d a 0 0 t.code 0 0 0 sy) rfl h0 rfl ?_
  rw [rawDecode, unpack_words]
  refine Eq.trans (b :=
    (let f := (formA 0x4F m d a 0 0 t.code 0 0 0 sy).base
     let ext := (formA 0x4F m d a 0 0 t.code 0 0 0 sy).words.2
     let sy := Sync.ofWord ext .device
     let la := LoA.unpack f.lo
     let t := Ty.ofCode la.ty
     let r := Rnd.ofCode la.rnd
     let m := f.k
     match la.fn.toNat with
       | 0 => some (.vabs t m f.d f.a sy)
       | 1 => some (.vneg t m f.d f.a sy)
       | 2 => some (.vrcp t r m f.d f.a sy)
       | 3 => some (.vrsq t r m f.d f.a sy)
       | 4 => some (.vexp2 t r m f.d f.a sy)
       | 5 => some (.vlog2 t r m f.d f.a sy)
       | 6 => some (.vsqrt t r m f.d f.a sy)
       | _ => none)) rfl ?_
  simp [plain_ofWord h.2, formA, LoA.unpack_pack, Form.words]

theorem vneg (t : Ty) (m : KReg) (d : VReg) (a : VReg) (sy : Sync) : Statement (.vneg t m d a sy) := by
  intro h
  have h0 := h
  replace h : (t.vecSign && sy.plain) = true := h
  simp only [Bool.and_eq_true] at h
  refine decode_form (f := formA 0x4F m d a 0 0 t.code 0 0 1 sy) rfl h0 rfl ?_
  rw [rawDecode, unpack_words]
  refine Eq.trans (b :=
    (let f := (formA 0x4F m d a 0 0 t.code 0 0 1 sy).base
     let ext := (formA 0x4F m d a 0 0 t.code 0 0 1 sy).words.2
     let sy := Sync.ofWord ext .device
     let la := LoA.unpack f.lo
     let t := Ty.ofCode la.ty
     let r := Rnd.ofCode la.rnd
     let m := f.k
     match la.fn.toNat with
       | 0 => some (.vabs t m f.d f.a sy)
       | 1 => some (.vneg t m f.d f.a sy)
       | 2 => some (.vrcp t r m f.d f.a sy)
       | 3 => some (.vrsq t r m f.d f.a sy)
       | 4 => some (.vexp2 t r m f.d f.a sy)
       | 5 => some (.vlog2 t r m f.d f.a sy)
       | 6 => some (.vsqrt t r m f.d f.a sy)
       | _ => none)) rfl ?_
  simp [plain_ofWord h.2, formA, LoA.unpack_pack, Form.words]

theorem vrcp (t : Ty) (r : Rnd) (m : KReg) (d : VReg) (a : VReg) (sy : Sync) : Statement (.vrcp t r m d a sy) := by
  intro h
  have h0 := h
  replace h : (t.vecFun && r.plain && sy.plain) = true := h
  simp only [Bool.and_eq_true] at h
  refine decode_form (f := formA 0x4F m d a 0 0 t.code 0 r.code 2 sy) rfl h0 rfl ?_
  rw [rawDecode, unpack_words]
  refine Eq.trans (b :=
    (let f := (formA 0x4F m d a 0 0 t.code 0 r.code 2 sy).base
     let ext := (formA 0x4F m d a 0 0 t.code 0 r.code 2 sy).words.2
     let sy := Sync.ofWord ext .device
     let la := LoA.unpack f.lo
     let t := Ty.ofCode la.ty
     let r := Rnd.ofCode la.rnd
     let m := f.k
     match la.fn.toNat with
       | 0 => some (.vabs t m f.d f.a sy)
       | 1 => some (.vneg t m f.d f.a sy)
       | 2 => some (.vrcp t r m f.d f.a sy)
       | 3 => some (.vrsq t r m f.d f.a sy)
       | 4 => some (.vexp2 t r m f.d f.a sy)
       | 5 => some (.vlog2 t r m f.d f.a sy)
       | 6 => some (.vsqrt t r m f.d f.a sy)
       | _ => none)) rfl ?_
  simp [plain_ofWord h.2, formA, LoA.unpack_pack, Form.words]

theorem vrsq (t : Ty) (r : Rnd) (m : KReg) (d : VReg) (a : VReg) (sy : Sync) : Statement (.vrsq t r m d a sy) := by
  intro h
  have h0 := h
  replace h : (t.vecFun && r.plain && sy.plain) = true := h
  simp only [Bool.and_eq_true] at h
  refine decode_form (f := formA 0x4F m d a 0 0 t.code 0 r.code 3 sy) rfl h0 rfl ?_
  rw [rawDecode, unpack_words]
  refine Eq.trans (b :=
    (let f := (formA 0x4F m d a 0 0 t.code 0 r.code 3 sy).base
     let ext := (formA 0x4F m d a 0 0 t.code 0 r.code 3 sy).words.2
     let sy := Sync.ofWord ext .device
     let la := LoA.unpack f.lo
     let t := Ty.ofCode la.ty
     let r := Rnd.ofCode la.rnd
     let m := f.k
     match la.fn.toNat with
       | 0 => some (.vabs t m f.d f.a sy)
       | 1 => some (.vneg t m f.d f.a sy)
       | 2 => some (.vrcp t r m f.d f.a sy)
       | 3 => some (.vrsq t r m f.d f.a sy)
       | 4 => some (.vexp2 t r m f.d f.a sy)
       | 5 => some (.vlog2 t r m f.d f.a sy)
       | 6 => some (.vsqrt t r m f.d f.a sy)
       | _ => none)) rfl ?_
  simp [plain_ofWord h.2, formA, LoA.unpack_pack, Form.words]

theorem vexp2 (t : Ty) (r : Rnd) (m : KReg) (d : VReg) (a : VReg) (sy : Sync) : Statement (.vexp2 t r m d a sy) := by
  intro h
  have h0 := h
  replace h : (t.vecFun && r.plain && sy.plain) = true := h
  simp only [Bool.and_eq_true] at h
  refine decode_form (f := formA 0x4F m d a 0 0 t.code 0 r.code 4 sy) rfl h0 rfl ?_
  rw [rawDecode, unpack_words]
  refine Eq.trans (b :=
    (let f := (formA 0x4F m d a 0 0 t.code 0 r.code 4 sy).base
     let ext := (formA 0x4F m d a 0 0 t.code 0 r.code 4 sy).words.2
     let sy := Sync.ofWord ext .device
     let la := LoA.unpack f.lo
     let t := Ty.ofCode la.ty
     let r := Rnd.ofCode la.rnd
     let m := f.k
     match la.fn.toNat with
       | 0 => some (.vabs t m f.d f.a sy)
       | 1 => some (.vneg t m f.d f.a sy)
       | 2 => some (.vrcp t r m f.d f.a sy)
       | 3 => some (.vrsq t r m f.d f.a sy)
       | 4 => some (.vexp2 t r m f.d f.a sy)
       | 5 => some (.vlog2 t r m f.d f.a sy)
       | 6 => some (.vsqrt t r m f.d f.a sy)
       | _ => none)) rfl ?_
  simp [plain_ofWord h.2, formA, LoA.unpack_pack, Form.words]

theorem vlog2 (t : Ty) (r : Rnd) (m : KReg) (d : VReg) (a : VReg) (sy : Sync) : Statement (.vlog2 t r m d a sy) := by
  intro h
  have h0 := h
  replace h : (t.vecFun && r.plain && sy.plain) = true := h
  simp only [Bool.and_eq_true] at h
  refine decode_form (f := formA 0x4F m d a 0 0 t.code 0 r.code 5 sy) rfl h0 rfl ?_
  rw [rawDecode, unpack_words]
  refine Eq.trans (b :=
    (let f := (formA 0x4F m d a 0 0 t.code 0 r.code 5 sy).base
     let ext := (formA 0x4F m d a 0 0 t.code 0 r.code 5 sy).words.2
     let sy := Sync.ofWord ext .device
     let la := LoA.unpack f.lo
     let t := Ty.ofCode la.ty
     let r := Rnd.ofCode la.rnd
     let m := f.k
     match la.fn.toNat with
       | 0 => some (.vabs t m f.d f.a sy)
       | 1 => some (.vneg t m f.d f.a sy)
       | 2 => some (.vrcp t r m f.d f.a sy)
       | 3 => some (.vrsq t r m f.d f.a sy)
       | 4 => some (.vexp2 t r m f.d f.a sy)
       | 5 => some (.vlog2 t r m f.d f.a sy)
       | 6 => some (.vsqrt t r m f.d f.a sy)
       | _ => none)) rfl ?_
  simp [plain_ofWord h.2, formA, LoA.unpack_pack, Form.words]

theorem vsqrt (t : Ty) (r : Rnd) (m : KReg) (d : VReg) (a : VReg) (sy : Sync) : Statement (.vsqrt t r m d a sy) := by
  intro h
  have h0 := h
  replace h : (t.vecFun && r.plain && sy.plain) = true := h
  simp only [Bool.and_eq_true] at h
  refine decode_form (f := formA 0x4F m d a 0 0 t.code 0 r.code 6 sy) rfl h0 rfl ?_
  rw [rawDecode, unpack_words]
  refine Eq.trans (b :=
    (let f := (formA 0x4F m d a 0 0 t.code 0 r.code 6 sy).base
     let ext := (formA 0x4F m d a 0 0 t.code 0 r.code 6 sy).words.2
     let sy := Sync.ofWord ext .device
     let la := LoA.unpack f.lo
     let t := Ty.ofCode la.ty
     let r := Rnd.ofCode la.rnd
     let m := f.k
     match la.fn.toNat with
       | 0 => some (.vabs t m f.d f.a sy)
       | 1 => some (.vneg t m f.d f.a sy)
       | 2 => some (.vrcp t r m f.d f.a sy)
       | 3 => some (.vrsq t r m f.d f.a sy)
       | 4 => some (.vexp2 t r m f.d f.a sy)
       | 5 => some (.vlog2 t r m f.d f.a sy)
       | 6 => some (.vsqrt t r m f.d f.a sy)
       | _ => none)) rfl ?_
  simp [plain_ofWord h.2, formA, LoA.unpack_pack, Form.words]

theorem vcmp (t : Ty) (p : Pred) (m : KReg) (d : KReg) (a : VReg) (b : VReg) (sy : Sync) : Statement (.vcmp t p m d a b sy) := by
  intro h
  have h0 := h
  replace h : (t.vecWord && p.ok t && sy.plain) = true := h
  simp only [Bool.and_eq_true] at h
  refine decode_form (f := formA 0x4C m (d.zeroExtend 6) a b 0 t.code 0 0 p.code sy) rfl h0 rfl ?_
  rw [rawDecode, unpack_words]
  refine Eq.trans (b :=
    (let f := (formA 0x4C m (d.zeroExtend 6) a b 0 t.code 0 0 p.code sy).base
     let ext := (formA 0x4C m (d.zeroExtend 6) a b 0 t.code 0 0 p.code sy).words.2
     let sy := Sync.ofWord ext .device
     let la := LoA.unpack f.lo
     let t := Ty.ofCode la.ty
     let m := f.k
     some (.vcmp t (Pred.ofCode la.fn) m (f.d.truncate 3) f.a f.b sy))) rfl ?_
  simp [plain_ofWord h.2, formA, LoA.unpack_pack, Form.words]

theorem vsel (m : KReg) (d : VReg) (a : VReg) (b : VReg) (sy : Sync) : Statement (.vsel m d a b sy) := by
  intro h
  have h0 := h
  replace h : (sy.plain) = true := h
  refine decode_form (f := formA 0x4D m d a b 0 0 0 0 0 sy) rfl h0 rfl ?_
  rw [rawDecode, unpack_words]
  refine Eq.trans (b :=
    (let f := (formA 0x4D m d a b 0 0 0 0 0 sy).base
     let ext := (formA 0x4D m d a b 0 0 0 0 0 sy).words.2
     let sy := Sync.ofWord ext .device
     let m := f.k
     some (.vsel m f.d f.a f.b sy))) rfl ?_
  simp [plain_ofWord h, formA, LoA.unpack_pack, Form.words]

theorem vcvt (t : Ty) (f_ : Ty) (r : Rnd) (m : KReg) (d : VReg) (a : VReg) (sy : Sync) : Statement (.vcvt t f_ r m d a sy) := by
  intro h
  have h0 := h
  replace h : (t.vecCvt && f_.vecCvt && t != f_ && (t.bits == f_.bits || m == 0) && sy.plain) = true := h
  simp only [Bool.and_eq_true] at h
  refine decode_form (f := formA 0x4E m d a 0 0 t.code f_.code r.code 0 sy) rfl h0 rfl ?_
  rw [rawDecode, unpack_words]
  refine Eq.trans (b :=
    (let f := (formA 0x4E m d a 0 0 t.code f_.code r.code 0 sy).base
     let ext := (formA 0x4E m d a 0 0 t.code f_.code r.code 0 sy).words.2
     let sy := Sync.ofWord ext .device
     let la := LoA.unpack f.lo
     let t := Ty.ofCode la.ty
     let r := Rnd.ofCode la.rnd
     let m := f.k
     some (.vcvt t (Ty.ofCode la.from_) r m f.d f.a sy))) rfl ?_
  simp [plain_ofWord h.2, formA, LoA.unpack_pack, Form.words]

theorem vdot (t : Ty) (r : Rnd) (m : KReg) (d : VReg) (a : VReg) (b : VReg) (c : VReg) (sy : Sync) : Statement (.vdot t r m d a b c sy) := by
  intro h
  have h0 := h
  replace h := (Bool.and_eq_true _ _).mp (show (_ && sy.plain) = true from h)
  refine decode_form (f := formA 0x50 m d a b c t.code 0 r.code 0 sy) rfl h0 rfl ?_
  rw [rawDecode, unpack_words]
  refine Eq.trans (b :=
    (let f := (formA 0x50 m d a b c t.code 0 r.code 0 sy).base
     let ext := (formA 0x50 m d a b c t.code 0 r.code 0 sy).words.2
     let sy := Sync.ofWord ext .device
     let la := LoA.unpack f.lo
     let t := Ty.ofCode la.ty
     let r := Rnd.ofCode la.rnd
     let m := f.k
     some (.vdot t r m f.d f.a f.b f.c sy))) rfl ?_
  simp [plain_ofWord h.2, formA, LoA.unpack_pack, Form.words]

theorem vbcast (sz : Size) (m : KReg) (d : VReg) (a : XReg) (sy : Sync) : Statement (.vbcast sz m d a sy) := by
  intro h
  have h0 := h
  replace h : (sy.plain) = true := h
  refine decode_form (f := formA 0x51 m d a 0 0 0 0 0 (sz.code.zeroExtend 6) sy) rfl h0 rfl ?_
  rw [rawDecode, unpack_words]
  refine Eq.trans (b :=
    (let f := (formA 0x51 m d a 0 0 0 0 0 (sz.code.zeroExtend 6) sy).base
     let ext := (formA 0x51 m d a 0 0 0 0 0 (sz.code.zeroExtend 6) sy).words.2
     let sy := Sync.ofWord ext .device
     let la := LoA.unpack f.lo
     let m := f.k
     some (.vbcast (Size.ofCode (la.fn.truncate 2)) m f.d f.a sy))) rfl ?_
  simp [plain_ofWord h, formA, LoA.unpack_pack, Form.words]

theorem vext (d : XReg) (a : VReg) (b : XReg) (sy : Sync) : Statement (.vext d a b sy) := by
  intro h
  have h0 := h
  replace h : (sy.plain) = true := h
  refine decode_form (f := formX 0x52 d a b 0 0 sy) rfl h0 rfl ?_
  rw [rawDecode, unpack_words]
  refine Eq.trans (b :=
    (let f := (formX 0x52 d a b 0 0 sy).base
     let ext := (formX 0x52 d a b 0 0 sy).words.2
     let sy := Sync.ofWord ext .device
     some (.vext f.d f.a f.b sy))) rfl ?_
  simp [plain_ofWord h, formX, formA, LoA.unpack_pack, Form.words]

theorem vins (d : VReg) (a : XReg) (b : XReg) (sy : Sync) : Statement (.vins d a b sy) := by
  intro h
  have h0 := h
  replace h : (sy.plain) = true := h
  refine decode_form (f := formX 0x53 d a b 0 0 sy) rfl h0 rfl ?_
  rw [rawDecode, unpack_words]
  refine Eq.trans (b :=
    (let f := (formX 0x53 d a b 0 0 sy).base
     let ext := (formX 0x53 d a b 0 0 sy).words.2
     let sy := Sync.ofWord ext .device
     some (.vins f.d f.a f.b sy))) rfl ?_
  simp [plain_ofWord h, formX, formA, LoA.unpack_pack, Form.words]

theorem vperm (m : KReg) (d : VReg) (a : VReg) (b : VReg) (sy : Sync) : Statement (.vperm m d a b sy) := by
  intro h
  have h0 := h
  replace h : (sy.plain) = true := h
  refine decode_form (f := formA 0x54 m d a b 0 0 0 0 0 sy) rfl h0 rfl ?_
  rw [rawDecode, unpack_words]
  refine Eq.trans (b :=
    (let f := (formA 0x54 m d a b 0 0 0 0 0 sy).base
     let ext := (formA 0x54 m d a b 0 0 0 0 0 sy).words.2
     let sy := Sync.ofWord ext .device
     let m := f.k
     some (.vperm m f.d f.a f.b sy))) rfl ?_
  simp [plain_ofWord h, formA, LoA.unpack_pack, Form.words]

theorem vrot (m : KReg) (d : VReg) (a : VReg) (b : XReg) (sy : Sync) : Statement (.vrot m d a b sy) := by
  intro h
  have h0 := h
  replace h : (sy.plain) = true := h
  refine decode_form (f := formA 0x55 m d a b 0 0 0 0 0 sy) rfl h0 rfl ?_
  rw [rawDecode, unpack_words]
  refine Eq.trans (b :=
    (let f := (formA 0x55 m d a b 0 0 0 0 0 sy).base
     let ext := (formA 0x55 m d a b 0 0 0 0 0 sy).words.2
     let sy := Sync.ofWord ext .device
     let m := f.k
     some (.vrot m f.d f.a f.b sy))) rfl ?_
  simp [plain_ofWord h, formA, LoA.unpack_pack, Form.words]

theorem viota (m : KReg) (d : VReg) (a : XReg) (sy : Sync) : Statement (.viota m d a sy) := by
  intro h
  have h0 := h
  replace h : (sy.plain) = true := h
  refine decode_form (f := formA 0x58 m d a 0 0 0 0 0 0 sy) rfl h0 rfl ?_
  rw [rawDecode, unpack_words]
  refine Eq.trans (b :=
    (let f := (formA 0x58 m d a 0 0 0 0 0 0 sy).base
     let ext := (formA 0x58 m d a 0 0 0 0 0 0 sy).words.2
     let sy := Sync.ofWord ext .device
     let m := f.k
     some (.viota m f.d f.a sy))) rfl ?_
  simp [plain_ofWord h, formA, LoA.unpack_pack, Form.words]

theorem vcomp (m : KReg) (d : VReg) (a : VReg) (sy : Sync) : Statement (.vcomp m d a sy) := by
  intro h
  have h0 := h
  replace h : (sy.plain) = true := h
  refine decode_form (f := formA 0x59 m d a 0 0 0 0 0 0 sy) rfl h0 rfl ?_
  rw [rawDecode, unpack_words]
  refine Eq.trans (b :=
    (let f := (formA 0x59 m d a 0 0 0 0 0 0 sy).base
     let ext := (formA 0x59 m d a 0 0 0 0 0 0 sy).words.2
     let sy := Sync.ofWord ext .device
     let m := f.k
     some (.vcomp m f.d f.a sy))) rfl ?_
  simp [plain_ofWord h, formA, LoA.unpack_pack, Form.words]

theorem vred (t : Ty) (op : ROp) (r : Rnd) (m : KReg) (d : XReg) (a : VReg) (sy : Sync) : Statement (.vred t op r m d a sy) := by
  intro h
  have h0 := h
  replace h : (redOk t op r && sy.plain) = true := h
  simp only [Bool.and_eq_true] at h
  refine decode_form (f := formA 0x56 m d a 0 0 t.code 0 r.code op.code sy) rfl h0 rfl ?_
  rw [rawDecode, unpack_words]
  refine Eq.trans (b :=
    (let f := (formA 0x56 m d a 0 0 t.code 0 r.code op.code sy).base
     let ext := (formA 0x56 m d a 0 0 t.code 0 r.code op.code sy).words.2
     let sy := Sync.ofWord ext .device
     let la := LoA.unpack f.lo
     let t := Ty.ofCode la.ty
     let r := Rnd.ofCode la.rnd
     let m := f.k
     some (.vred t (ROp.ofCode la.fn) r m f.d f.a sy))) rfl ?_
  simp [plain_ofWord h.2, formA, LoA.unpack_pack, Form.words]

theorem vscan (t : Ty) (op : ROp) (r : Rnd) (m : KReg) (d : VReg) (a : VReg) (sy : Sync) : Statement (.vscan t op r m d a sy) := by
  intro h
  have h0 := h
  replace h : (redOk t op r && sy.plain) = true := h
  simp only [Bool.and_eq_true] at h
  refine decode_form (f := formA 0x57 m d a 0 0 t.code 0 r.code op.code sy) rfl h0 rfl ?_
  rw [rawDecode, unpack_words]
  refine Eq.trans (b :=
    (let f := (formA 0x57 m d a 0 0 t.code 0 r.code op.code sy).base
     let ext := (formA 0x57 m d a 0 0 t.code 0 r.code op.code sy).words.2
     let sy := Sync.ofWord ext .device
     let la := LoA.unpack f.lo
     let t := Ty.ofCode la.ty
     let r := Rnd.ofCode la.rnd
     let m := f.k
     some (.vscan t (ROp.ofCode la.fn) r m f.d f.a sy))) rfl ?_
  simp [plain_ofWord h.2, formA, LoA.unpack_pack, Form.words]

theorem vtopk (t : Ty) (m : KReg) (d : VReg) (a : VReg) (b : XReg) (sy : Sync) : Statement (.vtopk t m d a b sy) := by
  intro h
  have h0 := h
  replace h : (t.vecWord && sy.plain) = true := h
  simp only [Bool.and_eq_true] at h
  refine decode_form (f := formA 0x5A m d a b 0 t.code 0 0 0 sy) rfl h0 rfl ?_
  rw [rawDecode, unpack_words]
  refine Eq.trans (b :=
    (let f := (formA 0x5A m d a b 0 t.code 0 0 0 sy).base
     let ext := (formA 0x5A m d a b 0 t.code 0 0 0 sy).words.2
     let sy := Sync.ofWord ext .device
     let la := LoA.unpack f.lo
     let t := Ty.ofCode la.ty
     let m := f.k
     some (.vtopk t m f.d f.a f.b sy))) rfl ?_
  simp [plain_ofWord h.2, formA, LoA.unpack_pack, Form.words]

theorem vtag (m : KReg) (a : VReg) (b : XReg) (sy : Sync) : Statement (.vtag m a b sy) := by
  intro h
  have h0 := h
  replace h : (sy.plain) = true := h
  refine decode_form (f := formA 0x5B m 0 a b 0 0 0 0 0 sy) rfl h0 rfl ?_
  rw [rawDecode, unpack_words]
  refine Eq.trans (b :=
    (let f := (formA 0x5B m 0 a b 0 0 0 0 0 sy).base
     let ext := (formA 0x5B m 0 a b 0 0 0 0 0 sy).words.2
     let sy := Sync.ofWord ext .device
     let m := f.k
     some (.vtag m f.a f.b sy))) rfl ?_
  simp [plain_ofWord h, formA, LoA.unpack_pack, Form.words]

theorem setvl (d : XReg) (a : XReg) (imm : Word) (sy : Sync) : Statement (.setvl d a imm sy) := by
  intro h
  have h0 := h
  replace h : (sy.immOk imm) = true := h
  refine decode_form (f := formI 0x5C 0 d a 0 0 imm sy) rfl h0 rfl ?_
  rw [rawDecode, unpack_words]
  refine Eq.trans (b :=
    (let f := (formI 0x5C 0 d a 0 0 imm sy).base
     let ext := (formI 0x5C 0 d a 0 0 imm sy).words.2
     let sy := Sync.ofWord ext .device
     some (.setvl f.d f.a (imm28 ext f.lo) sy))) rfl ?_
  simp [imm_ofWord h, imm28_ok h, formI, Form.words]

theorem kand (d : KReg) (a : KReg) (b : KReg) (sy : Sync) : Statement (.kand d a b sy) := by
  intro h
  have h0 := h
  replace h : (sy.plain) = true := h
  refine decode_form (f := formX 0x60 (d.zeroExtend 6) (a.zeroExtend 6) (b.zeroExtend 6) 0 0 sy) rfl h0 rfl ?_
  rw [rawDecode, unpack_words]
  refine Eq.trans (b :=
    (let f := (formX 0x60 (d.zeroExtend 6) (a.zeroExtend 6) (b.zeroExtend 6) 0 0 sy).base
     let ext := (formX 0x60 (d.zeroExtend 6) (a.zeroExtend 6) (b.zeroExtend 6) 0 0 sy).words.2
     let sy := Sync.ofWord ext .device
     some (.kand (f.d.truncate 3) (f.a.truncate 3) (f.b.truncate 3) sy))) rfl ?_
  simp [plain_ofWord h, formX, formA, LoA.unpack_pack, Form.words]

theorem kor (d : KReg) (a : KReg) (b : KReg) (sy : Sync) : Statement (.kor d a b sy) := by
  intro h
  have h0 := h
  replace h : (sy.plain) = true := h
  refine decode_form (f := formX 0x61 (d.zeroExtend 6) (a.zeroExtend 6) (b.zeroExtend 6) 0 0 sy) rfl h0 rfl ?_
  rw [rawDecode, unpack_words]
  refine Eq.trans (b :=
    (let f := (formX 0x61 (d.zeroExtend 6) (a.zeroExtend 6) (b.zeroExtend 6) 0 0 sy).base
     let ext := (formX 0x61 (d.zeroExtend 6) (a.zeroExtend 6) (b.zeroExtend 6) 0 0 sy).words.2
     let sy := Sync.ofWord ext .device
     some (.kor (f.d.truncate 3) (f.a.truncate 3) (f.b.truncate 3) sy))) rfl ?_
  simp [plain_ofWord h, formX, formA, LoA.unpack_pack, Form.words]

theorem kxor (d : KReg) (a : KReg) (b : KReg) (sy : Sync) : Statement (.kxor d a b sy) := by
  intro h
  have h0 := h
  replace h : (sy.plain) = true := h
  refine decode_form (f := formX 0x62 (d.zeroExtend 6) (a.zeroExtend 6) (b.zeroExtend 6) 0 0 sy) rfl h0 rfl ?_
  rw [rawDecode, unpack_words]
  refine Eq.trans (b :=
    (let f := (formX 0x62 (d.zeroExtend 6) (a.zeroExtend 6) (b.zeroExtend 6) 0 0 sy).base
     let ext := (formX 0x62 (d.zeroExtend 6) (a.zeroExtend 6) (b.zeroExtend 6) 0 0 sy).words.2
     let sy := Sync.ofWord ext .device
     some (.kxor (f.d.truncate 3) (f.a.truncate 3) (f.b.truncate 3) sy))) rfl ?_
  simp [plain_ofWord h, formX, formA, LoA.unpack_pack, Form.words]

theorem knot (d : KReg) (a : KReg) (sy : Sync) : Statement (.knot d a sy) := by
  intro h
  have h0 := h
  replace h : (sy.plain) = true := h
  refine decode_form (f := formX 0x63 (d.zeroExtend 6) (a.zeroExtend 6) 0 0 0 sy) rfl h0 rfl ?_
  rw [rawDecode, unpack_words]
  refine Eq.trans (b :=
    (let f := (formX 0x63 (d.zeroExtend 6) (a.zeroExtend 6) 0 0 0 sy).base
     let ext := (formX 0x63 (d.zeroExtend 6) (a.zeroExtend 6) 0 0 0 sy).words.2
     let sy := Sync.ofWord ext .device
     some (.knot (f.d.truncate 3) (f.a.truncate 3) sy))) rfl ?_
  simp [plain_ofWord h, formX, formA, LoA.unpack_pack, Form.words]

theorem kmov (f : KMovForm) (sy : Sync) : Statement (.kmov f sy) := by
  intro h
  have h0 := h
  cases f with
  | kk d a =>
  replace h : sy.plain = true := h
  refine decode_form (f := formX 0x64 (d.zeroExtend 6) (a.zeroExtend 6) 0 0 0 sy) rfl h0 rfl ?_
  rw [rawDecode, unpack_words]
  refine Eq.trans (b :=
    (let f := (formX 0x64 (d.zeroExtend 6) (a.zeroExtend 6) 0 0 0 sy).base
     let ext := (formX 0x64 (d.zeroExtend 6) (a.zeroExtend 6) 0 0 0 sy).words.2
     let sy := Sync.ofWord ext .device
     let la := LoA.unpack f.lo
     match la.fn.toNat with
       | 0 => some (.kmov (.kk (f.d.truncate 3) (f.a.truncate 3)) sy)
       | 1 => some (.kmov (.kx (f.d.truncate 3) f.a) sy)
       | 2 => some (.kmov (.xk f.d (f.a.truncate 3)) sy)
       | _ => none)) rfl ?_
  simp [plain_ofWord h, formX, formA, LoA.unpack_pack, Form.words]
  | kx d a =>
  replace h : sy.plain = true := h
  refine decode_form (f := formX 0x64 (d.zeroExtend 6) a 0 0 1 sy) rfl h0 rfl ?_
  rw [rawDecode, unpack_words]
  refine Eq.trans (b :=
    (let f := (formX 0x64 (d.zeroExtend 6) a 0 0 1 sy).base
     let ext := (formX 0x64 (d.zeroExtend 6) a 0 0 1 sy).words.2
     let sy := Sync.ofWord ext .device
     let la := LoA.unpack f.lo
     match la.fn.toNat with
       | 0 => some (.kmov (.kk (f.d.truncate 3) (f.a.truncate 3)) sy)
       | 1 => some (.kmov (.kx (f.d.truncate 3) f.a) sy)
       | 2 => some (.kmov (.xk f.d (f.a.truncate 3)) sy)
       | _ => none)) rfl ?_
  simp [plain_ofWord h, formX, formA, LoA.unpack_pack, Form.words]
  | xk d a =>
  replace h : sy.plain = true := h
  refine decode_form (f := formX 0x64 d (a.zeroExtend 6) 0 0 2 sy) rfl h0 rfl ?_
  rw [rawDecode, unpack_words]
  refine Eq.trans (b :=
    (let f := (formX 0x64 d (a.zeroExtend 6) 0 0 2 sy).base
     let ext := (formX 0x64 d (a.zeroExtend 6) 0 0 2 sy).words.2
     let sy := Sync.ofWord ext .device
     let la := LoA.unpack f.lo
     match la.fn.toNat with
       | 0 => some (.kmov (.kk (f.d.truncate 3) (f.a.truncate 3)) sy)
       | 1 => some (.kmov (.kx (f.d.truncate 3) f.a) sy)
       | 2 => some (.kmov (.xk f.d (f.a.truncate 3)) sy)
       | _ => none)) rfl ?_
  simp [plain_ofWord h, formX, formA, LoA.unpack_pack, Form.words]

theorem kpopc (d : XReg) (a : KReg) (sy : Sync) : Statement (.kpopc d a sy) := by
  intro h
  have h0 := h
  replace h : (sy.plain) = true := h
  refine decode_form (f := formX 0x65 d (a.zeroExtend 6) 0 0 0 sy) rfl h0 rfl ?_
  rw [rawDecode, unpack_words]
  refine Eq.trans (b :=
    (let f := (formX 0x65 d (a.zeroExtend 6) 0 0 0 sy).base
     let ext := (formX 0x65 d (a.zeroExtend 6) 0 0 0 sy).words.2
     let sy := Sync.ofWord ext .device
     some (.kpopc f.d (f.a.truncate 3) sy))) rfl ?_
  simp [plain_ofWord h, formX, formA, LoA.unpack_pack, Form.words]

theorem kff (d : XReg) (a : KReg) (sy : Sync) : Statement (.kff d a sy) := by
  intro h
  have h0 := h
  replace h : (sy.plain) = true := h
  refine decode_form (f := formX 0x66 d (a.zeroExtend 6) 0 0 0 sy) rfl h0 rfl ?_
  rw [rawDecode, unpack_words]
  refine Eq.trans (b :=
    (let f := (formX 0x66 d (a.zeroExtend 6) 0 0 0 sy).base
     let ext := (formX 0x66 d (a.zeroExtend 6) 0 0 0 sy).words.2
     let sy := Sync.ofWord ext .device
     some (.kff f.d (f.a.truncate 3) sy))) rfl ?_
  simp [plain_ofWord h, formX, formA, LoA.unpack_pack, Form.words]

theorem ld (sz : Size) (sp : Space) (d : XReg) (a : XReg) (m : Addr1) (sy : Sync) : Statement (.ld sz sp d a m sy) := by
  intro h
  have h0 := h
  cases m with
  | disp v =>
  replace h : sy.immOk v = true := h
  refine decode_form (f := Addr1.form 0x68 sz sp d a (.disp v) sy) rfl h0 rfl ?_
  rw [rawDecode, unpack_words]
  refine Eq.trans (b :=
    (let f := (Addr1.form 0x68 sz sp d a (.disp v) sy).base
     let ext := (Addr1.form 0x68 sz sp d a (.disp v) sy).words.2
     let sy := Sync.ofWord ext .device
     let v := imm28 ext f.lo
     let cm := CM.unpack f.c
     let sz := Size.ofCode cm.size
     let sp := Space.ofCode cm.space
     some (.ld sz sp f.d f.a (addr1Of cm f.b v) sy))) rfl ?_
  simp [imm_ofWord h, imm28_ok h, Addr1.form, formI, cMode, CM.unpack_pack, addr1Of, Form.words]
  | reg b =>
  replace h : sy.plain = true := h
  refine decode_form (f := Addr1.form 0x68 sz sp d a (.reg b) sy) rfl h0 rfl ?_
  rw [rawDecode, unpack_words]
  refine Eq.trans (b :=
    (let f := (Addr1.form 0x68 sz sp d a (.reg b) sy).base
     let ext := (Addr1.form 0x68 sz sp d a (.reg b) sy).words.2
     let sy := Sync.ofWord ext .device
     let v := imm28 ext f.lo
     let cm := CM.unpack f.c
     let sz := Size.ofCode cm.size
     let sp := Space.ofCode cm.space
     some (.ld sz sp f.d f.a (addr1Of cm f.b v) sy))) rfl ?_
  simp [plain_ofWord h, Addr1.form, formI, cMode, CM.unpack_pack, addr1Of, Form.words]

theorem st (sz : Size) (sp : Space) (d : XReg) (a : XReg) (m : Addr1) (sy : Sync) : Statement (.st sz sp d a m sy) := by
  intro h
  have h0 := h
  cases m with
  | disp v =>
  replace h : sy.immOk v = true := h
  refine decode_form (f := Addr1.form 0x69 sz sp d a (.disp v) sy) rfl h0 rfl ?_
  rw [rawDecode, unpack_words]
  refine Eq.trans (b :=
    (let f := (Addr1.form 0x69 sz sp d a (.disp v) sy).base
     let ext := (Addr1.form 0x69 sz sp d a (.disp v) sy).words.2
     let sy := Sync.ofWord ext .device
     let v := imm28 ext f.lo
     let cm := CM.unpack f.c
     let sz := Size.ofCode cm.size
     let sp := Space.ofCode cm.space
     some (.st sz sp f.d f.a (addr1Of cm f.b v) sy))) rfl ?_
  simp [imm_ofWord h, imm28_ok h, Addr1.form, formI, cMode, CM.unpack_pack, addr1Of, Form.words]
  | reg b =>
  replace h : sy.plain = true := h
  refine decode_form (f := Addr1.form 0x69 sz sp d a (.reg b) sy) rfl h0 rfl ?_
  rw [rawDecode, unpack_words]
  refine Eq.trans (b :=
    (let f := (Addr1.form 0x69 sz sp d a (.reg b) sy).base
     let ext := (Addr1.form 0x69 sz sp d a (.reg b) sy).words.2
     let sy := Sync.ofWord ext .device
     let v := imm28 ext f.lo
     let cm := CM.unpack f.c
     let sz := Size.ofCode cm.size
     let sp := Space.ofCode cm.space
     some (.st sz sp f.d f.a (addr1Of cm f.b v) sy))) rfl ?_
  simp [plain_ofWord h, Addr1.form, formI, cMode, CM.unpack_pack, addr1Of, Form.words]

theorem vld (sz : Size) (sp : Space) (k : KReg) (d : VReg) (a : XReg) (m : AddrV) (sy : Sync) : Statement (.vld sz sp k d a m sy) := by
  intro h
  have h0 := h
  cases m with
  | unit v =>
  replace h : sy.immOk v = true := h
  refine decode_form (f := AddrV.form 0x6A sz sp k d a (.unit v) sy) rfl h0 rfl ?_
  rw [rawDecode, unpack_words]
  refine Eq.trans (b :=
    (let f := (AddrV.form 0x6A sz sp k d a (.unit v) sy).base
     let ext := (AddrV.form 0x6A sz sp k d a (.unit v) sy).words.2
     let sy := Sync.ofWord ext .device
     let v := imm28 ext f.lo
     let cm := CM.unpack f.c
     let sz := Size.ofCode cm.size
     let sp := Space.ofCode cm.space
     some (.vld sz sp f.k f.d f.a (addrVOf cm f.b v) sy))) rfl ?_
  simp [imm_ofWord h, imm28_ok h, AddrV.form, formI, cMode, CM.unpack_pack, addrVOf, Form.words]
  | strided v b =>
  replace h : sy.immOk v = true := h
  refine decode_form (f := AddrV.form 0x6A sz sp k d a (.strided v b) sy) rfl h0 rfl ?_
  rw [rawDecode, unpack_words]
  refine Eq.trans (b :=
    (let f := (AddrV.form 0x6A sz sp k d a (.strided v b) sy).base
     let ext := (AddrV.form 0x6A sz sp k d a (.strided v b) sy).words.2
     let sy := Sync.ofWord ext .device
     let v := imm28 ext f.lo
     let cm := CM.unpack f.c
     let sz := Size.ofCode cm.size
     let sp := Space.ofCode cm.space
     some (.vld sz sp f.k f.d f.a (addrVOf cm f.b v) sy))) rfl ?_
  simp [imm_ofWord h, imm28_ok h, AddrV.form, formI, cMode, CM.unpack_pack, addrVOf, Form.words]
  | indexed v b =>
  replace h : (sy.immOk v && sz == .w) = true := h
  simp only [Bool.and_eq_true] at h
  refine decode_form (f := AddrV.form 0x6A sz sp k d a (.indexed v b) sy) rfl h0 rfl ?_
  rw [rawDecode, unpack_words]
  refine Eq.trans (b :=
    (let f := (AddrV.form 0x6A sz sp k d a (.indexed v b) sy).base
     let ext := (AddrV.form 0x6A sz sp k d a (.indexed v b) sy).words.2
     let sy := Sync.ofWord ext .device
     let v := imm28 ext f.lo
     let cm := CM.unpack f.c
     let sz := Size.ofCode cm.size
     let sp := Space.ofCode cm.space
     some (.vld sz sp f.k f.d f.a (addrVOf cm f.b v) sy))) rfl ?_
  simp [imm_ofWord h.1, imm28_ok h.1, AddrV.form, formI, cMode, CM.unpack_pack, addrVOf, Form.words]

theorem vst (sz : Size) (sp : Space) (k : KReg) (d : VReg) (a : XReg) (m : AddrV) (sy : Sync) : Statement (.vst sz sp k d a m sy) := by
  intro h
  have h0 := h
  cases m with
  | unit v =>
  replace h : sy.immOk v = true := h
  refine decode_form (f := AddrV.form 0x6B sz sp k d a (.unit v) sy) rfl h0 rfl ?_
  rw [rawDecode, unpack_words]
  refine Eq.trans (b :=
    (let f := (AddrV.form 0x6B sz sp k d a (.unit v) sy).base
     let ext := (AddrV.form 0x6B sz sp k d a (.unit v) sy).words.2
     let sy := Sync.ofWord ext .device
     let v := imm28 ext f.lo
     let cm := CM.unpack f.c
     let sz := Size.ofCode cm.size
     let sp := Space.ofCode cm.space
     some (.vst sz sp f.k f.d f.a (addrVOf cm f.b v) sy))) rfl ?_
  simp [imm_ofWord h, imm28_ok h, AddrV.form, formI, cMode, CM.unpack_pack, addrVOf, Form.words]
  | strided v b =>
  replace h : sy.immOk v = true := h
  refine decode_form (f := AddrV.form 0x6B sz sp k d a (.strided v b) sy) rfl h0 rfl ?_
  rw [rawDecode, unpack_words]
  refine Eq.trans (b :=
    (let f := (AddrV.form 0x6B sz sp k d a (.strided v b) sy).base
     let ext := (AddrV.form 0x6B sz sp k d a (.strided v b) sy).words.2
     let sy := Sync.ofWord ext .device
     let v := imm28 ext f.lo
     let cm := CM.unpack f.c
     let sz := Size.ofCode cm.size
     let sp := Space.ofCode cm.space
     some (.vst sz sp f.k f.d f.a (addrVOf cm f.b v) sy))) rfl ?_
  simp [imm_ofWord h, imm28_ok h, AddrV.form, formI, cMode, CM.unpack_pack, addrVOf, Form.words]
  | indexed v b =>
  replace h : (sy.immOk v && sz == .w) = true := h
  simp only [Bool.and_eq_true] at h
  refine decode_form (f := AddrV.form 0x6B sz sp k d a (.indexed v b) sy) rfl h0 rfl ?_
  rw [rawDecode, unpack_words]
  refine Eq.trans (b :=
    (let f := (AddrV.form 0x6B sz sp k d a (.indexed v b) sy).base
     let ext := (AddrV.form 0x6B sz sp k d a (.indexed v b) sy).words.2
     let sy := Sync.ofWord ext .device
     let v := imm28 ext f.lo
     let cm := CM.unpack f.c
     let sz := Size.ofCode cm.size
     let sp := Space.ofCode cm.space
     some (.vst sz sp f.k f.d f.a (addrVOf cm f.b v) sy))) rfl ?_
  simp [imm_ofWord h.1, imm28_ok h.1, AddrV.form, formI, cMode, CM.unpack_pack, addrVOf, Form.words]

theorem amo (sz : Size) (sp : Space) (op : AOp) (d : XReg) (a : XReg) (b : XReg) (disp : Word) (sy : Sync) : Statement (.amo sz sp op d a b disp sy) := by
  intro h
  have h0 := h
  replace h : (op.ok sz && sy.immOk disp) = true := h
  simp only [Bool.and_eq_true] at h
  refine decode_form (f := formI 0x6C 0 d a b (cMode sz sp op.code) disp sy) rfl h0 rfl ?_
  rw [rawDecode, unpack_words]
  refine Eq.trans (b :=
    (let f := (formI 0x6C 0 d a b (cMode sz sp op.code) disp sy).base
     let ext := (formI 0x6C 0 d a b (cMode sz sp op.code) disp sy).words.2
     let sy := Sync.ofWord ext .device
     let v := imm28 ext f.lo
     let cm := CM.unpack f.c
     let sz := Size.ofCode cm.size
     let sp := Space.ofCode cm.space
     some (.amo sz sp (AOp.ofCode cm.mode) f.d f.a f.b v sy))) rfl ?_
  simp [imm_ofWord h.2, imm28_ok h.2, formI, cMode, CM.unpack_pack, Form.words]

theorem cas (sz : Size) (sp : Space) (d : XReg) (a : XReg) (b : XReg) (disp : Word) (sy : Sync) : Statement (.cas sz sp d a b disp sy) := by
  intro h
  have h0 := h
  replace h : (sy.immOk disp) = true := h
  refine decode_form (f := formI 0x6D 0 d a b (cMode sz sp 0) disp sy) rfl h0 rfl ?_
  rw [rawDecode, unpack_words]
  refine Eq.trans (b :=
    (let f := (formI 0x6D 0 d a b (cMode sz sp 0) disp sy).base
     let ext := (formI 0x6D 0 d a b (cMode sz sp 0) disp sy).words.2
     let sy := Sync.ofWord ext .device
     let v := imm28 ext f.lo
     let cm := CM.unpack f.c
     let sz := Size.ofCode cm.size
     let sp := Space.ofCode cm.space
     some (.cas sz sp f.d f.a f.b v sy))) rfl ?_
  simp [imm_ofWord h, imm28_ok h, formI, cMode, CM.unpack_pack, Form.words]

theorem red (sz : Size) (sp : Space) (op : AOp) (d : XReg) (a : XReg) (disp : Word) (sy : Sync) : Statement (.red sz sp op d a disp sy) := by
  intro h
  have h0 := h
  replace h : (op.ok sz && op != .swap && sy.immOk disp) = true := h
  simp only [Bool.and_eq_true] at h
  refine decode_form (f := formI 0x6E 0 d a 0 (cMode sz sp op.code) disp sy) rfl h0 rfl ?_
  rw [rawDecode, unpack_words]
  refine Eq.trans (b :=
    (let f := (formI 0x6E 0 d a 0 (cMode sz sp op.code) disp sy).base
     let ext := (formI 0x6E 0 d a 0 (cMode sz sp op.code) disp sy).words.2
     let sy := Sync.ofWord ext .device
     let v := imm28 ext f.lo
     let cm := CM.unpack f.c
     let sz := Size.ofCode cm.size
     let sp := Space.ofCode cm.space
     some (.red sz sp (AOp.ofCode cm.mode) f.d f.a v sy))) rfl ?_
  simp [imm_ofWord h.2, imm28_ok h.2, formI, cMode, CM.unpack_pack, Form.words]

theorem lease (a : XReg) (disp : Word) (sy : Sync) : Statement (.lease a disp sy) := by
  intro h
  have h0 := h
  replace h : (sy.immOk disp) = true := h
  refine decode_form (f := formI 0x6F 0 0 a 0 0 disp sy) rfl h0 rfl ?_
  rw [rawDecode, unpack_words]
  refine Eq.trans (b :=
    (let f := (formI 0x6F 0 0 a 0 0 disp sy).base
     let ext := (formI 0x6F 0 0 a 0 0 disp sy).words.2
     let sy := Sync.ofWord ext .device
     let v := imm28 ext f.lo
     some (.lease f.a v sy))) rfl ?_
  simp [imm_ofWord h, imm28_ok h, formI, Form.words]

theorem unlease (d : XReg) (a : XReg) (disp : Word) (sy : Sync) : Statement (.unlease d a disp sy) := by
  intro h
  have h0 := h
  replace h : (sy.immOk disp) = true := h
  refine decode_form (f := formI 0x70 0 d a 0 0 disp sy) rfl h0 rfl ?_
  rw [rawDecode, unpack_words]
  refine Eq.trans (b :=
    (let f := (formI 0x70 0 d a 0 0 disp sy).base
     let ext := (formI 0x70 0 d a 0 0 disp sy).words.2
     let sy := Sync.ofWord ext .device
     let v := imm28 ext f.lo
     some (.unlease f.d f.a v sy))) rfl ?_
  simp [imm_ofWord h, imm28_ok h, formI, Form.words]

theorem cbind (slot : BitVec 8) (a : XReg) (sy : Sync) : Statement (.cbind slot a sy) := by
  intro h
  have h0 := h
  replace h : (sy.ctr) = true := h
  refine decode_form (f := formC 0x80 0 a 0 slot 0 0 sy) rfl h0 rfl ?_
  rw [rawDecode, unpack_words]
  refine Eq.trans (b :=
    (let f := (formC 0x80 0 a 0 slot 0 0 sy).base
     let ext := (formC 0x80 0 a 0 slot 0 0 sy).words.2
     let lc := LoC.unpack f.lo
     let n := lc.slot
     let sc := Sync.ofWord ext (Scope.ofCode (CC.unpack f.c).scope)
     some (.cbind n f.a sc))) rfl ?_
  simp [ctr_ofWord h, formC, LoC.unpack_pack, CC.unpack_pack, Form.words]

theorem cmark (slot : BitVec 8) (a : XReg) (imm : Word) (sy : Sync) : Statement (.cmark slot a imm sy) := by
  intro h
  have h0 := h
  replace h : (sy.cimmOk imm) = true := h
  refine decode_form (f := formC 0x81 0 a 0 slot 0 imm sy) rfl h0 rfl ?_
  rw [rawDecode, unpack_words]
  refine Eq.trans (b :=
    (let f := (formC 0x81 0 a 0 slot 0 imm sy).base
     let ext := (formC 0x81 0 a 0 slot 0 imm sy).words.2
     let lc := LoC.unpack f.lo
     let n := lc.slot
     let cv := imm16 ext lc.cimm
     let sc := Sync.ofWord ext (Scope.ofCode (CC.unpack f.c).scope)
     some (.cmark n f.a cv sc))) rfl ?_
  simp [cimm_ofWord h, imm16_ok h, formC, LoC.unpack_pack, CC.unpack_pack, Form.words]

theorem cadd (d : XReg) (slot : BitVec 8) (a : XReg) (imm : Word) (sy : Sync) : Statement (.cadd d slot a imm sy) := by
  intro h
  have h0 := h
  replace h : (sy.cimmOk imm) = true := h
  refine decode_form (f := formC 0x82 d a 0 slot 0 imm sy) rfl h0 rfl ?_
  rw [rawDecode, unpack_words]
  refine Eq.trans (b :=
    (let f := (formC 0x82 d a 0 slot 0 imm sy).base
     let ext := (formC 0x82 d a 0 slot 0 imm sy).words.2
     let lc := LoC.unpack f.lo
     let n := lc.slot
     let cv := imm16 ext lc.cimm
     let sc := Sync.ofWord ext (Scope.ofCode (CC.unpack f.c).scope)
     some (.cadd f.d n f.a cv sc))) rfl ?_
  simp [cimm_ofWord h, imm16_ok h, formC, LoC.unpack_pack, CC.unpack_pack, Form.words]

theorem cwait (d : XReg) (slot : BitVec 8) (b : XReg) (sy : Sync) : Statement (.cwait d slot b sy) := by
  intro h
  have h0 := h
  replace h : (sy.ctr) = true := h
  refine decode_form (f := formC 0x83 d 0 b slot 0 0 sy) rfl h0 rfl ?_
  rw [rawDecode, unpack_words]
  refine Eq.trans (b :=
    (let f := (formC 0x83 d 0 b slot 0 0 sy).base
     let ext := (formC 0x83 d 0 b slot 0 0 sy).words.2
     let lc := LoC.unpack f.lo
     let n := lc.slot
     let sc := Sync.ofWord ext (Scope.ofCode (CC.unpack f.c).scope)
     match lc.cop.toNat with
       | 0 => some (.cwait f.d n f.b sc)
       | 1 => some (.cwaitAny f.d n f.a f.b sc)
       | 2 => some (.cwaitAll f.d n f.a f.b sc)
       | _ => none)) rfl ?_
  simp [ctr_ofWord h, formC, LoC.unpack_pack, CC.unpack_pack, Form.words]

theorem cwaitAny (d : XReg) (slot : BitVec 8) (a : XReg) (b : XReg) (sy : Sync) : Statement (.cwaitAny d slot a b sy) := by
  intro h
  have h0 := h
  replace h : (sy.ctr) = true := h
  refine decode_form (f := formC 0x83 d a b slot 1 0 sy) rfl h0 rfl ?_
  rw [rawDecode, unpack_words]
  refine Eq.trans (b :=
    (let f := (formC 0x83 d a b slot 1 0 sy).base
     let ext := (formC 0x83 d a b slot 1 0 sy).words.2
     let lc := LoC.unpack f.lo
     let n := lc.slot
     let sc := Sync.ofWord ext (Scope.ofCode (CC.unpack f.c).scope)
     match lc.cop.toNat with
       | 0 => some (.cwait f.d n f.b sc)
       | 1 => some (.cwaitAny f.d n f.a f.b sc)
       | 2 => some (.cwaitAll f.d n f.a f.b sc)
       | _ => none)) rfl ?_
  simp [ctr_ofWord h, formC, LoC.unpack_pack, CC.unpack_pack, Form.words]

theorem cwaitAll (d : XReg) (slot : BitVec 8) (a : XReg) (b : XReg) (sy : Sync) : Statement (.cwaitAll d slot a b sy) := by
  intro h
  have h0 := h
  replace h : (sy.ctr) = true := h
  refine decode_form (f := formC 0x83 d a b slot 2 0 sy) rfl h0 rfl ?_
  rw [rawDecode, unpack_words]
  refine Eq.trans (b :=
    (let f := (formC 0x83 d a b slot 2 0 sy).base
     let ext := (formC 0x83 d a b slot 2 0 sy).words.2
     let lc := LoC.unpack f.lo
     let n := lc.slot
     let sc := Sync.ofWord ext (Scope.ofCode (CC.unpack f.c).scope)
     match lc.cop.toNat with
       | 0 => some (.cwait f.d n f.b sc)
       | 1 => some (.cwaitAny f.d n f.a f.b sc)
       | 2 => some (.cwaitAll f.d n f.a f.b sc)
       | _ => none)) rfl ?_
  simp [ctr_ofWord h, formC, LoC.unpack_pack, CC.unpack_pack, Form.words]

theorem cread (d : XReg) (slot : BitVec 8) (sy : Sync) : Statement (.cread d slot sy) := by
  intro h
  have h0 := h
  replace h : (sy.ctr) = true := h
  refine decode_form (f := formC 0x84 d 0 0 slot 0 0 sy) rfl h0 rfl ?_
  rw [rawDecode, unpack_words]
  refine Eq.trans (b :=
    (let f := (formC 0x84 d 0 0 slot 0 0 sy).base
     let ext := (formC 0x84 d 0 0 slot 0 0 sy).words.2
     let lc := LoC.unpack f.lo
     let n := lc.slot
     let sc := Sync.ofWord ext (Scope.ofCode (CC.unpack f.c).scope)
     some (.cread f.d n sc))) rfl ?_
  simp [ctr_ofWord h, formC, LoC.unpack_pack, CC.unpack_pack, Form.words]

theorem creset (slot : BitVec 8) (sy : Sync) : Statement (.creset slot sy) := by
  intro h
  have h0 := h
  replace h : (sy.ctr) = true := h
  refine decode_form (f := formC 0x85 0 0 0 slot 0 0 sy) rfl h0 rfl ?_
  rw [rawDecode, unpack_words]
  refine Eq.trans (b :=
    (let f := (formC 0x85 0 0 0 slot 0 0 sy).base
     let ext := (formC 0x85 0 0 0 slot 0 0 sy).words.2
     let lc := LoC.unpack f.lo
     let n := lc.slot
     let sc := Sync.ofWord ext (Scope.ofCode (CC.unpack f.c).scope)
     some (.creset n sc))) rfl ?_
  simp [ctr_ofWord h, formC, LoC.unpack_pack, CC.unpack_pack, Form.words]

theorem fence (sy : Sync) : Statement (.fence sy) := by
  intro h
  have h0 := h
  replace h : (sy.ctr) = true := h
  refine decode_form (f := formC 0x86 0 0 0 0 0 0 sy) rfl h0 rfl ?_
  rw [rawDecode, unpack_words]
  refine Eq.trans (b :=
    (let f := (formC 0x86 0 0 0 0 0 0 sy).base
     let ext := (formC 0x86 0 0 0 0 0 0 sy).words.2
     let sc := Sync.ofWord ext (Scope.ofCode (CC.unpack f.c).scope)
     some (.fence sc))) rfl ?_
  simp [ctr_ofWord h, formC, LoC.unpack_pack, CC.unpack_pack, Form.words]

theorem efence (sy : Sync) : Statement (.efence sy) := by
  intro h
  have h0 := h
  replace h : (sy.ctr) = true := h
  refine decode_form (f := formC 0x87 0 0 0 0 0 0 sy) rfl h0 rfl ?_
  rw [rawDecode, unpack_words]
  refine Eq.trans (b :=
    (let f := (formC 0x87 0 0 0 0 0 0 sy).base
     let ext := (formC 0x87 0 0 0 0 0 0 sy).words.2
     let sc := Sync.ofWord ext (Scope.ofCode (CC.unpack f.c).scope)
     some (.efence sc))) rfl ?_
  simp [ctr_ofWord h, formC, LoC.unpack_pack, CC.unpack_pack, Form.words]

theorem tblfence (a : XReg) (b : XReg) (sy : Sync) : Statement (.tblfence a b sy) := by
  intro h
  have h0 := h
  replace h : (sy.ctr) = true := h
  refine decode_form (f := formC 0x88 0 a b 0 0 0 sy) rfl h0 rfl ?_
  rw [rawDecode, unpack_words]
  refine Eq.trans (b :=
    (let f := (formC 0x88 0 a b 0 0 0 sy).base
     let ext := (formC 0x88 0 a b 0 0 0 sy).words.2
     let sc := Sync.ofWord ext (Scope.ofCode (CC.unpack f.c).scope)
     some (.tblfence f.a f.b sc))) rfl ?_
  simp [ctr_ofWord h, formC, LoC.unpack_pack, CC.unpack_pack, Form.words]

theorem icinv (ext : Extent) (a : XReg) (b : XReg) (sy : Sync) : Statement (.icinv ext a b sy) := by
  intro h
  have h0 := h
  replace h : (sy.ctr) = true := h
  refine decode_form (f := formC 0x89 0 a b 0 ext.code 0 sy) rfl h0 rfl ?_
  rw [rawDecode, unpack_words]
  refine Eq.trans (b :=
    (let f := (formC 0x89 0 a b 0 ext.code 0 sy).base
     let ext := (formC 0x89 0 a b 0 ext.code 0 sy).words.2
     let lc := LoC.unpack f.lo
     let sc := Sync.ofWord ext (Scope.ofCode (CC.unpack f.c).scope)
     some (.icinv (Extent.ofCode lc.cop) f.a f.b sc))) rfl ?_
  simp [ctr_ofWord h, formC, LoC.unpack_pack, CC.unpack_pack, Form.words]

theorem spawn (a : XReg) (sy : Sync) : Statement (.spawn a sy) := by
  intro h
  have h0 := h
  replace h : (sy.plain) = true := h
  refine decode_form (f := formI 0x90 0 0 a 0 0 0 sy) rfl h0 rfl ?_
  rw [rawDecode, unpack_words]
  refine Eq.trans (b :=
    (let f := (formI 0x90 0 0 a 0 0 0 sy).base
     let ext := (formI 0x90 0 0 a 0 0 0 sy).words.2
     let sy := Sync.ofWord ext .device
     some (.spawn f.a sy))) rfl ?_
  simp [plain_ofWord h, formI, Form.words]

theorem finish (sy : Sync) : Statement (.finish sy) := by
  intro h
  have h0 := h
  replace h : (sy.plain) = true := h
  refine decode_form (f := formI 0x91 0 0 0 0 0 0 sy) rfl h0 rfl ?_
  rw [rawDecode, unpack_words]
  refine Eq.trans (b :=
    (let f := (formI 0x91 0 0 0 0 0 0 sy).base
     let ext := (formI 0x91 0 0 0 0 0 0 sy).words.2
     let sy := Sync.ofWord ext .device
     some (.finish sy))) rfl ?_
  simp [plain_ofWord h, formI, Form.words]

theorem yield (sy : Sync) : Statement (.yield sy) := by
  intro h
  have h0 := h
  replace h : (sy.plain) = true := h
  refine decode_form (f := formI 0x92 0 0 0 0 0 0 sy) rfl h0 rfl ?_
  rw [rawDecode, unpack_words]
  refine Eq.trans (b :=
    (let f := (formI 0x92 0 0 0 0 0 0 sy).base
     let ext := (formI 0x92 0 0 0 0 0 0 sy).words.2
     let sy := Sync.ofWord ext .device
     some (.yield sy))) rfl ?_
  simp [plain_ofWord h, formI, Form.words]

theorem exit (sy : Sync) : Statement (.exit sy) := by
  intro h
  have h0 := h
  replace h : (sy.plain) = true := h
  refine decode_form (f := formI 0x93 0 0 0 0 0 0 sy) rfl h0 rfl ?_
  rw [rawDecode, unpack_words]
  refine Eq.trans (b :=
    (let f := (formI 0x93 0 0 0 0 0 0 sy).base
     let ext := (formI 0x93 0 0 0 0 0 0 sy).words.2
     let sy := Sync.ofWord ext .device
     some (.exit sy))) rfl ?_
  simp [plain_ofWord h, formI, Form.words]

theorem trace (d : XReg) (a : XReg) (imm : Word) (sy : Sync) : Statement (.trace d a imm sy) := by
  intro h
  have h0 := h
  replace h : (sy.immOk imm) = true := h
  refine decode_form (f := formI 0x94 0 d a 0 0 imm sy) rfl h0 rfl ?_
  rw [rawDecode, unpack_words]
  refine Eq.trans (b :=
    (let f := (formI 0x94 0 d a 0 0 imm sy).base
     let ext := (formI 0x94 0 d a 0 0 imm sy).words.2
     let sy := Sync.ofWord ext .device
     let v := imm28 ext f.lo
     some (.trace f.d f.a v sy))) rfl ?_
  simp [imm_ofWord h, imm28_ok h, formI, Form.words]

theorem untrace (sy : Sync) : Statement (.untrace sy) := by
  intro h
  have h0 := h
  replace h : (sy.plain) = true := h
  refine decode_form (f := formI 0x95 0 0 0 0 0 0 sy) rfl h0 rfl ?_
  rw [rawDecode, unpack_words]
  refine Eq.trans (b :=
    (let f := (formI 0x95 0 0 0 0 0 0 sy).base
     let ext := (formI 0x95 0 0 0 0 0 0 sy).words.2
     let sy := Sync.ofWord ext .device
     some (.untrace sy))) rfl ?_
  simp [plain_ofWord h, formI, Form.words]

theorem step (sy : Sync) : Statement (.step sy) := by
  intro h
  have h0 := h
  replace h : (sy.plain) = true := h
  refine decode_form (f := formI 0x96 0 0 0 0 0 0 sy) rfl h0 rfl ?_
  rw [rawDecode, unpack_words]
  refine Eq.trans (b :=
    (let f := (formI 0x96 0 0 0 0 0 0 sy).base
     let ext := (formI 0x96 0 0 0 0 0 0 sy).words.2
     let sy := Sync.ofWord ext .device
     some (.step sy))) rfl ?_
  simp [plain_ofWord h, formI, Form.words]

theorem mloadw (b : BReg) (a : XReg) (tg : Target) (sy : Sync) : Statement (.mloadw b a tg sy) := by
  intro h
  have h0 := h
  replace h : (tg.ok && sy.eng) = true := h
  simp only [Bool.and_eq_true] at h
  refine decode_form (f := formF 0xA0 (b.zeroExtend 6) a 0 0 0 tg sy) rfl h0 rfl ?_
  rw [rawDecode, unpack_words]
  refine Eq.trans (b :=
    (let f := (formF 0xA0 (b.zeroExtend 6) a 0 0 0 tg sy).base
     let ext := (formF 0xA0 (b.zeroExtend 6) a 0 0 0 tg sy).words.2
     let sy := Sync.ofWord ext .device
     let tg := targetOf ext f.c
     some (.mloadw (f.d.truncate 2) f.a tg sy))) rfl ?_
  simp [Sync.ofWord_eng h.2, formF, formG, LoG.unpack_pack, Form.words, targetOf_secret h.2 tg]

theorem mmul (t : TReg) (a : XReg) (b : XReg) (shp : Bool) (zero : Bool) (skip : Bool) (tt : Bool) (afmt : BitVec 4) (prec : BitVec 4) (bmask : BitVec 4) (tg : Target) (sy : Sync) : Statement (.mmul t a b shp zero skip tt afmt prec bmask tg sy) := by
  intro h
  have h0 := h
  replace h : (decide (afmt.toNat ≤ 12) && decide (prec.toNat ≤ fmtS afmt.toNat) && (!tt || afmt == 9 || afmt == 11) && tg.ok && sy.eng) = true := h
  simp only [Bool.and_eq_true] at h
  refine decode_form (f := formF 0xA1 (t.zeroExtend 6) a b (bit1 shp ++ bit1 zero ++ bit1 skip ++ bit1 tt ++ (0 : BitVec 2)) (afmt ++ prec ++ bmask ++ (0 : BitVec 10)) tg sy) rfl h0 rfl ?_
  rw [rawDecode, unpack_words]
  refine Eq.trans (b :=
    (let f := (formF 0xA1 (t.zeroExtend 6) a b (bit1 shp ++ bit1 zero ++ bit1 skip ++ bit1 tt ++ (0 : BitVec 2)) (afmt ++ prec ++ bmask ++ (0 : BitVec 10)) tg sy).base
     let ext := (formF 0xA1 (t.zeroExtend 6) a b (bit1 shp ++ bit1 zero ++ bit1 skip ++ bit1 tt ++ (0 : BitVec 2)) (afmt ++ prec ++ bmask ++ (0 : BitVec 10)) tg sy).words.2
     let sy := Sync.ofWord ext .device
     let lg := LoG.unpack f.lo
     let tg := targetOf ext f.c
     some (.mmul (f.d.truncate 5) f.a f.b (bitAt lg.fn 5) (bitAt lg.fn 4) (bitAt lg.fn 3) (bitAt lg.fn 2)
         (lg.eop.extractLsb' 18 4) (lg.eop.extractLsb' 14 4) (lg.eop.extractLsb' 10 4) tg sy))) rfl ?_
  simp [Sync.ofWord_eng h.2, formF, formG, LoG.unpack_pack, Form.words, targetOf_secret h.2 tg]
  and_intros <;>
    (repeat first
      | rw [bitAt_append_low _ _ (by decide)]
      | rw [bitAt_append_high _ _ (by decide)]
      | rw [extract_append_low _ _ (by decide)]
      | rw [extract_append_high _ _ (by decide)]) <;>
    simp

theorem mgrad (t : TReg) (a : XReg) (b : XReg) (shp : Bool) (zero : Bool) (afmt : BitVec 4) (gfmt : BitVec 4) (bank : BitVec 2) (kq : BitVec 2) (goff : BitVec 10) (tg : Target) (sy : Sync) : Statement (.mgrad t a b shp zero afmt gfmt bank kq goff tg sy) := by
  intro h
  have h0 := h
  replace h : (decide (afmt.toNat ≤ 12) && decide (gfmt.toNat ≤ 12) && tg.ok && sy.eng) = true := h
  simp only [Bool.and_eq_true] at h
  refine decode_form (f := formF 0xA2 (t.zeroExtend 6) a b (bit1 shp ++ bit1 zero ++ (0 : BitVec 4)) (afmt ++ gfmt ++ bank ++ kq ++ goff) tg sy) rfl h0 rfl ?_
  rw [rawDecode, unpack_words]
  refine Eq.trans (b :=
    (let f := (formF 0xA2 (t.zeroExtend 6) a b (bit1 shp ++ bit1 zero ++ (0 : BitVec 4)) (afmt ++ gfmt ++ bank ++ kq ++ goff) tg sy).base
     let ext := (formF 0xA2 (t.zeroExtend 6) a b (bit1 shp ++ bit1 zero ++ (0 : BitVec 4)) (afmt ++ gfmt ++ bank ++ kq ++ goff) tg sy).words.2
     let sy := Sync.ofWord ext .device
     let lg := LoG.unpack f.lo
     let tg := targetOf ext f.c
     some (.mgrad (f.d.truncate 5) f.a f.b (bitAt lg.fn 5) (bitAt lg.fn 4) (lg.eop.extractLsb' 18 4)
         (lg.eop.extractLsb' 14 4) (lg.eop.extractLsb' 12 2) (lg.eop.extractLsb' 10 2) (lg.eop.extractLsb' 0 10) tg sy))) rfl ?_
  simp [Sync.ofWord_eng h.2, formF, formG, LoG.unpack_pack, Form.words, targetOf_secret h.2 tg]
  and_intros <;>
    (repeat first
      | rw [bitAt_append_low _ _ (by decide)]
      | rw [bitAt_append_high _ _ (by decide)]
      | rw [extract_append_low _ _ (by decide)]
      | rw [extract_append_high _ _ (by decide)]) <;>
    simp

theorem mdrain (t : TReg) (a : XReg) (b : XReg) (shp : Bool) (ps : Bool) (clr : Bool) (tt : Bool) (ofmt : BitVec 4) (r : Rnd) (ncols : BitVec 8) (tg : Target) (sy : Sync) : Statement (.mdrain t a b shp ps clr tt ofmt r ncols tg sy) := by
  intro h
  have h0 := h
  replace h : (drainOk ps ofmt ncols && r.plain && tg.ok && sy.eng) = true := h
  simp only [Bool.and_eq_true] at h
  refine decode_form (f := formF 0xA3 (t.zeroExtend 6) a b (bit1 shp ++ bit1 ps ++ bit1 clr ++ bit1 tt ++ (0 : BitVec 2)) (ofmt ++ r.code ++ ncols ++ (0 : BitVec 7)) tg sy) rfl h0 rfl ?_
  rw [rawDecode, unpack_words]
  refine Eq.trans (b :=
    (let f := (formF 0xA3 (t.zeroExtend 6) a b (bit1 shp ++ bit1 ps ++ bit1 clr ++ bit1 tt ++ (0 : BitVec 2)) (ofmt ++ r.code ++ ncols ++ (0 : BitVec 7)) tg sy).base
     let ext := (formF 0xA3 (t.zeroExtend 6) a b (bit1 shp ++ bit1 ps ++ bit1 clr ++ bit1 tt ++ (0 : BitVec 2)) (ofmt ++ r.code ++ ncols ++ (0 : BitVec 7)) tg sy).words.2
     let sy := Sync.ofWord ext .device
     let lg := LoG.unpack f.lo
     let tg := targetOf ext f.c
     some (.mdrain (f.d.truncate 5) f.a f.b (bitAt lg.fn 5) (bitAt lg.fn 4) (bitAt lg.fn 3) (bitAt lg.fn 2)
         (lg.eop.extractLsb' 18 4) (Rnd.ofCode (lg.eop.extractLsb' 15 3)) (lg.eop.extractLsb' 7 8) tg sy))) rfl ?_
  simp [Sync.ofWord_eng h.2, formF, formG, LoG.unpack_pack, Form.words, targetOf_secret h.2 tg]
  and_intros <;>
    (repeat first
      | rw [bitAt_append_low _ _ (by decide)]
      | rw [bitAt_append_high _ _ (by decide)]
      | rw [extract_append_low _ _ (by decide)]
      | rw [extract_append_high _ _ (by decide)]) <;>
    simp

theorem mprog (a : XReg) (b : XReg) (count : BitVec 3) (tg : Target) (sy : Sync) : Statement (.mprog a b count tg sy) := by
  intro h
  have h0 := h
  replace h : (decide (count.toNat ≤ 4) && tg.ok && sy.eng) = true := h
  simp only [Bool.and_eq_true] at h
  refine decode_form (f := formF 0xA4 0 a b 0 ((0 : BitVec 19) ++ count) tg sy) rfl h0 rfl ?_
  rw [rawDecode, unpack_words]
  refine Eq.trans (b :=
    (let f := (formF 0xA4 0 a b 0 ((0 : BitVec 19) ++ count) tg sy).base
     let ext := (formF 0xA4 0 a b 0 ((0 : BitVec 19) ++ count) tg sy).words.2
     let sy := Sync.ofWord ext .device
     let lg := LoG.unpack f.lo
     let tg := targetOf ext f.c
     some (.mprog f.a f.b (lg.eop.extractLsb' 0 3) tg sy))) rfl ?_
  simp [Sync.ofWord_eng h.2, formF, formG, LoG.unpack_pack, Form.words, targetOf_secret h.2 tg]
  and_intros <;>
    (repeat first
      | rw [bitAt_append_low _ _ (by decide)]
      | rw [bitAt_append_high _ _ (by decide)]
      | rw [extract_append_low _ _ (by decide)]
      | rw [extract_append_high _ _ (by decide)]) <;>
    simp

theorem mstat (d : XReg) (a : XReg) (sel : BitVec 6) (tg : Target) (sy : Sync) : Statement (.mstat d a sel tg sy) := by
  intro h
  have h0 := h
  replace h : (decide (sel.toNat ≤ 5) && tg.ok && sy.eng) = true := h
  simp only [Bool.and_eq_true] at h
  refine decode_form (f := formF 0xA5 d a 0 sel 0 tg sy) rfl h0 rfl ?_
  rw [rawDecode, unpack_words]
  refine Eq.trans (b :=
    (let f := (formF 0xA5 d a 0 sel 0 tg sy).base
     let ext := (formF 0xA5 d a 0 sel 0 tg sy).words.2
     let sy := Sync.ofWord ext .device
     let lg := LoG.unpack f.lo
     let tg := targetOf ext f.c
     some (.mstat f.d f.a lg.fn tg sy))) rfl ?_
  simp [Sync.ofWord_eng h.2, formF, formG, LoG.unpack_pack, Form.words, targetOf_secret h.2 tg]

theorem mcap (idx : BitVec 6) (a : XReg) (b : XReg) (tg : Target) (sy : Sync) : Statement (.mcap idx a b tg sy) := by
  intro h
  have h0 := h
  replace h := (Bool.and_eq_true _ _).mp (show (_ && sy.eng) = true from h)
  refine decode_form (f := formG 0xA6 0 a b 0 idx 0 tg.low sy) rfl h0 rfl ?_
  rw [rawDecode, unpack_words]
  refine Eq.trans (b :=
    (let f := (formG 0xA6 0 a b 0 idx 0 tg.low sy).base
     let ext := (formG 0xA6 0 a b 0 idx 0 tg.low sy).words.2
     let sy := Sync.ofWord ext .device
     let lg := LoG.unpack f.lo
     let tg := targetOf ext f.c
     some (.mcap lg.fn f.a f.b tg sy))) rfl ?_
  have ht : targetOf (sy.extWord 0#64 tg.low) 0#6 = tg := targetOf_ok h.2 tg _ (by cases tg <;> simp_all)
  simp [Sync.ofWord_eng h.2, formG, LoG.unpack_pack, Form.words, ht]

theorem xset (fn : BitVec 6) (a : XReg) (sy : Sync) : Statement (.xset fn a sy) := by
  intro h
  have h0 := h
  replace h : (decide (fn.toNat ≤ 20) && sy.eng) = true := h
  simp only [Bool.and_eq_true] at h
  refine decode_form (f := formG 0xB0 0 a 0 0 fn 0 0 sy) rfl h0 rfl ?_
  rw [rawDecode, unpack_words]
  refine Eq.trans (b :=
    (let f := (formG 0xB0 0 a 0 0 fn 0 0 sy).base
     let ext := (formG 0xB0 0 a 0 0 fn 0 0 sy).words.2
     let sy := Sync.ofWord ext .device
     let lg := LoG.unpack f.lo
     some (.xset lg.fn f.a sy))) rfl ?_
  simp [Sync.ofWord_eng h.2, formG, LoG.unpack_pack, Form.words]

theorem xgo (d : XReg) (sy : Sync) : Statement (.xgo d sy) := by
  intro h
  have h0 := h
  replace h : (sy.eng) = true := h
  refine decode_form (f := formG 0xB1 d 0 0 0 0 0 0 sy) rfl h0 rfl ?_
  rw [rawDecode, unpack_words]
  refine Eq.trans (b :=
    (let f := (formG 0xB1 d 0 0 0 0 0 0 sy).base
     let ext := (formG 0xB1 d 0 0 0 0 0 0 sy).words.2
     let sy := Sync.ofWord ext .device
     some (.xgo f.d sy))) rfl ?_
  simp [Sync.ofWord_eng h, formG, LoG.unpack_pack, Form.words]

theorem xstat (d : XReg) (a : XReg) (sy : Sync) : Statement (.xstat d a sy) := by
  intro h
  have h0 := h
  replace h : (sy.eng) = true := h
  refine decode_form (f := formG 0xB2 d a 0 0 0 0 0 sy) rfl h0 rfl ?_
  rw [rawDecode, unpack_words]
  refine Eq.trans (b :=
    (let f := (formG 0xB2 d a 0 0 0 0 0 sy).base
     let ext := (formG 0xB2 d a 0 0 0 0 0 sy).words.2
     let sy := Sync.ofWord ext .device
     some (.xstat f.d f.a sy))) rfl ?_
  simp [Sync.ofWord_eng h, formG, LoG.unpack_pack, Form.words]

theorem xresume (d : XReg) (a : XReg) (sy : Sync) : Statement (.xresume d a sy) := by
  intro h
  have h0 := h
  replace h : (sy.eng) = true := h
  refine decode_form (f := formG 0xB3 d a 0 0 0 0 0 sy) rfl h0 rfl ?_
  rw [rawDecode, unpack_words]
  refine Eq.trans (b :=
    (let f := (formG 0xB3 d a 0 0 0 0 0 sy).base
     let ext := (formG 0xB3 d a 0 0 0 0 0 sy).words.2
     let sy := Sync.ofWord ext .device
     some (.xresume f.d f.a sy))) rfl ?_
  simp [Sync.ofWord_eng h, formG, LoG.unpack_pack, Form.words]

theorem xcancel (d : XReg) (a : XReg) (sy : Sync) : Statement (.xcancel d a sy) := by
  intro h
  have h0 := h
  replace h : (sy.eng) = true := h
  refine decode_form (f := formG 0xB4 d a 0 0 0 0 0 sy) rfl h0 rfl ?_
  rw [rawDecode, unpack_words]
  refine Eq.trans (b :=
    (let f := (formG 0xB4 d a 0 0 0 0 0 sy).base
     let ext := (formG 0xB4 d a 0 0 0 0 0 sy).words.2
     let sy := Sync.ofWord ext .device
     some (.xcancel f.d f.a sy))) rfl ?_
  simp [Sync.ofWord_eng h, formG, LoG.unpack_pack, Form.words]

theorem msgTag (d : XReg) (a : XReg) (b : XReg) (c : XReg) (sy : Sync) : Statement (.msgTag d a b c sy) := by
  intro h
  have h0 := h
  replace h : (sy.eng) = true := h
  refine decode_form (f := formG 0xB8 d a b c 0 0 0 sy) rfl h0 rfl ?_
  rw [rawDecode, unpack_words]
  refine Eq.trans (b :=
    (let f := (formG 0xB8 d a b c 0 0 0 sy).base
     let ext := (formG 0xB8 d a b c 0 0 0 sy).words.2
     let sy := Sync.ofWord ext .device
     let lg := LoG.unpack f.lo
     if lg.fn = 0 then some (.msgTag f.d f.a f.b f.c sy) else some (.msgApp f.d f.a f.b f.c sy))) rfl ?_
  simp [Sync.ofWord_eng h, formG, LoG.unpack_pack, Form.words]

theorem msgApp (d : XReg) (a : XReg) (b : XReg) (c : XReg) (sy : Sync) : Statement (.msgApp d a b c sy) := by
  intro h
  have h0 := h
  replace h : (sy.eng) = true := h
  refine decode_form (f := formG 0xB8 d a b c 1 0 0 sy) rfl h0 rfl ?_
  rw [rawDecode, unpack_words]
  refine Eq.trans (b :=
    (let f := (formG 0xB8 d a b c 1 0 0 sy).base
     let ext := (formG 0xB8 d a b c 1 0 0 sy).words.2
     let sy := Sync.ofWord ext .device
     let lg := LoG.unpack f.lo
     if lg.fn = 0 then some (.msgTag f.d f.a f.b f.c sy) else some (.msgApp f.d f.a f.b f.c sy))) rfl ?_
  simp [Sync.ofWord_eng h, formG, LoG.unpack_pack, Form.words]

theorem nsend (a : XReg) (b : XReg) (sy : Sync) : Statement (.nsend a b sy) := by
  intro h
  have h0 := h
  replace h : (sy.eng) = true := h
  refine decode_form (f := formG 0xB9 0 a b 0 0 0 0 sy) rfl h0 rfl ?_
  rw [rawDecode, unpack_words]
  refine Eq.trans (b :=
    (let f := (formG 0xB9 0 a b 0 0 0 0 sy).base
     let ext := (formG 0xB9 0 a b 0 0 0 0 sy).words.2
     let sy := Sync.ofWord ext .device
     let lg := LoG.unpack f.lo
     if lg.fn = 0 then some (.nsend f.a f.b sy) else some (.nsendRoute f.a f.b sy))) rfl ?_
  simp [Sync.ofWord_eng h, formG, LoG.unpack_pack, Form.words]

theorem nsendRoute (a : XReg) (b : XReg) (sy : Sync) : Statement (.nsendRoute a b sy) := by
  intro h
  have h0 := h
  replace h : (sy.eng) = true := h
  refine decode_form (f := formG 0xB9 0 a b 0 1 0 0 sy) rfl h0 rfl ?_
  rw [rawDecode, unpack_words]
  refine Eq.trans (b :=
    (let f := (formG 0xB9 0 a b 0 1 0 0 sy).base
     let ext := (formG 0xB9 0 a b 0 1 0 0 sy).words.2
     let sy := Sync.ofWord ext .device
     let lg := LoG.unpack f.lo
     if lg.fn = 0 then some (.nsend f.a f.b sy) else some (.nsendRoute f.a f.b sy))) rfl ?_
  simp [Sync.ofWord_eng h, formG, LoG.unpack_pack, Form.words]

theorem nred (isMax : Bool) (t : Ty) (pos : BitVec 2) (a : XReg) (b : XReg) (sy : Sync) : Statement (.nred isMax t pos a b sy) := by
  intro h
  have h0 := h
  replace h : (nredOk isMax t && sy.eng) = true := h
  simp only [Bool.and_eq_true] at h
  refine decode_form (f := formG 0xBA 0 a b 0 (if isMax then 1 else 0) (t.code ++ pos ++ (0 : BitVec 16)) 0 sy) rfl h0 rfl ?_
  rw [rawDecode, unpack_words]
  refine Eq.trans (b :=
    (let f := (formG 0xBA 0 a b 0 (if isMax then 1 else 0) (t.code ++ pos ++ (0 : BitVec 16)) 0 sy).base
     let ext := (formG 0xBA 0 a b 0 (if isMax then 1 else 0) (t.code ++ pos ++ (0 : BitVec 16)) 0 sy).words.2
     let sy := Sync.ofWord ext .device
     let lg := LoG.unpack f.lo
     some (.nred (lg.fn = 1) (Ty.ofCode (lg.eop.extractLsb' 18 4)) (lg.eop.extractLsb' 16 2) f.a f.b sy))) rfl ?_
  simp [Sync.ofWord_eng h.2, formG, LoG.unpack_pack, Form.words]
  and_intros <;>
    (repeat first
      | rw [bitAt_append_low _ _ (by decide)]
      | rw [bitAt_append_high _ _ (by decide)]
      | rw [extract_append_low _ _ (by decide)]
      | rw [extract_append_high _ _ (by decide)]) <;>
    simp

theorem ncorrApply (d : XReg) (a : XReg) (sy : Sync) : Statement (.ncorrApply d a sy) := by
  intro h
  have h0 := h
  replace h : (sy.eng) = true := h
  refine decode_form (f := formG 0xBB d a 0 0 0 0 0 sy) rfl h0 rfl ?_
  rw [rawDecode, unpack_words]
  refine Eq.trans (b :=
    (let f := (formG 0xBB d a 0 0 0 0 0 sy).base
     let ext := (formG 0xBB d a 0 0 0 0 0 sy).words.2
     let sy := Sync.ofWord ext .device
     let lg := LoG.unpack f.lo
     if lg.fn = 0 then some (.ncorrApply f.d f.a sy) else some (.ncorrScale f.d f.a sy))) rfl ?_
  simp [Sync.ofWord_eng h, formG, LoG.unpack_pack, Form.words]

theorem ncorrScale (d : XReg) (a : XReg) (sy : Sync) : Statement (.ncorrScale d a sy) := by
  intro h
  have h0 := h
  replace h : (sy.eng) = true := h
  refine decode_form (f := formG 0xBB d a 0 0 1 0 0 sy) rfl h0 rfl ?_
  rw [rawDecode, unpack_words]
  refine Eq.trans (b :=
    (let f := (formG 0xBB d a 0 0 1 0 0 sy).base
     let ext := (formG 0xBB d a 0 0 1 0 0 sy).words.2
     let sy := Sync.ofWord ext .device
     let lg := LoG.unpack f.lo
     if lg.fn = 0 then some (.ncorrApply f.d f.a sy) else some (.ncorrScale f.d f.a sy))) rfl ?_
  simp [Sync.ofWord_eng h, formG, LoG.unpack_pack, Form.words]

theorem icprobe (d : XReg) (a : XReg) (b : XReg) (site : Word) (sy : Sync) : Statement (.icprobe d a b site sy) := by
  intro h
  have h0 := h
  replace h : (sy.immOk site && decide (site.toNat < 65536)) = true := h
  simp only [Bool.and_eq_true] at h
  refine decode_form (f := formI 0xC0 0 d a b 0 site sy) rfl h0 rfl ?_
  rw [rawDecode, unpack_words]
  refine Eq.trans (b :=
    (let f := (formI 0xC0 0 d a b 0 site sy).base
     let ext := (formI 0xC0 0 d a b 0 site sy).words.2
     let sy := Sync.ofWord ext .device
     let v := imm28 ext f.lo
     some (.icprobe f.d f.a f.b v sy))) rfl ?_
  simp [imm_ofWord h.1, imm28_ok h.1, formI, Form.words]

theorem icfill (s : XReg) (a : XReg) (b : XReg) (c : XReg) (sy : Sync) : Statement (.icfill s a b c sy) := by
  intro h
  have h0 := h
  replace h : (sy.plain) = true := h
  refine decode_form (f := formX 0xC1 s a b c 0 sy) rfl h0 rfl ?_
  rw [rawDecode, unpack_words]
  refine Eq.trans (b :=
    (let f := (formX 0xC1 s a b c 0 sy).base
     let ext := (formX 0xC1 s a b c 0 sy).words.2
     let sy := Sync.ofWord ext .device
     let fn := (LoA.unpack f.lo).fn
     match fn.toNat with
       | 0 => some (.icfill f.d f.a f.b f.c sy)
       | 1 => some (.icfillSite f.d sy)
       | 2 => some (.icfillAll sy)
       | _ => none)) rfl ?_
  simp [plain_ofWord h, formX, formA, LoA.unpack_pack, Form.words]

theorem icfillSite (s : XReg) (sy : Sync) : Statement (.icfillSite s sy) := by
  intro h
  have h0 := h
  replace h : (sy.plain) = true := h
  refine decode_form (f := formX 0xC1 s 0 0 0 1 sy) rfl h0 rfl ?_
  rw [rawDecode, unpack_words]
  refine Eq.trans (b :=
    (let f := (formX 0xC1 s 0 0 0 1 sy).base
     let ext := (formX 0xC1 s 0 0 0 1 sy).words.2
     let sy := Sync.ofWord ext .device
     let fn := (LoA.unpack f.lo).fn
     match fn.toNat with
       | 0 => some (.icfill f.d f.a f.b f.c sy)
       | 1 => some (.icfillSite f.d sy)
       | 2 => some (.icfillAll sy)
       | _ => none)) rfl ?_
  simp [plain_ofWord h, formX, formA, LoA.unpack_pack, Form.words]

theorem icfillAll (sy : Sync) : Statement (.icfillAll sy) := by
  intro h
  have h0 := h
  replace h : (sy.plain) = true := h
  refine decode_form (f := formX 0xC1 0 0 0 0 2 sy) rfl h0 rfl ?_
  rw [rawDecode, unpack_words]
  refine Eq.trans (b :=
    (let f := (formX 0xC1 0 0 0 0 2 sy).base
     let ext := (formX 0xC1 0 0 0 0 2 sy).words.2
     let sy := Sync.ofWord ext .device
     let fn := (LoA.unpack f.lo).fn
     match fn.toNat with
       | 0 => some (.icfill f.d f.a f.b f.c sy)
       | 1 => some (.icfillSite f.d sy)
       | 2 => some (.icfillAll sy)
       | _ => none)) rfl ?_
  simp [plain_ofWord h, formX, formA, LoA.unpack_pack, Form.words]

theorem guard (a : XReg) (b : XReg) (off : Word) (sy : Sync) : Statement (.guard a b off sy) := by
  intro h
  have h0 := h
  replace h : (sy.immOk off) = true := h
  refine decode_form (f := formI 0xC2 0 0 a b 0 off sy) rfl h0 rfl ?_
  rw [rawDecode, unpack_words]
  refine Eq.trans (b :=
    (let f := (formI 0xC2 0 0 a b 0 off sy).base
     let ext := (formI 0xC2 0 0 a b 0 off sy).words.2
     let sy := Sync.ofWord ext .device
     let v := imm28 ext f.lo
     some (.guard f.a f.b v sy))) rfl ?_
  simp [imm_ofWord h, imm28_ok h, formI, Form.words]

theorem ldslot (d : XReg) (a : XReg) (disp : Word) (sy : Sync) : Statement (.ldslot d a disp sy) := by
  intro h
  have h0 := h
  replace h : (sy.immOk disp) = true := h
  refine decode_form (f := formI 0xC3 0 d a 0 (cMode .d .global 0) disp sy) rfl h0 rfl ?_
  rw [rawDecode, unpack_words]
  refine Eq.trans (b :=
    (let f := (formI 0xC3 0 d a 0 (cMode .d .global 0) disp sy).base
     let ext := (formI 0xC3 0 d a 0 (cMode .d .global 0) disp sy).words.2
     let sy := Sync.ofWord ext .device
     let v := imm28 ext f.lo
     some (.ldslot f.d f.a v sy))) rfl ?_
  simp [imm_ofWord h, imm28_ok h, formI, cMode, CM.unpack_pack, Form.words]

theorem stslot (d : XReg) (a : XReg) (disp : Word) (sy : Sync) : Statement (.stslot d a disp sy) := by
  intro h
  have h0 := h
  replace h : (sy.immOk disp) = true := h
  refine decode_form (f := formI 0xC4 0 d a 0 (cMode .d .global 0) disp sy) rfl h0 rfl ?_
  rw [rawDecode, unpack_words]
  refine Eq.trans (b :=
    (let f := (formI 0xC4 0 d a 0 (cMode .d .global 0) disp sy).base
     let ext := (formI 0xC4 0 d a 0 (cMode .d .global 0) disp sy).words.2
     let sy := Sync.ofWord ext .device
     let v := imm28 ext f.lo
     some (.stslot f.d f.a v sy))) rfl ?_
  simp [imm_ofWord h, imm28_ok h, formI, cMode, CM.unpack_pack, Form.words]

theorem tagchk (a : XReg) (b : XReg) (off : Word) (sy : Sync) : Statement (.tagchk a b off sy) := by
  intro h
  have h0 := h
  replace h : (sy.immOk off) = true := h
  refine decode_form (f := formI 0xC5 0 0 a b 0 off sy) rfl h0 rfl ?_
  rw [rawDecode, unpack_words]
  refine Eq.trans (b :=
    (let f := (formI 0xC5 0 0 a b 0 off sy).base
     let ext := (formI 0xC5 0 0 a b 0 off sy).words.2
     let sy := Sync.ofWord ext .device
     let v := imm28 ext f.lo
     some (.tagchk f.a f.b v sy))) rfl ?_
  simp [imm_ofWord h, imm28_ok h, formI, Form.words]

theorem alloc (d : XReg) (a : XReg) (b : XReg) (sy : Sync) : Statement (.alloc d a b sy) := by
  intro h
  have h0 := h
  replace h : (sy.plain) = true := h
  refine decode_form (f := formI 0xC6 0 d a b 0 0 sy) rfl h0 rfl ?_
  rw [rawDecode, unpack_words]
  refine Eq.trans (b :=
    (let f := (formI 0xC6 0 d a b 0 0 sy).base
     let ext := (formI 0xC6 0 d a b 0 0 sy).words.2
     let sy := Sync.ofWord ext .device
     some (.alloc f.d f.a f.b sy))) rfl ?_
  simp [plain_ofWord h, formI, Form.words]

theorem wbar (a : XReg) (disp : Word) (sy : Sync) : Statement (.wbar a disp sy) := by
  intro h
  have h0 := h
  replace h : (sy.immOk disp) = true := h
  refine decode_form (f := formI 0xC7 0 0 a 0 0 disp sy) rfl h0 rfl ?_
  rw [rawDecode, unpack_words]
  refine Eq.trans (b :=
    (let f := (formI 0xC7 0 0 a 0 0 disp sy).base
     let ext := (formI 0xC7 0 0 a 0 0 disp sy).words.2
     let sy := Sync.ofWord ext .device
     let v := imm28 ext f.lo
     some (.wbar f.a v sy))) rfl ?_
  simp [imm_ofWord h, imm28_ok h, formI, Form.words]

theorem trapSys (code : BitVec 16) (sy : Sync) : Statement (.trapSys code sy) := by
  intro h
  have h0 := h
  replace h : (sy.plain) = true := h
  refine decode_form (f := formS 0xD0 0 0 0 0 code sy) rfl h0 rfl ?_
  rw [rawDecode, unpack_words]
  refine Eq.trans (b :=
    (let f := (formS 0xD0 0 0 0 0 code sy).base
     let ext := (formS 0xD0 0 0 0 0 code sy).words.2
     let sy := Sync.ofWord ext .device
     let ls := LoS.unpack f.lo
     if f.c = 0 then some (.trapSys ls.code sy) else some (.trapBrk ls.code sy))) rfl ?_
  simp [plain_ofWord h, formS, LoS.unpack_pack, Form.words]

theorem trapBrk (code : BitVec 16) (sy : Sync) : Statement (.trapBrk code sy) := by
  intro h
  have h0 := h
  replace h : (sy.plain) = true := h
  refine decode_form (f := formS 0xD0 0 0 1 0 code sy) rfl h0 rfl ?_
  rw [rawDecode, unpack_words]
  refine Eq.trans (b :=
    (let f := (formS 0xD0 0 0 1 0 code sy).base
     let ext := (formS 0xD0 0 0 1 0 code sy).words.2
     let sy := Sync.ofWord ext .device
     let ls := LoS.unpack f.lo
     if f.c = 0 then some (.trapSys ls.code sy) else some (.trapBrk ls.code sy))) rfl ?_
  simp [plain_ofWord h, formS, LoS.unpack_pack, Form.words]

theorem eret (sy : Sync) : Statement (.eret sy) := by
  intro h
  have h0 := h
  replace h : (sy.plain) = true := h
  refine decode_form (f := formS 0xD1 0 0 0 0 0 sy) rfl h0 rfl ?_
  rw [rawDecode, unpack_words]
  refine Eq.trans (b :=
    (let f := (formS 0xD1 0 0 0 0 0 sy).base
     let ext := (formS 0xD1 0 0 0 0 0 sy).words.2
     let sy := Sync.ofWord ext .device
     some (.eret sy))) rfl ?_
  simp [plain_ofWord h, formS, LoS.unpack_pack, Form.words]

theorem srd (d : XReg) (srn : BitVec 12) (sy : Sync) : Statement (.srd d srn sy) := by
  intro h
  have h0 := h
  replace h : (srnKnown srn.toNat && sy.plain) = true := h
  simp only [Bool.and_eq_true] at h
  refine decode_form (f := formS 0xD2 d 0 0 srn 0 sy) rfl h0 rfl ?_
  rw [rawDecode, unpack_words]
  refine Eq.trans (b :=
    (let f := (formS 0xD2 d 0 0 srn 0 sy).base
     let ext := (formS 0xD2 d 0 0 srn 0 sy).words.2
     let sy := Sync.ofWord ext .device
     let ls := LoS.unpack f.lo
     some (.srd f.d ls.srn sy))) rfl ?_
  simp [plain_ofWord h.2, formS, LoS.unpack_pack, Form.words]

theorem swr (srn : BitVec 12) (a : XReg) (sy : Sync) : Statement (.swr srn a sy) := by
  intro h
  have h0 := h
  replace h : (srnKnown srn.toNat && sy.plain) = true := h
  simp only [Bool.and_eq_true] at h
  refine decode_form (f := formS 0xD3 0 a 0 srn 0 sy) rfl h0 rfl ?_
  rw [rawDecode, unpack_words]
  refine Eq.trans (b :=
    (let f := (formS 0xD3 0 a 0 srn 0 sy).base
     let ext := (formS 0xD3 0 a 0 srn 0 sy).words.2
     let sy := Sync.ofWord ext .device
     let ls := LoS.unpack f.lo
     some (.swr ls.srn f.a sy))) rfl ?_
  simp [plain_ofWord h.2, formS, LoS.unpack_pack, Form.words]

theorem quantumExpiry (core : Nat) : Statement (.quantumExpiry core) := fun h => nomatch h

theorem referenceComplete (a : Nat) : Statement (.referenceComplete a) := fun h => nomatch h

theorem drainComplete (a : Nat) : Statement (.drainComplete a) := fun h => nomatch h

theorem continuationTake (a : Nat) : Statement (.continuationTake a) := fun h => nomatch h

theorem continuationAging (die : Nat) (level : Nat) : Statement (.continuationAging die level) := fun h => nomatch h

theorem storeHomeCheck (a : Nat) : Statement (.storeHomeCheck a) := fun h => nomatch h

theorem leaseBoundExpiry (a : Nat) (line : Nat) : Statement (.leaseBoundExpiry a line) := fun h => nomatch h

theorem remoteAccess (acc : RemoteAcc) : Statement (.remoteAccess acc) := fun h => nomatch h

theorem counterAddAtHome (req : AddReq) : Statement (.counterAddAtHome req) := fun h => nomatch h

theorem waitPoll (a : Nat) : Statement (.waitPoll a) := fun h => nomatch h

theorem cwaitTimeout (a : Nat) : Statement (.cwaitTimeout a) := fun h => nomatch h

theorem frescoCommandStart (cluster : Nat) (seq : Nat) : Statement (.frescoCommandStart cluster seq) := fun h => nomatch h

theorem frescoCommandComplete (cluster : Nat) (seq : Nat) : Statement (.frescoCommandComplete cluster seq) := fun h => nomatch h

theorem remoteCommandAdmission (c : RemoteCmd) : Statement (.remoteCommandAdmission c) := fun h => nomatch h

theorem chunkComplete (cluster : Nat) (entry : Nat) : Statement (.chunkComplete cluster entry) := fun h => nomatch h

theorem chunkFault (cluster : Nat) (entry : Nat) : Statement (.chunkFault cluster entry) := fun h => nomatch h

theorem nredSourceRead (id : Nat) : Statement (.nredSourceRead id) := fun h => nomatch h

theorem reductionDeadline (seq : Nat) : Statement (.reductionDeadline seq) := fun h => nomatch h

theorem lateContribution (id : Nat) : Statement (.lateContribution id) := fun h => nomatch h

theorem nsendComplete (id : Nat) : Statement (.nsendComplete id) := fun h => nomatch h

theorem routeStage (id : Nat) : Statement (.routeStage id) := fun h => nomatch h

theorem msgAppendComplete (id : Nat) : Statement (.msgAppendComplete id) := fun h => nomatch h

theorem taggedLaunchMessage (m : TagMsg) : Statement (.taggedLaunchMessage m) := fun h => nomatch h

theorem queueMap (slot : Nat) (desc : Word) : Statement (.queueMap slot desc) := fun h => nomatch h

theorem queueUnmap (slot : Nat) : Statement (.queueUnmap slot) := fun h => nomatch h

theorem notify (slot : Nat) : Statement (.notify slot) := fun h => nomatch h

theorem kernelPacket (die : Nat) (slot : Nat) : Statement (.kernelPacket die slot) := fun h => nomatch h

theorem strandPlacement (die : Nat) (thread : Nat) : Statement (.strandPlacement die thread) := fun h => nomatch h

theorem shareCompletion (die : Nat) (launch : Nat) : Statement (.shareCompletion die launch) := fun h => nomatch h

theorem restorePacket (die : Nat) (slot : Nat) : Statement (.restorePacket die slot) := fun h => nomatch h

theorem waitcPacket (die : Nat) (slot : Nat) : Statement (.waitcPacket die slot) := fun h => nomatch h

theorem waitcWake (die : Nat) (slot : Nat) : Statement (.waitcWake die slot) := fun h => nomatch h

theorem sigcPacket (die : Nat) (slot : Nat) : Statement (.sigcPacket die slot) := fun h => nomatch h

theorem fencePacket (die : Nat) (slot : Nat) : Statement (.fencePacket die slot) := fun h => nomatch h

theorem fencePacketWake (die : Nat) (slot : Nat) : Statement (.fencePacketWake die slot) := fun h => nomatch h

theorem armPacket (die : Nat) (slot : Nat) : Statement (.armPacket die slot) := fun h => nomatch h

theorem easelStart (a : Nat) (value : Word) : Statement (.easelStart a value) := fun h => nomatch h

theorem crackOperation (a : Nat) : Statement (.crackOperation a) := fun h => nomatch h

theorem syscallPost (a : Nat) : Statement (.syscallPost a) := fun h => nomatch h

theorem syscallReply (a : Nat) (word1 : Word) : Statement (.syscallReply a word1) := fun h => nomatch h

theorem preemptRequest (a : Nat) (value : Word) : Statement (.preemptRequest a value) := fun h => nomatch h

theorem contextHalt (a : Nat) : Statement (.contextHalt a) := fun h => nomatch h

theorem saveComplete (a : Nat) : Statement (.saveComplete a) := fun h => nomatch h

theorem storageSubmit (die : Nat) (i : Word) : Statement (.storageSubmit die i) := fun h => nomatch h

theorem storageComplete (die : Nat) (id : Nat) (status : BitVec 16) (data : List Byte) : Statement (.storageComplete die id status data) := fun h => nomatch h

theorem checkerMismatch (core : Nat) (second : Bool) : Statement (.checkerMismatch core second) := fun h => nomatch h

theorem uncorrectableError (p : UncPlace) : Statement (.uncorrectableError p) := fun h => nomatch h

theorem linkPoisonReport (link : Nat) (offset : Nat) : Statement (.linkPoisonReport link offset) := fun h => nomatch h

theorem linkDown (link : Nat) : Statement (.linkDown link) := fun h => nomatch h

theorem reset : Statement .reset := fun h => nomatch h

theorem manifest (m : Manifest) : Statement (.manifest m) := fun h => nomatch h

theorem monitorImageFetched (image : List Byte) : Statement (.monitorImageFetched image) := fun h => nomatch h

theorem bootRetryTimer : Statement .bootRetryTimer := fun h => nomatch h

theorem thermalTrip : Statement .thermalTrip := fun h => nomatch h

theorem attestationChallenge (nonce : BitVec 256) : Statement (.attestationChallenge nonce) := fun h => nomatch h

theorem debugUnlock (publicKey : List Byte) (signature : List Byte) : Statement (.debugUnlock publicKey signature) := fun h => nomatch h

theorem keyctl (value : Word) : Statement (.keyctl value) := fun h => nomatch h

theorem still : Statement .still := fun h => nomatch h

theorem freezePin : Statement .freezePin := fun h => nomatch h

theorem nodeid (value : Word) : Statement (.nodeid value) := fun h => nomatch h

theorem ptpCorrection (ppm : Int) : Statement (.ptpCorrection ppm) := fun h => nomatch h

theorem loadImage (asid : BitVec 16) (base : Word) (image : List Byte) : Statement (.loadImage asid base image) := fun h => nomatch h

theorem unloadImage (id : Nat) : Statement (.unloadImage id) := fun h => nomatch h

theorem registerWrite (device : Bool) (die : Nat) (off : Nat) (value : Word) : Statement (.registerWrite device die off value) := fun h => nomatch h

theorem ncorrComplete (id : Nat) : Statement (.ncorrComplete id) := fun h => nomatch h

theorem linkTrained (link : Nat) (capacity : Nat) : Statement (.linkTrained link capacity) := fun h => nomatch h

theorem correctedErrorReport (link : Nat) : Statement (.correctedErrorReport link) := fun h => nomatch h

theorem illegalOpcode (base : Word) : Statement (.illegalOpcode base) := by
  intro h
  have h2 : reservedOp (base.extractLsb' 56 8).toNat = true := by
    have h3 : reservedOp (base >>> 56).toNat = true := h
    have h4 : (base >>> 56).toNat = (base.extractLsb' 56 8).toNat := by
      simp only [BitVec.toNat_ushiftRight, BitVec.extractLsb'_toNat, Nat.shiftRight_eq_div_pow]
      omega
    rwa [h4] at h3
  show decode base none = _
  rw [decode, if_pos h2]

end Sys2Proof.Laws.RoundTrip
end

