-- ==== Sys2Proof/Laws/Reach.lean ====
section
/-! SUPPORT. Every step is a sequence of updates; what every update keeps, every step keeps. -/

namespace Sys2Proof.Machine

open Sys2Proof

theorem Reach.trans {a b c : State} (h1 : Reach a b) (h2 : Reach b c) : Reach a c := by
  induction h2 with
  | refl => exact h1
  | step u _ ih => exact .step u ih

theorem run_reach {s t : State} {m : M s Unit} (h : run s m = .next t) : Reach s t := by
  unfold run at h
  split at h
  · next σ _ => injection h with h; subst h; exact σ.property
  · cases h
  · next σ _ _ => injection h with h; subst h; exact σ.property

/-- What every update keeps, every state on the way has. -/
theorem Reach.keeps {P : State → Prop} (hP : ∀ s u, P s → P (Upd.apply u s)) {s t : State} (h : Reach s t) (hs : P s) :
    P t := by
  induction h with
  | refl => exact hs
  | step u _ ih => exact hP _ u ih

theorem strandStep_reach {s t : State} {sy : Sync} {rel engine : Bool} {pre : M s Unit} {body : M s Fin}
    (h : strandStep s sy rel engine pre body = .next t) : Reach s t := run_reach h

/-- A reset, or a thermal trip. -/
def resets : Instr → Bool
  | .reset | .thermalTrip => true
  | _ => false

/-- Every instruction and every event other than a reset is a sequence of updates. -/
theorem exec_reach (i : Instr) (s t : State) (hi : resets i = false) (h : exec i s = .next t) : Reach s t := by
  cases i
  case reset => cases hi
  case thermalTrip => cases hi
  case attestationChallenge n => exact run_reach (m := attestationChallengeBody n) h
  case still => exact run_reach (m := upd .stop) h
  case nodeid v => exact run_reach (m := upd (.latchNode (v.truncate 8))) h
  all_goals exact run_reach h

/-- A reset restarts the device. -/
theorem exec_resets {i : Instr} (s : State) (hi : resets i = true) : exec i s = .next s.restart := by
  cases i <;> first | rfl | cases hi

/-- No word decodes to a reset. -/
theorem decode_resets {base : Word} {ext : Option Word} {i : Instr} (h : decode base ext = .ok i) : resets i = false := by
  unfold decode at h
  split at h
  · injection h with h; subst h; rfl
  · split at h
    · cases h
    · split at h
      · next j _ hj =>
        injection h with h
        subst h
        have hw : j.wf = true := by simp only [Bool.and_eq_true] at hj; exact hj.1
        cases j <;> first | rfl | cases hw
      · cases h

theorem bind_ok {s0 : State} {α β : Type} {m : M s0 α} {f : α → M s0 β} {σ τ : At s0} {b : β} (h : (m >>= f) σ = .ok b τ) :
    ∃ a ρ, m σ = .ok a ρ ∧ f a ρ = .ok b τ := by
  rw [run_bind] at h
  split at h
  · next a ρ hm => exact ⟨a, ρ, hm, h⟩
  · cases h

/-- What a fetch gives is the instruction of the words that it fetched. -/
theorem fetchInstr_decoded {s0 : State} {a : Nat} {σ τ : At s0} {i : Instr} (h : fetchInstr a σ = .ok (some i) τ) :
    ∃ base ext, decode base ext = .ok i := by
  unfold fetchInstr at h
  obtain ⟨-, _, -, h⟩ := bind_ok h
  obtain ⟨-, _, -, h⟩ := bind_ok h
  obtain ⟨r, _, -, h⟩ := bind_ok h
  rcases r with ⟨c, v⟩ | ⟨base, ext⟩
  · obtain ⟨x, _, -, h⟩ := bind_ok h
    obtain ⟨-, _, -, h⟩ := bind_ok h
    cases h
  · obtain ⟨-, _, -, h⟩ := bind_ok h
    cases hd : decode base ext with
    | ok j => rw [hd] at h; cases h; exact ⟨base, ext, hd⟩
    | error e =>
      rw [hd] at h
      obtain ⟨x, _, -, h⟩ := bind_ok h
      obtain ⟨-, _, -, h⟩ := bind_ok h
      cases h

theorem followTail_decoded {s0 : State} {a : Nat} {f : Fwd} {σ τ : At s0} {i : Instr}
    (h : (do
      modCtx a fun y => { y with phase := .running, r := { y.r with pc := f.pc } }
      upd (.cur a)
      upd (.fwd (some f))
      setIr f.base f.ext
      match decode f.base f.ext with
      | .ok i => return some i
      | .error _ => return none : M s0 (Option Instr)) σ = .ok (some i) τ) : ∃ base ext, decode base ext = .ok i := by
  obtain ⟨-, _, -, h⟩ := bind_ok h
  obtain ⟨-, _, -, h⟩ := bind_ok h
  obtain ⟨-, _, -, h⟩ := bind_ok h
  obtain ⟨-, _, -, h⟩ := bind_ok h
  cases hd : decode f.base f.ext with
  | ok j => rw [hd] at h; cases h; exact ⟨_, _, hd⟩
  | error e => rw [hd] at h; cases h

/-- What a follower takes from its stream is the instruction of the words that the stream holds. -/
theorem followInstr_decoded {s0 : State} {core : Nat} {σ τ : At s0} {i : Instr}
    (h : followInstr core σ = .ok (some i) τ) : ∃ base ext, decode base ext = .ok i := by
  unfold followInstr at h
  obtain ⟨s, ρ, hs, h⟩ := bind_ok h
  cases ht : (s.core core).trace with
  | none => rw [ht] at h; cases h
  | follower l q fs =>
    rw [ht] at h
    cases q with
    | false => cases h
    | true =>
      cases fs with
      | nil => cases h
      | cons f fs =>
        simp only at h
        split at h
        · obtain ⟨-, _, -, h⟩ := bind_ok h
          cases h
        · split at h
          · cases h
          · cases hr : s.runningCtx core with
            | none => rw [hr] at h; exact followTail_decoded h
            | some j =>
              rw [hr] at h
              simp only at h
              split at h
              · obtain ⟨-, _, -, h⟩ := bind_ok h
                exact followTail_decoded h
              · exact followTail_decoded h

theorem runFetched_reach {s t : State} {m : M s (Option Instr)}
    (hm : ∀ i τ, m ⟨s, .refl⟩ = .ok (some i) τ → ∃ base ext, decode base ext = .ok i)
    (h : runFetched s m = .next t) : Reach s t := by
  unfold runFetched at h
  split at h
  · next i σ hσ =>
    obtain ⟨base, ext, hd⟩ := hm i σ hσ
    exact σ.property.trans (exec_reach i _ _ (decode_resets hd) h)
  · next σ _ => injection h with h; subst h; exact σ.property
  · next σ _ => injection h with h; subst h; exact σ.property

theorem issueCore_reach {core : Nat} {s t : State} (h : issueCore core s = .next t) : Reach s t := by
  unfold issueCore at h
  split at h
  · injection h with h; subst h; exact .refl
  · split at h
    · exact runFetched_reach (fun _ _ => followInstr_decoded) h
    · split at h
      · exact run_reach h
      · split at h
        · exact run_reach h
        · split at h
          · exact exec_reach _ _ _ rfl h
          · exact runFetched_reach (fun _ _ => fetchInstr_decoded) h

theorem takeTurn_reach {x : Turn} {s t : State} (hx : x.leavesStill = false) (h : takeTurn x s = .next t) :
    Reach s t := by
  cases x with
  | event e =>
    refine exec_reach e s t ?_ h
    cases e <;> first | rfl | cases hx
  | issue core => exact issueCore_reach h
  | part p => cases p <;> exact run_reach h

theorem takeTurn_resets {x : Turn} {s : State} (hx : x.leavesStill = true) : takeTurn x s = .next s.restart := by
  cases x with
  | event e => exact exec_resets s (by cases e <;> first | rfl | cases hx)
  | issue core => cases hx
  | part p => cases hx

theorem ctxTurns_resets {a : Nat} {c : Ctx} {e : Instr} (h : e ∈ ctxTurns a c) : resets e = false := by
  simp only [ctxTurns, List.mem_append, List.mem_map] at h
  rcases h with ((((h | h) | h) | h) | h) | ⟨l, -, rfl⟩
  case inr => rfl
  all_goals
    split at h <;> simp only [List.mem_cons, List.not_mem_nil, or_false] at h
    rcases h with rfl | rfl | rfl | rfl <;> rfl

theorem engineTurns_resets {s : State} {e : Instr} (h : e ∈ s.engineTurns) : resets e = false := by
  simp only [State.engineTurns, List.mem_append, List.mem_flatMap, List.mem_map, List.mem_cons, List.not_mem_nil,
    or_false] at h
  rcases h with (((((((⟨_, -, _, -, rfl | rfl⟩ | ⟨_, -, _, -, rfl | rfl⟩) | ⟨_, -, rfl⟩) | ⟨_, -, rfl⟩) | ⟨_, -, rfl⟩) |
    ⟨_, -, rfl⟩) | ⟨_, -, rfl⟩) | ⟨_, -, rfl⟩) | ⟨_, -, rfl⟩ <;> rfl

theorem seqTurns_resets {s : State} {e : Instr} (h : e ∈ s.seqTurns) : resets e = false := by
  simp only [State.seqTurns, List.mem_append, List.mem_flatMap, List.mem_map] at h
  rcases h with (⟨p, -, h⟩ | ⟨_, -, _, -, rfl⟩) | ⟨_, -, _, -, rfl⟩
  · split at h <;> simp only [List.mem_cons, List.not_mem_nil, or_false] at h <;>
      rcases h with rfl | rfl | rfl | rfl | rfl | rfl <;> rfl
  · rfl
  · rfl

/-- No turn that the device takes by itself is a reset. -/
theorem turns_leavesStill {s : State} {x : Turn} (h : x ∈ s.turns) : x.leavesStill = false := by
  cases x with
  | issue core => rfl
  | part p => rfl
  | event e =>
    have hr (e : Instr) : (Turn.event e).leavesStill = resets e := by cases e <;> rfl
    rw [hr]
    simp only [State.turns, List.mem_append, List.mem_map, Turn.event.injEq, exists_eq_right] at h
    rcases h with (h | ⟨_, -, h⟩) | ((h | h) | h) | h
    · obtain ⟨n, -, h⟩ := List.mem_flatMap.1 h
      have key (b : Bool) (h : Turn.event e ∈ (if b then [Turn.issue n, .event (.quantumExpiry n)] else [])) :
          resets e = false := by
        cases b
        · cases h
        · simp only [if_true, List.mem_cons, reduceCtorEq, Turn.event.injEq, List.not_mem_nil, or_false, false_or] at h
          subst h
          rfl
      exact key _ h
    · cases h
    · obtain ⟨p, -, h⟩ := List.mem_flatMap.1 h
      exact ctxTurns_resets h
    · exact engineTurns_resets h
    · exact seqTurns_resets h
    · simp only [State.bootTurns] at h
      split at h <;> simp only [List.mem_cons, List.not_mem_nil, or_false] at h
      subst h
      rfl

theorem advance_reach (s : State) (l : List Turn) : Reach s (s.advance l) := by
  unfold State.advance
  split
  · next σ _ => exact σ.property
  · next σ _ => exact σ.property

theorem openTurn_reach {s t : State} (h : s.openTurn = .next t) : Reach s t := by
  unfold State.openTurn at h
  split at h
  · injection h with h; subst h; exact .refl
  · next x xs hx =>
    simp only at h
    split at h
    · injection h with h; subst h; exact .step _ .refl
    · refine Reach.trans (.step _ .refl) (takeTurn_reach (turns_leavesStill (s := s) ?_) h)
      rw [hx]
      have := Nat.mod_lt (Config.pick s.oracle) (Nat.succ_pos xs.length)
      rw [List.getD_eq_getElem _ _ (by simpa using this)]
      exact List.getElem_mem _

/-- A step is a sequence of updates, or a reset that the agenda names after such a sequence. -/
theorem step_reach {s t : State} (h : step s = .next t) :
    Reach s t ∨ ∃ x l, s.agenda = x :: l ∧ x.leavesStill = true ∧ t = (s.advance l).restart := by
  unfold step at h
  split at h
  · split at h
    · cases h
    · exact .inl ((advance_reach s []).trans (openTurn_reach h))
  · next x l hl =>
    split at h
    · cases h
    · cases hx : x.leavesStill with
      | false => exact .inl ((advance_reach s _).trans (takeTurn_reach hx h))
      | true =>
        rw [takeTurn_resets hx] at h
        injection h with h
        exact .inr ⟨x, l, hl, hx, h.symm⟩

/-- What every update and a restart keep, every step keeps. -/
theorem step_keeps {P : State → Prop} (hP : ∀ s u, P s → P (Upd.apply u s)) (hR : ∀ s, P s → P s.restart) {s t : State}
    (h : step s = .next t) (hs : P s) : P t := by
  rcases step_reach h with h | ⟨x, l, -, -, rfl⟩
  · exact h.keeps hP hs
  · exact hR _ ((advance_reach s l).keeps hP hs)

/-! ### The canonical form -/

/-- Every update keeps the byte memories canonical. -/
theorem Upd.canonical (s : State) (u : Upd) (h : s.Canonical) : (u.apply s).Canonical := by
  obtain ⟨h1, h2, h3, h4⟩ := h
  cases u
  case byte pa b => exact ⟨Memory.wf_write h1, h2, h3, h4⟩
  case lsByte k b => exact ⟨h1, Memory.wf_write h2, h3, h4⟩
  case planeByte k b => exact ⟨h1, h2, Memory.wf_write h3, h4⟩
  case farByte va b => exact ⟨h1, h2, h3, Memory.wf_write h4⟩
  case latchNode v =>
    simp only [Upd.apply]
    split <;> exact ⟨h1, h2, h3, h4⟩
  all_goals exact ⟨h1, h2, h3, h4⟩

theorem restart_canonical (s : State) (h : s.Canonical) : s.restart.Canonical := ⟨h.1, rfl, rfl, h.2.2.2⟩

theorem Reach.canonical {s t : State} (h : Reach s t) (hs : s.Canonical) : t.Canonical := h.keeps Upd.canonical hs

/-! ### The order of the maps -/

/-- Every update keeps the keyed parts of the state in order. -/
theorem Upd.ordered (s : State) (u : Upd) (h : s.Ordered) : (u.apply s).Ordered := by
  obtain ⟨h1, h2, h3, h4, h5, h6, h7, h8, h9, h10, h11, h12, h13, h14⟩ := h
  cases u <;>
    first
      | exact ⟨h1, h2, h3, h4, h5, h6, h7, h8, h9, h10, h11, h12, h13, h14⟩
      | (simp only [Upd.apply, State.Ordered]
         refine ⟨?_, ?_, ?_, ?_, ?_, ?_, ?_, ?_, ?_, ?_, ?_, ?_, ?_, ?_⟩ <;>
           first
             | assumption
             | exact TMap.sorted_put ‹_›
             | exact TMap.sorted_del ‹_›
             | exact TMap.sorted_set ‹_›
             | (split <;> assumption))

theorem restart_ordered (s : State) (h : s.Ordered) : s.restart.Ordered :=
  ⟨rfl, rfl, rfl, h.2.2.2.1, TMap.sorted_range (fun k => TMap.get 0 s.keyGen k + 1) 128, rfl, rfl, rfl, rfl, rfl, rfl, rfl, rfl, rfl⟩

theorem Reach.ordered {s t : State} (h : Reach s t) (hs : s.Ordered) : t.Ordered := h.keeps Upd.ordered hs

end Sys2Proof.Machine
end

