-- ==== Sys2Proof/Laws/Values.lean ====
section
/-! SUPPORT. The model's word arithmetic is the arithmetic of the rules. -/

namespace Sys2Proof.Machine

open Sys2Proof

theorem mul_low (a b : Word) : (a.setWidth 128 * b.setWidth 128).extractLsb' 0 64 = a * b := by
  apply BitVec.eq_of_toNat_eq
  simp [BitVec.extractLsb'_toNat, BitVec.toNat_mul]

theorem mulhuWord_eq (a b : Word) : mulhuWord a b = (a.setWidth 128 * b.setWidth 128).extractLsb' 64 64 := by
  apply BitVec.eq_of_toNat_eq
  have ha := a.isLt
  have hb := b.isLt
  have h : a.toNat * b.toNat < 2 ^ 128 := by nlinarith
  simp only [mulhuWord, wordOf, BitVec.toNat_ofNat, BitVec.extractLsb'_toNat, BitVec.toNat_mul, BitVec.toNat_setWidth, Nat.shiftRight_eq_div_pow]
  rw [Nat.mod_eq_of_lt (a := a.toNat) (by omega), Nat.mod_eq_of_lt (a := b.toNat) (by omega), Nat.mod_eq_of_lt h]

theorem mulhWord_eq (a b : Word) : mulhWord a b = (a.signExtend 128 * b.signExtend 128).extractLsb' 64 64 := by
  have hp : a.signExtend 128 * b.signExtend 128 = BitVec.ofInt 128 (a.toInt * b.toInt) := by
    rw [BitVec.ofInt_mul, ← BitVec.toInt_signExtend_of_le (w := 64) (v := 128) (x := a) (by decide),
      ← BitVec.toInt_signExtend_of_le (w := 64) (v := 128) (x := b) (by decide), BitVec.ofInt_toInt, BitVec.ofInt_toInt]
  rw [hp]
  unfold mulhWord
  generalize a.toInt * b.toInt = p
  apply BitVec.eq_of_toNat_eq
  simp only [BitVec.toNat_ofInt, BitVec.extractLsb'_toNat, Nat.shiftRight_eq_div_pow]
  omega

theorem divWord_true (a b : Word) :
    divWord true a b = if b = 0 then BitVec.allOnes 64
      else if a = BitVec.intMin 64 ∧ b = BitVec.allOnes 64 then BitVec.intMin 64
      else BitVec.ofInt 64 (a.toInt.tdiv b.toInt) := by
  unfold divWord
  split
  · rfl
  · rw [if_pos rfl]
    split
    · next h => obtain ⟨rfl, rfl⟩ := h; decide
    · rfl

theorem divWord_false (a b : Word) : divWord false a b = if b = 0 then BitVec.allOnes 64 else a / b := by
  unfold divWord
  split
  · rfl
  · apply BitVec.eq_of_toNat_eq
    simp [wordOf]
    have := a.isLt
    have := Nat.div_le_self a.toNat b.toNat
    omega

theorem remWord_false (a b : Word) : remWord false a b = if b = 0 then a else a % b := by
  unfold remWord
  rw [divWord_false]
  split
  · rfl
  · apply BitVec.eq_of_toNat_eq
    simp only [BitVec.toNat_sub, BitVec.toNat_mul, BitVec.toNat_udiv, BitVec.toNat_umod]
    have h1 := Nat.div_add_mod a.toNat b.toNat
    have ha := a.isLt
    have h2 : a.toNat / b.toNat * b.toNat ≤ a.toNat := Nat.div_mul_le_self _ _
    have h3 : b.toNat * (a.toNat / b.toNat) = a.toNat / b.toNat * b.toNat := Nat.mul_comm _ _
    rw [Nat.mod_eq_of_lt (a := a.toNat / b.toNat * b.toNat) (by omega)]
    omega

theorem remWord_true (a b : Word) :
    remWord true a b = if b = 0 then a
      else if a = BitVec.intMin 64 ∧ b = BitVec.allOnes 64 then 0
      else BitVec.ofInt 64 (a.toInt.tmod b.toInt) := by
  unfold remWord
  rw [divWord_true]
  split
  · rfl
  · split
    · next h => obtain ⟨rfl, rfl⟩ := h; decide
    · rw [Int.tmod_def, Int.sub_eq_add_neg, BitVec.ofInt_add, BitVec.ofInt_toInt, BitVec.ofInt_neg, BitVec.ofInt_mul,
        BitVec.ofInt_toInt, BitVec.mul_comm b, BitVec.sub_eq_add_neg]

theorem clzWord_eq (a : Word) : clzWord a = if a = 0 then 64 else BitVec.ofNat 64 (63 - a.toNat.log2) := by
  unfold clzWord bitLen
  by_cases h : a = 0
  · subst h; decide
  · have h0 : a.toNat ≠ 0 := fun e => h (BitVec.eq_of_toNat_eq e)
    rw [if_neg h, if_neg h0, wordOf]
    congr 1
    omega

theorem popcWord_eq (a : Word) : popcWord a = BitVec.ofNat 64 ((List.range 64).countP fun i => a.getLsbD i) := by
  rw [popcWord, onesIn, List.countP_eq_length_filter]; rfl

theorem shiftAmount_eq (b : Word) : shiftAmount b = (b % 64).toNat := by simp [shiftAmount, BitVec.toNat_umod]

theorem rmRnd_eq (k : BitVec 3) : rmRnd k = (if k = 2 then .rtz else if k = 3 then .rdn else if k = 4 then .rup else if k = 5 then .rna else .rne) := by
  revert k; decide
theorem rnd_eq (r : Regs) (m : Rnd) : r.rnd m = Expected.mode r m := by
  rw [Regs.rnd, Expected.mode, rmRnd_eq]
theorem fCmp_eq (p : Pred) (a b : FV) :
    fCmp p a b =
      (match p with
        | .eq => !(a.isNan || b.isNan) && FV.eq a b
        | .ne => (a.isNan || b.isNan) || !FV.eq a b
        | .lt => !(a.isNan || b.isNan) && FV.lt a b
        | .le => !(a.isNan || b.isNan) && !FV.lt b a
        | .gt => !(a.isNan || b.isNan) && FV.lt b a
        | .ge => !(a.isNan || b.isNan) && !FV.lt a b
        | .un => a.isNan || b.isNan,
       if (match p with
        | .eq | .ne | .un => a.isSnan || b.isSnan
        | _ => a.isNan || b.isNan) then Flags.nv else 0) := by
  cases a <;> cases b <;> cases p <;> simp [fCmp, FV.eq, FV.isNan, FV.isSnan, snanFlags, Flags.invalid, FV.lt]
theorem cvtWord_eq (t : Ty) (c : Nat) : cvtWord t c = Expected.extended t c := by
  cases t <;> simp [cvtWord, Expected.extended, tySigned, sextInt, wordOfInt, wordOf, Ty.bits] <;>
    (refine congrArg _ ?_; split_ifs <;> omega)
end Sys2Proof.Machine
end

