-- ==== Sys2Proof/Laws/Vector.lean ====
section
/-! SUPPORT. Elements of a vector register after writes of elements, and what the element-wise instructions leave. -/

namespace Sys2Proof.Machine

open Sys2Proof

variable {s0 : State}

theorem vElem_testBit (v : VWord) (w e j : Nat) :
    (vElem v w e).testBit j = (decide (j < w) && v.getLsbD (e * w + j)) := by
  rw [vElem, Nat.testBit_mod_two_pow, Nat.testBit_div_two_pow, BitVec.getLsbD, Nat.add_comm j]

theorem vSetElem_getLsbD (v : VWord) (w e x i : Nat) :
    (vSetElem v w e x).getLsbD i =
      if e * w ≤ i ∧ i < e * w + w ∧ i < 2048 then x.testBit (i - e * w) else v.getLsbD i := by
  simp only [vSetElem, BitVec.getLsbD_or, BitVec.getLsbD_and, BitVec.getLsbD_not, BitVec.getLsbD_shiftLeft,
    BitVec.getLsbD_ofNat, Nat.testBit_two_pow_sub_one, Nat.testBit_mod_two_pow]
  by_cases h1 : i < 2048
  · by_cases h2 : i < e * w
    · simp [h1, h2, Nat.not_le.2 h2]
    · have h3 : e * w ≤ i := Nat.le_of_not_lt h2
      by_cases h4 : i < e * w + w
      · have h5 : i - e * w < w := by omega
        have h6 : i - e * w < 2048 := by omega
        simp [h1, h2, h3, h4, h5, h6]
      · have h5 : ¬ i - e * w < w := by omega
        simp [h1, h2, h3, h4, h5]
  · have h2 : v.getLsbD i = false := BitVec.getLsbD_of_ge v i (by omega)
    simp [h1, h2]

/-- The written element reads as the value's low bits. -/
theorem vElem_set_same (v : VWord) {w e : Nat} (x : Nat) (h : e * w + w ≤ 2048) :
    vElem (vSetElem v w e x) w e = x % 2 ^ w := by
  apply Nat.eq_of_testBit_eq
  intro j
  rw [vElem_testBit, Nat.testBit_mod_two_pow, vSetElem_getLsbD]
  by_cases hj : j < w
  · rw [if_pos ⟨by omega, by omega, by omega⟩]
    simp [hj]
  · simp [hj]

/-- The other elements keep their value. -/
theorem vElem_set_ne (v : VWord) {w e f : Nat} (x : Nat) (h : f ≠ e) : vElem (vSetElem v w e x) w f = vElem v w f := by
  apply Nat.eq_of_testBit_eq
  intro j
  rw [vElem_testBit, vElem_testBit, vSetElem_getLsbD]
  by_cases hj : j < w
  · have hd : ¬ (e * w ≤ f * w + j ∧ f * w + j < e * w + w ∧ f * w + j < 2048) := by
      rintro ⟨h1, h2, -⟩
      rcases Nat.lt_or_gt_of_ne h with h3 | h3
      · have : f * w + w ≤ e * w := by
          have := Nat.mul_le_mul_right w (Nat.succ_le_of_lt h3)
          rw [Nat.succ_mul] at this; exact this
        omega
      · have : e * w + w ≤ f * w := by
          have := Nat.mul_le_mul_right w (Nat.succ_le_of_lt h3)
          rw [Nat.succ_mul] at this; exact this
        omega
    rw [if_neg hd]
  · simp [hj]

/-- A register after the writes of a list of elements, each with a function's value. -/
theorem vElem_vWrite (w : Nat) (g : Nat → Nat) (l : List Nat) (v : VWord) {e : Nat} (h : e * w + w ≤ 2048) :
    vElem (vWrite v w (l.map fun i => (i, g i))) w e = if e ∈ l then g e % 2 ^ w else vElem v w e := by
  induction l generalizing v with
  | nil => simp [vWrite]
  | cons a l ih =>
    have : vWrite v w ((a :: l).map fun i => (i, g i)) = vWrite (vSetElem v w a (g a)) w (l.map fun i => (i, g i)) := rfl
    rw [this, ih]
    by_cases h1 : e ∈ l
    · simp [h1]
    · rw [if_neg h1]
      by_cases h2 : e = a
      · subst h2; rw [vElem_set_same _ _ h]; simp
      · rw [vElem_set_ne _ _ h2]; simp [h1, h2]

theorem mem_activeElems (vl w : Nat) (k : Word) (e : Nat) :
    e ∈ activeElems vl w k ↔ e < elemCount vl w ∧ elemLane w e < vl ∧ k.getLsbD (elemLane w e) = true := by
  simp [activeElems, laneActive]

theorem getLsbD_orFlags (l : List Flags) (b : Nat) : (orFlags l).getLsbD b = l.any fun f => f.getLsbD b := by
  have : ∀ (l : List Flags) (a : Flags), (l.foldl (· ||| ·) a).getLsbD b = (a.getLsbD b || l.any fun f => f.getLsbD b) := by
    intro l
    induction l with
    | nil => intro a; simp
    | cons c l ih => intro a; rw [List.foldl_cons, ih]; simp [Bool.or_assoc]
  rw [orFlags, this]; simp

/-- What an element-wise body leaves. -/
theorem run_elemBody (w : Nat) (m : KReg) (d : VReg) (f : Regs → Nat → Nat × Flags) (σ : At s0) :
    ∃ τ, elemBody w m d f σ = .ok .next τ ∧
      τ.val = (Upd.ctx σ.val.cur { σ.val.ctx σ.val.cur with
        r := { σ.val.regs.setV d (vWrite (σ.val.regs.getV d) w
            ((activeElems σ.val.regs.lanes w (σ.val.regs.getK m)).map fun e => (e, (f σ.val.regs e).1))) with
          flags := σ.val.regs.flags |||
            orFlags ((activeElems σ.val.regs.lanes w (σ.val.regs.getK m)).map fun e => (f σ.val.regs e).2) } }).apply σ.val := by
  refine ⟨_, rfl, ?_⟩
  simp [Ctx.modR, State.regs, Function.comp_def]

theorem run_evenVl {w : Nat} {σ : At s0} (h : w < 64 ∨ σ.val.regs.lanes % 2 = 0) : evenVl w σ = .ok () σ := by
  rw [evenVl, run_bind_ok (run_myCtx σ)]
  refine run_legal ?_ σ
  have h' : w < 64 ∨ (σ.val.ctx σ.val.cur).r.lanes % 2 = 0 := h
  rcases h' with h | h <;> simp [h]

end Sys2Proof.Machine
end

