-- ==== Sys2Proof/Tests/Slice0.lean ====
section
/-! SUPPORT. Tests of the decoder and of single steps, and for every statement a state that meets its hypotheses. -/

namespace Sys2Proof.Tests

open Sys2Proof Sys2Proof.Machine

set_option Elab.async false

/-! ### Decoding: words written out from the spec's encodings -/

/-- The instruction that a base word, without an extension word, stands for. -/
def reads (base : Word) (i : Instr) : Bool := decode base none == .ok i

/-- The instruction that a base word and its extension word stand for. -/
def reads2 (base ext : Word) (i : Instr) : Bool := decode base (some ext) == .ok i

def syImm0 : Sync := { syNone with ext := .imm }
def sySync0 : Sync := { syNone with ext := .sync }
def syWait0 : Sync := { syNone with ext := .sync, wait := some 0 }

/-- The ENG word 0x3000_0000_8000_0000: no wait, no signal, the engine of the cluster. -/
def syEng0 : Sync := { syNone with ext := .eng }

/-- The examples of the entries (R391, R410, R438, R447, R449, R452 to R457, R468, R494). -/
theorem test_decode_scalar_integer :
    reads 0x0101461C00000000 (.add 5 6 7 syNone) = true ∧
    reads 0x020146000FFFFFF0 (.addi 5 6 (BitVec.ofInt 64 (-16)) syNone) = true ∧
    reads 0x1B00C40000000000 (.clz 3 4 syNone) = true ∧ reads 0x0701461C00000000 (.div 5 6 7 syNone) = true ∧
    reads 0x0801461C00000000 (.divu 5 6 7 syNone) = true ∧ reads 0x0901461C00000000 (.rem 5 6 7 syNone) = true ∧
    reads 0x0300820C00000000 (.sub 2 2 3 syNone) = true ∧ reads 0x0401461C00000000 (.mul 5 6 7 syNone) = true ∧
    reads 0x0D01461C00000000 (.or 5 6 7 syNone) = true ∧ reads 0x0E014600000000FF (.ori 5 6 0xFF syNone) = true ∧
    reads 0x0F01461C00000000 (.xor 5 6 7 syNone) = true ∧
    reads 0x100146000FFFFFFF (.xori 5 6 (BitVec.ofInt 64 (-1)) syNone) = true ∧
    reads 0x1C00C40000000000 (.popc 3 4 syNone) = true ∧
    reads 0x1E0440000FFFFFFF (.li 17 (BitVec.ofInt 64 (-1)) syNone) = true ∧
    reads 0x1D01461C80000000 (.sel 5 6 7 8 syNone) = true ∧ reads 0x1200C3000000000B (.shli 3 3 11 syNone) = true ∧
    reads 0x1501461C00000000 (.sra 5 6 7 syNone) = true ∧
    reads 0x190146000FFFFFFF (.slti 5 6 (BitVec.ofInt 64 (-1)) syNone) = true ∧
    reads 0x1A01461C00000000 (.min 5 6 7 syNone) = true ∧ reads 0x1A01461C00001800 (.maxu 5 6 7 syNone) = true := by
  decide +kernel

theorem test_decode_scalar_float :
    reads 0x2002C8280A020000 (.fadd .f32 .rne 11 8 10 syNone) = true ∧
    reads 0x23020928BB020000 (.ffma .f64 .rne 8 9 10 11 syNone) = true ∧
    reads 0x2A0146000B000000 (.fclass .f64 5 6 syNone) = true ∧
    reads 0x2801461C0A001000 (.fcmp .f32 .lt 5 6 7 syNone) = true ∧
    reads 0x2901460002A40000 (.fcvt .i32 .f32 .rtz 5 6 syNone) = true ∧
    reads 0x2601461C0A000000 (.fmin .f32 5 6 7 syNone) = true := by
  decide +kernel

theorem test_decode_branches :
    reads 0x350180000FFFFFFD (.loop 6 (BitVec.ofInt 64 (-3)) syNone) = true ∧
    reads 0x360000003FFFFFFC (.bany 3 (BitVec.ofInt 64 (-4)) syNone) = true := by
  decide +kernel

theorem test_decode_vector :
    reads 0x4001CD380A020000 (.vadd .f32 .rne 0 7 13 14 syNone) = true ∧
    reads 0x4C00420C02001000 (.vcmp .i32 .lt 0 1 2 3 syNone) = true ∧
    reads 0x4E0340000A820000 (.vcvt .f32 .f16 .rne 0 13 0 syNone) = true ∧
    reads 0x4F0145000A002000 (.vexp2 .f32 .dyn 0 5 5 syNone) = true ∧
    reads 0x5100C40000001000 (.vbcast .w 0 3 4 syNone) = true ∧ reads 0x5202070000000000 (.vext 8 7 0 syNone) = true ∧
    reads 0x560547000A000000 (.vred .f32 .add .dyn 0 21 7 syNone) = true ∧
    reads 0x5A00810C0A000000 (.vtopk .f32 0 2 1 3 syNone) = true ∧
    reads 0x5B00010000000000 (.vtag 0 1 0 syNone) = true ∧ reads 0x5C01400000000008 (.setvl 5 0 8 syNone) = true := by
  decide +kernel

theorem test_decode_masks :
    reads 0x6000420C00000000 (.kand 1 2 3 syNone) = true ∧ reads 0x6400870000000800 (.kmov (.kx 2 7) syNone) = true ∧
    reads 0x6501430000000000 (.kpopc 5 3 syNone) = true := by
  decide +kernel

theorem test_decode_memory :
    reads 0x6800810300000000 (.ld .d .global 2 1 (.disp 0) syNone) = true ∧
    reads 0x6801010200000010 (.ld .w .global 4 1 (.disp 16) syNone) = true ∧
    reads 0x6801461F20000000 (.ld .d .global 5 6 (.reg 7) syNone) = true ∧
    reads 0x6902840300000000 (.st .d .global 10 4 (.disp 0) syNone) = true ∧
    reads 0x6900C40280000000 (.st .w .loc 3 4 (.disp 0) syNone) = true ∧
    reads 0x6A00421640000000 (.vld .w .global 0 1 2 (.strided 0 5) syNone) = true ∧
    reads 0x6B00830200000000 (.vst .w .global 0 2 3 (.unit 0) syNone) = true ∧
    reads 0x6C02442A70000008 (.amo .w .global .fadd 9 4 10 8 syNone) = true ∧
    reads 0x6E01840310000000 (.red .d .global .add 6 4 0 syNone) = true ∧
    reads 0x6F00040000000000 (.lease 4 0 syNone) = true ∧ reads 0x7002440000000000 (.unlease 9 4 0 syNone) = true := by
  decide +kernel

theorem test_decode_counters :
    reads 0x8000050100000000 (.cbind 0 5 syNone) = true ∧ reads 0x8100000100000002 (.cmark 0 0 2 syNone) = true ∧
    reads 0x8303D04500110000 (.cwaitAny 15 1 16 17 syNone) = true ∧
    reads 0x8600000200000000 (.fence { syNone with scope := .system }) = true ∧
    reads 0x8700000100000000 (.efence syNone) = true ∧ reads 0x8800196900000000 (.tblfence 25 26 syNone) = true ∧
    reads 0x8900041500020000 (.icinv .die 4 5 syNone) = true := by
  decide +kernel

theorem test_decode_strands :
    reads 0x9000050000000000 (.spawn 5 syNone) = true ∧ reads 0x9100000000000000 (.finish syNone) = true ∧
    reads 0x9300000000000000 (.exit syNone) = true ∧ reads 0x9401460000000000 (.trace 5 6 0 syNone) = true ∧
    reads 0x9500000000000000 (.untrace syNone) = true ∧ reads 0x9600000000000000 (.step syNone) = true := by
  decide +kernel

theorem test_decode_runtime :
    reads 0xC3034A0300000058 (.ldslot 13 10 88 syNone) = true ∧
    reads 0xC4028C0300000070 (.stslot 10 12 112 syNone) = true ∧ reads 0xC7000C0000000070 (.wbar 12 112 syNone) = true ∧
    reads 0xC2000A1800000005 (.guard 10 6 5 syNone) = true ∧ reads 0xC500051800000003 (.tagchk 5 6 3 syNone) = true := by
  decide +kernel

theorem test_decode_system :
    reads 0xD000000000000005 (.trapSys 5 syNone) = true ∧ reads 0xD000000010000000 (.trapBrk 0 syNone) = true ∧
    reads 0xD100000000000000 (.eret syNone) = true ∧ reads 0xD200400000170000 (.srd 1 0x017 syNone) = true ∧
    reads 0xD300040000010000 (.swr 1 4 syNone) = true := by
  decide +kernel

/-- Line 18 of gemm16, `cadd x9, c3, 1 ?c6`, and line 78 of add_guard, `jr x31 ?c0`: the SYNC word follows. -/
theorem test_decode_sync :
    reads2 0x8282400100300001 0x1830000080000000 (.cadd 9 3 0 1 { sySync0 with wait := some 6 }) = true ∧
    reads2 0x33801F0000000000 0x1800000080000000 (.jr 31 0 syWait0) = true := by
  decide +kernel

/-- Engines: the ENG word follows. -/
theorem test_decode_engines :
    reads2 0xA080480000000000 0x3000000080000000 (.mloadw 1 8 .here syEng0) = true ∧
    reads2 0xA581460000800000 0x3000000080000000 (.mstat 5 6 2 .here syEng0) = true ∧
    reads2 0xA581460070800000 0x30000000C0014300 (.mstat 5 6 2 (.remote 0 5 3 7) syEng0) = true ∧
    reads2 0xA480061C00000002 0x3000000080000000 (.mprog 6 7 2 .here syEng0) = true ∧
    reads2 0xA680061C01400000 0x3000000080000000 (.mcap 5 6 7 .here syEng0) = true ∧
    reads2 0xB080040003800000 0x3000000080000000 (.xset 14 4 syEng0) = true ∧
    reads2 0xB2814D0000000000 0x3000000080000000 (.xstat 5 13 syEng0) = true ∧
    reads2 0xB3839B0000000000 0x3000000080000000 (.xresume 14 27 syEng0) = true ∧
    reads2 0xB881461C80400000 0x3000000080000000 (.msgApp 5 6 7 8 syEng0) = true ∧
    reads2 0xB980041400000000 0x3004080480000000
      (.nsend 4 5 { syEng0 with sig := some { slot := 2, inc := 1, atIssue := false } }) = true := by
  decide +kernel

/-- Opcode 0x00, 0xFF and a reserved one hold no instruction (R100), and ADD with FN 1 is no instruction. -/
theorem test_decode_reserved :
    reads 0 (.illegalOpcode 0) = true ∧ reads 0xFF00000000000000 (.illegalOpcode 0xFF00000000000000) = true ∧
    reads 0x6700000000000000 (.illegalOpcode 0x6700000000000000) = true ∧
    decode 0x0101461C00000800 none = .error .illegalField := by
  decide +kernel

/-! ### Well-formedness: a term that each check refuses -/

def bad (i : Instr) : Bool := !i.wf

/-- Extension words: an IMM word without an immediate, an ENG word outside format G, no ENG word in it, a SYNC word that
asks for nothing, a wait without a SYNC word, a signal of 0, a scope that no word holds. -/
theorem test_wf_extension :
    bad (.add 1 2 3 syImm0) = true ∧ bad (.add 1 2 3 syEng0) = true ∧ bad (.xgo 1 syNone) = true ∧
    bad (.add 1 2 3 sySync0) = true ∧ bad (.add 1 2 3 { syNone with wait := some 0 }) = true ∧
    bad (.add 1 2 3 { sySync0 with sig := some { slot := 1, inc := 0, atIssue := false } }) = true ∧
    bad (.add 1 2 3 { syNone with scope := .system }) = true := by decide +kernel

/-- Immediates and displacements that no field holds. -/
theorem test_wf_immediate :
    bad (.addi 1 2 (2 ^ 27) syNone) = true ∧ bad (.addi 1 2 (2 ^ 59) syImm0) = true ∧
    bad (.addi 1 2 (2 ^ 27) syWait0) = true ∧ bad (.shli 1 2 64 syNone) = true ∧ bad (.cadd 1 2 3 65536 syNone) = true ∧
    bad (.ld .w .global 1 2 (.disp (2 ^ 27)) syNone) = true ∧ bad (.ld .w .global 1 2 (.reg 3) syImm0) = true ∧
    bad (.icprobe 1 2 3 65536 syNone) = true := by decide +kernel

/-- Types, roundings and predicates that an entry does not allow. -/
theorem test_wf_type :
    bad (.fadd .f16 .rne 1 2 3 syNone) = true ∧ bad (.fadd .f32 .rsr 1 2 3 syNone) = true ∧
    bad (.fcvt .i32 .i64 .rne 1 2 syNone) = true ∧ bad (.fclass .i32 1 2 syNone) = true ∧
    bad (.vadd .i64 .dyn 0 1 2 3 syNone) = true ∧ bad (.vadd .i32 .rne 0 1 2 3 syNone) = true ∧
    bad (.vfma .i32 .dyn 0 1 2 3 4 syNone) = true ∧ bad (.vand .f32 0 1 2 3 syNone) = true ∧
    bad (.vabs .u32 0 1 2 syNone) = true ∧ bad (.vrcp .f64 .rne 0 1 2 syNone) = true ∧
    bad (.vcmp .i32 .un 0 1 2 3 syNone) = true ∧ bad (.vcvt .f32 .f16 .rne 1 1 2 syNone) = true ∧
    bad (.vdot .i32 .dyn 0 1 2 3 4 syNone) = true ∧ bad (.vred .f32 .and .dyn 0 1 2 syNone) = true ∧
    bad (.vtopk .f64 0 1 2 3 syNone) = true := by decide +kernel

theorem test_wf_memory :
    bad (.amo .d .global .fadd 1 2 3 0 syNone) = true ∧ bad (.red .w .global .swap 1 2 0 syNone) = true ∧
    bad (.vld .d .global 0 1 2 (.indexed 0 3) syNone) = true ∧ bad (.loop 0 (BitVec.ofInt 64 (-1)) syNone) = true := by
  decide +kernel

theorem test_wf_engines :
    bad (.mloadw 0 1 (.remote 0 192 0 2) syEng0) = true ∧ bad (.mmul 0 1 2 false false false false 13 0 15 .here syEng0) = true ∧
    bad (.mmul 0 1 2 false false false false 0 9 15 .here syEng0) = true ∧
    bad (.mmul 0 1 2 false false false true 0 0 15 .here syEng0) = true ∧
    bad (.mgrad 0 1 2 false false 0 13 0 0 0 .here syEng0) = true ∧
    bad (.mdrain 0 1 2 false true false false 0 .rne 15 .here syEng0) = true ∧ bad (.mprog 1 2 5 .here syEng0) = true ∧
    bad (.mstat 1 2 6 .here syEng0) = true ∧ bad (.mcap 0 1 2 (.remote 0 0 0 5) syEng0) = true ∧
    bad (.xset 21 1 syEng0) = true ∧ bad (.nred true .bf16 0 1 2 syEng0) = true := by decide +kernel

theorem test_wf_system :
    bad (.srd 1 4 syNone) = true ∧ bad (.swr 0x40 1 syNone) = true ∧ bad (.illegalOpcode 0x0100000000000000) = true ∧
    bad (.reset) = true := by decide +kernel

/-! ### Small states -/

/-- Context 0 of core 0 runs in user mode at 0x20000 of address space 0, which maps the first 512 MiB of the module behind
memory link 0. -/
def base : State := State.reset.withFetchWord 128 0

/-- The same of context 0 of core 1,536, an Easel core. -/
def easel : State := { State.reset.withFetchWord 64 0xC000000000000000 with cur := 24576 }

/-- Another context of the strand that executes, and other registers. -/
def withC (s : State) (f : Ctx → Ctx) : State := { s with ctxs := TMap.put s.ctxs s.cur (f (s.ctx s.cur)) }
def withR (s : State) (f : Regs → Regs) : State := withC s fun c => { c with r := f c.r }
def withX (s : State) (l : TMap Word) : State := withR s fun r => { r with x := l }
def withMode (s : State) (m : Mode) : State := withR s fun r => { r with mode := m }
def withMem (s : State) (pa : Nat) (ws : List Word) : State :=
  { s with mem := ws.zipIdx.foldl (fun m p => putBytes m (pa + 8 * p.2) 8 p.1.toNat) s.mem }
def withDie (s : State) (n : Nat) (f : Die → Die) : State := { s with dies := TMap.put s.dies n (f (s.die n)) }
def withCore (s : State) (n : Nat) (f : Core → Core) : State := { s with cores := TMap.put s.cores n (f (s.core n)) }

/-- A property of every element of a list. -/
theorem allMem {α : Type} {P : α → Prop} [DecidablePred P] {l : List α} (h : (l.all fun a => decide (P a)) = true) :
    ∀ a ∈ l, P a := fun a ha => of_decide_eq_true (List.all_eq_true.1 h a ha)

theorem base_alone : base.Alone := by unfold State.Alone; decide +kernel
theorem easel_alone : easel.Alone := by unfold State.Alone; decide +kernel

/-! ### States that meet the hypotheses of the statements -/

theorem witness_ScalarIntegerResult :
    Expected.scalarInt (.div 5 6 7 syNone) (withX base [(6, 7)]).regs = some (5, 0xFFFFFFFFFFFFFFFF, syNone) ∧
    (withX base [(6, 7)]).Quiet syNone := by
  unfold State.Quiet State.Alone
  decide +kernel

theorem witness_ScalarFloatResult :
    Expected.scalarFp (.fadd .f32 .rne 1 2 3 syNone) (withX base [(2, 0x3F800000), (3, 0x40000000)]).regs =
      some (1, (0x40400000, 0), syNone) ∧ base.Quiet syNone := by
  unfold State.Quiet State.Alone
  decide +kernel

theorem base_quiet : base.Quiet syNone := ⟨rfl, rfl, base_alone⟩

/-- A branch that is taken and one that is not. -/
theorem witness_BranchResult :
    (Expected.branch (.br .eq 1 2 4 syNone) base.regs).map (fun p => (p.1.pc, p.2)) = some (0x20020, syNone) ∧
    (Expected.branch (.br .ne 1 2 4 syNone) base.regs).map (fun p => (p.1.pc, p.2)) = some (0x20008, syNone) ∧
    base.Quiet syNone := by
  unfold State.Quiet State.Alone
  and_intros <;> decide +kernel

def vl63 : State := withR base fun r => { r with vl := 63 }

/-- 32-bit elements, 64-bit ones with an even sr.vl, and with an odd one. -/
theorem witness_ElementwiseResult :
    (Expected.elementwise (.vadd .i32 .dyn 0 1 2 3 syNone) (vlMax (coreOf base.cur)) base.regs).map
      (fun p => (p.1, p.2.1, p.2.2.1, p.2.2.2.2)) = some (32, 0, 1, syNone) ∧
    (Expected.elementwise (.vadd .f64 .rne 0 1 2 3 syNone) (vlMax (coreOf base.cur)) base.regs).map
      (fun p => (p.1, p.2.1, p.2.2.1, p.2.2.2.2)) = some (64, 0, 1, syNone) ∧ base.regs.vl.toNat % 2 = 0 ∧
    (Expected.elementwise (.vadd .f64 .rne 0 1 2 3 syNone) (vlMax (coreOf vl63.cur)) vl63.regs).map
      (fun p => (p.1, p.2.1, p.2.2.1, p.2.2.2.2)) = some (64, 0, 1, syNone) ∧ vl63.regs.vl.toNat % 2 = 1 ∧
    base.Quiet syNone ∧ vl63.Quiet syNone ∧ vl63.doubleTrap = false := by
  unfold State.Quiet State.Alone
  and_intros <;> decide +kernel

theorem witness_MaskResult :
    (Expected.masks (.kand 1 2 3 syNone) (vlMax (coreOf base.cur)) base.regs).map (·.2) = some syNone ∧
    (Expected.lanewise (.vtopk .f32 0 2 1 3 syNone) (vlMax (coreOf base.cur)) base.regs).map
      (fun p => (p.1, p.2.2.1, p.2.2.2)) = some (2, 0, syNone) ∧
    base.Quiet syNone ∧ base.regs.vl.toNat ≤ 64 := by
  unfold State.Quiet State.Alone
  and_intros <;> decide +kernel

theorem witness_VectorCompareResult : base.Quiet syNone ∧ base.regs.vl.toNat ≤ 64 := by
  unfold State.Quiet State.Alone
  and_intros <;> decide +kernel

/-- Equal and different widths with an odd sr.vl, and 64-bit elements with an even one. -/
theorem witness_VectorConvertResult :
    vl63.Quiet syNone ∧ max Ty.i32.bits Ty.f32.bits < 64 ∧ max Ty.f32.bits Ty.f16.bits < 64 ∧ vl63.regs.vl.toNat ≤ 64 ∧
    base.Quiet syNone ∧ base.regs.vl.toNat % 2 = 0 ∧ base.regs.vl.toNat ≤ 64 := by
  unfold State.Quiet State.Alone
  and_intros <;> decide +kernel

/-- The last tag plane of the store; an offset that is misaligned, one past the store; an Easel core. -/
theorem witness_TagPlaneResult :
    let at_ (s : State) (v : Word) : State := withX s [(1, v)]
    (at_ base 0x3FFFC0).Quiet syNone ∧ coreOf (at_ base 0x3FFFC0).cur < 1536 ∧
    ((at_ base 0x3FFFC0).regs.getX 1).toNat % 64 = 0 ∧ ((at_ base 0x3FFFC0).regs.getX 1).toNat ≤ 0x3FFFC0 ∧
    (at_ base 0x3FFFC0).doubleTrap = false ∧
    (at_ base 1).Quiet syNone ∧ ((at_ base 1).regs.getX 1).toNat % 64 ≠ 0 ∧
    (at_ base 0x400000).Quiet syNone ∧ ((at_ base 0x400000).regs.getX 1).toNat % 64 = 0 ∧
    0x3FFFC0 < ((at_ base 0x400000).regs.getX 1).toNat ∧ easel.Quiet syNone ∧ 1536 ≤ coreOf easel.cur ∧
    easel.doubleTrap = false := by
  unfold State.Quiet State.Alone
  and_intros <;> decide +kernel

def kernel : State := withMode base .kernel
def monitor : State := withMode base .monitor

/-- sr.launch, which a strand reads; sr.fcsr, which it writes; sr.epc, which a kernel reads and writes; no register. -/
theorem witness_SpecialRegisterAccess :
    (Expected.special base 0x017).map (fun p => (p.1, p.2.1)) = some (0, none) ∧
    (Expected.special base 0x001).map (fun p => (p.1, p.2.1)) = some (0, some 0) ∧ Expected.level base.regs.mode = 0 ∧
    (Expected.special kernel 0x021).map (fun p => (p.1, p.2.1)) = some (1, some 1) ∧ Expected.level kernel.regs.mode = 1 ∧
    (Expected.special base 0x021).map (fun p => (p.1, p.2.1)) = some (1, some 1) ∧
    Expected.special base 0x004 = none ∧ (Expected.special kernel 0x023).map (fun p => (p.1, p.2.1)) = some (1, some 1) ∧
    (withX kernel [(1, 8)]).regs.mode = .kernel ∧ ((withX kernel [(1, 8)]).regs.getX 1).toNat / 4 % 4 = 2 ∧
    base.Quiet syNone ∧ base.doubleTrap = false ∧ kernel.Quiet syNone ∧ (withX kernel [(1, 8)]).Quiet syNone ∧
    (withX kernel [(1, 8)]).doubleTrap = false := by
  unfold State.Quiet State.Alone
  and_intros <;> decide +kernel

/-- A trap that stays in the core, one that enters the monitor, one that enters the kernel. -/
theorem witness_TrapEntry :
    ((withR monitor fun r => { r with mintrap := true }).ctx 0).r.mode = .monitor ∧
    ((withR monitor fun r => { r with mintrap := true }).ctx 0).r.mintrap = true ∧
    (monitor.ctx 0).r.mode = .monitor ∧ (monitor.ctx 0).r.mintrap = false ∧
    ((withR kernel fun r => { r with intrap := true }).ctx 0).r.mode = .kernel ∧
    ((withR kernel fun r => { r with intrap := true }).ctx 0).r.intrap = true ∧
    (kernel.ctx 0).r.mode = .kernel ∧ (kernel.ctx 0).r.intrap = false ∧ (base.ctx 0).r.mode = .user := by
  and_intros <;> decide +kernel

theorem witness_TrapInstructionResult :
    base.Quiet syNone ∧ base.doubleTrap = false ∧ base.regs.mode = .user ∧
    (base.die (dieOf base.cur)).sysring.getLsbD 4 = false ∧ (base.ctx base.cur).wait = none ∧
    (base.ctx base.cur).prog.ans = none ∧ kernel.Quiet syNone ∧ kernel.regs.mode = .kernel ∧ monitor.Quiet syNone ∧
    monitor.regs.mode = .monitor ∧ (base.core (coreOf base.cur)).trace = .none := by
  unfold State.Quiet State.Alone
  and_intros <;> decide +kernel

/-- A strand in user mode whose region 0 holds the last 256 bytes of the local store, and x1 its address. -/
def loc (v : Word) : State :=
  withX (withR base fun r => { r with lsbase := [(0, 0xE00000000007FF00)], lslim := [(0, 0x7FF00)] }) [(1, v)]

/-- The last doubleword of the store, and a vector of words. -/
theorem witness_LocalLoadResult :
    (loc 0x7FFF8).Quiet syNone ∧ Expected.LocalAccess (loc 0x7FFF8) true false (Expected.address1 (loc 0x7FFF8).regs 1 (.disp 0)) 8 ∧
    Expected.LocalClean (loc 0x7FFF8) (Expected.address1 (loc 0x7FFF8).regs 1 (.disp 0)) 8 ∧
    (loc 0x7FF00).Quiet syNone ∧ Expected.EnginesIdle (loc 0x7FF00) ∧
    ∀ e ∈ Expected.elements (loc 0x7FF00).regs .w 0,
      Expected.LocalAccess (loc 0x7FF00) true false (Expected.addressV (loc 0x7FF00).regs .w 1 (.unit 0) e) 4 ∧
      Expected.LocalClean (loc 0x7FF00) (Expected.addressV (loc 0x7FF00).regs .w 1 (.unit 0) e) 4 := by
  unfold State.Quiet State.Alone Expected.LocalAccess Expected.LocalClean Expected.EnginesIdle
  and_intros <;> decide +kernel

theorem witness_LocalStoreResult :
    (loc 0x7FFF8).Quiet syNone ∧ Expected.LocalAccess (loc 0x7FFF8) false true (Expected.address1 (loc 0x7FFF8).regs 1 (.disp 0)) 8 ∧
    (loc 0x7FF00).Quiet syNone ∧ (loc 0x7FF00).regs.vl.toNat % 2 = 0 ∧ Expected.EnginesIdle (loc 0x7FF00) ∧
    ∀ e ∈ Expected.elements (loc 0x7FF00).regs .w 0,
      Expected.LocalAccess (loc 0x7FF00) false true (Expected.addressV (loc 0x7FF00).regs .w 1 (.unit 0) e) 4 := by
  unfold State.Quiet State.Alone Expected.LocalAccess Expected.EnginesIdle
  and_intros <;> decide +kernel

theorem witness_LocalAtomicResult :
    (loc 0x7FFFC).Quiet syNone ∧ Expected.LocalClean (loc 0x7FFFC) ((loc 0x7FFFC).regs.getX 1 + 0) 4 ∧
    Expected.LocalAccess (loc 0x7FFFC) true true ((loc 0x7FFFC).regs.getX 1 + 0) 4 ∧
    Expected.LocalAccess (loc 0x7FFFC) false true ((loc 0x7FFFC).regs.getX 1 + 0) 4 := by
  unfold State.Quiet State.Alone Expected.LocalAccess Expected.LocalClean
  and_intros <;> decide +kernel

/-- The second byte is poisoned; an access one byte below the region. -/
theorem witness_LocalAccessErrors :
    let p : State := { loc 0x7FFF8 with lsBad := [0x7FFF9] }
    p.Quiet syNone ∧ Expected.LocalAccess p true false (Expected.address1 p.regs 1 (.disp 0)) 8 ∧
    (p.ctx p.cur).phase = .running ∧ (p.ctx p.cur).pend.length < 8 ∧ NatSet.has p.lsBad (Expected.localKey p 0x7FFF9) = true ∧
    (∀ j < 1, NatSet.has p.lsBad (Expected.localKey p (0x7FFF8 + j)) = false) ∧
    (loc 0x7FEFF).Quiet syNone ∧ (loc 0x7FEFF).doubleTrap = false ∧
    Expected.accesses (.ld .b .loc 2 1 (.disp 0) syNone) (loc 0x7FEFF).regs = some (.loc, 1, [0x7FEFF], syNone) ∧
    ¬ Expected.LocalAccess (loc 0x7FEFF) true false 0x7FEFF 1 := by
  unfold State.Quiet State.Alone Expected.LocalAccess
  and_intros <;> decide +kernel

theorem witness_MisalignedElementTraps :
    (loc 0x7FFFE).Quiet syNone ∧ (loc 0x7FFFE).doubleTrap = false ∧
    Expected.accesses (.ld .w .global 2 1 (.disp 0) syNone) (loc 0x7FFFE).regs = some (.global, 4, [0x7FFFE], syNone) ∧
    (0x7FFFE : Word).toNat % 4 ≠ 0 := by
  unfold State.Quiet State.Alone
  and_intros <;> decide +kernel

/-- x1 is a global address. -/
def glob (v : Word) : State := withX base [(1, v)]

/-- No line is cached of an address where neither L1 nor L2 holds one. -/
theorem no_lines {s : State} {core : Nat} {asid : BitVec 16} {va : Word} {P : L1Line → Prop}
    (h1 : (s.core (s.l1Core core va)).l1 = []) (h2 : (s.die (dieOfCore core)).l2 = []) :
    ∀ x, Expected.Caches s core asid va x → P x := by
  rintro x ⟨k, h, _⟩
  rw [h1, h2] at h
  simp at h

/-- L1 holds the line of x1 in an earlier version, by a lease that ends at the strand's time. -/
def heldLine : L1Line :=
  { leaf := some ((glob 0x40008).walk 0 0 0x40008), valid := BitVec.allOnes 256, owned := false
    bytes := List.replicate 256 1, wts := 0, rts := 0 }

def leasedCopy : State :=
  let s := (Upd.core 0 { (glob 0x40008).core 0 with l1 := [(0x40000, heldLine)] }).apply (glob 0x40008)
  withDie s 0 fun d => { d with tlb := [(4, [(glob 0x40008).walk 0 0 0x40008])] }

theorem held_only (y : L1Line) (h : Expected.Caches leasedCopy (coreOf leasedCopy.cur) leasedCopy.regs.asid 0x40008 y) :
    y = heldLine := by
  obtain ⟨k, h, _⟩ := h
  have h1 : (leasedCopy.core (leasedCopy.l1Core (coreOf leasedCopy.cur) 0x40008)).l1 = [(0x40000, heldLine)] := by decide +kernel
  have h2 : (leasedCopy.die (dieOfCore (coreOf leasedCopy.cur))).l2 = [] := by decide +kernel
  rw [h1, h2] at h
  simp only [List.mem_singleton, List.not_mem_nil, and_false, or_false] at h
  exact congrArg Prod.snd h

theorem witness_GlobalLoadResult_held :
    leasedCopy.Quiet syNone ∧ leasedCopy.cur < 25088 ∧ leasedCopy.primer.region = [] ∧ (leasedCopy.ctx leasedCopy.cur).lines = [] ∧
    Expected.address1 leasedCopy.regs 1 (.disp 0) = 0x40008 ∧
    Expected.Translates leasedCopy (leasedCopy.reqOf leasedCopy.cur) .load 0x40008 0x40008 ∧
    leasedCopy.leasedByOther leasedCopy.cur 0x40008 = false ∧
    Expected.Readable leasedCopy (leasedCopy.reqOf leasedCopy.cur) 0x40008 0x40008 ∧
    Expected.Clean leasedCopy 0x40008 8 ∧
    Expected.Caches leasedCopy (coreOf leasedCopy.cur) leasedCopy.regs.asid 0x40008 heldLine ∧
    (∀ y, Expected.Caches leasedCopy (coreOf leasedCopy.cur) leasedCopy.regs.asid 0x40008 y → y = heldLine) ∧
    heldLine.place (leasedCopy.reqOf leasedCopy.cur) 0x40008 = .ok (.phys 0x40008) ∧
    leasedCopy.cached (dieOf leasedCopy.cur) leasedCopy.regs.asid 0x40008 ≠ [] ∧ heldLine.bytes.length = 256 ∧
    leasedCopy.pts leasedCopy.cur ≤ heldLine.rts := by
  unfold State.Quiet State.Alone Expected.Translates Expected.Readable Expected.Clean Expected.NoPartials
  and_intros
  all_goals
    first
      | exact held_only
      | exact ⟨0x40000, by decide +kernel⟩
      | decide +kernel

/-- The 64 words from x1 on. -/
theorem glob_maps : ∀ e ∈ Expected.elements (glob 0x40008).regs .w 0,
    Expected.Maps (glob 0x40008) .load (Expected.addressV (glob 0x40008).regs .w 1 (.unit 0) e) (0x40008 + 4 * e) := by
  have h : ∀ e ∈ Expected.elements (glob 0x40008).regs .w 0,
      let va := Expected.addressV (glob 0x40008).regs .w 1 (.unit 0) e
      Expected.Translates (glob 0x40008) ((glob 0x40008).reqOf (glob 0x40008).cur) .load va (0x40008 + 4 * e) ∧
      (glob 0x40008).leasedByOther (glob 0x40008).cur (0x40008 + 4 * e) = false ∧
      Expected.Readable (glob 0x40008) ((glob 0x40008).reqOf (glob 0x40008).cur) va (0x40008 + 4 * e) ∧
      ((glob 0x40008).core ((glob 0x40008).l1Core (coreOf (glob 0x40008).cur) va)).l1 = [] := by
    unfold Expected.Translates Expected.Readable
    decide +kernel
  intro e he
  obtain ⟨ht, hl, hr, h1⟩ := h e he
  exact ⟨by decide +kernel, by decide +kernel, ht, hl, hr, no_lines h1 (by decide +kernel)⟩

theorem glob_clean : ∀ e ∈ Expected.elements (glob 0x40008).regs .w 0, Expected.Clean (glob 0x40008) (0x40008 + 4 * e) 4 := by
  unfold Expected.Clean Expected.NoPartials
  decide +kernel

theorem witness_GlobalLoadResult :
    (glob 0x40008).Quiet syNone ∧ ((glob 0x40008).ctx (glob 0x40008).cur).lines = [] ∧
    Expected.address1 (glob 0x40008).regs 1 (.disp 0) = 0x40008 ∧ Expected.Maps (glob 0x40008) .load 0x40008 0x40008 ∧
    Expected.Clean (glob 0x40008) 0x40008 8 ∧ (glob 0x40008).regs.vl.toNat % 2 = 0 ∧ Expected.NoOthers (glob 0x40008) ∧
    ∀ e ∈ Expected.elements (glob 0x40008).regs .w 0,
      (Expected.addressV (glob 0x40008).regs .w 1 (.unit 0) e).toNat % 4 = 0 ∧
      Expected.Maps (glob 0x40008) .load (Expected.addressV (glob 0x40008).regs .w 1 (.unit 0) e) (0x40008 + 4 * e) ∧
      Expected.Clean (glob 0x40008) (0x40008 + 4 * e) 4 := by
  unfold State.Quiet State.Alone Expected.NoOthers Expected.EnginesIdle Expected.Maps Expected.Translates Expected.Readable Expected.Clean Expected.NoPartials
  and_intros
  all_goals
    first
      | exact no_lines (by decide +kernel) (by decide +kernel)
      | exact fun e he => ⟨allMem (P := fun e => (Expected.addressV (glob 0x40008).regs .w 1 (.unit 0) e).toNat % 4 = 0)
          (by decide +kernel) e he, glob_maps e he, glob_clean e he⟩
      | decide +kernel

theorem witness_GlobalAtomicResult :
    (glob 0x4000C).Quiet syNone ∧ ((glob 0x4000C).ctx (glob 0x4000C).cur).lines = [] ∧
    ((glob 0x4000C).regs.getX 1 + 0).toNat % 4 = 0 ∧ Expected.Maps (glob 0x4000C) .atomic ((glob 0x4000C).regs.getX 1 + 0) 0x4000C ∧
    Expected.Clean (glob 0x4000C) 0x4000C 4 := by
  unfold State.Quiet State.Alone Expected.Maps Expected.Translates Expected.Readable Expected.Clean Expected.NoPartials
  and_intros
  all_goals first | exact no_lines (by decide +kernel) (by decide +kernel) | decide +kernel

/-! Counters at 0x2000_0000 above the frames that hold them, 256 slots, and every access table open to the parties of die 0. -/

def enrich (s : State) : State :=
  let s := withMem s 0x10008 [0xC802000000000000]
  let s := withC s fun c => { c with nslots := 256 }
  withDie s 0 fun d =>
    { d with
      access := (List.range 5).flatMap fun t =>
        [0, 1536, 1568, 1760, 1952, 1960, 1968, 1976, 1984].map fun m => (2048 * t + m, 0xF00000000000FFFF) }

def rich : State := enrich base

theorem noWaiters {s : State} (h : (s.ctxs.all fun p => p.2.wait.isNone) = true) (h2 : s.threads = []) (k c : Nat) :
    Expected.NoWaiters s k c := by
  constructor
  · intro p hp w hw
    have := List.all_eq_true.1 h p hp
    rw [hw] at this
    cases this
  · rw [h2]
    intro p hp
    cases hp

/-- No context waits on a counter, and no packet on this one. -/
theorem unwatched_of {s : State} {c : Ctr}
    (h : (s.ctxs.all fun p => match p.2.wait with | none => true | some w => w.watches.isEmpty) = true)
    (h2 : (s.threads.all fun p => match p.2.st with | .waits _ w _ _ => decide (w.ctr ≠ c) | _ => true) = true) :
    Expected.Unwatched s c := by
  refine ⟨fun p hp w hw y hy => ?_, fun p hp f w d b hs => ?_⟩
  · have := List.all_eq_true.1 h p hp
    rw [hw] at this
    simp only [List.isEmpty_iff] at this
    rw [this] at hy
    cases hy
  · have := List.all_eq_true.1 h2 p hp
    rw [hs] at this
    simpa using this

/-- x1 is a global address, and x2 a heap pointer. -/
def heaped : State := withX base [(1, 0x40008), (2, 0x50010)]

/-- x1 is the address of LEASECFG of die 0, which only a kernel may write. -/
def configured : State := withX (withMem rich 0x10010 [0xC002000006000000]) [(1, 0x40000400)]

/-- ST and RED.fadd of a strand that holds no line; ST to a configuration register by a user; STSLOT of a heap pointer and of a
small integer. -/
theorem witness_StoreBufferResult :
    Expected.stores (.st .d .global 2 1 (.disp 0) syNone) (glob 0x40008).regs = some (8, none, true, [(0x40008, 0)], syNone) ∧
    Expected.stores (.red .w .global .fadd 2 1 0 syNone) (glob 0x40008).regs =
      some (4, some .fadd, false, [(0x40008, 0)], syNone) ∧
    (glob 0x40008).Quiet syNone ∧ Expected.Bufferable (glob 0x40008) [0x40008] 8 ∧
    (∀ p ∈ [(0x40008, 0)], Expected.NoConfig (glob 0x40008) (p : Word × Word).1) ∧
    (let va := Expected.address1 configured.regs 1 (.disp 0)
     let e := configured.walk (dieOf configured.cur) configured.regs.asid va
     configured.Quiet syNone ∧ configured.doubleTrap = false ∧ va.toNat % 8 = 0 ∧ va.toNat / 2 ^ 48 % 2 ^ 8 = 0 ∧
      vaNode va = configured.nodeId ∧ leafV e.leaf = true ∧ leafFar e.leaf = false ∧
      configured.contOthers (dieOf configured.cur) configured.regs.asid va e = [] ∧
      (∀ x ∈ configured.cached (dieOf configured.cur) configured.regs.asid va, x = e) ∧ isConfig (leafPa e va) = true ∧
      configured.checkLeaf (configured.reqOf configured.cur) .store va e = .ok (.phys (leafPa e va)) ∧
      cfgRegAt (leafPa e va) = some (.leasecfg 0) ∧ (CfgReg.leasecfg 0).guard.admits configured.regs.mode = false) ∧
    heaped.Quiet syNone ∧ Expected.Bufferable heaped [heaped.regs.getX 1 + 0, card (heaped.regs.getX 1 + 0)] 1 ∧
    heaped.regs.getX 2 ≠ 0 ∧ (heaped.regs.getX 2).toNat % 8 = 0 ∧
    Expected.Bufferable (glob 0x40008) [(glob 0x40008).regs.getX 1 + 0, card ((glob 0x40008).regs.getX 1 + 0)] 1 ∧
    (glob 0x40008).regs.getX 2 = 0 := by
  unfold State.Quiet State.Alone Expected.Bufferable Expected.NoConfig
  and_intros <;>
    first
      | exact allMem (by decide +kernel)
      | decide +kernel
      | rfl

/-- Three live leases on other lines; UNLEASE of a line with and without one. -/
theorem witness_LeaseResult :
    let l (n : Nat) : Lease :=
      { va := BitVec.ofNat 64 (256 * n), asid := 0, line := n, granted := 0, bound := 0x1000, live := true }
    let s := withC (glob 0x40008) fun c => { c with leases := [l 0x401, l 0x402, l 0x403] }
    s.Quiet syNone ∧ (s.ctx s.cur).lines = [] ∧ Expected.Maps s .lease (s.regs.getX 1 + 0) 0x40008 ∧
    (∀ x ∈ (s.ctx s.cur).leases, x.va = 0x40000 → x.asid = (s.ctx s.cur).r.asid → x.live = false) ∧
    ((s.ctx s.cur).leases.filter (·.live)).length < 4 ∧
    (s.ctx s.cur).leases.find? (fun x => x.va == 0x40000 && x.asid == (s.ctx s.cur).r.asid) = none ∧
    (s.ctx s.cur).leases.find? (fun x => x.va == 0x40100 && x.asid == (s.ctx s.cur).r.asid) = some (l 0x401) ∧
    (s.ctx s.cur).leasesLost = false ∧ (s.ctxs.all fun p => p.2.wait.isNone) = true := by
  unfold State.Quiet State.Alone Expected.Maps Expected.Translates Expected.Readable
  and_intros
  all_goals first | exact no_lines (by decide +kernel) (by decide +kernel) | decide +kernel

/-- The last slot: its own cell, another cell of the core; a misaligned reference, and one to another core's cell. -/
theorem witness_SlotResult :
    let s (v : Word) : State := withX rich [(1, v)]
    (s 0).Quiet syNone ∧ ((s 0).ctx (s 0).cur).lines = [] ∧ (255 : BitVec 8).toNat < ((s 0).ctx (s 0).cur).nslots ∧ (s 0).regs.getX 1 = 0 ∧
    Expected.cellOf (s 0) 255 = some (0, 255) ∧
    (s 0x00C1000000000007).Quiet syNone ∧ isLocalRef 0x00C1000000000007 = true ∧
    (s 0x00C1000000000007).localRef 0x00C1000000000007 = some (coreOf (s 0x00C1000000000007).cur, 7) ∧
    (s 0x20040004).Quiet syNone ∧ (s 0x20040004).doubleTrap = false ∧ isLocalRef 0x20040004 = false ∧
    (0x20040004 : Word).toNat % 8 ≠ 0 ∧
    (s 0x00C1000000010007).Quiet syNone ∧ isLocalRef 0x00C1000000010007 = true ∧
    (s 0x00C1000000010007).localRef 0x00C1000000010007 = some (1, 7) := by
  unfold State.Quiet State.Alone
  and_intros <;> decide +kernel

/-- A counter at 0x2004_0008, in a register and in the slot 255. -/
def homed : State :=
  withR (withX rich [(1, 0x20040008), (2, 5)]) fun r =>
    { r with slots := [(255, { ref := 0x20040008, mark := 0, gen := 0, loc := false })] }

theorem homed_settled : Expected.Settled homed := by unfold Expected.Settled; decide +kernel

theorem witness_HomeCounterResult :
    homed.Quiet syNone ∧ (255 : BitVec 8).toNat < (homed.ctx homed.cur).nslots ∧ isLocalRef 0x20040008 = false ∧
    (0x20040008 : Word).toNat % 8 = 0 ∧ Expected.Maps homed (.counter true true) 0x20040008 0x40008 ∧ Expected.Clean homed 0x40008 8 ∧
    (homed.ctx homed.cur).lines = [] ∧
    homed.regs.getX 1 = 0x20040008 ∧ (homed.slot homed.cur 255).ref = 0x20040008 ∧
    admits (homed.access (paDie 0x40008) 1 (homed.reqOf homed.cur).master) true false (homed.reqOf homed.cur).byUser
      homed.regs.asid = true ∧
    admits (homed.access (paDie 0x40008) 1 (homed.reqOf homed.cur).master) false true (homed.reqOf homed.cur).byUser
      homed.regs.asid = true ∧
    Expected.Settled homed ∧ (homed.regs.getX 2 + 0).toNat < 2 ^ 48 ∧
    Expected.memValue homed 0x40008 8 + (homed.regs.getX 2 + 0).toNat < 2 ^ 64 ∧
    Expected.Unwatched homed (.home 0x40008) := by
  unfold State.Quiet State.Alone Expected.Maps Expected.Translates Expected.Readable Expected.Clean Expected.NoPartials Expected.Settled
  and_intros
  all_goals first | exact no_lines (by decide +kernel) (by decide +kernel) | exact (unwatched_of (by decide +kernel) (by decide +kernel)).1 | exact (unwatched_of (by decide +kernel) (by decide +kernel)).2 | decide +kernel

/-- Slot 0 is bound to cell 0 of core 0, which holds v; x1 is the amount. -/
def celled (v amount : Word) : State := { withX rich [(1, amount)] with cells := [(0, { v := v, g := 3 })] }

/-- The largest amount with a sum that fits, one that does not fit, an amount that is too large; CRESET by a kernel. -/
theorem witness_CounterUpdateResult :
    (celled 5 (2 ^ 48 - 1)).Quiet syNone ∧ (0 : BitVec 8).toNat < ((celled 5 (2 ^ 48 - 1)).ctx 0).nslots ∧
    Expected.Settled (celled 5 (2 ^ 48 - 1)) ∧ Expected.cellOf (celled 5 (2 ^ 48 - 1)) 0 = some (0, 0) ∧
    ((celled 5 (2 ^ 48 - 1)).regs.getX 1 + 0).toNat < 2 ^ 48 ∧
    ((celled 5 (2 ^ 48 - 1)).cell 0 0).v.toNat + ((celled 5 (2 ^ 48 - 1)).regs.getX 1 + 0).toNat < 2 ^ 64 ∧
    2 ^ 64 ≤ ((celled (2 ^ 64 - 1) 1).cell 0 0).v.toNat + ((celled (2 ^ 64 - 1) 1).regs.getX 1 + 0).toNat ∧
    (celled (2 ^ 64 - 1) 1).doubleTrap = false ∧ Expected.cellOf (celled (2 ^ 64 - 1) 1) 0 = some (0, 0) ∧
    2 ^ 48 ≤ ((celled 5 (2 ^ 48)).regs.getX 1 + 0).toNat ∧ Expected.cellOf (celled 5 (2 ^ 48)) 0 = some (0, 0) ∧
    Expected.NoWaiters (celled 5 (2 ^ 48 - 1)) 0 0 ∧ Expected.NoWaiters (celled (2 ^ 64 - 1) 1) 0 0 ∧
    Expected.NoWaiters (celled 5 (2 ^ 48)) 0 0 ∧ (withMode (celled 5 0) .kernel).regs.mode ≠ .user ∧
    Expected.cellOf (withMode (celled 5 0) .kernel) 0 = some (0, 0) ∧ Expected.NoWaiters (withMode (celled 5 0) .kernel) 0 0 ∧
    ((withMode (celled 5 0) .kernel).ctx (withMode (celled 5 0) .kernel).cur).lines = [] ∧
    (∀ h ∈ (withMode (celled 5 0) .kernel).held, h.ctr ≠ .cell 0 0) ∧ (celled 5 (2 ^ 48 - 1)).regs.mode = .user := by
  unfold State.Quiet State.Alone Expected.Settled
  and_intros <;>
    first
      | exact (noWaiters (by decide +kernel) (by decide +kernel) 0 0).1
      | exact (noWaiters (by decide +kernel) (by decide +kernel) 0 0).2
      | decide +kernel

/-- Slot 0 with MARK 5, x1 all ones (no timeout), x2 the mask of slots 0 and 63. -/
def waiting (v : Word) : State :=
  withR { withX rich [(1, BitVec.allOnes 64), (2, 0x8000000000000001)] with cells := [(0, { v := v, g := 3 })] } fun r =>
    { r with
      slots := [(0, { ref := 0x00C1000000000000, mark := 5, gen := 3, loc := true }),
        (63, { ref := 0x00C1000000000001, mark := 5, gen := 3, loc := true })] }

/-- The three forms; V at MARK, V one below it with a timeout of 0. -/
theorem witness_CounterWaitResult :
    Expected.cwait (.cwait 3 0 0 syNone) (waiting 5).regs = some (3, [0], false, 0, 0, false, syNone) ∧
    Expected.cwait (.cwaitAny 3 0 2 0 syNone) (waiting 5).regs = some (3, [0, 63], false, 0, 0, true, syNone) ∧
    Expected.cwait (.cwaitAll 3 0 2 0 syNone) (waiting 4).regs = some (3, [0, 63], true, 0, 0, false, syNone) ∧
    (waiting 5).Quiet syNone ∧ (waiting 4).Quiet syNone ∧ ((waiting 5).ctx (waiting 5).cur).prog = Progress.none ∧
    ((waiting 4).ctx (waiting 4).cur).prog = Progress.none ∧ ((waiting 5).ctx (waiting 5).cur).lines = [] ∧
    ((waiting 4).ctx (waiting 4).cur).lines = [] ∧
    (∀ m ∈ [0, 63], m < ((waiting 5).ctx (waiting 5).cur).nslots ∧ m < 256 ∧ (Expected.cellOf (waiting 5) m).isSome) ∧
    (∀ m ∈ [0, 63], m < ((waiting 4).ctx (waiting 4).cur).nslots ∧ m < 256 ∧ (Expected.cellOf (waiting 4) m).isSome) ∧
    Expected.satisfied (waiting 5) 0 = true ∧ Expected.satisfied (waiting 4) 0 = false := by
  unfold State.Quiet State.Alone
  and_intros <;> first | rfl | decide +kernel

def syW : Sync := { syNone with ext := .sync, wait := some 0 }

theorem witness_UnsatisfiedWaitBlocks :
    Expected.cwait (.cwaitAny 3 0 2 1 syNone) (waiting 4).regs =
      some (3, [0, 63], false, BitVec.allOnes 64, 0, true, syNone) ∧ (waiting 4).Quiet syNone ∧
    ((waiting 4).ctx (waiting 4).cur).prog = Progress.none ∧ ((waiting 4).ctx (waiting 4).cur).lines = [] ∧
    (∀ m ∈ [0, 63], m < ((waiting 4).ctx (waiting 4).cur).nslots ∧ m < 256 ∧ (Expected.cellOf (waiting 4) m).isSome) ∧
    (¬ ∃ m ∈ [0, 63], Expected.satisfied (waiting 4) m = true) ∧
    (Expected.exact (.add 3 1 2 syW) (vlMax (coreOf (waiting 4).cur)) (waiting 4).regs).map (·.2) = some syW ∧
    (waiting 4).Alone ∧ (0 : BitVec 8).toNat < ((waiting 4).ctx (waiting 4).cur).nslots ∧
    Expected.cellOf (waiting 4) 0 = some (0, 0) ∧ Expected.satisfied (waiting 4) 0 = false := by
  unfold State.Quiet State.Alone
  and_intros <;> first | rfl | decide +kernel

def sySig : Sync := { syNone with ext := .sync, wait := some 0, sig := some { slot := 63, inc := 255, atIssue := false } }

/-- A satisfied wait and a signal of 255; a slot at the context's number of slots. -/
theorem witness_SynchronisedResult :
    (Expected.exact (.add 3 1 2 sySig) (vlMax (coreOf (waiting 5).cur)) (waiting 5).regs).map (·.2) = some sySig ∧
    (waiting 5).Alone ∧ Expected.Settled (waiting 5) ∧ (0 : BitVec 8).toNat < ((waiting 5).ctx (waiting 5).cur).nslots ∧
    Expected.satisfied (waiting 5) 0 = true ∧ (63 : BitVec 8).toNat < ((waiting 5).ctx (waiting 5).cur).nslots ∧
    Expected.cellOf (waiting 5) 63 = some (0, 1) ∧ Expected.NoWaiters (waiting 5) 0 1 ∧
    ((waiting 5).cell 0 1).v.toNat + (255 : BitVec 8).toNat < 2 ^ 64 ∧ base.Alone ∧ base.doubleTrap = false ∧
    (base.ctx base.cur).nslots ≤ (0 : BitVec 8).toNat := by
  unfold State.Alone Expected.Settled
  and_intros <;>
    first
      | exact (noWaiters (by decide +kernel) (by decide +kernel) 0 1).1
      | exact (noWaiters (by decide +kernel) (by decide +kernel) 0 1).2
      | decide +kernel

/-- A strand with no lease and no pending error, and one with a pending POISON; a lease outside the range of TBLFENCE. -/
theorem witness_FenceResult :
    let p : Pend := { cause := .poison, tval := 8, engine := false, seq := 0 }
    let e := withC base fun c => { c with pend := [p] }
    let leased := withC (withX base [(1, 0x50000), (2, 0x10000)]) fun c =>
      { c with leases := [{ va := 0x40000, asid := 0, line := 0x400, granted := 0, bound := 1, live := true }] }
    base.Quiet syNone ∧ (base.ctx base.cur).lines = [] ∧ (base.ctx base.cur).pend = [] ∧
    (base.ctx base.cur).ovf = false ∧ e.Quiet syNone ∧ (e.ctx e.cur).lines = [] ∧ (e.ctx e.cur).gang = none ∧
    e.doubleTrap = false ∧ (e.ctx e.cur).pend = [p] ∧ leased.Quiet syNone ∧ (leased.ctx leased.cur).lines = [] ∧
    leased.Ordered ∧
    (∀ p ∈ leased.ctxs,
      leased.fenced leased.regs.asid (tblRange (leased.regs.getX 1) (leased.regs.getX 2)) p.1 p.2 = false) := by
  unfold State.Quiet State.Alone State.Ordered
  and_intros <;> decide +kernel

/-- Queue 7 of die 0 with 2^4 places, the record at x1 of that level, and as many records in it. -/
def queued (n : Nat) : State :=
  let r : ContRec := { code := 8, frame := 0, join := 0, asid := 0, prio := 7, cls := 0 }
  withDie (withMem (glob 0x40020) 0x40020 [0x1C, 0, 0x50000, 0x20000]) 0 fun d =>
    { d with queues := [(7, { cfg := 0x24, recs := List.replicate n (r, 0), tail := 0, waiting := [] })] }

/-- One place is free; none is. -/
theorem witness_SpawnResult :
    (queued 15).Quiet syNone ∧ Expected.Settled (queued 15) ∧ ((queued 15).ctx (queued 15).cur).wait = none ∧
    ((queued 15).regs.getX 1).toNat % 32 = 0 ∧ Expected.Maps (queued 15) .load ((queued 15).regs.getX 1) 0x40020 ∧
    Expected.Clean (queued 15) 0x40020 32 ∧ (Expected.recordWord (queued 15) 0x40020 0).toNat = 4 * 7 ∧
    (((queued 15).die 0).queue 7).cfg.getLsbD 5 = true ∧
    (((queued 15).die 0).queue 7).recs.length < 2 ^ ((((queued 15).die 0).queue 7).cfg.toNat % 32) ∧
    (((queued 15).die 0).queue 7).waiting = [] ∧
    (queued 16).Quiet syNone ∧ Expected.Settled (queued 16) ∧
    Expected.Maps (queued 16) .load ((queued 16).regs.getX 1) 0x40020 ∧
    2 ^ ((((queued 16).die 0).queue 7).cfg.toNat % 32) ≤ (((queued 16).die 0).queue 7).recs.length := by
  unfold State.Quiet State.Alone Expected.Settled Expected.Maps Expected.Translates Expected.Readable Expected.Clean Expected.NoPartials
  and_intros
  all_goals first | exact no_lines (by decide +kernel) (by decide +kernel) | decide +kernel

/-- EXIT of a START strand and FINISH with a JOIN at cell 0 of core 0; FINISH with JOIN 0 and with no record. -/
theorem witness_StrandEndResult :
    let d : DoneRef := { ref := 0x00C1000000000000, gen := 3, inc := 1 }
    let s := celled 5 0
    let started := withC s fun c => { c with start := some d }
    let joined (j : Word) : State := withC s fun c => { c with join := some j }
    s.Quiet syNone ∧ Expected.Settled s ∧ (s.ctx s.cur).pend = [] ∧ (s.ctx s.cur).start = none ∧ (s.ctx s.cur).join = none ∧
    s.doubleTrap = false ∧ started.Quiet syNone ∧ (started.ctx started.cur).start = some d ∧ isLocalRef d.ref = true ∧
    started.localRef d.ref = some (0, 0) ∧ Expected.NoWaiters started 0 0 ∧ d.gen = (started.cell 0 0).g ∧
    (started.cell 0 0).v.toNat + d.inc.toNat < 2 ^ 64 ∧ d.inc ≠ 0 ∧ (joined 0).Quiet syNone ∧
    ((joined 0).ctx (joined 0).cur).join = some 0 ∧ (joined 0x00C1000000000000).Quiet syNone ∧
    (joined 0x00C1000000000000).localRef 0x00C1000000000000 = some (0, 0) ∧
    Expected.NoWaiters (joined 0x00C1000000000000) 0 0 ∧ ((joined 0x00C1000000000000).cell 0 0).v.toNat + 1 < 2 ^ 64 := by
  unfold State.Quiet State.Alone Expected.Settled
  and_intros <;>
    first
      | exact (noWaiters (by decide +kernel) (by decide +kernel) 0 0).1
      | exact (noWaiters (by decide +kernel) (by decide +kernel) 0 0).2
      | decide +kernel

theorem witness_YieldResult : base.cur = 16 * 0 + 0 ∧ base.Quiet syNone ∧ Expected.RunsAlone base 0 0 := by
  unfold State.Quiet State.Alone Expected.RunsAlone
  and_intros <;> decide +kernel

/-! ### Trace sets, gangs, engines -/

def fwd0 : Fwd := { ctx := 0, pc := 0x20000, base := 0, ext := none, next := 0x20008 }

/-- Core 0 follows core 1 and executes a forwarded instruction. -/
def following : State := { withCore base 0 fun c => { c with trace := .follower 1 true [fwd0] } with fwd := some fwd0 }

theorem witness_TraceResult :
    base.Alone ∧ coreOf base.cur < 1536 ∧ easel.Alone ∧ 1536 ≤ coreOf easel.cur ∧ easel.doubleTrap = false ∧
    following.fwd = some fwd0 ∧ (following.core (coreOf following.cur)).trace = .follower 1 true [fwd0] ∧
    following.followers (coreOf following.cur) = [] ∧
    (following.glaze.msgs.any fun p => following.ofCtx following.cur p.2.by_) = false ∧
    following.owedX following.cur = [] ∧
    ((following.ctx following.cur).replayNow && (following.ctx following.cur).replay.contains following.regs.pc) = false ∧
    (following.ctx following.cur).prog = Progress.none := by
  unfold State.Alone
  and_intros <;> decide +kernel

/-- Core 1 follows core 0 with 63 instructions to come. -/
def leading : State := withCore base 1 fun c => { c with trace := .follower 0 true (List.replicate 63 fwd0) }

theorem leading_streams (m l : Nat) (j : Bool) (r : List Fwd) (h : (leading.core m).trace = .follower l j r) :
    r.length < 64 := by
  have hc : leading.core m = TMap.get Core.reset leading.cores m := rfl
  rw [hc, leading, withCore] at h
  simp only [TMap.get_put] at h
  split at h
  · simp only [Trace.follower.injEq] at h
    rw [← h.2.2]
    decide +kernel
  · have hb : base.cores = [(0, { Core.reset with failed := false, trace := .none, icache := [] })] := by decide +kernel
    rw [hb] at h
    simp only [TMap.get, TMap.find] at h
    split at h <;> simp [Core.reset] at h

theorem witness_LeaderForwards :
    Expected.scalarInt (.add 1 2 3 syNone) leading.regs = some (1, 0, syNone) ∧ leading.fwd = none ∧
    (leading.core (coreOf leading.cur)).trace = .none ∧
    (leading.glaze.msgs.any fun p => leading.ofCtx leading.cur p.2.by_) = false ∧
    leading.owedX leading.cur = [] ∧
    ((leading.ctx leading.cur).replayNow && (leading.ctx leading.cur).replay.contains leading.regs.pc) = false ∧
    (leading.ctx leading.cur).prog = Progress.none ∧
    (leading.ctx leading.cur).handler = 0 ∧
    leading.Ordered ∧ (∀ m l j r, (leading.core m).trace = .follower l j r → r.length < 64) ∧
    (leading.core 1).trace = .follower (coreOf leading.cur) true (List.replicate 63 fwd0) := by
  refine ⟨?_, ?_, ?_, ?_, ?_, ?_, ?_, ?_, ?_, leading_streams, ?_⟩ <;> (try unfold State.Ordered) <;> decide +kernel

def share0 : Share := { todo := [], placed := 0, complete := false }

/-- A launch of which every strand has been placed. -/
def launch0 : Launch :=
  { num := 7, asid := 0, ktab := 0x50000, origin := (0, 0), words := [], err := 0, shares := none
    done := { ref := 0x00C1000000000000, gen := 3, inc := 1 }, entry := 0x20000, budget := 64, nslots := 0, param := 0
    groups := [], gpos := 0, lsbase := [], lslim := [], strands := 1, dieMask := 255, gang := true, fuse := false, steps := []
    patches := [], restore := [], perDie := (List.range 8).map fun d => (d, share0), step := 0, rollbacks := 0, journal := []
    unrepeatable := false, rollDue := false, ended := [], routes := [] }

/-- Contexts 0 and 1 are members of a gang. -/
def member (arrived : Bool) : GangMember :=
  { launch := 1, step := 0, arrived := arrived, checkpoint := base.regs, err := { addr := 0, ovf := false, stale := false } }
def gang (other : Bool) : State :=
  let s := withC { base with launches := [(1, launch0)] } fun c => { c with gang := some (member false) }
  { s with ctxs := TMap.put s.ctxs 1 { s.ctx 0 with phase := .waiting, gang := some (member other) } }

/-- A strand's operation that signals nothing. -/
def by0 : Issuer :=
  { agent := 0, life := 1, launch := none, err := none, asid := 0, user := false, seq := 0, sig := none, slot := none, scope := .device
    index := 0 }

/-- A transfer of 256 bytes within the local store of core 0. -/
def copy (st : XferSt) (src : Word) : Xfer :=
  { st := st, seq := 1, ctl := [(0, src), (1, 0x7FF00), (2, 256), (5, 1), (8, 256), (11, 1), (14, 0xC00)], by_ := by0
    lsbase := [], lslim := [], cursor := 0, faults := 0, cause := 0, flags := 0, cancel := false }

/-- A gang strand with a transfer that runs. -/
def busyGang : State :=
  { gang false with
    stencils := [(0, { seq := 2, entries := [(63, { copy .running 0 with by_ := Expected.issuerOf (gang false) .device })] })] }

theorem witness_StepResult (b : Bool) :
    (gang b).Quiet syNone ∧ base.Quiet syNone ∧ (base.ctx base.cur).gang = none ∧ base.doubleTrap = false ∧
    ((gang b).ctx (gang b).cur).gang = some (member false) ∧ ((gang b).ctx (gang b).cur).phase = .running ∧
    ((gang b).ctx (gang b).cur).lines = [] ∧ ((gang b).ctx (gang b).cur).farw = [] ∧
    ((gang b).ctx (gang b).cur).pend = [] ∧ ((gang b).ctx (gang b).cur).prog = Progress.none ∧
    TMap.find (gang b).launches 1 = some launch0 ∧ launch0.rollDue = false ∧
    ((gang b).engineBusy true fun x => (gang b).ofCtx (gang b).cur x) = false ∧ launch0.perDie.length = 8 ∧
    (∀ p ∈ launch0.perDie, p.2.todo = []) ∧ (∀ r ∈ launch0.routes, r.used = false) ∧ (∀ h ∈ (gang b).held, h.launch ≠ 1) ∧
    (∀ p ∈ (gang b).glaze.tokens, p.2.launch ≠ 1) ∧ (gang b).gangLive 1 = [0, 1] ∧ (gang b).cur = 0 ∧
    (gang b).Ordered ∧ ((gang b).ctx 1).gang = some (member b) ∧ coreOf (gang b).cur < 1536 ∧ (member false).arrived = false ∧
    easel.Quiet syNone ∧ 1536 ≤ coreOf easel.cur ∧ easel.doubleTrap = false ∧ busyGang.Quiet syNone ∧
    coreOf busyGang.cur < 1536 ∧ (busyGang.ctx busyGang.cur).gang = some (member false) ∧
    (busyGang.ctx busyGang.cur).lines = [] ∧ (busyGang.ctx busyGang.cur).pend = [] ∧
    (busyGang.engineBusy true fun x => busyGang.ofCtx busyGang.cur x) = true := by
  unfold State.Quiet State.Alone State.Ordered
  cases b <;> and_intros <;> decide +kernel

/-- The engine of cluster 0 with another owner, and with capability entry 63 for master 0. -/
def withF (s : State) (f : Fresco → Fresco) : State := { s with frescos := TMap.put s.frescos 0 (f (s.fresco 0)) }
def foreign : State := withF (withX base [(1, 64)]) fun f => { f with owner := 1 }
def capable : State :=
  withF (withX rich [(1, 64), (5, 9)]) fun f =>
    { f with owner := 1, caps := [(63, { valid := true, rights := 127, asid := 4, secret := 9 })] }

/-- Its own engine, another through a capability entry; refused on both ways; on an Easel core. -/
theorem witness_MatrixCommandIssue :
    let i : Instr := .mmul 0 1 2 false false false false 0 0 15 .here syEng0
    let r : Instr := .mmul 0 1 2 false false false false 0 0 15 (.remote 0 0 63 5) syEng0
    let own := withX base [(1, 64)]
    Expected.engineCommand i = some (1, 2, .here, syEng0) ∧ own.Quiet syEng0 ∧ Expected.Settled own ∧
    Expected.admitted own i .here = some (0, 0) ∧ Instr.rowSource i ≠ some true ∧
    (∀ p ∈ frescoAddrs i (own.regs.getX 1) (own.regs.getX 2), p.2 = true ∧ p.1.toNat / 2 ^ 48 % 2 ^ 8 = 0) ∧
    Expected.engineCommand r = some (1, 2, .remote 0 0 63 5, syEng0) ∧ capable.Quiet syEng0 ∧ Expected.Settled capable ∧
    Expected.admitted capable r (.remote 0 0 63 5) = some (0, 4) ∧ foreign.Quiet syEng0 ∧ Expected.Settled foreign ∧
    foreign.doubleTrap = false ∧ coreOf foreign.cur < 1536 ∧ Expected.admitted foreign i .here = none ∧
    (0 : BitVec 8) = foreign.nodeId ∧ Expected.admitted foreign r (.remote 0 0 63 5) = none ∧
    (∀ p ∈ frescoAddrs i (foreign.regs.getX 1) (foreign.regs.getX 2), p.2 = true ∧ p.1.toNat / 2 ^ 48 % 2 ^ 8 = 0) ∧
    (withX easel [(1, 64)]).Quiet syEng0 ∧ Expected.Settled (withX easel [(1, 64)]) ∧
    1536 ≤ coreOf (withX easel [(1, 64)]).cur ∧ (withX easel [(1, 64)]).doubleTrap = false := by
  unfold State.Quiet State.Alone Expected.Settled
  and_intros <;> first | exact allMem (by decide +kernel) | decide +kernel

def cmd (i : Instr) (started : Bool) : FCmd :=
  { seq := 9, instr := i, xa := 64, xb := 0, asid := 0, by_ := by0, rows := .ok (64, 64), rm := 1, started := started
    valids := [true, true, true, true] }

def mprog0 : Instr := .mprog 6 7 2 .here syEng0
def mmul0 : Instr := .mmul 0 6 7 false false true false 0 0 15 .here syEng0

/-- An engine with a multiply under way. -/
def queuedF : State := withF base fun f => { f with cmds := [cmd mmul0 true] }

/-- MSTAT of word 5 has started, and its strand comes to ADD x5, x6, x7. -/
def querying : State :=
  let s := withF base fun f => { f with cmds := [cmd (.mstat 6 2 5 .here syEng0) true] }
  withC s fun c => { c with ir := 0x0101461C00000000, irExt := none }

/-- MSTAT of word 5, and an instruction that names its register; MCAP by a kernel. -/
theorem witness_MatrixQueryResult :
    (querying.fresco 0).cmds.find? (fun c => c.seq == 9) = some (cmd (.mstat 6 2 5 .here syEng0) true) ∧
    (cmd (.mstat 6 2 5 .here syEng0) true).by_ = by0 ∧ by0.sig = none ∧ by0.agent < 25088 ∧
    (querying.ctx by0.agent).life = by0.life ∧
    (Expected.scalarInt (.add 5 6 7 syNone) querying.regs).isSome = true ∧ querying.followers (coreOf querying.cur) = [] ∧
    decode (querying.ctx querying.cur).ir (querying.ctx querying.cur).irExt = .ok (.add 5 6 7 syNone) ∧
    (∃ x ∈ querying.owedX querying.cur, x ∈ Instr.xregs (.add 5 6 7 syNone)) ∧
    (withMode rich .kernel).Quiet syEng0 ∧ Expected.Settled (withMode rich .kernel) ∧
    coreOf (withMode rich .kernel).cur < 1536 ∧ (withMode rich .kernel).regs.mode ≠ .user ∧
    ((withMode rich .kernel).fresco 0).owner = (withMode rich .kernel).regs.asid ∧
    admits ((withMode rich .kernel).access 0 4 0) false true false (withMode rich .kernel).regs.asid = true := by
  unfold State.Quiet State.Alone Expected.Settled
  and_intros <;> decide +kernel

/-- MLOADW of another bank behind an MLOADW; an MPROG that has started; a remote MPROG that its entry
admits, and one that it does not. -/
theorem witness_MatrixEngineEvents :
    let s := withF base fun f => { f with cmds := [{ cmd (.mloadw 0 6 .here syEng0) true with seq := 8 }, cmd (.mloadw 1 6 .here syEng0) false] }
    let t := withF base fun f => { f with cmds := [{ cmd mprog0 true with xa := 0 }] }
    let rem : Instr := .mprog 6 7 2 (.remote 0 0 63 0) syEng0
    let u := withDie capable 0 fun d =>
      { d with jobs := [(63, 0x8000000000000005)], access := [(2047, 0xF000000000030003), (10239, 0xF000000000030003)] }
    let v := withDie capable 0 fun d => { d with jobs := [(0, 0x8000000000000005)] }
    let c : RemoteCmd :=
      { cluster := 0, node := 5, die := 0, job := 5, sig := some { ref := 0x20040008, gen := 0, inc := 1, scope := .device }, asid := 0, user := true, cidx := 63, secret := 9, base := 0xA480061C00000002, xa := 0
        xb := 0 }
    (s.fresco 0).cmds.find? (fun c => c.seq == 9) = some (cmd (.mloadw 1 6 .here syEng0) false) ∧
    (cmd (.mloadw 1 6 .here syEng0) false).started = false ∧
    ((s.fresco 0).cmds.takeWhile fun c => c.seq != 9).length = 1 ∧
    (∀ e ∈ (s.fresco 0).cmds.takeWhile (fun c => c.seq != 9), frescoConflict e (cmd (.mloadw 1 6 .here syEng0) false) = false) ∧
    (t.fresco 0).cmds.find? (fun c => c.seq == 9) = some { cmd mprog0 true with xa := 0 } ∧ microBad 2 0 = false ∧
    decode c.base (some (remoteEng c)) = .ok rem ∧
    Expected.engineCommand rem = some (6, 7, .remote 0 0 63 0, syEng0) ∧
    Instr.rowSource rem ≠ some true ∧ (TMap.get 0 (u.die 0).jobs 63).toNat = 2 ^ 63 + c.job ∧
    (∀ k < 63, (TMap.get 0 (u.die 0).jobs k).toNat ≠ 2 ^ 63 + c.job) ∧
    (u.access 0 0 2047).toNat / 2 ^ 16 % 2 ^ 16 = (u.access 0 0 2047).toNat % 2 ^ 16 ∧
    admits (u.access 0 4 2047) false true false (BitVec.ofNat 16 (u.access 0 0 2047).toNat) = true ∧
    (TMap.get Cap.reset (u.fresco 0).caps 63).valid = true ∧
    (TMap.get Cap.reset (u.fresco 0).caps 63).secret = 9 ∧
    (TMap.get Cap.reset (u.fresco 0).caps 63).rights.getLsbD (Instr.rightBit rem) = true ∧
    (TMap.get 0 (v.die 0).jobs 0).toNat = 2 ^ 63 + c.job ∧
    (v.access 0 0 1984).toNat / 2 ^ 16 % 2 ^ 16 ≠ (v.access 0 0 1984).toNat % 2 ^ 16 := by
  and_intros <;> decide +kernel

theorem witness_MatrixMultiplyResult :
    let s := withF base fun f => { f with cmds := [cmd mmul0 true] }
    (s.fresco 0).cmds.find? (fun c => c.seq == 9) = some (cmd mmul0 true) ∧ (cmd mmul0 true).started = true ∧
    (cmd mmul0 true).instr = mmul0 ∧ (cmd mmul0 true).by_.sig = none ∧ (cmd mmul0 true).rows = .ok (64, 64) ∧
    (s.fresco 0).prog.count = 0 ∧ (cmd mmul0 true).xa.toNat + 64 * rowBytes 0 ≤ planeSize ∧
    (∀ i < 64, s.planePoisoned 0 (64 - 64 + i) = false ∧ s.rowPoisoned 0 64 0 i = false) := by
  and_intros <;> first | rfl | decide +kernel

def moving (st : XferSt) (src : Word) : State :=
  { withX base [(1, 0x000000FC00000001)] with stencils := [(0, { seq := 2, entries := [(63, copy st src)] })] }

/-- XSET and XGO; the identifier of a transfer in each state, of none, and of another device. -/
theorem witness_TransferCommands :
    base.Quiet syEng0 ∧ coreOf base.cur < 1536 ∧ Expected.Settled base ∧ Stencil.freeEntry (base.stencil 0) = some 0 ∧
    Ctl.valid base.regs.shadow = true ∧ Ctl.units base.regs.shadow ≠ 0 ∧
    (moving .running 0).findXfer ((moving .running 0).regs.getX 1) = .some 0 63 (copy .running 0) ∧
    (moving .suspended 0).findXfer ((moving .suspended 0).regs.getX 1) = .some 0 63 (copy .suspended 0) ∧
    (moving .done 0).findXfer ((moving .done 0).regs.getX 1) = .some 0 63 (copy .done 0) ∧
    (moving .running 0).findXfer 0 = .none ∧ (moving .running 0).findXfer 0x0100000000000000 = .refused ∧
    (moving .running 0).Quiet syEng0 ∧ (moving .suspended 0).Quiet syEng0 ∧ (moving .done 0).Quiet syEng0 := by
  unfold State.Quiet State.Alone Expected.Settled
  and_intros <;> first | rfl | decide +kernel

/-- The bytes just below the destination; a source whose first byte lies past the store. -/
theorem witness_TransferChunkResult :
    TMap.find ((moving .running 0x7FE00).stencil 0).entries 63 = some (copy .running 0x7FE00) ∧
    Expected.LocalCopy (copy .running 0x7FE00) 256 1 ∧ (0x7FE00 : Word).toNat + 256 * 1 ≤ lsSize (copy .running 0x7FE00).core ∧
    (∀ j < 256 * 1, (moving .running 0x7FE00).lsPoisoned 0 (0x7FE00 + j) = false) ∧ (moving .running 0x7FE00).unseen = [] ∧
    TMap.find ((moving .running 0x80000).stencil 0).entries 63 = some (copy .running 0x80000) ∧
    Expected.LocalCopy (copy .running 0x80000) 256 1 ∧ lsSize (copy .running 0x80000).core ≤ (0x80000 : Word).toNat ∧
    (copy .running 0x80000).ctl.super = 0 ∧ ((moving .running 0x80000).ctx 0).life = by0.life ∧
    ((moving .running 0x80000).ctx 0).phase = .running ∧ ((moving .running 0x80000).ctx 0).pend.length < 8 := by
  unfold Expected.LocalCopy
  and_intros <;> decide +kernel

/-! ### Writes of parties that are no strand -/

theorem walkWord_congr (s : State) (m : Memory) (b : NatSet) (hi p : Nat)
    (h : ∀ x < hi, Memory.read m x = Memory.read s.mem x ∧ NatSet.has b x = NatSet.has s.bad x) (hp : p + 8 ≤ hi) :
    ({ s with mem := m, bad := b } : State).walkWord p = s.walkWord p := by
  have hb (i : Nat) (hi8 : i < 8) : ({ s with mem := m, bad := b } : State).physByte (p + i) = s.physByte (p + i) := by
    have hx := h (p + i) (by omega)
    unfold State.physByte
    have hp : ({ s with mem := m, bad := b } : State).poisoned (p + i) = s.poisoned (p + i) := by
      unfold State.poisoned
      simp only [hx.2]
      rfl
    rw [hp]
    simp only
    rw [hx.1]
  have hw : ({ s with mem := m, bad := b } : State).physBytes p 8 = s.physBytes p 8 := by
    unfold State.physBytes
    exact List.map_congr_left fun i hi => hb i (List.mem_range.1 hi)
  unfold State.walkWord State.physWord
  rw [hw]
  rfl

/-- The walk of a 512 MiB page reads three words. -/
structure Mapped (s : State) (q : Req) (va : Word) : Prop where
  root : s.walkWord ((s.die q.die).rootbase.toNat % 2 ^ 46 + 8 * q.asid.toNat) = 0x8000000000000200
  table : s.walkWord (field 0x8000000000000200 9 37 * 512 + 8 * field va 42 6) = 0x8000000000000001
  low : (s.die q.die).rootbase.toNat % 2 ^ 46 + 8 * q.asid.toNat + 8 ≤ 0x20000
  mid : field 0x8000000000000200 9 37 * 512 + 8 * field va 42 6 + 8 ≤ 0x20000
  top : leafFrame 0x8000000000000001 * 2 ^ 16 + 8 * field va 29 13 + 8 ≤ 0x20000
  leaf : leafLeaf (s.walkWord (leafFrame 0x8000000000000001 * 2 ^ 16 + 8 * field va 29 13)) = true
  big : (s.walk q.die q.asid va).big = true

/-- The tables of `base` and of the states made from it lie below 0x20000: memory beyond them does not matter to a walk. -/
theorem Mapped.walk_eq {s t : State} {q : Req} {va : Word} (h : Mapped s q va) (hd : t.die q.die = s.die q.die)
    (hw : ∀ p, p + 8 ≤ 0x20000 → t.walkWord p = s.walkWord p) : t.walk q.die q.asid va = s.walk q.die q.asid va := by
  have h0 := hw _ h.low
  have h1 := hw _ h.mid
  have h2 := hw _ h.top
  unfold State.walk
  simp only [hd, h0, h.root, h1, h.table, h2, h.leaf, if_true]

/-- A translation to such a page stands whatever the memory beyond the tables holds. -/
theorem Mapped.congr {s : State} {q : Req} {k : Kind} {va : Word} {pa : Nat} (h : Mapped s q va)
    (ht : Expected.Translates s q k va pa) {m : Memory} {b : NatSet}
    (hm : ∀ x < 0x20000, Memory.read m x = Memory.read s.mem x ∧ NatSet.has b x = NatSet.has s.bad x)
    (hk : leafK (s.walk q.die q.asid va).leaf = false ∨ b = s.bad) :
    ({ s with mem := m, bad := b } : State).walk q.die q.asid va = s.walk q.die q.asid va ∧
    Expected.Translates { s with mem := m, bad := b } q k va pa := by
  have hw := h.walk_eq (t := { s with mem := m, bad := b }) rfl fun p hp => walkWord_congr s m b 0x20000 p hm hp
  obtain ⟨t1, t2, -, t4, t5, t6, t7⟩ := ht
  refine ⟨hw, t1, t2, ?_, ?_, ?_, t6, ?_⟩
  · rw [hw]; unfold State.contOthers; rw [h.big]; rfl
  · rw [hw]; exact t4
  · rw [hw]; exact t5
  · rw [hw]
    intro hl
    cases hk with
    | inl hk => rw [hl] at hk; cases hk
    | inr hk => subst hk; exact t7 hl

theorem writes_of {s : State} {q : Req} {agent : Nat} {va : Word} {n pa : Nat} (h : Mapped s q va)
    (ht : Expected.Translates s q .store va pa) (hk : leafK (s.walk q.die q.asid va).leaf = false) (hp : 0x20000 ≤ pa)
    (hn : va.toNat % 2 ^ 16 + n ≤ 2 ^ 16) (hl : s.linkUp pa = true)
    (hf : ((List.range n).all fun i => s.leasedByOther agent (pa + i) == false) = true) (ha : s.fadds = [])
    (hr : s.lineKey = []) : Expected.Writes s q agent va n pa := by
  refine ⟨hn, hl, fun i hi => ⟨?_, ?_, .inl ?_⟩, fun m b hm => ?_⟩
  · simpa using List.all_eq_true.1 hf i (List.mem_range.2 hi)
  · intro p hp
    rw [ha] at hp
    cases hp
  · rw [hr]; rfl
  · have := h.congr ht (m := m) (b := b) (fun x hx => hm x (by omega)) (.inl hk)
    exact ⟨this.2, by rw [this.1]⟩

theorem homeRef_of {s : State} {q : Req} {ref : Word} {pa other : Nat} (h : Mapped s q ref)
    (ht : Expected.Translates s q (.counter false true) ref pa) (ho : 0x20000 ≤ other) (hr : isLocalRef ref = false)
    (ha : ref.toNat % 8 = 0) (hadm : admits (s.access (paDie pa) 1 q.master) false true q.byUser q.asid = true)
    (hc : Expected.Clean s pa 8) (hv : Expected.memValue s pa 8 + 1 < 2 ^ 64) (hw : Expected.Unwatched s (.home pa))
    (hk : s.lineKey = []) : Expected.HomeRef s q ref pa other := by
  refine ⟨hr, ha, hadm, hc, hv, hw, ?_, fun m hm => ?_⟩
  · intro w hw
    rw [hk] at hw
    cases hw
  · exact (h.congr ht (b := s.bad) (fun x hx => ⟨hm x (by omega), rfl⟩) (.inr rfl)).2

theorem cellRef_of {s : State} {ref : Word} {k x : Nat} (hl : isLocalRef ref = true) (hr : s.localRef ref = some (k, x))
    (h : (s.ctxs.all fun p => p.2.wait.isNone) = true) (h2 : s.threads = []) : Expected.CellRef s ref k x :=
  ⟨hl, hr, noWaiters h h2 k x⟩

/-- The same where threads and contexts wait for nothing that is a cell. -/
theorem cellRef_of' {s : State} {ref : Word} {k x : Nat} (hl : isLocalRef ref = true) (hr : s.localRef ref = some (k, x))
    (h : (s.ctxs.all fun p => match p.2.wait with | none => true | some w => w.watches.isEmpty) = true)
    (h2 : (s.threads.all fun p => match p.2.st with | .waits _ w _ _ => decide (w.ctr ≠ .cell k x) | _ => true) = true) :
    Expected.CellRef s ref k x := ⟨hl, hr, unwatched_of h h2⟩

/-! ### The dynamic runtime, collectives, messages -/

/-- x1 a heap pointer to a dense object, x2 the last site, x3 the data 2, x4 the small integer 0. -/
def easelObj (c : Word) : State :=
  withMem (withX easel [(1, 0x40010), (2, 0xFFFF), (3, c), (4, 1)]) 0x40010 [0x0000000500000001, 0]

theorem witness_InlineCacheResult :
    (easelObj 2).Quiet syNone ∧ 1536 ≤ coreOf (easelObj 2).cur ∧ ((easelObj 2).ctx (easelObj 2).cur).lines = [] ∧
    Expected.Sees (easelObj 2) ((easelObj 2).regs.getX 1) 5 5 ∧ Expected.Sees (easelObj 2) ((easelObj 2).regs.getX 4) 0xFFFFFFF9 0xFFFFFFF9 ∧
    (65535 : Word).toNat < 65536 ∧ 1 < ((easelObj 2).regs.getX 3).toNat ∧ (easelObj 2).doubleTrap = false ∧
    65536 ≤ (65536 : Word).toNat ∧ (easelObj 1).Quiet syNone ∧ ((easelObj 1).regs.getX 3).toNat ≤ 1 := by
  refine ⟨?_, ?_, ?_, ?_, ?_, ?_, ?_, ?_, ?_, ?_, ?_⟩
  case refine_4 =>
    unfold Expected.Sees
    rw [if_pos (by decide +kernel)]
    refine ⟨by decide +kernel, 0x40010, ?_, ?_, ?_, fun _ => rfl, fun h => absurd h (by decide +kernel)⟩
    · unfold Expected.Maps Expected.Translates Expected.Readable
      and_intros
      all_goals first | exact no_lines (by decide +kernel) (by decide +kernel) | decide +kernel
    · unfold Expected.Clean Expected.NoPartials; decide +kernel
    · decide +kernel
  case refine_5 =>
    unfold Expected.Sees
    rw [if_neg (by decide +kernel)]
    exact ⟨by decide +kernel, rfl⟩
  all_goals (try unfold State.Quiet State.Alone); decide +kernel

/-- A kernel strand of an Easel core with a nursery that ends at `lim`; x1 its descriptor, x2 a header of 32 bytes. -/
def nursery (lim : Word) : State :=
  let s := withMode (withX easel [(1, 0x3FFF0), (2, 0x0000000500000001)]) .kernel
  { s with
    ls := [(1536 * 2 ^ 20 + 0x3FFF2, 5), (1536 * 2 ^ 20 + 0x3FFF8, BitVec.ofNat 8 lim.toNat), (1536 * 2 ^ 20 + 0x3FFFA, 5)] }

/-- Room for exactly the object, and one byte less. -/
theorem witness_AllocResult :
    (nursery 32).Quiet syNone ∧ 1536 ≤ coreOf (nursery 32).cur ∧ ((nursery 32).regs.getX 1).toNat % 16 = 0 ∧
    Expected.LocalAccess (nursery 32) true true ((nursery 32).regs.getX 1) 8 ∧
    Expected.LocalAccess (nursery 32) true false ((nursery 32).regs.getX 1 + 8) 8 ∧
    Expected.LocalClean (nursery 32) ((nursery 32).regs.getX 1) 8 ∧
    Expected.LocalClean (nursery 32) ((nursery 32).regs.getX 1 + 8) 8 ∧
    Expected.localValue (nursery 32) ((nursery 32).regs.getX 1) 8 = 0x50000 ∧
    Expected.localValue (nursery 32) ((nursery 32).regs.getX 1 + 8) 8 = 0x50000 + 16 * (((nursery 32).regs.getX 2).toNat % 2 ^ 16 + 1) ∧
    Expected.Bufferable (nursery 32) ((Expected.objectStores 0x50000 ((nursery 32).regs.getX 2)).map (·.1)) 8 ∧
    (nursery 31).Quiet syNone ∧ (nursery 31).doubleTrap = false ∧
    Expected.localValue (nursery 31) ((nursery 31).regs.getX 1 + 8) 8 < 0x50000 + 16 * (((nursery 31).regs.getX 2).toNat % 2 ^ 16 + 1) := by
  unfold State.Quiet State.Alone Expected.LocalAccess Expected.LocalClean Expected.Bufferable
  and_intros <;> first | exact allMem (by decide +kernel) | decide +kernel

/-- x2 names a record, x1 a source; group position 3 is valid. -/
def described (ws : List Word) : State :=
  withR (withX (withMem rich 0x40040 ws) [(1, 0x50000), (2, 0x40040), (3, 0x03000000000000F0)]) fun r =>
    { r with grp := 0x8000000000000000 }

def redWords : List Word := [0x60000, 0x70000, 0, 0, 0, 0, 0x1000000, 0]
def sendWords : List Word := [0x60000, 0, 0, 0x1808]
def routeWords : List Word := [0x60000, 0, 0, 0]
def ringWords : List Word := [0x61000, 0x20048000, 0, 0, 0xC0F, 0, 0, 0]

theorem witness_CollectiveIssue :
    let red := described redWords
    let send := described sendWords
    let route := withC (described routeWords) fun c => { c with gang := some (member false) }
    let ring := described ringWords
    let q : Req := { die := 0, asid := 0, user := true, master := 1952 }
    red.Quiet syEng0 ∧ Expected.Idle red ∧ Expected.Record red (red.regs.getX 2) 64 0x40040 ∧
    Expected.ReductionDesc (Expected.recordWord red 0x40040) ∧ (red.regs.getX 1).toNat % (Ty.f32.bits / 8) = 0 ∧
    red.regs.grp.getLsbD (16 * (3 : BitVec 2).toNat + 15) = true ∧ red.groupSize red.cur 0 ≤ 1024 ∧
    send.Quiet syEng0 ∧ Expected.Idle send ∧ Expected.Record send (send.regs.getX 2) 32 0x40040 ∧
    Expected.SendDesc false (Expected.recordWord send 0x40040) ∧
    route.Quiet syEng0 ∧ Expected.Idle route ∧ Expected.Record route (route.regs.getX 2) 32 0x40040 ∧
    Expected.SendDesc true (Expected.recordWord route 0x40040) ∧
    Expected.Translates route (route.reqOf route.cur) .load (Expected.recordWord route 0x40040 0) 0x60000 ∧
    (route.ctx route.cur).gang.isSome = true ∧ ring.Quiet syEng0 ∧ Expected.Idle ring ∧
    (ring.regs.getX 3).toNat / 2 ^ 16 % 2 ^ 40 = 0 ∧ Expected.Record ring (ring.regs.getX 2) 64 0x40040 ∧
    Expected.RingDesc (Expected.recordWord ring 0x40040) 0xF0 ∧
    Expected.Translates ring q (.counter true true) (Expected.recordWord ring 0x40040 1) 0x48000 ∧ Expected.Clean ring 0x48000 8 ∧
    TMap.find ring.lineKey (0x48000 / 256) = none ∧ (ring.ctx ring.cur).owner = none ∧
    admits (ring.access (paDie 0x48000) 1 q.master) true true false 0 = true ∧
    Expected.memValue ring 0x48000 8 + 1 < 2 ^ 64 ∧ Expected.Unwatched ring (.home 0x48000) := by
  unfold State.Quiet State.Alone Expected.Idle Expected.Record Expected.ReductionDesc Expected.SendDesc Expected.RingDesc
    Expected.Maps Expected.Translates Expected.Readable Expected.Clean Expected.NoPartials
  and_intros <;>
    first
      | exact no_lines (by decide +kernel) (by decide +kernel)
      | exact (unwatched_of (by decide +kernel) (by decide +kernel)).1
      | exact (unwatched_of (by decide +kernel) (by decide +kernel)).2
      | decide +kernel

/-! ### Events -/

def wait0 (k : WaitKind) (ws : List Watch) (d : Option Nat) : Wait := { kind := k, watches := ws, all := false, deadline := d }
def wait (w : Wait) : State := withC base fun c => { c with phase := .waiting, wait := some w }
def lease0 : Lease := { va := 0x40000, asid := 0, line := 0x400, granted := 0, bound := 1, live := true }

/-- The quantum ends; a reference returns; a timeout comes in its last moment; a lease ends; a strand has drained. -/
theorem witness_ContextEvents :
    let quantum := withCore base 0 fun c => { c with quantum := 1, bound := 1 }
    let leased := withC base fun c => { c with leases := [lease0] }
    let draining := withC base fun c => { c with phase := .draining }
    let late := withC { celled 5 0 with cells := [(0, { v := 5, g := 3 })] } fun c =>
      { c with phase := .waiting, wait := some (wait0 .cwait [{ slot := 0, ctr := .cell 0 0, mark := 5, listed := true, seq := 0 }] (some 0)) }
    Expected.RunsAlone quantum 0 0 ∧ (quantum.core 0).bound ≠ 0 ∧ (quantum.ctx 0).prog.whole = true ∧
    (wait (wait0 .cwait [] (some 0))).satWait (wait0 .cwait [] (some 0)) = false ∧
    (((late.ctx 0).wait.map fun w => late.satWait w) = some true) ∧ ((wait (wait0 .ref [] none)).ctx 0).phase = .waiting ∧
    ((wait (wait0 .ref [] none)).ctx 0).wait = some (wait0 .ref [] none) ∧
    ((wait (wait0 .cwait [] (some 0))).ctx 0).wait = some (wait0 .cwait [] (some 0)) ∧
    0 ≤ (wait (wait0 .cwait [] (some 0))).time ∧ lease0 ∈ (leased.ctx 0).leases ∧ lease0.live = true ∧ (leased.ctx 0).lines = [] ∧
    (draining.ctx 0).phase = .draining ∧
    (draining.ctx 0).lines = [] ∧ (draining.ctx 0).farw = [] ∧
    (draining.engineBusy true fun b => draining.ofCtx 0 b) = false ∧ (draining.core 0).failed = false := by
  unfold Expected.RunsAlone
  and_intros <;> decide +kernel

def cont0 : ContRec := { code := 0x30000, frame := 1, join := 2, asid := 0, prio := 7, cls := 3 }
def q0 (cfg : Word) (n : Nat) : ContQ := { cfg := cfg, recs := List.replicate n (cont0, 0), tail := 0, waiting := [] }

/-- A context of a launch is IDLE; level 7 holds a record, level 6 one more than level 7 has places for. -/
def idle : State :=
  let s := withC { base with launches := [(1, launch0)] } fun c => { c with phase := .idle, owner := some 1 }
  withDie s 0 fun d => { d with queues := [(6, q0 0x24 16), (7, q0 0x24 15)] }

/-- The START record at 0x40040 of an Easel core's free context: 256 slots, kernel mode. -/
def starting : State :=
  withMem { enrich easel with ctxs := easel.ctxs } 0x40040 [0x30000, 5, 6, 0x8000010000000000, 0, 0x00C1000000000000, 0x0003000000000001, 0]

theorem witness_StrandStarts :
    (((idle.die (dieOf 0)).queue 7).recs[0]? = some (cont0, 0)) ∧ idle.takes 0 cont0 = true ∧
    (∀ m, 7 < m → m < 8 → ∀ p ∈ ((idle.die (dieOf 0)).queue m).recs, idle.someTakes (dieOf 0) p.1 = false) ∧
    (∀ j < 0, ∀ p, ((idle.die (dieOf 0)).queue 7).recs[j]? = some p → idle.someTakes (dieOf 0) p.1 = false) ∧
    ((idle.die (dieOf 0)).queue 7).waiting = [] ∧
    ((idle.die 0).queue 6).recs = (cont0, 0) :: List.replicate 15 (cont0, 0) ∧ ((idle.die 0).queue 6).waiting = [] ∧
    ((idle.die 0).queue 7).cfg.getLsbD 5 = true ∧
    ((idle.die 0).queue 7).recs.length < 2 ^ (((idle.die 0).queue 7).cfg.toNat % 32) ∧ isAgent 24577 = true ∧
    1536 ≤ coreOf 24577 ∧ (starting.ctx 24577).phase = .free ∧ Expected.Clean starting 0x40040 64 ∧
    starting.inModule 0x40040 = true ∧ Expected.recordWord starting 0x40040 7 = 0 ∧
    (Expected.recordWord starting 0x40040 3).toNat / 2 ^ 16 % 2 ^ 16 = 0 ∧
    (Expected.recordWord starting 0x40040 3).toNat / 2 ^ 41 % 2 ^ 22 = 0 ∧
    (Expected.recordWord starting 0x40040 3).toNat / 2 ^ 32 % 2 ^ 9 = 256 ∧ Expected.recordWord starting 0x40040 4 = 0 ∧
    starting.freeBases (coreOf 24577) 256 ≠ [] ∧
    admits (starting.access (paDie 0x40040) 0 (coreOf 24577)) true false false
      ((Expected.recordWord starting 0x40040 3).truncate 16) = true := by
  refine ⟨?_, ?_, fun m h1 h2 => absurd h2 (by omega), fun j h => absurd h (by omega), ?_⟩
  · decide +kernel
  · decide +kernel
  · unfold Expected.Clean Expected.NoPartials
    and_intros <;> decide +kernel

def store0 : SOp := { off := 248, size := 8, data := 7, red := none, mode := .user, byST := false, seq := 0 }
def line0 : SLine := { va := 0x40000, asid := 0, faulted := none, age := 0, queued := none, ops := [store0] }
def watch0 (mark : Word) : Watch := { slot := 0, ctr := .cell 0 0, mark := mark, listed := false, seq := 0 }

def remoteReq : Req := { die := 0, asid := 0, user := false, master := 1984 }

/-- Job 5 has slot 0, and ASID 0 alone. -/
def jobbed : State := withDie rich 0 fun d =>
  { d with access := TMap.put d.access 1984 0xF000000000000000, jobs := [(0, 0x8000000000000005)] }

/-- IRQCTR of die 0 is cell 0 of core 0. -/
def logging : State := withDie (celled 5 0) 0 fun d => { d with irqctr := 0x00C1000000000000 }

theorem jobbed_writes : Expected.Writes jobbed remoteReq 65541 0x4FFF8 8 0x4FFF8 := by
  refine writes_of ?_ ?_ (by decide +kernel) (by decide) (by decide +kernel) (by decide +kernel) (by decide +kernel) (by decide +kernel) (by decide +kernel)
  · constructor <;> decide +kernel
  · unfold Expected.Translates; decide +kernel

theorem witness_HomeEvents :
    let lined := withC base fun c => { c with lines := [line0] }
    let polled := withC (celled 5 0) fun c => { c with phase := .waiting, wait := some (wait0 .field [watch0 5] none) }
    let r : AddReq := { ref := 0x00C1000000000000, asid := 0, amount := 1, gen := some 3, agent := 0, issuer := none, die := 0 }
    let acc : RemoteAcc :=
      { node := 5, die := 0, job := 5, authentic := true, va := 0x050000000004FFF8, op := .write (List.replicate 8 1) }
    (lined.ctx 0).lines = [line0] ∧ line0.va.toNat % 256 = 0 ∧ (∀ o ∈ line0.ops, o.red = none ∧ o.off + o.size ≤ 256) ∧
    Expected.Translates lined { lined.reqOf 0 with asid := line0.asid, user := line0.ops.any fun o => o.mode == .user } .store line0.va 0x40000 ∧
    (∀ x, Expected.Caches lined (coreOf 0) line0.asid line0.va x →
      x.place { lined.reqOf 0 with asid := line0.asid, user := line0.ops.any fun o => o.mode == .user } line0.va =
        .ok (.phys 0x40000) ∧ lined.cached (dieOf 0) line0.asid line0.va ≠ []) ∧ line0.faulted = none ∧ line0.queued = none ∧
    (line0.ops.map (·.seq)).Nodup ∧ lined.primer.region = [] ∧ line0.ops ≠ [] ∧
    lined.leasedByOther 0 0x40000 = false ∧ lined.linkUp 0x40000 = true ∧ Expected.NoPartials lined 0x40000 ∧
    TMap.find lined.lineKey (0x40000 / 256) = none ∧
    Expected.CellRef (celled 5 0) r.ref 0 0 ∧ r.amount < 2 ^ 48 ∧
    Expected.Fits (celled 5 0) 0 0 r.amount r.gen ∧ acc.die < 8 ∧
    (TMap.get 0 (jobbed.die acc.die).jobs 0).toNat = 2 ^ 63 + acc.job ∧
    (jobbed.access acc.die 0 1984).toNat % 2 ^ 16 = 0 ∧ (jobbed.access acc.die 0 1984).toNat / 2 ^ 16 % 2 ^ 16 = 0 ∧
    Expected.Writes jobbed remoteReq (65536 + acc.node.toNat)
      (BitVec.ofNat 64 (jobbed.nodeId.toNat * 2 ^ 56 + acc.va.toNat % 2 ^ 56)) 8 0x4FFF8 ∧
    (polled.ctx 0).wait = some (wait0 .field [watch0 5] none) ∧ (polled.ctx 0).phase = .waiting ∧
    (watch0 5).listed = false ∧ (rich.die 0).irqctr = 0 ∧ (logging.die 0).irqctr = 0x00C1000000000000 ∧
    Expected.CellRef logging 0x00C1000000000000 0 0 ∧ (logging.cell 0 0).v.toNat + 1 < 2 ^ 64 ∧ polled.satWait (wait0 .field [watch0 5] none) = true := by
  refine ⟨?_, ?_, ?_, ?_, no_lines (by decide +kernel) (by decide +kernel), rfl, rfl, ?_, ?_, ?_, ?_, ?_,
    by unfold Expected.NoPartials; decide +kernel, ?_, cellRef_of rfl ?_ ?_ ?_, ?_,
    ⟨?_, fun g h => by injection h with h; rw [← h]; decide +kernel⟩, ?_, ?_, ?_, ?_, jobbed_writes, ?_, ?_, ?_, ?_, ?_,
    cellRef_of rfl ?_ ?_ ?_, ?_, ?_⟩
  all_goals (try unfold Expected.Translates); decide +kernel

/-- The ring of die 0 at 0x40000 with 2^10 places; TAKE, FREE and POSTED are cells 0 to 2 of core 0. -/
def ringed (k : WaitKind) (free : Word) : State :=
  let s := withC rich fun c => { c with phase := .waiting, wait := some (wait0 k [] none) }
  withDie { s with cells := [(0, { v := 1023, g := 0 }), (1, { v := free, g := 0 })] } 0 fun d =>
    { d with
      sysring := 0x4001A, systake := 0x00C1000000000000, sysfree := 0x00C1000000000001, sysposted := 0x00C1000000000002 }

def sysReq : Req := { die := 0, asid := 0, user := false, master := 1976 }

theorem ringed_writes : Expected.Writes (ringed (.sysPark (some 1023)) 0) sysReq 0 0x4FFC0 64 0x4FFC0 := by
  refine writes_of ?_ ?_ (by decide +kernel) (by decide) (by decide +kernel) (by decide +kernel) (by decide +kernel) (by decide +kernel) (by decide +kernel)
  · constructor <;> decide +kernel
  · unfold Expected.Translates; decide +kernel

/-- The last ticket for which there is room. -/
theorem witness_SystemCallEvents :
    let park := ringed (.sysPark none) 0
    let post := ringed (.sysPark (some 1023)) 0
    let reply := ringed (.sysPost 1023) 0
    post.lowerTicket 0 1023 = false ∧ (park.ctx 0).wait = some (wait0 (.sysPark none) [] none) ∧ (park.die 0).sysring.getLsbD 4 = true ∧
    Expected.CellRef park (park.die 0).systake 0 0 ∧ (park.cell 0 0).v.toNat + 1 < 2 ^ 64 ∧
    (post.ctx 0).wait = some (wait0 (.sysPark (some 1023)) [] none) ∧ (post.die 0).sysring.getLsbD 4 = true ∧
    Expected.CellRef post (post.die 0).sysfree 0 1 ∧ Expected.CellRef post (post.die 0).sysposted 0 2 ∧
    1023 + 1 ≤ (post.cell 0 1).v.toNat + 2 ^ ((post.die 0).sysring.toNat % 16) ∧ (post.cell 0 2).v.toNat + 1 < 2 ^ 64 ∧
    (post.die 0).sysring.toNat % 16 ≤ 10 ∧
    BitVec.ofNat 64 ((post.die 0).sysring.toNat / 2 ^ 12 * 2 ^ 12 + 64 * (1023 % 2 ^ ((post.die 0).sysring.toNat % 16))) =
      0x4FFC0 ∧
    Expected.Writes post sysReq 0 0x4FFC0 64 0x4FFC0 ∧
    (reply.ctx 0).wait = some (wait0 (.sysPost 1023) [] none) ∧ isAgent 0 = true ∧ (reply.ctx 0).phase = .waiting ∧
    (0x80000000000003FF : Word).getLsbD 63 = true ∧ (0x80000000000003FF : Word).toNat % 2 ^ 32 = 1023 % 2 ^ 32 ∧
    ¬ ((0x3FF : Word).getLsbD 63 = true ∧ (0x3FF : Word).toNat % 2 ^ 32 = 1023 % 2 ^ 32) ∧
    ¬ ((0x80000000000003FE : Word).getLsbD 63 = true ∧ (0x80000000000003FE : Word).toNat % 2 ^ 32 = 1023 % 2 ^ 32) := by
  have h (k : WaitKind) (i : Nat) (ref : Word) (hr : (ringed k 0).localRef ref = some (0, i)) (hl : isLocalRef ref = true) :
      Expected.CellRef (ringed k 0) ref 0 i := cellRef_of' hl hr rfl rfl
  refine ⟨?_, ?_, ?_, h _ _ _ ?_ ?_, ?_, ?_, ?_, h _ _ _ ?_ ?_, h _ _ _ ?_ ?_, ?_, ?_, ?_, ?_, ringed_writes, ?_, ?_, ?_, ?_, ?_, ?_, ?_⟩ <;>
    decide +kernel

/-- The request at 0x40040: its image goes to 0x50000, and DONE is cell 0 of core 0. -/
def preempting (p : Option Preempt) (ph : Phase) : State :=
  let s := withMem (celled 5 0) 0x40040 [0x50000, 0x10000, 0x00C1000000000000, 0x0003000000000001, 0, 0, 0, 0]
  withC s fun c => { c with phase := ph, preempt := p, budget := 16, nslots := 0 }

def preempt0 (halted : Bool) : Preempt :=
  { id := 0, asid := 0, image := 0x50000, isize := 0x10000, done := { ref := 0x00C1000000000000, gen := 3, inc := 1 }, halted := halted }

def saving : State := preempting (some (preempt0 true)) .ready
def ctxReq : Req := { die := 0, asid := 0, user := false, master := 0 }

/-- The registers before the load whose data is outstanding. -/
def before0 : Before := { r := base.regs, straight := false, errAddr := 0, seq := 0 }

theorem saving_size : ((saving.image 0 [0]).1 ++ (saving.image 0 [0]).2).length ≤ 0x10000 := by decide +kernel

theorem saving_writes :
    Expected.Writes saving ctxReq 0 0x50000 ((saving.image 0 [0]).1 ++ (saving.image 0 [0]).2).length 0x50000 := by
  have h := saving_size
  refine writes_of ?_ ?_ (by decide +kernel) (by decide) ?_ (by decide +kernel) (by decide +kernel) (by decide +kernel) (by decide +kernel)
  · constructor <;> decide +kernel
  · unfold Expected.Translates; decide +kernel
  · have : (0x50000 : Word).toNat % 2 ^ 16 = 0 := by decide
    omega

theorem saving_alone (b : Nat) (hb : b ≠ 0) : (saving.ctx b).preempt = none := by
  have hs : saving.ctxs = [(0, saving.ctx 0)] := by decide +kernel
  unfold State.ctx
  rw [hs]
  simp only [TMap.get, TMap.find]
  rw [if_neg hb]
  rfl

theorem witness_PreemptionEvents :
    let asked := preempting none .running
    let halting := preempting (some (preempt0 false)) .running
    let loading := withC (preempting (some (preempt0 false)) .waiting) fun c =>
      { c with wait := some (wait0 .ref [] none), before := some before0 }
    (loading.ctx 0).wait = some (wait0 .ref [] none) ∧ (loading.ctx 0).before = some before0 ∧ (loading.ctx 0).phase = .waiting ∧
    (loading.ctx 0).phase.alive = true ∧ (loading.ctx 0).prog.boundary = true ∧ (loading.ctx 0).preempt = some (preempt0 false) ∧
    isAgent 0 = true ∧ (asked.core 0).trace = .none ∧ asked.followers 0 = [] ∧ (asked.ctx 0).gang = none ∧
    (asked.ctx 0).preempt = none ∧
    Expected.Reads asked ctxReq 0 (0x4007F - BitVec.ofNat 64 ((0x4007F : Word).toNat % 64))
      [0x50000, 0x10000, 0x00C1000000000000, 0x0003000000000001, 0, 0, 0, 0] ∧
    (halting.core 0).trace = .none ∧ halting.followers 0 = [] ∧ (halting.ctx 0).gang = none ∧
    (halting.ctx 0).preempt = some (preempt0 false) ∧ (halting.ctx 0).phase.alive = true ∧ (halting.ctx 0).wait = none ∧
    (halting.ctx 0).prog.fin = none ∧ (halting.ctx 0).prog.made = 0 ∧ (halting.ctx 0).prog.ans = none ∧ (halting.ctx 0).prog.boundary = true ∧ (halting.ctx 0).prog.lease = none ∧
    (halting.ctx 0).r.mode ≠ .monitor ∧
    (saving.core 0).trace = .none ∧ saving.followers 0 = [] ∧ (saving.ctx 0).gang = none ∧
    (saving.ctx 0).preempt = some (preempt0 true) ∧ (saving.ctx 0).phase.alive = true ∧ (saving.ctx 0).lines = [] ∧
    (saving.ctx 0).farw = [] ∧ (saving.ctx 0).leases = [] ∧ saving.Ordered ∧
    (∀ b, b ≠ 0 → (saving.ctx b).preempt = none) ∧ (saving.engineBusy true fun b => saving.ofCtx 0 b) = false ∧
    ((saving.image 0 [0]).1 ++ (saving.image 0 [0]).2).length ≤ (preempt0 true).isize.toNat ∧
    Expected.Writes saving ctxReq 0 0x50000 ((saving.image 0 [0]).1 ++ (saving.image 0 [0]).2).length 0x50000 ∧
    Expected.CellRef saving 0x00C1000000000000 0 0 ∧ Expected.Fits saving 0 0 1 (some 3) := by
  refine ⟨?_, ?_, ?_, ?_, ?_, ?_, ?_, ?_, ?_, ?_, ?_, ⟨0x40040, ?_, ?_, ?_, ?_, ?_, ?_, ?_⟩, ?_, ?_, ?_, ?_, ?_, ?_, ?_, ?_, ?_, ?_, ?_, ?_, ?_, ?_, ?_, ?_, ?_, ?_, ?_, ?_, ?_,
    saving_alone, ?_, saving_size, saving_writes, cellRef_of rfl ?_ ?_ ?_, ?_, fun g h => by injection h with h; rw [← h]; decide +kernel⟩
  all_goals (try unfold Expected.Translates); (try unfold Expected.Readable); (try unfold Expected.Clean Expected.NoPartials)
  all_goals (try unfold State.Ordered); decide +kernel

/-! Slot 0 of die 0 serves the descriptor at 0x41000: 16 places from 0x42000, CONSUMED at 0x2004_3000, RETIRE from 0x2004_4000,
LOG2N 4, SHARES at 0x2004_5000; the thread stands at place 15. -/

def idleThread : Thread :=
  { mapped := true, desc := some 0x41000, next := 15, notified := false, st := .idle, limit := 16, unmap := false, remap := none }

def serving (t : Thread) (ws : List Word) : State :=
  let s := withMem (celled 5 0) 0x41000 [0x42000, 16, 0x20043000, 0x0000004000000000, 0, 0x20045000, 0x20044000]
  { withMem (withMem (withMem s 0x423C0 ws) 0x44078 [7]) 0x45000 [5] with threads := [(0, t)] }

def packet (w0 w1 w2 w3 : Word) : State := serving idleThread [w0, w1, w2, w3, 0, 0, 0, 0]
def shared : Watch := { slot := 0, ctr := .home 0x45000, mark := 5, listed := false, seq := 0 }
def pausing (fence : Bool) : State := serving { idleThread with st := .waits fence shared none .open_ } []

/-- What `homeRef_of` asks. -/
def homeOk (s : State) (q : Req) (ref : Word) (pa : Nat) : Prop :=
  (s.walkWord ((s.die q.die).rootbase.toNat % 2 ^ 46 + 8 * q.asid.toNat) = 0x8000000000000200 ∧
    s.walkWord (field 0x8000000000000200 9 37 * 512 + 8 * field ref 42 6) = 0x8000000000000001 ∧
    (s.die q.die).rootbase.toNat % 2 ^ 46 + 8 * q.asid.toNat + 8 ≤ 0x20000 ∧
    field 0x8000000000000200 9 37 * 512 + 8 * field ref 42 6 + 8 ≤ 0x20000 ∧
    leafFrame 0x8000000000000001 * 2 ^ 16 + 8 * field ref 29 13 + 8 ≤ 0x20000 ∧
    leafLeaf (s.walkWord (leafFrame 0x8000000000000001 * 2 ^ 16 + 8 * field ref 29 13)) = true ∧
    (s.walk q.die q.asid ref).big = true) ∧
  Expected.Translates s q (.counter false true) ref pa ∧ isLocalRef ref = false ∧ ref.toNat % 8 = 0 ∧
  admits (s.access (paDie pa) 1 q.master) false true q.byUser q.asid = true ∧ Expected.Clean s pa 8 ∧
  Expected.memValue s pa 8 + 1 < 2 ^ 64 ∧
  (s.ctxs.all fun p => match p.2.wait with | none => true | some w => w.watches.isEmpty) = true ∧
  (s.threads.all fun p => match p.2.st with | .waits _ w _ _ => decide (w.ctr ≠ .home pa) | _ => true) = true ∧
  s.lineKey = []

theorem homeRef_ok {s : State} {q : Req} {ref : Word} {pa other : Nat} (h : homeOk s q ref pa) (ho : 0x20000 ≤ other) :
    Expected.HomeRef s q ref pa other :=
  have ⟨⟨a, b, c, d, e, f, g⟩, t, l, r, m, n, o, w, w', k⟩ := h
  homeRef_of ⟨a, b, c, d, e, f, g⟩ t ho l r m n o (unwatched_of w w') k

theorem waitRef_of {s : State} {q : Req} {ref : Word} {pa v : Nat}
    (h : isLocalRef ref = false ∧ ref.toNat % 8 = 0 ∧ Expected.Translates s q (.counter true false) ref pa ∧
      admits (s.access (paDie pa) 1 q.master) true false q.byUser q.asid = true ∧ Expected.Clean s pa 8 ∧
      Expected.memValue s pa 8 = v ∧ s.lineKey = []) : Expected.WaitRef s q ref pa v := by
  obtain ⟨a, b, c, d, e, f, k⟩ := h
  refine ⟨a, b, c, fun w hw => ?_, d, e, f⟩
  rw [k] at hw
  cases hw

theorem serving_retires (s : State)
    (h : homeOk s (seqReq 0 (s.queueOf 0 0).asid)
        ((s.queueOf 0 0).retire + BitVec.ofNat 64 (8 * ((s.thread 0 0).next.toNat % 2 ^ (s.queueOf 0 0).log2n))) 0x44078)
    (h' : homeOk s (seqReq 0 (s.queueOf 0 0).asid) (s.queueOf 0 0).consumed 0x43000)
    (hu : (s.thread 0 0).unmap = false) (hd : (s.thread 0 0).desc = some 0x41000) :
    Expected.Retires s 0 0 0x44078 0x43000 := by
  refine ⟨homeRef_ok h (by decide), homeRef_ok h' (by decide), by decide, hu, fun d hd' p hp => ?_⟩
  rw [hd] at hd'
  injection hd' with hd'
  omega

theorem serving_cell (s : State) (h : isLocalRef 0x00C1000000000000 = true ∧ s.localRef 0x00C1000000000000 = some (0, 0) ∧
    (s.ctxs.all fun p => p.2.wait.isNone) = true ∧
    (s.threads.all fun p => match p.2.st with | .waits _ w _ _ => decide (w.ctr ≠ .cell 0 0) | _ => true) = true) :
    Expected.CellRef s 0x00C1000000000000 0 0 := by
  refine cellRef_of' h.1 h.2.1 (List.all_eq_true.2 fun p hp => ?_) h.2.2.2
  have := List.all_eq_true.1 h.2.2.1 p hp
  simp only [Option.isNone_iff_eq_none] at this
  rw [this]

theorem serving_cell' (s : State) (ref : Word) (hr : ref = 0x00C1000000000000)
    (h : isLocalRef 0x00C1000000000000 = true ∧ s.localRef 0x00C1000000000000 = some (0, 0) ∧
      (s.ctxs.all fun p => p.2.wait.isNone) = true ∧
      (s.threads.all fun p => match p.2.st with | .waits _ w _ _ => decide (w.ctr ≠ .cell 0 0) | _ => true) = true) :
    Expected.CellRef s ref 0 0 := hr ▸ serving_cell s h

/-- The thread finds its packet. -/
theorem packet_of (s : State) (ws : List Word) (hl : ws.length = 8)
    (hm : s.thread 0 0 = idleThread ∧
      Expected.Translates s (seqReq 0 (s.queueOf 0 0).asid) .load 0x423C0 0x423C0 ∧
      (s.queueOf 0 0).base + BitVec.ofNat 64 (64 * (15 % 2 ^ (s.queueOf 0 0).log2n)) = 0x423C0 ∧
      s.leasedByOther (2 ^ 32) 0x423C0 = false ∧ TMap.find s.lineKey (0x423C0 / 256) = none ∧
      Expected.Clean s 0x423C0 64 ∧ Expected.recordWords s 0x423C0 8 = ws) : Expected.Packet s 0 0 ws := by
  obtain ⟨h0, h1, h2, h3, h4, h5, h6⟩ := hm
  unfold Expected.Packet
  rw [h0]
  dsimp only
  rw [show idleThread.next.toNat = 15 from rfl, h2]
  refine ⟨by decide, by decide, rfl, rfl, by decide, hl, 0x423C0, by decide, ?_, h1, h3, .inl h4, ?_, ?_⟩
  · rw [hl]; decide
  · rw [hl]; exact h5
  · rw [hl, h6]

/-- A notify; a map and an unmap; WAITC whose counter is one short, and that has its mark; FENCE; SIGC behind a retired packet
and behind one that has not; waits that end. -/
theorem witness_QueueEvents :
    let mapped : State := { base with threads := (List.range 8).map fun d => (64 * d, { idleThread with limit := 15 }) }
    let waitc (mark : Word) := packet 3 0x20045000 mark (BitVec.allOnes 64)
    let fence : State := { packet 6 0 0 0 with qcount := [(8 * 0x41000, 1)] }
    let sigc (inc : Word) := packet 4 0x00C1000000000000 inc 3
    (∀ d < 8, (base.thread d 0).mapped = true ∨ (base.thread d 0).desc = none) ∧
    ((0x41000 : Word).toNat % 128 = 0 ∧ (0x41000 : Word).toNat < 2 ^ 46 ∧ (∀ d < 8, (base.thread d 0).mapped = false) ∧
      base.physByte ((0x41000 : Word).toNat + 24) = 0) ∧
    (0x41000 % 128 = 0 ∧ mapped.linkUp 0x41000 = true ∧
      (∀ d < 8, (mapped.thread d 0).mapped = true ∧ (mapped.thread d 0).desc = some 0x41000 ∧
        (mapped.thread d 0).st = .idle ∧ (mapped.thread d 0).notified = false ∧
        (mapped.thread d 0).next = (mapped.thread d 0).limit)) ∧
    Expected.Packet (waitc 6) 0 0 [3, 0x20045000, 6, BitVec.allOnes 64, 0, 0, 0, 0] ∧
    Expected.WaitRef (waitc 6) (seqReq 0 ((waitc 6).queueOf 0 0).asid) 0x20045000 0x45000 5 ∧ 5 < (6 : Word).toNat ∧
    Expected.Packet (waitc 5) 0 0 [3, 0x20045000, 5, BitVec.allOnes 64, 0, 0, 0, 0] ∧
    Expected.WaitRef (waitc 5) (seqReq 0 ((waitc 5).queueOf 0 0).asid) 0x20045000 0x45000 5 ∧ (5 : Word).toNat ≤ 5 ∧
    Expected.Retires (waitc 5) 0 0 0x44078 0x43000 ∧
    Expected.Packet fence 0 0 [6, 0, 0, 0, 0, 0, 0, 0] ∧
    Expected.WaitRef fence (seqReq 0 (fence.queueOf 0 0).asid) (fence.queueOf 0 0).shares 0x45000 5 ∧
    5 < (BitVec.ofNat 64 (8 * TMap.get 0 fence.qcount (8 * (fence.thread 0 0).desc.getD 0 + 0)) : Word).toNat ∧
    Expected.Packet (sigc 1) 0 0 [4, 0x00C1000000000000, 1, 3, 0, 0, 0, 0] ∧
    Expected.Retires (sigc 1) 0 0 0x44078 0x43000 ∧
    8 * (((sigc 1).thread 0 0).next.toNat / 2 ^ ((sigc 1).queueOf 0 0).log2n) + 7 < 2 ^ 64 ∧
    Expected.memValue (sigc 1) 0x44078 8 =
      8 * (((sigc 1).thread 0 0).next.toNat / 2 ^ ((sigc 1).queueOf 0 0).log2n) + 7 ∧
    Expected.CellRef (sigc 1) 0x00C1000000000000 0 0 ∧ Expected.Fits (sigc 1) 0 0 1 (some ((3 : Word).truncate 16)) ∧
    (∀ fence : Bool, Expected.Retires (pausing fence) 0 0 0x44078 0x43000 ∧
      ((pausing fence).thread 0 0).st = .waits fence shared none .open_ ∧ (pausing fence).satWatch shared = true) := by
  refine ⟨?_, ?_, ?_, packet_of _ _ rfl ?_, waitRef_of ?_, ?_, packet_of _ _ rfl ?_, waitRef_of ?_, ?_,
    serving_retires _ ?_ ?_ ?_ ?_, packet_of _ _ rfl ?_, waitRef_of ?_, ?_, packet_of _ _ rfl ?_, serving_retires _ ?_ ?_ ?_ ?_, ?_, ?_, serving_cell _ ?_, ⟨?_, fun g h => by injection h with h; rw [← h]; decide +kernel⟩, fun fence => ?_⟩
  case refine_26 =>
    cases fence <;> refine ⟨serving_retires _ ?_ ?_ ?_ ?_, ?_, ?_⟩ <;>
      (try unfold homeOk Expected.Translates Expected.Clean Expected.NoPartials) <;> decide +kernel
  all_goals (try unfold homeOk); (try unfold Expected.Translates); (try unfold Expected.Clean Expected.NoPartials); decide +kernel

/-! ### Launches -/

def kernel0 : KernEntry := { name := "k", entry := 0, cls := 3, slots := 0, groups := 0, params := 0, patches := [] }
def image0 : Image := { asid := 0, kernels := [(0x30000, kernel0)], base := 0x20000, size := 0x10000, withdrawn := false }

/-- KERNEL: two strands on dies 0 of the kernel at 0x30000. -/
def kernelWords : List Word := [0x0000000200010001, 0x30000, 0, 0, 0, 0x00C1000000000000, 0x0003000000000001, 0]
def launching : State := { serving idleThread kernelWords with images := [(1, image0)] }

def kernelReads (s : State) : Bool :=
  match fetchPacket "KERNEL_PACKET" 0 0 (fun t => t ≤ 1 || 6 < t) ⟨s, .refl⟩ with
  | .ok (some ws) σ =>
    kernelFieldsOk ws &&
      match readLaunch 0
        { asid := (s.queueOf 0 0).asid, origin := (2 * (s.thread 0 0).desc.getD 0, (s.thread 0 0).next.toNat)
          num := BitVec.ofNat 16 (1024 * 0 + (s.thread 0 0).next.toNat % 1024), err := (s.queueOf 0 0).err
          shares := some (s.queueOf 0 0).shares } ws σ with
      | .ok (some (l, place)) _ => decide ((shareOf l.strands l.dieMask place 0).length = 2)
      | _ => false
  | _ => false

/-- RESTORE of an image of one context at 0x50000. -/
def restoreWords : List Word := [2, 0x50000, 0, 0, 0, 0x00C1000000000000, 0x0003000000000001, 0]
def restoring : State :=
  let s := withMem (withMem (serving idleThread restoreWords) 0x51000 [0x0010000000000000]) 0x50000
    ([0x000000014B434856, 0x0000000000000001, 0, 0x4000] ++ List.replicate 12 0 ++ [0x1000, 5184 * 2 ^ 32])
  { s with farAcq := [(2 ^ 32, 0)], primer := { s.primer with nonce := 0, debugNonce := 0 } }

/-- The state once the thread has read its packet: the die holds the translation of the packet's page. -/
def warm : State :=
  { restoring with
    dies := TMap.put restoring.dies 0
      { restoring.die 0 with
        tlb := TMap.put (restoring.die 0).tlb (tlbKey 0 0x423C0) [restoring.walk 0 0 0x423C0] } }

theorem restoring_fetches :
    (match fetchPacket "RESTORE_PACKET" 0 0 (fun t => t == 2) ⟨restoring, .refl⟩ with
     | .ok (some ws) σ => decide (ws = restoreWords) && decide (σ.val = warm)
     | _ => false) = true := by decide +kernel

theorem warm_packet : ∃ h, fetchPacket "RESTORE_PACKET" 0 0 (fun t => t == 2) ⟨restoring, .refl⟩ =
    .ok (some restoreWords) ⟨warm, h⟩ := by
  have h := restoring_fetches
  split at h
  · rename_i ws σ e
    simp only [Bool.and_eq_true, decide_eq_true_eq] at h
    obtain ⟨h1, h2⟩ := h
    subst h1
    obtain ⟨v, p⟩ := σ
    cases h2
    exact ⟨p, e⟩
  · cases h

def restoreSource : Source :=
  { asid := 0, origin := (2 * 0x41000, 15), num := 0, err := 0, shares := some 0x20045000 }

theorem warm_reads :
    (match readImage 0 restoreSource restoreWords ⟨warm, warm_packet.1⟩ with
     | .ok (some l) _ =>
       decide (((l.restore.filter fun p => dieOfCore p.2.1 == 0).map fun p => (p.1, some p.2.1)) = [(0, some 0)])
     | _ => false) = true := by decide +kernel
theorem kernelReads_launching : kernelReads launching = true := by decide +kernel

/-- A launch whose next two strands go anywhere, one of which every strand has ended, an ARM packet, an armed entry. -/
def placing : State :=
  { serving { idleThread with st := .placing 1 } [] with
    launches := [(1, { launch0 with gang := false, perDie := [(0, { todo := [(0, none), (1, none)], placed := 0, complete := false })] })] }
def completing : State := { withC (celled 5 0) fun c => { c with phase := .idle, owner := some 1 } with launches := [(1, launch0)] }

def armWords : List Word := [0x8305, 0x1234, 0x50000, 0x60000, 0x00000000180F8008, 0, 0, 0]
def templateWords : List Word := [1, 0x30000, 0, 0, 0, 0x00C1000000000000, 0x0003000000000001, 0]
def arming : State := withMem (serving idleThread armWords) 0x50000 templateWords
def arm0 : Arm :=
  { valid := true, tag := 0x1234, template := 0x50000, bufbase := 0x60000, sizes := 0x0000000018018008, err := 0, asid := 0
    fires := 2, base := 5, due := [] }
def tagged : TagMsg := { die := 0, job := 5, tag := 0x1234, payload := List.replicate 232 1 }
def armed : State :=
  let s := withMem (celled 13 0) 0x50000 templateWords
  { withDie s 0 fun d => { d with access := TMap.put (TMap.put d.access 2047 0xF000000000000000) 6143 0xF000000000000000, jobs := [(63, 0x8000000000000005)] } with
    arms := [(3, arm0)] }

theorem placing_turns : ∀ u ∈ turnsBefore (placing.die 0).turn 0, (placing.thread 0 u).st.isPlacing = false := by
  rw [show turnsBefore (placing.die 0).turn 0 = [] by decide +kernel]
  intro u hu
  cases hu

theorem completing_idle (b : Nat) (h : ((completing.ctx b).owner) = some 1) :
    (completing.ctx b).phase = .idle ∧ (completing.ctx b).preempt = none ∧ completing.keptEnded b = false := by
  by_cases hb : b = 0
  · subst hb; decide +kernel
  · exfalso
    have hs : completing.ctxs = [(0, completing.ctx 0)] := by decide +kernel
    unfold State.ctx at h
    rw [hs] at h
    simp only [TMap.get, TMap.find] at h
    rw [if_neg hb] at h
    cases h

/-- Both kinds of packet; placement of the first of two strands; a share that has ended; ARM; the message with the longest
payload, behind exactly NBUF launches. -/
theorem witness_LaunchEvents :
    kernelReads launching = true ∧
    (∃ h, fetchPacket "RESTORE_PACKET" 0 0 (fun t => t == 2) ⟨restoring, .refl⟩ = .ok (some restoreWords) ⟨warm, h⟩ ∧
      restoreFieldsOk restoreWords = true ∧
      (match readImage 0 restoreSource restoreWords ⟨warm, h⟩ with
       | .ok (some l) _ =>
         decide (((l.restore.filter fun p => dieOfCore p.2.1 == 0).map fun p => (p.1, some p.2.1)) = [(0, some 0)])
       | _ => false) = true) ∧
    restoreSource =
      { asid := (restoring.queueOf 0 0).asid
        origin := (2 * (restoring.thread 0 0).desc.getD 0, (restoring.thread 0 0).next.toNat), num := 0
        err := (restoring.queueOf 0 0).err, shares := some (restoring.queueOf 0 0).shares } ∧
    (∃ l sh core i, (placing.thread 0 0).st = .placing 1 ∧ TMap.find placing.launches 1 = some l ∧ l.atOnce = false ∧
      TMap.find l.perDie 0 = some sh ∧ sh.todo = (0, none) :: (1, none) :: [] ∧ TMap.find l.restore 0 = none ∧
      (∀ u ∈ turnsBefore (placing.die 0).turn 0, (placing.thread 0 u).st.isPlacing = false) ∧
      placing.placeAt 0 1 sh.placed l none = some (core, i)) ∧
    (TMap.find completing.launches 1 = some launch0 ∧ TMap.find launch0.perDie 0 = some share0 ∧ share0.todo = [] ∧
      share0.complete = false ∧ launch0.shares = none ∧
      (∀ b, dieOf b = 0 → (completing.ctx b).owner = some 1 → (completing.ctx b).phase = .idle ∧
        (completing.ctx b).preempt = none ∧ completing.keptEnded b = false) ∧ completing.Ordered ∧
      Expected.CellRef completing launch0.done.ref 0 0 ∧
      Expected.Fits completing 0 0 launch0.done.inc.toNat (some launch0.done.gen)) ∧
    (Expected.Packet arming 0 0 armWords ∧ (armWords.getD 0 0).toNat % 2 ^ 8 = 5 ∧ armFieldsOk armWords = true ∧
      (arming.arm 0 ((armWords.getD 0 0).toNat / 2 ^ 8 % 2 ^ 6)).due = [] ∧
      (armWords.getD 4 0).toNat % 2 ^ 12 + 8 ≤ (armWords.getD 4 0).toNat / 2 ^ 12 % 2 ^ 12 ∧
      (armWords.getD 4 0).toNat / 2 ^ 12 % 2 ^ 12 < 2 ^ ((armWords.getD 4 0).toNat / 2 ^ 24 % 16) ∧
      Expected.Reads arming (seqReq 0 (arming.queueOf 0 0).asid) (2 ^ 32) (armWords.getD 2 0) templateWords ∧
      Expected.CellRef arming (templateWords.getD 5 0) 0 0 ∧ Expected.Retires arming 0 0 0x44078 0x43000) ∧
    (TMap.get 0 (armed.die 0).jobs 63).toNat = 2 ^ 63 + tagged.job ∧
    (∀ j < 63, (TMap.get 0 (armed.die 0).jobs j).toNat ≠ 2 ^ 63 + tagged.job) ∧
    (armed.access 0 0 2047).toNat % 2 ^ 16 = 0 ∧ (armed.access 0 0 2047).toNat / 2 ^ 16 % 2 ^ 16 = 0 ∧
    admits (armed.access 0 2 2047) false true false (BitVec.ofNat 16 0) = true ∧ armed.arm 0 3 = arm0 ∧ arm0.valid = true ∧
    arm0.tag = tagged.tag ∧ (∀ j < 3, ¬ ((armed.arm 0 j).valid = true ∧ (armed.arm 0 j).tag = tagged.tag)) ∧
    tagged.payload.length + arm0.sizes.toNat / 2 ^ 12 % 2 ^ 12 ≤ 2 ^ (arm0.sizes.toNat / 2 ^ 24 % 16) ∧
    Expected.Reads armed (seqReq 0 arm0.asid) (2 ^ 32) arm0.template templateWords ∧
    Expected.CellRef armed (templateWords.getD 5 0) 0 0 ∧
    arm0.base.toNat + 8 * ((templateWords.getD 6 0).toNat % 2 ^ 48) * (arm0.fires + 1) ≤
      (armed.cell 0 0).v.toNat + 8 * ((templateWords.getD 6 0).toNat % 2 ^ 48) * 2 ^ (arm0.sizes.toNat / 2 ^ 28 % 16) ∧
    Expected.Unleased armed := by
  refine ⟨kernelReads_launching, ⟨warm_packet.1, warm_packet.2, by decide, warm_reads⟩, by decide +kernel, ⟨_, _, 0, 1, rfl, rfl, rfl, rfl, rfl, rfl, placing_turns, by decide +kernel⟩,
    ⟨rfl, rfl, rfl, rfl, rfl, fun b _ h => completing_idle b h, ?_, serving_cell' _ _ rfl ?_,
      ⟨?_, fun g h => by injection h with h; rw [← h]; decide +kernel⟩⟩,
    ⟨packet_of _ _ rfl ?_, ?_, ?_, ?_, ?_, ?_, ⟨0x50000, ?_, ?_, ?_, ?_, .inl ?_, ?_, ?_⟩, serving_cell' _ _ ?_ ?_,
      serving_retires _ ?_ ?_ ?_ ?_⟩, ?_, ?_, ?_, ?_, ?_, ?_, ?_, ?_, ?_, ?_,
    ⟨0x50000, ?_, ?_, ?_, ?_, .inl ?_, ?_, ?_⟩, serving_cell' _ _ ?_ ?_, ?_, ?_⟩
  all_goals (try unfold homeOk); (try unfold Expected.Translates); (try unfold Expected.Clean Expected.NoPartials); (try unfold Expected.Unleased)
  all_goals (try unfold State.Ordered)
  all_goals decide +kernel

/-! ### The Glaze nodes -/

def issuer0 : Issuer :=
  { agent := 0, life := (rich.ctx 0).life, launch := some 1, err := none, asid := 0, user := true, seq := 3, sig := none, slot := none
    scope := .device, index := 2 }
def glazed (g : Glaze) : State := { withMem (celled 5 0) 0x50000 [0x4000000003F800000, 0x40400000] with glaze := g }
def noGlaze : Glaze := { nreds := [], redus := [], lates := [], nsends := [], tokens := [], msgs := [], ncorrs := [] }

def nred0 : NRed :=
  { by_ := issuer0, isMax := false, ty := .f32, src := 0x50000, words := [0x60000, 0x70000, 0x00C1000000000000, 0x00C1000000000000, 1, 0x0003000300000007, 3, 0]
    member := 3, size := 8, gid := 9, num := 7 }
def redu0 : Redu :=
  { by_ := issuer0, num := some 7, gid := 9, isMax := false, ty := .f32, words := [0x60000, 0x70000, 0x00C1000000000000, 0x00C1000000000000, 0, 0x0003000300000007, 3, 0]
    size := 8, die := 0, present := [{ member := 3, vals := [1, 2, 3] }], seen := [3], closed := false }
def late0 : Late := { by_ := issuer0, words := redu0.words, con := { member := 2, vals := [1, 2, 3] } }
def nsend0 : NSend :=
  { by_ := issuer0, route := false, src := 0x50000, words := [0x60000, 0x0000000F00000040, 0, 0x0704], index := 2 }
def token0 : Token :=
  { launch := 1, base := 0x60000, table := 0x60000, asid := 0, agent := 0, die := 0, sender := 2, bytes := List.replicate 64 1, staged := false }
def msg0 : Msg :=
  { by_ := issuer0, tag := none, d := 4, words := [0x60000, 0x20048000, 0x00C1000000000000, 0x00C1000000000000, 0x0003000000000804, 0, 0, 0]
    src := 0x50000, bytes := 16, ticket := some 20, written := false, index := 2 }
def ncorr0 : NCorr := { by_ := issuer0, scale := false, d := 4, words := redu0.words }

def glazeNode : Req := { die := 0, asid := 0, user := true, master := 1952 }


/-- What `writes_of` asks. -/
def writeOk (s : State) (q : Req) (agent : Nat) (va : Word) (n pa : Nat) : Prop :=
  (s.walkWord ((s.die q.die).rootbase.toNat % 2 ^ 46 + 8 * q.asid.toNat) = 0x8000000000000200 ∧
    s.walkWord (field 0x8000000000000200 9 37 * 512 + 8 * field va 42 6) = 0x8000000000000001 ∧
    (s.die q.die).rootbase.toNat % 2 ^ 46 + 8 * q.asid.toNat + 8 ≤ 0x20000 ∧
    field 0x8000000000000200 9 37 * 512 + 8 * field va 42 6 + 8 ≤ 0x20000 ∧
    leafFrame 0x8000000000000001 * 2 ^ 16 + 8 * field va 29 13 + 8 ≤ 0x20000 ∧
    leafLeaf (s.walkWord (leafFrame 0x8000000000000001 * 2 ^ 16 + 8 * field va 29 13)) = true ∧
    (s.walk q.die q.asid va).big = true) ∧
  Expected.Translates s q .store va pa ∧ leafK (s.walk q.die q.asid va).leaf = false ∧ 0x20000 ≤ pa ∧
  va.toNat % 2 ^ 16 + n ≤ 2 ^ 16 ∧ s.linkUp pa = true ∧
  ((List.range n).all fun i => s.leasedByOther agent (pa + i) == false) = true ∧ s.fadds = [] ∧ s.lineKey = []

theorem writes_ok {s : State} {q : Req} {agent : Nat} {va : Word} {n pa : Nat} (h : writeOk s q agent va n pa) :
    Expected.Writes s q agent va n pa :=
  have ⟨⟨a, b, c, d, e, f, g⟩, t, k, p, n, l, m, x, y⟩ := h
  writes_of ⟨a, b, c, d, e, f, g⟩ t k p n l m x y

theorem readsBytes_ok {s : State} {q : Req} {agent : Nat} {va : Word} {n pa : Nat}
    (h : va.toNat % 2 ^ 16 + n ≤ 2 ^ 16 ∧ Expected.Translates s q .load va pa ∧ Expected.Clean s pa n ∧
      ((List.range n).all fun i =>
        s.leasedByOther agent (pa + i) == false && (TMap.find s.lineKey ((pa + i) / 256)).isNone) = true) :
    Expected.ReadsBytes s q agent va n pa := by
  refine ⟨h.1, h.2.1, h.2.2.1, fun i hi => ?_⟩
  have := List.all_eq_true.1 h.2.2.2 i (List.mem_range.2 hi)
  simp only [Bool.and_eq_true, beq_iff_eq, Option.isNone_iff_eq_none] at this
  exact ⟨this.1, .inl this.2⟩

def ncorrAnswers (s : State) : Bool :=
  match (do actFor ncorr0.by_; ncorrEffect ncorr0 [] : M s _) ⟨s, .refl⟩ with | .ok (v, l) _ => decide (v = 0 ∧ l = []) | _ => false

def glazedWait (g : Glaze) (k : WaitKind) : State :=
  withC (glazed g) fun c => { c with phase := .waiting, wait := some (wait0 k [] none) }
def glazedGang (g : Glaze) : State :=
  withMem (withC (glazed g) fun c => { c with gang := some (member false) }) 0x60000 [0, 0, 0, 0x70000, 1]

/-- An add that is owed for the operation of an order of issue. -/
def owed0 (seq : Nat) : Owed :=
  { by_ := { issuer0 with seq := seq }, own := false, die := 0, agent := 25472
    sig := { ref := 0x00C1000000000000, gen := 3, inc := 1, scope := .system } }

/-- A contribution to a reduction that has none; a deadline at this time; a late contribution; a block that fills its slot; the
last place of the staging area; the last ticket that there is room for; corrections of a result, and of a scaled one. -/
theorem witness_GlazeEvents :
    let s0 := glazed { noGlaze with nreds := [(1, nred0)] }
    let s1 := glazed { noGlaze with redus := [(1, redu0)] }
    let s2 := glazed { noGlaze with lates := [(1, late0)] }
    let s3 := glazed { noGlaze with nsends := [(1, nsend0)] }
    let s4 := glazedGang { noGlaze with tokens := [(1, token0)] }
    let s5 := glazedWait { noGlaze with msgs := [(1, msg0)] } (.msg 1)
    let s6 := glazed { noGlaze with ncorrs := [(1, ncorr0)] }
    let s7 := withMem s6 0x60080 [0x80000000]
    let s8 : State := { glazed noGlaze with owed := [owed0 2, owed0 3] }
    let s9 := glazedWait { noGlaze with msgs := [(1, { msg0 with written := true })] } (.msg 1)
    let q := glazeNode
    let stage : Req := { die := 0, asid := 0, user := false, master := 1952 }
    (Expected.Silent issuer0 ∧ Expected.ReadsBytes s0 q 25472 nred0.src (3 * (nred0.ty.bits / 8)) 0x50000 ∧
      s0.unseen = [] ∧ s0.findRedu nred0 = none ∧ nred0.size ≠ 1 ∧ s0.time < (wordAt nred0.words 4).toNat) ∧
    (redu0.closed = false ∧ wordAt redu0.words 4 ≠ BitVec.allOnes 64 ∧ (wordAt redu0.words 4).toNat ≤ s1.time ∧
      Expected.Writes s1 q 25472 (wordAt redu0.words 0) (256 + 4 * 3) 0x60000) ∧
    (s8.owed[1]? = some (owed0 3) ∧ (∀ p ∈ s8.owed.take 1, p.by_.seq ≠ (owed0 3).by_.seq) ∧
      Expected.CellRef s8 (owed0 3).sig.ref 0 0 ∧ Expected.Fits s8 0 0 (owed0 3).sig.inc (some (owed0 3).sig.gen)) ∧
    (Expected.Writes s2 q 25472
        (wordAt late0.words 1 + BitVec.ofNat 64 (late0.con.member * (64 + 64 * ((3 + 15) / 16)))) (64 + 4 * 3) 0x70100) ∧
    (s3.unseen = [] ∧ wordAt nsend0.words 2 = 0 ∧ Expected.ReadsBytes s3 q 25472 nsend0.src 64 0x50000 ∧
      Expected.Writes s3 q 25472 (wordAt nsend0.words 0 + BitVec.ofNat 64 (15 * 128)) (64 + 64) 0x60780) ∧
    (Expected.Reads s4 stage 25472 token0.table [0, 0, 0, 0x70000, 1] ∧
      (s4.glaze.tokens.filter fun p =>
        p.2.staged && p.2.launch == token0.launch && p.2.table == token0.table && p.2.die == token0.die).length = 0 ∧
      Expected.Writes s4 stage 25472 (0x70000 + BitVec.ofNat 64 (0 * token0.bytes.length)) token0.bytes.length 0x70000 ∧
      0 ∈ s4.gangLive token0.launch ∧ (s4.ctx 0).gang = some (member false) ∧ (member false).arrived = false) ∧
    (Expected.CellRef s5 (wordAt msg0.words 2) 0 0 ∧ 20 + 1 ≤ (s5.cell 0 0).v.toNat + 2 ^ ((wordAt msg0.words 4).toNat % 16) ∧
      s5.unseen = [] ∧ Expected.CellRef s9 (wordAt msg0.words 3) 0 0 ∧
      Expected.Fits s9 0 0 1 (some (BitVec.ofNat 16 ((wordAt msg0.words 4).toNat / 2 ^ 48))) ∧
      Expected.ReadsBytes s5 q 25472 msg0.src msg0.bytes 0x50000 ∧
      Expected.Writes s5 q 25472 (wordAt msg0.words 0 + BitVec.ofNat 64 (20 % 2 ^ 4 * 2 ^ 8)) (16 + msg0.bytes) 0x60400 ∧
      (s9.ctx 0).life = issuer0.life ∧ (s9.ctx 0).phase = .waiting ∧ (s9.ctx 0).wait.map (·.kind) = some (.msg 1)) ∧
    s6.ofCtx 0 issuer0 = true ∧ ncorrAnswers s6 = true ∧ s7.unseen = [] ∧
    Expected.ReadsBytes s7 q 25472 (wordAt ncorr0.words 0) (256 + 4 * 3) 0x60000 ∧
    Expected.memValue s7 (0x60000 + 128) 8 / 2 ^ 31 % 2 = 1 := by
  refine ⟨⟨rfl, readsBytes_ok ?_, rfl, rfl, by decide, by decide +kernel⟩,
    ⟨rfl, by decide, by decide +kernel, writes_ok ?_⟩,
    ⟨rfl, by decide, serving_cell _ ?_, ⟨?_, fun g h => by injection h with h; rw [← h]; decide +kernel⟩⟩,
    writes_ok ?_,
    ⟨rfl, rfl, readsBytes_ok ?_, writes_ok ?_⟩,
    ⟨⟨0x60000, ?_, ?_, ?_, ?_, .inl ?_, ?_, ?_⟩, rfl, writes_ok ?_, ?_, rfl, rfl⟩,
    ⟨cellRef_of' rfl ?_ ?_ ?_, ?_, rfl, cellRef_of' rfl ?_ ?_ ?_, ⟨?_, fun g h => by injection h with h; rw [← h]; decide +kernel⟩,
      readsBytes_ok ?_, writes_ok ?_, rfl, rfl, rfl⟩, rfl, ?_, rfl, readsBytes_ok ?_, ?_⟩
  all_goals (try unfold writeOk); (try unfold Expected.Translates); (try unfold Expected.Clean Expected.NoPartials)
  all_goals decide +kernel

/-! ### Errors, storage, boot, programs -/

/-- A read of 128 bytes for the counter 0 of core 0, with the completion record at 0x60000. -/
def storWords (op : Word) : List Word := [op, 0, 0x50000, 128, 0, 0, 0, 0, 0, 0x00C1000000000000, 0x0003000000000001, 0x60000, 0, 0, 0, 0]
def stored (op : Word) : State :=
  let s := withMem (celled 5 0) 0x50780 (storWords op)
  { withDie s 0 (fun d => { d with storq := 0x50004, storbell := 31 }) with stor := [(1, { die := 0, asid := 0, words := storWords op })] }
def storageNode : Req := { die := 0, asid := 0, user := false, master := 1960 }

/-- The last core, the last block of each store; the last entry of the ring; a flush and a failed read that complete. How long a
Write's data are lies with its target's blocks, which are opaque: no state can be shown to meet that hypothesis. -/
theorem witness_ErrorAndStorageEvents :
    Expected.Unleased base ∧ (∀ i < 16, (base.ctx (16 * 1567 + i)).gang = none) ∧
    (∀ i < 256, base.inModule (0x40000 + i) = true) ∧ 0x3FF00 + 256 ≤ (if 1567 < 1536 then 0x80000 else 0x40000) ∧
    0x3FFF00 + 256 ≤ 2 ^ 22 ∧ base.inModule (0 / 6 * 2 ^ 43 + 0 % 6 * 2 ^ 40 + 0x40000 / 256 * 256) = true ∧
    (base.link (0 / 6) (0 % 6)).up = true ∧
    (32 : Word).toNat = ((stored 1).die 0).storbell.toNat + 1 ∧ ((stored 1).die 0).storq.toNat % 16 = 4 ∧
    storageRefusal (storWords 1) = none ∧
    Expected.Reads (stored 1) storageNode 25480
      (BitVec.ofNat 64 (((stored 1).die 0).storq.toNat / 2 ^ 12 * 2 ^ 12 + 128 * (((stored 1).die 0).storbell.toNat % 2 ^ 4)))
      (storWords 1) ∧
    (∀ op : Bool, (wordAt (storWords (if op then 2 else 0)) 0).toNat % 2 ^ 8 ≠ 1 ∧ ¬ ((wordAt (storWords (if op then 2 else 0)) 0).toNat % 2 ^ 8 = 2 ∧ (if op then 5 else 0 : BitVec 16) = 0) ∧
      TMap.find (stored (if op then 2 else 0)).stor 1 = some { die := 0, asid := 0, words := storWords (if op then 2 else 0) } ∧
      Expected.Writes (stored (if op then 2 else 0)) storageNode 25480 0x60000 16 0x60000) := by
  refine ⟨?_, ?_, ?_, ?_, ?_, ?_, ?_, ?_, ?_, ?_, ⟨0x50780, ?_, ?_, ?_, ?_, .inl ?_, ?_, ?_⟩, fun op => ?_⟩
  case refine_18 =>
    cases op <;>
    refine ⟨?_, ?_, rfl, writes_ok ?_⟩ <;>
    (try unfold writeOk Expected.Translates) <;> decide +kernel
  all_goals (try unfold Expected.Unleased); (try unfold Expected.Translates); (try unfold Expected.Clean Expected.NoPartials); decide +kernel

def booting (b : Boot) : State :=
  { base with primer := { base.primer with boot := b, nonce := 7, accepted := some { location := 0, floor := 0, keys := [], nonce := 7, publicKey := [], signature := [] } } }

theorem no_image (keys : List (Nat × BitVec 256)) (floor : Word) : checkImage [] keys floor = .error .badmagic := rfl

/-- A retry, the ports, a manifest for another nonce, an image that is none, KEYCTL with and without bit 63, NODEID before and after the
latch. Whether a manifest, an image or an unlock is good lies with the cryptography, which is opaque: no state can be
shown to meet those hypotheses. -/
theorem witness_PrimerEvents :
    let m : Manifest := { location := 0, floor := 0, keys := [], nonce := 8, publicKey := [], signature := [] }
    (booting .wait).primer.boot = .wait ∧ (booting .wait).primer.retryAt ≤ (booting .wait).time ∧
    (booting .ports).primer.boot = .ports ∧ (booting .manifest).primer.boot = .manifest ∧ ¬ (m.nonce = (booting .manifest).primer.nonce ∧
      Config.sha256 m.publicKey = (if Config.opHash = 0 then Config.rootHash else Config.opHash) ∧
      Config.sigOk m.publicKey (Config.manifestBytes m.location m.floor m.keys m.nonce) m.signature = true) ∧
    (booting .image).primer.boot = .image ∧
    (∀ keys floor, ¬ (([] : List Byte).length ≤ 2 ^ 26 ∧ ∃ ks, checkImage [] keys floor = .ok ks)) ∧
    (0x8000000000000005 : Word).getLsbD 63 = true ∧ (5 : Word).getLsbD 63 = false ∧ base.node = none ∧
    ({ base with node := some 5 } : State).node = some 5 ∧ (∀ v l, base.agenda ≠ .event (.keyctl v) :: l) := by
  refine ⟨rfl, by decide +kernel, rfl, rfl, fun h => absurd h.1 (by decide +kernel), rfl, fun keys floor h => ?_, by decide,
    by decide, by decide +kernel, rfl, ?_⟩
  · obtain ⟨ks, h⟩ := h.2
    rw [no_image] at h
    cases h
  · intro v l h
    have : base.agenda = [.issue 0] := by decide +kernel
    rw [this] at h
    cases h

def crackJumps (s : State) : Bool :=
  match crackBody ⟨s, .refl⟩ with | .ok f _ => decide (f.target = some 0xCB000000020002) | _ => false

/-- Context 0 of core 1,536 is at a `br` to the next operation. -/
def cracking : State :=
  let s := withMem (withR easel fun r => { r with pc := r.pc + 0xCB000000000000 }) 0x20000 [0x012A]
  { s with fwd := none, cur := 24576 }

/-- The same core in kernel mode at an arithmetic operation of site 3, with the operands 5 and 7 in the words 5 and 6 of its
frame and the result in word 4. -/
def adding (op : Byte) : State :=
  let s := withX (withMode easel .kernel) [(2, 0x1000)]
  let s := withR s fun r => { r with pc := r.pc + 0xCB000000000000 }
  { withMem s 0x20000 [BitVec.ofNat 64 (0x0605040300 + op.toNat)] with
    fwd := none, cur := 24576
    ls := [(1536 * 2 ^ 20 + 0x1028, 41), (1536 * 2 ^ 20 + 0x1030, 57)] }

/-- What the statement asks of an operation. -/
def operates (op : Byte) : Prop :=
  let u := adding op
  let bs : List Byte := [op, 3, 4, 5, 6]
  1536 ≤ coreOf 24576 ∧ (u.core (coreOf 24576)).failed = false ∧ u.runningCtx (coreOf 24576) = some (24576 % 16) ∧ u.Alone ∧
  (u.ctx 24576).straight = false ∧ Expected.CrackAt u bs ∧ takeOp bs = some ({ op := op.toNat, args := [3, 4, 5, 6] }, []) ∧ 0x87 ≤ op.toNat ∧ op.toNat ≤ 0x8D ∧
  (∀ n ∈ [5, 6], Expected.LocalAccess u true false (u.regs.getX 2 + BitVec.ofNat 64 (8 * n)) 8 ∧
    Expected.LocalClean u (u.regs.getX 2 + BitVec.ofNat 64 (8 * n)) 8) ∧
  Expected.localValue u (u.regs.getX 2 + 40) 8 = 41 ∧ Expected.localValue u (u.regs.getX 2 + 48) 8 = 57 ∧
  (41 : Word).truncate 3 = (1 : BitVec 3) ∧ (57 : Word).truncate 3 = (1 : BitVec 3)

theorem adding_icache (op : Byte) (h : op = 0x87 ∨ op = 0x8A) : ∀ i < 32,
    TMap.find ((adding op).core (coreOf (adding op).cur)).icache
      ((adding op).regs.asid.toNat * 2 ^ 64 + 0x20000 / 256 * 256 + 8 * i) = none := by
  rcases h with rfl | rfl <;> decide +kernel

theorem crack_at (op : Byte) (h : op = 0x87 ∨ op = 0x8A) : Expected.CrackAt (adding op) [op, 3, 4, 5, 6] := by
  have hi := adding_icache op h
  unfold Expected.CrackAt
  have hv : BitVec.ofNat 64 ((adding op).regs.pc.toNat / 2 ^ 56 * 2 ^ 56 + (adding op).regs.pc.toNat % 2 ^ 48) = 0x20000 := by
    rcases h with rfl | rfl <;> decide +kernel
  simp only [hv]
  refine ⟨?_, .inl ?_, 0x20000, ?_, .inl ?_, ?_, ?_, ?_, ?_, fun i hlt => ⟨?_, fun w hw => ?_⟩⟩
  case refine_6 => rcases h with rfl | rfl <;> exact no_lines (by decide +kernel) (by decide +kernel)
  case refine_10 =>
    rw [show (0x20000 : Word).toNat = 0x20000 from rfl, hi i hlt] at hw
    cases hw
  case refine_9 => rcases h with rfl | rfl <;> rfl
  all_goals
    (try unfold Expected.Translates); (try unfold Expected.Clean Expected.NoPartials)
    rcases h with rfl | rfl <;> decide +kernel

/-- addd, whose sum is a small integer, and divd, which is the routine's. -/
theorem operates_of (op : Byte) (h : op = 0x87 ∨ op = 0x8A) : operates op := by
  have hc := crack_at op h
  unfold operates State.Alone Expected.LocalAccess Expected.LocalClean
  rcases h with rfl | rfl
  all_goals refine ⟨?_, ?_, ?_, ?_, ?_, hc, ?_⟩ <;> decide +kernel

theorem cracking_result :
    Expected.smallResult 0x87 41 57 = some 97 ∧
    Expected.LocalAccess (adding 0x87) false true ((adding 0x87).regs.getX 2 + BitVec.ofNat 64 (8 * 4)) 8 ∧
    Expected.smallResult 0x8A 41 57 = none ∧ Expected.LocalAccess (adding 0x8A) true false 0x150 8 ∧
    Expected.LocalClean (adding 0x8A) 0x150 8 := by
  unfold Expected.LocalAccess Expected.LocalClean
  and_intros <;> decide +kernel

/-- An image that is refused (whether one is accepted lies with the signature and is opaque); an image in use; addd and divd of
the crack unit, and a branch. -/
theorem witness_ProgramEvents :
    operates 0x87 ∧ operates 0x8A ∧
    (Expected.smallResult 0x87 41 57 = some 97 ∧
      Expected.LocalAccess (adding 0x87) false true ((adding 0x87).regs.getX 2 + BitVec.ofNat 64 (8 * 4)) 8 ∧
      Expected.smallResult 0x8A 41 57 = none ∧ Expected.LocalAccess (adding 0x8A) true false 0x150 8 ∧
      Expected.LocalClean (adding 0x8A) 0x150 8) ∧
    (∀ keys floor, checkImage [] keys floor = .error .badmagic) ∧ TMap.find launching.images 1 = some image0 ∧
    image0.withdrawn = false ∧ 1536 ≤ coreOf 24576 ∧ (cracking.core (coreOf 24576)).failed = false ∧
    cracking.runningCtx (coreOf 24576) = some (24576 % 16) ∧ (cracking.ctx 24576).r.pc.toNat / 2 ^ 48 % 2 ^ 8 = 0xCB ∧
    cracking.Alone ∧ crackJumps { cracking with fwd := none, cur := 24576 } = true := by
  refine ⟨operates_of _ (.inl rfl), operates_of _ (.inr rfl), cracking_result, no_image, rfl, rfl, ?_⟩
  unfold State.Alone
  and_intros <;> decide +kernel

/-! ### The whole device -/

/-- The next step of this state issues DIV x5, x6, x7 (R438). -/
def stepping : State := State.reset.withFetchWord 64 0x0701461C00000000

theorem witness_StepRunsDecoded :
    let u := stepping.advance []
    stepping.agenda = .issue 0 :: [] ∧ stepping.still = false ∧ (u.core 0).failed = false ∧ (u.core 0).trace = .none ∧
    u.runningCtx 0 = some 0 ∧ u.rollDueOf 0 = none ∧ u.patches 0 = [] ∧ u.primer.region = [] ∧
    isCrack (u.ctx 0).r.pc = false ∧ (u.ctx 0).r.pc.toNat % 8 = 0 ∧ (u.ctx 0).r.pc.toNat % 256 + 16 ≤ 256 ∧
    Expected.Translates u (u.reqOf 0) .fetch (u.ctx 0).r.pc 0x20000 ∧
    Expected.Readable u (u.reqOf 0) (u.ctx 0).r.pc 0x20000 ∧ Expected.Clean u 0x20000 16 ∧
    (∀ k ∈ [0, 8], TMap.find (u.core 0).icache ((u.ctx 0).r.asid.toNat * 2 ^ 64 + (u.ctx 0).r.pc.toNat + k) = none) ∧
    (∀ x, Expected.Caches u 0 (u.ctx 0).r.asid (u.ctx 0).r.pc x → False) ∧
    (BitVec.ofNat 64 (Expected.memValue u 0x20000 8) : Word).getLsbD 55 = false ∧
    TMap.find u.codeOld (0x20000 / 8) = none ∧ TMap.find u.codeOld (0x20000 / 8 + 1) = none ∧
    decode (BitVec.ofNat 64 (Expected.memValue u 0x20000 8)) none = .ok (.div 5 6 7 syNone) := by
  unfold Expected.Translates Expected.Readable Expected.Clean Expected.NoPartials
  and_intros
  all_goals first | exact no_lines (P := fun _ => False) (by decide +kernel) (by decide +kernel) | decide +kernel

theorem witness_DecodeEncode : (Instr.div 5 6 7 syNone).wf = true := by decide +kernel

/-- A step whose outcome no free value decides: the turn of an event. -/
theorem witness_CanonicalStep :
    (∃ t, step { stepping with agenda := [.event (.nodeid 5)] } = .next t) ∧ stepping.Canonical ∧ stepping.Ordered := by
  refine ⟨⟨_, rfl⟩, ?_, ?_⟩
  · unfold State.Canonical; decide +kernel
  · unfold State.Ordered; decide +kernel

theorem witness_StepKeepsHistory : ∃ t, step { stepping with agenda := [.event (.nodeid 5)] } = .next t := ⟨_, rfl⟩

/-! ### One step each, with results that the spec's own examples and tables give -/

def after (i : Instr) (s : State) (f : State → Word) : Option Word :=
  match exec i s with | .next t => some (f t) | _ => none

def xAfter (i : Instr) (l : TMap Word) (d : XReg) : Option Word := after i (withX base l) fun t => t.regs.getX d
/-- The result, and the flags of sr.fcsr above it. -/
def fAfter (i : Instr) (l : TMap Word) (d : XReg) : Option Word :=
  after i (withX base l) fun t => t.regs.getX d + BitVec.ofNat 64 (t.regs.flags.toNat * 2 ^ 32)

/-- R457: REM of −7 by 2 gives −1, and REMU of 7 by 0 gives 7. -/
theorem test_rem : xAfter (.rem 5 6 7 syNone) [(6, 0xFFFFFFFFFFFFFFF9), (7, 2)] 5 = some 0xFFFFFFFFFFFFFFFF := by
  decide +kernel
theorem test_remu_zero : xAfter (.remu 5 6 7 syNone) [(6, 7), (7, 0)] 5 = some 7 := by decide +kernel

/-- R438: x6 = −1 and x7 = 1. -/
theorem test_min : xAfter (.min 5 6 7 syNone) [(6, 0xFFFFFFFFFFFFFFFF), (7, 1)] 5 = some 0xFFFFFFFFFFFFFFFF := by
  decide +kernel
theorem test_maxu : xAfter (.maxu 5 6 7 syNone) [(6, 0xFFFFFFFFFFFFFFFF), (7, 1)] 5 = some 0xFFFFFFFFFFFFFFFF := by
  decide +kernel
theorem test_minu : xAfter (.minu 5 6 7 syNone) [(6, 0xFFFFFFFFFFFFFFFF), (7, 1)] 5 = some 1 := by decide +kernel

/-- R414, R119, R112, R120: the table of 19_ref_d_l.md. -/
theorem test_ffma_one_rounding :
    fAfter (.ffma .f32 .rne 5 1 2 3 syNone) [(1, 0x3F800001), (2, 0x3F7FFFFE), (3, 0xBF800000)] 5 = some 0xA8800000 := by
  decide +kernel
theorem test_fmul_inexact :
    fAfter (.fmul .f32 .rne 5 1 2 syNone) [(1, 0x3F800001), (2, 0x3F7FFFFE)] 5 = some 0x13F800000 := by decide +kernel
theorem test_fadd_down_zero :
    fAfter (.fadd .f32 .rdn 5 1 2 syNone) [(1, 0x3F800000), (2, 0xBF800000)] 5 = some 0x80000000 := by decide +kernel
theorem test_fadd_infinities :
    fAfter (.fadd .f32 .rne 5 1 2 syNone) [(1, 0x7F800000), (2, 0xFF800000)] 5 = some 0x107FC00000 := by decide +kernel
theorem test_fdiv_minus_zero :
    fAfter (.fdiv .f32 .rne 5 1 2 syNone) [(1, 0x3F800000), (2, 0x80000000)] 5 = some 0x8FF800000 := by decide +kernel
theorem test_fsqrt_minus_zero : fAfter (.fsqrt .f32 .rne 5 1 syNone) [(1, 0x80000000)] 5 = some 0x80000000 := by decide +kernel
theorem test_fmul_overflow :
    fAfter (.fmul .f32 .rne 5 1 2 syNone) [(1, 0x71800000), (2, 0x71800000)] 5 = some 0x57F800000 := by decide +kernel

/-- R418: the values of the FCVT entry. -/
theorem test_fcvt_saturates : fAfter (.fcvt .i32 .f32 .rtz 5 6 syNone) [(6, 0x4F32D05E)] 5 = some 0x107FFFFFFF := by
  decide +kernel
theorem test_fcvt_negative : fAfter (.fcvt .i32 .f32 .rtz 5 6 syNone) [(6, 0xC0A00000)] 5 = some 0xFFFFFFFFFFFFFFFB := by
  decide +kernel
theorem test_fcvt_nan : fAfter (.fcvt .i32 .f32 .rtz 5 6 syNone) [(6, 0x7FC00000)] 5 = some 0x1000000000 := by decide +kernel

/-- R455: min(req, VLMAX). -/
theorem test_setvl : xAfter (.setvl 5 6 0 syNone) [(6, 100)] 5 = some 64 := by decide +kernel

/-- R484: the sum of the VDOT entry. -/
theorem test_vdot :
    after (.vdot .i8 .rne 0 1 2 3 4 syNone) (withR base fun r => { r with v := [(2, 0x010203FF), (3, 0x01010101), (4, 10)], vl := 1 })
      (fun t => BitVec.ofNat 64 ((t.regs.getV 1).toNat % 2 ^ 32)) = some 15 := by decide +kernel

/-- R489: the VTOPK example. -/
def topk (k3 : Word) : Option Word :=
  after (.vtopk .f32 3 2 1 3 syNone)
    (withR (withX base [(3, 4)]) fun r =>
      { r with
        v := [(1, 0x000000008000000_07FC0000040A0000040A0000040400000)], k := [(3, k3)], vl := 6 })
    fun t => BitVec.ofNat 64 ((List.range 6).foldl (fun n i => n * 16 + (t.regs.getV 2).toNat / 2 ^ (32 * i) % 16) 0)
theorem test_vtopk_ties : topk 0b111111 = some 0x1204FF := by decide +kernel
theorem test_vtopk_masked : topk 0b111101 = some 0x2045FF := by decide +kernel

/-- R170: the AMO returns 0 and leaves 1. -/
theorem test_amo_add :
    after (.amo .d .global .add 5 4 3 0 syNone) (withX base [(3, 1), (4, 0x40000)])
      (fun t => t.regs.getX 5 * 16 + BitVec.ofNat 64 (Expected.memValue t 0x40000 8)) = some 1 := by decide +kernel
theorem test_cas_of_other :
    after (.cas .d .global 6 4 7 0 syNone) (withX (withMem base 0x40000 [1]) [(4, 0x40000), (6, 0), (7, 10)])
      (fun t => t.regs.getX 6 * 16 + BitVec.ofNat 64 (Expected.memValue t 0x40000 8)) = some 0x11 := by decide +kernel

/-- R408: of c1 and c2 only c2 has its mark. -/
theorem test_cwait_any :
    after (.cwaitAny 15 1 16 17 syNone)
      (withR (withX (celled 5 0) [(16, 3), (17, 0)]) fun r =>
        { r with slots := [(1, { (celled 5 0).slot 0 1 with mark := 1 })] })
      (fun t => t.regs.getX 15) = some 0x100 := by decide +kernel

end Sys2Proof.Tests
end

section
/-! What a step keeps of the device's history: device time, the measurement log, the latched node number (R4, R45, R378). -/

namespace Sys2Proof.Machine

/-- The history of `t` continues that of `s`: time has not gone back, the log has only grown, a latched node number stands. -/
structure State.Continues (s t : State) : Prop where
  time_le : s.time ≤ t.time
  log_prefix : s.log <+: t.log
  node_kept : ∀ n, s.node = some n → t.node = some n

theorem State.Continues.refl (s : State) : s.Continues s := ⟨Nat.le_refl _, List.prefix_refl _, fun _ h => h⟩

/-- A change of any other part of the state continues the history. -/
theorem State.Continues.of_eq {s t : State} (htime : t.time = s.time) (hlog : t.log = s.log) (hnode : t.node = s.node) :
    s.Continues t :=
  ⟨htime.ge, hlog ▸ List.prefix_refl _, fun _ h => hnode.trans h⟩

theorem State.Continues.trans {s t u : State} (h1 : s.Continues t) (h2 : t.Continues u) : s.Continues u :=
  ⟨h1.time_le.trans h2.time_le, h1.log_prefix.trans h2.log_prefix, fun n h => h2.node_kept n (h1.node_kept n h)⟩

theorem pass_continues (s : State) (ns : Nat) : s.Continues ((Upd.pass ns).apply s) :=
  ⟨Nat.le_add_right _ _, List.prefix_refl _, fun _ h => h⟩

theorem measure_continues (s : State) (m : Measure) : s.Continues ((Upd.measure m).apply s) :=
  ⟨Nat.le_refl _, List.prefix_append _ _, fun _ h => h⟩

/-- A write of NODEID changes nothing once a number is latched. -/
theorem latchNode_of_latched {s : State} {n : BitVec 8} (h : s.node = some n) (v : BitVec 8) :
    (Upd.latchNode v).apply s = s := by
  simp [Upd.apply, h]

theorem latchNode_of_unlatched {s : State} (h : s.node = none) (v : BitVec 8) :
    (Upd.latchNode v).apply s = { s with node := some v } := by
  simp [Upd.apply, h]

theorem latchNode_continues (s : State) (v : BitVec 8) : s.Continues ((Upd.latchNode v).apply s) := by
  cases h : s.node with
  | none =>
    rw [latchNode_of_unlatched h]
    exact ⟨Nat.le_refl _, List.prefix_refl _, fun n hn => by rw [h] at hn; cases hn⟩
  | some n =>
    rw [latchNode_of_latched h]
    exact .refl s

/-- Only the passing of time, a measurement and a write of NODEID touch the history, and each of them continues it. -/
theorem Upd.continues (s : State) (u : Upd) : s.Continues (u.apply s) := by
  cases u
  case pass ns => exact pass_continues s ns
  case measure m => exact measure_continues s m
  case latchNode v => exact latchNode_continues s v
  all_goals exact .of_eq rfl rfl rfl

theorem Reach.continues {s t : State} (h : Reach s t) : s.Continues t :=
  h.keeps (P := s.Continues) (fun t u ht => ht.trans (u.continues t)) (.refl s)

/-- A turn that leaves Still is one of the two resets. -/
theorem Turn.leavesStill_iff (x : Turn) : x.leavesStill = true ↔ x = .event .reset ∨ x = .event .thermalTrip := by
  constructor
  · intro h
    unfold Turn.leavesStill at h
    split at h
    · exact .inl rfl
    · exact .inr rfl
    · cases h
  · rintro (rfl | rfl) <;> rfl

/-- Settles O60: a step is a sequence of updates, each of which continues the history, or a reset that the agenda names. -/
theorem stepKeepsHistory : Obligations.StepKeepsHistory := by
  unfold Obligations.StepKeepsHistory
  intro s t h
  rcases step_reach h with hr | ⟨x, l, hl, hx, -⟩
  · obtain ⟨htime, ⟨m, hm⟩, hnode⟩ := hr.continues
    exact .inr (.inr ⟨htime, ⟨m, hm.symm⟩, hnode⟩)
  · rcases x.leavesStill_iff.1 hx with rfl | rfl
    · exact .inl ⟨l, hl⟩
    · exact .inr (.inl ⟨l, hl⟩)

end Sys2Proof.Machine
end

section
/-! What a reset leaves (R4, R45, R49, R124, R213, R375, R380). -/

namespace Sys2Proof.Machine

/-- A map that lists the keys of `l`, each with its value under `f`. -/
theorem TMap.find_map {α : Type} (f : Nat → α) (l : List Nat) (j : Nat) :
    TMap.find (l.map fun k => (k, f k)) j = if j ∈ l then some (f j) else none := by
  induction l with
  | nil => rfl
  | cons k l ih =>
    rw [List.map_cons, TMap.find, ih]
    by_cases h : j = k
    · subst h; simp
    · simp [h]

theorem TMap.get_map_range {α : Type} (d : α) (f : Nat → α) {n k : Nat} (h : k < n) :
    TMap.get d ((List.range n).map fun i => (i, f i)) k = f k := by
  rw [TMap.get, TMap.find_map, if_pos (List.mem_range.2 h), Option.getD_some]

/-- Each of the 128 memory keys has a new generation after a restart (R377). -/
theorem restart_keyGen_get (s : State) {k : Nat} (h : k < 128) :
    TMap.get 0 s.restart.keyGen k = TMap.get 0 s.keyGen k + 1 :=
  TMap.get_map_range 0 (fun k => TMap.get 0 s.keyGen k + 1) h

@[simp] theorem reset_ctx (a : Nat) : State.reset.ctx a = Ctx.reset (isEasel (coreOf a)) := rfl

@[simp] theorem reset_thread (die slot : Nat) : State.reset.thread die slot = Thread.reset := rfl

/-- No predicate is listed in the registers at reset, so that each reads all ones, as k0 does always. -/
theorem reset_getK (easel : Bool) (n : KReg) : (Regs.reset easel).getK n = BitVec.allOnes 64 := by
  unfold Regs.getK
  split <;> rfl

/-- Settles O52: both resets restart the device, and the rest reads off the reset values. -/
theorem resetResult : Obligations.ResetResult := by
  unfold Obligations.ResetResult
  refine ⟨fun s => ⟨s.restart, exec_resets s rfl, exec_resets s rfl, rfl, fun k hk => restart_keyGen_get s hk, rfl⟩,
    fun a => ?_, fun die slot => ?_, rfl, rfl, rfl, rfl, fun n => ?_, rfl⟩
  · rw [reset_ctx]
    exact ⟨rfl, rfl, rfl⟩
  · rw [reset_thread]
    rfl
  · rw [reset_ctx]
    exact reset_getK _ n

end Sys2Proof.Machine
end

section
/-! Loops over a list that go on to its end, and how the start of a strand runs. -/

namespace Sys2Proof.Machine

variable {s0 : State}

/-- A loop that no turn leaves early runs to its end, and what every turn keeps for the elements done, in the order of the
latest first, holds then for all. -/
theorem run_forIn_invariant {α : Type} {P : List α → State → Prop} {f : α → PUnit → M s0 (ForInStep PUnit)} (l : List α)
    (turn : ∀ done, ∀ x ∈ l, ∀ σ : At s0, P done σ.val → ∃ τ, f x ⟨⟩ σ = .ok (.yield ⟨⟩) τ ∧ P (x :: done) τ.val) :
    ∀ (done : List α) (σ : At s0), P done σ.val → ∃ τ, forIn l PUnit.unit f σ = .ok ⟨⟩ τ ∧ P (l.reverse ++ done) τ.val := by
  induction l with
  | nil => exact fun done σ h => ⟨σ, rfl, h⟩
  | cons x l ih =>
    intro done σ h
    obtain ⟨ρ, hρ, h⟩ := turn done x List.mem_cons_self σ h
    obtain ⟨τ, hτ, h⟩ := ih (fun done y hy => turn done y (List.mem_cons_of_mem x hy)) (x :: done) ρ h
    refine ⟨τ, ?_, by simpa using h⟩
    rw [List.forIn_cons, run_bind_ok hρ]
    exact hτ

/-! ### The parts of a start -/

theorem cell_upd_of_cells {s t : State} (h : ∃ cells, t = { s with cells := cells }) (k : Nat) (c : Cell) :
    ∃ cells, (Upd.cell k c).apply t = { s with cells := cells } := by
  obtain ⟨cells, rfl⟩ := h
  exact ⟨_, rfl⟩

/-- New cells change the cells alone. -/
theorem run_freshCells (core base n : Nat) (σ : At s0) :
    ∃ τ cells, freshCells core base n σ = .ok () τ ∧ τ.val = { σ.val with cells := cells } := by
  unfold freshCells
  obtain ⟨τ, hτ, cells, h⟩ := run_forIn_invariant (s0 := s0) (P := fun _ t => ∃ cells, t = { σ.val with cells := cells })
    (f := fun i _ => do
      let s ← st
      upd (.cell (256 * core + base + i) { v := 0, g := (s.cell core (base + i)).g + 1 })
      pure (.yield ⟨⟩))
    (List.range n)
    (fun done i _ ρ h => ⟨_, rfl, cell_upd_of_cells h _ _⟩) [] σ ⟨_, rfl⟩
  exact ⟨τ, cells, run_bind_ok hτ, h⟩

theorem run_learnAll (party : Nat) (σ : At s0) :
    ∃ τ joins, learnAll party σ = .ok () τ ∧ τ.val = { σ.val with joins := joins } := by
  unfold learnAll addJoins
  simp only [run_bind, run_st]
  split
  · exact ⟨_, _, rfl, rfl⟩
  · exact ⟨σ, _, rfl, rfl⟩

theorem run_startTime (a : Nat) (σ : At s0) :
    ∃ τ times joins, startTime a σ = .ok () τ ∧ τ.val = { σ.val with times := times, joins := joins } := by
  obtain ⟨τ, joins, hτ, h⟩ := run_learnAll a (σ.upd (.times (σ.val.times.reach (some a) σ.val.times.top)))
  exact ⟨τ, _, joins, hτ, h⟩

/-- The scan after a start sets at most one context RUNNING (R56). -/
theorem run_startScan (core : Nat) (σ : At s0) :
    ∃ τ ctxs cores, startScan core σ = .ok () τ ∧ τ.val = { σ.val with ctxs := ctxs, cores := cores } ∧
      ∀ b, τ.val.ctx b = σ.val.ctx b ∨ τ.val.ctx b = { σ.val.ctx b with phase := .running } := by
  unfold startScan
  simp only [run_bind, run_st]
  split
  · cases σ.val.nextReady core (σ.val.core core).last with
    | none => exact ⟨σ, _, _, rfl, rfl, fun _ => .inl rfl⟩
    | some j =>
      refine ⟨_, _, _, rfl, rfl, fun b => ?_⟩
      by_cases h : b = 16 * core + j
      · subst h
        exact .inr (ctx_upd_same _ _ _)
      · exact .inl (ctx_upd_ne _ _ h)
  · exact ⟨σ, _, _, rfl, rfl, fun _ => .inl rfl⟩

/-- A start leaves its context with the strand's registers, READY or RUNNING, and touches nothing but contexts, cores, cells, logical
times and joins (R49, R53, R56). -/
theorem run_startStrand (a : Nat) (r : Regs) (f : Ctx → Ctx) (hf : ∀ x, (f x).phase = x.phase) (σ : At s0) :
    ∃ τ ctxs cores cells times joins slots, startStrand a r f σ = .ok () τ ∧
      τ.val = { σ.val with ctxs := ctxs, cores := cores, cells := cells, times := times, joins := joins } ∧
      ((τ.val.ctx a).phase = .ready ∨ (τ.val.ctx a).phase = .running) ∧
      (τ.val.ctx a).r = (f ((σ.val.ctx a).begin { r with slots := slots })).r := by
  obtain ⟨ρ, cells, hρ, eρ⟩ := run_freshCells (coreOf a) (σ.val.ctx a).cellBase (σ.val.ctx a).nslots σ
  have hctx : ρ.val.ctx a = σ.val.ctx a := by rw [eρ]; rfl
  let slots := ρ.val.ownSlots (coreOf a) (σ.val.ctx a).cellBase (σ.val.ctx a).nslots
  let c := f ((σ.val.ctx a).begin { r with slots := slots })
  have hc : c.phase = .ready := hf _
  obtain ⟨π, times, joins, hπ, eπ⟩ := run_startTime a (ρ.upd (.ctx a c))
  have hπa : π.val.ctx a = c := by rw [eπ]; exact ctx_upd_same ρ.val a c
  obtain ⟨τ, ctxs, cores, hτ, eτ, hscan⟩ := run_startScan (coreOf a) π
  refine ⟨τ, ctxs, cores, cells, times, joins, slots, ?_, ?_, ?_, ?_⟩
  · unfold startStrand
    rw [run_bind_ok (run_st σ)]
    dsimp only
    rw [run_bind_ok hρ, run_bind_ok (run_st ρ), hctx]
    exact (run_bind_ok (run_upd _ _)).trans ((run_bind_ok hπ).trans hτ)
  · rw [eτ, eπ, At.upd_val, eρ]
    rfl
  · rcases hscan a with h | h
    · exact .inl (by rw [h, hπa, hc])
    · exact .inr (by rw [h])
  · rcases hscan a with h | h <;> rw [h, hπa]

end Sys2Proof.Machine
end

section
/-! Primer's events: the boot, the keys, the attestation, the unlock, NODEID, the clock and Still (R45, R375 to R381). -/

namespace Sys2Proof.Machine

variable {s0 : State}

@[simp] theorem run_modPrimer (f : Primer → Primer) (σ : At s0) :
    modPrimer f σ = .ok () (σ.upd (.primer (f σ.val.primer))) := rfl

@[simp] theorem run_require (name : String) (σ : At s0) : require name true σ = .ok () σ := rfl

/-- The last update of Primer is the one that stands. -/
theorem upd_primer_primer (s : State) (p q : Primer) :
    (Upd.primer q).apply ((Upd.primer p).apply s) = (Upd.primer q).apply s := rfl

/-! ### The boot -/

/-- Primer after a failure at a device time (R375). -/
def Primer.failed (p : Primer) (now : Nat) : Primer :=
  { p with
    boot := .wait, failures := p.failures + 1, request := none, accepted := none, region := [], regionW := []
    retryAt := now + 2 ^ min (p.failures + 1) 6 * 1000000000 }

theorem run_bootFail (σ : At s0) : bootFail σ = .ok () (σ.upd (.primer (σ.val.primer.failed σ.val.time))) := rfl

theorem bootRetryTimer_due {s : State} (hboot : s.primer.boot = .wait) (hdue : s.primer.retryAt ≤ s.time) :
    exec .bootRetryTimer s = .next { s with primer := { s.primer with boot := .ports } } := by
  refine run_ok (m := bootRetryTimerBody) (τ := At.upd ⟨s, .refl⟩ (.primer { s.primer with boot := .ports })) ?_
  simp [bootRetryTimerBody, hboot, hdue]

/-- The number that Primer draws next. -/
def Primer.next (p : Primer) : BitVec 256 := if p.unlocked then Config.randomZeroed p.drawn else Config.random p.drawn

theorem run_drawRandom (σ : At s0) :
    drawRandom σ = .ok σ.val.primer.next (σ.upd (.primer { σ.val.primer with drawn := σ.val.primer.drawn + 1 })) := rfl

/-- Without a link the try has failed. -/
theorem bootRequest_noLink {s : State} (hboot : s.primer.boot = .ports)
    (hport : (List.range 16).find? (Config.portLink · s.primer.tries) = none) :
    run s bootRequest =
      .next { s with primer := Primer.failed { s.primer with tries := s.primer.tries + 1 } s.time } := by
  refine run_ok (τ := (At.upd ⟨s, .refl⟩ (.primer { s.primer with tries := s.primer.tries + 1 })).upd
    (.primer (Primer.failed { s.primer with tries := s.primer.tries + 1 } s.time))) ?_
  simp [bootRequest, hboot, hport, run_bootFail]

theorem run_bootRequest_link {σ : At s0} {port : Nat} (hboot : σ.val.primer.boot = .ports)
    (hport : (List.range 16).find? (Config.portLink · σ.val.primer.tries) = some port) :
    bootRequest σ =
      .ok () (((σ.upd (.primer { σ.val.primer with tries := σ.val.primer.tries + 1 })).upd
        (.primer { σ.val.primer with tries := σ.val.primer.tries + 1, drawn := σ.val.primer.drawn + 1 })).upd
          (.primer
            { σ.val.primer with
              boot := .manifest, nonce := σ.val.primer.next
              request := some (port, σ.val.primer.next, Config.identity)
              tries := σ.val.primer.tries + 1, drawn := σ.val.primer.drawn + 1 })) := by
  unfold bootRequest
  rw [run_bind_ok (run_st σ), if_pos hboot, run_bind_ok (run_modPrimer _ _), hport]
  exact run_bind_ok (run_drawRandom _)

/-- The request goes out on the first port with a link, with the next random number. -/
theorem bootRequest_link {s : State} {port : Nat} (hboot : s.primer.boot = .ports)
    (hport : (List.range 16).find? (Config.portLink · s.primer.tries) = some port) :
    run s bootRequest =
      .next { s with
        primer :=
          { s.primer with
            boot := .manifest, nonce := s.primer.next, request := some (port, s.primer.next, Config.identity)
            tries := s.primer.tries + 1, drawn := s.primer.drawn + 1 } } := by
  have hrun := run_ok (run_bootRequest_link (σ := ⟨s, .refl⟩) hboot hport)
  rwa [At.upd_val, At.upd_val, At.upd_val, upd_primer_primer, upd_primer_primer] at hrun

theorem manifestGood_iff (p : Primer) (m : Manifest) :
    manifestGood p m = true ↔
      m.nonce = p.nonce ∧ Config.sha256 m.publicKey = (if Config.opHash = 0 then Config.rootHash else Config.opHash) ∧
      Config.sigOk m.publicKey (Config.manifestBytes m.location m.floor m.keys m.nonce) m.signature = true := by
  simp only [manifestGood, manifestSigner, Bool.and_eq_true, beq_iff_eq, and_assoc]

theorem manifest_accepted {s : State} {m : Manifest} (hboot : s.primer.boot = .manifest)
    (hgood : manifestGood s.primer m = true) :
    exec (.manifest m) s = .next { s with primer := { s.primer with boot := .image, accepted := some m } } := by
  refine run_ok (m := manifestBody m)
    (τ := At.upd ⟨s, .refl⟩ (.primer { s.primer with boot := .image, accepted := some m })) ?_
  simp [manifestBody, hboot, hgood]

theorem manifest_refused {s : State} {m : Manifest} (hboot : s.primer.boot = .manifest)
    (hbad : ¬ manifestGood s.primer m = true) :
    exec (.manifest m) s = .next { s with primer := s.primer.failed s.time } := by
  refine run_ok (m := manifestBody m) (τ := At.upd ⟨s, .refl⟩ (.primer (s.primer.failed s.time))) ?_
  simp [manifestBody, hboot, hbad, run_bootFail]

/-! ### The monitor's image -/

/-- The monitor starts in monitor mode; Primer and the measurement log are as they were. -/
theorem run_startMonitor (img : List Byte) (σ : At s0) :
    ∃ τ, startMonitor img σ = .ok () τ ∧ τ.val.primer = σ.val.primer ∧ τ.val.log = σ.val.log ∧
      (τ.val.ctx 24576).r.mode = .monitor ∧
      ((τ.val.ctx 24576).phase = .ready ∨ (τ.val.ctx 24576).phase = .running) := by
  let n := Config.pick σ.val.oracle % 257
  let ρ := (σ.upd .choose).upd
    (.ctx 24576 { σ.val.ctx 24576 with owner := none, budget := 64, nslots := n, cellBase := 0 })
  obtain ⟨τ, _, _, _, _, _, slots, hτ, eτ, hphase, hr⟩ := run_startStrand 24576
    { startRegs true (Config.monitorBase + Config.monitorEntry img) 0 0 0 0 [] [] with mode := .monitor } id (fun _ => rfl) ρ
  exact ⟨τ, hτ, by rw [eτ]; rfl, by rw [eτ]; rfl, by rw [hr]; rfl, hphase⟩

/-- The floor that the monitor's image is checked against: the manifest's, and no lower than the fuses' (R375). -/
def manifestFloor (m : Manifest) : Word := if m.floor.toNat ≤ Config.floor.toNat then Config.floor else m.floor

theorem monitorImageFetched_accepted {s : State} {img : List Byte} {m : Manifest} {ks : List Loaded}
    (hboot : s.primer.boot = .image) (hm : s.primer.accepted = some m) (hlen : img.length ≤ 2 ^ 26)
    (hks : checkImage img m.keys (manifestFloor m) = .ok ks) :
    ∃ t : State, exec (.monitorImageFetched img) s = .next t ∧
      t.primer = { s.primer with boot := .running, floor := m.floor, keys := m.keys, region := img, regionW := [] } ∧
      t.log =
        s.log ++
          [{ hash := Config.sha256 img, magic := BitVec.ofNat 32 (imgMagic img), rollback := imgRollback img
             time := s.time }] ∧
      (t.ctx 24576).r.mode = .monitor ∧
      ((t.ctx 24576).phase = .ready ∨ (t.ctx 24576).phase = .running) := by
  let entry : Measure :=
    { hash := Config.sha256 img, magic := BitVec.ofNat 32 (imgMagic img), rollback := imgRollback img, time := s.time }
  let ρ : At s := (At.upd ⟨s, .refl⟩ (.measure entry)).upd
    (.primer { s.primer with boot := .running, floor := m.floor, keys := m.keys, region := img, regionW := [] })
  obtain ⟨τ, hτ, hprimer, hlog, hctx⟩ := run_startMonitor img ρ
  refine ⟨τ.val, run_ok (m := monitorImageFetchedBody img) ?_, hprimer, hlog, hctx⟩
  unfold manifestFloor at hks
  simp only [monitorImageFetchedBody, run_bind, run_st, hboot, hm, if_neg (Nat.not_lt.2 hlen), hks]
  exact hτ

theorem monitorImageFetched_refused {s : State} {img : List Byte} {m : Manifest}
    (hboot : s.primer.boot = .image) (hm : s.primer.accepted = some m)
    (hbad : ¬ (img.length ≤ 2 ^ 26 ∧ ∃ ks, checkImage img m.keys (manifestFloor m) = .ok ks)) :
    exec (.monitorImageFetched img) s = .next { s with primer := s.primer.failed s.time } := by
  refine run_ok (m := monitorImageFetchedBody img) (τ := At.upd ⟨s, .refl⟩ (.primer (s.primer.failed s.time))) ?_
  unfold manifestFloor at hbad
  simp only [monitorImageFetchedBody, run_bind, run_st, hboot, hm]
  by_cases hlen : 2 ^ 26 < img.length
  · simp only [if_pos hlen, run_bootFail]
  · simp only [if_neg hlen]
    cases hks : checkImage img m.keys (if m.floor.toNat ≤ Config.floor.toNat then Config.floor else m.floor) with
    | error e => exact run_bootFail _
    | ok ks => exact absurd ⟨Nat.not_lt.1 hlen, ks, hks⟩ hbad

/-! ### Keys, node number and attestation -/

theorem run_keyctlBody_set {v : Word} (hv : v.getLsbD 63 = true) (σ : At s0) :
    keyctlBody v σ =
      .ok () ((σ.upd (.newKey (field v 0 7))).upd (.primer { σ.val.primer with drawn := σ.val.primer.drawn + 1 })) := by
  unfold keyctlBody
  rw [if_pos hv]
  rfl

theorem run_keyctlBody_clear {v : Word} (hv : v.getLsbD 63 = false) (σ : At s0) : keyctlBody v σ = .ok () σ := by
  unfold keyctlBody
  rw [if_neg (by rw [hv]; decide)]
  rfl

/-- KEYCTL touches neither memory nor a context. -/
theorem run_keyctlBody (v : Word) (σ : At s0) :
    ∃ τ, keyctlBody v σ = .ok () τ ∧ τ.val.mem = σ.val.mem ∧ τ.val.ctxs = σ.val.ctxs := by
  cases hv : v.getLsbD 63 with
  | true => exact ⟨_, run_keyctlBody_set hv σ, rfl, rfl⟩
  | false => exact ⟨σ, run_keyctlBody_clear hv σ, rfl, rfl⟩

theorem keyctl_set {v : Word} (hv : v.getLsbD 63 = true) (s : State) :
    exec (.keyctl v) s =
      .next { s with
        keyGen := TMap.put s.keyGen (v.toNat % 128) (TMap.get 0 s.keyGen (v.toNat % 128) + 1)
        primer := { s.primer with drawn := s.primer.drawn + 1 } } := by
  have hfield : field v 0 7 = v.toNat % 128 := by simp [field]
  rw [← hfield]
  exact run_ok (m := keyctlBody v) (run_keyctlBody_set hv ⟨s, .refl⟩)

theorem keyctl_clear {v : Word} (hv : v.getLsbD 63 = false) (s : State) : exec (.keyctl v) s = .next s :=
  run_ok (m := keyctlBody v) (run_keyctlBody_clear hv ⟨s, .refl⟩)

theorem exec_nodeid (v : Word) (s : State) : exec (.nodeid v) s = .next ((Upd.latchNode (v.truncate 8)).apply s) := rfl

theorem exec_attestationChallenge (nonce : BitVec 256) (s : State) :
    exec (.attestationChallenge nonce) s =
      (let message := Config.challengeBytes nonce (Config.sha256 s.logBytes) s.log.length Config.identity
      .next { s with
        primer :=
          { s.primer with
            signed :=
              (if s.primer.unlocked then Config.signErased message else Config.signWith Config.devseed message) ::
                s.primer.signed } }) := rfl

/-! ### The debug unlock -/

theorem natBytes_eq_map (n v : Nat) : natBytes n v = (List.range n).map fun i => BitVec.ofNat 8 (v / 256 ^ i) := by
  induction n generalizing v with
  | zero => rfl
  | succ n ih =>
    rw [natBytes, ih, List.range_succ_eq_map, List.map_cons, List.map_map, Nat.pow_zero, Nat.div_one]
    simp [Function.comp_def, Nat.pow_succ', Nat.div_div_eq_div_mul]

theorem unlockGood_iff (p : Primer) (key sig : List Byte) :
    unlockGood p key sig = true ↔
      Config.debugHash ≠ 0 ∧ Config.sha256 key = Config.debugHash ∧
      Config.sigOk key ((List.range 32).map fun i => BitVec.ofNat 8 (p.debugNonce.toNat / 256 ^ i)) sig = true := by
  simp only [unlockGood, natBytes_eq_map, Bool.and_eq_true, bne_iff_ne, beq_iff_eq, and_assoc]

/-- Every key is renewed, as the unlock does it. -/
def renewKeys : M s0 PUnit :=
  forIn (List.range 128) PUnit.unit fun k _ => do
    upd (.newKey k)
    pure (.yield ⟨⟩)

/-- The keys of `t` are those of `s`, each renewed as often as it is listed in `done`; all else stands. -/
def State.Renews (s : State) (done : List Nat) (t : State) : Prop :=
  ∃ gens, t = { s with keyGen := gens } ∧ ∀ k, TMap.get 0 gens k = TMap.get 0 s.keyGen k + done.count k

theorem State.Renews.newKey {s t : State} {done : List Nat} (h : s.Renews done t) (k : Nat) :
    s.Renews (k :: done) ((Upd.newKey k).apply t) := by
  obtain ⟨gens, rfl, hgens⟩ := h
  refine ⟨_, rfl, fun j => ?_⟩
  rw [TMap.get_put, List.count_cons]
  by_cases hj : j = k
  · subst hj
    simp [hgens, Nat.add_assoc]
  · simp [hj, hgens, Ne.symm hj]

theorem run_renewKeys (σ : At s0) :
    ∃ τ gens, renewKeys σ = .ok ⟨⟩ τ ∧ τ.val = { σ.val with keyGen := gens } ∧
      ∀ k < 128, TMap.get 0 gens k = TMap.get 0 σ.val.keyGen k + 1 := by
  obtain ⟨τ, hτ, gens, eτ, hgens⟩ := run_forIn_invariant (s0 := s0) (P := σ.val.Renews)
    (f := fun k _ => do
      upd (.newKey k)
      pure (.yield ⟨⟩))
    (List.range 128) (fun done k _ ρ h => ⟨_, rfl, h.newKey k⟩) [] σ ⟨_, rfl, fun _ => rfl⟩
  refine ⟨τ, gens, hτ, eτ, fun k hk => ?_⟩
  rw [hgens, List.append_nil, List.count_reverse, List.count_eq_one_of_mem List.nodup_range (List.mem_range.2 hk)]

/-- The debug port's entry of a table is valid. -/
def State.debugEnabled (s : State) (d tb : Nat) : Prop := (s.access d tb 1977).getLsbD 63 = true

/-- The debug port's entry of one table is enabled. -/
def enableEntry (d tb : Nat) : M s0 Unit := do
  let w ← openWord
  modDie d fun x =>
    { x with access := TMap.put x.access (2048 * tb + 1977) (0x8000000000000000 ||| keepBits w 60 3 ||| keepBits w 0 32) }

/-- The debug port's entries of a die's tables are enabled. -/
def enableEntries (d : Nat) : M s0 PUnit :=
  forIn (List.range 5) PUnit.unit fun tb _ => do
    enableEntry d tb
    pure (.yield ⟨⟩)

/-- The debug port's entries of every table are enabled. -/
def enableDebugPort : M s0 PUnit :=
  forIn (List.range 8) PUnit.unit fun d _ => do
    enableEntries d
    pure (.yield ⟨⟩)

/-- `t` is `s` but for dies and free values taken, and no entry of the debug port has lost its VALID. -/
structure State.Opens (s t : State) : Prop where
  frame : ∃ dies oracle, t = { s with dies := dies, oracle := oracle }
  kept : ∀ d tb, s.debugEnabled d tb → t.debugEnabled d tb

theorem State.Opens.refl (s : State) : s.Opens s := ⟨⟨_, _, rfl⟩, fun _ _ h => h⟩

theorem State.Opens.trans {s t u : State} (h : s.Opens t) (h' : t.Opens u) : s.Opens u := by
  obtain ⟨⟨_, _, rfl⟩, hkept⟩ := h
  obtain ⟨⟨_, _, rfl⟩, hkept'⟩ := h'
  exact ⟨⟨_, _, rfl⟩, fun d tb h => hkept' d tb (hkept d tb h)⟩

theorem run_enableEntry (d tb : Nat) (σ : At s0) :
    ∃ τ, enableEntry d tb σ = .ok () τ ∧ σ.val.Opens τ.val ∧ τ.val.debugEnabled d tb := by
  let w := BitVec.ofNat 64 (Config.pick σ.val.oracle)
  let e : Word := 0x8000000000000000 ||| keepBits w 60 3 ||| keepBits w 0 32
  have hvalid : e.getLsbD 63 = true := by
    rw [BitVec.getLsbD_or, BitVec.getLsbD_or, show (0x8000000000000000 : Word).getLsbD 63 = true by decide, Bool.true_or,
      Bool.true_or]
  let τ := (σ.upd .choose).upd
    (.die d { σ.val.die d with access := TMap.put (σ.val.die d).access (2048 * tb + 1977) e })
  have haccess (d' tb' : Nat) :
      τ.val.access d' tb' 1977 = if d' = d ∧ tb' = tb then e else σ.val.access d' tb' 1977 := by
    unfold State.access
    rw [At.upd_val, die_of_upd]
    by_cases hd : d' = d
    · subst hd
      rw [if_pos rfl, TMap.get_put]
      by_cases ht : tb' = tb <;> simp [ht]
    · rw [if_neg hd, if_neg fun h => hd h.1]
      rfl
  refine ⟨τ, rfl, ⟨⟨_, _, rfl⟩, fun d' tb' h => ?_⟩, ?_⟩
  · unfold State.debugEnabled at h ⊢
    rw [haccess]
    split
    · exact hvalid
    · exact h
  · unfold State.debugEnabled
    rw [haccess, if_pos ⟨rfl, rfl⟩]
    exact hvalid

theorem run_enableEntries (d : Nat) (σ : At s0) :
    ∃ τ, enableEntries d σ = .ok ⟨⟩ τ ∧ σ.val.Opens τ.val ∧ ∀ tb < 5, τ.val.debugEnabled d tb := by
  obtain ⟨τ, hτ, hopens, hall⟩ := run_forIn_invariant (s0 := s0)
    (P := fun done t => σ.val.Opens t ∧ ∀ tb ∈ done, t.debugEnabled d tb)
    (f := fun tb _ => do
      enableEntry d tb
      pure (.yield ⟨⟩))
    (List.range 5)
    (fun done tb _ ρ ⟨hopens, hdone⟩ => by
      obtain ⟨τ, hτ, hstep, hnew⟩ := run_enableEntry d tb ρ
      refine ⟨τ, run_bind_ok hτ, hopens.trans hstep, fun x hx => ?_⟩
      rcases List.mem_cons.1 hx with rfl | hx
      · exact hnew
      · exact hstep.kept d x (hdone x hx))
    [] σ ⟨.refl _, fun _ h => nomatch h⟩
  exact ⟨τ, hτ, hopens, fun tb h => hall tb (by simpa using h)⟩

theorem run_enableDebugPort (σ : At s0) :
    ∃ τ, enableDebugPort σ = .ok ⟨⟩ τ ∧ σ.val.Opens τ.val ∧ ∀ d < 8, ∀ tb < 5, τ.val.debugEnabled d tb := by
  obtain ⟨τ, hτ, hopens, hall⟩ := run_forIn_invariant (s0 := s0)
    (P := fun done t => σ.val.Opens t ∧ ∀ d ∈ done, ∀ tb < 5, t.debugEnabled d tb)
    (f := fun d _ => do
      enableEntries d
      pure (.yield ⟨⟩))
    (List.range 8)
    (fun done d _ ρ ⟨hopens, hdone⟩ => by
      obtain ⟨τ, hτ, hstep, hnew⟩ := run_enableEntries d ρ
      refine ⟨τ, run_bind_ok hτ, hopens.trans hstep, fun x hx tb htb => ?_⟩
      rcases List.mem_cons.1 hx with rfl | hx
      · exact hnew tb htb
      · exact hstep.kept x tb (hdone x hx tb htb))
    [] σ ⟨.refl _, fun _ h => nomatch h⟩
  exact ⟨τ, hτ, hopens, fun d h => hall d (by simpa using h)⟩

theorem debugUnlockBody_eq (key sig : List Byte) :
    (debugUnlockBody key sig : M s0 Unit) = (do
      let s ← st
      if unlockGood s.primer key sig then
        let _ ← renewKeys
        modPrimer fun p => { p with unlocked := true }
        let n ← drawRandom
        modPrimer fun p => { p with debugNonce := n }
        let _ ← enableDebugPort
        pure ()) := rfl

theorem debugUnlock_refused {s : State} {key sig : List Byte} (hbad : ¬ unlockGood s.primer key sig = true) :
    exec (.debugUnlock key sig) s = .next s := by
  refine run_ok (m := debugUnlockBody key sig) (τ := ⟨s, .refl⟩) ?_
  rw [debugUnlockBody_eq, run_bind_ok (run_st _), if_neg hbad]
  rfl

theorem debugUnlock_accepted {s : State} {key sig : List Byte} (hgood : unlockGood s.primer key sig = true) :
    ∃ t : State, exec (.debugUnlock key sig) s = .next t ∧ t.ctxs = s.ctxs ∧ t.mem = s.mem ∧
      t.primer =
        { s.primer with
          unlocked := true, debugNonce := Config.randomZeroed s.primer.drawn, drawn := s.primer.drawn + 1 } ∧
      (∀ d < 8, ∀ tb < 5, t.debugEnabled d tb) ∧
      ∀ k < 128, TMap.get 0 t.keyGen k = TMap.get 0 s.keyGen k + 1 := by
  obtain ⟨ρ, gens, hρ, eρ, hgens⟩ := run_renewKeys (s0 := s) ⟨s, .refl⟩
  let p : Primer := { s.primer with unlocked := true }
  let q : Primer := { p with drawn := p.drawn + 1 }
  let r : Primer := { q with debugNonce := p.next }
  have hprimer : ρ.val.primer = s.primer := by rw [eρ]
  obtain ⟨τ, hτ, hopens, hvalid⟩ := run_enableDebugPort (((ρ.upd (.primer p)).upd (.primer q)).upd (.primer r))
  obtain ⟨dies, oracle, eτ⟩ := hopens.frame
  have hstate : τ.val = { s with keyGen := gens, primer := r, dies := dies, oracle := oracle } := by
    rw [eτ]
    simp only [At.upd_val, eρ]
    rfl
  refine ⟨τ.val, run_ok (m := debugUnlockBody key sig) ?_, ?_, ?_, ?_, hvalid, fun k hk => ?_⟩
  · rw [debugUnlockBody_eq, run_bind_ok (run_st _), if_pos hgood, run_bind_ok hρ, run_bind_ok (run_modPrimer _ _),
      hprimer, run_bind_ok (run_drawRandom _)]
    exact (run_bind_ok (run_modPrimer _ _)).trans (run_bind_ok hτ)
  · rw [hstate]
  · rw [hstate]
  · rw [hstate]
    rfl
  · rw [hstate]
    exact hgens k hk

/-! ### The clock and Still -/

theorem exec_ptpCorrection {n : Int} (hlo : -100 ≤ n) (hhi : n ≤ 100) (s : State) :
    exec (.ptpCorrection n) s = .next s := by
  refine run_ok (m := ptpCorrectionBody n) (τ := ⟨s, .refl⟩) ?_
  simp [ptpCorrectionBody, hlo, hhi]

theorem exec_still (s : State) : exec .still s = .next { s with still := true } := rfl

/-- Unless a KEYCTL write is the next turn, the freeze stops the clocks and does nothing else. -/
theorem freezePin_alone {s : State} (hturn : ∀ v l, s.agenda ≠ .event (.keyctl v) :: l) :
    exec .freezePin s = .next { s with still := true } := by
  refine run_ok (m := freezePinBody) (τ := At.upd ⟨s, .refl⟩ .stop) ?_
  unfold freezePinBody
  rw [run_bind_ok (run_st _)]
  refine congrFun (g := upd .stop) ?_ _
  dsimp only
  split
  · next v l h => exact absurd h (hturn v l)
  · rfl

/-- What the freeze does before the clocks stop touches neither memory nor a context. -/
theorem freezePin_stops (s : State) :
    ∃ t : State, exec .freezePin s = .next t ∧ t.still = true ∧ t.mem = s.mem ∧ t.ctxs = s.ctxs := by
  by_cases hturn : ∃ v l, s.agenda = .event (.keyctl v) :: l
  case neg =>
    exact ⟨_, freezePin_alone fun v l h => hturn ⟨v, l, h⟩, rfl, rfl, rfl⟩
  case pos =>
    obtain ⟨v, l, h⟩ := hturn
    let σ : At s := At.upd ⟨s, .refl⟩ .choose
    by_cases hfirst : Config.pick s.oracle % 2 = 1
    · obtain ⟨τ, hτ, hmem, hctxs⟩ := run_keyctlBody v σ
      refine ⟨((τ.upd (.agenda l)).upd .stop).val, run_ok (m := freezePinBody) ?_, rfl, hmem, hctxs⟩
      unfold freezePinBody
      simp [h, choose, hfirst, hτ, σ]
    · refine ⟨(σ.upd .stop).val, run_ok (m := freezePinBody) ?_, rfl, rfl, rfl⟩
      simp [freezePinBody, h, choose, hfirst, σ]

/-- Settles O53, by one lemma for each event and each of its outcomes. -/
theorem primerEvents : Obligations.PrimerEvents := by
  unfold Obligations.PrimerEvents
  intro s
  dsimp only
  refine ⟨bootRetryTimer_due, fun hboot => ?_, fun m hboot => ⟨fun hgood => ?_, fun hbad => ?_⟩,
    fun img m hboot hm => ⟨fun ⟨hlen, ks, hks⟩ => monitorImageFetched_accepted hboot hm hlen hks,
      fun hbad => ⟨_, monitorImageFetched_refused hboot hm hbad, rfl⟩⟩,
    fun v => ⟨fun hv => keyctl_set hv s, fun hv => keyctl_clear hv s, fun n hn => ?_, fun hn => ?_⟩,
    fun nonce => exec_attestationChallenge nonce s, fun key sig => ⟨fun hbad => ?_, fun hgood => ?_⟩,
    fun n hlo hhi => exec_ptpCorrection hlo hhi s, exec_still s, freezePin_alone, freezePin_stops s⟩
  · cases hport : (List.range 16).find? (Config.portLink · s.primer.tries) with
    | none => exact bootRequest_noLink hboot hport
    | some port => exact bootRequest_link hboot hport
  · exact manifest_accepted hboot ((manifestGood_iff s.primer m).2 hgood)
  · exact ⟨_, manifest_refused hboot fun h => hbad ((manifestGood_iff s.primer m).1 h), rfl⟩
  · rw [exec_nodeid, latchNode_of_latched hn]
  · rw [exec_nodeid, latchNode_of_unlatched hn]
  · exact debugUnlock_refused fun h => hbad ((unlockGood_iff s.primer key sig).1 h)
  · exact debugUnlock_accepted ((unlockGood_iff s.primer key sig).2 hgood)

end Sys2Proof.Machine
end

section
/-! How a core switches from one context to the next (R54, R56, R58, R61). -/

namespace Sys2Proof.Machine

variable {s0 : State}

theorem contexts_eq (core : Nat) : Expected.contexts core = numCtx core := by
  unfold Expected.contexts numCtx isEasel
  by_cases h : core < 1536
  · rw [if_pos h, if_neg (by simpa using h)]
  · rw [if_neg h, if_pos (by simpa using h)]

/-- A context that the scan of a switch may select. -/
def State.canRun (s : State) (a : Nat) : Bool := (s.ctx a).phase == .ready && !(s.ctx a).halted

theorem canRun_iff (s : State) (a : Nat) : s.canRun a = true ↔ Expected.ready s a := by
  unfold State.canRun Expected.ready Ctx.halted
  cases (s.ctx a).preempt <;> simp

theorem canRun_congr {s t : State} {a : Nat} (h : t.ctx a = s.ctx a) : t.canRun a = s.canRun a := by
  unfold State.canRun
  rw [h]

theorem nextReady_def (s : State) (core i : Nat) :
    s.nextReady core i =
      ((List.range (numCtx core)).find? fun k => s.canRun (16 * core + (i + 1 + k) % numCtx core)).map
        fun k => (i + 1 + k) % numCtx core := by
  unfold State.nextReady State.canRun
  rw [List.find?_map]
  rfl

theorem canRun_of_nextReady {s : State} {core i j : Nat} (h : s.nextReady core i = some j) :
    s.canRun (16 * core + j) = true := by
  rw [nextReady_def, Option.map_eq_some_iff] at h
  obtain ⟨k, hk, rfl⟩ := h
  exact List.find?_some (p := fun k => s.canRun (16 * core + (i + 1 + k) % numCtx core)) hk

/-! ### The scan -/

/-- A core that takes a READY context where it has none that runs. -/
def State.idles (s : State) (core : Nat) : Bool :=
  (s.runningCtx core).isNone && !(s.core core).failed && (s.core core).trace == .none

/-- The state once context j of a core has been selected. -/
def State.selects (s : State) (core j : Nat) : State :=
  (Upd.core core { s.core core with bound := (s.core core).quantum }).apply
    ((Upd.ctx (16 * core + j) { s.ctx (16 * core + j) with phase := .running }).apply s)

/-- The state after the scan of a core. -/
def State.scanned (s : State) (core : Nat) : State :=
  if s.idles core then
    match s.nextReady core (s.core core).last with
    | some j => s.selects core j
    | none => s
  else s

theorem scanned_none {s : State} {core : Nat} (h : s.nextReady core (s.core core).last = none) : s.scanned core = s := by
  simp [State.scanned, h]

theorem scanned_busy {s : State} {core : Nat} (h : s.idles core = false) : s.scanned core = s := by
  simp [State.scanned, h]

theorem scanned_some {s : State} {core j : Nat} (hi : s.idles core = true)
    (h : s.nextReady core (s.core core).last = some j) : s.scanned core = s.selects core j := by
  simp [State.scanned, hi, h]

/-- A scan selects a context that can run, or changes nothing. -/
theorem scanned_cases (s : State) (core : Nat) :
    s.scanned core = s ∨ ∃ j, s.canRun (16 * core + j) = true ∧ s.scanned core = s.selects core j := by
  cases hi : s.idles core with
  | false => exact .inl (scanned_busy hi)
  | true =>
    cases hn : s.nextReady core (s.core core).last with
    | none => exact .inl (scanned_none hn)
    | some j => exact .inr ⟨j, canRun_of_nextReady hn, scanned_some hi hn⟩

theorem run_startScan_scanned (core : Nat) (σ : At s0) :
    ∃ τ, startScan core σ = .ok () τ ∧ τ.val = σ.val.scanned core := by
  unfold startScan
  rw [run_bind_ok (run_st σ)]
  cases hi : σ.val.idles core with
  | false => exact ⟨σ, congrFun (if_neg (ne_true_of_eq_false hi)) σ, (scanned_busy hi).symm⟩
  | true =>
    cases hn : σ.val.nextReady core (σ.val.core core).last with
    | none => exact ⟨σ, congrFun (if_pos hi) σ, (scanned_none hn).symm⟩
    | some j =>
      let ρ := σ.upd (.ctx (16 * core + j) { σ.val.ctx (16 * core + j) with phase := .running })
      exact ⟨ρ.upd (.core core { ρ.val.core core with bound := (ρ.val.core core).quantum }),
        congrFun (if_pos hi) σ, (scanned_some hi hn).symm⟩

theorem selects_frame (s : State) (core j : Nat) :
    s.selects core j = { s with ctxs := (s.selects core j).ctxs, cores := (s.selects core j).cores } := rfl

theorem scanned_frame (s : State) (core : Nat) :
    s.scanned core = { s with ctxs := (s.scanned core).ctxs, cores := (s.scanned core).cores } := by
  rcases scanned_cases s core with h | ⟨j, -, h⟩
  · rw [h]
  · rw [h]; rfl

theorem selects_ctx (s : State) (core j a : Nat) :
    (s.selects core j).ctx a = if a = 16 * core + j then { s.ctx a with phase := .running } else s.ctx a := by
  rw [State.selects, ctx_upd_core, ctx_of_upd]
  by_cases h : a = 16 * core + j
  · subst h; rfl
  · rw [if_neg h, if_neg h]

theorem selects_core (s : State) (core j n : Nat) :
    (s.selects core j).core n = if n = core then { s.core core with bound := (s.core core).quantum } else s.core n := by
  rw [State.selects, core_of_upd]
  rfl

/-- A scan changes no context but one that could run, and of that one the phase alone. -/
theorem scanned_ctx (s : State) (core a : Nat) :
    (s.scanned core).ctx a = s.ctx a ∨ s.canRun a = true ∧ (s.scanned core).ctx a = { s.ctx a with phase := .running } := by
  rcases scanned_cases s core with h | ⟨j, hj, h⟩
  · rw [h]; exact .inl rfl
  · rw [h, selects_ctx]
    by_cases ha : a = 16 * core + j
    · subst ha
      exact .inr ⟨hj, if_pos rfl⟩
    · exact .inl (if_neg ha)

/-- A context that is not READY is as it was. -/
theorem scanned_ctx_of_phase {s : State} {a : Nat} (h : (s.ctx a).phase ≠ .ready) (core : Nat) :
    (s.scanned core).ctx a = s.ctx a := by
  rcases scanned_ctx s core a with h' | ⟨h', -⟩
  · exact h'
  · exact absurd ((canRun_iff s a).1 h').1 h

/-! ### The switch out -/

/-- The same change of several cores: a core that it leaves alone stays as it was, and in a list without repetition it is made
once of each. -/
theorem run_modCores (f : Core → Core) (l : List Nat) (σ : At s0) :
    ∃ τ cores,
      (forIn l PUnit.unit fun n _ => do
        modCore n f
        pure (ForInStep.yield PUnit.unit) : M s0 PUnit) σ = .ok ⟨⟩ τ ∧
      τ.val = { σ.val with cores := cores } ∧ (∀ n, f (σ.val.core n) = σ.val.core n → τ.val.core n = σ.val.core n) ∧
      (l.Nodup → ∀ n ∈ l, τ.val.core n = f (σ.val.core n)) := by
  obtain ⟨τ, hτ, ⟨cores, eτ⟩, hkept, hmade⟩ := run_forIn_invariant (s0 := s0)
    (P := fun done t => (∃ cores, t = { σ.val with cores := cores }) ∧
      (∀ n, f (σ.val.core n) = σ.val.core n → t.core n = σ.val.core n) ∧
      (done.Nodup → ∀ n, t.core n = if n ∈ done then f (σ.val.core n) else σ.val.core n))
    (f := fun n _ => do
      modCore n f
      pure (.yield ⟨⟩))
    l
    (fun done x _ ρ ⟨⟨cores, eρ⟩, hkept, hmade⟩ => by
      refine ⟨ρ.upd (.core x (f (ρ.val.core x))), rfl, ⟨TMap.put cores x (f (ρ.val.core x)), by rw [At.upd_val, eρ]; rfl⟩,
        fun n hn => ?_, fun hnodup n => ?_⟩
      · rw [At.upd_val, core_of_upd]
        by_cases h : n = x
        · subst h
          rw [if_pos rfl, hkept n hn, hn]
        · rw [if_neg h, hkept n hn]
      · obtain ⟨hx, hdone⟩ := List.nodup_cons.1 hnodup
        rw [At.upd_val, core_of_upd]
        by_cases h : n = x
        · subst h
          rw [if_pos rfl, if_pos List.mem_cons_self, hmade hdone, if_neg hx]
        · rw [if_neg h, hmade hdone]
          simp [h])
    [] σ ⟨⟨_, rfl⟩, fun _ _ => rfl, fun _ _ => rfl⟩
  rw [List.append_nil] at hmade
  refine ⟨τ, cores, hτ, eτ, hkept, fun hl n hn => ?_⟩
  rw [hmade (List.nodup_reverse.2 hl), if_pos (List.mem_reverse.2 hn)]

/-- A core that waits to join a trace set joins it (R61). -/
def Core.joined (c : Core) : Core :=
  match c.trace with
  | .follower l _ q => { c with trace := .follower l true q }
  | .none => c

theorem joined_of_none {c : Core} (h : c.trace = .none) : c.joined = c := by
  simp [Core.joined, h]

theorem joinFollowers_def (core : Nat) :
    (joinFollowers core : M s0 Unit) = (do
      let s ← st
      for n in s.followers core do
        modCore n Core.joined) := rfl

/-- The followers of a core that wait to join do so, and no other core changes. -/
theorem run_joinFollowers (core : Nat) (σ : At s0) :
    ∃ τ cores, joinFollowers core σ = .ok () τ ∧ τ.val = { σ.val with cores := cores } ∧
      ∀ n, (σ.val.core n).trace = .none → τ.val.core n = σ.val.core n := by
  rw [joinFollowers_def, run_bind_ok (run_st σ)]
  obtain ⟨τ, cores, hτ, eτ, hkept, -⟩ := run_modCores Core.joined (σ.val.followers core) σ
  exact ⟨τ, cores, run_bind_ok hτ, eτ, fun n hn => hkept n (joined_of_none hn)⟩

/-- A switch out of a context is, but for what it makes of followers, its phase, the core's last context, and a scan. -/
theorem run_switchOut (a : Nat) (p : Phase) (σ : At s0) (ht : (σ.val.core (coreOf a)).trace = .none) :
    ∃ (τ : At s0) (u : State), switchOut a p σ = .ok () τ ∧ τ.val = u.scanned (coreOf a) ∧
      u = { σ.val with ctxs := u.ctxs, cores := u.cores } ∧
      (∀ b, u.ctx b = if b = a then { σ.val.ctx a with phase := p } else σ.val.ctx b) ∧
      u.core (coreOf a) = { σ.val.core (coreOf a) with last := a % 16 } := by
  let ρ := (σ.upd (.ctx a { σ.val.ctx a with phase := p })).upd
    (.core (coreOf a) { σ.val.core (coreOf a) with last := a % 16 })
  have hρ : (ρ.val.core (coreOf a)).trace = .none := by
    rw [At.upd_val, core_upd_same]
    exact ht
  obtain ⟨π, cores, hπ, eπ, hkept⟩ := run_joinFollowers (coreOf a) ρ
  obtain ⟨τ, hτ, eτ⟩ := run_startScan_scanned (coreOf a) π
  refine ⟨τ, π.val, (run_bind_ok hπ).trans hτ, eτ, by rw [eπ]; rfl, fun b => ?_, ?_⟩
  · rw [eπ]
    exact ctx_of_upd σ.val a b _
  · rw [hkept _ hρ, At.upd_val, core_upd_same]

/-- A switch to WAITING or DRAINING leaves the context with that phase, and selects another one for its core. -/
theorem run_switchOut_stop (a : Nat) {p : Phase} (hp : p ≠ .ready) (σ : At s0)
    (ht : (σ.val.core (coreOf a)).trace = .none) :
    ∃ τ ctxs cores, switchOut a p σ = .ok () τ ∧ τ.val = { σ.val with ctxs := ctxs, cores := cores } ∧
      τ.val.ctx a = { σ.val.ctx a with phase := p } ∧
      ∀ b, b ≠ a → τ.val.ctx b = σ.val.ctx b ∨ τ.val.ctx b = { σ.val.ctx b with phase := .running } := by
  obtain ⟨τ, u, hτ, eτ, eu, hctx, -⟩ := run_switchOut a p σ ht
  refine ⟨τ, _, _, hτ, by rw [eτ, scanned_frame, eu], ?_, fun b hb => ?_⟩
  · rw [eτ, scanned_ctx_of_phase (by rw [hctx a, if_pos rfl]; exact hp), hctx a, if_pos rfl]
  · rw [eτ]
    rcases scanned_ctx u (coreOf a) b with h | ⟨-, h⟩
    · exact .inl (by rw [h, hctx b, if_neg hb])
    · exact .inr (by rw [h, hctx b, if_neg hb])

/-- In the order of R56 context i itself is the last. -/
theorem lastInOrder {n i : Nat} (h : i < n) : (i + 1 + (n - 1)) % n = i := by
  rw [show i + 1 + (n - 1) = i + n by omega, Nat.add_mod_right, Nat.mod_eq_of_lt h]

/-- What the scan after context i of a core selects, once that context is READY and the others are as they were. -/
theorem nextReady_selected {s u : State} {core i : Nat} (hi : i < numCtx core)
    (hself : u.canRun (16 * core + i) = true)
    (hother : ∀ b, b ≠ 16 * core + i → u.ctx b = s.ctx b) :
    ∃ j, u.nextReady core i = some j ∧ Expected.Selected s core i j := by
  have hpast (j : Nat) (h : u.canRun (16 * core + j) = false) : j ≠ i ∧ ¬ Expected.ready s (16 * core + j) := by
    have hne : j ≠ i := by rintro rfl; rw [hself] at h; cases h
    refine ⟨hne, fun hr => ?_⟩
    rw [canRun_congr (hother _ (by omega)), (canRun_iff s _).2 hr] at h
    cases h
  cases hfind : (List.range (numCtx core)).find? fun k => u.canRun (16 * core + (i + 1 + k) % numCtx core) with
  | none =>
    have h := List.find?_eq_none.1 hfind (numCtx core - 1) (List.mem_range.2 (by omega))
    rw [lastInOrder hi] at h
    exact absurd hself h
  | some k =>
    obtain ⟨hk, hmem, hbefore⟩ := List.find?_range_eq_some.1 hfind
    refine ⟨(i + 1 + k) % numCtx core, by rw [nextReady_def, hfind]; rfl, ?_⟩
    unfold Expected.Selected
    rw [contexts_eq]
    refine ⟨k, List.mem_range.1 hmem, rfl, ?_, fun m hm => hpast _ (by simpa using hbefore m hm)⟩
    by_cases h : (i + 1 + k) % numCtx core = i
    · exact .inl h
    · exact .inr ((canRun_iff s _).1 (by rw [← canRun_congr (hother _ (by omega))]; exact hk))

/-- Contexts of a core do not go beyond the 16 numbers of its agents. -/
theorem numCtx_le (core : Nat) : numCtx core ≤ 16 := by
  unfold numCtx
  split <;> decide

theorem coreOf_agent {core i : Nat} (h : i < 16) : coreOf (16 * core + i) = core := by
  unfold coreOf; omega

theorem agent_index {core i : Nat} (h : i < 16) : (16 * core + i) % 16 = i := by omega

theorem Expected.RunsAlone.lt {s : State} {core i : Nat} (h : Expected.RunsAlone s core i) : i < numCtx core :=
  contexts_eq core ▸ h.1

/-- Where no context of a core runs, a switch finds its core idle. -/
theorem runningCtx_none {s : State} {core : Nat} (h : ∀ j < numCtx core, (s.ctx (16 * core + j)).phase ≠ .running) :
    s.runningCtx core = none := by
  unfold State.runningCtx
  refine List.find?_eq_none.2 fun j hj => ?_
  simp [h j (List.mem_range.1 hj)]

/-- A context that runs alone and switches out as READY makes way for the one that R56 selects. The state before is `s`; in
`σ` it differs from it in the context's own registers and progress at most. -/
theorem run_switchOut_ready {s : State} {core i : Nat} (h : Expected.RunsAlone s core i) (σ : At s0)
    (hcore : σ.val.core core = s.core core) (hctx : ∀ b, b ≠ 16 * core + i → σ.val.ctx b = s.ctx b)
    (hpre : (σ.val.ctx (16 * core + i)).preempt = none) :
    ∃ τ ctxs cores, switchOut (16 * core + i) .ready σ = .ok () τ ∧
      τ.val = { σ.val with ctxs := ctxs, cores := cores } ∧
      Expected.Switched s τ.val core i ∧ (τ.val.ctx (16 * core + i)).r = (σ.val.ctx (16 * core + i)).r := by
  have hi : i < numCtx core := h.lt
  have hlt : i < 16 := Nat.lt_of_lt_of_le hi (numCtx_le core)
  obtain ⟨-, hfailed, htrace, -, -, halone⟩ := h
  have hco : coreOf (16 * core + i) = core := coreOf_agent hlt
  obtain ⟨τ, u, hτ, eτ, eu, huctx, hucore⟩ := run_switchOut (16 * core + i) .ready σ (by rw [hco, hcore]; exact htrace)
  rw [hco] at eτ hucore
  have hself : u.canRun (16 * core + i) = true := by
    unfold State.canRun Ctx.halted
    rw [huctx, if_pos rfl]
    simp [hpre]
  have hother (b : Nat) (hb : b ≠ 16 * core + i) : u.ctx b = s.ctx b := by rw [huctx, if_neg hb, hctx b hb]
  obtain ⟨j, hj, hsel⟩ := nextReady_selected hi hself hother
  have hidle : u.idles core = true := by
    have hrun : u.runningCtx core = none := runningCtx_none fun k hk => by
      by_cases hki : k = i
      · subst hki; rw [huctx, if_pos rfl]; exact Phase.noConfusion
      · rw [hother _ (by omega)]; exact halone k (contexts_eq core ▸ hk) hki
    unfold State.idles
    rw [hrun, hucore, hcore, hfailed, htrace]
    rfl
  have hlast : (u.core core).last = i := by rw [hucore]; exact agent_index hlt
  have hscan : u.scanned core = u.selects core j := scanned_some hidle (by rw [hlast]; exact hj)
  rw [hscan] at eτ
  refine ⟨τ, _, _, hτ, by rw [eτ, selects_frame, eu], ⟨j, hsel, ?_, fun hji => ?_, ?_, fun a hai haj => ?_⟩, ?_⟩
  · rw [eτ, selects_ctx, if_pos rfl]
  · rw [eτ, selects_ctx, if_neg (by omega), huctx, if_pos rfl]
  · rw [eτ, selects_core, if_pos rfl]; exact hlast
  · rw [eτ, selects_ctx, if_neg haj, hother a hai]
  · rw [eτ, selects_ctx]
    split <;> rw [huctx, if_pos rfl]

end Sys2Proof.Machine
end

section
/-! Parts of a meaning that always run to their end, and what relates the states before and after them. -/

namespace Sys2Proof.Machine

variable {s0 : State} {α β : Type}

/-- A part of a meaning that always runs to its end, between states that `R` relates. -/
def Goes (R : State → State → Prop) (m : M s0 α) : Prop := ∀ σ : At s0, ∃ x τ, m σ = .ok x τ ∧ R σ.val τ.val

/-- The same of a turn of a loop, which goes on. -/
def Yields (R : State → State → Prop) (m : M s0 (ForInStep PUnit)) : Prop :=
  ∀ σ : At s0, ∃ τ, m σ = .ok (.yield ⟨⟩) τ ∧ R σ.val τ.val

/-- A relation of states that steps one after the other keep. -/
structure Chains (R : State → State → Prop) : Prop where
  refl : ∀ s, R s s
  trans : ∀ {s t u}, R s t → R t u → R s u

section

variable {R : State → State → Prop} (hR : Chains R)

include hR

theorem Goes.pure (x : α) : Goes R (pure x : M s0 α) := fun σ => ⟨x, σ, rfl, hR.refl _⟩

theorem Goes.st : Goes R (st : M s0 State) := fun σ => ⟨_, σ, rfl, hR.refl _⟩

theorem Goes.bind {m : M s0 α} {f : α → M s0 β} (hm : Goes R m) (hf : ∀ x, Goes R (f x)) : Goes R (m >>= f) := by
  intro σ
  obtain ⟨x, τ, hτ, h⟩ := hm σ
  obtain ⟨y, υ, hυ, h'⟩ := hf x τ
  exact ⟨y, υ, (run_bind_ok hτ).trans hυ, hR.trans h h'⟩

theorem Yields.go : Yields R (Pure.pure (ForInStep.yield PUnit.unit) : M s0 (ForInStep PUnit)) :=
  fun σ => ⟨σ, rfl, hR.refl _⟩

theorem Yields.bind {m : M s0 α} {f : α → M s0 (ForInStep PUnit)} (hm : Goes R m) (hf : ∀ x, Yields R (f x)) :
    Yields R (m >>= f) := by
  intro σ
  obtain ⟨x, τ, hτ, h⟩ := hm σ
  obtain ⟨υ, hυ, h'⟩ := hf x τ
  exact ⟨υ, (run_bind_ok hτ).trans hυ, hR.trans h h'⟩

/-- A loop goes where each of its turns does. -/
theorem Goes.forIn (l : List α) {f : α → PUnit → M s0 (ForInStep PUnit)} (hf : ∀ x ∈ l, Yields R (f x ⟨⟩)) :
    Goes R (forIn l PUnit.unit f) := by
  intro σ
  obtain ⟨τ, hτ, h⟩ := run_forIn_invariant (P := fun _ t => R σ.val t) l
    (fun _ x hx ρ h => by
      obtain ⟨τ, hτ, h'⟩ := hf x hx ρ
      exact ⟨τ, hτ, hR.trans h h'⟩)
    [] σ (hR.refl _)
  exact ⟨_, τ, hτ, h⟩

end

theorem Goes.upd {R : State → State → Prop} {u : Upd} (h : ∀ s, R s (u.apply s)) : Goes R (upd u : M s0 Unit) :=
  fun σ => ⟨_, σ.upd u, rfl, h σ.val⟩

theorem Goes.mono {R S : State → State → Prop} {m : M s0 α} (h : Goes R m) (hRS : ∀ s t, R s t → S s t) : Goes S m :=
  fun σ => by
    obtain ⟨x, τ, hτ, hr⟩ := h σ
    exact ⟨x, τ, hτ, hRS _ _ hr⟩

/-- What follows the reading of the state. -/
theorem Goes.readSt {R : State → State → Prop} {f : State → M s0 β}
    (h : ∀ σ : At s0, ∃ x τ, f σ.val σ = .ok x τ ∧ R σ.val τ.val) : Goes R (Sys2Proof.Machine.st >>= f) := h

/-! ### Logical times -/

theorem timed_chains : Chains Expected.Timed where
  refl _ := rfl
  trans {s t u} h h' := by
    unfold Expected.Timed at h h' ⊢
    rw [h', h]

theorem goes_addJoins (key : Nat) (js : List Join) : Goes (s0 := s0) Expected.Timed (addJoins key js) := by
  unfold addJoins
  refine .readSt fun σ => ?_
  by_cases h : (js.any fun j => σ.val.liveOp j.op) = true
  · exact ⟨_, σ.upd (.joins _), congrFun (if_pos h) σ, rfl⟩
  · exact ⟨_, σ, congrFun (if_neg h) σ, rfl⟩

theorem goes_openNat : Goes (s0 := s0) Expected.Timed openNat := fun σ => ⟨_, σ.upd .choose, rfl, rfl⟩

theorem goes_choose (n : Nat) : Goes (s0 := s0) Expected.Timed (choose n) := fun σ => ⟨_, σ.upd .choose, rfl, rfl⟩

theorem goes_readCtr (a : Nat) (c : Ctr) : Goes (s0 := s0) Expected.Timed (readCtr a c) := by
  unfold readCtr
  exact .bind timed_chains (.st timed_chains) fun s => .bind timed_chains goes_openNat fun l => .upd fun s => rfl

theorem goes_observe (party : Nat) (c : Ctr) : Goes (s0 := s0) Expected.Timed (observe party c) := by
  unfold observe
  exact .bind timed_chains (.st timed_chains) fun s => goes_addJoins _ _

theorem goes_readWatches (a : Nat) (ws : List Watch) : Goes (s0 := s0) Expected.Timed (readWatches a ws) := by
  unfold readWatches
  exact .bind timed_chains
    (.forIn timed_chains ws fun w _ => .bind timed_chains (goes_readCtr a w.ctr) fun _ =>
      .bind timed_chains (goes_observe a w.ctr) fun _ => .go timed_chains)
    fun _ => .pure timed_chains _

theorem goes_startTime (a : Nat) : Goes (s0 := s0) Expected.Timed (startTime a) := fun σ => by
  obtain ⟨τ, times, joins, hτ, h⟩ := run_startTime a σ
  exact ⟨_, τ, hτ, by rw [Expected.Timed, h]⟩

end Sys2Proof.Machine
end

section
/-! Contexts that are woken (R50, R55, R173, R200), and YIELD. -/

namespace Sys2Proof.Machine

variable {s0 : State}

/-- The context once what it waited for has come. -/
def Ctx.woken (x : Ctx) (ans : Option Ans) : Ctx :=
  { x with
    phase := if x.phase = .waiting then .ready else x.phase
    wait := none
    prog := { x.prog with ans := ans.orElse fun _ => x.prog.ans } }

/-- The state once context `a` is woken. -/
def State.wakes (s : State) (a : Nat) (ans : Option Ans) : State :=
  ((Upd.ctx a ((s.ctx a).woken ans)).apply s).scanned (coreOf a)

theorem run_wakeCtx (a : Nat) (ans : Option Ans) (σ : At s0) :
    ∃ τ, wakeCtx a ans σ = .ok () τ ∧ τ.val = σ.val.wakes a ans :=
  run_startScan_scanned (coreOf a) (σ.upd (.ctx a ((σ.val.ctx a).woken ans)))

theorem wakes_frame (s : State) (a : Nat) (ans : Option Ans) :
    s.wakes a ans = { s with ctxs := (s.wakes a ans).ctxs, cores := (s.wakes a ans).cores } :=
  scanned_frame _ _

theorem wakes_ctx (s : State) (a : Nat) (ans : Option Ans) :
    (s.wakes a ans).ctx a = (s.ctx a).woken ans ∨
      (s.wakes a ans).ctx a = { (s.ctx a).woken ans with phase := .running } := by
  rcases scanned_ctx ((Upd.ctx a ((s.ctx a).woken ans)).apply s) (coreOf a) a with h | ⟨-, h⟩
  · exact .inl (h.trans (ctx_upd_same _ _ _))
  · exact .inr (h.trans (by rw [ctx_upd_same]))

theorem wakes_ctx_ne (s : State) {a b : Nat} (ans : Option Ans) (hb : b ≠ a) :
    (s.wakes a ans).ctx b = s.ctx b ∨ (s.wakes a ans).ctx b = { s.ctx b with phase := .running } := by
  rcases scanned_ctx ((Upd.ctx a ((s.ctx a).woken ans)).apply s) (coreOf a) b with h | ⟨-, h⟩
  · exact .inl (h.trans (ctx_upd_ne _ _ hb))
  · exact .inr (h.trans (by rw [ctx_upd_ne _ _ hb]))

/-- What becomes of a context that waits. -/
theorem wakes_waiting {s : State} {a : Nat} (h : (s.ctx a).phase = .waiting) (ans : Option Ans) :
    ((s.wakes a ans).ctx a).r = (s.ctx a).r ∧ ((s.wakes a ans).ctx a).wait = none ∧
    (((s.wakes a ans).ctx a).phase = .ready ∨ ((s.wakes a ans).ctx a).phase = .running) ∧
    ((s.wakes a ans).ctx a).prog.ans = ans.orElse fun _ => (s.ctx a).prog.ans := by
  have hphase : ((s.ctx a).woken ans).phase = .ready := if_pos h
  rcases wakes_ctx s a ans with hw | hw <;> rw [hw]
  · exact ⟨rfl, rfl, .inl hphase, rfl⟩
  · exact ⟨rfl, rfl, .inr rfl, rfl⟩

/-! ### Wakes of any number of contexts -/

/-- Between two states contexts are woken and set running, and nothing else happens: no context's strand, leases or stores change,
and no context has come to wait for anything. -/
structure State.Stirs (s t : State) : Prop where
  frame : t = { s with ctxs := t.ctxs, cores := t.cores }
  ctx : ∀ b, ∃ ph w ans,
    t.ctx b = { s.ctx b with phase := ph, wait := w, prog := { (s.ctx b).prog with ans := ans } } ∧
      (w = (s.ctx b).wait ∨ w = none)
  trace : ∀ n, (t.core n).trace = (s.core n).trace
  waits : ∀ p ∈ t.ctxs, ∀ w, p.2.wait = some w → ∃ q ∈ s.ctxs, q.2.wait = some w

theorem TMap.mem_of_find {γ : Type} {m : TMap γ} {k : Nat} {x : γ} (h : TMap.find m k = some x) : (k, x) ∈ m := by
  induction m with
  | nil => cases h
  | cons p r ih =>
    obtain ⟨a, v⟩ := p
    unfold TMap.find at h
    split at h
    · next hk =>
      subst hk
      cases h
      exact List.mem_cons_self
    · exact List.mem_cons_of_mem _ (ih h)

/-- A context is listed, or as it is after a reset. -/
theorem ctx_reset_or_mem (s : State) (a : Nat) : s.ctx a = Ctx.reset (isEasel (coreOf a)) ∨ (a, s.ctx a) ∈ s.ctxs := by
  unfold State.ctx TMap.get
  cases hf : TMap.find s.ctxs a with
  | none => exact .inl rfl
  | some x => exact .inr (TMap.mem_of_find hf)

/-- A context that waits is listed. -/
theorem ctx_wait_mem {s : State} {a : Nat} {w : Wait} (h : (s.ctx a).wait = some w) : ∃ q ∈ s.ctxs, q.2.wait = some w := by
  rcases ctx_reset_or_mem s a with hreset | hmem
  · rw [hreset] at h
    cases h
  · exact ⟨_, hmem, h⟩

theorem State.Stirs.refl (s : State) : s.Stirs s :=
  ⟨rfl, fun _ => ⟨_, _, _, rfl, .inl rfl⟩, fun _ => rfl, fun p hp _ hw => ⟨p, hp, hw⟩⟩

theorem State.Stirs.trans {s t u : State} (h : s.Stirs t) (h' : t.Stirs u) : s.Stirs u where
  frame := by rw [h'.frame, h.frame]
  ctx b := by
    obtain ⟨ph, w, p, e, hw⟩ := h.ctx b
    obtain ⟨ph', w', p', e', hw'⟩ := h'.ctx b
    refine ⟨ph', w', p', by rw [e', e], ?_⟩
    rcases hw' with rfl | rfl
    · rw [e]; exact hw
    · exact .inr rfl
  trace n := (h'.trace n).trans (h.trace n)
  waits p hp w hw := by
    obtain ⟨q, hq, hw'⟩ := h'.waits p hp w hw
    exact h.waits q hq w hw'

theorem stirs_chains : Chains State.Stirs := ⟨.refl, .trans⟩

/-- An update of one context that leaves its strand alone. -/
theorem stirs_upd {s : State} (a : Nat) (ph : Phase) (w : Option Wait) (ans : Option Ans)
    (hw : w = (s.ctx a).wait ∨ w = none) :
    s.Stirs ((Upd.ctx a
      { s.ctx a with phase := ph, wait := w, prog := { (s.ctx a).prog with ans := ans } }).apply s) where
  frame := rfl
  ctx b := by
    by_cases hb : b = a
    · subst hb
      exact ⟨ph, w, ans, ctx_upd_same _ _ _, hw⟩
    · exact ⟨_, _, _, ctx_upd_ne _ _ hb, .inl rfl⟩
  trace _ := rfl
  waits q hq v hv := by
    rcases TMap.mem_put hq with rfl | hq
    · rcases hw with rfl | rfl
      · exact ctx_wait_mem hv
      · cases hv
    · exact ⟨q, hq, hv⟩

theorem stirs_core {s : State} (n : Nat) {c : Core} (hc : c.trace = (s.core n).trace) :
    s.Stirs ((Upd.core n c).apply s) where
  frame := rfl
  ctx _ := ⟨_, _, _, rfl, .inl rfl⟩
  trace m := by
    rw [core_of_upd]
    split
    · next h => rw [hc, h]
    · rfl
  waits p hp _ hw := ⟨p, hp, hw⟩

theorem stirs_scanned (s : State) (core : Nat) : s.Stirs (s.scanned core) := by
  rcases scanned_cases s core with h | ⟨j, -, h⟩
  · rw [h]; exact .refl s
  · rw [h, State.selects]
    exact (stirs_upd _ .running _ _ (.inl rfl)).trans (stirs_core _ rfl)

theorem stirs_wakes (s : State) (a : Nat) (ans : Option Ans) : s.Stirs (s.wakes a ans) :=
  (stirs_upd a _ none _ (.inr rfl)).trans (stirs_scanned _ _)

theorem goes_wakeCtx (a : Nat) (ans : Option Ans) : Goes (s0 := s0) State.Stirs (wakeCtx a ans) := fun σ => by
  obtain ⟨τ, hτ, e⟩ := run_wakeCtx a ans σ
  exact ⟨_, τ, hτ, e ▸ stirs_wakes σ.val a ans⟩

theorem goes_wakeLine (line : Nat) : Goes (s0 := s0) State.Stirs (wakeLine line) := by
  unfold wakeLine
  refine .bind stirs_chains (.st stirs_chains) fun s => ?_
  refine .bind stirs_chains (.forIn stirs_chains _ fun (a, x) _ => ?_) fun _ => .pure stirs_chains _
  dsimp only
  split
  · split
    · exact .bind stirs_chains (goes_wakeCtx a none) fun _ => .go stirs_chains
    · exact .go stirs_chains
  · exact .go stirs_chains

/-- A context without stores under way has nothing to settle before its lease ends. -/
theorem run_settleHolder {σ : At s0} {a : Nat} (h : (σ.val.ctx a).lines = []) : settleHolder a σ = .ok () σ := by
  rw [settleHolder, run_bind_ok (run_st σ), h]
  rfl

/-- A context without far writes performs none. -/
theorem run_drainFar {σ : At s0} {a : Nat} (h : (σ.val.ctx a).farw = []) :
    drainFar a σ = .ok () (σ.upd (.ctx a { σ.val.ctx a with farw := [] })) := by
  rw [drainFar, run_bind_ok (run_st σ), h]
  rfl

/-! ### YIELD -/

/-- YIELD of a strand that is on no follower and leads none: it goes on, and its core switches. -/
theorem run_complete_yield {sy : Sync} {old : Before} {σ : At s0} (hs : sy.sig = none) (hf : σ.val.fwd = none)
    (ht : (σ.val.core (coreOf σ.val.cur)).trace = .none) (hl : σ.val.followers (coreOf σ.val.cur) = [])
    (hq : (σ.val.ctx σ.val.cur).prog.lease = none) :
    complete sy false old .yield σ =
      switchOut σ.val.cur .ready (σ.retireAs { σ.val.regs with pc := nextPc σ.val.regs.pc sy } false) := by
  have hb : (σ.val.isFollower (coreOf σ.val.cur)) = false := by rw [State.isFollower, ht]; rfl
  cases hh : (σ.val.ctx σ.val.cur).prog.handed <;>
    simp [complete, run_bind, run_leaveQueue hq, hh, run_nextOf sy hf, hb, hf, signalOwed, owesSignal, hs,
      run_forward_none hl, Fin.target, Fin.straight, State.regs, At.retireAs]

/-- The step of an instruction that comes to its end with an outcome of its own. -/
theorem strandStepE_ok {s : State} {α : Type} {sy : Sync} {rel engine : Bool} {pre : M s Unit} {early : M s α}
    {body : α → M s Fin} {τ : At s} (h : issue sy rel engine pre early body ⟨s, .refl⟩ = .ok () τ) :
    strandStepE s sy rel engine pre early body = .next τ.val := by
  rw [strandStepE]
  refine run_ok ?_
  rw [run_bind_ok (run_attempt_ok h)]
  exact run_pure _ _

theorem strandStep_ok {s : State} {sy : Sync} {rel engine : Bool} {pre : M s Unit} {body : M s Fin} {τ : At s}
    (h : issue sy rel engine pre (pure ()) (fun _ => body) ⟨s, .refl⟩ = .ok () τ) :
    strandStep s sy rel engine pre body = .next τ.val :=
  strandStepE_ok h

/-- Settles O30: YIELD completes, and the switch that follows selects as R56 says. -/
theorem yieldResult : Obligations.YieldResult := by
  unfold Obligations.YieldResult
  intro sy s core i hcur hi hq halone
  have hq' := hq
  obtain ⟨-, hs, hf, ht, hl, -, -, -, hp, -⟩ := hq
  have hlease : (s.ctx s.cur).prog.lease = none := by rw [hp]; rfl
  let r : Regs := { s.regs with pc := nextPc s.regs.pc sy }
  let ρ : At s := At.retireAs ⟨s, .refl⟩ r false
  have hrun := run_complete_yield (old := s.before) (σ := (⟨s, .refl⟩ : At s)) hs hf ht hl hlease
  have hself : ρ.val.ctx (16 * core + i) = { s.ctx s.cur with r := r, prog := Progress.none, straight := false } := by
    rw [← hcur]
    exact ctx_upd_same _ _ _
  have hpre : (ρ.val.ctx (16 * core + i)).preempt = none := by
    rw [hself, hcur]
    exact halone.2.2.2.2.1
  obtain ⟨τ, ctxs, cores, hτ, eτ, hsw, hr⟩ :=
    run_switchOut_ready halone ρ rfl (fun b hb => ctx_upd_ne _ _ (hcur ▸ hb)) hpre
  refine ⟨τ.val, strandStep_ok ((issue_body hq' (run_pure _ _) (run_pure _ _)).trans (hrun.trans ?_)), hsw,
    ?_, ?_, ?_, ?_, ?_⟩
  · rw [← hτ, ← hcur]
  · rw [eτ]; rfl
  · rw [eτ]; rfl
  · rw [eτ]; rfl
  · rw [eτ]; rfl
  · have hcur' : τ.val.cur = 16 * core + i := by rw [eτ]; exact hcur
    rw [State.regs, hcur', hr, hself]

end Sys2Proof.Machine
end

section
/-! The events of a context (R50, R55, R58, R81, R173, R200). -/

namespace Sys2Proof.Machine

variable {s0 : State}

/-- Between two states the registers of contexts change, and nothing else. -/
def State.OnlyCtxs (s t : State) : Prop := t = { s with ctxs := t.ctxs }

theorem onlyCtxs_chains : Chains State.OnlyCtxs where
  refl _ := rfl
  trans {s t u} h h' := by
    unfold State.OnlyCtxs at h h' ⊢
    rw [h', h]

/-- The slots of a context after an answer of a counter's home (R199). -/
def Ctx.refreshed (x : Ctx) (slot : Nat) (gen : BitVec 16) : Ctx :=
  x.modR fun r =>
    match TMap.find r.slots slot with
    | some sl => { r with slots := TMap.put r.slots slot { sl with gen := gen } }
    | none => r

theorem refreshGens_def (a : Nat) (ws : List Watch) :
    (refreshGens a ws : M s0 Unit) = (do
      for w in ws do
        let s ← st
        modCtx a fun x => x.refreshed w.slot (s.ctrG w.ctr)) := rfl

theorem goes_refreshGens (a : Nat) (ws : List Watch) : Goes (s0 := s0) State.OnlyCtxs (refreshGens a ws) := by
  rw [refreshGens_def]
  exact .bind onlyCtxs_chains
    (.forIn onlyCtxs_chains ws fun w _ => .bind onlyCtxs_chains (.st onlyCtxs_chains) fun s =>
      .bind onlyCtxs_chains (fun σ => ⟨_, σ.upd (.ctx a ((σ.val.ctx a).refreshed w.slot (s.ctrG w.ctr))), rfl, rfl⟩)
        fun _ => .go onlyCtxs_chains)
    fun _ => .pure onlyCtxs_chains _

/-- A CWAIT whose wait is satisfied ends with status 0 and its first satisfied slot; memory and cells are as they were. -/
theorem run_endWait_cwait {σ : At s0} {a : Nat} {w : Wait} (hk : w.kind = .cwait) :
    ∃ τ, endWait a w σ = .ok () τ ∧ (τ.val.ctx a).prog.ans = some (.cwait 0 (σ.val.firstSat w)) ∧
      τ.val.mem = σ.val.mem ∧ τ.val.cells = σ.val.cells := by
  obtain ⟨_, π, hπ, hread⟩ := goes_readWatches a (w.watches.filter σ.val.satWatch) σ
  obtain ⟨_, ρ, hρ, hgens⟩ := goes_refreshGens a (w.watches.filter σ.val.satWatch) π
  obtain ⟨τ, hτ, eτ⟩ := run_wakeCtx a (some (.cwait 0 (σ.val.firstSat w))) ρ
  refine ⟨τ, ?_, ?_, ?_, ?_⟩
  · rw [endWait, run_bind_ok (run_st σ), hk]
    exact (run_bind_ok hπ).trans ((run_bind_ok hρ).trans hτ)
  · rw [eτ]
    rcases wakes_ctx ρ.val a (some (.cwait 0 (σ.val.firstSat w))) with h | h <;> rw [h] <;> rfl
  · rw [eτ, wakes_frame, hgens, hread]
  · rw [eτ, wakes_frame, hgens, hread]

theorem quantumExpiry_switches {s : State} {core i : Nat} (h : Expected.RunsAlone s core i)
    (hb : (s.core core).bound ≠ 0) (hw : (s.ctx (16 * core + i)).prog.whole = true) :
    ∃ t : State, exec (.quantumExpiry core) s = .next t ∧ t = { s with ctxs := t.ctxs, cores := t.cores } ∧
      Expected.Switched s t core i ∧ (t.ctx (16 * core + i)).r = (s.ctx (16 * core + i)).r := by
  obtain ⟨-, hfailed, htrace, hphase, hpre, halone⟩ := id h
  have hrunning : s.runningCtx core = some i := by
    unfold State.runningCtx
    refine List.find?_range_eq_some.2 ⟨by simp [hphase, Ctx.halted, hpre], List.mem_range.2 h.lt, fun j hj => ?_⟩
    have hj' : j < Expected.contexts core := contexts_eq core ▸ Nat.lt_trans hj h.lt
    simp [halone j hj' (Nat.ne_of_lt hj)]
  obtain ⟨τ, ctxs, cores, hτ, eτ, hsw, hr⟩ := run_switchOut_ready h (⟨s, .refl⟩ : At s) rfl (fun _ _ => rfl) hpre
  refine ⟨τ.val, run_ok (m := quantumExpiryBody core) ?_, by rw [eτ], hsw, hr⟩
  rw [quantumExpiryBody, run_bind_ok (run_st _), hrunning]
  dsimp only
  rw [hw, hfailed, htrace, bne_iff_ne.2 hb]
  exact (run_bind_ok (run_require _ _)).trans hτ

theorem referenceComplete_wakes {s : State} {a : Nat} {w : Wait} (hphase : (s.ctx a).phase = .waiting)
    (hw : (s.ctx a).wait = some w) (hk : w.kind = .ref) : exec (.referenceComplete a) s = .next (s.wakes a none) := by
  obtain ⟨τ, hτ, eτ⟩ := run_wakeCtx a none (⟨s, .refl⟩ : At s)
  rw [← eτ]
  refine run_ok (m := referenceCompleteBody a) ?_
  have hret : ((s.ctx a).phase == .waiting && (s.ctx a).wait.any (s.returns a)) = true := by
    simp [hphase, hw, State.returns, hk]
  rw [referenceCompleteBody, run_bind_ok (run_st _), hret]
  exact (run_bind_ok (run_require _ _)).trans hτ

theorem run_cwaitTimeoutBody {s : State} {a : Nat} {w : Wait} {d : Nat} (hw : (s.ctx a).wait = some w)
    (hk : w.kind = .cwait) (hd : w.deadline = some d) (hdue : d ≤ s.time) :
    cwaitTimeoutBody a (⟨s, .refl⟩ : At s) =
      (if s.satWait w then endWait a w else wakeCtx a (some (.cwait 2 0))) ⟨s, .refl⟩ := by
  rw [cwaitTimeoutBody, run_bind_ok (run_st _), hw]
  dsimp only
  rw [hk, hd, show ((WaitKind.cwait == WaitKind.cwait) && (some d).any fun t => decide (t ≤ s.time)) = true by simp [hdue]]
  exact run_bind_ok (run_require _ _)

theorem leaseBoundExpiry_ends {s : State} {a : Nat} {l : Lease} (hl : l ∈ (s.ctx a).leases) (hlive : l.live = true)
    (hlines : (s.ctx a).lines = []) :
    ∃ t : State, exec (.leaseBoundExpiry a l.line) s = .next t ∧ t = { s with ctxs := t.ctxs, cores := t.cores } ∧
      (t.ctx a).leases =
        (s.ctx a).leases.map fun x => if x.live ∧ x.line = l.line then { x with live := false } else x := by
  let c : Ctx :=
    { s.ctx a with
      leases := (s.ctx a).leases.map fun x => if x.live && x.line == l.line then { x with live := false } else x }
  let ρ : At s := At.upd ⟨s, .refl⟩ (.ctx a c)
  obtain ⟨_, τ, hτ, hstir⟩ := goes_wakeLine l.line ρ
  refine ⟨τ.val, run_ok (m := leaseBoundExpiryBody a l.line) ?_, ?_, ?_⟩
  · have hany : ((s.ctx a).leases.any fun x => x.live && x.line == l.line) = true :=
      List.any_eq_true.2 ⟨l, hl, by simp [hlive]⟩
    rw [leaseBoundExpiryBody, run_bind_ok (run_st _), hany, run_bind_ok (run_require _ _),
      run_bind_ok (run_settleHolder hlines)]
    exact (run_bind_ok (run_modCtx _ _ _)).trans hτ
  · rw [hstir.frame]
    rfl
  · obtain ⟨ph, w, p, e, -⟩ := hstir.ctx a
    rw [e, At.upd_val, ctx_upd_same]
    simp [c]

/-- A context of a launch once nothing of its last strand is left (R81). -/
def Ctx.idled (x : Ctx) : Ctx :=
  { x with
    phase := .idle, lines := [], replay := [], replayNow := false, straight := false, linkBase := none, pend := []
    ovf := false, stale := false, join := none, start := none, r := { x.r with slots := [] } }

/-- The end of a drain, with no store and no far write left. -/
theorem run_drainCompleteBody {s : State} {a : Nat} (hphase : (s.ctx a).phase = .draining)
    (hlines : (s.ctx a).lines = []) (hfar : (s.ctx a).farw = [])
    (hbusy : (s.engineBusy true fun b => s.ofCtx a b) = false) (hfailed : (s.core (coreOf a)).failed = false) :
    drainCompleteBody a (⟨s, .refl⟩ : At s) =
      (if (s.ctx a).owner.isNone then freeCtx a else modCtx a Ctx.idled)
        (At.upd ⟨s, .refl⟩ (.ctx a { s.ctx a with farw := [] })) := by
  have hdone : ((s.ctx a).phase == .draining && (firstAwaiting (s.ctx a).lines).isNone &&
      !s.engineBusy (!(s.core (coreOf a)).failed) fun b => s.ofCtx a b) = true := by
    rw [hphase, hlines, hfailed, Bool.not_false, hbusy]
    rfl
  rw [drainCompleteBody, run_bind_ok (run_st _), hdone, run_bind_ok (run_require _ _), hlines, hfailed, Bool.or_false]
  exact (run_bind_ok (run_pure PUnit.unit _)).trans (run_bind_ok (run_drainFar hfar))

theorem drainComplete_frees {s : State} {a : Nat} (hphase : (s.ctx a).phase = .draining) (hlines : (s.ctx a).lines = [])
    (hfar : (s.ctx a).farw = []) (hbusy : (s.engineBusy true fun b => s.ofCtx a b) = false)
    (hfailed : (s.core (coreOf a)).failed = false) :
    ∃ t : State, exec (.drainComplete a) s = .next t ∧ t = { s with ctxs := t.ctxs } ∧
      (t.ctx a).phase = (if (s.ctx a).owner = none then .free else .idle) ∧ ∀ b, b ≠ a → t.ctx b = s.ctx b := by
  have hrun := run_drainCompleteBody hphase hlines hfar hbusy hfailed
  have hother (c d : Ctx) (b : Nat) (hb : b ≠ a) : ((Upd.ctx a d).apply ((Upd.ctx a c).apply s)).ctx b = s.ctx b :=
    (ctx_upd_ne _ _ hb).trans (ctx_upd_ne _ _ hb)
  cases ho : (s.ctx a).owner with
  | none =>
    rw [ho] at hrun
    exact ⟨_, run_ok (m := drainCompleteBody a) hrun, rfl, congrArg Ctx.phase (ctx_upd_same _ _ _), hother _ _⟩
  | some k =>
    rw [ho] at hrun
    exact ⟨_, run_ok (m := drainCompleteBody a) hrun, rfl, congrArg Ctx.phase (ctx_upd_same _ _ _), hother _ _⟩

/-- Settles O43, by one lemma for each event. -/
theorem contextEvents : Obligations.ContextEvents := by
  unfold Obligations.ContextEvents
  intro s a
  dsimp only
  refine ⟨fun core i h hb hw => quantumExpiry_switches h hb hw, fun hphase w hw => ⟨fun hk => ?_, fun d hk hd hdue =>
    ⟨fun hsat => ?_, fun hsat => ?_⟩⟩, fun l hl hlive hlines => leaseBoundExpiry_ends hl hlive hlines,
    fun hphase hlines hfar hbusy hfailed => drainComplete_frees hphase hlines hfar hbusy hfailed⟩
  · obtain ⟨hr, hwait, hready, -⟩ := wakes_waiting hphase none
    exact ⟨_, referenceComplete_wakes hphase hw hk, wakes_frame s a none, hr, hwait, hready⟩
  · obtain ⟨hr, hwait, hready, hans⟩ := wakes_waiting hphase (some (.cwait 2 0))
    obtain ⟨τ, hτ, eτ⟩ := run_wakeCtx a (some (.cwait 2 0)) (⟨s, .refl⟩ : At s)
    rw [← eτ] at hr hwait hready hans
    refine ⟨τ.val, run_ok (m := cwaitTimeoutBody a) ?_, ⟨by rw [eτ]; exact wakes_frame s a _, hr, hwait, hready⟩, hans⟩
    rw [run_cwaitTimeoutBody hw hk hd hdue, if_neg (ne_true_of_eq_false hsat)]
    exact hτ
  · obtain ⟨τ, hτ, hans, hmem, hcells⟩ := run_endWait_cwait (σ := (⟨s, .refl⟩ : At s)) (a := a) hk
    refine ⟨τ.val, run_ok (m := cwaitTimeoutBody a) ?_, hans, hmem, hcells⟩
    rw [run_cwaitTimeoutBody hw hk hd hdue, if_pos hsat]
    exact hτ

end Sys2Proof.Machine
end

section
/-! The issue of an instruction on a core that leads or follows a trace set (R60 to R66). -/

namespace Sys2Proof.Machine

variable {s0 : State}

/-- A strand that has just come to its instruction and may issue it, whatever trace set its core is in: it owes nothing and replays
nothing, and no follower of its core is far behind. -/
structure State.Fresh (s : State) : Prop where
  full : followersFull (⟨s, .refl⟩ : At s) = .ok false ⟨s, .refl⟩
  msgs : (s.glaze.msgs.any fun p => s.ofCtx s.cur p.2.by_) = false
  owed : s.owedX s.cur = []
  replay : ((s.ctx s.cur).replayNow && (s.ctx s.cur).replay.contains s.regs.pc) = false
  prog : (s.ctx s.cur).prog = Progress.none

theorem State.Alone.fresh {s : State} (h : s.Alone) : s.Fresh := by
  obtain ⟨-, -, hl, hm, ho, hr, hp, -⟩ := h
  exact ⟨run_followersFull hl, hm, ho, hr, hp⟩

/-- After the checks at issue an instruction of such a strand comes down to its body, its completion and its stops. -/
theorem State.Fresh.issue_eq {s : State} {α : Type} {sy : Sync} {rel engine : Bool} {pre : M s Unit} {early : M s α}
    {body : α → M s Fin} (h : s.Fresh) (hfront : frontChecks sy pre ⟨s, .refl⟩ = .ok () ⟨s, .refl⟩) :
    issue sy rel engine pre early body ⟨s, .refl⟩ =
      (do match ← attempt (wholly sy rel early body) with
          | .error x => settle sy x
          | .ok (.error x) => settle sy x
          | .ok (.ok fin) => complete sy engine s.before fin) ⟨s, .refl⟩ := by
  have hfin : (s.ctx s.cur).prog.fin = none := by rw [h.prog]; rfl
  rw [issue, run_bind_ok h.full]
  simp only [Bool.false_eq_true, if_false]
  rw [run_bind_ok (run_resultOwed h.msgs h.owed)]
  simp only [Bool.false_eq_true, if_false]
  rw [run_bind_ok (run_beforeNow _), run_bind_ok (run_myCtx _)]
  simp only [hfin]
  exact run_bind_ok (run_attempt_ok hfront)

theorem State.Fresh.issue_done {s : State} {α : Type} {sy : Sync} {rel engine : Bool} {pre : M s Unit} {early : M s α}
    {body : α → M s Fin} {fin : Fin} {σ : At s} (h : s.Fresh)
    (hfront : frontChecks sy pre ⟨s, .refl⟩ = .ok () ⟨s, .refl⟩)
    (hwholly : wholly sy rel early body ⟨s, .refl⟩ = .ok (.ok fin) σ) :
    issue sy rel engine pre early body ⟨s, .refl⟩ = complete sy engine s.before fin σ := by
  rw [h.issue_eq hfront, run_bind_ok (run_attempt_ok hwholly)]

/-- A body without synchronisation fields that runs well. -/
theorem State.Fresh.issue_body {s : State} {sy : Sync} {engine : Bool} {pre : M s Unit} {body : M s Fin} {fin : Fin}
    {σ : At s} (h : s.Fresh) (hw : sy.wait = none) (hs : sy.sig = none) (hpre : pre ⟨s, .refl⟩ = .ok () ⟨s, .refl⟩)
    (hbody : body ⟨s, .refl⟩ = .ok fin σ) :
    issue sy false engine pre (pure ()) (fun _ => body) ⟨s, .refl⟩ = complete sy engine s.before fin σ :=
  h.issue_done ((run_frontChecks hw hs).trans hpre) (run_wholly hw hs h.replay (run_attempt_ok hbody))

/-- The address that the strand of a follower goes on at is its leader's. -/
def State.nextAddr (s : State) (sy : Sync) : Word :=
  match s.fwd with
  | some f => f.next
  | none => nextPc s.regs.pc sy

theorem run_nextOf_addr (sy : Sync) (σ : At s0) : nextOf sy σ = .ok (σ.val.nextAddr sy) σ := by
  unfold nextOf State.nextAddr
  rw [run_bind_ok (run_st σ)]
  cases σ.val.fwd <;> rfl

/-- An instruction that goes on at the next address completes: a follower takes it from its stream, a leader hands it on. -/
theorem run_complete_next {sy : Sync} {old : Before} {σ τ : At s0} (hs : sy.sig = none)
    (hq : (σ.val.ctx σ.val.cur).prog.lease = none) (hh : (σ.val.ctx σ.val.cur).prog.handed = false)
    (h : (if σ.val.isFollower (coreOf σ.val.cur) then popStream (coreOf σ.val.cur)
        else forward σ.val.regs.pc (σ.val.nextAddr sy)) σ = .ok () τ) :
    complete sy false old .next σ = .ok () (τ.retireAs { τ.val.regs with pc := σ.val.nextAddr sy } false) := by
  cases hb : σ.val.isFollower (coreOf σ.val.cur) with
  | true =>
    have hpop := (congrFun (if_pos hb) σ).symm.trans h
    cases hf : σ.val.fwd <;>
      simp [complete, run_bind, run_leaveQueue hq, run_nextOf_addr, State.nextAddr, hb, hf, signalOwed, owesSignal, hs,
        Fin.target, Fin.straight, State.regs, hpop, At.retireAs]
  | false =>
    have hforward := (congrFun (if_neg (ne_true_of_eq_false hb)) σ).symm.trans h
    simp only [State.regs, State.nextAddr] at hforward
    cases hf : σ.val.fwd <;>
      simp only [hf] at hforward <;>
      simp [complete, run_bind, run_leaveQueue hq, hh, run_nextOf_addr, State.nextAddr, hb, hf, signalOwed, owesSignal,
        hs, Fin.target, Fin.straight, State.regs, hforward, At.retireAs]

/-! ### What a leader hands on -/

/-- A core that follows takes an instruction at the end of its stream. -/
def Core.handed (c : Core) (f : Fwd) : Core :=
  match c.trace with
  | .follower l true q => { c with trace := .follower l true (q ++ [f]) }
  | _ => c

theorem handed_of_none {c : Core} (f : Fwd) (h : c.trace = .none) : c.handed f = c := by
  simp [Core.handed, h]

theorem handed_trace {c : Core} (f : Fwd) {l : Nat} {q : List Fwd} (h : c.trace = .follower l true q) :
    (c.handed f).trace = .follower l true (q ++ [f]) := by
  simp [Core.handed, h]

/-- The instruction that the strand hands on. -/
def State.handsOn (s : State) (pc next : Word) : Fwd :=
  { ctx := s.cur % 16, pc := pc, base := (s.ctx s.cur).ir, ext := (s.ctx s.cur).irExt, next := next }

theorem forward_def (pc next : Word) :
    (forward pc next : M s0 Unit) = (do
      let s ← st
      if (s.ctx s.cur).handler = 0 then
        for n in s.followers (coreOf s.cur) do
          modCore n fun k => k.handed (s.handsOn pc next)) := rfl

theorem followers_nodup {s : State} (h : TMap.sorted s.cores = true) (core : Nat) : (s.followers core).Nodup :=
  TMap.nodup_of_sorted (TMap.sorted_filter _ h)

theorem mem_followers {s : State} {n l : Nat} {j : Bool} {q : List Fwd} (h : (s.core n).trace = .follower l j q) :
    n ∈ s.followers l := by
  cases hf : TMap.find s.cores n with
  | none =>
    have hreset : s.core n = Core.reset := by
      unfold State.core TMap.get
      rw [hf]
      rfl
    rw [hreset] at h
    cases h
  | some c =>
    have hc : s.core n = c := by
      unfold State.core TMap.get
      rw [hf]
      rfl
    rw [hc] at h
    exact List.mem_map.2 ⟨(n, c), List.mem_filter.2 ⟨TMap.mem_of_find hf, by simp [h]⟩, rfl⟩

/-- What a strand hands on changes streams of followers only; outside a trap handler it stands at the end of every joined
follower's stream, once. -/
theorem run_forward (pc next : Word) (σ : At s0) :
    ∃ τ cores, forward pc next σ = .ok () τ ∧ τ.val = { σ.val with cores := cores } ∧
      (∀ n, (σ.val.core n).trace = .none → τ.val.core n = σ.val.core n) ∧
      ((σ.val.ctx σ.val.cur).handler = 0 → TMap.sorted σ.val.cores = true →
        ∀ n ∈ σ.val.followers (coreOf σ.val.cur), τ.val.core n = (σ.val.core n).handed (σ.val.handsOn pc next)) := by
  rw [forward_def, run_bind_ok (run_st σ)]
  by_cases hh : (σ.val.ctx σ.val.cur).handler = 0
  · obtain ⟨τ, cores, hτ, eτ, hkept, hmade⟩ :=
      run_modCores (fun k => k.handed (σ.val.handsOn pc next)) (σ.val.followers (coreOf σ.val.cur)) σ
    exact ⟨τ, cores, (congrFun (if_pos hh) σ).trans (run_bind_ok hτ), eτ, fun n hn => hkept n (handed_of_none _ hn),
      fun _ ho => hmade (followers_nodup ho _)⟩
  · exact ⟨σ, _, congrFun (if_neg hh) σ, rfl, fun _ _ => rfl, fun h => absurd h hh⟩

/-- No follower of a core is 64 instructions behind where no core at all is (R62). -/
theorem run_followersFull_of_short {s : State} (h : ∀ m l j r, (s.core m).trace = .follower l j r → r.length < 64) :
    followersFull (⟨s, .refl⟩ : At s) = .ok false ⟨s, .refl⟩ := by
  rw [followersFull, run_bind_ok (run_st _), run_pure]
  refine congrArg (fun b => EStateM.Result.ok b _) (List.any_eq_false.2 fun n _ => ?_)
  cases ht : (s.core n).trace with
  | none => simp
  | follower l j q => simpa using h n l j q ht

end Sys2Proof.Machine
end

section
/-! TRACE and UNTRACE (R60, R65, R66, R472, R476), and what a leader issues (R62, R63). -/

namespace Sys2Proof.Machine

variable {s0 : State}

/-! ### TRACE -/

theorem run_onEasel_false {σ : At s0} (h : coreOf σ.val.cur < 1536) : onEasel false σ = .ok () σ := by
  rw [onEasel, run_bind_ok (run_myCore σ)]
  exact run_legal (by simp [isEasel, h]) σ

theorem run_onEasel_illegal {σ : At s0} (h : 1536 ≤ coreOf σ.val.cur) :
    onEasel false σ = .error (.trap .illegal (σ.val.ctx σ.val.cur).ir false false) σ := by
  rw [onEasel, run_bind_ok (run_myCore σ)]
  exact run_legal_false (by simp [isEasel, h]) σ

theorem traceStatus_eq (s : State) (core p : Nat) : s.traceStatus core p = Expected.traceStatus s core p := by
  have h8 : (7 < p) = (8 ≤ p) := rfl
  simp only [State.traceStatus, Expected.traceStatus, bne_iff_ne, h8, Bool.or_eq_true, decide_eq_true_eq, or_assoc,
    Bool.not_eq_true', List.isEmpty_eq_false_iff]

theorem run_traceBody (d a : XReg) (imm : Word) (σ : At s0) :
    traceBody d a imm σ =
      (let core := coreOf σ.val.cur
      let p := (σ.val.regs.getX a + imm).toNat
      let status := σ.val.traceStatus core p
      let ρ := σ.upd (.ctx σ.val.cur ((σ.val.ctx σ.val.cur).setX d (wordOf status)))
      .ok .next
        (if status = 0 then ρ.upd (.core core { σ.val.core core with trace := .follower (core / 8 * 8 + p) false [] })
        else ρ)) := by
  unfold traceBody
  rw [run_bind_ok (run_st σ)]
  by_cases h : σ.val.traceStatus (coreOf σ.val.cur) (σ.val.regs.getX a + imm).toNat = 0
  · exact (run_bind_ok (run_writeX _ _ σ)).trans
      ((congrFun (if_pos h) _).trans (congrArg (EStateM.Result.ok Fin.next) (if_pos h).symm))
  · exact (run_bind_ok (run_writeX _ _ σ)).trans
      ((congrFun (if_neg h) _).trans (congrArg (EStateM.Result.ok Fin.next) (if_neg h).symm))

/-- The stream of a follower that has executed the instruction at its head. -/
def Core.popped (k : Core) : Core :=
  match k.trace with
  | .follower l j q => { k with trace := .follower l j q.tail }
  | .none => k

theorem popStream_def (n : Nat) : (popStream n : M s0 Unit) = modCore n Core.popped := rfl

/-- A follower whose stream is empty stays as it is. -/
theorem popped_of_empty {k : Core} {l : Nat} {j : Bool} (h : k.trace = .follower l j []) : k.popped = k := by
  unfold Core.popped
  rw [h]
  simp only [List.tail_nil]
  rw [← h]

theorem upd_core_ctx (s : State) (n a : Nat) (k : Core) (c : Ctx) :
    (Upd.core n k).apply ((Upd.ctx a c).apply s) = (Upd.ctx a c).apply ((Upd.core n k).apply s) := rfl

/-- What retires does not depend on the registers that the strand held meanwhile. -/
theorem retireAs_upd (s : State) (r' r : Regs) (b : Bool) :
    ((Upd.ctx s.cur { s.ctx s.cur with r := r' }).apply s).retireAs r b = s.retireAs r b := by
  simp [State.retireAs]

@[simp] theorem retireAs_regs (s : State) (r : Regs) (b : Bool) : (s.retireAs r b).regs = r := by
  unfold State.retireAs State.regs
  rw [ctx_cur, ctx_upd_same]

theorem trace_result {d a : XReg} {v : Word} {sy : Sync} {s : State} (hq : s.Quiet sy) (hc : coreOf s.cur < 1536) :
    exec (.trace d a v sy) s =
      .next
        (State.goOn
          (if s.traceStatus (coreOf s.cur) (s.regs.getX a + v).toNat = 0 then
            (Upd.core (coreOf s.cur) { s.core (coreOf s.cur) with
              trace := .follower (coreOf s.cur / 8 * 8 + (s.regs.getX a + v).toNat) false [] }).apply s
          else s) sy
          (s.regs.setX d (wordOf (s.traceStatus (coreOf s.cur) (s.regs.getX a + v).toNat)))) := by
  have hpre : onEasel false (⟨s, .refl⟩ : At s) = .ok () ⟨s, .refl⟩ := run_onEasel_false hc
  have hbody := run_traceBody d a v (⟨s, .refl⟩ : At s)
  dsimp only at hbody
  by_cases h0 : s.traceStatus (coreOf s.cur) (s.regs.getX a + v).toNat = 0
  case neg =>
    rw [if_neg h0] at hbody ⊢
    exact (strandStep_regs hq hpre hbody rfl rfl).trans (congrArg _ (goOn_def s sy _ (setX_pc _ _ _)))
  case pos =>
    obtain ⟨-, hs, hf, -, -, -, -, -, hp, -⟩ := id hq
    rw [if_pos h0] at hbody ⊢
    let core := coreOf s.cur
    let k : Core := { s.core core with trace := .follower (core / 8 * 8 + (s.regs.getX a + v).toNat) false [] }
    let c : Ctx := (s.ctx s.cur).setX d (wordOf (s.traceStatus core (s.regs.getX a + v).toNat))
    let ρ : At s := (At.upd ⟨s, .refl⟩ (.ctx s.cur c)).upd (.core core k)
    have hk : ρ.val.core core = k := core_upd_same _ _ _
    have hc : ρ.val.ctx s.cur = c := ctx_upd_same _ _ _
    have hfollow : ρ.val.isFollower core = true := by rw [State.isFollower, hk]; rfl
    have hnext : ρ.val.nextAddr sy = nextPc s.regs.pc sy := by
      unfold State.nextAddr State.regs
      rw [show ρ.val.fwd = none from hf, show ρ.val.cur = s.cur from rfl, hc]
      exact congrArg (nextPc · sy) (setX_pc _ _ _)
    have hpop : popStream core ρ = .ok () (ρ.upd (.core core k)) := by
      rw [popStream_def, run_modCore, hk, popped_of_empty rfl]
    have hcomplete := run_complete_next (sy := sy) (old := s.before) (σ := ρ) hs
      (by rw [show ρ.val.cur = s.cur from rfl, hc]; exact congrArg Progress.lease hp)
      (by rw [show ρ.val.cur = s.cur from rfl, hc]; exact congrArg Progress.handed hp) ((congrFun (if_pos hfollow) ρ).trans hpop)
    rw [hnext] at hcomplete
    refine (strandStep_ok ((hq.2.2.fresh.issue_body hq.1 hs hpre hbody).trans hcomplete)).trans (congrArg _ ?_)
    have hval : (ρ.upd (.core core k)).val = (Upd.ctx s.cur c).apply ((Upd.core core k).apply s) :=
      (upd_core_core _ _ _ _).trans (upd_core_ctx _ _ _ _ _)
    have hregs : (ρ.upd (.core core k)).val.regs = s.regs.setX d (wordOf (s.traceStatus core (s.regs.getX a + v).toNat)) :=
      congrArg Ctx.r hc
    rw [At.retireAs_val, hregs, hval]
    exact retireAs_upd ((Upd.core core k).apply s) _ _ false

/-! ### UNTRACE -/

theorem run_untraceBody_alone {σ : At s0} (h : σ.val.fwd = none) : untraceBody σ = .ok .next σ := by
  rw [untraceBody, run_bind_ok (run_st σ), h]
  rfl

theorem run_untraceBody_follower {σ : At s0} {f : Fwd} (h : σ.val.fwd = some f) :
    untraceBody σ =
      .ok .next (σ.upd (.core (coreOf σ.val.cur) { σ.val.core (coreOf σ.val.cur) with trace := .none })) := by
  rw [untraceBody, run_bind_ok (run_st σ), h]
  rfl

/-- Without a signal field UNTRACE asks for no slot. -/
theorem exec_untrace {sy : Sync} (hs : sy.sig = none) (s : State) :
    exec (.untrace sy) s = strandStep s sy false false (pure ()) untraceBody := by
  obtain ⟨e, w, g, c⟩ := sy
  cases hs
  exact congrArg (fun sy => strandStep s sy false false (pure ()) untraceBody) (ite_self _)

theorem untrace_alone {sy : Sync} {s : State} (hq : s.Quiet sy) :
    exec (.untrace sy) s = .next (s.goOn sy s.regs) := by
  obtain ⟨-, hs, hf, -⟩ := id hq
  rw [exec_untrace hs]
  exact strandStep_plain hq (run_pure _ _) (run_untraceBody_alone hf) rfl rfl rfl rfl rfl

theorem untrace_follower {sy : Sync} {s : State} {f : Fwd} (h : s.Fresh) (hw : sy.wait = none) (hs : sy.sig = none)
    (hf : s.fwd = some f) :
    ∃ t : State, exec (.untrace sy) s = .next t ∧ (t.core (coreOf s.cur)).trace = .none ∧
      t.regs = { s.regs with pc := f.next } ∧ t.mem = s.mem ∧ t.ls = s.ls := by
  let core := coreOf s.cur
  let ρ : At s := At.upd ⟨s, .refl⟩ (.core core { s.core core with trace := .none })
  have hcore : (ρ.val.core core).trace = .none := congrArg Core.trace (core_upd_same _ _ _)
  have hleft : ρ.val.isFollower core = false := by rw [State.isFollower, hcore]; rfl
  have hnext : ρ.val.nextAddr sy = f.next := by
    unfold State.nextAddr
    rw [show ρ.val.fwd = some f from hf]
  obtain ⟨π, cores, hπ, eπ, hkept, -⟩ := run_forward s.regs.pc f.next ρ
  rw [← hnext] at hπ
  have hcomplete := run_complete_next (sy := sy) (old := s.before) (σ := ρ) hs (congrArg Progress.lease h.prog)
    (congrArg Progress.handed h.prog)
    ((congrFun (if_neg (ne_true_of_eq_false hleft)) ρ).trans hπ)
  rw [hnext] at hcomplete
  have hstep := strandStep_ok ((h.issue_body (pre := pure ()) hw hs (run_pure _ _) (run_untraceBody_follower hf)).trans hcomplete)
  have hregs : π.val.regs = s.regs := by
    rw [eπ]
    rfl
  have hmem : π.val.mem = s.mem := by
    rw [eπ]
    rfl
  have hls : π.val.ls = s.ls := by
    rw [eπ]
    rfl
  rw [hregs] at hstep
  exact ⟨_, (exec_untrace hs s).trans hstep, (congrArg Core.trace (hkept _ hcore)).trans hcore, retireAs_regs _ _ _,
    hmem, hls⟩

/-- Settles O31, by the cases of a compute core, an Easel core, a core in no trace set and a follower. -/
theorem traceResult : Obligations.TraceResult := by
  unfold Obligations.TraceResult
  intro d a v sy s hw hs
  dsimp only
  rw [← traceStatus_eq]
  refine ⟨fun halone hc => trace_result ⟨hw, hs, halone⟩ hc, fun halone hc hm => ?_, fun halone => untrace_alone ⟨hw, hs, halone⟩,
    fun f l j q hf _ hl hmsg ho hr hp => untrace_follower ⟨run_followersFull hl, hmsg, ho, hr, hp⟩ hw hs hf⟩
  exact strandStep_pre_trap ⟨hw, hs, halone⟩ hm (run_onEasel_illegal hc) rfl

/-! ### What a leader issues -/

theorem boolWord_slt (a b : Word) : boolWord (a.slt b) = if a.toInt < b.toInt then 1 else 0 := by
  simp [boolWord, BitVec.slt]

theorem boolWord_ult (a b : Word) : boolWord (a.ult b) = if a.toNat < b.toNat then 1 else 0 := by
  simp [boolWord, BitVec.ult]

theorem min_slt (a b : Word) : (if b.slt a then b else a) = if a.toInt ≤ b.toInt then a else b := by
  have h : (b.slt a = true) = ¬ a.toInt ≤ b.toInt := by simp [BitVec.slt]
  simp only [h, ite_not]

theorem min_ult (a b : Word) : (if b.ult a then b else a) = if a.toNat ≤ b.toNat then a else b := by
  have h : (b.ult a = true) = ¬ a.toNat ≤ b.toNat := by simp [BitVec.ult]
  simp only [h, ite_not]

/-- The rule's comparison admits equality, at which the operands are the same. -/
theorem max_slt (a b : Word) : (if a.slt b then b else a) = if a.toInt ≤ b.toInt then b else a := by
  by_cases h : a.toInt = b.toInt
  · rw [BitVec.eq_of_toInt_eq h, ite_self, ite_self]
  · have hlt : (a.slt b = true) = (a.toInt ≤ b.toInt) := by
      simp only [BitVec.slt, decide_eq_true_eq, eq_iff_iff]
      omega
    simp only [hlt]

theorem max_ult (a b : Word) : (if a.ult b then b else a) = if a.toNat ≤ b.toNat then b else a := by
  by_cases h : a.toNat = b.toNat
  · rw [BitVec.eq_of_toNat_eq h, ite_self, ite_self]
  · have hlt : (a.ult b = true) = (a.toNat ≤ b.toNat) := by
      simp only [BitVec.ult, decide_eq_true_eq, eq_iff_iff]
      omega
    simp only [hlt]

/-- The model's instruction computes what the rule says. -/
theorem alu_computes {i : Instr} {d d' : XReg} {sy sy' : Sync} {f : Regs → Word} {r : Regs} {v v' : Word}
    (he : exec i = alu d sy f) (hv : f r = v) (h : some (d, v, sy) = some (d', v', sy')) :
    ∃ f, exec i = alu d' sy' f ∧ f r = v' := by
  cases h
  exact ⟨f, he, hv⟩

/-- An integer instruction writes one register, with the value that its rule gives. -/
theorem scalarInt_alu {i : Instr} {r : Regs} {d : XReg} {v : Word} {sy : Sync}
    (h : Expected.scalarInt i r = some (d, v, sy)) : ∃ f, exec i = alu d sy f ∧ f r = v := by
  cases i
  case add => exact alu_computes rfl rfl h
  case addi => exact alu_computes rfl rfl h
  case sub => exact alu_computes rfl rfl h
  case mul => exact alu_computes rfl (mul_low _ _).symm h
  case mulh => exact alu_computes rfl (mulhWord_eq _ _) h
  case mulhu => exact alu_computes rfl (mulhuWord_eq _ _) h
  case div => exact alu_computes rfl (divWord_true _ _) h
  case divu => exact alu_computes rfl (divWord_false _ _) h
  case rem => exact alu_computes rfl (remWord_true _ _) h
  case remu => exact alu_computes rfl (remWord_false _ _) h
  case and => exact alu_computes rfl rfl h
  case andi => exact alu_computes rfl rfl h
  case or => exact alu_computes rfl rfl h
  case ori => exact alu_computes rfl rfl h
  case xor => exact alu_computes rfl rfl h
  case xori => exact alu_computes rfl rfl h
  case shl => exact alu_computes rfl (congrArg _ (shiftAmount_eq _)) h
  case shli => exact alu_computes rfl rfl h
  case shr => exact alu_computes rfl (congrArg _ (shiftAmount_eq _)) h
  case shri => exact alu_computes rfl rfl h
  case sra => exact alu_computes rfl (congrArg _ (shiftAmount_eq _)) h
  case srai => exact alu_computes rfl rfl h
  case slt => exact alu_computes rfl (boolWord_slt _ _) h
  case sltu => exact alu_computes rfl (boolWord_ult _ _) h
  case slti => exact alu_computes rfl (boolWord_slt _ _) h
  case min => exact alu_computes rfl (min_slt _ _) h
  case max => exact alu_computes rfl (max_slt _ _) h
  case minu => exact alu_computes rfl (min_ult _ _) h
  case maxu => exact alu_computes rfl (max_ult _ _) h
  case clz => exact alu_computes rfl (clzWord_eq _) h
  case popc => exact alu_computes rfl (popcWord_eq _) h
  case sel => exact alu_computes rfl rfl h
  case li => exact alu_computes rfl rfl h
  case adr => exact alu_computes rfl rfl h
  all_goals cases h

/-- Settles O32: the instruction completes with its own result, and what it hands on stands at the end of the streams. -/
theorem leaderForwards : Obligations.LeaderForwards := by
  unfold Obligations.LeaderForwards
  intro i s d v sy n q hi hw hs hf ht hmsg ho hr hp hh hord hshort hn
  obtain ⟨f, hexec, rfl⟩ := scalarInt_alu hi
  have hissue : s.Fresh := ⟨run_followersFull_of_short hshort, hmsg, ho, hr, hp⟩
  let r : Regs := s.regs.setX d (f s.regs)
  let ρ : At s := At.upd ⟨s, .refl⟩ (.ctx s.cur { s.ctx s.cur with r := r })
  have hctx : ρ.val.ctx s.cur = { s.ctx s.cur with r := r } := ctx_upd_same _ _ _
  have hregs : ρ.val.regs = r := congrArg Ctx.r hctx
  have hpc : r.pc = s.regs.pc := setX_pc _ _ _
  have hleads : ρ.val.isFollower (coreOf s.cur) = false := by
    rw [State.isFollower, show ρ.val.core (coreOf s.cur) = s.core (coreOf s.cur) from rfl, ht]
    rfl
  have hnext : ρ.val.nextAddr sy = nextPc s.regs.pc sy := by
    unfold State.nextAddr
    rw [show ρ.val.fwd = none from hf, hregs, hpc]
  obtain ⟨π, cores, hπ, eπ, -, hmade⟩ := run_forward ρ.val.regs.pc (ρ.val.nextAddr sy) ρ
  have hcomplete := run_complete_next (sy := sy) (old := s.before) (σ := ρ) hs
    (congrArg Progress.lease ((congrArg Ctx.prog hctx).trans hp))
    (congrArg Progress.handed ((congrArg Ctx.prog hctx).trans hp))
    ((congrFun (if_neg (ne_true_of_eq_false hleads)) ρ).trans hπ)
  have hπregs : π.val.regs = r := by
    rw [eπ]
    exact hregs
  have hmem : π.val.mem = s.mem := by
    rw [eπ]
    rfl
  have hls : π.val.ls = s.ls := by
    rw [eπ]
    rfl
  rw [hnext, hπregs] at hcomplete
  refine ⟨_, (congrFun hexec s).trans
    (strandStep_ok ((hissue.issue_body hw hs (run_pure _ _) (run_aluBody d f _)).trans hcomplete)), retireAs_regs _ _ _,
    hmem, hls, ?_⟩
  have hhandler : (ρ.val.ctx ρ.val.cur).handler = 0 := (congrArg Ctx.handler hctx).trans hh
  have hstream := hmade hhandler hord.2.1 n (mem_followers hn)
  have hfwd : ρ.val.handsOn ρ.val.regs.pc (ρ.val.nextAddr sy) =
      { ctx := s.cur % 16, pc := s.regs.pc, base := (s.ctx s.cur).ir, ext := (s.ctx s.cur).irExt,
        next := nextPc s.regs.pc sy } := by
    unfold State.handsOn
    rw [hnext, hregs, hpc, show ρ.val.cur = s.cur from rfl, hctx]
  rw [hfwd] at hstream
  exact (congrArg Core.trace hstream).trans (handed_trace _ hn)

end Sys2Proof.Machine
end

section
/-! How a strand comes to wait (R55, R95, R199 to R202). -/

namespace Sys2Proof.Machine

variable {s0 : State} {α β : Type}

/-- A loop with a value of its own that no turn leaves early runs to its end, and what every turn keeps for the elements done, the
latest first, holds then for all. -/
theorem run_forIn_gather {P : List α → β → State → Prop} {f : α → β → M s0 (ForInStep β)} (l : List α)
    (turn : ∀ done, ∀ x ∈ l, ∀ (b : β) (σ : At s0), P done b σ.val →
      ∃ b' τ, f x b σ = .ok (.yield b') τ ∧ P (x :: done) b' τ.val) :
    ∀ (done : List α) (b : β) (σ : At s0), P done b σ.val →
      ∃ b' τ, forIn l b f σ = .ok b' τ ∧ P (l.reverse ++ done) b' τ.val := by
  induction l with
  | nil => exact fun done b σ h => ⟨b, σ, rfl, h⟩
  | cons x l ih =>
    intro done b σ h
    obtain ⟨b', ρ, hρ, h⟩ := turn done x List.mem_cons_self b σ h
    obtain ⟨b'', τ, hτ, h⟩ := ih (fun done y hy => turn done y (List.mem_cons_of_mem x hy)) (x :: done) b' ρ h
    refine ⟨b'', τ, ?_, by simpa using h⟩
    rw [List.forIn_cons, run_bind_ok hρ]
    exact hτ

/-! ### The registration of a wait -/

/-- A watch but for the order of its registration. -/
def Watch.unplaced (y : Watch) : Watch := { y with seq := 0 }

theorem map_slot_of_unplaced {l l' : List Watch} (h : l'.map Watch.unplaced = l.map Watch.unplaced) :
    l'.map (·.slot) = l.map (·.slot) := by
  have := congrArg (List.map (·.slot)) h
  rwa [List.map_map, List.map_map] at this

theorem map_ctr_of_unplaced {l l' : List Watch} (h : l'.map Watch.unplaced = l.map Watch.unplaced) :
    l'.map (·.ctr) = l.map (·.ctr) := by
  have := congrArg (List.map (·.ctr)) h
  rwa [List.map_map, List.map_map] at this

/-- Every watch of a wait takes its place in the order of registrations (R202). -/
def placeWatches (l : List Watch) : M s0 (List Watch) :=
  forIn l [] fun y ws => do
    let q ← freshSeq
    pure (.yield (ws ++ [{ y with seq := q }]))

theorem run_placeWatches (l : List Watch) (σ : At s0) :
    ∃ ws τ q, placeWatches l σ = .ok ws τ ∧ τ.val = { σ.val with seq := q } ∧
      ws.map Watch.unplaced = l.map Watch.unplaced := by
  obtain ⟨ws, τ, hτ, ⟨q, eτ⟩, hws⟩ := run_forIn_gather (s0 := s0)
    (P := fun done ws t => (∃ q, t = { σ.val with seq := q }) ∧ ws.map Watch.unplaced = done.reverse.map Watch.unplaced)
    (f := fun y ws => do
      let q ← freshSeq
      pure (.yield (ws ++ [{ y with seq := q }])))
    l
    (fun done y _ ws ρ ⟨⟨q, eρ⟩, hws⟩ => by
      refine ⟨ws ++ [{ y with seq := ρ.val.seq }], ρ.upd .nextSeq, rfl, ⟨ρ.val.seq + 1, by rw [At.upd_val, eρ]; rfl⟩, ?_⟩
      rw [List.map_append, hws, List.reverse_cons, List.map_append]
      rfl)
    [] [] σ ⟨⟨_, rfl⟩, rfl⟩
  refine ⟨ws, τ, q, hτ, eτ, ?_⟩
  rw [hws, List.append_nil, List.reverse_reverse]

/-- What a wait leaves with others: nothing, but of a SPAWN and a parked system call. -/
def WaitKind.entersQuietly : WaitKind → Bool
  | .sysPark _ | .spawn _ => false
  | _ => true

theorem run_enterWait_quiet {w : Wait} (h : w.kind.entersQuietly = true) (σ : At s0) : enterWait w σ = .ok () σ := by
  unfold enterWait
  rw [run_bind_ok (run_st σ)]
  cases hk : w.kind
  case sysPark => rw [hk] at h; cases h
  case spawn => rw [hk] at h; cases h
  all_goals rfl

/-- The context as it waits. -/
def Ctx.waits (x : Ctx) (w : Wait) : Ctx :=
  { x with prog := { x.prog with deadline := w.deadline }, wait := some w, phase := .waiting }

/-- A strand on no follower that waits for nothing yet comes to wait: its watches are registered, and its core switches. -/
theorem run_block {w : Wait} {σ : At s0} (hk : w.kind.entersQuietly = true)
    (ht : (σ.val.core (coreOf σ.val.cur)).trace = .none) (hw : (σ.val.ctx σ.val.cur).wait = none) :
    ∃ τ ctxs cores q ws, block w σ = .ok () τ ∧ τ.val = { σ.val with ctxs := ctxs, cores := cores, seq := q } ∧
      τ.val.ctx σ.val.cur = (σ.val.ctx σ.val.cur).waits { w with watches := ws } ∧
      ws.map Watch.unplaced = w.watches.map Watch.unplaced := by
  let x : Ctx := { σ.val.ctx σ.val.cur with prog := { (σ.val.ctx σ.val.cur).prog with deadline := w.deadline } }
  let ρ := σ.upd (.ctx σ.val.cur x)
  have hx : ρ.val.ctx σ.val.cur = x := ctx_upd_same _ _ _
  have hfollow : σ.val.isFollower (coreOf σ.val.cur) = false := by rw [State.isFollower, ht]; rfl
  have hnew : ((σ.val.ctx σ.val.cur).wait != some w) = true := by rw [hw]; rfl
  obtain ⟨ws, π, q, hπ, eπ, hws⟩ := run_placeWatches w.watches ρ
  let υ := π.upd (.ctx π.val.cur { π.val.ctx π.val.cur with wait := some { w with watches := ws } })
  have hcur : π.val.cur = σ.val.cur := by rw [eπ]; rfl
  have hυ : υ.val.ctx σ.val.cur = { x with wait := some { w with watches := ws } } := by
    have hπx : π.val.ctx σ.val.cur = x := by rw [eπ]; exact hx
    rw [← hπx, ← hcur]
    exact ctx_upd_same _ _ _
  have htrace : (υ.val.core (coreOf σ.val.cur)).trace = .none := by
    rw [show υ.val.core (coreOf σ.val.cur) = π.val.core (coreOf σ.val.cur) from rfl, eπ]
    exact ht
  obtain ⟨τ, ctxs, cores, hτ, eτ, hctx, -⟩ := run_switchOut_stop σ.val.cur (p := .waiting) Phase.noConfusion υ htrace
  refine ⟨τ, ctxs, cores, q, ws, ?_, ?_, ?_, hws⟩
  · unfold block
    rw [run_bind_ok (run_st σ), run_bind_ok (run_modMe _ σ), run_bind_ok (run_enterWait_quiet hk ρ)]
    simp only [hfollow, hnew, Bool.not_false, Bool.true_or, if_true]
    exact (run_bind_ok hπ).trans ((run_bind_ok (run_modMe _ π)).trans hτ)
  · rw [eτ, At.upd_val, eπ]
    rfl
  · rw [hctx, hυ]
    rfl

/-- A wait of a strand that leads nobody is handed on to nobody. -/
theorem run_settle_wait {sy : Sync} {w : Wait} {σ : At s0} (hl : σ.val.followers (coreOf σ.val.cur) = []) :
    settle sy (.wait w) σ = block w σ := by
  have hhand : handOn sy w σ = .ok () σ := by
    unfold handOn
    rw [run_bind_ok (run_st σ), hl]
    simp only [List.isEmpty_nil, Bool.not_true, Bool.and_false, Bool.false_eq_true, if_false]
    rfl
  simp only [settle]
  rw [run_bind_ok (run_myCtx σ)]
  exact run_bind_ok hhand

/-- The step of a strand that comes to wait within its instruction. -/
theorem State.Alone.waits {s : State} {sy : Sync} {rel engine : Bool} {pre : M s Unit} {early : M s α} {body : α → M s Fin}
    {w : Wait} {σ : At s} (h : s.Alone) (hfront : frontChecks sy pre ⟨s, .refl⟩ = .ok () ⟨s, .refl⟩)
    (hwholly : wholly sy rel early body ⟨s, .refl⟩ = .error (.wait w) σ ∨
      wholly sy rel early body ⟨s, .refl⟩ = .ok (.error (.wait w)) σ)
    (hcur : σ.val.cur = s.cur) (hcores : σ.val.cores = s.cores) :
    issue sy rel engine pre early body ⟨s, .refl⟩ = block w σ := by
  have hl : σ.val.followers (coreOf σ.val.cur) = [] := by
    rw [hcur, State.followers, hcores]
    exact h.2.2.1
  rw [h.fresh.issue_eq hfront, ← run_settle_wait (sy := sy) hl]
  rcases hwholly with hw | hw
  · exact run_bind_ok (run_attempt_wait hw)
  · exact run_bind_ok (run_attempt_ok hw)

/-- The body of an instruction without synchronisation fields that stops to wait. -/
theorem wholly_waits {s : State} {sy : Sync} {body : M s Fin} {w : Wait} {σ : At s} (hq : s.Quiet sy)
    (hbody : body ⟨s, .refl⟩ = .error (.wait w) σ) :
    wholly sy false (pure ()) (fun _ => body) ⟨s, .refl⟩ = .ok (.error (.wait w)) σ :=
  run_wholly hq.1 hq.2.1 hq.2.2.fresh.replay (run_attempt_wait hbody)

/-- The step of a strand that comes to wait within its instruction, having changed no core: its core switches. -/
theorem strandStepE_waits {s : State} {sy : Sync} {rel engine : Bool} {pre : M s Unit} {early : M s α} {body : α → M s Fin}
    {w : Wait} {σ : At s} (h : s.Alone) (hfront : frontChecks sy pre ⟨s, .refl⟩ = .ok () ⟨s, .refl⟩)
    (hwholly : wholly sy rel early body ⟨s, .refl⟩ = .error (.wait w) σ ∨
      wholly sy rel early body ⟨s, .refl⟩ = .ok (.error (.wait w)) σ)
    (hk : w.kind.entersQuietly = true) (hcur : σ.val.cur = s.cur) (hcores : σ.val.cores = s.cores)
    (hwait : (σ.val.ctx s.cur).wait = none) :
    ∃ (t : State) (ws : List Watch) (ctxs : TMap Ctx) (cores : TMap Core) (q : Nat),
      strandStepE s sy rel engine pre early body = .next t ∧ t = { σ.val with ctxs := ctxs, cores := cores, seq := q } ∧
      t.ctx s.cur = (σ.val.ctx s.cur).waits { w with watches := ws } ∧
      ws.map Watch.unplaced = w.watches.map Watch.unplaced := by
  have ht : (σ.val.core (coreOf s.cur)).trace = .none := by
    rw [State.core, hcores]
    exact h.2.1
  obtain ⟨τ, ctxs, cores, q, ws, hτ, eτ, hctx, hws⟩ := run_block hk (by rw [hcur]; exact ht) (by rw [hcur]; exact hwait)
  rw [hcur] at hctx
  exact ⟨τ.val, ws, ctxs, cores, q, strandStepE_ok ((h.waits hfront hwholly hcur hcores).trans hτ), eτ, hctx, hws⟩

/-- The same of an instruction without synchronisation fields whose body waits. -/
theorem strandStep_waits {s : State} {sy : Sync} {pre : M s Unit} {body : M s Fin} {w : Wait} {σ : At s} (hq : s.Quiet sy)
    (hpre : pre ⟨s, .refl⟩ = .ok () ⟨s, .refl⟩) (hbody : body ⟨s, .refl⟩ = .error (.wait w) σ)
    (hk : w.kind.entersQuietly = true) (hcur : σ.val.cur = s.cur) (hcores : σ.val.cores = s.cores)
    (hwait : (σ.val.ctx s.cur).wait = none) :
    ∃ (t : State) (ws : List Watch) (ctxs : TMap Ctx) (cores : TMap Core) (q : Nat),
      strandStep s sy false false pre body = .next t ∧ t = { σ.val with ctxs := ctxs, cores := cores, seq := q } ∧
      t.ctx s.cur = (σ.val.ctx s.cur).waits { w with watches := ws } ∧
      ws.map Watch.unplaced = w.watches.map Watch.unplaced :=
  strandStepE_waits hq.2.2 ((run_frontChecks hq.1 hq.2.1).trans hpre) (.inr (wholly_waits hq hbody)) hk hcur hcores hwait

/-! ### The counters of slots -/

/-- A strand without stores under way has none to perform. -/
theorem run_drainStores {σ : At s0} {a : Nat} (h : (σ.val.ctx a).lines = []) : drainStores a σ = .ok () σ := by
  have htry : tryDrain a σ = .ok true σ := by
    unfold tryDrain
    rw [run_bind_ok (run_st σ), h]
    show drainUpTo a 8 σ = _
    unfold drainUpTo
    rw [run_bind_ok (run_st σ), h]
    rfl
  unfold drainStores
  rw [run_bind_ok htry]
  rfl

/-- The counter of a slot that is bound to a cell. -/
def State.cellCtr (s : State) (n : Nat) : Ctr :=
  match Expected.cellOf s n with
  | some (k, c) => .cell k c
  | none => .cell 0 0

/-- The watch of a slot that is bound to a cell, before it is registered. -/
def State.watchOf (s : State) (n : Nat) : Watch :=
  { slot := n, ctr := s.cellCtr n, mark := (s.slot s.cur n).mark, listed := true, seq := 0 }

theorem cellCtr_of_cellOf {s : State} {n k c : Nat} (h : Expected.cellOf s n = some (k, c)) : s.cellCtr n = .cell k c := by
  simp [State.cellCtr, h]

/-- The slot of a cell's watch is satisfied when its V has reached the mark. -/
theorem satWatch_watchOf {s : State} {n : Nat} (h : (Expected.cellOf s n).isSome) :
    s.satWatch (s.watchOf n) = Expected.satisfied s n := by
  obtain ⟨⟨k, c⟩, hc⟩ := Option.isSome_iff_exists.1 h
  unfold Expected.satisfied State.satWatch
  rw [hc]
  simp only [State.watchOf, cellCtr_of_cellOf hc]
  rfl

/-- A reference of this device to a cell names it without any access. -/
theorem run_resolveRef_cell {q : Req} {u : CtrUse} {ref : Word} {k c : Nat} {σ : At s0} (hl : isLocalRef ref = true)
    (hr : σ.val.localRef ref = some (k, c)) : resolveRef q u ref σ = .ok (.ok (.cell k c)) σ := by
  unfold State.localRef at hr
  split at hr
  case isFalse => cases hr
  case isTrue hnode =>
    unfold resolveRef
    rw [run_bind_ok (run_st σ)]
    simp only [hl, hr, hnode, if_true]
    rfl

/-- A slot that is bound to a cell of this device names it without any access. -/
theorem run_mySlot_cell {σ : At s0} {n : Nat} {u : CtrUse} (h : (Expected.cellOf σ.val n).isSome) :
    mySlot n u σ = .ok (.ok (σ.val.cellCtr n)) σ := by
  obtain ⟨⟨k, c⟩, hc⟩ := Option.isSome_iff_exists.1 h
  rw [cellCtr_of_cellOf hc]
  unfold Expected.cellOf at hc
  dsimp only at hc
  split at hc
  case isFalse => cases hc
  case isTrue hl =>
    have hslot : slotCtr σ.val.cur n u σ = .ok (.ok (.cell k c)) σ :=
      (run_bind_ok (run_st σ)).trans (run_resolveRef_cell (Bool.and_eq_true_iff.1 hl).1 hc)
    unfold mySlot
    rw [run_bind_ok (run_st σ), run_bind_ok hslot]
    rfl

theorem run_mkWatch_slot {σ : At s0} (ws : List Watch) (n : Nat) :
    mkWatch ws n (σ.val.cellCtr n) (σ.val.slot σ.val.cur n).mark σ =
      .ok { σ.val.watchOf n with seq := σ.val.seq } (σ.upd .nextSeq) := by
  unfold State.watchOf State.cellCtr
  cases Expected.cellOf σ.val n <;> rfl

end Sys2Proof.Machine
end

section
/-! CWAIT and wait fields that are not satisfied (R55, R95, R200, R202). -/

namespace Sys2Proof.Machine

variable {s0 : State}

/-! ### CWAIT -/

/-- The registration of the slots of a CWAIT, one after the other. -/
theorem cwaitWait_def (slot : BitVec 8) (a : Option XReg) (all : Bool) (b : XReg) :
    (cwaitWait slot a all b : M s0 Wait) = (do
      let c ← myCtx
      let ws ← forIn (cwaitSlots slot a c.r) ([] : List Watch) fun n ws => do
        let k ← needSlot n { rd := true, wr := false }
        let s ← st
        let w ← mkWatch ws n k (s.slot s.cur n).mark
        pure (ForInStep.yield (ws ++ [w]))
      let s ← st
      return { kind := .cwait, watches := ws, all := all, deadline := cwaitDeadline s c b }) := rfl

theorem run_needSlot_cell {σ : At s0} {n : Nat} {u : CtrUse} (h : (Expected.cellOf σ.val n).isSome) :
    needSlot n u σ = .ok (σ.val.cellCtr n) σ := by
  unfold needSlot
  rw [run_bind_ok (run_mySlot_cell h)]
  rfl

/-- A CWAIT on slots bound to cells makes a watch of each, and changes nothing but the order numbers. -/
theorem run_cwaitWait {σ : At s0} {slot : BitVec 8} {a : Option XReg} {all : Bool} {b : XReg}
    (hcells : ∀ m ∈ cwaitSlots slot a σ.val.regs, (Expected.cellOf σ.val m).isSome) :
    ∃ ws τ q,
      cwaitWait slot a all b σ =
        .ok { kind := .cwait, watches := ws, all := all, deadline := cwaitDeadline σ.val (σ.val.ctx σ.val.cur) b } τ ∧
      τ.val = { σ.val with seq := q } ∧
      ws.map Watch.unplaced = (cwaitSlots slot a σ.val.regs).map σ.val.watchOf := by
  obtain ⟨ws, τ, hτ, ⟨q, eτ⟩, hws⟩ := run_forIn_gather (s0 := s0)
    (P := fun done ws t => (∃ q, t = { σ.val with seq := q }) ∧
      ws.map Watch.unplaced = done.reverse.map σ.val.watchOf)
    (f := fun n ws => do
      let k ← needSlot n { rd := true, wr := false }
      let s ← st
      let w ← mkWatch ws n k (s.slot s.cur n).mark
      pure (ForInStep.yield (ws ++ [w])))
    (cwaitSlots slot a σ.val.regs)
    (fun done n hn ws ρ ⟨⟨q, eρ⟩, hws⟩ => by
      have hcell : (Expected.cellOf ρ.val n).isSome := by rw [eρ]; exact hcells n hn
      have hwatch : ρ.val.watchOf n = σ.val.watchOf n := by rw [eρ]; rfl
      refine ⟨ws ++ [{ ρ.val.watchOf n with seq := ρ.val.seq }], ρ.upd .nextSeq, ?_,
        ⟨ρ.val.seq + 1, by rw [At.upd_val, eρ]; rfl⟩, ?_⟩
      · rw [run_bind_ok (run_needSlot_cell hcell)]
        exact (run_bind_ok (run_st ρ)).trans (run_bind_ok (run_mkWatch_slot ws n))
      · rw [List.map_append, hws, hwatch, List.reverse_cons, List.map_append]
        rfl)
    [] [] σ ⟨⟨_, rfl⟩, rfl⟩
  refine ⟨ws, τ, q, ?_, eτ, by rw [hws, List.append_nil, List.reverse_reverse]⟩
  rw [cwaitWait_def, run_bind_ok (run_myCtx σ)]
  refine (run_bind_ok hτ).trans ?_
  rw [run_bind_ok (run_st τ), eτ]
  rfl

/-- A wait on cells is satisfied when the slots that it names are. -/
theorem satWait_of_slots {s : State} {w : Wait} {ns : List Nat} (hw : w.watches.map Watch.unplaced = ns.map s.watchOf)
    (hcells : ∀ m ∈ ns, (Expected.cellOf s m).isSome) :
    s.satWait w = true ↔
      if w.all then ∀ m ∈ ns, Expected.satisfied s m = true else ∃ m ∈ ns, Expected.satisfied s m = true := by
  have hsat : w.watches.map s.satWatch = ns.map (Expected.satisfied s) := by
    calc w.watches.map s.satWatch = (w.watches.map Watch.unplaced).map s.satWatch := by rw [List.map_map]; rfl
      _ = ns.map fun m => s.satWatch (s.watchOf m) := by rw [hw, List.map_map]; rfl
      _ = ns.map (Expected.satisfied s) := List.map_congr_left fun m hm => satWatch_watchOf (hcells m hm)
  have hall : w.watches.all s.satWatch = ns.all (Expected.satisfied s) := by
    have := congrArg (fun l => l.all id) hsat
    simpa [List.all_map] using this
  have hany : w.watches.any s.satWatch = ns.any (Expected.satisfied s) := by
    have := congrArg (fun l => l.any id) hsat
    simpa [List.any_map] using this
  unfold State.satWait
  rw [hall, hany]
  cases w.all <;> simp

theorem run_cwaitPre {σ : At s0} {slot : BitVec 8} {a : Option XReg}
    (h : ∀ m ∈ cwaitSlots slot a σ.val.regs, m < (σ.val.ctx σ.val.cur).nslots ∧ m < 256) :
    cwaitPre slot a σ = .ok () σ := by
  unfold cwaitPre
  rw [run_bind_ok (run_myCtx σ)]
  refine run_legal (List.all_eq_true.2 fun m hm => ?_) σ
  obtain ⟨hn, h256⟩ := h m hm
  simp [hn, h256]

/-- A CWAIT without a timeout that is not satisfied stops to wait, with a watch on each of its cells. -/
theorem run_cwaitBody_waits {s : State} {d : XReg} {slot : BitVec 8} {a : Option XReg} {all : Bool} {b : XReg} {sc : Scope}
    (halone : s.Alone) (hlines : (s.ctx s.cur).lines = []) (hb : s.regs.getX b = BitVec.allOnes 64)
    (hcells : ∀ m ∈ cwaitSlots slot a s.regs, (Expected.cellOf s m).isSome)
    (hsat : ¬ if all then ∀ m ∈ cwaitSlots slot a s.regs, Expected.satisfied s m = true
      else ∃ m ∈ cwaitSlots slot a s.regs, Expected.satisfied s m = true) :
    ∃ (σ : At s) (ws : List Watch) (q : Nat),
      cwaitBody d slot a all b sc ⟨s, .refl⟩ =
        .error (.wait { kind := .cwait, watches := ws, all := all, deadline := none }) σ ∧
      σ.val = { s with seq := q } ∧ ws.map Watch.unplaced = (cwaitSlots slot a s.regs).map s.watchOf := by
  obtain ⟨-, -, -, -, -, -, hp, hwait⟩ := halone
  obtain ⟨ws, σ, q, hσ, eσ, hws⟩ := run_cwaitWait (σ := (⟨s, .refl⟩ : At s)) (all := all) (b := b) hcells
  have hdeadline : cwaitDeadline s (s.ctx s.cur) b = none := by
    unfold cwaitDeadline
    rw [hp]
    exact if_pos hb
  rw [hdeadline] at hσ
  have hunsat : σ.val.satWait { kind := .cwait, watches := ws, all := all, deadline := none } = false := by
    refine Bool.eq_false_iff.2 fun h => hsat ?_
    refine (satWait_of_slots (s := s) (w := { kind := .cwait, watches := ws, all := all, deadline := none }) hws hcells).1 ?_
    rw [eσ] at h
    exact h
  have hans : (s.ctx s.cur).prog.ans = none := by rw [hp]; rfl
  refine ⟨σ, ws, q, ?_, eσ, hws⟩
  unfold cwaitBody
  rw [run_bind_ok (run_myCtx _)]
  simp only [hans, hwait]
  rw [run_bind_ok (run_me _), run_bind_ok (run_drainStores hlines), run_bind_ok hσ, run_bind_ok (run_st σ)]
  simp only [hunsat, Option.any_none, Bool.false_eq_true, if_false]
  rfl

/-- What an instruction is that `Expected.cwait` knows. -/
theorem cwait_cases {i : Instr} {r : Regs} {d : XReg} {ns : List Nat} {all any : Bool} {v : Word} {n : Nat} {sy : Sync}
    (h : Expected.cwait i r = some (d, ns, all, v, n, any, sy)) :
    ∃ (slot : BitVec 8) (a : Option XReg) (b : XReg),
      exec i = counterInstr slot sy (fun _ => cwaitPre slot a) (fun _ => cwaitBody d slot a all b sy.scope) ∧
      ns = cwaitSlots slot a r ∧ v = r.getX b ∧ n = slot.toNat := by
  cases i
  case cwait d slot b sy => cases h; exact ⟨slot, none, b, rfl, rfl, rfl, rfl⟩
  case cwaitAny d slot a b sy => cases h; exact ⟨slot, some a, b, rfl, rfl, rfl, rfl⟩
  case cwaitAll d slot a b sy => cases h; exact ⟨slot, some a, b, rfl, rfl, rfl, rfl⟩
  all_goals cases h

theorem cwait_waits {s : State} {d : XReg} {slot : BitVec 8} {a : Option XReg} {all : Bool} {b : XReg} {sy : Sync}
    (hq : s.Quiet sy) (hslot : slot.toNat < (s.ctx s.cur).nslots) (hlines : (s.ctx s.cur).lines = [])
    (hb : s.regs.getX b = BitVec.allOnes 64)
    (hns : ∀ m ∈ cwaitSlots slot a s.regs, m < (s.ctx s.cur).nslots ∧ m < 256 ∧ (Expected.cellOf s m).isSome)
    (hsat : ¬ if all then ∀ m ∈ cwaitSlots slot a s.regs, Expected.satisfied s m = true
      else ∃ m ∈ cwaitSlots slot a s.regs, Expected.satisfied s m = true) :
    ∃ (t : State) (ws : List Watch) (ctxs : TMap Ctx) (cores : TMap Core) (q : Nat),
      counterInstr slot sy (fun _ => cwaitPre slot a) (fun _ => cwaitBody d slot a all b sy.scope) s = .next t ∧
      t = { s with ctxs := ctxs, cores := cores, seq := q } ∧
      t.ctx s.cur = (s.ctx s.cur).waits { kind := .cwait, watches := ws, all := all, deadline := none } ∧
      ws.map Watch.unplaced = (cwaitSlots slot a s.regs).map s.watchOf := by
  obtain ⟨σ, ws, q, hσ, eσ, hws⟩ := run_cwaitBody_waits (d := d) (sc := sy.scope) hq.2.2 hlines hb
    (fun m hm => (hns m hm).2.2) hsat
  have hpre : (do legalSlot slot.toNat; cwaitPre slot a : M s Unit) ⟨s, .refl⟩ = .ok () ⟨s, .refl⟩ :=
    (run_bind_ok (run_legalSlot hslot)).trans (run_cwaitPre fun m hm => ⟨(hns m hm).1, (hns m hm).2.1⟩)
  have hcur : σ.val.cur = s.cur := by rw [eσ]
  have hctx : σ.val.ctx s.cur = s.ctx s.cur := by rw [eσ]; rfl
  have hcores : σ.val.cores = s.cores := by rw [eσ]
  obtain ⟨t, ws', ctxs, cores, q', ht, et, htctx, hws'⟩ :=
    strandStep_waits hq hpre hσ rfl hcur hcores (by rw [hctx]; exact hq.2.2.2.2.2.2.2.2.2)
  rw [hctx] at htctx
  exact ⟨t, ws', ctxs, cores, q', ht, by rw [et, eσ], htctx, hws'.trans hws⟩

/-! ### The wait field -/

/-- The instruction is a body behind its wait field, with no check of its own before it. -/
def HasBody (i : Instr) (s : State) (sy : Sync) : Prop :=
  ∃ body : M s Fin, exec i s = strandStep s sy false false (pure ()) body

theorem scalarInt_hasBody {i : Instr} {s : State} {d : XReg} {v : Word} {sy : Sync}
    (h : Expected.scalarInt i s.regs = some (d, v, sy)) : HasBody i s sy := by
  obtain ⟨f, he, -⟩ := scalarInt_alu h
  exact ⟨aluBody d f, congrFun he s⟩

theorem HasBody.of_result {γ : Type} {i : Instr} {s : State} {sy sy' : Sync} {q q' : γ} (hi : HasBody i s sy)
    (h : some (q, sy) = some (q', sy')) : HasBody i s sy' := by
  cases h
  exact hi

theorem scalarFp_hasBody {i : Instr} {s : State} {r : Regs} {d : XReg} {sy : Sync}
    (h : (Expected.scalarFp i r).map (fun p => (p.1, p.2.2)) = some (d, sy)) : HasBody i s sy := by
  cases i
  case fadd => exact .of_result ⟨_, rfl⟩ h
  case fsub => exact .of_result ⟨_, rfl⟩ h
  case fmul => exact .of_result ⟨_, rfl⟩ h
  case ffma => exact .of_result ⟨_, rfl⟩ h
  case fdiv => exact .of_result ⟨_, rfl⟩ h
  case fsqrt => exact .of_result ⟨_, rfl⟩ h
  case fmin => exact .of_result ⟨_, rfl⟩ h
  case fmax => exact .of_result ⟨_, rfl⟩ h
  case fcmp => exact .of_result ⟨_, rfl⟩ h
  case fclass => exact .of_result ⟨_, rfl⟩ h
  all_goals cases h

theorem branch_hasBody {i : Instr} {s : State} {r q : Regs} {sy : Sync} (h : Expected.branch i r = some (q, sy)) :
    HasBody i s sy := by
  cases i
  case br => exact .of_result ⟨_, rfl⟩ h
  case j => exact .of_result ⟨_, rfl⟩ h
  case jl => exact .of_result ⟨_, rfl⟩ h
  case jr => exact .of_result ⟨_, rfl⟩ h
  case jlr => exact .of_result ⟨_, rfl⟩ h
  case loop => exact .of_result ⟨_, rfl⟩ h
  case bany => exact .of_result ⟨_, rfl⟩ h
  case ball => exact .of_result ⟨_, rfl⟩ h
  case tagchk => exact .of_result ⟨_, rfl⟩ h
  all_goals cases h

theorem masks_hasBody {i : Instr} {s : State} {lanes : Nat} {r q : Regs} {sy : Sync}
    (h : Expected.masks i lanes r = some (q, sy)) : HasBody i s sy := by
  cases i
  case kmov k sy => cases k <;> exact .of_result ⟨_, rfl⟩ h
  case kand => exact .of_result ⟨_, rfl⟩ h
  case kor => exact .of_result ⟨_, rfl⟩ h
  case kxor => exact .of_result ⟨_, rfl⟩ h
  case knot => exact .of_result ⟨_, rfl⟩ h
  case kpopc => exact .of_result ⟨_, rfl⟩ h
  case kff => exact .of_result ⟨_, rfl⟩ h
  case vext => exact .of_result ⟨_, rfl⟩ h
  case setvl => exact .of_result ⟨_, rfl⟩ h
  case vred => exact .of_result ⟨_, rfl⟩ h
  all_goals cases h

theorem exact_hasBody {i : Instr} {s : State} {lanes : Nat} {r : Regs} {sy : Sync}
    (h : Expected.exact i lanes s.regs = some (r, sy)) : HasBody i s sy := by
  unfold Expected.exact at h
  dsimp only at h
  split at h
  · next d v sy' hi => cases h; exact scalarInt_hasBody hi
  · next d v sy' _ hi => cases h; exact scalarFp_hasBody (congrArg _ hi)
  · next q sy' _ _ hi => cases h; exact branch_hasBody hi
  · next q sy' _ _ _ hi => cases h; exact masks_hasBody hi
  · cases h

/-- A wait field on a slot of a cell below its mark stops the instruction before its body. -/
theorem run_waitField_waits {s : State} {sy : Sync} {n : BitVec 8} (halone : s.Alone) (hn : sy.wait = some n)
    (hlines : (s.ctx s.cur).lines = []) (hcell : (Expected.cellOf s n.toNat).isSome)
    (hsat : Expected.satisfied s n.toNat = false) :
    waitField sy (⟨s, .refl⟩ : At s) =
      .error
        (.wait { kind := .field, watches := [{ s.watchOf n.toNat with seq := s.seq }], all := false, deadline := none })
        (At.upd ⟨s, .refl⟩ .nextSeq) := by
  obtain ⟨-, -, -, -, -, -, hp, hwait⟩ := halone
  have hfield : (s.ctx s.cur).prog.field = false := by rw [hp]; rfl
  have hunsat : (Upd.nextSeq.apply s).satWatch { s.watchOf n.toNat with seq := s.seq } = false :=
    (show _ = s.satWatch (s.watchOf n.toNat) from rfl).trans ((satWatch_watchOf hcell).trans hsat)
  unfold waitField
  simp only [hn]
  rw [run_bind_ok (run_myCtx _)]
  simp only [hfield, hwait, Option.filter_none, Bool.not_false, if_true]
  rw [run_bind_ok (run_me _)]
  rw [run_bind_ok (run_drainStores (σ := (⟨s, .refl⟩ : At s)) hlines)]
  rw [run_bind_ok (run_mySlot_cell (σ := (⟨s, .refl⟩ : At s)) hcell)]
  refine (run_bind_ok (run_st (⟨s, .refl⟩ : At s))).trans ?_
  refine (run_bind_ok (run_mkWatch_slot (σ := (⟨s, .refl⟩ : At s)) [] n.toNat)).trans ?_
  refine (run_bind_ok (run_st _)).trans ?_
  refine (congrFun (if_neg (ne_true_of_eq_false hunsat)) _).trans ?_
  exact run_bind_error (run_stop _ _)

/-- The checks at issue pass when the synchronisation fields name slots of the context. -/
theorem run_frontChecks_legal {sy : Sync} {pre : M s0 Unit} {σ : At s0}
    (hw : ∀ n, sy.wait = some n → n.toNat < (σ.val.ctx σ.val.cur).nslots)
    (hs : ∀ g, sy.sig = some g → g.slot.toNat < (σ.val.ctx σ.val.cur).nslots) : frontChecks sy pre σ = pre σ := by
  unfold frontChecks
  cases hwait : sy.wait with
  | none =>
    cases hsig : sy.sig with
    | none => rfl
    | some g => exact run_bind_ok (run_legalSlot (hs g hsig))
  | some n =>
    refine (run_bind_ok (run_legalSlot (hw n hwait))).trans ?_
    cases hsig : sy.sig with
    | none => rfl
    | some g => exact run_bind_ok (run_legalSlot (hs g hsig))

theorem field_waits {s : State} {sy : Sync} {n : BitVec 8} {body : M s Fin} (halone : s.Alone) (hw : sy.wait = some n)
    (hn : n.toNat < (s.ctx s.cur).nslots) (hlines : (s.ctx s.cur).lines = [])
    (hsig : ∀ g, sy.sig = some g → g.slot.toNat < (s.ctx s.cur).nslots) (hcell : (Expected.cellOf s n.toNat).isSome)
    (hsat : Expected.satisfied s n.toNat = false) :
    ∃ (t : State) (ws : List Watch) (ctxs : TMap Ctx) (cores : TMap Core) (q : Nat),
      strandStep s sy false false (pure ()) body = .next t ∧ t = { s with ctxs := ctxs, cores := cores, seq := q } ∧
      t.ctx s.cur = (s.ctx s.cur).waits { kind := .field, watches := ws, all := false, deadline := none } ∧
      ws.map Watch.unplaced = [s.watchOf n.toNat] := by
  let w : Wait :=
    { kind := .field, watches := [{ s.watchOf n.toNat with seq := s.seq }], all := false, deadline := none }
  let σ : At s := At.upd ⟨s, .refl⟩ .nextSeq
  have hfront : frontChecks sy (pure ()) (⟨s, .refl⟩ : At s) = .ok () ⟨s, .refl⟩ :=
    run_frontChecks_legal (fun m hm => by rw [hw] at hm; cases hm; exact hn) hsig
  have hbefore : beforeBody sy (⟨s, .refl⟩ : At s) = .error (.wait w) σ := by
    unfold beforeBody
    rw [run_bind_ok (run_myCtx _)]
    refine (congrFun (if_neg (ne_true_of_eq_false halone.fresh.replay)) _).trans ?_
    exact run_waitField_waits halone hw hlines hcell hsat
  have hwholly : wholly sy false (pure ()) (fun _ => body) ⟨s, .refl⟩ = .error (.wait w) σ := by
    rw [wholly]
    exact run_bind_error hbefore
  obtain ⟨t, ws, ctxs, cores, q, ht, et, hctx, hws⟩ :=
    strandStepE_waits halone hfront (.inl hwholly) rfl rfl rfl halone.2.2.2.2.2.2.2
  exact ⟨t, ws, ctxs, cores, q, ht, et, hctx, hws⟩

/-- Settles O25: both stop to wait, and what blocks the strand leaves all but its wait. -/
theorem unsatisfiedWaitBlocks : Obligations.UnsatisfiedWaitBlocks := by
  unfold Obligations.UnsatisfiedWaitBlocks
  refine ⟨fun i s d ns all n any sy hi hq hn hlines hns hsat => ?_, fun i s r sy n p hi halone hw hn hlines hsig hc hsat => ?_⟩
  · obtain ⟨slot, a, b, hexec, rfl, hb, rfl⟩ := cwait_cases hi
    obtain ⟨t, ws, ctxs, cores, q, ht, et, hctx, hws⟩ := cwait_waits (d := d) hq hn hlines hb.symm hns hsat
    have hslots : ws.map (·.slot) = cwaitSlots slot a s.regs := by
      have := congrArg (List.map (·.slot)) hws
      simpa [Function.comp_def, Watch.unplaced, State.watchOf] using this
    have hregs : t.regs = s.regs := by
      rw [State.regs, show t.cur = s.cur by rw [et], hctx]
      rfl
    refine ⟨t, { kind := .cwait, watches := ws, all := all, deadline := none }, (congrFun hexec s).trans ht,
      by rw [hregs], by rw [hctx]; rfl, by rw [hctx]; rfl, rfl, rfl, rfl, hslots, by rw [et], by rw [et], by rw [et]⟩
  · obtain ⟨body, hexec⟩ := exact_hasBody hi
    have hcell : (Expected.cellOf s n.toNat).isSome := by rw [hc]; rfl
    obtain ⟨t, ws, ctxs, cores, q, ht, et, hctx, hws⟩ := field_waits (body := body) halone hw hn hlines hsig hcell hsat
    have hslots : ws.map (·.slot) = [n.toNat] :=
      (map_slot_of_unplaced (l := [s.watchOf n.toNat]) (hws.trans rfl)).trans rfl
    have hctrs : ws.map (·.ctr) = [.cell p.1 p.2] :=
      (map_ctr_of_unplaced (l := [s.watchOf n.toNat]) (hws.trans rfl)).trans
        (congrArg (fun c => [c]) (cellCtr_of_cellOf hc))
    refine ⟨t, { kind := .field, watches := ws, all := false, deadline := none }, hexec.trans ht, ?_, by rw [hctx]; rfl,
      by rw [hctx]; rfl, rfl, hslots, hctrs, by rw [et], by rw [et], by rw [et]⟩
    rw [State.regs, show t.cur = s.cur by rw [et], hctx]
    rfl

end Sys2Proof.Machine
end

section
/-! What releases and acquires perform: writes of engines become visible, and far writes reach their home devices (R177, R180,
R188). -/

namespace Sys2Proof.Machine

variable {s0 : State} {α : Type}

/-- The state with another state's far memory and writes on their way there, what engines' writes hide, logical times, dies and
choices. -/
def State.performed (s t : State) : State :=
  { s with
    engOld := t.engOld, farPend := t.farPend, far := t.far, farOld := t.farOld, farSeq := t.farSeq, farFloor := t.farFloor
    farFadds := t.farFadds, farAcq := t.farAcq, times := t.times, joins := t.joins, dies := t.dies, oracle := t.oracle }

/-- Between two states far memory is written, engines' writes become visible, logical times pass and choices are taken; of the dies
no queue changes. -/
structure State.Performs (s t : State) : Prop where
  frame : t = s.performed t
  queues : ∀ d, (t.die d).queues = (s.die d).queues

/-- The same, where far memory is written with what was on its way there alone. -/
structure State.Carries (s t : State) : Prop extends s.Performs t where
  far : s.farPend = [] → t.farPend = [] ∧ t.far = s.far

theorem performs_chains : Chains State.Performs where
  refl _ := ⟨rfl, fun _ => rfl⟩
  trans {s t u} h h' := ⟨by rw [h'.frame, h.frame]; rfl, fun d => (h'.queues d).trans (h.queues d)⟩

theorem carries_chains : Chains State.Carries where
  refl s := ⟨performs_chains.refl s, fun h => ⟨h, rfl⟩⟩
  trans {s t u} h h' := by
    refine ⟨performs_chains.trans h.toPerforms h'.toPerforms, fun hp => ?_⟩
    obtain ⟨hp', hfar⟩ := h.far hp
    obtain ⟨hp'', hfar'⟩ := h'.far hp'
    exact ⟨hp'', hfar'.trans hfar⟩

theorem State.Performs.ctx {s t : State} (h : s.Performs t) (a : Nat) : t.ctx a = s.ctx a := by
  rw [h.frame]
  rfl

theorem Expected.Timed.carries {s t : State} (h : Expected.Timed s t) : s.Carries t where
  frame := by rw [h]; rfl
  queues d := by rw [h]; rfl
  far hp := by rw [h]; exact ⟨hp, rfl⟩

/-! ### Sums that a device combines in an order of its own (R132) -/

/-- Between two states choices are taken, and atomic flags raised. -/
structure State.Combines (s t : State) : Prop where
  frame : t = { s with dies := t.dies, oracle := t.oracle }
  queues : ∀ d, (t.die d).queues = (s.die d).queues

theorem combines_chains : Chains State.Combines where
  refl _ := ⟨rfl, fun _ => rfl⟩
  trans {s t u} h h' := ⟨by rw [h'.frame, h.frame], fun d => (h'.queues d).trans (h.queues d)⟩

theorem State.Combines.performs {s t : State} (h : s.Combines t) : s.Performs t where
  frame := by rw [h.frame]; rfl
  queues := h.queues

theorem goes_choose_combines (n : Nat) : Goes (s0 := s0) State.Combines (choose n) :=
  fun σ => ⟨_, σ.upd .choose, rfl, rfl, fun _ => rfl⟩

theorem goes_raiseAtomic (die : Nat) (asid : BitVec 16) (fl : Flags) :
    Goes (s0 := s0) State.Combines (raiseAtomic die asid fl) := by
  unfold raiseAtomic
  by_cases h : (fl != 0) = true
  · rw [if_pos h]
    refine fun σ => ⟨_, σ.upd (.die die _), rfl, ⟨rfl, fun d => ?_⟩⟩
    rw [At.upd_val, die_of_upd]
    split
    · next hd => rw [hd]
    · rfl
  · rw [if_neg h]
    exact .pure combines_chains _

theorem goes_faddPair (a b : Option FaddOp × BitVec 32) : Goes (s0 := s0) State.Combines (faddPair a b) := by
  unfold faddPair
  cases h : a.1.orElse fun _ => b.1 with
  | none => exact .pure combines_chains _
  | some o => exact .bind combines_chains (goes_raiseAtomic _ _ _) fun _ => .pure combines_chains _

theorem goes_faddTree (n : Nat) : ∀ l, Goes (s0 := s0) State.Combines (faddTree n l) := by
  induction n with
  | zero => exact fun l => .pure combines_chains _
  | succ n ih =>
    intro l
    unfold faddTree
    by_cases h : l.length ≤ 1
    · rw [if_pos h]
      exact .pure combines_chains _
    · rw [if_neg h]
      exact .bind combines_chains (goes_choose_combines _) fun i => .bind combines_chains (goes_choose_combines _) fun j =>
        .bind combines_chains (goes_faddPair _ _) fun b => ih _

/-! ### Far writes at their homes -/

/-- An update of what `performed` takes over, but for dies. -/
theorem goes_upd_performs {u : Upd} (h : ∀ s : State, u.apply s = s.performed (u.apply s))
    (hd : ∀ s : State, (u.apply s).dies = s.dies) : Goes (s0 := s0) State.Performs (upd u) :=
  .upd fun s => ⟨h s, fun d => by rw [State.die, hd]; rfl⟩

theorem goes_writeFarRaw (agents : List Nat) (key : Nat) (bs : List Byte) :
    Goes (s0 := s0) State.Performs (writeFarRaw agents key bs) := by
  unfold writeFarRaw
  exact .bind performs_chains (.st performs_chains) fun s =>
    .bind performs_chains (goes_upd_performs (fun _ => rfl) fun _ => rfl) fun _ =>
      .bind performs_chains
        (.forIn performs_chains _ fun x _ =>
          .bind performs_chains (goes_upd_performs (fun _ => rfl) fun _ => rfl) fun _ => .go performs_chains)
        fun _ => .bind performs_chains (.st performs_chains) fun s => goes_upd_performs (fun _ => rfl) fun _ => rfl

theorem goes_settleFar (key n : Nat) : Goes (s0 := s0) State.Performs (settleFar key n) := by
  unfold settleFar
  refine .bind performs_chains (.st performs_chains) fun s => .bind performs_chains
    (.forIn performs_chains _ fun (w, l) _ => ?_) fun _ => .pure performs_chains _
  dsimp only
  split
  · exact .bind performs_chains (.st performs_chains) fun t =>
      .bind performs_chains (goes_upd_performs (fun _ => rfl) fun _ => rfl) fun _ =>
        .bind performs_chains ((goes_faddTree _ _).mono fun _ _ h => h.performs) fun sum =>
          .bind performs_chains (goes_writeFarRaw _ _ _) fun _ => .go performs_chains
  · exact .go performs_chains

theorem goes_writeFarHome (agent key : Nat) (bs : List Byte) :
    Goes (s0 := s0) State.Performs (writeFarHome agent key bs) := by
  unfold writeFarHome
  exact .bind performs_chains (goes_settleFar _ _) fun _ => goes_writeFarRaw _ _ _

/-- Far writes of engines that are on their way are performed; where none is, none is written. -/
theorem goes_drainEngineFar (f : EngFar → Bool) : Goes (s0 := s0) State.Carries (drainEngineFar f) := by
  unfold drainEngineFar
  refine .readSt fun σ => ?_
  by_cases h : σ.val.farPend.any f = true
  · have hall : Goes (s0 := s0) State.Performs (do
        upd (.farPend (σ.val.farPend.filter fun p => !f p))
        for p in σ.val.farPend.filter f do
          writeFarHome (2 ^ 39) p.w.key (natBytes p.w.size p.w.data.toNat)) :=
      .bind performs_chains (goes_upd_performs (fun _ => rfl) fun _ => rfl) fun _ =>
        .bind performs_chains
          (.forIn performs_chains _ fun p _ =>
            .bind performs_chains (goes_writeFarHome _ _ _) fun _ => .go performs_chains)
          fun _ => .pure performs_chains _
    obtain ⟨x, τ, hτ, hr⟩ := hall σ
    exact ⟨x, τ, (congrFun (if_pos h) σ).trans hτ, hr, fun hp => by rw [hp] at h; cases h⟩
  · exact ⟨_, σ, congrFun (if_neg h) σ, carries_chains.refl _⟩

theorem goes_showEngines (f : EngW → Bool) : Goes (s0 := s0) State.Carries (showEngines f) := by
  unfold showEngines
  refine .readSt fun σ => ?_
  by_cases h : (σ.val.engOld.any fun p => p.2.any f) = true
  · exact ⟨_, σ.upd (.engOld _), congrFun (if_pos h) σ, ⟨rfl, fun _ => rfl⟩, fun hp => ⟨hp, rfl⟩⟩
  · exact ⟨_, σ, congrFun (if_neg h) σ, carries_chains.refl _⟩

/-! ### Releases and acquires of a strand without far writes of its own -/

/-- What a release of a context without far writes of its own leaves: every context is as it was, though it may be listed
anew. -/
structure State.Releases (a : Nat) (s t : State) : Prop where
  frame : t = { s.performed t with ctxs := t.ctxs }
  queues : ∀ d, (t.die d).queues = (s.die d).queues
  far : s.farPend = [] → t.farPend = [] ∧ t.far = s.far
  ctxs : t.ctxs = s.ctxs ∨ t.ctxs = TMap.put s.ctxs a (s.ctx a)

theorem State.Releases.ctx {a : Nat} {s t : State} (h : s.Releases a t) (b : Nat) : t.ctx b = s.ctx b := by
  rcases h.ctxs with e | e
  · rw [State.ctx, e]
    rfl
  · refine (show t.ctx b = ((Upd.ctx a (s.ctx a)).apply s).ctx b by rw [State.ctx, e]; rfl).trans ?_
    rw [ctx_of_upd]
    split
    · next hb => rw [hb]
    · rfl

theorem releases_chains (a : Nat) : Chains (State.Releases a) where
  refl s := ⟨rfl, fun _ => rfl, fun h => ⟨h, rfl⟩, .inl rfl⟩
  trans {s t u} h h' := by
    refine ⟨by rw [h'.frame, h.frame]; rfl, fun d => (h'.queues d).trans (h.queues d), fun hp => ?_, ?_⟩
    · obtain ⟨hp', hfar⟩ := h.far hp
      obtain ⟨hp'', hfar'⟩ := h'.far hp'
      exact ⟨hp'', hfar'.trans hfar⟩
    · have ha := h.ctx a
      rcases h.ctxs with e | e <;> rcases h'.ctxs with e' | e' <;> rw [e', e]
      · exact .inl rfl
      · exact .inr (by rw [ha])
      · exact .inr rfl
      · exact .inr (by rw [ha, TMap.put_put])

theorem State.Carries.releases {s t : State} (h : s.Carries t) (a : Nat) : s.Releases a t := by
  have hctxs : t.ctxs = s.ctxs := by rw [h.frame]; rfl
  refine ⟨?_, h.queues, h.far, .inl hctxs⟩
  calc t = s.performed t := h.frame
    _ = { s.performed t with ctxs := t.ctxs } := by rw [hctxs]; rfl

/-- What holds of a context that has no far writes of its own. -/
def State.ReleasesIdle (a : Nat) (s t : State) : Prop := (s.ctx a).farw = [] → s.Releases a t

theorem releasesIdle_chains (a : Nat) : Chains (State.ReleasesIdle a) where
  refl s _ := (releases_chains a).refl s
  trans h h' hs := by
    have hr := h hs
    exact (releases_chains a).trans hr (h' (by rw [hr.ctx]; exact hs))

/-- A context's far writes are always performed to their end. -/
theorem goes_drainFar (a : Nat) : Goes (s0 := s0) (fun _ _ => True) (drainFar a) := by
  have hc : Chains fun _ _ : State => True := ⟨fun _ => trivial, fun _ _ => trivial⟩
  unfold drainFar
  exact .bind hc (.st hc) fun s => .bind hc
    (.forIn hc _ fun w _ => .bind hc ((goes_writeFarHome _ _ _).mono fun _ _ _ => trivial) fun _ => .go hc)
    fun _ σ => ⟨_, _, run_modCtx _ _ σ, trivial⟩

theorem goes_drainFar_idle (a : Nat) : Goes (s0 := s0) (State.ReleasesIdle a) (drainFar a) := by
  intro σ
  by_cases h : (σ.val.ctx a).farw = []
  · have hsame : { σ.val.ctx a with farw := [] } = σ.val.ctx a := by rw [← h]
    exact ⟨_, _, run_drainFar h, fun _ => ⟨rfl, fun _ => rfl, fun hp => ⟨hp, rfl⟩, .inr (by rw [hsame]; rfl)⟩⟩
  · obtain ⟨x, τ, hτ, -⟩ := goes_drainFar a σ
    exact ⟨x, τ, hτ, fun h' => absurd h' h⟩

theorem State.Carries.releasesIdle {s t : State} (h : s.Carries t) (a : Nat) : s.ReleasesIdle a t := fun _ => h.releases a

/-- A release carries nothing of a strand's own far writes where it has none. -/
theorem goes_pushScopeOf (a : Nat) (sc : Scope) : Goes (s0 := s0) (State.ReleasesIdle a) (pushScopeOf a sc) := by
  have hc := releasesIdle_chains a
  unfold pushScopeOf
  refine .bind hc (.st hc) fun s => ?_
  have hshow : Goes (s0 := s0) (State.ReleasesIdle a) (showEngines fun e => s.joined a e.op e.num) :=
    (goes_showEngines _).mono fun _ _ h => h.releasesIdle a
  have hdrain : Goes (s0 := s0) (State.ReleasesIdle a) (do
      drainFar a
      drainEngineFar fun p => s.joined a p.op p.num) :=
    .bind hc (goes_drainFar_idle a) fun _ => (goes_drainEngineFar _).mono fun _ _ h => h.releasesIdle a
  split <;> split
  · exact .bind hc hshow fun _ => hdrain
  · exact hdrain
  · exact .bind hc hshow fun _ => .pure hc _
  · exact .pure hc _

/-- A release of the strand with no store under way and no far write of its own. -/
theorem run_release {σ : At s0} (sc : Scope) (hlines : (σ.val.ctx σ.val.cur).lines = [])
    (hfar : (σ.val.ctx σ.val.cur).farw = []) :
    ∃ τ, release sc σ = .ok () τ ∧ σ.val.Releases σ.val.cur τ.val := by
  obtain ⟨_, τ, hτ, h⟩ := goes_pushScopeOf σ.val.cur sc σ
  refine ⟨τ, ?_, h hfar⟩
  unfold release
  rw [run_bind_ok (run_st σ), run_bind_ok (run_drainStores hlines), run_bind_ok (run_myCtx σ), hlines]
  exact hτ

/-- An acquire leaves contexts, queues and memory. -/
theorem goes_acquire (sc : Scope) : Goes (s0 := s0) State.Carries (acquire sc) := by
  have hc := carries_chains
  unfold acquire
  refine .bind hc (fun σ => ⟨_, σ, run_me σ, hc.refl _⟩) fun a => ?_
  split
  · refine .bind hc ?_ fun _ => (goes_startTime a).mono fun _ _ h => h.carries
    unfold acquireFar
    exact .bind hc (.st hc) fun s => .upd fun s => ⟨⟨rfl, fun _ => rfl⟩, fun hp => ⟨hp, rfl⟩⟩
  · exact .pure hc _

end Sys2Proof.Machine
end

section
/-! Adds to cells that nothing waits on (R175, R178, R195, R203). -/

namespace Sys2Proof.Machine

variable {s0 : State}

/-- Nothing is woken where nothing waits. -/
theorem wakeable_of_unwatched {s : State} {c : Ctr} (h : Expected.Unwatched s c) : s.wakeable c = [] := by
  obtain ⟨hctxs, hthreads⟩ := h
  have hcands : s.ctxs.filterMap (fun p =>
      match p.2.wait with
      | some w =>
        match w.watches.find? fun x => x.ctr == c && x.listed && s.satWatch x with
        | some x => if s.satWait w then some (x.mark.toNat, x.seq, Waiter.ctx p.1) else none
        | none => none
      | none => none) = [] := by
    refine List.filterMap_eq_nil_iff.2 fun p hp => ?_
    cases hw : p.2.wait with
    | none => rfl
    | some w =>
      have hfind : (w.watches.find? fun x => x.ctr == c && x.listed && s.satWatch x) = none :=
        List.find?_eq_none.2 fun y hy => by simp [hctxs p hp w hw y hy]
      simp only [hfind]
  have hpackets : s.threads.filterMap (fun p =>
      match p.2.st with
      | .waits _ w _ .open_ =>
        if w.ctr == c && w.listed && s.satWatch w then some (w.mark.toNat, w.seq, Waiter.thread p.1) else none
      | _ => none) = [] := by
    refine List.filterMap_eq_nil_iff.2 fun p hp => ?_
    split
    · next f w d hst => simp [hthreads p hp f w d _ hst]
    · rfl
  unfold State.wakeable
  exact congrArg (fun l => (l.foldl (fun l k => insertWaiter k l) []).map (·.2.2))
    ((congrArg₂ (· ++ ·) hcands hpackets).trans (List.append_nil []))

theorem run_wakeWaiters_unwatched {σ : At s0} {c : Ctr} (h : Expected.Unwatched σ.val c) :
    wakeWaiters c σ = .ok () σ := by
  unfold wakeWaiters
  rw [run_bind_ok (run_st σ), wakeable_of_unwatched h]
  rfl

theorem satAdd_of_fits {v : Word} {n : Nat} (h : v.toNat + n < 2 ^ 64) : satAdd v n = (v + BitVec.ofNat 64 n, false) := by
  unfold satAdd
  rw [if_neg (by omega)]
  rfl

/-- The state with the counter of a cell grown. -/
def State.grown (s : State) (k x n : Nat) : State :=
  { s with cells := TMap.put s.cells (256 * k + x) { s.cell k x with v := (s.cell k x).v + BitVec.ofNat 64 n } }

/-- An add to a cell that nothing waits on, of its present generation and without overflow, makes it grow. -/
theorem run_addRaw_cell {σ : At s0} {k x n : Nat} {gen : Option (BitVec 16)} (who : Option Nat)
    (hgen : ∀ g, gen = some g → g = (σ.val.cell k x).g) (hpos : 0 < n) (hfit : (σ.val.cell k x).v.toNat + n < 2 ^ 64)
    (hun : Expected.Unwatched σ.val (.cell k x)) :
    ∃ r τ, addRaw (.cell k x) n gen who σ = .ok r τ ∧ Expected.Timed (σ.val.grown k x n) τ.val ∧ r.stale = false ∧
      r.overflow = false := by
  let v := (σ.val.cell k x).v
  let ρ := σ.upd (.times { σ.val.times.reach who (σ.val.times.write who
    (TMap.get (0, 0) σ.val.times.ctr (Ctr.cell k x).num)) with
      ctr := TMap.put σ.val.times.ctr (Ctr.cell k x).num
        (σ.val.times.write who (TMap.get (0, 0) σ.val.times.ctr (Ctr.cell k x).num),
          σ.val.times.write who (TMap.get (0, 0) σ.val.times.ctr (Ctr.cell k x).num)) })
  let τ := ρ.upd (.cell (256 * k + x) { ρ.val.cell k x with v := v + BitVec.ofNat 64 n })
  have hchanged : (v + BitVec.ofNat 64 n != v) = true := by
    refine bne_iff_ne.2 fun h => ?_
    have := congrArg BitVec.toNat h
    rw [BitVec.toNat_add, BitVec.toNat_ofNat] at this
    omega
  have hwake : wakeWaiters (.cell k x) τ = .ok () τ := run_wakeWaiters_unwatched hun
  have hrest : (do
      stampCtr who (.cell k x)
      if v + BitVec.ofNat 64 n != v then
        setCtrV (.cell k x) (v + BitVec.ofNat 64 n)
      wakeWaiters (.cell k x)
      return { old := v, gen := (σ.val.cell k x).g, overflow := false, stale := false } : M s0 Added) σ =
      .ok { old := v, gen := (σ.val.cell k x).g, overflow := false, stale := false } τ := by
    rw [hchanged]
    exact (run_bind_ok (show stampCtr who (.cell k x) σ = .ok () ρ from rfl)).trans
      ((run_bind_ok (show setCtrV (.cell k x) (v + BitVec.ofNat 64 n) ρ = .ok () τ from rfl)).trans (run_bind_ok hwake))
  refine ⟨{ old := v, gen := (σ.val.cell k x).g, overflow := false, stale := false }, τ, ?_, rfl, rfl, rfl⟩
  unfold addRaw
  rw [run_bind_ok (run_st σ), show σ.val.ctrV (.cell k x) = v from rfl, satAdd_of_fits hfit]
  cases gen with
  | none => exact hrest
  | some g =>
    rw [hgen g rfl, show σ.val.ctrG (.cell k x) = (σ.val.cell k x).g from rfl]
    simp only [bne_self_eq_false, Bool.false_eq_true, if_false]
    exact hrest

/-- An add to a cell that nothing waits on, of its present generation and without overflow, makes it grow. -/
theorem run_addAt_cell {σ : At s0} {k x n : Nat} {gen : Option (BitVec 16)} (ref : Word) (w : Adder)
    (hgen : ∀ g, gen = some g → g = (σ.val.cell k x).g) (hpos : 0 < n) (hfit : (σ.val.cell k x).v.toNat + n < 2 ^ 64)
    (hun : Expected.Unwatched σ.val (.cell k x)) :
    ∃ r τ, addAt (.cell k x) n gen ref w σ = .ok r τ ∧ Expected.Timed (σ.val.grown k x n) τ.val := by
  obtain ⟨r, ρ, hρ, hgrown, hstale, hover⟩ := run_addRaw_cell (w.ctx.filter fun a => a == w.agent) hgen hpos hfit hun
  have hcarry : Goes (s0 := s0) Expected.Timed (carryBy w (.cell k x)) := by
    unfold carryBy carry
    split <;> exact .bind timed_chains (.st timed_chains) fun s => goes_addJoins _ _
  obtain ⟨_, τ, hτ, ht⟩ := hcarry ρ
  refine ⟨r, τ, ?_, timed_chains.trans hgrown ht⟩
  have hrest : (do
      let r ← addRaw (.cell k x) n gen (w.ctx.filter fun a => a == w.agent)
      carryBy w (.cell k x)
      if r.stale then reportStale (.cell k x) ref (gen.getD 0) w
      if r.overflow && !w.silent then reportOverflow (.cell k x) ref n w.agent
      return r : M s0 Added) σ = .ok r τ := by
    rw [run_bind_ok hρ, run_bind_ok hτ, hstale, hover]
    rfl
  unfold addAt
  rw [run_bind_ok (run_st σ)]
  cases w.gang.bind fun k => (TMap.find σ.val.launches k).map fun l => (k, l) <;> exact hrest

theorem run_logAdd_cell {σ : At s0} {k x n : Nat} {gen : BitVec 16} {ref : Word} (q : Req) (agent : Nat)
    (hl : isLocalRef ref = true) (hr : σ.val.localRef ref = some (k, x)) (hgen : gen = (σ.val.cell k x).g) (hpos : 0 < n)
    (hfit : (σ.val.cell k x).v.toNat + n < 2 ^ 64) (hun : Expected.Unwatched σ.val (.cell k x)) :
    ∃ τ, logAdd q ref n (some gen) agent σ = .ok () τ ∧ Expected.Timed (σ.val.grown k x n) τ.val := by
  obtain ⟨r, τ, hτ, hadd⟩ := run_addAt_cell ref (Adder.party agent) (gen := some gen)
    (fun g hg => by cases hg; exact hgen) hpos hfit hun
  refine ⟨τ, ?_, hadd⟩
  unfold logAdd
  rw [run_bind_ok (run_resolveRef_cell hl hr)]
  exact run_bind_ok hτ

end Sys2Proof.Machine
end

section
/-! EXIT and FINISH (R76, R80, R173, R324, R413, R422). -/

namespace Sys2Proof.Machine

variable {s0 : State}

/-- Between two states contexts are woken and set running, and what a release carries is performed; nothing else happens. -/
structure State.Unwinds (s t : State) : Prop where
  frame : t = { s.performed t with ctxs := t.ctxs, cores := t.cores }
  far : s.farPend = [] → t.far = s.far ∧ t.farPend = []
  ctx : ∀ b, ∃ ph w ans,
    t.ctx b = { s.ctx b with phase := ph, wait := w, prog := { (s.ctx b).prog with ans := ans } }
  trace : ∀ n, (t.core n).trace = (s.core n).trace
  waits : ∀ p ∈ t.ctxs, ∀ w, p.2.wait = some w → ∃ q ∈ s.ctxs, q.2.wait = some w

theorem State.Unwinds.trans {s t u : State} (h : s.Unwinds t) (h' : t.Unwinds u) : s.Unwinds u where
  frame := by rw [h'.frame, h.frame]; rfl
  far hp := by
    obtain ⟨hfar, hp'⟩ := h.far hp
    obtain ⟨hfar', hp''⟩ := h'.far hp'
    exact ⟨hfar'.trans hfar, hp''⟩
  ctx b := by
    obtain ⟨ph, w, ans, e⟩ := h.ctx b
    obtain ⟨ph', w', ans', e'⟩ := h'.ctx b
    exact ⟨ph', w', ans', by rw [e', e]⟩
  trace n := (h'.trace n).trans (h.trace n)
  waits p hp w hw := by
    obtain ⟨q, hq, hw'⟩ := h'.waits p hp w hw
    exact h.waits q hq w hw'

theorem State.Stirs.unwinds {s t : State} (h : s.Stirs t) : s.Unwinds t where
  frame := by rw [h.frame]; rfl
  far hp := by rw [h.frame]; exact ⟨rfl, hp⟩
  ctx b := by
    obtain ⟨ph, w, ans, e, -⟩ := h.ctx b
    exact ⟨ph, w, ans, e⟩
  trace := h.trace
  waits := h.waits

theorem State.Releases.unwinds {s t : State} {a : Nat} (h : s.Releases a t) : s.Unwinds t where
  frame := by rw [h.frame]; rfl
  far hp := (h.far hp).symm
  ctx b := ⟨_, _, _, h.ctx b⟩
  trace n := by rw [h.frame]; rfl
  waits p hp w hw := by
    rcases h.ctxs with e | e <;> rw [e] at hp
    · exact ⟨p, hp, hw⟩
    · rcases TMap.mem_put hp with rfl | hp
      · exact ctx_wait_mem hw
      · exact ⟨p, hp, hw⟩

theorem stirs_wakeLines (ls : List Lease) : Goes (s0 := s0) State.Stirs (do
    for l in ls do
      if l.live then wakeLine l.line) := by
  refine .bind stirs_chains (.forIn stirs_chains _ fun l _ => ?_) fun _ => .pure stirs_chains _
  split
  · exact .bind stirs_chains (goes_wakeLine _) fun _ => .go stirs_chains
  · exact .go stirs_chains

/-- The state in which the strand's leases have ended. -/
def State.unleased (s : State) : State := (Upd.ctx s.cur { s.ctx s.cur with leases := [] }).apply s

theorem run_endLeases {σ : At s0} (hlines : (σ.val.ctx σ.val.cur).lines = []) :
    ∃ τ, endLeases σ.val.cur false σ = .ok () τ ∧ σ.val.unleased.Stirs τ.val := by
  obtain ⟨_, τ, hτ, h⟩ := stirs_wakeLines (σ.val.ctx σ.val.cur).leases
    (σ.upd (.ctx σ.val.cur { σ.val.ctx σ.val.cur with leases := [] }))
  refine ⟨τ, ?_, h⟩
  unfold endLeases
  rw [run_bind_ok (run_settleHolder hlines), run_bind_ok (run_st σ)]
  exact (run_bind_ok (run_modCtx _ _ _)).trans hτ

theorem unleased_ctx (s : State) : s.unleased.ctx s.cur = { s.ctx s.cur with leases := [] } := ctx_upd_same _ _ _

theorem unleased_ctx_ne (s : State) {b : Nat} (hb : b ≠ s.cur) : s.unleased.ctx b = s.ctx b := ctx_upd_ne _ _ hb

/-- The strand in the midst of its end: its leases have ended, and what its release carries is performed. -/
def State.Ending (s t : State) : Prop := s.unleased.Unwinds t

theorem State.Ending.cur {s t : State} (h : s.Ending t) : t.cur = s.cur := by
  rw [h.frame]
  rfl

theorem State.Ending.self {s t : State} (h : s.Ending t) :
    ∃ ph w ans, t.ctx s.cur =
      { s.ctx s.cur with leases := [], phase := ph, wait := w, prog := { (s.ctx s.cur).prog with ans := ans } } := by
  obtain ⟨ph, w, ans, e⟩ := h.ctx s.cur
  rw [unleased_ctx] at e
  exact ⟨ph, w, ans, e⟩

theorem State.Ending.unwatched {s t : State} {c : Ctr} (h : s.Ending t) (hc : Expected.Unwatched s c) :
    Expected.Unwatched t c := by
  refine ⟨fun p hp w hw y hy => ?_, by rw [h.frame]; exact hc.2⟩
  obtain ⟨q, hq, hw'⟩ := h.waits p hp w hw
  rcases TMap.mem_put hq with rfl | hq
  · obtain ⟨q', hq', hw''⟩ := ctx_wait_mem (s := s) (a := s.cur) hw'
    exact hc.1 q' hq' w hw'' y hy
  · exact hc.1 q hq w hw' y hy

/-- An add meanwhile is an add before. -/
theorem State.Ending.add {s t u : State} {k x n : Nat} (h : s.Ending t) (hadd : Expected.Timed (t.grown k x n) u) :
    (s.grown k x n).Ending u where
  frame := by
    rw [hadd, h.frame]
    rfl
  far hp := by rw [hadd]; exact h.far hp
  ctx b := by rw [hadd]; exact h.ctx b
  trace m := by rw [hadd]; exact h.trace m
  waits p hp w hw := by rw [hadd] at hp; exact h.waits p hp w hw

/-- What EXIT and FINISH do first. -/
theorem run_endingBody {sy : Sync} {s : State} (hs : sy.sig = none) (hlines : (s.ctx s.cur).lines = [])
    (hfar : (s.ctx s.cur).farw = []) :
    ∃ τ, endingBody sy (⟨s, .refl⟩ : At s) = .ok () τ ∧ s.Ending τ.val := by
  obtain ⟨ρ, hρ, hstir⟩ := run_endLeases (σ := (⟨s, .refl⟩ : At s)) hlines
  have hend : s.Ending ρ.val := hstir.unwinds
  obtain ⟨ph, w, ans, hself⟩ := hend.self
  obtain ⟨τ, hτ, hrel⟩ := run_release (σ := ρ) sy.scope (by rw [hend.cur, hself]; exact hlines)
    (by rw [hend.cur, hself]; exact hfar)
  refine ⟨τ, ?_, State.Unwinds.trans hend hrel.unwinds⟩
  unfold endingBody
  rw [run_bind_ok (run_st _), run_bind_ok (run_drainStores hlines), run_bind_ok (run_myCtx _)]
  simp only [hlines]
  exact (run_bind_ok hρ).trans ((run_bind_ok hτ).trans (run_signalAtEnd_none hs τ))

/-- What the spec says of a strand that has ended. -/
structure State.Ended (sy : Sync) (r : Regs) (s t : State) : Prop where
  keeps : Expected.Keeps s t
  mem : t.mem = s.mem
  regs : t.regs = { r with pc := nextPc r.pc sy }
  phase : (t.ctx s.cur).phase = .draining
  leases : (t.ctx s.cur).leases = []

/-- The end of a strand that holds no pending error and belongs to no gang. -/
theorem run_endStrand {σ : At s0} {a : Nat} (hlease : (σ.val.ctx a).prog.lease = none) (hpend : (σ.val.ctx a).pend = [])
    (hgang : (σ.val.ctx a).gang = none) (ht : (σ.val.core (coreOf a)).trace = .none) :
    ∃ τ ctxs cores, endStrand a σ = .ok () τ ∧ τ.val = { σ.val with ctxs := ctxs, cores := cores } ∧
      τ.val.ctx a = { σ.val.ctx a with phase := .draining, wait := none, prog := Progress.none } ∧
      ∀ b, b ≠ a → τ.val.ctx b = σ.val.ctx b ∨ τ.val.ctx b = { σ.val.ctx b with phase := .running } := by
  let x := σ.val.ctx a
  let ρ := σ.upd (.ctx a { x with pend := [] })
  have hρ : ρ.val.ctx a = { x with pend := [] } := ctx_upd_same _ _ _
  let π := ρ.upd (.ctx a { ρ.val.ctx a with prog := Progress.none, wait := none, gang := none })
  have hx : { x with pend := [], gang := none } = x := by
    rw [← hpend, ← hgang]
  have hπ : π.val.ctx a = { x with prog := Progress.none, wait := none } := by
    refine (ctx_upd_same _ _ _).trans ?_
    rw [hρ, ← hx]
  have hne (b : Nat) (hb : b ≠ a) : π.val.ctx b = σ.val.ctx b := (ctx_upd_ne _ _ hb).trans (ctx_upd_ne _ _ hb)
  have hrecord : recordPending a σ = .ok () ρ := by
    unfold recordPending
    rw [run_bind_ok (run_st σ), hpend]
    exact run_bind_ok (run_pure PUnit.unit σ)
  obtain ⟨τ, ctxs, cores, hτ, eτ, hself, hother⟩ := run_switchOut_stop a (p := .draining) Phase.noConfusion π ht
  refine ⟨τ, ctxs, cores, ?_, eτ, by rw [hself, hπ], fun b hb => by rw [← hne b hb]; exact hother b hb⟩
  unfold endStrand
  rw [run_bind_ok (run_leaveQueue hlease), run_bind_ok hrecord, run_bind_ok (run_st ρ)]
  have hnone : (ρ.val.ctx a).gang = none := by rw [hρ]; exact hgang
  simp only [hnone]
  refine (run_bind_ok (run_modCtx _ _ ρ)).trans ?_
  exact (run_bind_ok hτ).trans rfl

/-- An instruction that ends its strand completes, and then the strand ends. -/
theorem run_complete_ended {sy : Sync} {old : Before} {σ τ : At s0} (hf : σ.val.fwd = none)
    (hb : σ.val.isFollower (coreOf σ.val.cur) = false) (hlease : (σ.val.ctx σ.val.cur).prog.lease = none)
    (hh : (σ.val.ctx σ.val.cur).prog.handed = false)
    (h : forward σ.val.regs.pc (nextPc σ.val.regs.pc sy) σ = .ok () τ) :
    complete sy true old .ended σ =
      endStrand σ.val.cur (τ.retireAs { τ.val.regs with pc := nextPc σ.val.regs.pc sy } false) := by
  simp only [State.regs] at h
  simp [complete, run_bind, run_leaveQueue hlease, hh, run_nextOf sy hf, hb, hf, Fin.target, Fin.straight, State.regs, h,
    At.retireAs]

/-- What no instruction of a strand changes, of a state that differs in contexts, cores, memory and what releases carry at most. -/
theorem keeps_of_frame {s t : State}
    (h : t = { s.performed t with
      ctxs := t.ctxs, cores := t.cores, mem := t.mem, bad := t.bad, fadds := t.fadds, seq := t.seq })
    (hfar : Expected.NothingFar s → t.far = s.far) (hregs : ∀ a, a ≠ s.cur → (t.ctx a).r = (s.ctx a).r) :
    Expected.Keeps s t := by
  refine ⟨?_, ?_, ?_, ?_, ?_, ?_, hfar, ?_, ?_, ?_, ?_, ?_, ?_, ?_, ?_, ?_, hregs⟩ <;> rw [h] <;> rfl

theorem State.Ending.regs_ne {s t : State} (h : s.Ending t) {b : Nat} (hb : b ≠ s.cur) : (t.ctx b).r = (s.ctx b).r := by
  obtain ⟨ph, w, ans, e⟩ := h.ctx b
  rw [e, unleased_ctx_ne s hb]

/-- The step of a strand whose body has ended it. -/
theorem strandStep_ended {s b : State} {sy : Sync} {pre : M s Unit} {body : M s Fin} {σ : At s} (hq : s.Quiet sy)
    (hset : Expected.Settled s) (hpend : (s.ctx s.cur).pend = []) (hb : b = { s with cells := b.cells })
    (hpre : pre ⟨s, .refl⟩ = .ok () ⟨s, .refl⟩) (hbody : body ⟨s, .refl⟩ = .ok .ended σ) (hend : b.Ending σ.val) :
    ∃ t : State, strandStep s sy false true pre body = .next t ∧ b.Ended sy s.regs t := by
  obtain ⟨hw, hs, hf, ht, -, -, -, -, hp, -⟩ := id hq
  have hbcur : b.cur = s.cur := by rw [hb]
  have hbctx (a : Nat) : b.ctx a = s.ctx a := by rw [hb]; rfl
  obtain ⟨ph, w, ans, hself⟩ := hend.self
  have hcur : σ.val.cur = s.cur := hend.cur.trans hbcur
  rw [hbctx, hbcur] at hself
  have htrace : (σ.val.core (coreOf s.cur)).trace = .none := by
    rw [hend.trace, hb]
    exact ht
  have hfwd : σ.val.fwd = none := by
    rw [hend.frame, hb]
    exact hf
  have hregs : σ.val.regs = s.regs := by
    rw [State.regs, hcur, hself]
    rfl
  obtain ⟨π, cores, hπ, eπ, hkept, -⟩ := run_forward σ.val.regs.pc (nextPc σ.val.regs.pc sy) σ
  have hπctx (a : Nat) : π.val.ctx a = σ.val.ctx a := by rw [eπ]; rfl
  have hπcur : π.val.cur = s.cur := by rw [eπ]; exact hcur
  let ρ := π.retireAs { π.val.regs with pc := nextPc σ.val.regs.pc sy } false
  have hρ : ρ.val.ctx s.cur =
      { σ.val.ctx s.cur with
        r := { s.regs with pc := nextPc s.regs.pc sy }, prog := Progress.none, straight := false } := by
    have hπregs : π.val.regs = s.regs := by rw [State.regs, hπcur, hπctx, ← hcur]; exact hregs
    rw [At.retireAs_val, State.retireAs, hπcur, ctx_upd_same, hπctx, hπregs, hregs]
  have hρne (a : Nat) (ha : a ≠ s.cur) : ρ.val.ctx a = σ.val.ctx a :=
    (ctx_upd_ne _ _ (by rw [hπcur]; exact ha)).trans (hπctx a)
  have hρtrace : (ρ.val.core (coreOf s.cur)).trace = .none :=
    (congrArg Core.trace (hkept _ htrace)).trans htrace
  obtain ⟨τ, ctxs, cores', hτ, eτ, hτself, hτother⟩ := run_endStrand (σ := ρ) (a := s.cur) (by rw [hρ]; rfl)
    (by rw [hρ, hself]; exact hpend) (by rw [hρ, hself]; exact hset.2.2) hρtrace
  have hcomplete : complete sy true s.before .ended σ = .ok () τ := by
    rw [run_complete_ended (τ := π) hfwd (by rw [State.isFollower, hcur, htrace]; rfl) (by rw [hcur, hself]; exact congrArg Progress.lease hp)
      (by rw [hcur, hself]; exact congrArg Progress.handed hp) hπ, hcur]
    exact hτ
  have hframe : τ.val = { b.performed τ.val with ctxs := τ.val.ctxs, cores := τ.val.cores } := by
    rw [eτ, At.retireAs_val, State.retireAs, eπ, hend.frame]
    rfl
  refine ⟨τ.val, strandStep_ok ((hq.2.2.fresh.issue_done ((run_frontChecks hw hs).trans hpre)
    (run_wholly hw hs hq.2.2.fresh.replay (run_attempt_ok hbody))).trans hcomplete), ?_, ?_, ?_, ?_, ?_⟩
  · refine keeps_of_frame (by rw [hframe]; rfl) (fun hfar => ?_) fun a ha => ?_
    · rw [eτ, At.retireAs_val, State.retireAs, eπ]
      exact (hend.far hfar.2).1
    · rw [hbcur] at ha
      have hr : (σ.val.ctx a).r = (b.ctx a).r := hend.regs_ne (by rw [hbcur]; exact ha)
      rcases hτother a ha with e | e <;> rw [e, hρne a ha] <;> exact hr
  · rw [hframe]
    rfl
  · have hτcur : τ.val.cur = s.cur := by rw [hframe]; exact hbcur
    rw [State.regs, hτcur, hτself, hρ]
  · rw [hbcur, hτself]
  · rw [hbcur, hτself, hρ, hself]

/-! ### EXIT -/

theorem State.Ending.release {s t u : State} {a : Nat} (h : s.Ending t) (hr : t.Releases a u) : s.Ending u :=
  State.Unwinds.trans h hr.unwinds

/-- A cell's counter at the end of the strand is as it was before. -/
theorem State.Ending.cell {s t : State} (h : s.Ending t) (k x : Nat) : t.cell k x = s.cell k x := by
  rw [h.frame]
  rfl

theorem State.Ending.localRef {s t : State} (h : s.Ending t) (r : Word) : t.localRef r = s.localRef r := by
  rw [h.frame]
  rfl

theorem run_exitBody_plain {sy : Sync} {s : State} (hs : sy.sig = none) (hset : Expected.Settled s)
    (hstart : (s.ctx s.cur).start = none) :
    ∃ τ, exitBody sy (⟨s, .refl⟩ : At s) = .ok .ended τ ∧ s.Ending τ.val := by
  obtain ⟨τ, hτ, hend⟩ := run_endingBody hs hset.1 hset.2.1
  obtain ⟨ph, w, ans, hself⟩ := hend.self
  have hnone : (τ.val.ctx τ.val.cur).start = none := by rw [hend.cur, hself]; exact hstart
  refine ⟨τ, ?_, hend⟩
  unfold exitBody
  rw [run_bind_ok hτ, run_bind_ok (run_st τ)]
  simp only [hnone]
  rfl

/-- A START strand adds to its counter, a release at system scope (R324). -/
theorem run_exitBody_start {sy : Sync} {s : State} {d : DoneRef} {k x : Nat} (hs : sy.sig = none)
    (hset : Expected.Settled s) (hstart : (s.ctx s.cur).start = some d) (hl : isLocalRef d.ref = true)
    (href : s.localRef d.ref = some (k, x)) (hun : Expected.NoWaiters s k x) (hgen : d.gen = (s.cell k x).g)
    (hfit : (s.cell k x).v.toNat + d.inc.toNat < 2 ^ 64) (hinc : d.inc ≠ 0) :
    ∃ τ, exitBody sy (⟨s, .refl⟩ : At s) = .ok .ended τ ∧ (s.grown k x d.inc.toNat).Ending τ.val := by
  obtain ⟨ρ, hρ, hend⟩ := run_endingBody hs hset.1 hset.2.1
  obtain ⟨ph, w, ans, hself⟩ := hend.self
  have hsome : (ρ.val.ctx ρ.val.cur).start = some d := by rw [hend.cur, hself]; exact hstart
  have hidle : (ρ.val.ctx ρ.val.cur).farw = [] := by rw [hend.cur, hself]; exact hset.2.1
  obtain ⟨_, π, hπ, hrel⟩ := goes_pushScopeOf ρ.val.cur .system ρ
  have hend' : s.Ending π.val := hend.release (hrel hidle)
  have hpos : 0 < d.inc.toNat := Nat.pos_of_ne_zero fun h => hinc (BitVec.eq_of_toNat_eq h)
  obtain ⟨τ, hτ, hadd⟩ := run_logAdd_cell (ρ.val.reqOf ρ.val.cur) (gen := d.gen) ρ.val.cur hl
    (by rw [hend'.localRef]; exact href) (by rw [hend'.cell]; exact hgen) hpos (by rw [hend'.cell]; exact hfit)
    (hend'.unwatched hun)
  refine ⟨τ, ?_, hend'.add hadd⟩
  unfold exitBody
  rw [run_bind_ok hρ, run_bind_ok (run_st ρ)]
  simp only [hsome]
  exact (run_bind_ok (show pushScope .system ρ = _ from (run_bind_ok (run_me ρ)).trans hπ)).trans (run_bind_ok hτ)

/-! ### FINISH -/

/-- FINISH of a record without a JOIN. -/
theorem run_finishBody_plain {sy : Sync} {s : State} (hs : sy.sig = none) (hset : Expected.Settled s)
    (hjoin : (s.ctx s.cur).join = some 0) :
    ∃ τ, finishBody sy (⟨s, .refl⟩ : At s) = .ok .ended τ ∧ s.Ending τ.val := by
  obtain ⟨τ, hτ, hend⟩ := run_endingBody hs hset.1 hset.2.1
  obtain ⟨ph, w, ans, hself⟩ := hend.self
  have hzero : (τ.val.ctx τ.val.cur).join = some 0 := by rw [hend.cur, hself]; exact hjoin
  refine ⟨τ, ?_, hend⟩
  unfold finishBody
  rw [run_bind_ok hτ, run_bind_ok (run_st τ), hzero]
  rfl

theorem ne_zero_of_isLocalRef {r : Word} (h : isLocalRef r = true) : r ≠ 0 := by
  rintro rfl
  revert h
  decide

/-- FINISH adds 1 to the counter that JOIN names (R76). -/
theorem run_finishBody_join {sy : Sync} {s : State} {j : Word} {k x : Nat} (hs : sy.sig = none)
    (hset : Expected.Settled s) (hjoin : (s.ctx s.cur).join = some j) (hl : isLocalRef j = true)
    (href : s.localRef j = some (k, x)) (hun : Expected.NoWaiters s k x)
    (hfit : (s.cell k x).v.toNat + 1 < 2 ^ 64) :
    ∃ τ, finishBody sy (⟨s, .refl⟩ : At s) = .ok .ended τ ∧ (s.grown k x 1).Ending τ.val := by
  obtain ⟨ρ, hρ, hend⟩ := run_endingBody hs hset.1 hset.2.1
  obtain ⟨ph, w, ans, hself⟩ := hend.self
  have hsome : (ρ.val.ctx ρ.val.cur).join = some j := by rw [hend.cur, hself]; exact hjoin
  obtain ⟨r, τ, hτ, hadd⟩ := run_addAt_cell (σ := ρ) (k := k) (x := x) (n := 1) (gen := none) j
    (ρ.val.adder ρ.val.cur) (fun g hg => by cases hg) Nat.one_pos (by rw [hend.cell]; exact hfit) (hend.unwatched hun)
  have hresolve : resolveRef (ρ.val.reqOf ρ.val.cur) { rd := false, wr := true } j ρ = .ok (.ok (.cell k x)) ρ :=
    run_resolveRef_cell hl (by rw [hend.localRef]; exact href)
  refine ⟨τ, ?_, hend.add hadd⟩
  unfold finishBody
  rw [run_bind_ok hρ, run_bind_ok (run_st ρ), hsome]
  simp only [Option.getD_some, if_pos (ne_zero_of_isLocalRef hl)]
  exact (run_bind_ok hresolve).trans (run_bind_ok hτ)

theorem run_finishPre {σ : At s0} {j : Word} (hj : (σ.val.ctx σ.val.cur).join = some j) (hc : coreOf σ.val.cur < 1536) :
    (do let c ← myCtx; let n ← myCore; legal (c.join.isSome && !isEasel n) : M s0 Unit) σ = .ok () σ := by
  rw [run_bind_ok (run_myCtx σ), run_bind_ok (run_myCore σ)]
  exact run_legal (by simp [hj, isEasel, hc]) σ

theorem run_finishPre_illegal {σ : At s0} (h : (σ.val.ctx σ.val.cur).join = none ∨ 1536 ≤ coreOf σ.val.cur) :
    (do let c ← myCtx; let n ← myCore; legal (c.join.isSome && !isEasel n) : M s0 Unit) σ =
      .error (.trap .illegal (σ.val.ctx σ.val.cur).ir false false) σ := by
  rw [run_bind_ok (run_myCtx σ), run_bind_ok (run_myCore σ)]
  refine run_legal_false ?_ σ
  rcases h with h | h
  · rw [h]; rfl
  · simp [isEasel, h]

/-- Settles O29: the body ends the leases, releases and adds, and the strand ends. -/
theorem strandEndResult : Obligations.StrandEndResult := by
  unfold Obligations.StrandEndResult
  intro sy s hq hset hpend
  dsimp only
  have hs : sy.sig = none := hq.2.1
  have hgrown (k x n : Nat) : s.grown k x n = { s with cells := (s.grown k x n).cells } := rfl
  have hended {b t : State} (hr : b.regs = s.regs) (h : b.Ended sy s.regs t) :
      Expected.Keeps b t ∧ t.mem = b.mem ∧ t.regs = { b.regs with pc := nextPc b.regs.pc sy } ∧
        (t.ctx b.cur).phase = .draining ∧ (t.ctx b.cur).leases = [] :=
    ⟨h.keeps, h.mem, by rw [hr]; exact h.regs, h.phase, h.leases⟩
  refine ⟨fun hstart => ?_, fun d k x hstart hl href hun hgen hfit hinc => ?_, fun hjoin hc => ?_,
    fun j k x hjoin hc hl href hun hfit => ?_, fun h hm => ?_⟩
  · obtain ⟨σ, hσ, hend⟩ := run_exitBody_plain hs hset hstart
    obtain ⟨t, ht, hres⟩ := strandStep_ended hq hset hpend rfl (run_pure () _) hσ hend
    exact ⟨t, ht, hended rfl hres⟩
  · obtain ⟨σ, hσ, hend⟩ := run_exitBody_start hs hset hstart hl href hun hgen hfit hinc
    obtain ⟨t, ht, hres⟩ := strandStep_ended hq hset hpend (hgrown _ _ _) (run_pure () _) hσ hend
    exact ⟨t, ht, hended rfl hres⟩
  · obtain ⟨σ, hσ, hend⟩ := run_finishBody_plain hs hset hjoin
    obtain ⟨t, ht, hres⟩ := strandStep_ended hq hset hpend rfl (run_finishPre hjoin hc) hσ hend
    exact ⟨t, ht, hended rfl hres⟩
  · obtain ⟨σ, hσ, hend⟩ := run_finishBody_join hs hset hjoin hl href hun hfit
    obtain ⟨t, ht, hres⟩ := strandStep_ended hq hset hpend (hgrown _ _ _) (run_finishPre hjoin hc) hσ hend
    exact ⟨t, ht, hended rfl hres⟩
  · exact strandStep_pre_trap hq hm (run_finishPre_illegal h) rfl

end Sys2Proof.Machine
end

section
/-! What the start of a strand leaves (R49, R53, R56), and writes of structures that the spec names by physical address. -/

namespace Sys2Proof.Machine

variable {s0 : State}

/-- A strand starts: its context is as its start makes it, and the core's scan may select it at once. -/
theorem run_startStrand_ctx (a : Nat) (r : Regs) (f : Ctx → Ctx) (hf : ∀ x, (f x).phase = x.phase) (σ : At s0) :
    ∃ τ ctxs cores cells times joins slots p, startStrand a r f σ = .ok () τ ∧
      τ.val = { σ.val with ctxs := ctxs, cores := cores, cells := cells, times := times, joins := joins } ∧
      (p = .ready ∨ p = .running) ∧
      τ.val.ctx a = { f ((σ.val.ctx a).begin { r with slots := slots }) with phase := p } := by
  obtain ⟨ρ, cells, hρ, eρ⟩ := run_freshCells (coreOf a) (σ.val.ctx a).cellBase (σ.val.ctx a).nslots σ
  have hctx : ρ.val.ctx a = σ.val.ctx a := by rw [eρ]; rfl
  let slots := ρ.val.ownSlots (coreOf a) (σ.val.ctx a).cellBase (σ.val.ctx a).nslots
  let c := f ((σ.val.ctx a).begin { r with slots := slots })
  have hphase : c.phase = .ready := hf _
  have hready : { c with phase := .ready } = c := by
    rw [← hphase]
  obtain ⟨π, times, joins, hπ, eπ⟩ := run_startTime a (ρ.upd (.ctx a c))
  have hπa : π.val.ctx a = c := by rw [eπ]; exact ctx_upd_same ρ.val a c
  obtain ⟨τ, ctxs, cores, hτ, eτ, hscan⟩ := run_startScan (coreOf a) π
  have hrun : startStrand a r f σ = .ok () τ := by
    unfold startStrand
    rw [run_bind_ok (run_st σ)]
    dsimp only
    rw [run_bind_ok hρ, run_bind_ok (run_st ρ), hctx]
    exact (run_bind_ok (run_upd _ _)).trans ((run_bind_ok hπ).trans hτ)
  have hframe : τ.val = { σ.val with ctxs := ctxs, cores := cores, cells := cells, times := times, joins := joins } := by
    rw [eτ, eπ, At.upd_val, eρ]
    rfl
  rcases hscan a with h | h
  · exact ⟨τ, ctxs, cores, cells, times, joins, slots, .ready, hrun, hframe, .inl rfl, by rw [h, hπa]; exact hready.symm⟩
  · exact ⟨τ, ctxs, cores, cells, times, joins, slots, .running, hrun, hframe, .inr rfl, by rw [h, hπa]⟩

/-- Between two states bytes of memory are written, and what is open on them is settled. -/
structure State.Deposits (s t : State) : Prop where
  frame : t = { s with
    mem := t.mem, bad := t.bad, fadds := t.fadds, engOld := t.engOld, times := t.times, joins := t.joins, dies := t.dies
    oracle := t.oracle }
  queues : ∀ d, (t.die d).queues = (s.die d).queues

theorem deposits_chains : Chains State.Deposits where
  refl _ := ⟨rfl, fun _ => rfl⟩
  trans {s t u} h h' := ⟨by rw [h'.frame, h.frame], fun d => (h'.queues d).trans (h.queues d)⟩

theorem State.Combines.deposits {s t : State} (h : s.Combines t) : s.Deposits t where
  frame := by rw [h.frame]
  queues := h.queues

theorem Expected.Timed.deposits {s t : State} (h : Expected.Timed s t) : s.Deposits t where
  frame := by rw [h]
  queues d := by rw [h]; rfl

theorem goes_byte (pa : Nat) (b : Byte) : Goes (s0 := s0) State.Deposits (upd (.byte pa b)) :=
  .upd fun _ => ⟨rfl, fun _ => rfl⟩

theorem goes_settleFadds (pa n : Nat) : Goes (s0 := s0) State.Deposits (settleFadds pa n) := by
  have hc := deposits_chains
  unfold settleFadds
  refine .bind hc (.st hc) fun s => .bind hc (.forIn hc _ fun (w, v, l) _ => ?_) fun _ => .pure hc _
  dsimp only
  split
  · exact .bind hc ((goes_faddTree _ _).mono fun _ _ h => h.deposits) fun sum =>
      .bind hc (.forIn hc _ fun _ _ => .bind hc (goes_byte _ _) fun _ => .go hc) fun _ => .go hc
  · exact .go hc

theorem goes_noteDown (pa : Nat) : Goes (s0 := s0) State.Deposits (noteDown pa) := fun σ => by
  refine ⟨_, _, run_modDie _ _ σ, rfl, fun d => ?_⟩
  rw [At.upd_val, die_of_upd]
  split
  · next hd => rw [hd]
  · rfl

theorem goes_writePhys (pa : Nat) (bs : List Byte) : Goes (s0 := s0) State.Deposits (writePhys pa bs) := by
  have hc := deposits_chains
  unfold writePhys
  refine .bind hc (.st hc) fun s => ?_
  split
  · exact .bind hc (.forIn hc _ fun _ _ => .bind hc (goes_byte _ _) fun _ => .go hc) fun _ => .pure hc _
  · exact goes_noteDown pa

theorem goes_writeMem (pa : Nat) (bs : List Byte) : Goes (s0 := s0) State.Deposits (writeMem pa bs) := by
  have hc := deposits_chains
  unfold writeMem
  refine .bind hc (.st hc) fun s => ?_
  split
  · exact .bind hc (goes_settleFadds _ _) fun _ => goes_writePhys _ _
  · exact goes_writePhys _ _

theorem goes_stampLines (who : Option Nat) (pa n : Nat) : Goes (s0 := s0) Expected.Timed (stampLines who pa n) := by
  have hc := timed_chains
  unfold stampLines
  exact .bind hc (.forIn hc _ fun _ _ => .bind hc (.st hc) fun s => .bind hc (.upd fun _ => rfl) fun _ => .go hc) fun _ =>
    .pure hc _

end Sys2Proof.Machine
end

section
/-! Records of near memory as the device reads them (R7). -/

namespace Sys2Proof.Machine

variable {s0 : State}

/-- The number of a list of bytes, the lowest first, from a power of 256 on. -/
theorem sum_zipIdx_bytes (bs : List Byte) (k : Nat) :
    ((bs.zipIdx k).map fun p => p.1.toNat * 256 ^ p.2).sum = 256 ^ k * bytesNat bs := by
  induction bs generalizing k with
  | nil => rfl
  | cons b bs ih =>
    rw [List.zipIdx_cons, List.map_cons, List.sum_cons, ih, bytesNat]
    ring

theorem bytesNat_eq_number (bs : List Byte) : bytesNat bs = Expected.number bs := by
  unfold Expected.number
  rw [sum_zipIdx_bytes, pow_zero, Nat.one_mul]

/-- Clean bytes are read as they stand in memory. -/
theorem physBytes_of_clean {s : State} {pa n : Nat} (h : ∀ i < n, s.poisoned (pa + i) = false) :
    s.physBytes pa n = (List.range n).map fun i => Memory.read s.mem (pa + i) := by
  refine List.map_congr_left fun i hi => ?_
  unfold State.physByte
  rw [h i (List.mem_range.1 hi)]
  rfl

/-- The words of a clean record. -/
theorem physWords_of_clean {s : State} {pa n : Nat} (h : ∀ i < 8 * n, s.poisoned (pa + i) = false) :
    s.physWords pa n = (List.range n).map fun i => Expected.recordWord s pa i := by
  refine List.map_congr_left fun i hi => ?_
  have hi : i < n := List.mem_range.1 hi
  unfold State.physWord bytesWord Expected.recordWord Expected.memValue
  rw [bytesNat_eq_number, physBytes_of_clean fun j hj => by rw [Nat.add_assoc]; exact h _ (by omega)]

theorem wordAt_physWords {s : State} {pa n i : Nat} (h : ∀ i < 8 * n, s.poisoned (pa + i) = false) (hi : i < n) :
    wordAt (s.physWords pa n) i = Expected.recordWord s pa i := by
  rw [physWords_of_clean h]
  simp [wordAt, List.getD, hi]

end Sys2Proof.Machine
end

section
/-! The starts of strands: from continuation records (R72 to R75) and from START records (R323, R324). -/

namespace Sys2Proof.Machine

variable {s0 : State} {α β : Type}

/-! ### The record that the die hands out next (R74) -/

/-- The first success from the highest number down. -/
theorem findSome?_down {f : Nat → Option α} {n l : Nat} {v : α} (hl : l < n) (hv : f l = some v)
    (habove : ∀ m, l < m → m < n → f m = none) : (List.range n).reverse.findSome? f = some v := by
  induction n with
  | zero => omega
  | succ n ih =>
    rw [List.range_succ, List.reverse_append, List.reverse_singleton, List.singleton_append, List.findSome?_cons]
    by_cases h : l = n
    · subst h
      rw [hv]
    · rw [habove n (by omega) (by omega)]
      exact ih (by omega) fun m hm hn => habove m hm (by omega)

/-- The first success along a list, with its position. -/
theorem findSome?_zipIdx {f : α × Nat → Option β} {xs : List α} {i : Nat} {x : α} {v : β} (hx : xs[i]? = some x)
    (hv : f (x, i) = some v) (hbefore : ∀ j < i, ∀ y, xs[j]? = some y → f (y, j) = none) :
    xs.zipIdx.findSome? f = some v := by
  have hzip (j : Nat) : xs.zipIdx[j]? = xs[j]?.map fun y => (y, j) := by simp
  have hlen : i < xs.length := (List.getElem?_eq_some_iff.1 hx).1
  refine List.findSome?_eq_some_iff.2 ⟨xs.zipIdx.take i, (x, i), xs.zipIdx.drop (i + 1), ?_, hv, fun p hp => ?_⟩
  · have hget : xs.zipIdx[i]? = some (x, i) := by rw [hzip, hx]; rfl
    obtain ⟨hi, hgi⟩ := List.getElem?_eq_some_iff.1 hget
    rw [← hgi, List.cons_getElem_drop_succ, List.take_append_drop]
  · obtain ⟨j, hj⟩ := List.mem_iff_getElem?.1 hp
    rw [List.getElem?_take, Option.ite_none_right_eq_some, hzip, Option.map_eq_some_iff] at hj
    obtain ⟨hji, y, hy, rfl⟩ := hj
    exact hbefore j hji y hy

/-- A context that can take a record is one of its die. -/
theorem someTakes_of_takes {s : State} {a : Nat} {r : ContRec} (h : s.takes a r = true) :
    s.someTakes (dieOf a) r = true := by
  rcases ctx_reset_or_mem s a with hreset | hmem
  · simp [State.takes, hreset, Ctx.reset] at h
  · exact List.any_eq_true.2 ⟨_, hmem, by simp [h]⟩

/-- The record that a die hands out is the first of the highest level that a context can take. -/
theorem nextRec_eq {s : State} {die l i : Nat} {r : ContRec} {e : Nat} (hl : l < 8)
    (hr : ((s.die die).queue l).recs[i]? = some (r, e)) (hsome : s.someTakes die r = true)
    (habove : ∀ m, l < m → m < 8 → ∀ p ∈ ((s.die die).queue m).recs, s.someTakes die p.1 = false)
    (hbefore : ∀ j < i, ∀ p, ((s.die die).queue l).recs[j]? = some p → s.someTakes die p.1 = false) :
    s.nextRec die = some (l, i, r) := by
  refine findSome?_down (n := 8) hl (findSome?_zipIdx hr (if_pos hsome) fun j hj p hp => ?_) fun m hm h8 => ?_
  · exact if_neg (ne_true_of_eq_false (hbefore j hj p hp))
  · refine List.findSome?_eq_none_iff.2 fun p hp => if_neg (ne_true_of_eq_false (habove m hm h8 _ ?_))
    exact List.fst_mem_of_mem_zipIdx hp

/-! ### Records that leave and enter a level -/

/-- A level without its i-th record. -/
def Die.without (d : Die) (l i : Nat) : Die :=
  { d with queues := TMap.put d.queues l { d.queue l with recs := (d.queue l).recs.eraseIdx i } }

/-- A record leaves a level at which no SPAWN waits. -/
theorem run_popRec {σ : At s0} {die l : Nat} (i : Nat) (hw : ((σ.val.die die).queue l).waiting = []) :
    popRec die l i σ = .ok () (σ.upd (.die die ((σ.val.die die).without l i))) := by
  have hwaiting : (((σ.upd (.die die ((σ.val.die die).without l i))).val.die die).queue l).waiting = [] := by
    rw [At.upd_val, die_upd_same, Die.queue, Die.without, TMap.get_put_same]
    exact hw
  unfold popRec
  rw [run_bind_ok (run_modDie _ _ σ), run_bind_ok (run_st _)]
  unfold Die.without at hwaiting ⊢
  simp only [hwaiting]
  rfl

/-- A level with a record more, which came at a time. -/
def ContQ.append (q : ContQ) (r : ContRec) (time : Nat) : ContQ :=
  { q with recs := q.recs ++ [(r, time)], tail := q.tail + 1 }

/-- A record enters at the tail of a level; besides, the ring's bytes are written. -/
theorem run_appendRec (die l : Nat) (r : ContRec) (σ : At s0) :
    ∃ (τ : At s0) (u : State), appendRec die l r σ = .ok () τ ∧ σ.val.Deposits u ∧
      τ.val = (Upd.die die
        { u.die die with queues := TMap.put (u.die die).queues l (((u.die die).queue l).append r σ.val.time) }).apply u := by
  obtain ⟨_, ρ, hρ, hstamp⟩ := goes_stampLines none
    (field ((σ.val.die die).queue l).cfg 12 34 * 4096 +
      32 * (((σ.val.die die).queue l).tail % ((σ.val.die die).queue l).cap)) 32 σ
  obtain ⟨_, π, hπ, hwrite⟩ := goes_writeMem
    (field ((σ.val.die die).queue l).cfg 12 34 * 4096 +
      32 * (((σ.val.die die).queue l).tail % ((σ.val.die die).queue l).cap)) (wordsBytes r.words) ρ
  refine ⟨π.upd (.die die { π.val.die die with
    queues := TMap.put (π.val.die die).queues l (((π.val.die die).queue l).append r σ.val.time) }), π.val, ?_, deposits_chains.trans hstamp.deposits hwrite, rfl⟩
  unfold appendRec
  exact (run_bind_ok (run_st σ)).trans ((run_bind_ok hρ).trans ((run_bind_ok hπ).trans (run_modDie _ _ π)))

/-! ### A strand from a continuation record -/

/-- What the spec says of the context of a new strand. -/
structure State.Started (s t : State) (a : Nat) (pc : Word) (asid : BitVec 16) : Prop where
  phase : (t.ctx a).phase = .ready ∨ (t.ctx a).phase = .running
  pc : (t.ctx a).r.pc = pc
  asid : (t.ctx a).r.asid = asid
  lines : (t.ctx a).lines = []
  pend : (t.ctx a).pend = []
  leases : (t.ctx a).leases = []
  mem : t.mem = s.mem

/-- A record starts a strand at its code, with its frame and join (R75). -/
theorem run_startRecord {σ : At s0} {a : Nat} {r : ContRec} (h : σ.val.takes a r = true) :
    ∃ τ, startRecord a r σ = .ok () τ ∧ σ.val.Started τ.val a r.code r.asid ∧ (τ.val.ctx a).r.getX 1 = r.frame ∧
      (τ.val.ctx a).r.getX 2 = r.join ∧ (τ.val.ctx a).join = some r.join ∧ τ.val.dies = σ.val.dies := by
  obtain ⟨-, hany⟩ := Bool.and_eq_true_iff.1 h
  cases hl : (σ.val.ctx a).owner.bind fun k => TMap.find σ.val.launches k with
  | none => rw [hl] at hany; cases hany
  | some l =>
    rw [hl] at hany
    have hasid : l.asid = r.asid := eq_of_beq hany
    let regs := startRegs false r.code l.num 0xFFFFFFFF l.param l.asid l.lsbase l.lslim
    obtain ⟨τ, ctxs, cores, cells, times, joins, slots, p, hτ, eτ, hp, hctx⟩ :=
      run_startStrand_ctx a ((regs.setX 1 r.frame).setX 2 r.join) (fun x => { x with join := some r.join })
        (fun _ => rfl) σ
    refine ⟨τ, ?_, ⟨by rw [hctx]; exact hp, ?_, ?_, ?_, ?_, ?_, ?_⟩, ?_, ?_, ?_, ?_⟩
    · unfold startRecord
      rw [run_bind_ok (run_st σ), hl]
      exact hτ
    · rw [hctx]; rfl
    · rw [hctx, ← hasid]; rfl
    · rw [hctx]; rfl
    · rw [hctx]; rfl
    · rw [hctx]; rfl
    · rw [eτ]
    · rw [hctx]
      calc ((regs.setX 1 r.frame).setX 2 r.join).getX 1 = (regs.setX 1 r.frame).getX 1 := by
            rw [getX_setX]; exact if_neg (by decide)
        _ = r.frame := getX_setX_same _ _ _ (by decide)
    · rw [hctx]
      exact getX_setX_same (regs.setX 1 r.frame) 2 r.join (by decide)
    · rw [hctx]
    · rw [eτ]

theorem continuationTake_starts {s : State} {a l i : Nat} {r : ContRec} (hnext : s.nextRec (dieOf a) = some (l, i, r))
    (htakes : s.takes a r = true) (hw : ((s.die (dieOf a)).queue l).waiting = []) :
    ∃ t : State, exec (.continuationTake a) s = .next t ∧ s.Started t a r.code r.asid ∧
      (t.ctx a).r.getX 1 = r.frame ∧ (t.ctx a).r.getX 2 = r.join ∧ (t.ctx a).join = some r.join ∧
      ((t.die (dieOf a)).queue l).recs = ((s.die (dieOf a)).queue l).recs.eraseIdx i := by
  let ρ : At s := At.upd ⟨s, .refl⟩ (.die (dieOf a) ((s.die (dieOf a)).without l i))
  obtain ⟨τ, hτ, hstart, hframe, hjoin, hj, hdies⟩ := run_startRecord (σ := ρ) (a := a) (r := r) htakes
  refine ⟨τ.val, run_ok (m := continuationTakeBody a) ?_, ⟨hstart.phase, hstart.pc, hstart.asid, hstart.lines, hstart.pend,
    hstart.leases, hstart.mem⟩, hframe, hjoin, hj, ?_⟩
  · unfold continuationTakeBody
    rw [run_bind_ok (run_st _), hnext]
    dsimp only
    rw [htakes]
    exact (run_bind_ok (run_require _ _)).trans ((run_bind_ok (run_popRec i hw)).trans hτ)
  · have hdie : τ.val.die (dieOf a) = (s.die (dieOf a)).without l i := by
      rw [State.die, hdies]
      exact die_upd_same _ _ _
    rw [hdie, Die.queue, Die.without, TMap.get_put_same]

/-! ### Aging -/

theorem queue_without_ne (d : Die) {l m : Nat} (i : Nat) (h : m ≠ l) : (d.without l i).queue m = d.queue m :=
  TMap.get_put_ne _ _ _ h

/-- The head of a level moves to the tail of the next, which has room (R73). -/
theorem continuationAging_moves {s : State} {d l : Nat} {r : ContRec} {e : Nat} {rest : List (ContRec × Nat)} (hl : l < 7)
    (hrecs : ((s.die d).queue l).recs = (r, e) :: rest) (hw : ((s.die d).queue l).waiting = [])
    (hon : ((s.die d).queue (l + 1)).cfg.getLsbD 5 = true)
    (hroom : ((s.die d).queue (l + 1)).recs.length < 2 ^ (((s.die d).queue (l + 1)).cfg.toNat % 32)) :
    ∃ t : State, exec (.continuationAging d l) s = .next t ∧ ((t.die d).queue l).recs = rest ∧
      (t.die d).queue (l + 1) = ((s.die d).queue (l + 1)).append r s.time ∧ t.ctxs = s.ctxs := by
  let ρ : At s := At.upd ⟨s, .refl⟩ (.die d ((s.die d).without l 0))
  have hdie : ρ.val.die d = (s.die d).without l 0 := die_upd_same _ _ _
  obtain ⟨τ, u, hτ, hdep, eτ⟩ := run_appendRec d (l + 1) r ρ
  have hqueue (m : Nat) : (u.die d).queue m = ((s.die d).without l 0).queue m := by
    rw [Die.queue, hdep.queues, hdie]
    rfl
  have hfull : ((s.die d).queue (l + 1)).full = false := by
    simp [ContQ.full, ContQ.cap, field, hroom]
  refine ⟨τ.val, run_ok (m := continuationAgingBody d l) ?_, ?_, ?_, ?_⟩
  · unfold continuationAgingBody
    rw [run_bind_ok (run_st _), hrecs]
    dsimp only
    rw [ContQ.on, hon, hfull, decide_eq_true hl]
    exact (run_bind_ok (run_require _ _)).trans ((run_bind_ok (run_popRec 0 hw)).trans hτ)
  · rw [eτ, die_upd_same, Die.queue, TMap.get_put_ne _ _ _ (Nat.ne_of_lt (Nat.lt_succ_self l))]
    refine (congrArg ContQ.recs (hqueue l)).trans ?_
    rw [Die.queue, Die.without, TMap.get_put_same, hrecs]
    rfl
  · rw [eτ, die_upd_same, Die.queue, TMap.get_put_same, hqueue, queue_without_ne _ _ (Nat.succ_ne_self l)]
    rfl
  · rw [eτ, hdep.frame]
    rfl

/-! ### A strand from a START record -/

theorem toNat_keepBits_aligned (v : Word) : (keepBits v 6 58).toNat = v.toNat / 64 * 64 := by
  have := v.isLt
  unfold keepBits wordOf field
  rw [BitVec.toNat_ofNat]
  omega

/-- A free block depends on nothing but which contexts hold which cells. -/
theorem freeBases_congr {s t : State} (hphase : ∀ b, (t.ctx b).phase = (s.ctx b).phase)
    (hbase : ∀ b, (t.ctx b).cellBase = (s.ctx b).cellBase) (hslots : ∀ b, (t.ctx b).nslots = (s.ctx b).nslots)
    (core n : Nat) : t.freeBases core n = s.freeBases core n := by
  unfold State.freeBases
  simp only [hphase, hbase, hslots]

/-- The base that a new strand's cells get is the device's choice. -/
theorem run_chooseBase (n : Nat) (σ : At s0) :
    ∃ i ρ, Expected.Timed σ.val ρ.val ∧
      ∀ {β : Type} (k : Nat → M s0 β), (if n ≤ 1 then k 0 else choose n >>= k) σ = k i ρ := by
  by_cases h : n ≤ 1
  · exact ⟨0, σ, timed_chains.refl _, fun k => congrFun (if_pos h) σ⟩
  · obtain ⟨i, ρ, hρ, htimed⟩ := goes_choose n σ
    exact ⟨i, ρ, htimed, fun k => (congrFun (if_neg h) σ).trans (run_bind_ok hρ)⟩

/-- A record without REGIONS that is well formed starts a strand, if the core has a free block of cells for it. -/
theorem run_startFromRecord {σ : At s0} {a record : Nat} {ws : List Word} (hbad : startRecordBad ws = false)
    (hregions : wordAt ws 4 = 0) (hbases : σ.val.freeBases (coreOf a) (field (wordAt ws 3) 32 9) ≠ []) :
    ∃ τ, startFromRecord a record ws σ = .ok () τ ∧ σ.val.Started τ.val a (wordAt ws 0) ((wordAt ws 3).truncate 16) ∧
      (τ.val.ctx a).r.getX 2 = wordAt ws 2 ∧ (τ.val.ctx a).r.param = wordAt ws 1 ∧
      (τ.val.ctx a).r.mode = (if (wordAt ws 3).getLsbD 63 then .kernel else .user) ∧
      (τ.val.ctx a).nslots = field (wordAt ws 3) 32 9 ∧ (τ.val.ctx a).start = some (startDone ws) := by
  let n := field (wordAt ws 3) 32 9
  let bases := σ.val.freeBases (coreOf a) n
  obtain ⟨i, ρ, htimed, hρ⟩ := run_chooseBase bases.length σ
  let π := ρ.upd (.ctx a
    { ρ.val.ctx a with owner := none, budget := 64, nslots := n, cellBase := bases.getD i 0 })
  have hπ : π.val.ctx a = { ρ.val.ctx a with owner := none, budget := 64, nslots := n, cellBase := bases.getD i 0 } :=
    ctx_upd_same _ _ _
  let r := startRegs true (wordAt ws 0) 0 0 (wordAt ws 1) ((wordAt ws 3).truncate 16) (regionWords false [])
    (regionWords true [])
  let r' : Regs := { r.setX 2 (wordAt ws 2) with mode := if (wordAt ws 3).getLsbD 63 then .kernel else .user }
  obtain ⟨τ, ctxs, cores, cells, times, joins, slots, p, hτ, eτ, hp, hctx⟩ :=
    run_startStrand_ctx a r' (fun x => { x with start := some (startDone ws) }) (fun _ => rfl) π
  refine ⟨τ, ?_, ⟨by rw [hctx]; exact hp, ?_, ?_, ?_, ?_, ?_, ?_⟩, ?_, ?_, ?_, ?_, ?_⟩
  · have hempty : (σ.val.freeBases (coreOf a) (field (wordAt ws 3) 32 9)).isEmpty = false :=
      List.isEmpty_eq_false_iff.2 hbases
    have hread (q : Req) : readRegions q a (wordAt ws 4) σ = .ok (some []) σ := congrFun (if_pos hregions) σ
    unfold startFromRecord
    rw [run_bind_ok (run_st σ)]
    dsimp only
    rw [hbad, hempty, Bool.or_false]
    simp only [Bool.false_eq_true, if_false]
    rw [run_bind_ok (hread _)]
    exact (hρ _).trans ((run_bind_ok (run_modCtx _ _ ρ)).trans hτ)
  · rw [hctx]; rfl
  · rw [hctx]; rfl
  · rw [hctx]; rfl
  · rw [hctx]; rfl
  · rw [hctx]; rfl
  · rw [eτ, At.upd_val, htimed]; rfl
  · rw [hctx]
    exact getX_setX_same r 2 (wordAt ws 2) (by decide)
  · rw [hctx]; rfl
  · rw [hctx]; rfl
  · rw [hctx, hπ]; rfl
  · rw [hctx]

theorem startDone_eq (ws : List Word) :
    startDone ws =
      { ref := wordAt ws 5, gen := BitVec.ofNat 16 ((wordAt ws 6).toNat / 2 ^ 48)
        inc := BitVec.ofNat 48 ((wordAt ws 6).toNat % 2 ^ 48) } := by
  have hgen : (wordAt ws 6).extractLsb' 48 16 = BitVec.ofNat 16 ((wordAt ws 6).toNat / 2 ^ 48) := by
    rw [BitVec.extractLsb', Nat.shiftRight_eq_div_pow]
  have hinc : (wordAt ws 6).extractLsb' 0 48 = BitVec.ofNat 48 ((wordAt ws 6).toNat % 2 ^ 48) := by
    refine BitVec.eq_of_toNat_eq ?_
    simp [BitVec.extractLsb'_toNat]
  rw [startDone, hgen, hinc]

/-- A START record starts its strand in a FREE context of an Easel core (R323). -/
theorem easelStart_starts {s : State} {a : Nat} {v : Word} (ha : isAgent a = true) (hcore : 1536 ≤ coreOf a)
    (hfree : (s.ctx a).phase = .free) {ws : List Word} (hws : s.physWords (v.toNat / 64 * 64) 8 = ws)
    (hreadable : s.recordReadable a (v.toNat / 64 * 64) = true) (hbad : startRecordBad ws = false)
    (hregions : wordAt ws 4 = 0) (hbases : s.freeBases (coreOf a) (field (wordAt ws 3) 32 9) ≠ []) :
    ∃ t : State, exec (.easelStart a v) s = .next t ∧ s.Started t a (wordAt ws 0) ((wordAt ws 3).truncate 16) ∧
      (t.ctx a).r.getX 2 = wordAt ws 2 ∧ (t.ctx a).r.param = wordAt ws 1 ∧
      (t.ctx a).r.mode = (if (wordAt ws 3).getLsbD 63 then .kernel else .user) ∧
      (t.ctx a).nslots = field (wordAt ws 3) 32 9 ∧ (t.ctx a).start = some (startDone ws) := by
  let ρ : At s := At.upd ⟨s, .refl⟩ (.ctx a { s.ctx a with startReg := keepBits v 6 58 })
  have hsame (b : Nat) : ρ.val.ctx b = if b = a then { s.ctx a with startReg := keepBits v 6 58 } else s.ctx b :=
    ctx_of_upd s a b _
  have hfields : ∀ b, (ρ.val.ctx b).phase = (s.ctx b).phase ∧ (ρ.val.ctx b).cellBase = (s.ctx b).cellBase ∧
      (ρ.val.ctx b).nslots = (s.ctx b).nslots := fun b => by
    rw [hsame]
    split
    · next h => rw [h]; exact ⟨rfl, rfl, rfl⟩
    · exact ⟨rfl, rfl, rfl⟩
  have hblocks := freeBases_congr (s := s) (t := ρ.val) (fun b => (hfields b).1) (fun b => (hfields b).2.1)
    (fun b => (hfields b).2.2) (coreOf a) (field (wordAt ws 3) 32 9)
  obtain ⟨τ, hτ, hstart, hrest⟩ := run_startFromRecord (σ := ρ) (record := v.toNat / 64 * 64) hbad hregions
    (by rw [hblocks]; exact hbases)
  refine ⟨τ.val, run_ok (m := easelStartBody a v) ?_, ⟨hstart.phase, hstart.pc, hstart.asid, hstart.lines, hstart.pend,
    hstart.leases, hstart.mem⟩, hrest⟩
  have heasel : isEasel (coreOf a) = true := by simp [isEasel, hcore]
  unfold easelStartBody
  rw [run_bind_ok (run_st _), ha, heasel]
  refine (run_bind_ok (run_require _ _)).trans ?_
  subst hws
  rw [hfree, toNat_keepBits_aligned]
  refine (congrFun (if_pos rfl) _).trans ((run_bind_ok (run_modCtx _ _ _)).trans ?_)
  exact (congrFun (if_pos hreadable) _).trans hτ

/-- A clean record in a module, of an ASID that may read it, is readable. -/
theorem recordReadable_of_clean {s : State} {a pa : Nat} (hclean : Expected.Clean s pa 64) (hin : s.inModule pa = true)
    (hadmits : admits (s.access (paDie pa) 0 (coreOf a)) true false false
      ((Expected.recordWord s pa 3).truncate 16) = true) : s.recordReadable a pa = true := by
  have hpoison : (List.range 64).any (fun i => s.poisoned (pa + i)) = false :=
    List.any_eq_false.2 fun i hi => by simp [hclean.1 i (List.mem_range.1 hi)]
  unfold State.recordReadable
  rw [wordAt_physWords (n := 8) hclean.1 (by decide), hin, hpoison, hadmits]
  rfl

theorem startRecordBad_false {ws : List Word} (h7 : wordAt ws 7 = 0) (hlow : (wordAt ws 3).toNat / 2 ^ 16 % 2 ^ 16 = 0)
    (hhigh : (wordAt ws 3).toNat / 2 ^ 41 % 2 ^ 22 = 0) (hslots : (wordAt ws 3).toNat / 2 ^ 32 % 2 ^ 9 ≤ 256) :
    startRecordBad ws = false := by
  unfold startRecordBad field
  dsimp only
  rw [h7, hlow, hhigh, decide_eq_false (Nat.not_lt.2 hslots)]
  rfl

/-- Settles O44, by one lemma for each event. -/
theorem strandStarts : Obligations.StrandStarts := by
  unfold Obligations.StrandStarts
  intro s a
  dsimp only
  refine ⟨fun l i r e hl hr htakes habove hbefore hw => ?_, fun d l r e rest hl hrecs hw hon hroom => ?_,
    fun v ha hcore hfree hclean hin h7 hlow hhigh hslots h4 hbases hadmits => ?_⟩
  · obtain ⟨t, ht, hs, hrest⟩ :=
      continuationTake_starts (nextRec_eq hl hr (someTakes_of_takes htakes) habove hbefore) htakes hw
    exact ⟨t, ht, ⟨hs.phase, hs.pc, hs.asid, hs.lines, hs.pend, hs.leases, hs.mem⟩, hrest⟩
  · obtain ⟨t, ht, hleft, hup, hctxs⟩ := continuationAging_moves hl hrecs hw hon hroom
    exact ⟨t, ht, hleft, by rw [hup]; rfl, by rw [hup]; rfl, hctxs⟩
  · have hword (i : Nat) (hi : i < 8) := wordAt_physWords (n := 8) (i := i) hclean.1 hi
    have hw0 := hword 0 (by decide)
    have hw1 := hword 1 (by decide)
    have hw2 := hword 2 (by decide)
    have hw3 := hword 3 (by decide)
    have hw4 := hword 4 (by decide)
    have hw5 := hword 5 (by decide)
    have hw6 := hword 6 (by decide)
    have hw7 := hword 7 (by decide)
    obtain ⟨t, ht, hs, hx, hparam, hmode, hn, hstart⟩ := easelStart_starts ha hcore hfree rfl
      (recordReadable_of_clean hclean hin hadmits)
      (startRecordBad_false (by rw [hw7]; exact h7) (by rw [hw3]; exact hlow) (by rw [hw3]; exact hhigh)
        (by rw [hw3]; exact hslots))
      (by rw [hw4]; exact h4) (by rw [hw3]; exact hbases)
    rw [hw0, hw3] at hs
    rw [hw2] at hx
    rw [hw1] at hparam
    rw [hw3] at hmode hn
    rw [startDone_eq, hw5, hw6] at hstart
    exact ⟨t, ht, ⟨hs.phase, hs.pc, hs.asid, hs.lines, hs.pend, hs.leases, hs.mem⟩, hx, hparam, hmode, hn, hstart⟩

end Sys2Proof.Machine
end

section
/-! Gangs: who is in one, its commit (R77, R210), and STEP (R78, R295, R465, R466). -/

namespace Sys2Proof.Machine

variable {s0 : State} {α : Type}

/-! ### The strands of a gang -/

/-- What a sorted map lists for a key, it finds. -/
theorem TMap.find_of_mem {m : TMap α} {k : Nat} {x : α} (hm : TMap.sorted m = true) (h : (k, x) ∈ m) :
    TMap.find m k = some x := by
  induction m with
  | nil => cases h
  | cons p r ih =>
    obtain ⟨j, y⟩ := p
    obtain ⟨habove, hr⟩ := (TMap.sorted_cons j y r).1 hm
    rcases List.mem_cons.1 h with heq | hmem
    · cases heq
      simp [TMap.find]
    · have hlt : j < k := habove _ hmem
      simp [TMap.find, Nat.ne_of_gt hlt, ih hr hmem]

/-- A context that holds a live strand of a gang. -/
def Ctx.inGang (x : Ctx) (k : Nat) : Bool := x.phase.alive && x.gang.any fun g => g.launch == k

theorem mem_gangLive {s : State} (ho : TMap.sorted s.ctxs = true) {a k : Nat} :
    a ∈ s.gangLive k ↔ (s.ctx a).inGang k = true := by
  constructor
  · intro h
    obtain ⟨⟨b, x⟩, hmem, rfl⟩ := List.mem_map.1 h
    obtain ⟨hlisted, hx⟩ := List.mem_filter.1 hmem
    rw [State.ctx, TMap.get, TMap.find_of_mem ho hlisted]
    exact hx
  · intro h
    rcases ctx_reset_or_mem s a with hreset | hlisted
    · rw [hreset] at h
      cases h
    · exact List.mem_map.2 ⟨_, List.mem_filter.2 ⟨hlisted, h⟩, rfl⟩

theorem gangLive_nodup {s : State} (ho : TMap.sorted s.ctxs = true) (k : Nat) : (s.gangLive k).Nodup :=
  TMap.nodup_of_sorted (TMap.sorted_filter _ ho)

/-! ### What the commit does to a strand -/

/-- A strand's part in a gang once the step has closed: its next step begins at the next instruction. -/
def Ctx.stepped (x : Ctx) : Ctx :=
  { x with
    gang := x.gang.map fun g =>
      { g with
        step := g.step + 1, arrived := false
        checkpoint := { x.r with pc := x.r.pc + (if x.irExt.isSome then 16 else 8) }
        err := { addr := x.errAddr, ovf := x.ovf, stale := x.stale } } }

/-- The state once a strand of a gang has gone on from its STEP. -/
def State.passes (s : State) (a : Nat) : State :=
  ((Upd.ctx a (s.ctx a).stepped).apply s).wakes a (some .stepped)

theorem passes_frame (s : State) (a : Nat) :
    s.passes a = { s with ctxs := (s.passes a).ctxs, cores := (s.passes a).cores } :=
  wakes_frame _ _ _

theorem passes_trace (s : State) (a n : Nat) : ((s.passes a).core n).trace = (s.core n).trace :=
  (stirs_wakes _ a _).trace n

/-- A strand that runs goes on running, with the answer. -/
theorem passes_ctx {s : State} {a : Nat} (h : (s.ctx a).phase = .running) :
    (s.passes a).ctx a = (s.ctx a).stepped.woken (some .stepped) := by
  have hwoken : { (s.ctx a).stepped.woken (some .stepped) with phase := .running } =
      (s.ctx a).stepped.woken (some .stepped) := by
    simp [Ctx.woken, Ctx.stepped, h]
  rcases wakes_ctx ((Upd.ctx a (s.ctx a).stepped).apply s) a (some .stepped) with e | e <;>
    rw [ctx_upd_same] at e
  · exact e
  · exact e.trans hwoken

/-- Another strand that runs is as it was. -/
theorem passes_ctx_ne {s : State} {a b : Nat} (hb : b ≠ a) (h : (s.ctx b).phase = .running) :
    (s.passes a).ctx b = s.ctx b := by
  have hsame : { s.ctx b with phase := .running } = s.ctx b := by rw [← h]
  rcases wakes_ctx_ne ((Upd.ctx a (s.ctx a).stepped).apply s) (some .stepped) hb with e | e <;>
    rw [ctx_upd_ne _ _ hb] at e
  · exact e
  · exact e.trans hsame

/-- What the turns of the commit over the strands in a list do, as a running strand sees it. -/
structure State.Passes (c : Nat) (done : List Nat) (s t : State) : Prop where
  frame : t = { s with ctxs := t.ctxs, cores := t.cores }
  trace : ∀ n, (t.core n).trace = (s.core n).trace
  self : done.Nodup → t.ctx c = if c ∈ done then (s.ctx c).stepped.woken (some .stepped) else s.ctx c

theorem State.Passes.cons {c a : Nat} {done : List Nat} {s t : State} (hrun : (s.ctx c).phase = .running)
    (h : s.Passes c done t) : s.Passes c (a :: done) (t.passes a) where
  frame := by rw [passes_frame, h.frame]
  trace n := (passes_trace t a n).trans (h.trace n)
  self hnodup := by
    obtain ⟨ha, hdone⟩ := List.nodup_cons.1 hnodup
    have hself := h.self hdone
    have hphase : (t.ctx c).phase = .running := by
      rw [hself]
      split
      · exact (if_neg (by rw [show (s.ctx c).stepped.phase = _ from hrun]; exact Phase.noConfusion)).trans hrun
      · exact hrun
    by_cases hc : c = a
    · subst hc
      rw [passes_ctx hphase, hself, if_neg ha, if_pos List.mem_cons_self]
    · rw [passes_ctx_ne hc hphase, hself]
      simp [hc]

/-- Every strand of the gang goes on. -/
theorem run_passAll {σ : At s0} {c : Nat} {l : List Nat} (hl : l.Nodup) (hc : c ∈ l)
    (hrun : (σ.val.ctx c).phase = .running) :
    ∃ τ, (forIn l PUnit.unit fun a _ => do
        modCtx a Ctx.stepped
        wakeCtx a (some .stepped)
        pure (ForInStep.yield PUnit.unit) : M s0 PUnit) σ = .ok ⟨⟩ τ ∧
      σ.val.Passes c l τ.val := by
  obtain ⟨τ, hτ, h⟩ := run_forIn_invariant (s0 := s0) (P := fun done t => σ.val.Passes c done t)
    (f := fun a _ => do
      modCtx a Ctx.stepped
      wakeCtx a (some .stepped)
      pure (.yield ⟨⟩)) l
    (fun done a _ ρ h => by
      obtain ⟨π, hπ, eπ⟩ := run_wakeCtx a (some .stepped) (ρ.upd (.ctx a (ρ.val.ctx a).stepped))
      refine ⟨π, (run_bind_ok (run_modCtx _ _ ρ)).trans (run_bind_ok hπ), ?_⟩
      rw [eπ]
      exact h.cons hrun)
    [] σ ⟨rfl, fun _ => rfl, fun _ => by simp⟩
  rw [List.append_nil] at h
  refine ⟨τ, hτ, h.frame, h.trace, fun _ => ?_⟩
  rw [h.self (List.nodup_reverse.2 hl), if_pos (List.mem_reverse.2 hc), if_pos hc]

/-! ### The commit of a step that has nothing to apply -/

/-- Between two states the ingress units and held adds settle as well. -/
structure State.Closes (s t : State) : Prop where
  frame : t = { s.performed t with held := t.held, glaze := t.glaze, eop := t.eop }

theorem closes_chains : Chains State.Closes where
  refl _ := ⟨rfl⟩
  trans {s t u} h h' := ⟨by rw [h'.frame, h.frame]; rfl⟩

theorem State.Performs.closes {s t : State} (h : s.Performs t) : s.Closes t := ⟨by rw [h.frame]; rfl⟩

/-- Of a gang whose routes no record has named, ingress units write nothing. -/
theorem run_routeStep {σ : At s0} {k : Nat} {l : Launch} (hl : TMap.find σ.val.launches k = some l)
    (hroutes : ∀ r ∈ l.routes, r.used = false) : ∃ τ, routeStep k σ = .ok () τ ∧ σ.val.Closes τ.val := by
  have hnone : l.routes.filter (·.used) = [] := List.filter_eq_nil_iff.2 fun r hr => by simp [hroutes r hr]
  let ρ := σ.upd (.eop (2 ^ 39) (ingressOp k))
  obtain ⟨_, π, hπ, hshow⟩ := goes_showEngines (fun e => e.op == ingressOp k) ρ
  obtain ⟨_, υ, hυ, hdrain⟩ := goes_drainEngineFar (fun p => p.op == ingressOp k) π
  refine ⟨υ.upd (.glaze { υ.val.glaze with tokens := υ.val.glaze.tokens.filter fun p => p.2.launch != k }), ?_, ?_⟩
  · unfold routeStep
    rw [run_bind_ok (run_st σ)]
    simp only [hl, hnone]
    exact (run_bind_ok (run_upd _ σ)).trans
      ((run_bind_ok hπ).trans ((run_bind_ok hυ).trans (run_bind_ok (run_st υ))))
  · have hρ : σ.val.Closes ρ.val := ⟨rfl⟩
    have hυ : σ.val.Closes υ.val :=
      closes_chains.trans hρ (closes_chains.trans hshow.toPerforms.closes hdrain.toPerforms.closes)
    exact closes_chains.trans hυ ⟨rfl⟩

/-- A launch whose step has closed. -/
def Launch.stepped (l : Launch) : Launch :=
  { l with journal := [], unrepeatable := false, step := l.step + 1, rollbacks := 0, ended := [] }

theorem routesClosed_of_unused {l : Launch} (h : ∀ r ∈ l.routes, r.used = false) : l.routesClosed = l := by
  have hsame : l.routes.map (fun r => { r with used := false }) = l.routes := by
    refine (List.map_congr_left fun r hr => ?_).trans (List.map_id _)
    rw [← h r hr]
    rfl
  rw [Launch.routesClosed, hsame]

/-- What a commit leaves that has no adds and no records to apply, as a running strand of the gang sees it. -/
structure State.Commits (k c : Nat) (l : Launch) (s t : State) : Prop where
  frame : t = { s.performed t with
    held := t.held, glaze := t.glaze, eop := t.eop, launches := t.launches, ctxs := t.ctxs, cores := t.cores }
  trace : ∀ n, (t.core n).trace = (s.core n).trace
  self : t.ctx c = (s.ctx c).stepped.woken (some .stepped)
  launch : TMap.find t.launches k = some l.stepped

theorem run_gangCommit {σ : At s0} {k c : Nat} {l : Launch} (ho : TMap.sorted σ.val.ctxs = true)
    (hl : TMap.find σ.val.launches k = some l) (hroutes : ∀ r ∈ l.routes, r.used = false)
    (hheld : ∀ h ∈ σ.val.held, h.launch ≠ k) (hc : c ∈ σ.val.gangLive k) (hrun : (σ.val.ctx c).phase = .running) :
    ∃ τ, gangCommit k σ = .ok () τ ∧ σ.val.Commits k c l τ.val := by
  have hnone : σ.val.held.filter (fun h => h.launch == k) = [] :=
    List.filter_eq_nil_iff.2 fun h hh => by simp [hheld h hh]
  let ρ := σ.upd (.held (σ.val.held.filter fun h => h.launch != k))
  obtain ⟨π, hπ, hclose⟩ := run_routeStep (σ := ρ) (k := k) hl hroutes
  have hπl : TMap.find π.val.launches k = some l := by
    rw [hclose.frame]
    exact hl
  let υ := π.upd (.launch k l.stepped)
  have hυctxs : υ.val.ctxs = σ.val.ctxs := by
    rw [At.upd_val, hclose.frame]
    rfl
  have hυctx : υ.val.ctx c = σ.val.ctx c := by rw [State.ctx, hυctxs]; rfl
  have hυlive : υ.val.gangLive k = σ.val.gangLive k := by rw [State.gangLive, hυctxs]; rfl
  obtain ⟨τ, hτ, hpass⟩ := run_passAll (σ := υ) (c := c) (l := υ.val.gangLive k)
    (by rw [hυlive]; exact gangLive_nodup ho k) (by rw [hυlive]; exact hc) (by rw [hυctx]; exact hrun)
  refine ⟨τ, ?_, ?_, fun n => (hpass.trace n).trans ?_, ?_, ?_⟩
  · unfold gangCommit
    rw [run_bind_ok (run_st σ)]
    simp only [hnone, List.foldl_nil, List.forIn_nil]
    refine (run_bind_ok (run_upd _ σ)).trans ((run_bind_ok (run_pure PUnit.unit ρ)).trans ?_)
    rw [run_bind_ok hπ, run_bind_ok (run_st π)]
    simp only [hπl, routesClosed_of_unused hroutes]
    exact (run_bind_ok (run_upd _ π)).trans ((run_bind_ok (run_st υ)).trans (run_bind_ok hτ))
  · rw [hpass.frame, At.upd_val, hclose.frame]
    rfl
  · rw [At.upd_val, hclose.frame]
    rfl
  · rw [hpass.self (by rw [hυlive]; exact gangLive_nodup ho k), if_pos (by rw [hυlive]; exact hc), hυctx]
  · rw [hpass.frame]
    exact TMap.find_put_same _ _ _

/-! ### Who has arrived -/

/-- What makes a step of a gang close but for its strands: all of them have been placed, and nothing is on its way. -/
structure State.Placed (s : State) (k : Nat) (l : Launch) : Prop where
  launch : TMap.find s.launches k = some l
  dies : l.perDie.length = 8
  todo : ∀ p ∈ l.perDie, p.2.todo = []
  roll : l.rollDue = false
  tokens : ∀ p ∈ s.glaze.tokens, p.2.launch ≠ k

theorem gangArrived_eq {s : State} {k : Nat} {l : Launch} (h : s.Placed k l) :
    s.gangArrived k = (s.gangLive k).all fun a => (s.ctx a).gang.any (·.arrived) := by
  obtain ⟨hl, hdies, htodo, hroll, htokens⟩ := h
  have hempty : (l.perDie.all fun p => p.2.todo.isEmpty) = true := List.all_eq_true.2 fun p hp => by simp [htodo p hp]
  have hfree : (s.glaze.tokens.all fun p => p.2.launch != k || p.2.staged) = true :=
    List.all_eq_true.2 fun p hp => by simp [htokens p hp]
  unfold State.gangArrived
  rw [hl]
  simp only [hdies, hempty, hroll, hfree]
  simp

/-- A gang of which a strand has not arrived goes on waiting. -/
theorem run_gangCheck_waits {σ : At s0} {k : Nat} (h : σ.val.gangArrived k = false) : gangCheck k σ = .ok () σ := by
  unfold gangCheck
  rw [run_bind_ok (run_st σ), h]
  rfl

theorem run_gangCheck_commits {σ : At s0} {k a : Nat} (h : σ.val.gangArrived k = true) (ha : a ∈ σ.val.gangLive k) :
    gangCheck k σ = gangCommit k σ := by
  have hlive : (σ.val.gangLive k).isEmpty = false := List.isEmpty_eq_false_iff.2 (List.ne_nil_of_mem ha)
  unfold gangCheck
  rw [run_bind_ok (run_st σ), h, hlive]
  rfl

end Sys2Proof.Machine
end

section
/-! STEP (R78, R295, R465, R466). -/

namespace Sys2Proof.Machine

variable {s0 : State} {α : Type}

/-- What a strand waits for at its STEP. -/
def stepWait : Wait := { kind := .step, watches := [], all := false, deadline := none }

/-- The context whose strand has come to its STEP. -/
def Ctx.arrives (x : Ctx) : Ctx := { x with gang := x.gang.map fun g => { g with arrived := true } }

/-- What STEP does once the strand has arrived: the last one's commit lets it go on. -/
def afterArrival (k : Nat) : M s0 Fin := do
  gangCheck k
  let c ← myCtx
  if c.prog.ans == some .stepped then
    acquire .system
    return .next
  else stop (.wait stepWait)

/-- A strand of a gang that comes to its STEP for the first time, with its stores checked and no pending error. -/
structure State.AtStep (s : State) (g : GangMember) : Prop where
  gang : (s.ctx s.cur).gang = some g
  arrived : g.arrived = false
  lines : (s.ctx s.cur).lines = []
  pend : (s.ctx s.cur).pend = []
  ans : (s.ctx s.cur).prog.ans = none

/-- Such a strand comes down to its engine operations. -/
theorem run_stepBody {σ : At s0} {g : GangMember} (h : σ.val.AtStep g) :
    stepBody σ = (do
      if σ.val.engineBusy true fun b => σ.val.ofCtx σ.val.cur b then stop (.wait stepWait)
      else
        showEngines fun e => e.owner == σ.val.cur
        drainEngineFar fun p => p.owner == σ.val.cur
        release .system
        modMe Ctx.arrives
        afterArrival g.launch) σ := by
  obtain ⟨hgang, harrived, hlines, hpend, hans⟩ := h
  have hreported : (σ.val.ctx σ.val.cur).reported.head? = none := by
    unfold Ctx.reported
    rw [hpend]
    split <;> rfl
  unfold stepBody
  rw [run_bind_ok (run_myCtx σ)]
  simp only [hgang, hans, harrived, hlines]
  refine Eq.trans (b := stepArrive g.launch σ) rfl ?_
  unfold stepArrive
  rw [run_bind_ok (run_myCtx σ), run_bind_ok (run_st σ), hpend]
  simp only [List.any_nil, hreported]
  rfl

theorem run_stepBody_busy {σ : At s0} {g : GangMember} (h : σ.val.AtStep g)
    (hbusy : (σ.val.engineBusy true fun b => σ.val.ofCtx σ.val.cur b) = true) :
    stepBody σ = .error (.wait stepWait) σ :=
  (run_stepBody h).trans ((congrFun (if_pos hbusy) σ).trans (run_stop _ _))

/-- The strand has arrived: of contexts its own alone has changed, and what it releases is performed. -/
structure State.Arrives (g : GangMember) (s t : State) : Prop where
  frame : t = { s.performed t with ctxs := t.ctxs }
  self : t.ctx s.cur = { s.ctx s.cur with gang := some { g with arrived := true } }
  other : ∀ b, b ≠ s.cur → t.ctx b = s.ctx b
  sorted : TMap.sorted s.ctxs = true → TMap.sorted t.ctxs = true

theorem run_stepBody_arrives {σ : At s0} {g : GangMember} (h : σ.val.AtStep g) (hfar : (σ.val.ctx σ.val.cur).farw = [])
    (hbusy : (σ.val.engineBusy true fun b => σ.val.ofCtx σ.val.cur b) = false) :
    ∃ τ, stepBody σ = afterArrival g.launch τ ∧ σ.val.Arrives g τ.val := by
  have hc := releases_chains σ.val.cur
  obtain ⟨_, ρ, hρ, hshow⟩ := goes_showEngines (fun e => e.owner == σ.val.cur) σ
  obtain ⟨_, π, hπ, hdrain⟩ := goes_drainEngineFar (fun p => p.owner == σ.val.cur) ρ
  have hbefore : σ.val.Releases σ.val.cur π.val := hc.trans (hshow.releases _) (hdrain.releases _)
  have hcur : π.val.cur = σ.val.cur := by rw [hbefore.frame]; rfl
  obtain ⟨υ, hυ, hrelease⟩ := run_release (σ := π) .system (by rw [hcur, hbefore.ctx]; exact h.lines)
    (by rw [hcur, hbefore.ctx]; exact hfar)
  rw [hcur] at hrelease
  have hrel : σ.val.Releases σ.val.cur υ.val := hc.trans hbefore hrelease
  have hυcur : υ.val.cur = σ.val.cur := by rw [hrel.frame]; rfl
  let τ := υ.upd (.ctx υ.val.cur (υ.val.ctx υ.val.cur).arrives)
  refine ⟨τ, ?_, ?_, ?_, fun b hb => ?_, fun hs => ?_⟩
  · refine (run_stepBody h).trans ((congrFun (if_neg (ne_true_of_eq_false hbusy)) σ).trans ?_)
    exact (run_bind_ok hρ).trans ((run_bind_ok hπ).trans ((run_bind_ok hυ).trans (run_bind_ok (run_modMe _ υ))))
  · rw [At.upd_val, hrel.frame]
    rfl
  · rw [At.upd_val, hυcur, ctx_upd_same, hrel.ctx, Ctx.arrives, h.gang]
    rfl
  · rw [At.upd_val, hυcur, ctx_upd_ne _ _ hb, hrel.ctx]
  · refine TMap.sorted_put ?_
    rcases hrel.ctxs with e | e <;> rw [e]
    · exact hs
    · exact TMap.sorted_put hs

theorem State.Arrives.cur {g : GangMember} {s t : State} (h : s.Arrives g t) : t.cur = s.cur := by
  rw [h.frame]
  rfl

/-- An arrival leaves every strand in its gang. -/
theorem State.Arrives.mem_gangLive {g : GangMember} {s t : State} (h : s.Arrives g t)
    (hs : TMap.sorted s.ctxs = true) (hg : (s.ctx s.cur).gang = some g) (k a : Nat) :
    a ∈ t.gangLive k ↔ a ∈ s.gangLive k := by
  rw [Machine.mem_gangLive (h.sorted hs), Machine.mem_gangLive hs]
  by_cases ha : a = s.cur
  · subst ha
    rw [h.self, Ctx.inGang, Ctx.inGang, hg]
    rfl
  · rw [h.other a ha]

/-- A strand that is not the last of its gang stops to wait. -/
theorem run_afterArrival_waits {σ : At s0} {k : Nat} (h : σ.val.gangArrived k = false)
    (hans : (σ.val.ctx σ.val.cur).prog.ans = none) : afterArrival k σ = .error (.wait stepWait) σ := by
  unfold afterArrival
  rw [run_bind_ok (run_gangCheck_waits h), run_bind_ok (run_myCtx σ), hans]
  rfl

/-- The last strand of its gang commits the step and goes on. -/
theorem run_afterArrival_commits {σ : At s0} {k : Nat} {l : Launch} (h : σ.val.gangArrived k = true)
    (ho : TMap.sorted σ.val.ctxs = true) (hl : TMap.find σ.val.launches k = some l) (hroutes : ∀ r ∈ l.routes, r.used = false)
    (hheld : ∀ h ∈ σ.val.held, h.launch ≠ k) (hc : σ.val.cur ∈ σ.val.gangLive k)
    (hrun : (σ.val.ctx σ.val.cur).phase = .running) :
    ∃ τ, afterArrival k σ = .ok .next τ ∧ σ.val.Commits k σ.val.cur l τ.val := by
  obtain ⟨ρ, hρ, hcommit⟩ := run_gangCommit ho hl hroutes hheld hc hrun
  obtain ⟨_, τ, hτ, hacquire⟩ := goes_acquire .system ρ
  have hcur : ρ.val.cur = σ.val.cur := by rw [hcommit.frame]; rfl
  have hans : ((ρ.val.ctx ρ.val.cur).prog.ans == some .stepped) = true := by
    rw [hcur, hcommit.self]
    rfl
  have hframe := hacquire.frame
  refine ⟨τ, ?_, ?_, fun n => ?_, ?_, ?_⟩
  · unfold afterArrival
    rw [run_bind_ok ((run_gangCheck_commits h hc).trans hρ), run_bind_ok (run_myCtx ρ)]
    refine (congrFun (if_pos hans) ρ).trans ((run_bind_ok hτ).trans (run_pure _ _))
  · rw [hframe, hcommit.frame]
    rfl
  · rw [hframe]
    exact hcommit.trace n
  · rw [hacquire.ctx]
    exact hcommit.self
  · rw [hframe]
    exact hcommit.launch

/-! ### The steps of STEP -/

theorem run_stepPre {σ : At s0} {g : GangMember} (hg : (σ.val.ctx σ.val.cur).gang = some g) (hc : coreOf σ.val.cur < 1536) :
    (do let c ← myCtx; let n ← myCore; legal (c.gang.isSome && !isEasel n) : M s0 Unit) σ = .ok () σ := by
  rw [run_bind_ok (run_myCtx σ), run_bind_ok (run_myCore σ)]
  exact run_legal (by simp [hg, isEasel, hc]) σ

theorem run_stepPre_illegal {σ : At s0} (h : (σ.val.ctx σ.val.cur).gang = none ∨ 1536 ≤ coreOf σ.val.cur) :
    (do let c ← myCtx; let n ← myCore; legal (c.gang.isSome && !isEasel n) : M s0 Unit) σ =
      .error (.trap .illegal (σ.val.ctx σ.val.cur).ir false false) σ := by
  rw [run_bind_ok (run_myCtx σ), run_bind_ok (run_myCore σ)]
  refine run_legal_false ?_ σ
  rcases h with h | h
  · rw [h]; rfl
  · simp [isEasel, h]

/-- The step of a strand whose body goes on at the next instruction, and leaves its registers. -/
theorem strandStepE_next {s : State} {sy : Sync} {pre : M s Unit} {early : M s α} {body : α → M s Fin} {σ : At s}
    (hq : s.Quiet sy) (hpre : pre ⟨s, .refl⟩ = .ok () ⟨s, .refl⟩)
    (hwholly : wholly sy false early body ⟨s, .refl⟩ = .ok (.ok .next) σ) (hcur : σ.val.cur = s.cur)
    (hfwd : σ.val.fwd = none) (ht : (σ.val.core (coreOf s.cur)).trace = .none) (hregs : σ.val.regs = s.regs)
    (hlease : (σ.val.ctx s.cur).prog.lease = none) (hhanded : (σ.val.ctx s.cur).prog.handed = false) :
    ∃ cores, strandStepE s sy false false pre early body =
      .next (State.retireAs { σ.val with cores := cores } { s.regs with pc := nextPc s.regs.pc sy } false) := by
  have hfollow : σ.val.isFollower (coreOf σ.val.cur) = false := by rw [State.isFollower, hcur, ht]; rfl
  have hnext : σ.val.nextAddr sy = nextPc s.regs.pc sy := by
    unfold State.nextAddr
    rw [hfwd, hregs]
  obtain ⟨τ, cores, hτ, eτ, -, -⟩ := run_forward σ.val.regs.pc (σ.val.nextAddr sy) σ
  have hcomplete := run_complete_next (sy := sy) (old := s.before) hq.2.1 (by rw [hcur]; exact hlease)
    (by rw [hcur]; exact hhanded) ((congrFun (if_neg (ne_true_of_eq_false hfollow)) σ).trans hτ)
  have hτregs : τ.val.regs = s.regs := by
    rw [eτ]
    exact hregs
  rw [hnext, hτregs] at hcomplete
  refine ⟨cores, (strandStepE_ok ((hq.2.2.fresh.issue_done ((run_frontChecks hq.1 hq.2.1).trans hpre) hwholly).trans
    hcomplete)).trans ?_⟩
  rw [At.retireAs_val, eτ]

/-- A STEP whose engine operations are not complete waits. -/
theorem step_waits_engines {sy : Sync} {s : State} {g : GangMember} (hq : s.Quiet sy) (hc : coreOf s.cur < 1536)
    (h : s.AtStep g) (hbusy : (s.engineBusy true fun b => s.ofCtx s.cur b) = true) :
    ∃ t : State, exec (.step sy) s = .next t ∧ t.regs = s.regs ∧ (t.ctx s.cur).phase = .waiting ∧
      ((t.ctx s.cur).wait.map (·.kind)) = some .step ∧ (t.ctx s.cur).gang = some g ∧ t.launches = s.launches ∧
      t.mem = s.mem ∧ t.ls = s.ls := by
  obtain ⟨t, ws, ctxs, cores, q, ht, et, hctx, -⟩ := strandStep_waits hq (run_stepPre (σ := (⟨s, .refl⟩ : At s)) h.gang hc)
    (run_stepBody_busy (σ := (⟨s, .refl⟩ : At s)) h hbusy) rfl rfl rfl hq.2.2.2.2.2.2.2.2.2
  refine ⟨t, ht, ?_, by rw [hctx]; rfl, by rw [hctx]; rfl, by rw [hctx]; exact h.gang, by rw [et], by rw [et], by rw [et]⟩
  rw [State.regs, show t.cur = s.cur by rw [et], hctx]
  rfl

/-- A strand that is not the last of its gang to arrive waits at its STEP. -/
theorem step_waits_gang {sy : Sync} {s : State} {g : GangMember} {l : Launch} {a : Nat} (hq : s.Quiet sy)
    (hc : coreOf s.cur < 1536) (h : s.AtStep g) (hfar : (s.ctx s.cur).farw = [])
    (hbusy : (s.engineBusy true fun b => s.ofCtx s.cur b) = false) (hplaced : s.Placed g.launch l) (ho : s.Ordered)
    (ha : a ∈ s.gangLive g.launch) (hne : a ≠ s.cur) (hlate : ∀ h, (s.ctx a).gang = some h → h.arrived = false) :
    ∃ t : State, exec (.step sy) s = .next t ∧ t.regs = s.regs ∧ (t.ctx s.cur).phase = .waiting ∧
      (t.ctx s.cur).gang = some { g with arrived := true } ∧ t.launches = s.launches ∧ t.mem = s.mem ∧ t.ls = s.ls := by
  obtain ⟨σ, hσ, harr⟩ := run_stepBody_arrives (σ := (⟨s, .refl⟩ : At s)) h hfar hbusy
  have hplaced' : σ.val.Placed g.launch l := by
    obtain ⟨hl, hdies, htodo, hroll, htokens⟩ := hplaced
    refine ⟨?_, hdies, htodo, hroll, ?_⟩ <;> rw [harr.frame] <;> assumption
  have harrived : σ.val.gangArrived g.launch = false := by
    rw [gangArrived_eq hplaced']
    refine List.all_eq_false.2 ⟨a, (harr.mem_gangLive ho.1 h.gang _ a).2 ha, ?_⟩
    rw [harr.other a hne]
    cases hg : (s.ctx a).gang with
    | none => simp
    | some m => simp [hlate m hg]
  have hans : (σ.val.ctx σ.val.cur).prog.ans = none := by
    rw [harr.cur, harr.self]
    exact h.ans
  obtain ⟨t, ws, ctxs, cores, q, ht, et, hctx, -⟩ := strandStep_waits hq (run_stepPre (σ := (⟨s, .refl⟩ : At s)) h.gang hc)
    (hσ.trans (run_afterArrival_waits harrived hans)) rfl harr.cur (by rw [harr.frame]; rfl)
    (by rw [harr.self]; exact hq.2.2.2.2.2.2.2.2.2)
  rw [harr.self] at hctx
  refine ⟨t, ht, ?_, by rw [hctx]; rfl, by rw [hctx]; rfl, ?_, ?_, ?_⟩
  · rw [State.regs, show t.cur = s.cur by rw [et]; exact harr.cur, hctx]
    rfl
  all_goals rw [et, harr.frame]; rfl

/-- The last strand of its gang to arrive closes the step. -/
theorem step_commits {sy : Sync} {s : State} {g : GangMember} {l : Launch} (hq : s.Quiet sy) (hc : coreOf s.cur < 1536)
    (h : s.AtStep g) (hrun : (s.ctx s.cur).phase = .running) (hfar : (s.ctx s.cur).farw = [])
    (hbusy : (s.engineBusy true fun b => s.ofCtx s.cur b) = false) (hplaced : s.Placed g.launch l)
    (hroutes : ∀ r ∈ l.routes, r.used = false) (hheld : ∀ h ∈ s.held, h.launch ≠ g.launch)
    (hlive : s.cur ∈ s.gangLive g.launch) (ho : s.Ordered)
    (hlast : ∀ a ∈ s.gangLive g.launch, a ≠ s.cur → ∃ h, (s.ctx a).gang = some h ∧ h.arrived = true) :
    ∃ t : State, exec (.step sy) s = .next t ∧ t.regs = { s.regs with pc := nextPc s.regs.pc sy } ∧
      TMap.find t.launches g.launch = some l.stepped ∧
      (t.ctx s.cur).gang =
        some { g with
          step := g.step + 1, arrived := false
          checkpoint := { s.regs with pc := s.regs.pc + (if (s.ctx s.cur).irExt.isSome then 16 else 8) }
          err := { addr := (s.ctx s.cur).errAddr, ovf := (s.ctx s.cur).ovf, stale := (s.ctx s.cur).stale } } ∧
      t.mem = s.mem ∧ t.ls = s.ls ∧ t.cells = s.cells := by
  obtain ⟨σ, hσ, harr⟩ := run_stepBody_arrives (σ := (⟨s, .refl⟩ : At s)) h hfar hbusy
  have hplaced' : σ.val.Placed g.launch l := by
    obtain ⟨hl, hdies, htodo, hroll, htokens⟩ := hplaced
    refine ⟨?_, hdies, htodo, hroll, ?_⟩ <;> rw [harr.frame] <;> assumption
  have harrived : σ.val.gangArrived g.launch = true := by
    rw [gangArrived_eq hplaced']
    refine List.all_eq_true.2 fun a ha => ?_
    by_cases hcur : a = s.cur
    · rw [hcur, harr.self]
      rfl
    · obtain ⟨m, hm, hat⟩ := hlast a ((harr.mem_gangLive ho.1 h.gang _ a).1 ha) hcur
      rw [harr.other a hcur, hm]
      exact hat
  obtain ⟨τ, hτ, hcommit⟩ := run_afterArrival_commits (k := g.launch) (l := l) harrived (harr.sorted ho.1) hplaced'.launch
    hroutes (by rw [harr.frame]; exact hheld) (by rw [harr.cur, harr.mem_gangLive ho.1 h.gang]; exact hlive)
    (by rw [harr.cur, harr.self]; exact hrun)
  have hself := hcommit.self
  rw [harr.cur, harr.self] at hself
  have hcur : τ.val.cur = s.cur := by
    rw [hcommit.frame, ← harr.cur]
    rfl
  obtain ⟨hf, ht, -, -, -, -, hp, -⟩ := hq.2.2
  obtain ⟨cores, hstep⟩ := strandStepE_next hq (run_stepPre (σ := (⟨s, .refl⟩ : At s)) h.gang hc)
    (run_wholly hq.1 hq.2.1 hq.2.2.fresh.replay (run_attempt_ok (hσ.trans hτ))) hcur
    (by rw [hcommit.frame, harr.frame]; exact hf) (by rw [hcommit.trace, harr.frame]; exact ht)
    (by rw [State.regs, hcur, hself]; rfl) (by rw [hself]; exact congrArg Progress.lease hp)
    (by rw [hself]; exact congrArg Progress.handed hp)
  refine ⟨_, hstep, retireAs_regs _ _ _, hcommit.launch, ?_, ?_, ?_, ?_⟩
  · have hctx := ctx_upd_same { τ.val with cores := cores } τ.val.cur
      { τ.val.ctx τ.val.cur with
        r := { s.regs with pc := nextPc s.regs.pc sy }, prog := Progress.none, straight := false }
    rw [← hcur]
    refine (congrArg Ctx.gang hctx).trans ?_
    rw [hcur, hself]
    rfl
  all_goals
    refine Eq.trans (b := _) rfl ?_
    rw [hcommit.frame, harr.frame]
    rfl

/-- Settles O33, by the cases of a strand that may not, one whose operations run, the last of its gang, and one of the others. -/
theorem stepResult : Obligations.StepResult := by
  unfold Obligations.StepResult
  intro sy s hq
  dsimp only
  have hans : (s.ctx s.cur).prog.ans = none := by rw [hq.2.2.2.2.2.2.2.2.1]; rfl
  refine ⟨fun h hm => strandStep_pre_trap hq hm (run_stepPre_illegal h) rfl,
    fun g hc hg ha hlines hpend hbusy => step_waits_engines hq hc ⟨hg, ha, hlines, hpend, hans⟩ hbusy,
    fun g l hc hg ha hrun hlines hfar hpend hl hroll hbusy hdies htodo hroutes hheld htokens hlive ho =>
      ⟨fun hlast => ?_, fun a hin hne hlate => ?_⟩⟩
  · exact step_commits hq hc ⟨hg, ha, hlines, hpend, hans⟩ hrun hfar hbusy ⟨hl, hdies, htodo, hroll, htokens⟩ hroutes hheld
      hlive ho hlast
  · exact step_waits_gang hq hc ⟨hg, ha, hlines, hpend, hans⟩ hfar hbusy ⟨hl, hdies, htodo, hroll, htokens⟩ ho hin hne hlate

end Sys2Proof.Machine
end

section
/-! How an access of a strand finds its page and its bytes in near memory (R138 to R149, R159, R175). -/

namespace Sys2Proof.Machine

variable {s0 : State} {α : Type}

/-! ### Addresses of one page -/

theorem toNat_add_wordOf {va : Word} {k : Nat} (h : va.toNat % 65536 + k < 65536) :
    (va + wordOf k).toNat = va.toNat + k := by
  have := va.isLt
  unfold wordOf
  rw [BitVec.toNat_add, BitVec.toNat_ofNat]
  omega

theorem field_page {va : Word} {k : Nat} (h : va.toNat % 65536 + k < 65536) :
    field (va + wordOf k) 16 32 = field va 16 32 := by
  unfold field
  rw [toNat_add_wordOf h]
  omega

theorem leafPa_add (e : TlbEntry) {va : Word} {k : Nat} (h : va.toNat % 65536 + k < 65536) :
    leafPa e (va + wordOf k) = leafPa e va + k := by
  unfold leafPa field
  rw [toNat_add_wordOf h]
  split <;> omega

/-- A physical address stands where its virtual address does within a line. -/
theorem leafPa_mod (e : TlbEntry) (va : Word) : leafPa e va % 65536 = va.toNat % 65536 := by
  unfold leafPa field
  split <;> omega

/-! ### What lookups leave -/

/-- Between two states translations are sampled and choices taken. -/
structure State.Samples (s t : State) : Prop where
  frame : t = { s with dies := t.dies, oracle := t.oracle }
  die : ∀ d, t.die d =
    { s.die d with mig := (t.die d).mig, migDue := (t.die d).migDue, linkDue := (t.die d).linkDue }

/-- The same, and translations enter the caches. -/
structure State.Looks (s t : State) : Prop where
  frame : t = { s with dies := t.dies, oracle := t.oracle }
  die : ∀ d, t.die d =
    { s.die d with
      tlb := (t.die d).tlb, mig := (t.die d).mig, migDue := (t.die d).migDue, linkDue := (t.die d).linkDue }

theorem samples_chains : Chains State.Samples where
  refl _ := ⟨rfl, fun _ => rfl⟩
  trans {s t u} h h' := ⟨by rw [h'.frame, h.frame], fun d => by rw [h'.die d, h.die d]⟩

theorem looks_chains : Chains State.Looks where
  refl _ := ⟨rfl, fun _ => rfl⟩
  trans {s t u} h h' := ⟨by rw [h'.frame, h.frame], fun d => by rw [h'.die d, h.die d]⟩

theorem State.Samples.looks {s t : State} (h : s.Samples t) : s.Looks t := ⟨h.frame, fun d => by rw [h.die d]⟩

theorem State.Samples.tlb {s t : State} (h : s.Samples t) (d : Nat) : (t.die d).tlb = (s.die d).tlb := by rw [h.die d]

theorem goes_choose_samples (n : Nat) : Goes (s0 := s0) State.Samples (choose n) :=
  fun σ => ⟨_, σ.upd .choose, rfl, rfl, fun _ => rfl⟩

/-- An update of one die that leaves what `Samples` leaves. -/
theorem samples_modDie {d : Nat} {f : Die → Die}
    (hf : ∀ x, f x = { x with mig := (f x).mig, migDue := (f x).migDue, linkDue := (f x).linkDue }) :
    Goes (s0 := s0) State.Samples (modDie d f) := fun σ => by
  refine ⟨_, _, run_modDie _ _ σ, rfl, fun n => ?_⟩
  rw [At.upd_val, die_of_upd]
  split
  · next h => rw [h]; exact hf _
  · rfl

theorem goes_noteDown_samples (pa : Nat) : Goes (s0 := s0) State.Samples (noteDown pa) := samples_modDie fun _ => rfl

/-- A sampled access counts in its page's entry, which may come due. -/
theorem goes_countPage (die i : Nat) (now : Mig) (due : Bool) :
    Goes (s0 := s0) State.Samples (do
      modDie die fun d => { d with mig := TMap.put d.mig i now }
      if due then modDie die fun d => { d with migDue := d.migDue ++ [i] } else pure ()) := by
  refine .bind samples_chains (samples_modDie fun _ => rfl) fun _ => ?_
  split
  · exact samples_modDie fun _ => rfl
  · exact .pure samples_chains _

theorem goes_sampleAccess (q : Req) (va : Word) (fwd : Bool) : Goes (s0 := s0) State.Samples (sampleAccess q va fwd) := by
  have hc := samples_chains
  have hsampled {m : M s0 Unit} (h : Goes State.Samples m) :
      Goes State.Samples (do let sampled ← choose 2; if sampled = 1 then m else pure () : M s0 Unit) :=
    .bind hc (goes_choose_samples _) fun i => by
      by_cases hi : i = 1
      · rw [if_pos hi]; exact h
      · rw [if_neg hi]; exact .pure hc _
  unfold sampleAccess
  refine .bind hc (.st hc) fun s => ?_
  dsimp only
  split
  · exact hsampled (goes_countPage _ _ _ _)
  · split
    · exact hsampled (goes_countPage _ _ _ _)
    · exact .pure hc _

/-! ### The page as the die's cache holds it -/

/-- The die's cache holds a translation of the page of an address, and none but `e`. -/
structure State.Holds (s : State) (die : Nat) (asid : BitVec 16) (va : Word) (e : TlbEntry) : Prop where
  ne : s.cached die asid va ≠ []
  all : ∀ x ∈ s.cached die asid va, x = e

theorem cached_congr {s t : State} {die : Nat} (h : (t.die die).tlb = (s.die die).tlb) (asid : BitVec 16) {va vb : Word}
    (hv : field vb 16 32 = field va 16 32) : t.cached die asid vb = s.cached die asid va := by
  unfold State.cached tlbKey
  rw [h, hv]

theorem State.Holds.congr {s t : State} {die : Nat} {asid : BitVec 16} {va vb : Word} {e : TlbEntry}
    (h : s.Holds die asid va e) (ht : (t.die die).tlb = (s.die die).tlb) (hv : field vb 16 32 = field va 16 32) :
    t.Holds die asid vb e := by
  obtain ⟨hsome, hall⟩ := h
  rw [← cached_congr ht asid hv] at hsome hall
  exact ⟨hsome, hall⟩

/-- The leaf by which an address went to near memory is the one that the cache holds. -/
theorem State.Holds.leafOf {s : State} {die : Nat} {asid : BitVec 16} {va : Word} {e : TlbEntry} (h : s.Holds die asid va e)
    (hnear : leafFar e.leaf = false) : s.leafOf die asid va (leafPa e va) = some e := by
  obtain ⟨hsome, hall⟩ := h
  unfold State.leafOf
  cases hc : s.cached die asid va with
  | nil => exact absurd hc hsome
  | cons x l =>
    have hx : x = e := hall x (by rw [hc]; exact List.mem_cons_self)
    rw [List.find?_cons, hx, hnear]
    simp

theorem mem_cached {s : State} {die : Nat} {asid : BitVec 16} {va : Word} {x : TlbEntry} :
    x ∈ s.cached die asid va ↔
      x ∈ (TMap.find (s.die die).tlb (tlbKey asid va)).getD [] ∨
      ∃ p ∈ (s.die die).tlb, p.1 ≠ tlbKey asid va ∧ ∃ e ∈ p.2,
        ((p.1 / 2 ^ 32 == asid.toNat || leafG e.leaf) && decide ((e.span (p.1 % 2 ^ 32)).1 ≤ field va 16 32) &&
          decide (field va 16 32 ≤ (e.span (p.1 % 2 ^ 32)).2)) = true ∧
        e.moved (p.1 % 2 ^ 32) (field va 16 32) = x := by
  unfold State.cached
  simp only [List.mem_append, List.mem_flatMap, List.mem_filter, List.mem_map, bne_iff_ne, ne_eq, and_assoc]

/-- A die whose cache takes the entry of a page in front. -/
def Die.takesEntry (d : Die) (asid : BitVec 16) (va : Word) (e : TlbEntry) : Die :=
  { d with
    tlb := TMap.put d.tlb (tlbKey asid va) (e :: ((TMap.find d.tlb (tlbKey asid va)).getD []).filter fun x => x != e) }

theorem holds_takesEntry {s : State} {die : Nat} {asid : BitVec 16} {va : Word} {e : TlbEntry}
    (h : ∀ x ∈ s.cached die asid va, x = e) :
    ((Upd.die die ((s.die die).takesEntry asid va e)).apply s).Holds die asid va e := by
  constructor
  · refine List.ne_nil_of_mem (a := e) (mem_cached.2 (.inl ?_))
    rw [die_upd_same, Die.takesEntry, TMap.find_put_same]
    exact List.mem_cons_self
  · intro x hx
    rw [mem_cached, die_upd_same, Die.takesEntry, TMap.find_put_same] at hx
    rcases hx with hx | ⟨p, hp, hne, y, hy, hcond, rfl⟩
    · rcases List.mem_cons.1 hx with rfl | hx
      · rfl
      · exact h x (mem_cached.2 (.inl (List.mem_filter.1 hx).1))
    · rcases TMap.mem_put hp with rfl | hp
      · exact absurd rfl hne
      · exact h _ (mem_cached.2 (.inr ⟨p, hp, hne, y, hy, hcond, rfl⟩))

/-! ### The walk -/

theorem dedup_of_all_eq [DecidableEq α] {x : α} {l : List α} (h : ∀ y ∈ l, y = x) : (x :: l).dedup = [x] := by
  have hrep : x :: l = List.replicate (l.length + 1) x := by
    rw [List.replicate_succ, ← List.eq_replicate_of_mem h]
  rw [hrep, List.replicate_dedup (Nat.succ_ne_zero _)]

/-- A walk whose answer nothing leaves open finds the page as it stands, and the cache holds it. -/
theorem run_walkM {σ : At s0} {die : Nat} {asid : BitVec 16} {va : Word}
    (hgroup : σ.val.contOthers die asid va (σ.val.walk die asid va) = [])
    (hcached : ∀ x ∈ σ.val.cached die asid va, x = σ.val.walk die asid va) :
    ∃ τ, walkM die asid va σ = .ok (σ.val.walk die asid va) τ ∧ σ.val.Looks τ.val ∧
      τ.val.Holds die asid va (σ.val.walk die asid va) := by
  let e := σ.val.walk die asid va
  have hone : σ.val.translations die asid va = [e] := by
    unfold State.translations
    dsimp only
    rw [hgroup, List.nil_append]
    exact dedup_of_all_eq hcached
  have hnotes : Goes (s0 := s0) State.Samples (forIn (σ.val.walkPas die asid va) PUnit.unit fun pa _ => do
      if σ.val.inModule pa && !σ.val.linkUp pa then
        noteDown pa
        pure (ForInStep.yield PUnit.unit)
      else pure (ForInStep.yield PUnit.unit)) := by
    have hc := samples_chains
    refine .forIn hc _ fun pa _ => ?_
    split
    · exact .bind hc (goes_noteDown_samples pa) fun _ => .go hc
    · exact .go hc
  obtain ⟨_, ρ, hρ, hsample⟩ := hnotes σ
  let τ := ρ.upd (.die die ((ρ.val.die die).takesEntry asid va e))
  refine ⟨τ, ?_, ?_, holds_takesEntry fun x hx => ?_⟩
  · unfold walkM
    rw [run_bind_ok (run_st σ)]
    refine (run_bind_ok hρ).trans ?_
    simp only [hone]
    refine (congrFun (if_pos (Nat.le_refl 1)) ρ).trans ((run_bind_ok (run_pure 0 ρ)).trans ?_)
    exact run_bind_ok (run_modDie _ _ ρ)
  · refine looks_chains.trans hsample.looks ⟨rfl, fun d => ?_⟩
    rw [At.upd_val, die_of_upd]
    split
    · next h => rw [h]; rfl
    · rfl
  · rw [cached_congr (hsample.tlb die) asid rfl] at hx
    exact hcached x hx

/-! ### The checks of an access -/

theorem State.Looks.access {s t : State} (h : s.Looks t) (d n m : Nat) : t.access d n m = s.access d n m := by
  unfold State.access
  rw [h.die d]

theorem State.Looks.link {s t : State} (h : s.Looks t) (d p : Nat) : t.link d p = s.link d p := by
  unfold State.link
  rw [h.die d]

theorem State.Looks.nodeId {s t : State} (h : s.Looks t) : t.nodeId = s.nodeId := by
  rw [State.nodeId, h.frame]
  rfl

theorem State.Looks.checkLeaf {s t : State} (h : s.Looks t) (q : Req) (k : Kind) (va : Word) (e : TlbEntry) :
    t.checkLeaf q k va e = s.checkLeaf q k va e := by
  unfold State.checkLeaf State.targetAdmits State.netAdmits State.inModule
  simp only [h.access, h.link, h.nodeId]

theorem ok_of_ite_error {c : Prop} [Decidable c] {x : Cause} {r : Except Cause Place} {p : Place}
    (h : (if c then .error x else r) = .ok p) : r = .ok p := by
  split at h
  · cases h
  · exact h

/-- A check that ends with near memory: the page's leaf is not far, and maps the address there. -/
theorem near_of_checkLeaf {s : State} {q : Req} {k : Kind} {va : Word} {e : TlbEntry} {pa : Nat}
    (h : s.checkLeaf q k va e = .ok (.phys pa)) : leafFar e.leaf = false ∧ leafPa e va = pa := by
  unfold State.checkLeaf at h
  dsimp only at h
  iterate 11 replace h := ok_of_ite_error h
  cases hfar : leafFar e.leaf with
  | true => rw [hfar] at h; cases h
  | false => rw [hfar] at h; cases h; exact ⟨rfl, rfl⟩

theorem canonical_of {va : Word} (h : va.toNat / 2 ^ 48 % 2 ^ 8 = 0) : canonical va = true := by
  unfold canonical
  rw [BitVec.extractLsb', Nat.shiftRight_eq_div_pow]
  refine beq_iff_eq.2 (BitVec.eq_of_toNat_eq ?_)
  rw [BitVec.toNat_ofNat, h]
  rfl

theorem State.Looks.poisoned {s t : State} (h : s.Looks t) (pa : Nat) : t.poisoned pa = s.poisoned pa := by
  have hbad : t.bad = s.bad := by rw [h.frame]
  unfold State.poisoned State.linkUp
  rw [h.link, hbad]

theorem State.Looks.walkWord {s t : State} (h : s.Looks t) (pa : Nat) : t.walkWord pa = s.walkWord pa := by
  have hmem : t.mem = s.mem := by rw [h.frame]
  unfold State.walkWord State.physWord State.physBytes State.physByte State.inModule
  simp only [h.link, h.poisoned, hmem]

theorem State.Looks.walk {s t : State} (h : s.Looks t) (die : Nat) (asid : BitVec 16) (va : Word) :
    t.walk die asid va = s.walk die asid va := by
  have hroot : (t.die die).rootbase = (s.die die).rootbase := by rw [h.die]
  unfold State.walk
  simp only [h.walkWord, hroot]

theorem State.Samples.translates {s t : State} (h : s.Samples t) {q : Req} {k : Kind} {va : Word} {pa : Nat}
    (ht : Expected.Translates s q k va pa) : Expected.Translates t q k va pa := by
  have hgroup (e : TlbEntry) : t.contOthers q.die q.asid va e = s.contOthers q.die q.asid va e := by
    unfold State.contOthers
    simp only [h.looks.walk]
  unfold Expected.Translates at ht ⊢
  dsimp only at ht ⊢
  rw [h.looks.walk, h.looks.nodeId, hgroup, cached_congr (h.tlb _) _ rfl, h.looks.checkLeaf]
  simp only [h.looks.poisoned]
  exact ht

/-- An access of a requester to near memory that nothing leaves open goes there. -/
theorem run_xlate {σ : At s0} {q : Req} {k : Kind} {va : Word} {pa : Nat} (h : Expected.Translates σ.val q k va pa) :
    ∃ τ, xlate q k va σ = .ok (.ok (.phys pa)) τ ∧ σ.val.Looks τ.val ∧
      τ.val.Holds q.die q.asid va (σ.val.walk q.die q.asid va) := by
  obtain ⟨hcanon, hnode, hgroup, hcached, hcheck, -, -⟩ := h
  obtain ⟨ρ, hρ, hlook, hholds⟩ := run_walkM hgroup hcached
  have hcheck' : ρ.val.checkLeaf q k va (σ.val.walk q.die q.asid va) = .ok (.phys pa) := by
    rw [hlook.checkLeaf]
    exact hcheck
  obtain ⟨_, τ, hτ, hsample⟩ := goes_sampleAccess q va (forwarded q.die (σ.val.walk q.die q.asid va)) ρ
  refine ⟨τ, ?_, looks_chains.trans hlook hsample.looks, hholds.congr (hsample.tlb _) rfl⟩
  unfold xlate
  rw [run_bind_ok (run_st σ)]
  have hhere : (vaNode va != σ.val.nodeId) = false := by rw [hnode]; exact bne_self_eq_false _
  rw [canonical_of hcanon, hhere]
  refine (run_bind_ok hρ).trans ((run_bind_ok (run_st ρ)).trans ?_)
  rw [hcheck']
  exact run_bind_ok hτ

/-! ### The line that a load may hit (R141, R143) -/

/-- A line that a cache gives for an address is under its ASID, or of a page that matches in every ASID. -/
theorem mem_of_lineIn {m : TMap L1Line} {asid : BitVec 16} {va : Word} {x : L1Line} (h : lineIn m asid va = some x) :
    ∃ k, (k, x) ∈ m ∧ (k = l1Key asid va ∨
      (k % 2 ^ 64 = (lineOf va).toNat ∧ ∃ e, x.leaf = some e ∧ leafG e.leaf = true)) := by
  unfold lineIn at h
  cases hf : TMap.find m (l1Key asid va) with
  | some y =>
    simp only [hf, Option.some.injEq] at h
    subst h
    exact ⟨_, TMap.mem_of_find hf, .inl rfl⟩
  | none =>
    simp only [hf, Option.map_eq_some_iff] at h
    obtain ⟨⟨k, y⟩, hy, rfl⟩ := h
    have hcond := List.find?_some hy
    obtain ⟨hk, hleaf⟩ := Bool.and_eq_true_iff.1 hcond
    cases he : y.leaf with
    | none => rw [he] at hleaf; cases hleaf
    | some e =>
      rw [he] at hleaf
      exact ⟨k, List.mem_of_find?_eq_some hy, .inr ⟨eq_of_beq hk, e, rfl, hleaf⟩⟩

theorem caches_of_l1Line {s : State} {core : Nat} {asid : BitVec 16} {va : Word} {x : L1Line}
    (h : s.l1Line core asid va = some x) : Expected.Caches s core asid va x := by
  obtain ⟨k, hmem, hk⟩ := mem_of_lineIn h
  exact ⟨k, .inl hmem, hk⟩

theorem caches_of_l2Line {s : State} {core : Nat} {asid : BitVec 16} {va : Word} {x : L1Line}
    (h : s.l2Line core asid va = some x) : Expected.Caches s core asid va x := by
  unfold State.l2Line at h
  by_cases he : isEasel core = true
  · rw [if_pos he] at h
    cases h
  · rw [if_neg he] at h
    obtain ⟨k, hmem, hk⟩ := mem_of_lineIn h
    exact ⟨k, .inr ⟨by simpa [isEasel] using he, hmem⟩, hk⟩

/-- What is still held is the line that was. -/
theorem run_stillHeld (x : Option L1Line) (va : Word) (n : Nat) (σ : At s0) :
    ∃ y τ, stillHeld x va n σ = .ok y τ ∧ σ.val.Samples τ.val ∧ ∀ z, y = some z → x = some z := by
  unfold stillHeld
  cases x with
  | none => exact ⟨none, σ, rfl, samples_chains.refl _, fun z hz => by cases hz⟩
  | some y =>
    by_cases h : y.valid &&& lineMask (va.toNat % 256) n = lineMask (va.toNat % 256) n
    · obtain ⟨i, τ, hτ, hs⟩ := goes_choose_samples 2 σ
      refine ⟨if i = 0 then some y else none, τ, (congrFun (if_pos h) σ).trans (run_bind_ok hτ), hs, fun z hz => ?_⟩
      split at hz
      · exact hz
      · cases hz
    · exact ⟨none, σ, congrFun (if_neg h) σ, samples_chains.refl _, fun z hz => by cases hz⟩

/-- A line that an access of an agent hits is one that the caches hold. -/
theorem run_probeCache (a : Nat) (va : Word) (n : Nat) (σ : At s0) :
    ∃ y τ, probeCache a va n σ = .ok y τ ∧ σ.val.Samples τ.val ∧
      ∀ z, y = some z → Expected.Caches σ.val (coreOf a) (σ.val.ctx a).r.asid va z.1 := by
  obtain ⟨y, ρ, hρ, hs, hy⟩ := run_stillHeld (σ.val.l1Line (coreOf a) (σ.val.ctx a).r.asid va) va n σ
  cases y with
  | some x =>
    refine ⟨some (x, false), ρ, ?_, hs, fun z hz => ?_⟩
    · unfold probeCache
      rw [run_bind_ok (run_st σ)]
      exact run_bind_ok hρ
    · cases hz
      exact caches_of_l1Line (hy x rfl)
  | none =>
    obtain ⟨y, τ, hτ, hs', hy'⟩ := run_stillHeld (σ.val.l2Line (coreOf a) (σ.val.ctx a).r.asid va) va n ρ
    refine ⟨y.map fun x => (x, true), τ, ?_, samples_chains.trans hs hs', fun z hz => ?_⟩
    · unfold probeCache
      rw [run_bind_ok (run_st σ)]
      exact (run_bind_ok hρ).trans (run_bind_ok hτ)
    · obtain ⟨x, rfl, rfl⟩ := Option.map_eq_some_iff.1 hz
      exact caches_of_l2Line (hy' x rfl)

/-! ### The check of a load -/

theorem regionOff_none {s : State} {m : Mode} (h : m = .monitor → s.primer.region = []) (va : Word) (n : Nat) :
    s.regionOff m va n = none := by
  unfold State.regionOff
  refine if_neg ?_
  cases m <;> simp [h]

/-- A load of near memory finds it, by a line that it hits or by its translation. -/
theorem run_checkElem_load {σ : At s0} {va : Word} {pa : Nat} (n : Nat) (plain : Bool)
    (h : Expected.Maps σ.val .load va pa) (hlease : (σ.val.ctx σ.val.cur).prog.lease = none) :
    ∃ x τ, checkElem va n .load plain σ = .ok (.ok x) τ ∧ x.va = va ∧ x.place = some (.phys pa) ∧ σ.val.Looks τ.val ∧
      τ.val.Holds (dieOf σ.val.cur) σ.val.regs.asid va (σ.val.walk (dieOf σ.val.cur) σ.val.regs.asid va) := by
  obtain ⟨-, hregion, htrans, -, -, hcurrent⟩ := h
  obtain ⟨hcanon, -, -, hcached, -, hconfig, -⟩ := id htrans
  have hok : configOk (.phys pa) n plain = true := by simp [configOk, hconfig]
  obtain ⟨y, ρ, hρ, hsample, hy⟩ := run_probeCache σ.val.cur va n σ
  have hno : (σ.val.ctx σ.val.cur).prog.lease.bind (fun w => w.at_.find? fun e => e.1 == va) = none := by
    rw [hlease]
    rfl
  have hoff : σ.val.regionOff (σ.val.ctx σ.val.cur).r.mode va n = none := regionOff_none hregion va n
  cases y with
  | some z =>
    obtain ⟨hplace, hne, -⟩ := hcurrent z.1 (hy z rfl)
    refine ⟨{ va := va, place := some (.phys pa), hit := !z.2, l2 := z.2 }, ρ, ?_, rfl, rfl, hsample.looks,
      State.Holds.congr ⟨hne, hcached⟩ (hsample.tlb _) rfl⟩
    unfold checkElem
    rw [run_bind_ok (run_st σ)]
    simp only [hno, hoff]
    rw [canonical_of hcanon]
    refine (run_bind_ok hρ).trans ?_
    dsimp only
    rw [hplace]
    refine (run_bind_ok (run_pure _ ρ)).trans ?_
    simp only [hok, if_true]
    rfl
  | none =>
    obtain ⟨τ, hτ, hlook, hholds⟩ := run_xlate (hsample.translates htrans)
    rw [hsample.looks.walk] at hholds
    refine ⟨{ va := va, place := some (.phys pa), hit := false, l2 := false }, τ, ?_, rfl, rfl,
      looks_chains.trans hsample.looks hlook, hholds⟩
    · unfold checkElem
      rw [run_bind_ok (run_st σ)]
      simp only [hno, hoff]
      rw [canonical_of hcanon]
      refine (run_bind_ok hρ).trans ?_
      dsimp only
      refine (run_bind_ok hτ).trans ((run_bind_ok (run_pure _ τ)).trans ?_)
      simp only [hok, if_true]
      rfl

theorem run_checkGlobal_one {σ τ : At s0} {va : Word} {n : Nat} {k : Kind} {plain : Bool} {x : Access}
    (h : checkElem va n k plain σ = .ok (.ok x) τ) : checkGlobal [va] n k plain σ = .ok [x] τ := by
  unfold checkGlobal
  simp only [List.forIn_cons, List.forIn_nil]
  refine (run_bind_ok (a := ([x], none)) (τ := τ) ?_).trans rfl
  exact (run_bind_ok ((run_bind_ok h).trans (run_pure (ForInStep.yield ([x], none)) τ))).trans (run_pure _ τ)

/-- An access of memory that no other agent leases waits for none. -/
theorem run_waitLease_one {σ : At s0} {x : Access} {pa : Nat} (hx : x.place = some (.phys pa))
    (h : σ.val.leasedByOther σ.val.cur pa = false) : waitLease [x] σ = .ok () σ := by
  unfold waitLease
  rw [run_bind_ok (run_st σ)]
  simp only [List.filterMap_cons, hx, List.filterMap_nil, List.find?_cons, h, List.find?_nil]
  rfl

/-! ### The bytes of near memory -/

/-- An aligned word lies in one line. -/
theorem lineParts_word {pa : Nat} (h : pa % 8 = 0) : lineParts pa 8 = [(0, 8)] := by
  have h0 : min 8 (256 * (0 + 1) - pa % 256) = 8 := by omega
  have h1 : ¬ 256 * 1 - pa % 256 < min 8 (256 * (1 + 1) - pa % 256) := by omega
  unfold lineParts
  rw [show 8 / 256 + 2 = 2 from rfl, show List.range 2 = [0, 1] from rfl]
  simp only [List.filterMap_cons, List.filterMap_nil, if_true, h0, one_ne_zero, if_false, if_neg h1]
  simp

/-- Bytes of a line that was written under the reader's key, or under none, are read as they stand. -/
theorem run_readLine {σ : At s0} {pa key : Nat} (n : Nat)
    (h : TMap.find σ.val.lineKey (pa / 256) = none ∨
      TMap.find σ.val.lineKey (pa / 256) = some (σ.val.keyTag key)) :
    readLine pa n key σ = .ok (σ.val.physBytes pa n) σ := by
  unfold readLine
  rw [run_bind_ok (run_st σ)]
  rcases h with h | h <;> rw [h]
  · rfl
  · exact congrFun (if_pos rfl) σ

/-- A loop whose every turn leaves value and state as they are. -/
theorem run_forIn_skip {β : Type} {l : List α} {f : α → β → M s0 (ForInStep β)} {b : β} {σ : At s0}
    (h : ∀ x ∈ l, f x b σ = .ok (.yield b) σ) : forIn l b f σ = .ok b σ := by
  induction l with
  | nil => rfl
  | cons x l ih =>
    rw [List.forIn_cons, run_bind_ok (h x List.mem_cons_self)]
    exact ih fun y hy => h y (List.mem_cons_of_mem x hy)

/-- Sums that are open on other lines stay open. -/
theorem run_settleFadds_none {σ : At s0} {pa : Nat} (h8 : pa % 8 = 0) (h : Expected.NoPartials σ.val pa) :
    settleFadds pa 8 σ = .ok () σ := by
  unfold settleFadds
  rw [run_bind_ok (run_st σ)]
  refine (run_bind_ok (run_forIn_skip fun (w, v, l) hp => congrFun (if_neg ?_) σ)).trans rfl
  have := h _ hp
  simp only [Bool.and_eq_true, decide_eq_true_eq]
  dsimp only at this
  omega

theorem linkUp_of_clean {s : State} {pa : Nat} (h : s.poisoned pa = false) : s.linkUp pa = true := by
  unfold State.poisoned at h
  revert h
  cases s.linkUp pa <;> simp

/-- Clean bytes of a line under the reader's key, or under none, are read as they stand. -/
theorem run_readKeyed {σ : At s0} {pa key : Nat} (h8 : pa % 8 = 0) (hclean : Expected.Clean σ.val pa 8)
    (hkey : TMap.find σ.val.lineKey (pa / 256) = none ∨
      TMap.find σ.val.lineKey (pa / 256) = some (σ.val.keyTag key)) :
    readKeyed pa 8 key σ = .ok (σ.val.physBytes pa 8) σ := by
  have hup : σ.val.linkUp pa = true := linkUp_of_clean (hclean.1 0 (by decide))
  have hbytes : readBytes pa 8 key σ = .ok (σ.val.physBytes pa 8) σ := by
    unfold readBytes
    rw [lineParts_word h8]
    simp only [List.forIn_cons, List.forIn_nil]
    refine (run_bind_ok (a := σ.val.physBytes pa 8) (τ := σ) ?_).trans rfl
    exact (run_bind_ok ((run_bind_ok (run_readLine 8 hkey)).trans (run_pure (ForInStep.yield _) σ))).trans (run_pure _ σ)
  unfold readKeyed
  rw [run_bind_ok (run_st σ), hup]
  simp only [Bool.not_true, Bool.false_eq_true, if_false]
  by_cases hf : σ.val.fadds.isEmpty = true
  · rw [hf]
    exact hbytes
  · simp only [Bool.eq_false_iff.2 hf, Bool.not_false, if_true]
    exact (run_bind_ok (run_settleFadds_none h8 (hclean.2 0 (by decide)).1)).trans hbytes

/-- A strand reads them so: no engine's write of them is hidden from it. -/
theorem run_readNear {σ : At s0} {party die pa key : Nat} (h8 : pa % 8 = 0) (hclean : Expected.Clean σ.val pa 8)
    (hkey : TMap.find σ.val.lineKey (pa / 256) = none ∨
      TMap.find σ.val.lineKey (pa / 256) = some (σ.val.keyTag key)) (hparty : party < 2 ^ 40) :
    readNear party die pa 8 key σ = .ok (σ.val.physBytes pa 8) σ := by
  have hne : (party == σ.val.opParty) = false := by
    refine beq_eq_false_iff_ne.2 ?_
    unfold State.opParty opKey
    omega
  unfold readNear
  rw [run_bind_ok (run_st σ), run_bind_ok (run_readKeyed h8 hclean hkey)]
  refine (run_bind_ok (run_forIn_skip fun (c, l) hp => congrFun (if_neg ?_) σ)).trans ?_
  · rw [hne]
    rfl
  · have := (hclean.2 0 (by decide)).2 _ hp
    simp only [Bool.and_eq_true, decide_eq_true_eq]
    dsimp only at this
    omega

/-! ### A load of near memory -/

/-- What a strand's load of aligned near memory rests on: the die's cache holds the page, of whose key the line is. -/
structure State.Loads (s : State) (va : Word) (pa : Nat) (e : TlbEntry) : Prop where
  holds : s.Holds (dieOf s.cur) s.regs.asid va e
  near : leafFar e.leaf = false
  place : leafPa e va = pa
  config : isConfig pa = false
  key : TMap.find s.lineKey (pa / 256) = none ∨ TMap.find s.lineKey (pa / 256) = some (s.keyTag (leafKey e.leaf))
  agent : s.cur < 25088
  lines : (s.ctx s.cur).lines = []

theorem Expected.Timed.holds {s t : State} (h : Expected.Timed s t) {die : Nat} {asid : BitVec 16} {va : Word}
    {e : TlbEntry} (hs : s.Holds die asid va e) : t.Holds die asid va e :=
  hs.congr (by rw [h]; rfl) rfl

theorem State.Loads.timed {s t : State} {va : Word} {pa : Nat} {e : TlbEntry} (h : s.Loads va pa e)
    (ht : Expected.Timed s t) : t.Loads va pa e := by
  obtain ⟨hholds, hnear, hplace, hconfig, hkey, hagent, hlines⟩ := h
  have hholds' := ht.holds hholds
  rw [ht]
  rw [ht] at hholds'
  exact ⟨hholds', hnear, hplace, hconfig, hkey, hagent, hlines⟩

/-- Another word of the line. -/
theorem State.Loads.shift {s : State} {va : Word} {pa k : Nat} {e : TlbEntry} (h : s.Loads va pa e)
    (hk : va.toNat % 256 + k < 256) : s.Loads (va + wordOf k) (pa + k) e := by
  obtain ⟨hholds, hnear, rfl, hconfig, hkey, hagent, hlines⟩ := h
  have hpage : va.toNat % 65536 + k < 65536 := by omega
  have hmod := leafPa_mod e va
  have hline : (leafPa e va + k) / 256 = leafPa e va / 256 := by omega
  refine ⟨hholds.congr rfl (field_page hpage), hnear, leafPa_add e hpage, ?_, by rw [hline]; exact hkey, hagent, hlines⟩
  unfold isConfig paPort at hconfig ⊢
  rw [show (leafPa e va + k) / 2 ^ 40 = leafPa e va / 2 ^ 40 by omega]
  exact hconfig

theorem bytesNat_natBytes {n v : Nat} (h : v < 256 ^ n) : bytesNat (natBytes n v) = v := by
  induction n generalizing v with
  | zero => rw [Nat.pow_zero] at h; exact (Nat.lt_one_iff.1 h).symm
  | succ n ih =>
    rw [natBytes, bytesNat, ih (by rw [Nat.pow_succ] at h; omega), BitVec.toNat_ofNat]
    omega

theorem bytesNat_lt (bs : List Byte) : bytesNat bs < 256 ^ bs.length := by
  induction bs with
  | nil => exact Nat.one_pos
  | cons b bs ih =>
    have := b.isLt
    rw [bytesNat, List.length_cons, Nat.pow_succ]
    omega

theorem bytesNat_physBytes {s : State} {pa n : Nat} (h : ∀ i < n, s.poisoned (pa + i) = false) :
    bytesNat (s.physBytes pa n) = Expected.memValue s pa n := by
  rw [bytesNat_eq_number, physBytes_of_clean h]
  rfl

/-- A counter word of a line under its page's key, or under none, has the value that its bytes hold. -/
theorem homeV_of_clean {s : State} {pa key : Nat} (hclean : ∀ i < 8, s.poisoned (pa + i) = false) (hk : key < 128)
    (hkey : TMap.find s.lineKey (pa / 256) = none ∨ TMap.find s.lineKey (pa / 256) = some (s.keyTag key)) :
    s.homeV pa = BitVec.ofNat 64 (Expected.memValue s pa 8) := by
  have hword : s.physWord pa = BitVec.ofNat 64 (Expected.memValue s pa 8) := by
    rw [State.physWord, bytesWord, bytesNat_physBytes hclean]
  have hup : s.linkUp pa = true := linkUp_of_clean (hclean 0 (by decide))
  have hany : ((List.range 8).any fun i => s.poisoned (pa + i)) = false :=
    List.any_eq_false.2 fun i hi => by simp [hclean i (List.mem_range.1 hi)]
  unfold State.homeV
  rw [hup, hany]
  simp only [Bool.not_true, Bool.false_eq_true, if_false]
  rcases hkey with h | h <;> rw [h]
  · exact hword
  · have htag : s.keyTag key % 128 = key := by unfold State.keyTag; omega
    simp only [htag, if_true]
    exact hword

theorem goes_renewLine (a pa : Nat) : Goes (s0 := s0) Expected.Timed (renewLine a pa) := by
  unfold renewLine
  exact .bind timed_chains goes_openNat fun l => .bind timed_chains (.st timed_chains) fun s => .upd fun s => rfl

/-- The home gives the bytes of memory. -/
theorem run_readHome {σ : At s0} {va : Word} {pa : Nat} {e : TlbEntry} (h : σ.val.Loads va pa e) (h8 : pa % 8 = 0)
    (hclean : Expected.Clean σ.val pa 8) :
    ∃ bs τ, readHome va pa false false σ = .ok bs τ ∧ bytesNat bs = Expected.memValue σ.val pa 8 ∧
      Expected.Timed σ.val τ.val := by
  obtain ⟨hholds, hnear, rfl, -, hkey, hagent, -⟩ := h
  have hleaf := hholds.leafOf hnear
  have hkeyOf : σ.val.keyOf (dieOf σ.val.cur) σ.val.regs.asid va (leafPa e va) = leafKey e.leaf := by
    unfold State.keyOf
    rw [hleaf]
  have hlt : Expected.memValue σ.val (leafPa e va) 8 < 2 ^ 64 := by
    rw [← bytesNat_physBytes hclean.1]
    refine Nat.lt_of_lt_of_eq (bytesNat_lt _) ?_
    simp [State.physBytes]
  unfold readHome
  rw [run_bind_ok (run_st σ)]
  simp only [State.regs] at hleaf hkeyOf
  simp only [hleaf, hkeyOf, Option.any_some]
  rw [h8]
  cases hk : leafK e.leaf with
  | true =>
    obtain ⟨_, τ, hτ, htimed⟩ := goes_readCtr σ.val.cur (.home (leafPa e va)) σ
    refine ⟨natBytes 8 (σ.val.homeV (leafPa e va)).toNat, τ, ?_, ?_, htimed⟩
    · have hup : σ.val.linkUp (leafPa e va) = true := linkUp_of_clean (hclean.1 0 (by decide))
      simp only [hup, Bool.not_true, Bool.false_eq_true, if_true, if_false]
      exact (run_bind_ok hτ).trans (run_pure _ τ)
    · have hkeylt : leafKey e.leaf < 128 := by unfold leafKey field; omega
      rw [homeV_of_clean hclean.1 hkeylt hkey, BitVec.toNat_ofNat, Nat.mod_eq_of_lt hlt]
      exact bytesNat_natBytes hlt
  | false =>
    obtain ⟨_, τ, hτ, htimed⟩ := goes_renewLine σ.val.cur (leafPa e va) σ
    have hread := run_readNear (σ := τ) (party := σ.val.cur) (die := dieOf σ.val.cur) (key := leafKey e.leaf) h8
      (by rw [htimed]; exact hclean) (by rw [htimed]; exact hkey) (by omega)
    refine ⟨τ.val.physBytes (leafPa e va) 8, τ, ?_, ?_, htimed⟩
    · simp only [Bool.or_self, Bool.false_eq_true, if_false]
      exact (run_bind_ok hτ).trans hread
    · rw [htimed]
      exact bytesNat_physBytes hclean.1

/-- A load of an aligned word gives what memory holds. -/
theorem run_loadPlace {σ : At s0} {va : Word} {pa : Nat} {e : TlbEntry} (h : σ.val.Loads va pa e) (h8 : pa % 8 = 0)
    (hclean : Expected.Clean σ.val pa 8) :
    ∃ τ, loadPlace va 8 (.phys pa) false false false σ = .ok (Expected.memValue σ.val pa 8, none) τ ∧
      Expected.Timed σ.val τ.val := by
  obtain ⟨bs, τ, hτ, hbs, htimed⟩ := run_readHome h h8 hclean
  obtain ⟨-, -, rfl, hconfig, -, -, hlines⟩ := h
  have hva : va.toNat % 8 = 0 := by
    have := leafPa_mod e va
    omega
  have hown (a : Word) : (σ.val.ctx σ.val.cur).ownOps a = [] := by
    unfold Ctx.ownOps
    rw [hlines]
    rfl
  have hlt : bytesNat bs < 2 ^ 64 := by
    rw [hbs, ← bytesNat_physBytes hclean.1]
    refine Nat.lt_of_lt_of_eq (bytesNat_lt _) ?_
    simp [State.physBytes]
  have hpart : chunkPart va 8 (overlay [] (bytesNat bs)) = bytesNat bs := by
    unfold chunkPart overlay
    rw [hva, List.foldl_nil, Nat.mul_zero, Nat.pow_zero, Nat.div_one]
    exact Nat.mod_eq_of_lt hlt
  have hbad : ((List.range 8).find? fun i =>
      (if ((σ.val.leafOf (dieOfCore (coreOf σ.val.cur)) (σ.val.ctx σ.val.cur).r.asid va (leafPa e va)).any fun e =>
          leafK e.leaf) = true
        then !σ.val.linkUp (leafPa e va) else σ.val.poisoned (leafPa e va + i)) &&
        !(σ.val.ctx σ.val.cur).covered (va + wordOf i) 1) = none := by
    refine List.find?_eq_none.2 fun i hi => ?_
    have hup : σ.val.linkUp (leafPa e va) = true := linkUp_of_clean (hclean.1 0 (by decide))
    simp [hup, hclean.1 i (List.mem_range.1 hi)]
  refine ⟨τ, ?_, htimed⟩
  unfold loadPlace
  rw [run_bind_ok (run_st σ)]
  simp only [hconfig, Bool.false_eq_true, if_false, hown, Bool.or_self, Bool.false_and]
  rw [run_bind_ok hτ, hbad, hpart, hbs]
  rfl

/-! ### Records -/

/-- Reading a record changes logical times, what lookups leave, and choices; no queue of a die. -/
structure State.Scans (s t : State) : Prop where
  frame : t = { s with dies := t.dies, times := t.times, joins := t.joins, oracle := t.oracle }
  queues : ∀ d, (t.die d).queues = (s.die d).queues

theorem State.Looks.scans {s t u : State} (h : s.Looks t) (h' : Expected.Timed t u) : s.Scans u where
  frame := by rw [h', h.frame]
  queues d := by
    have hsame : (t.die d).queues = (s.die d).queues := by rw [h.die d]
    rw [h']
    exact hsame

/-- The page of a load of near memory, once its check has found it. -/
theorem loads_of_maps {s t : State} {va : Word} {pa : Nat} (h : Expected.Maps s .load va pa)
    (hlines : (s.ctx s.cur).lines = []) (hlook : s.Looks t)
    (hholds : t.Holds (dieOf s.cur) s.regs.asid va (s.walk (dieOf s.cur) s.regs.asid va)) :
    t.Loads va pa (s.walk (dieOf s.cur) s.regs.asid va) := by
  obtain ⟨hagent, -, htrans, -, hkey, -⟩ := h
  obtain ⟨-, -, -, -, hcheck, hconfig, -⟩ := htrans
  obtain ⟨hnear, hplace⟩ := near_of_checkLeaf hcheck
  rw [hlook.frame] at hholds ⊢
  exact ⟨hholds, hnear, hplace, hconfig, hkey, hagent, hlines⟩

theorem clean_word {s : State} {pa m i : Nat} (h : Expected.Clean s pa (8 * m)) (hi : i < m) :
    Expected.Clean s (pa + 8 * i) 8 := by
  refine ⟨fun j hj => ?_, fun j hj => ?_⟩ <;> rw [Nat.add_assoc]
  · exact h.1 _ (by omega)
  · exact h.2 _ (by omega)

/-- The precise check of a load of near memory that no other agent leases. -/
theorem run_checkGlobal_load {σ : At s0} {va : Word} {pa : Nat} (n : Nat) (plain : Bool)
    (h : Expected.Maps σ.val .load va pa) (hlease : (σ.val.ctx σ.val.cur).prog.lease = none)
    (hlines : (σ.val.ctx σ.val.cur).lines = []) :
    ∃ x τ e, checkGlobal [va] n .load plain σ = .ok [x] τ ∧ waitLease [x] τ = .ok () τ ∧ x.place = some (.phys pa) ∧
      σ.val.Looks τ.val ∧ τ.val.Loads va pa e := by
  obtain ⟨x, τ, hτ, -, hx, hlook, hholds⟩ := run_checkElem_load n plain h hlease
  refine ⟨x, τ, _, run_checkGlobal_one hτ, run_waitLease_one hx ?_, hx, hlook, loads_of_maps h hlines hlook hholds⟩
  rw [hlook.frame]
  exact h.2.2.2.1

/-- The words of a clean record of near memory within one line. -/
theorem run_readRecord {σ : At s0} {va : Word} {pa m align : Nat} (h : Expected.Maps σ.val .load va pa)
    (hclean : Expected.Clean σ.val pa (8 * m)) (hlease : (σ.val.ctx σ.val.cur).prog.lease = none)
    (hlines : (σ.val.ctx σ.val.cur).lines = []) (halign : va.toNat % align = 0) (h8 : va.toNat % 8 = 0)
    (hline : va.toNat % 256 + 8 * m ≤ 256) :
    ∃ τ, readRecord va (8 * m) align σ = .ok ((List.range m).map (Expected.recordWord σ.val pa)) τ ∧
      σ.val.Scans τ.val := by
  obtain ⟨x, ρ, e, hcheck, hwait, hx, hlook, hloads⟩ := run_checkGlobal_load (8 * m) false h hlease hlines
  have hpa : pa % 8 = 0 := by
    have := leafPa_mod e va
    rw [hloads.place] at this
    omega
  have hmem : ρ.val.mem = σ.val.mem := by rw [hlook.frame]
  have hcleanρ : Expected.Clean ρ.val pa (8 * m) := by
    refine ⟨fun i hi => by rw [hlook.poisoned]; exact hclean.1 i hi, fun i hi => ?_⟩
    rw [Expected.NoPartials, hlook.frame]
    exact hclean.2 i hi
  obtain ⟨ws, τ, hτ, htimed, hws⟩ := run_forIn_gather (s0 := s0)
    (P := fun done ws t => Expected.Timed ρ.val t ∧ ws = done.reverse.map (Expected.recordWord σ.val pa))
    (f := fun i ws => do
      let ws ← forIn [x] ws fun x ws =>
        match x.place with
        | some p => do
          let (v, bad) ← loadPlace (va + wordOf (8 * i)) 8 (p.plus (8 * i)) false false false
          if bad.isSome then
            trap .poison va
            pure (.yield (ws ++ [wordOf v]))
          else pure (.yield (ws ++ [wordOf v]))
        | none => pure (.yield ws)
      pure (.yield ws))
    (List.range m)
    (fun done i hi ws υ ⟨htimed, hws⟩ => by
      have hi : i < m := List.mem_range.1 hi
      have hcleanυ : Expected.Clean υ.val (pa + 8 * i) 8 := by
        rw [htimed]
        exact clean_word hcleanρ hi
      obtain ⟨τ, hτ, ht⟩ := run_loadPlace ((hloads.timed htimed).shift (k := 8 * i) (by omega)) (by omega) hcleanυ
      refine ⟨ws ++ [Expected.recordWord σ.val pa i], τ, ?_, timed_chains.trans htimed ht, ?_⟩
      · have hword : wordOf (Expected.memValue υ.val (pa + 8 * i) 8) = Expected.recordWord σ.val pa i := by
          rw [htimed]
          unfold Expected.recordWord Expected.memValue wordOf
          rw [← hmem]
        simp only [List.forIn_cons, List.forIn_nil, hx, LPlace.plus]
        refine (run_bind_ok (a := ws ++ [Expected.recordWord σ.val pa i]) (τ := τ) ?_).trans (run_pure _ τ)
        rw [← hword]
        refine (run_bind_ok (a := ForInStep.yield (ws ++ [wordOf (Expected.memValue υ.val (pa + 8 * i) 8)])) (τ := τ) ?_).trans
          (run_pure _ τ)
        exact (run_bind_ok hτ).trans rfl
      · rw [hws, List.reverse_cons, List.map_append]
        rfl)
    [] [] ρ ⟨timed_chains.refl _, rfl⟩
  rw [List.append_nil, List.reverse_reverse] at hws
  refine ⟨τ, ?_, hlook.scans htimed⟩
  have hcheckAlign : checkAlign [va] align σ = .ok () σ := by
    unfold checkAlign
    simp [halign, minWord]
  unfold readRecord
  rw [run_bind_ok hcheckAlign, run_bind_ok (run_st σ), run_bind_ok (run_drainStores hlines), run_bind_ok hcheck,
    run_bind_ok hwait, Nat.mul_div_cancel_left m (by decide), ← hws]
  exact (run_bind_ok hτ).trans (run_pure _ τ)

end Sys2Proof.Machine
end

section
/-! SPAWN (R71, R72, R458, R459). -/

namespace Sys2Proof.Machine

variable {s0 : State} {α : Type}

theorem run_wholly_early {sy : Sync} {early : M s0 α} {body : α → M s0 Fin} {v : α} {σ ρ τ : At s0} {e : Except Stop Fin}
    (hw : sy.wait = none) (hs : sy.sig = none)
    (hr : ((σ.val.ctx σ.val.cur).replayNow && (σ.val.ctx σ.val.cur).replay.contains (σ.val.ctx σ.val.cur).r.pc) = false)
    (hearly : early σ = .ok v ρ) (h : attempt (body v) ρ = .ok e τ) :
    wholly sy false early body σ =
      match e with
      | .error x => if x.undecoded then .error x τ else .ok (.error x) τ
      | .ok fin => .ok (.ok fin) τ := by
  rw [wholly, run_bind_ok (run_beforeBody hw hr), run_bind_ok (run_attempt_ok hearly)]
  dsimp only
  rw [run_bind_ok (run_releaseAndSignal hs ρ), run_bind_ok h]
  cases e with
  | error x => dsimp only; split <;> rfl
  | ok fin => rfl

/-! ### The record -/

/-- The level that the first word of a record names. -/
def recLevel (w : Word) : Nat := w.toNat / 4 % 8

/-- The record of R71 in words, with its bit fields as numbers. -/
theorem contRecOf_eq (f : Nat → Word) (asid : BitVec 16) :
    contRecOf ((List.range 4).map f) asid =
      { code := f 3, frame := f 2, join := f 1, asid := asid, prio := BitVec.ofNat 3 (recLevel (f 0))
        cls := BitVec.ofNat 2 ((f 0).toNat % 4) } := by
  have hprio : (f 0).extractLsb' 2 3 = BitVec.ofNat 3 (recLevel (f 0)) := by
    refine BitVec.eq_of_toNat_eq ?_
    simp [recLevel, BitVec.extractLsb'_toNat, Nat.shiftRight_eq_div_pow]
  have hcls : (f 0).extractLsb' 0 2 = BitVec.ofNat 2 ((f 0).toNat % 4) := by
    refine BitVec.eq_of_toNat_eq ?_
    simp [BitVec.extractLsb'_toNat]
  rw [← hprio, ← hcls]
  rfl

/-- The record under the ASID of the strand. -/
def State.spawned (s : State) (pa : Nat) : ContRec :=
  contRecOf ((List.range 4).map (Expected.recordWord s pa)) s.regs.asid

theorem spawned_level (s : State) (pa : Nat) : (s.spawned pa).prio.toNat = recLevel (Expected.recordWord s pa 0) := by
  have hlt : recLevel (Expected.recordWord s pa 0) < 2 ^ 3 := by unfold recLevel; omega
  rw [State.spawned, contRecOf_eq, BitVec.toNat_ofNat, Nat.mod_eq_of_lt hlt]

/-- What SPAWN asks of its record and its level, as the strand comes to it. -/
structure State.Spawns (s : State) (a : XReg) (pa : Nat) : Prop where
  wait : (s.ctx s.cur).wait = none
  aligned : (s.regs.getX a).toNat % 32 = 0
  maps : Expected.Maps s .load (s.regs.getX a) pa
  clean : Expected.Clean s pa 32
  zero : (Expected.recordWord s pa 0).toNat / 32 % 2 ^ 43 = 0
  on : ((s.die (dieOf s.cur)).queue (recLevel (Expected.recordWord s pa 0))).cfg.getLsbD 5 = true

theorem State.Scans.queue {s t : State} (h : s.Scans t) (d l : Nat) : (t.die d).queue l = (s.die d).queue l := by
  rw [Die.queue, h.queues d]
  rfl

theorem run_spawnRead {s : State} {a : XReg} {pa : Nat} (h : s.Spawns a pa) (hset : Expected.Settled s)
    (hp : (s.ctx s.cur).prog = Progress.none) :
    ∃ τ, spawnRead a (⟨s, .refl⟩ : At s) = .ok (some (s.spawned pa)) τ ∧ s.Scans τ.val := by
  obtain ⟨hwait, haligned, hmaps, hclean, hzero, hon⟩ := h
  obtain ⟨τ, hτ, hscan⟩ := run_readRecord (σ := (⟨s, .refl⟩ : At s)) (m := 4) (align := 32) hmaps hclean
    (by rw [hp]; rfl) hset.1 haligned (by omega) (by omega)
  have hans : ((s.ctx s.cur).prog.ans == some .spawned) = false := by rw [hp]; rfl
  have hcur : τ.val.cur = s.cur := by rw [hscan.frame]
  have hlegal : (field (((List.range 4).map (Expected.recordWord s pa)).headD 0) 5 43 == 0) = true := by
    simp only [field]
    exact beq_iff_eq.2 hzero
  have hqueue : ((τ.val.die (dieOf τ.val.cur)).queue (s.spawned pa).prio.toNat).on = true := by
    rw [hcur, hscan.queue, spawned_level]
    exact hon
  refine ⟨τ, ?_, hscan⟩
  unfold spawnRead
  rw [run_bind_ok (run_myCtx _)]
  dsimp only
  rw [hans, hwait]
  refine (run_bind_ok hτ).trans ((run_bind_ok (run_legal hlegal τ)).trans ((run_bind_ok (run_st τ)).trans ?_))
  have henabled : (!((τ.val.die (dieOf τ.val.cur)).queue (s.spawned pa).prio.toNat).on) = false := by rw [hqueue]; rfl
  exact congrFun (if_neg (ne_true_of_eq_false henabled)) τ

/-! ### The append, and the wait for room -/

/-- Up to the append SPAWN leaves contexts and queues, and performs what the strand releases. -/
structure State.Readies (s t : State) : Prop where
  frame : t = { s.performed t with ctxs := t.ctxs }
  ctx : ∀ b, t.ctx b = s.ctx b
  queue : ∀ d l, (t.die d).queue l = (s.die d).queue l
  far : Expected.NothingFar s → t.far = s.far

/-- What SPAWN does first: it reads its record, and releases. -/
theorem run_spawn_readies {s : State} {a : XReg} {pa : Nat} (sc : Scope) (h : s.Spawns a pa) (hset : Expected.Settled s)
    (hp : (s.ctx s.cur).prog = Progress.none) :
    ∃ τ ρ, spawnRead a (⟨s, .refl⟩ : At s) = .ok (some (s.spawned pa)) τ ∧ release sc τ = .ok () ρ ∧ s.Readies ρ.val := by
  obtain ⟨τ, hτ, hscan⟩ := run_spawnRead h hset hp
  have hcur : τ.val.cur = s.cur := by rw [hscan.frame]
  have hctx (b : Nat) : τ.val.ctx b = s.ctx b := by rw [hscan.frame]; rfl
  obtain ⟨ρ, hρ, hrel⟩ := run_release (σ := τ) sc (by rw [hcur, hctx]; exact hset.1) (by rw [hcur, hctx]; exact hset.2.1)
  refine ⟨τ, ρ, hτ, hρ, ?_, fun b => (hrel.ctx b).trans (hctx b), fun d l => ?_, fun hfar => ?_⟩
  · rw [hrel.frame, hscan.frame]
    rfl
  · rw [Die.queue, hrel.queues, ← Die.queue]
    exact hscan.queue d l
  · have hτfar : τ.val.farPend = [] ∧ τ.val.far = s.far := by
      rw [hscan.frame]
      exact ⟨hfar.2, rfl⟩
    exact (hrel.far hτfar.1).2.trans hτfar.2

theorem State.Readies.cur {s t : State} (h : s.Readies t) : t.cur = s.cur := by
  rw [h.frame]
  rfl

/-- SPAWN with room at its level and nobody before it. -/
theorem run_spawnBody_appends {τ ρ : At s0} {sc : Scope} {r : ContRec} (hrel : release sc τ = .ok () ρ)
    (hroom : ((ρ.val.die (dieOf ρ.val.cur)).queue r.prio.toNat).full = false)
    (hfirst : ((ρ.val.die (dieOf ρ.val.cur)).queue r.prio.toNat).waiting = []) :
    ∃ (π : At s0) (u : State), spawnBody sc (some r) τ = .ok .next π ∧ ρ.val.Deposits u ∧
      π.val = (Upd.die (dieOf ρ.val.cur)
        { u.die (dieOf ρ.val.cur) with
          queues := TMap.put (u.die (dieOf ρ.val.cur)).queues r.prio.toNat
            (((u.die (dieOf ρ.val.cur)).queue r.prio.toNat).append r ρ.val.time) }).apply u := by
  obtain ⟨π, u, hπ, hdep, eπ⟩ := run_appendRec (dieOf ρ.val.cur) r.prio.toNat r ρ
  refine ⟨π, u, ?_, hdep, eπ⟩
  unfold spawnBody
  refine (run_bind_ok hrel).trans ((run_bind_ok (run_st ρ)).trans ?_)
  rw [hroom, hfirst]
  exact (run_bind_ok hπ).trans (run_pure _ π)

/-- What a SPAWN without room waits for. -/
def spawnWait (r : ContRec) : Wait := { kind := .spawn r, watches := [], all := false, deadline := none }

theorem run_spawnBody_waits {τ ρ : At s0} {sc : Scope} {r : ContRec} (hrel : release sc τ = .ok () ρ)
    (hfull : ((ρ.val.die (dieOf ρ.val.cur)).queue r.prio.toNat).full = true) :
    spawnBody sc (some r) τ = .error (.wait (spawnWait r)) ρ := by
  unfold spawnBody
  refine (run_bind_ok hrel).trans ((run_bind_ok (run_st ρ)).trans ?_)
  rw [hfull]
  rfl

/-- A level with a waiting SPAWN more. -/
def ContQ.wait (q : ContQ) (a : Nat) : ContQ := { q with waiting := q.waiting ++ [a] }

/-- A SPAWN of a strand on no follower that waits for nothing yet joins those that wait at its level. -/
theorem run_block_spawn {σ : At s0} {r : ContRec} (ht : (σ.val.core (coreOf σ.val.cur)).trace = .none)
    (hw : (σ.val.ctx σ.val.cur).wait = none) :
    ∃ τ ctxs cores, block (spawnWait r) σ = .ok () τ ∧
      τ.val = { (Upd.die (dieOf σ.val.cur)
        { σ.val.die (dieOf σ.val.cur) with
          queues := TMap.put (σ.val.die (dieOf σ.val.cur)).queues r.prio.toNat
            (((σ.val.die (dieOf σ.val.cur)).queue r.prio.toNat).wait σ.val.cur) }).apply σ.val with
        ctxs := ctxs, cores := cores } ∧
      τ.val.ctx σ.val.cur = (σ.val.ctx σ.val.cur).waits (spawnWait r) ∧
      ∀ b, b ≠ σ.val.cur → (τ.val.ctx b).r = (σ.val.ctx b).r := by
  let c := σ.val.cur
  let x := σ.val.ctx c
  let w := spawnWait r
  let x1 : Ctx := { x with prog := { x.prog with deadline := w.deadline } }
  let ρ1 := σ.upd (.ctx c x1)
  let ρ2 := ρ1.upd (.die (dieOf c)
    { σ.val.die (dieOf c) with
      queues := TMap.put (σ.val.die (dieOf c)).queues r.prio.toNat
        (((σ.val.die (dieOf c)).queue r.prio.toNat).wait c) })
  let ρ3 := ρ2.upd (.ctx c { ρ2.val.ctx c with wait := some w })
  let ρ4 := ρ3.upd (.ctx c { ρ3.val.ctx c with wait := some w })
  have hx2 : ρ2.val.ctx c = x1 := ctx_upd_same _ _ _
  have hx3 : ρ3.val.ctx c = { x1 with wait := some w } := by rw [At.upd_val, ctx_upd_same, hx2]
  have hx4 : ρ4.val.ctx c = { x1 with wait := some w } := by rw [At.upd_val, ctx_upd_same, hx3]
  have hne (b : Nat) (hb : b ≠ c) : ρ4.val.ctx b = σ.val.ctx b :=
    (ctx_upd_ne _ _ hb).trans ((ctx_upd_ne _ _ hb).trans (ctx_upd_ne _ _ hb))
  have hfollow : σ.val.isFollower (coreOf σ.val.cur) = false := by rw [State.isFollower, ht]; rfl
  have hnew : ((σ.val.ctx σ.val.cur).wait != some (spawnWait r)) = true := by rw [hw]; rfl
  obtain ⟨τ, ctxs, cores, hτ, eτ, hctx, hother⟩ := run_switchOut_stop c (p := .waiting) Phase.noConfusion ρ4 ht
  refine ⟨τ, ctxs, cores, ?_, eτ, ?_, fun b hb => ?_⟩
  · have henter : enterWait w ρ1 = .ok () ρ3 := rfl
    unfold block
    refine (run_bind_ok (run_st σ)).trans ((run_bind_ok (run_modMe _ σ)).trans ((run_bind_ok henter).trans ?_))
    simp only [hfollow, hnew, Bool.not_false, Bool.true_or, if_true]
    exact (run_bind_ok (run_pure ([] : List Watch) ρ3)).trans ((run_bind_ok (run_modMe _ ρ3)).trans hτ)
  · rw [hctx, hx4]
    rfl
  · rcases hother b hb with e | e <;> rw [e, hne b hb]

/-! ### The steps of SPAWN -/

theorem run_spawnPre {σ : At s0} (h : (σ.val.ctx σ.val.cur).gang = none) :
    (do let c ← myCtx; legal c.gang.isNone : M s0 Unit) σ = .ok () σ := by
  rw [run_bind_ok (run_myCtx σ), h]
  exact run_legal rfl σ

theorem full_iff (q : ContQ) : q.full = true ↔ 2 ^ (q.cfg.toNat % 32) ≤ q.recs.length := by
  unfold ContQ.full ContQ.cap field
  rw [decide_eq_true_iff, Nat.pow_zero, Nat.div_one]
  rfl

theorem spawn_appends {a : XReg} {sy : Sync} {s : State} {pa : Nat} (hq : s.Quiet sy) (hset : Expected.Settled s)
    (h : s.Spawns a pa)
    (hroom : ((s.die (dieOf s.cur)).queue (recLevel (Expected.recordWord s pa 0))).full = false)
    (hfirst : ((s.die (dieOf s.cur)).queue (recLevel (Expected.recordWord s pa 0))).waiting = []) :
    ∃ t : State, exec (.spawn a sy) s = .next t ∧ Expected.Keeps s t ∧
      t.regs = { s.regs with pc := nextPc s.regs.pc sy } ∧
      (t.die (dieOf s.cur)).queue (recLevel (Expected.recordWord s pa 0)) =
        ((s.die (dieOf s.cur)).queue (recLevel (Expected.recordWord s pa 0))).append (s.spawned pa) s.time := by
  obtain ⟨hw, hs, hf, ht, -, -, -, hreplay, hp, -⟩ := id hq
  obtain ⟨σ, ρ, hread, hrel, hready⟩ := run_spawn_readies sy.scope h hset hp
  obtain ⟨π, u, hπ, hdep, eπ⟩ := run_spawnBody_appends (r := s.spawned pa) hrel
    (by rw [hready.cur, hready.queue, spawned_level]; exact hroom)
    (by rw [hready.cur, hready.queue, spawned_level]; exact hfirst)
  have hframe : π.val = { s.performed π.val with
      ctxs := π.val.ctxs, mem := π.val.mem, bad := π.val.bad, fadds := π.val.fadds } := by
    rw [eπ, hdep.frame, hready.frame]
    rfl
  have hctxs : π.val.ctxs = ρ.val.ctxs := by
    rw [eπ, hdep.frame]
    rfl
  have hctx (b : Nat) : π.val.ctx b = s.ctx b := by
    rw [State.ctx, hctxs]
    exact hready.ctx b
  have hcur : π.val.cur = s.cur := by
    rw [hframe]
    rfl
  obtain ⟨cores, hstep⟩ := strandStepE_next (σ := π) hq (run_spawnPre (σ := (⟨s, .refl⟩ : At s)) hset.2.2)
    (run_wholly_early hw hs hreplay hread (run_attempt_ok hπ)) hcur (by rw [hframe]; exact hf)
    (by rw [hframe]; exact ht) (by rw [State.regs, hcur, hctx]; rfl) (by rw [hctx, hp]; rfl) (by rw [hctx, hp]; rfl)
  refine ⟨_, hstep, keeps_of_frame ?_ (fun hfar => ?_) fun b hb => ?_, retireAs_regs _ _ _, ?_⟩
  · rw [State.retireAs, hframe]
    rfl
  · refine Eq.trans (b := ρ.val.far) ?_ (hready.far hfar)
    rw [State.retireAs, eπ, hdep.frame]
    rfl
  · have hne : b ≠ π.val.cur := by rw [hcur]; exact hb
    exact congrArg Ctx.r ((ctx_upd_ne _ _ hne).trans (hctx b))
  · have hqueue : (u.die (dieOf s.cur)).queue (recLevel (Expected.recordWord s pa 0)) =
        (s.die (dieOf s.cur)).queue (recLevel (Expected.recordWord s pa 0)) := by
      rw [Die.queue, hdep.queues]
      exact hready.queue _ _
    have htime : ρ.val.time = s.time := by
      rw [hready.frame]
      rfl
    have hdie : π.val.die (dieOf s.cur) = { u.die (dieOf s.cur) with
        queues := TMap.put (u.die (dieOf s.cur)).queues (s.spawned pa).prio.toNat
          (((u.die (dieOf s.cur)).queue (s.spawned pa).prio.toNat).append (s.spawned pa) ρ.val.time) } := by
      rw [eπ, hready.cur]
      exact die_upd_same _ _ _
    refine (congrArg (Die.queue · (recLevel (Expected.recordWord s pa 0))) hdie).trans ?_
    rw [spawned_level, htime, hqueue]
    exact TMap.get_put_same _ _ _ _

theorem spawn_waits {a : XReg} {sy : Sync} {s : State} {pa : Nat} (hq : s.Quiet sy) (hset : Expected.Settled s)
    (h : s.Spawns a pa)
    (hfull : ((s.die (dieOf s.cur)).queue (recLevel (Expected.recordWord s pa 0))).full = true) :
    ∃ t : State, exec (.spawn a sy) s = .next t ∧ Expected.Keeps s t ∧ t.mem = s.mem ∧ t.regs = s.regs ∧
      (t.ctx s.cur).phase = .waiting ∧ ((t.ctx s.cur).wait.map (·.kind)) = some (.spawn (s.spawned pa)) ∧
      (t.die (dieOf s.cur)).queue (recLevel (Expected.recordWord s pa 0)) =
        ((s.die (dieOf s.cur)).queue (recLevel (Expected.recordWord s pa 0))).wait s.cur := by
  obtain ⟨hw, hs, hf, ht, -, -, -, hreplay, hp, -⟩ := id hq
  obtain ⟨σ, ρ, hread, hrel, hready⟩ := run_spawn_readies sy.scope h hset hp
  have hbody := run_spawnBody_waits (r := s.spawned pa) hrel
    (by rw [hready.cur, hready.queue, spawned_level]; exact hfull)
  have hcores : ρ.val.cores = s.cores := by
    rw [hready.frame]
    rfl
  obtain ⟨τ, ctxs, cores, hτ, eτ, hctx, hother⟩ := run_block_spawn (σ := ρ) (r := s.spawned pa)
    (by rw [hready.cur, State.core, hcores]; exact ht) (by rw [hready.cur, hready.ctx]; exact h.wait)
  rw [hready.cur, hready.ctx] at hctx
  have hissue := hq.2.2.waits (engine := false) ((run_frontChecks hw hs).trans (run_spawnPre (σ := (⟨s, .refl⟩ : At s)) hset.2.2))
    (.inr (run_wholly_early hw hs hreplay hread (run_attempt_wait hbody))) hready.cur hcores
  have hcur : τ.val.cur = s.cur := by
    rw [eτ]
    exact hready.cur
  refine ⟨τ.val, strandStepE_ok (hissue.trans hτ), keeps_of_frame ?_ (fun hfar => ?_) fun b hb => ?_, ?_, ?_,
    by rw [hctx]; rfl, by rw [hctx]; rfl, ?_⟩
  · rw [eτ, hready.frame]
    rfl
  · rw [eτ]
    exact hready.far hfar
  · rw [hother b (by rw [hready.cur]; exact hb), hready.ctx]
  · rw [eτ, hready.frame]
    rfl
  · rw [State.regs, hcur, hctx]
    rfl
  · have hdie : τ.val.die (dieOf s.cur) = { ρ.val.die (dieOf s.cur) with
        queues := TMap.put (ρ.val.die (dieOf s.cur)).queues (s.spawned pa).prio.toNat
          (((ρ.val.die (dieOf s.cur)).queue (s.spawned pa).prio.toNat).wait s.cur) } := by
      rw [eτ, hready.cur]
      exact die_upd_same _ _ _
    refine (congrArg (Die.queue · (recLevel (Expected.recordWord s pa 0))) hdie).trans ?_
    rw [spawned_level, hready.queue]
    exact TMap.get_put_same _ _ _ _

/-- Settles O28: the record is read as memory holds it, and enters its level, or waits there. -/
theorem spawnResult : Obligations.SpawnResult := by
  unfold Obligations.SpawnResult
  intro a sy s pa hq hset
  dsimp only
  intro hwait haligned hmaps hclean hzero hon
  have h : s.Spawns a pa := ⟨hwait, haligned, hmaps, hclean, hzero, hon⟩
  have hrec := contRecOf_eq (Expected.recordWord s pa) s.regs.asid
  refine ⟨fun hroom hfirst => ?_, fun hfull => ?_⟩
  · have hspace : ((s.die (dieOf s.cur)).queue (recLevel (Expected.recordWord s pa 0))).full = false := by
      refine Bool.eq_false_iff.2 fun hf => ?_
      exact Nat.not_le.2 hroom ((full_iff _).1 hf)
    obtain ⟨t, ht, hkeeps, hregs, hqueue⟩ := spawn_appends hq hset h hspace hfirst
    rw [State.spawned, hrec] at hqueue
    exact ⟨t, ht, hkeeps, hregs, congrArg ContQ.recs hqueue, congrArg ContQ.tail hqueue⟩
  · obtain ⟨t, ht, hkeeps, hmem, hregs, hphase, hkind, hqueue⟩ := spawn_waits hq hset h ((full_iff _).2 hfull)
    rw [State.spawned, hrec] at hkind
    exact ⟨t, ht, hkeeps, hmem, hregs, hphase, hkind, (congrArg ContQ.recs hqueue).trans rfl, congrArg ContQ.waiting hqueue⟩

end Sys2Proof.Machine
end

section
/-! Encoding and decoding are inverse: as words by one lemma for each constructor, as bytes because bit 55 of the base word says
whether an extension word follows (R7, R83). -/

namespace Sys2Proof

open Laws.RoundTrip in
/-- Each row of the opcode table has its own lemma. -/
theorem decode_encode (i : Instr) : i.wf = true → decode (encode i).1 (encode i).2 = .ok i :=
  Instr.casesOn (motive := Statement) i
    add addi sub mul mulh mulhu div divu rem remu and andi or ori xor xori shl shli shr shri sra srai slt sltu slti
    min max minu maxu clz popc sel li adr fadd fsub fmul ffma fdiv fsqrt fmin fmax fcmp fcvt fclass br j jl jr jlr
    loop bany ball vadd vsub vmul vfma vmin vmax vand vor vxor vshl vshr vsra vabs vneg vrcp vrsq vexp2 vlog2 vsqrt
    vcmp vsel vcvt vdot vbcast vext vins vperm vrot viota vcomp vred vscan vtopk vtag setvl kand kor kxor knot kmov
    kpopc kff ld st vld vst amo cas red lease unlease cbind cmark cadd cwait cwaitAny cwaitAll cread creset fence
    efence tblfence icinv spawn finish yield exit trace untrace step mloadw mmul mgrad mdrain mprog mstat mcap xset
    xgo xstat xresume xcancel msgTag msgApp nsend nsendRoute nred ncorrApply ncorrScale icprobe icfill icfillSite
    icfillAll guard ldslot stslot tagchk alloc wbar trapSys trapBrk eret srd swr quantumExpiry referenceComplete
    drainComplete continuationTake continuationAging storeHomeCheck leaseBoundExpiry remoteAccess counterAddAtHome
    waitPoll cwaitTimeout frescoCommandStart frescoCommandComplete remoteCommandAdmission chunkComplete chunkFault
    nredSourceRead reductionDeadline lateContribution nsendComplete routeStage msgAppendComplete taggedLaunchMessage
    queueMap queueUnmap notify kernelPacket strandPlacement shareCompletion restorePacket waitcPacket waitcWake
    sigcPacket fencePacket fencePacketWake armPacket easelStart crackOperation syscallPost syscallReply
    preemptRequest contextHalt saveComplete storageSubmit storageComplete checkerMismatch uncorrectableError
    linkPoisonReport linkDown reset manifest monitorImageFetched bootRetryTimer thermalTrip attestationChallenge
    debugUnlock keyctl still freezePin nodeid ptpCorrection loadImage unloadImage registerWrite ncorrComplete
    linkTrained correctedErrorReport illegalOpcode

/-! ### Little-endian bytes (R7) -/

@[simp] theorem length_leBytes (n v : Nat) : (leBytes n v).length = n := by
  induction n generalizing v with
  | zero => rfl
  | succ n ih => rw [leBytes, List.length_cons, ih]

@[simp] theorem take_leBytes (n v : Nat) : (leBytes n v).take n = leBytes n v :=
  List.take_of_length_le (length_leBytes n v).le

theorem leNat_leBytes (n v : Nat) : leNat (leBytes n v) = v % 256 ^ n := by
  induction n generalizing v with
  | zero => simp [leBytes, leNat, Nat.mod_one]
  | succ n ih =>
    rw [leBytes, leNat, ih, BitVec.toNat_ofNat, (Nat.pow_succ' : 256 ^ (n + 1) = 256 * 256 ^ n)]
    exact Nat.mod_mul.symm

/-- A word's bytes give the word back. -/
theorem leWord_leBytes (w : Word) : leWord (leBytes 8 w.toNat) = w := by
  rw [leWord, leNat_leBytes, Nat.mod_eq_of_lt (b := 256 ^ 8) w.isLt, BitVec.ofNat_toNat, BitVec.setWidth_eq]

/-! ### Which words have an extension word (R83, R100) -/

/-- E of the base word says whether the encoder gives an extension word. -/
theorem hasExt_words (f : Form) : hasExt f.words.1 = f.words.2.isSome := by
  have he : f.words.1.extractLsb' 55 1 = bit1 (f.sy.ext != .none) := congrArg Base.e (unpack_words f)
  have hbit : hasExt f.words.1 = bitAt (f.words.1.extractLsb' 55 1) 0 := by simp [hasExt, bitAt]
  rw [hbit, he, bitAt_bit1, Form.words, Sync.extWord]
  cases f.sy.ext <;> rfl

/-- A reserved opcode is all that its words are decoded for. -/
theorem decode_reserved {base : Word} {ext : Option Word} {i : Instr}
    (hop : reservedOp (base.extractLsb' 56 8).toNat = true) (h : decode base ext = .ok i) : i = .illegalOpcode base := by
  rw [decode, if_pos hop] at h
  exact (Except.ok.inj h).symm

theorem opcode_toNat (base : Word) : (base.extractLsb' 56 8).toNat = (base >>> 56).toNat := by
  simp only [BitVec.toNat_ushiftRight, BitVec.extractLsb'_toNat, Nat.shiftRight_eq_div_pow]
  omega

theorem encode_form {i : Instr} (h : ∀ base, i ≠ .illegalOpcode base) : encode i = i.form.words := by
  unfold encode
  split
  · next base => exact absurd rfl (h base)
  · rfl

theorem ne_illegalOpcode {i : Instr} (h : i.wf = true)
    (hop : reservedOp ((encode i).1.extractLsb' 56 8).toNat = false) (base : Word) : i ≠ .illegalOpcode base := by
  rintro rfl
  have hreserved : reservedOp (base >>> 56).toNat = true := h
  rw [← opcode_toNat] at hreserved
  exact Bool.false_ne_true (hop.symm.trans hreserved)

/-- What the front of a byte list is asked for: an extension word follows exactly the base words that have one. -/
theorem encode_hasExt {i : Instr} (h : i.wf = true) :
    (hasExt (encode i).1 && !reservedOp ((encode i).1.extractLsb' 56 8).toNat) = (encode i).2.isSome := by
  cases hop : reservedOp ((encode i).1.extractLsb' 56 8).toNat with
  | true =>
    rw [decode_reserved hop (decode_encode i h)]
    simp [encode]
  | false =>
    rw [Bool.not_false, Bool.and_true, encode_form (ne_illegalOpcode h hop), hasExt_words]

theorem encodeBytes_none {i : Instr} (h : (encode i).2 = none) : encodeBytes i = leBytes 8 (encode i).1.toNat := by
  simp [encodeBytes, h]

theorem encodeBytes_some {i : Instr} {x : Word} (h : (encode i).2 = some x) :
    encodeBytes i = leBytes 8 (encode i).1.toNat ++ leBytes 8 x.toNat := by
  simp [encodeBytes, h]

/-- The decoder of bytes finds the words in them that the encoder has put there. -/
theorem decodeBytes_encodeBytes {i : Instr} (h : i.wf = true) :
    decodeBytes (encodeBytes i) = .ok (i, (encodeBytes i).length) := by
  have hwords := decode_encode i h
  have hext := encode_hasExt h
  cases hx : (encode i).2 with
  | none =>
    rw [hx] at hwords hext
    simp only [encodeBytes_none hx, decodeBytes, take_leBytes, leWord_leBytes, hext, hwords, length_leBytes]
    rfl
  | some x =>
    rw [hx] at hwords hext
    simp only [encodeBytes_some hx, decodeBytes, List.length_append, length_leBytes, List.take_left' (length_leBytes ..),
      List.drop_left' (length_leBytes ..), take_leBytes, leWord_leBytes, hext, hwords]
    rfl

/-- Settles O57: the words by the lemmas of the constructors, the bytes from the words. -/
theorem decodeEncode : Obligations.DecodeEncode := by
  unfold Obligations.DecodeEncode
  exact fun i h => ⟨decode_encode i h, decodeBytes_encodeBytes h⟩

end Sys2Proof
end

section
/-! SRD and SWR: the numbers of the special registers, what each reads and what a write leaves (R103, R348, R460 to R462). -/

namespace Sys2Proof.Machine

variable {s0 : State}

/-! ### The numbers of R103 -/

/-- The number of a special register. -/
def SReg.number : SReg → Nat
  | .vl => 0x000 | .fcsr => 0x001 | .seed => 0x002 | .err => 0x003
  | .strand => 0x010 | .core => 0x011 | .cluster => 0x012 | .die => 0x013 | .node => 0x014 | .grp => 0x015
  | .rank => 0x016 | .launch => 0x017 | .time => 0x018
  | .cause => 0x020 | .epc => 0x021 | .tval => 0x022 | .status => 0x023 | .asid => 0x024 | .quantum => 0x025
  | .mcause => 0x026 | .mepc => 0x027 | .mtval => 0x028
  | .lsbase n => n + 0x030 | .lslim n => n + 0x038

/-- There are eight regions of local store. -/
def SReg.listed : SReg → Prop
  | .lsbase n | .lslim n => n < 8
  | _ => True

theorem of_ite_some {α : Type} {c : Prop} [Decidable c] {a x : α} {o : Option α} {P : α → Prop} (ha : c → P a)
    (ho : o = some x → P x) (h : (if c then some a else o) = some x) : P x := by
  by_cases hc : c
  · rw [if_pos hc] at h
    exact Option.some.inj h ▸ ha hc
  · rw [if_neg hc] at h
    exact ho h

theorem sreg_some {n : BitVec 12} {x : SReg} : sreg n = some x → n.toNat = x.number ∧ x.listed := by
  iterate 22 refine of_ite_some (P := fun x : SReg => n.toNat = x.number ∧ x.listed) (fun h => ⟨h, trivial⟩) ?_
  iterate 2
    refine of_ite_some (P := fun x : SReg => n.toNat = x.number ∧ x.listed) (fun h => ?_) ?_
    · simp only [SReg.number, SReg.listed]
      omega
  exact fun h => nomatch h

theorem ite_some_eq_none {α : Type} {c : Prop} [Decidable c] {a : α} {o : Option α} :
    (if c then some a else o) = none ↔ ¬ c ∧ o = none := by
  by_cases hc : c <;> simp [hc]

theorem special_unlisted (s : State) {n : BitVec 12} (h : sreg n = none) : Expected.special s n.toNat = none := by
  simp only [sreg, ite_some_eq_none] at h
  have h37 : n.toNat < 0x038 ↔ n.toNat ≤ 0x037 := Nat.lt_succ_iff
  have h3F : n.toNat < 0x040 ↔ n.toNat ≤ 0x03F := Nat.lt_succ_iff
  simpa only [Expected.special, ite_some_eq_none, h37, h3F] using h

/-- The level of the lowest mode that a guard admits. -/
def Guard.level : Guard → Nat
  | .any => 0
  | .kernel => 1
  | .monitor => 2

theorem admits_iff (g : Guard) (m : Mode) : g.admits m = true ↔ g.level ≤ Expected.level m := by
  cases g <;> cases m <;> decide

/-! ### What a read gives -/

theorem fields_two (a b i j : Nat) : Expected.fields [(i, a), (j, b)] = wordOf (a * 2 ^ i + b * 2 ^ j) := by
  simp [Expected.fields, wordOf]

theorem fields_three (a b c i j k : Nat) :
    Expected.fields [(i, a), (j, b), (k, c)] = wordOf (a * 2 ^ i + b * 2 ^ j + c * 2 ^ k) := by
  simp [Expected.fields, wordOf, Nat.add_assoc]

theorem causeWord_eq (t : TrapRegs) : Expected.causeWord t = t.causeWord := by
  cases h : t.deferred <;> simp [Expected.causeWord, TrapRegs.causeWord, fields_two, h]

theorem level_code (m : Mode) : m.code.toNat = Expected.level m := by cases m <;> rfl

theorem bit_eq (b : Bool) (n : Nat) : bit b n = (if b then 1 else 0) * 2 ^ n := by cases b <;> simp [bit]

theorem status_eq (r : Regs) : Expected.status r = r.statusWord := by
  simp only [Expected.status, Regs.statusWord, Expected.fields, wordOf, bit_eq, level_code, List.map_cons, List.map_nil,
    List.sum_cons, List.sum_nil]
  exact congrArg (BitVec.ofNat 64) (by ring)

theorem toNat_vaNode (va : Word) : (vaNode va).toNat = va.toNat / 2 ^ 56 := by
  have := va.isLt
  simp only [vaNode, BitVec.extractLsb'_toNat, Nat.shiftRight_eq_div_pow]
  omega

theorem err_eq (c : Ctx) : Expected.err c = c.errWord := by
  have hread : (c.pend.any fun p => p.cause = .poison && !p.engine) = c.pend.any Pend.isRead := rfl
  simp only [Expected.err, Ctx.errWord, Expected.fields, wordOf, bit_eq, field, toNat_vaNode, hread, Nat.pow_zero,
    Nat.div_one, List.map_cons, List.map_nil, List.sum_cons, List.sum_nil]
  exact congrArg (BitVec.ofNat 64) (by ring)

theorem fcsr_eq (r : Regs) : Expected.fields [(13, r.rm.toNat), (0, r.flags.toNat)] = r.fcsrWord := by
  rw [fields_two, Regs.fcsrWord, Nat.pow_zero, Nat.mul_one]

theorem isEasel_eq (core : Nat) : isEasel core = !decide (core < 1536) := by
  simp only [isEasel, ← decide_not, Nat.not_lt]

theorem dieOfCore_eq (core : Nat) : dieOfCore core = if core < 1536 then core / 192 else (core - 1536) / 4 := by
  by_cases h : core < 1536 <;> simp [dieOfCore, isEasel_eq, h]

/-- What SRD gives of each register of the table, by the words of the rules above. -/
theorem special_number (s : State) {x : SReg} (hx : x.listed) :
    Expected.special s x.number = some (x.reads.level, x.writes.map Guard.level, s.sregRead x) := by
  cases x with
  | lsbase n =>
    have hn : n < 8 := hx
    simp [Expected.special, SReg.number, SReg.reads, SReg.writes, Guard.level, State.sregRead, hn]
  | lslim n =>
    have hn : n < 8 := hx
    simp [Expected.special, SReg.number, SReg.reads, SReg.writes, Guard.level, State.sregRead, hn]
  | cluster =>
    by_cases h : coreOf s.cur < 1536 <;>
      simp [Expected.special, SReg.number, SReg.reads, SReg.writes, Guard.level, State.sregRead, isEasel_eq, h, wordOf,
        clusterOfCore]
  | _ =>
    simp [Expected.special, SReg.number, SReg.reads, SReg.writes, Guard.level, State.sregRead, causeWord_eq, status_eq,
      err_eq, fcsr_eq, fields_three, dieOfCore_eq, wordOf, State.nodeId, State.timeW]

/-! ### What a write leaves -/

theorem modeField_eq (old : Mode) (n : Nat) : Expected.modeField old n = (modeOf n).getD old := by
  simp only [Expected.modeField, modeOf]
  split_ifs <;> rfl

theorem writeStatus_eq (r : Regs) (v : Word) :
    r.writeStatus v =
      (let r1 := { r with intrap := v.getLsbD 4, pmode := Expected.modeField r.pmode (v.toNat / 4 % 4) }
       if r.mode = .monitor then
         { r1 with mintrap := v.getLsbD 7, mpmode := Expected.modeField r.mpmode (v.toNat / 32 % 4) }
       else r1) := by
  simp only [modeField_eq]
  rfl

/-- The three codes of sr.fcsr's rounding mode that leave it as it was (R124). -/
theorem rm_kept_iff (m : BitVec 3) : (m = 0 || m = 6 || m = 7) = true ↔ m.toNat = 0 ∨ m.toNat = 6 ∨ m.toNat = 7 := by
  revert m
  decide

theorem writeFcsr_eq (r : Regs) (v : Word) :
    r.writeFcsr v =
      (let rm := v.toNat / 2 ^ 13 % 8
       { r with
         rm := if rm = 0 ∨ rm = 6 ∨ rm = 7 then r.rm else BitVec.ofNat 3 rm
         flags := BitVec.ofNat 6 v.toNat }) := by
  have hrm : (v.extractLsb' 13 3).toNat = v.toNat / 2 ^ 13 % 8 := by
    rw [BitVec.extractLsb'_toNat, Nat.shiftRight_eq_div_pow]
  simp only [Regs.writeFcsr, rm_kept_iff, ← hrm, BitVec.ofNat_toNat, BitVec.setWidth_eq]

theorem writeErr_eq (c : Ctx) (v : Word) :
    c.writeErr v =
      { c with
        errAddr := Expected.fields [(56, v.toNat / 2 ^ 56), (0, v.toNat / 2 ^ 8 % 2 ^ 48)]
        ovf := c.ovf && !v.getLsbD 3
        stale := c.stale && !v.getLsbD 2
        pend := if v.getLsbD 0 then c.pend.filter fun p => !(p.cause = .poison && !p.engine) else c.pend } := by
  have hnode : v.toNat / 2 ^ 56 % 2 ^ 8 = v.toNat / 2 ^ 56 := by
    have := v.isLt
    omega
  rw [fields_two, Nat.pow_zero, Nat.mul_one, ← hnode]
  rfl

theorem vlOf_eq (core k : Nat) : vlOf core k = BitVec.ofNat 7 (max 1 (min k (if core < 1536 then 64 else 8))) := by
  by_cases h : core < 1536 <;> simp [vlOf, vlMax, isEasel_eq, h]

theorem keepBits_lslim (v : Word) : keepBits v 8 11 = Expected.fields [(8, v.toNat / 2 ^ 8 % 2 ^ 11)] := by
  simp [keepBits, Expected.fields, field, wordOf]

/-- The two fields of sr.lsbase lie apart. -/
theorem keepBits_lsbase (v : Word) :
    keepBits v 61 3 ||| keepBits v 8 11 = Expected.fields [(61, v.toNat / 2 ^ 61), (8, v.toNat / 2 ^ 8 % 2 ^ 11)] := by
  have hhigh : v.toNat / 2 ^ 61 % 2 ^ 3 = v.toNat / 2 ^ 61 := by
    have := v.isLt
    omega
  have hlow : v.toNat / 2 ^ 8 % 2 ^ 11 * 2 ^ 8 < 2 ^ 61 := by omega
  rw [fields_two, keepBits, keepBits, field, field, hhigh, wordOf, wordOf, wordOf, ← BitVec.ofNat_or,
    Nat.mul_comm _ (2 ^ 61), ← Nat.two_pow_add_eq_or_of_lt hlow]

theorem written_lsbase (s : State) {n : Nat} (hn : n < 8) (v : Word) :
    Expected.written s (n + 0x030) v =
      Expected.withRegs s
        { s.regs with
          lsbase := TMap.put s.regs.lsbase n
            (Expected.fields [(61, v.toNat / 2 ^ 61), (8, v.toNat / 2 ^ 8 % 2 ^ 11)]) } := by
  simp [Expected.written, hn, State.regs]

theorem written_lslim (s : State) (n : Nat) (v : Word) :
    Expected.written s (n + 0x038) v =
      Expected.withRegs s
        { s.regs with lslim := TMap.put s.regs.lslim n (Expected.fields [(8, v.toNat / 2 ^ 8 % 2 ^ 11)]) } := by
  simp [Expected.written, State.regs]

/-- What SWR does to each register that some mode may write, by the words of the rules above. -/
theorem run_sregWrite {x : SReg} (hx : x.listed) (hw : x.writes ≠ none) (v : Word) (σ : At s0) :
    ∃ τ, sregWrite x v σ = .ok () τ ∧ τ.val = Expected.written σ.val x.number v := by
  cases x with
  | vl => exact ⟨_, rfl, congrArg (fun n => Expected.withRegs σ.val { σ.val.regs with vl := n }) (vlOf_eq _ _)⟩
  | fcsr => exact ⟨_, rfl, congrArg (Expected.withRegs σ.val) (writeFcsr_eq _ v)⟩
  | status => exact ⟨_, rfl, congrArg (Expected.withRegs σ.val) (writeStatus_eq _ v)⟩
  | err => exact ⟨_, rfl, congrArg (fun c => (Upd.ctx σ.val.cur c).apply σ.val) (writeErr_eq _ v)⟩
  | time =>
    by_cases h : σ.val.time ≤ v.toNat
    · refine ⟨_, congrFun (if_pos h) σ, ?_⟩
      exact congrArg (fun n => { σ.val with time := n }) ((Nat.add_sub_cancel' h).trans (Nat.max_eq_right h).symm)
    · refine ⟨σ, congrFun (if_neg h) σ, ?_⟩
      exact congrArg (fun n => { σ.val with time := n }) (Nat.max_eq_left (Nat.le_of_not_le h)).symm
  | lsbase n =>
    refine ⟨_, rfl, ((written_lsbase σ.val hx v).trans ?_).symm⟩
    rw [← keepBits_lsbase]
    rfl
  | lslim n =>
    refine ⟨_, rfl, ((written_lslim σ.val n v).trans ?_).symm⟩
    rw [← keepBits_lslim]
    rfl
  | strand | core | cluster | die | node | grp | rank | launch => exact absurd rfl hw
  | _ => exact ⟨_, rfl, rfl⟩

/-! ### Completion -/

/-- What an instruction of a strand in no trace set looks at when it completes. -/
structure State.CanComplete (s : State) : Prop where
  fwd : s.fwd = none
  trace : (s.core (coreOf s.cur)).trace = .none
  followers : s.followers (coreOf s.cur) = []
  lease : (s.ctx s.cur).prog.lease = none

theorem State.Alone.canComplete {s : State} (h : s.Alone) : s.CanComplete := by
  obtain ⟨hf, ht, hl, -, -, -, hp, -⟩ := h
  exact ⟨hf, ht, hl, by rw [hp]; rfl⟩

theorem State.CanComplete.ctx {s : State} (h : s.CanComplete) {c : Ctx} (hc : c.prog = (s.ctx s.cur).prog) :
    ((Upd.ctx s.cur c).apply s).CanComplete where
  fwd := h.fwd
  trace := h.trace
  followers := h.followers
  lease := by
    rw [ctx_cur, ctx_upd_same, hc]
    exact h.lease

theorem State.CanComplete.core {s : State} (h : s.CanComplete) {c : Core} (hc : c.trace = .none) :
    ((Upd.core (coreOf s.cur) c).apply s).CanComplete where
  fwd := h.fwd
  trace := by
    rw [core_cur, core_upd_same]
    exact hc
  followers := by
    have hnone := h.followers
    simp only [State.followers, List.map_eq_nil_iff, List.filter_eq_nil_iff] at hnone ⊢
    intro p hp
    rcases TMap.mem_put hp with rfl | hp
    · rw [hc]
      exact Bool.false_ne_true
    · exact hnone p hp
  lease := h.lease

theorem strandStep_next {s : State} {sy : Sync} {engine : Bool} {pre : M s Unit} {body : M s Fin} {σ : At s}
    (hq : s.Quiet sy) (hpre : pre ⟨s, .refl⟩ = .ok () ⟨s, .refl⟩) (hbody : body ⟨s, .refl⟩ = .ok .next σ)
    (h : σ.val.CanComplete) : strandStep s sy false engine pre body = .next (σ.val.goOn sy σ.val.regs) := by
  obtain ⟨τ, hτ, eτ⟩ := run_complete (engine := engine) (old := s.before) (fin := .next) hq.2.1 rfl h.fwd h.trace
    h.followers h.lease
  rw [strandStep_ok ((issue_body hq hpre hbody).trans hτ), eτ]
  rfl

/-- No write of a special register touches what completion looks at. -/
theorem State.CanComplete.written {s : State} (h : s.CanComplete) {x : SReg} (hx : x.listed) (hw : x.writes ≠ none)
    (v : Word) : (Expected.written s x.number v).CanComplete := by
  cases x with
  | time => exact ⟨h.fwd, h.trace, h.followers, h.lease⟩
  | quantum => exact h.core h.trace
  | lsbase n =>
    rw [SReg.number, written_lsbase s hx]
    exact h.ctx rfl
  | lslim n =>
    rw [SReg.number, written_lslim]
    exact h.ctx rfl
  | strand | core | cluster | die | node | grp | rank | launch => exact absurd rfl hw
  | _ => exact h.ctx rfl

/-! ### SRD and SWR -/

theorem run_illegal {α : Type} (σ : At s0) :
    (illegal : M s0 α) σ = .error (.trap .illegal (σ.val.ctx σ.val.cur).ir false false) σ := rfl

theorem run_privileged {α : Type} (σ : At s0) :
    (privileged : M s0 α) σ = .error (.trap .priv (σ.val.ctx σ.val.cur).ir false false) σ := rfl

theorem run_srdPre {n : BitVec 12} {x : SReg} {σ : At s0} (hx : sreg n = some x)
    (hmode : x.reads.level ≤ Expected.level σ.val.regs.mode) : srdPre n σ = .ok () σ := by
  rw [srdPre, run_bind_ok (run_myCtx σ), hx]
  exact congrFun (if_pos ((admits_iff _ _).2 hmode)) σ

theorem run_srdPre_unlisted {n : BitVec 12} (hx : sreg n = none) (σ : At s0) : srdPre n σ = illegal σ := by
  rw [srdPre, run_bind_ok (run_myCtx σ), hx]

theorem run_srdPre_privileged {n : BitVec 12} {x : SReg} {σ : At s0} (hx : sreg n = some x)
    (hmode : Expected.level σ.val.regs.mode < x.reads.level) : srdPre n σ = privileged σ := by
  rw [srdPre, run_bind_ok (run_myCtx σ), hx]
  exact congrFun (if_neg fun h => Nat.not_le.2 hmode ((admits_iff _ _).1 h)) σ

/-- The mode is high enough for a write of the register. -/
def SReg.writableIn (x : SReg) (m : Mode) : Prop := ∃ g, x.writes = some g ∧ g.level ≤ Expected.level m

/-- A kernel's write of sr.status that asks for the monitor as PMODE (R348). -/
def asksMonitor (n : BitVec 12) (m : Mode) (v : Word) : Prop := n = 0x023 ∧ m = .kernel ∧ v.toNat / 4 % 4 = 2

theorem sreg_status_iff {n : BitVec 12} {x : SReg} (hx : sreg n = some x) : x = .status ↔ n = 0x023 := by
  constructor
  · rintro rfl
    exact BitVec.eq_of_toNat_eq (sreg_some hx).1
  · rintro rfl
    exact (Option.some.inj hx).symm

theorem asksMonitor_iff {n : BitVec 12} {x : SReg} (hx : sreg n = some x) (m : Mode) (v : Word) :
    (x == .status && m == .kernel && field v 2 2 == 2) = true ↔ asksMonitor n m v := by
  simp only [Bool.and_eq_true, beq_iff_eq, sreg_status_iff hx, and_assoc]
  rfl

theorem run_swrPre {n : BitVec 12} {a : XReg} {x : SReg} {σ : At s0} (hx : sreg n = some x)
    (hmode : x.writableIn σ.val.regs.mode) (hask : ¬ asksMonitor n σ.val.regs.mode (σ.val.regs.getX a)) :
    swrPre n a σ = .ok () σ := by
  obtain ⟨g, hg, hlevel⟩ := hmode
  have hadmits := (admits_iff g _).2 hlevel
  have hno := Bool.eq_false_iff.2 fun h => hask ((asksMonitor_iff hx _ _).1 h)
  rw [State.regs] at hadmits hno
  rw [swrPre, run_bind_ok (run_myCtx σ), hx]
  simp only [hg, hadmits, hno]
  rfl

theorem run_swrPre_unlisted {n : BitVec 12} (hx : sreg n = none) (a : XReg) (σ : At s0) : swrPre n a σ = illegal σ := by
  rw [swrPre, run_bind_ok (run_myCtx σ), hx]

theorem run_swrPre_privileged {n : BitVec 12} {a : XReg} {x : SReg} {σ : At s0} (hx : sreg n = some x)
    (h : ¬ x.writableIn σ.val.regs.mode ∨ asksMonitor n σ.val.regs.mode (σ.val.regs.getX a)) :
    swrPre n a σ = privileged σ := by
  rw [swrPre, run_bind_ok (run_myCtx σ), hx]
  cases hw : x.writes with
  | none =>
    simp only [hw]
    rfl
  | some g =>
    cases hadmits : g.admits (σ.val.ctx σ.val.cur).r.mode with
    | false =>
      simp only [hw, hadmits]
      rfl
    | true =>
      have hask := (asksMonitor_iff hx _ _).2 (h.resolve_left (not_not.2 ⟨g, hw, (admits_iff g _).1 hadmits⟩))
      rw [State.regs] at hask
      simp only [hw, hadmits, hask]
      rfl

theorem run_withSreg {n : BitVec 12} {x : SReg} (hx : sreg n = some x) (f : SReg → M s0 Fin) : withSreg n f = f x := by
  rw [withSreg, hx]

theorem exec_srd {d : XReg} {n : BitVec 12} {sy : Sync} {s : State} {x : SReg} (hq : s.Quiet sy) (hx : sreg n = some x)
    (hmode : x.reads.level ≤ Expected.level s.regs.mode) :
    exec (.srd d n sy) s = .next (s.goOn sy (s.regs.setX d (s.sregRead x))) := by
  show strandStep s sy false false (srdPre n) (withSreg n (srdBody d)) = _
  rw [run_withSreg hx, strandStep_regs (body := srdBody d x) hq (run_srdPre hx hmode) rfl rfl rfl]
  exact congrArg _ (goOn_def s sy _ (setX_pc _ _ _))

theorem exec_swr {n : BitVec 12} {a : XReg} {sy : Sync} {s : State} {x : SReg} (hq : s.Quiet sy) (hx : sreg n = some x)
    (hmode : x.writableIn s.regs.mode) (hask : ¬ asksMonitor n s.regs.mode (s.regs.getX a)) :
    exec (.swr n a sy) s =
      .next ((Expected.written s n.toNat (s.regs.getX a)).goOn sy (Expected.written s n.toNat (s.regs.getX a)).regs) := by
  obtain ⟨hn, hlisted⟩ := sreg_some hx
  have hw : x.writes ≠ none := by
    obtain ⟨g, hg, -⟩ := hmode
    exact fun h => nomatch hg.symm.trans h
  obtain ⟨τ, hτ, eτ⟩ := run_sregWrite hlisted hw (s.regs.getX a) (⟨s, .refl⟩ : At s)
  have hbody : swrBody a x (⟨s, .refl⟩ : At s) = .ok .next τ := by
    rw [swrBody, run_bind_ok (run_readX a _)]
    exact run_bind_ok hτ
  show strandStep s sy false false (swrPre n a) (withSreg n (swrBody a)) = _
  rw [run_withSreg hx, hn, ← eτ]
  exact strandStep_next hq (run_swrPre hx hmode hask) hbody (by rw [eτ]; exact hq.2.2.canComplete.written hlisted hw _)

/-- What R103 tables is what the model lists, register by register. -/
theorem special_iff (s : State) {n : BitVec 12} {rd : Nat} {wr : Option Nat} {v : Word} :
    Expected.special s n.toNat = some (rd, wr, v) ↔
      ∃ x, sreg n = some x ∧ rd = x.reads.level ∧ wr = x.writes.map Guard.level ∧ v = s.sregRead x := by
  cases hx : sreg n with
  | none => simp [special_unlisted s hx]
  | some x =>
    obtain ⟨hn, hlisted⟩ := sreg_some hx
    simp [hn, special_number s hlisted, eq_comm]

/-- Settles O9: the table, register by register, and the checks before the issue. -/
theorem specialRegisterAccess : Obligations.SpecialRegisterAccess := by
  unfold Obligations.SpecialRegisterAccess
  refine ⟨fun d n sy s rd wr v htable hmode hq => ?_, fun n a sy s rd wr v htable hmode hq hask => ?_,
    fun n x sy s hq hm => ?_⟩
  · obtain ⟨x, hx, rfl, -, rfl⟩ := (special_iff s).1 htable
    exact exec_srd hq hx hmode
  · obtain ⟨x, hx, -, hwr, -⟩ := (special_iff s).1 htable
    obtain ⟨g, hg, rfl⟩ := Option.map_eq_some_iff.1 hwr.symm
    exact exec_swr hq hx ⟨g, hg, hmode⟩ hask
  · dsimp only
    cases htable : Expected.special s n.toNat with
    | none =>
      have hx : sreg n = none := Option.eq_none_iff_forall_ne_some.2 fun y hy =>
        nomatch htable.symm.trans ((special_iff s).2 ⟨y, hy, rfl, rfl, rfl⟩)
      exact ⟨strandStep_pre_trap hq hm ((run_srdPre_unlisted hx _).trans (run_illegal _)) rfl,
        strandStep_pre_trap hq hm ((run_swrPre_unlisted hx x _).trans (run_illegal _)) rfl⟩
    | some e =>
      obtain ⟨rd, wr, v⟩ := e
      obtain ⟨y, hy, rfl, rfl, -⟩ := (special_iff s).1 htable
      have hswr (h : ¬ y.writableIn s.regs.mode ∨ asksMonitor n s.regs.mode (s.regs.getX x)) :
          exec (.swr n x sy) s = .next (s.trapped .priv false s.regs.pc (s.ctx s.cur).ir) :=
        strandStep_pre_trap hq hm ((run_swrPre_privileged hy h).trans (run_privileged _)) rfl
      refine ⟨fun hmode => strandStep_pre_trap hq hm ((run_srdPre_privileged hy hmode).trans (run_privileged _)) rfl,
        fun hmode => hswr (.inl ?_), fun hn hmode hv => hswr (.inr ⟨hn, hmode, hv⟩)⟩
      rintro ⟨g, hg, hlevel⟩
      exact Nat.not_lt.2 hlevel (hmode g.level (by rw [hg]; rfl))

end Sys2Proof.Machine
end

section
/-! BALL where sr.vl names more lanes than a mask has bits (R39, R94, R95, R397). -/

namespace Sys2Proof.Machine

variable {s0 : State}

/-- BANY and BALL of a strand that leads nobody ask of its own mask alone. -/
theorem run_maskBranchBody {s : State} (h : s.Alone) (k : KReg) (off : Word) (sy : Sync) (f : List (Word × Word) → Bool) :
    maskBranchBody k off sy f (⟨s, .refl⟩ : At s) =
      .ok (if f [(s.regs.getK k &&& laneMask s.regs.lanes, laneMask s.regs.lanes)] then .jump (branchTarget s.regs.pc off)
        else .next) ⟨s, .refl⟩ := by
  obtain ⟨-, htrace, hfollow, -, -, -, hprog, -⟩ := h
  have hmask : s.maskFollowers s.cur = [] := by
    rw [State.maskFollowers, hfollow]
    split <;> rfl
  have hsets : s.maskSets s.cur k = [(s.regs.getK k &&& laneMask s.regs.lanes, laneMask s.regs.lanes)] := by
    rw [State.maskSets, hmask]
    rfl
  have hmade : (s.ctx s.cur).prog.made = 0 := by rw [hprog]; rfl
  rw [maskBranchBody, run_bind_ok (run_st _), run_bind_ok (run_myCtx _)]
  simp only [htrace, hmask, hmade, hsets]
  rfl

/-- BALL goes to its target where every bit of the mask of the lanes below sr.vl is set. -/
theorem ball_taken {s : State} {sy : Sync} (hq : s.Quiet sy) {k : KReg}
    (hall : s.regs.getK k &&& laneMask s.regs.lanes = laneMask s.regs.lanes) (off : Word) :
    exec (.ball k off sy) s =
      .next (s.retireAs { s.regs with pc := branchTarget s.regs.pc off } (isCrack (branchTarget s.regs.pc off))) := by
  have hbody := run_maskBranchBody hq.2.2 k off sy fun l => l.all fun p => p.1 == p.2
  rw [if_pos (by simp [hall])] at hbody
  exact strandStep_plain hq (run_pure _ _) hbody rfl rfl rfl rfl rfl

/-- The rule asks BALL for a set bit of every lane below sr.vl, and a mask has no bit past its 64. -/
theorem ball_past_mask {r : Regs} (hvl : 64 < r.vl.toNat) (k : KReg) (off : Word) (sy : Sync) :
    Expected.branch (.ball k off sy) r = some ({ r with pc := r.pc + 8 * (if sy.ext = .none then 1 else 2) }, sy) := by
  have hclear : ¬ ∀ i < r.vl.toNat, (r.getK k).getLsbD i = true := fun h =>
    Bool.false_ne_true ((BitVec.getLsbD_of_ge _ 64 (Nat.le_refl 64)).symm.trans (h 64 hvl))
  simp only [Expected.branch, decide_eq_false hclear]
  rfl

/-- Refutes O26, by an instruction without wait and signal in a state where sr.vl is 65: the mask of the lanes below sr.vl has
only 64 bits, which k0 all sets, so that BALL branches to 24; the statement's rule asks for a 65th bit, and goes on at 8. -/
theorem not_synchronisedResult : ¬ Obligations.SynchronisedResult := by
  unfold Obligations.SynchronisedResult
  rintro ⟨h, -⟩
  let sy : Sync := { ext := .none, wait := none, sig := none, scope := .device }
  let s : State := { State.reset with ctxs := [(0, { Ctx.reset false with r := { Regs.reset false with vl := 65 } })] }
  have halone : s.Alone := ⟨rfl, rfl, rfl, rfl, rfl, rfl, rfl, rfl⟩
  have hrule : Expected.exact (.ball 0 3 sy) (vlMax (coreOf s.cur)) s.regs = some ({ s.regs with pc := 8 }, sy) := by
    simp only [Expected.exact, Expected.scalarInt, Expected.scalarFp, ball_past_mask (r := s.regs) (by decide)]
    rfl
  obtain ⟨t, ht, -, hregs, -⟩ :=
    h (.ball 0 3 sy) s _ sy hrule halone ⟨rfl, rfl, rfl⟩ (fun _ h => nomatch h) (fun _ h => nomatch h)
  have htaken := ball_taken (s := s) (sy := sy) ⟨rfl, rfl, halone⟩ (k := 0) (by decide) 3
  have hpc : t.regs.pc = 24 := by
    rw [← Host.Outcome.next.inj (htaken.symm.trans ht), retireAs_regs]
    rfl
  have hstay : t.regs.pc = 8 := congrArg Regs.pc hregs
  exact absurd (hstay.symm.trans hpc) (by decide : (8 : Word) ≠ 24)

end Sys2Proof.Machine
end

section
/-! What a strand's access of global memory leaves once it has touched L1 (R140, R141, R143), and how a load or a lease completes,
with its data or with its reference outstanding (R55). -/

namespace Sys2Proof.Machine

variable {s0 : State} {α β : Type}

/-! ### Lines that come into L1 and L2 -/

/-- Between two states lines come into caches and choices are taken; no core joins or leaves a trace set. -/
structure State.Fetches (s t : State) : Prop where
  frame : t = { s with cores := t.cores, dies := t.dies, oracle := t.oracle }
  trace : ∀ n, (t.core n).trace = (s.core n).trace

theorem fetches_chains : Chains State.Fetches where
  refl _ := ⟨rfl, fun _ => rfl⟩
  trans {s t u} h h' := ⟨by rw [h'.frame, h.frame], fun n => (h'.trace n).trans (h.trace n)⟩

/-- A loop with a value of its own goes where each of its turns does. -/
theorem Goes.forInGather {R : State → State → Prop} (hR : Chains R) (l : List α) {f : α → β → M s0 (ForInStep β)} (b : β)
    (hf : ∀ x ∈ l, ∀ b (σ : At s0), ∃ b' τ, f x b σ = .ok (.yield b') τ ∧ R σ.val τ.val) : Goes R (ForIn.forIn l b f) := by
  intro σ
  exact run_forIn_gather (P := fun _ _ t => R σ.val t) l
    (fun _ x hx b ρ h => by
      obtain ⟨b', τ, hτ, h'⟩ := hf x hx b ρ
      exact ⟨b', τ, hτ, hR.trans h h'⟩)
    [] b σ (hR.refl _)

theorem goes_choose_fetches (n : Nat) : Goes (s0 := s0) State.Fetches (choose n) :=
  fun σ => ⟨_, σ.upd .choose, rfl, rfl, fun _ => rfl⟩

theorem goes_modCore_fetches (n : Nat) {f : Core → Core} (hf : ∀ c, (f c).trace = c.trace) :
    Goes (s0 := s0) State.Fetches (modCore n f) := fun σ => by
  refine ⟨_, _, run_modCore n f σ, rfl, fun m => ?_⟩
  rw [At.upd_val, core_of_upd]
  split
  · next h => rw [hf, h]
  · rfl

theorem goes_modDie_fetches (n : Nat) (f : Die → Die) : Goes (s0 := s0) State.Fetches (modDie n f) :=
  fun σ => ⟨_, _, run_modDie n f σ, rfl, fun _ => rfl⟩

theorem goes_readLine (pa n key : Nat) : Goes (s0 := s0) State.Fetches (readLine pa n key) := by
  have hc := fetches_chains
  unfold readLine
  refine .bind hc (.st hc) fun s => ?_
  dsimp only
  cases TMap.find s.lineKey (pa / 256) with
  | none => exact .pure hc _
  | some w =>
    dsimp only
    split
    · exact .pure hc _
    · cases TMap.find s.keyPlain (pa / 256 * 2 ^ 40 + s.keyTag key) with
      | none => exact .pure hc _
      | some bs => exact .bind hc (goes_choose_fetches 2) fun i => .pure hc _

theorem goes_readBytes (pa n key : Nat) : Goes (s0 := s0) State.Fetches (readBytes pa n key) := by
  have hc := fetches_chains
  unfold readBytes
  refine .bind hc (.forInGather hc _ _ fun p _ out σ => ?_) fun _ => .pure hc _
  obtain ⟨bs, τ, hτ, h⟩ := goes_readLine (pa + p.1) p.2 key σ
  exact ⟨_, τ, run_bind_ok hτ, h⟩

theorem goes_intoCache (m : TMap L1Line) (size k : Nat) (x : L1Line) :
    Goes (s0 := s0) State.Fetches (intoCache m size k x) := by
  have hc := fetches_chains
  unfold intoCache
  dsimp only
  split
  · exact .bind hc (goes_choose_fetches _) fun i => .pure hc _
  · exact .bind hc (.pure hc _) fun i => .pure hc _

theorem goes_holdLine (core : Nat) (asid : BitVec 16) (va : Word) (x : L1Line) (before1 before2 : BitVec 256) :
    Goes (s0 := s0) State.Fetches (holdLine core asid va x before1 before2) := by
  have hc := fetches_chains
  unfold holdLine
  refine .bind hc (.st hc) fun s => .bind hc (goes_intoCache _ _ _ _) fun m =>
    .bind hc (goes_modCore_fetches _ fun _ => rfl) fun _ => ?_
  split
  · exact .bind hc (goes_intoCache _ _ _ _) fun m => goes_modDie_fetches _ _
  · exact .pure hc _

theorem goes_fillL1 (core : Nat) (asid : BitVec 16) (va : Word) (p : LPlace) (leaf : Option TlbEntry) (mask : BitVec 256)
    (own : Bool) : Goes (s0 := s0) State.Fetches (fillL1 core asid va p leaf mask own) := by
  have hc := fetches_chains
  unfold fillL1
  cases p with
  | phys pa =>
    exact .bind hc (.st hc) fun s => .bind hc (goes_readBytes _ _ _) fun bs => .bind hc (.pure hc _) fun r =>
      .bind hc (.st hc) fun s => goes_holdLine _ _ _ _ _ _
  | loc | far | region =>
    exact .bind hc (.pure hc _) fun r => .bind hc (.st hc) fun s => goes_holdLine _ _ _ _ _ _

theorem goes_touchL1 (x : Access) (n : Nat) : Goes (s0 := s0) State.Fetches (touchL1 x n) := by
  have hc := fetches_chains
  have hfill (core : Nat) (asid : BitVec 16) (p : LPlace) (leaf : Option TlbEntry) (mask : BitVec 256) :
      Goes (s0 := s0) State.Fetches (do
        fillL1 core asid x.va p leaf mask false
        return !x.hit) :=
    .bind hc (goes_fillL1 _ _ _ _ _ _ _) fun _ => .pure hc _
  unfold touchL1
  refine .bind hc (.st hc) fun s => ?_
  cases x.place with
  | none => exact .pure hc _
  | some p =>
    cases p with
    | loc | region => exact .pure hc _
    | far k =>
      dsimp only
      split
      · exact .pure hc _
      · split
        · exact .pure hc _
        · exact hfill _ _ _ _ _
    | phys pa =>
      dsimp only
      split
      · exact .pure hc _
      · split
        · exact .pure hc _
        · cases s.heldVersion x.va x.l2 with
          | none => exact hfill _ _ _ _ _
          | some y =>
            dsimp only
            split
            · exact .bind hc (goes_holdLine _ _ _ _ _ _) fun _ => .pure hc _
            · exact hfill _ _ _ _ _

/-! ### Completion of a load or a lease -/

theorem State.Fetches.ctx {s t : State} (h : s.Fetches t) (a : Nat) : t.ctx a = s.ctx a := by
  rw [h.frame]
  rfl

/-- What the completion of a load or a lease leaves: the strand is past the instruction, with the registers that it has, and may
wait for its reference; of the other strands nothing changes but which of a core's runs. -/
structure State.Completes (sy : Sync) (s t : State) : Prop where
  frame : t = { s with ctxs := t.ctxs, cores := t.cores }
  self : ∃ ph w old, t.ctx s.cur =
    { s.ctx s.cur with
      r := { s.regs with pc := nextPc s.regs.pc sy }, prog := Progress.none, straight := false, phase := ph, wait := w,
      before := old }
  other : ∀ b, b ≠ s.cur → (t.ctx b).r = (s.ctx b).r

/-- The wait of a strand for its outstanding off-core reference (R55). -/
def refWait : Wait := { kind := .ref, watches := [], all := false, deadline := none }

/-- A load or a lease whose reference is outstanding completes, and the strand waits for it. -/
theorem run_complete_offcore {sy : Sync} {old : Before} {σ π : At s0} (hs : sy.sig = none) (hf : σ.val.fwd = none)
    (hb : σ.val.isFollower (coreOf σ.val.cur) = false) (hprog : (σ.val.ctx σ.val.cur).prog = Progress.none)
    (hπ : forward σ.val.regs.pc (nextPc σ.val.regs.pc sy) σ = .ok () π) :
    let ρ := π.retireAs { π.val.regs with pc := nextPc σ.val.regs.pc sy } false
    complete sy false old (.offcore true) σ =
      switchOut σ.val.cur .waiting (ρ.upd (.ctx ρ.val.cur { ρ.val.ctx ρ.val.cur with wait := some refWait, before := some old })) := by
  have hq : (σ.val.ctx σ.val.cur).prog.lease = none := by rw [hprog]; rfl
  have hh : (σ.val.ctx σ.val.cur).prog.handed = false := by rw [hprog]; rfl
  simp only [State.regs] at hπ
  simp [complete, run_bind, run_leaveQueue hq, hh, run_nextOf sy hf, hb, hf, signalOwed, owesSignal, hs, hπ,
    Fin.target, Fin.straight, Fin.again, refWait, State.regs, At.retireAs]

/-- The strand completes, and goes on or waits for the outstanding reference. -/
theorem run_complete_loaded {sy : Sync} {old : Before} {σ : At s0} (miss : Bool) (hs : sy.sig = none)
    (hf : σ.val.fwd = none) (ht : (σ.val.core (coreOf σ.val.cur)).trace = .none)
    (hprog : (σ.val.ctx σ.val.cur).prog = Progress.none) :
    ∃ τ, complete sy false old (loaded miss) σ = .ok () τ ∧ σ.val.Completes sy τ.val := by
  have hb : σ.val.isFollower (coreOf σ.val.cur) = false := by rw [State.isFollower, ht]; rfl
  have haddr : σ.val.nextAddr sy = nextPc σ.val.regs.pc sy := by rw [State.nextAddr, hf]
  obtain ⟨π, cores, hπ, eπ, hkept, -⟩ := run_forward σ.val.regs.pc (nextPc σ.val.regs.pc sy) σ
  have hcur : π.val.cur = σ.val.cur := by rw [eπ]
  have hctx (a : Nat) : π.val.ctx a = σ.val.ctx a := by rw [eπ]; rfl
  have hregs : π.val.regs = σ.val.regs := by rw [State.regs, hcur, hctx]; rfl
  let ρ := π.retireAs { π.val.regs with pc := nextPc σ.val.regs.pc sy } false
  have hself : ρ.val.ctx σ.val.cur = { σ.val.ctx σ.val.cur with
      r := { σ.val.regs with pc := nextPc σ.val.regs.pc sy }, prog := Progress.none, straight := false } := by
    rw [At.retireAs_val, State.retireAs, hcur, ctx_upd_same, hregs, hctx]
  have hother (b : Nat) (h : b ≠ σ.val.cur) : ρ.val.ctx b = σ.val.ctx b :=
    (ctx_upd_ne _ _ (by rw [hcur]; exact h)).trans (hctx b)
  have hframe : ρ.val = { σ.val with ctxs := ρ.val.ctxs, cores := ρ.val.cores } := by
    rw [At.retireAs_val, State.retireAs, eπ]
    rfl
  cases miss with
  | false =>
    refine ⟨ρ, ?_, hframe, ⟨_, _, _, hself⟩, fun b h => by rw [hother b h]⟩
    have h := run_complete_next (old := old) (sy := sy) (σ := σ) (τ := π) hs (by rw [hprog]; rfl) (by rw [hprog]; rfl)
      ((congrFun (if_neg (ne_true_of_eq_false hb)) σ).trans (by rw [haddr]; exact hπ))
    rw [haddr] at h
    exact h
  | true =>
    let x := { ρ.val.ctx ρ.val.cur with wait := some refWait, before := some old }
    let υ := ρ.upd (.ctx ρ.val.cur x)
    have hρcur : ρ.val.cur = σ.val.cur := hcur
    have htrace : (υ.val.core (coreOf σ.val.cur)).trace = .none :=
      (congrArg Core.trace (hkept _ ht)).trans ht
    obtain ⟨τ, ctxs, cores, hτ, eτ, hτself, hτother⟩ :=
      run_switchOut_stop σ.val.cur (p := .waiting) Phase.noConfusion υ htrace
    refine ⟨τ, (run_complete_offcore hs hf hb hprog hπ).trans hτ, ?_, ⟨.waiting, some refWait, some old, ?_⟩, fun b h => ?_⟩
    · rw [eτ, At.upd_val, hframe]
      rfl
    · rw [hτself, At.upd_val, ← hρcur, ctx_upd_same]
      dsimp only [x]
      rw [hρcur, hself]
    · have hυ : υ.val.ctx b = σ.val.ctx b := (ctx_upd_ne _ _ (by rw [hρcur]; exact h)).trans (hother b h)
      rcases hτother b h with e | e <;> rw [e, hυ]

/-- The step of a quiet strand whose body ends as a load or a lease does. -/
theorem strandStep_loaded {s : State} {sy : Sync} {pre : M s Unit} {body : M s Fin} {σ : At s} {miss : Bool}
    (hq : s.Quiet sy) (hpre : pre ⟨s, .refl⟩ = .ok () ⟨s, .refl⟩) (hbody : body ⟨s, .refl⟩ = .ok (loaded miss) σ)
    (hcur : σ.val.cur = s.cur) (hfwd : σ.val.fwd = s.fwd) (htrace : ∀ n, (σ.val.core n).trace = (s.core n).trace)
    (hprog : (σ.val.ctx s.cur).prog = (s.ctx s.cur).prog) :
    ∃ t, strandStep s sy false false pre body = .next t ∧ σ.val.Completes sy t := by
  obtain ⟨-, hs, hf, ht, -, -, -, -, hp, -⟩ := id hq
  obtain ⟨τ, hτ, h⟩ := run_complete_loaded (old := s.before) miss hs (hfwd.trans hf)
    (by rw [htrace, hcur]; exact ht) (by rw [hcur, hprog]; exact hp)
  exact ⟨τ.val, strandStep_ok ((issue_body hq hpre hbody).trans hτ), h⟩

end Sys2Proof.Machine
end

section
/-! LEASE and UNLEASE (R172 to R174, R434, R475). -/

namespace Sys2Proof.Machine

variable {s0 : State}

/-! ### The access of LEASE -/

/-- The check of an element of near memory that no load makes: it is translated, whatever the caches hold. -/
theorem run_checkElem_xlate {σ : At s0} {va : Word} {pa : Nat} {k : Kind} (n : Nat) (plain : Bool) (hk : k ≠ .load)
    (h : Expected.Maps σ.val k va pa) (hlease : (σ.val.ctx σ.val.cur).prog.lease = none) :
    ∃ x τ, checkElem va n k plain σ = .ok (.ok x) τ ∧ x.va = va ∧ x.place = some (.phys pa) ∧ σ.val.Looks τ.val := by
  obtain ⟨-, hregion, htrans, -, -, -⟩ := h
  obtain ⟨hcanon, -, -, -, -, hconfig, -⟩ := id htrans
  have hok : configOk (.phys pa) n plain = true := by simp [configOk, hconfig]
  have hno : (σ.val.ctx σ.val.cur).prog.lease.bind (fun w => w.at_.find? fun e => e.1 == va) = none := by
    rw [hlease]
    rfl
  have hoff : σ.val.regionOff (σ.val.ctx σ.val.cur).r.mode va n = none := regionOff_none hregion va n
  obtain ⟨y, ρ, hρ, hsample, -⟩ := run_probeCache σ.val.cur va n σ
  obtain ⟨τ, hτ, hlook, -⟩ := run_xlate (hsample.translates htrans)
  refine ⟨{ va := va, place := some (.phys pa), hit := y.any fun h => !h.2, l2 := y.any fun h => h.2 }, τ, ?_, rfl, rfl,
    looks_chains.trans hsample.looks hlook⟩
  unfold checkElem
  rw [run_bind_ok (run_st σ)]
  simp only [hno, hoff]
  rw [canonical_of hcanon]
  refine (run_bind_ok hρ).trans ?_
  cases k with
  | load => exact absurd rfl hk
  | store | fetch | atomic | lease | counter =>
    dsimp only
    refine (run_bind_ok hτ).trans ((run_bind_ok (run_pure _ τ)).trans ?_)
    simp only [hok, if_true]
    rfl

/-- Between two states pages are looked up, lines come into caches and logical time passes. -/
structure State.Accesses (s t : State) : Prop where
  frame : t = { s with cores := t.cores, dies := t.dies, times := t.times, joins := t.joins, oracle := t.oracle }
  trace : ∀ n, (t.core n).trace = (s.core n).trace

theorem accesses_chains : Chains State.Accesses where
  refl _ := ⟨rfl, fun _ => rfl⟩
  trans {s t u} h h' := ⟨by rw [h'.frame, h.frame], fun n => (h'.trace n).trans (h.trace n)⟩

theorem Expected.Timed.accesses {s t : State} (h : Expected.Timed s t) : s.Accesses t where
  frame := by rw [h]
  trace n := by rw [h]; rfl

theorem State.Fetches.accesses {s t : State} (h : s.Fetches t) : s.Accesses t := ⟨by rw [h.frame], h.trace⟩

/-! ### The grant -/

/-- The lease of a line that the home grants the strand now. -/
def State.newLease (s : State) (va : Word) (pa : Nat) : Lease :=
  let bound := (s.die (dieOf s.cur)).leaseBound.toNat
  { va := lineOf va, asid := s.regs.asid, line := pa / 256, granted := s.time, bound := bound, live := bound != 0 }

/-- The leases of a context on other lines than that of an address. -/
def Ctx.leasesElsewhere (c : Ctx) (va : Word) : List Lease :=
  c.leases.filter fun l => !(l.va == lineOf va && l.asid == c.r.asid)

/-- The state once the strand holds the lease that it asks for. -/
def State.grants (s : State) (va : Word) (pa : Nat) : State :=
  (Upd.ctx s.cur
    { s.ctx s.cur with leases := (s.ctx s.cur).leasesElsewhere va ++ [s.newLease va pa] }).apply s

theorem run_grantLease (va : Word) (pa : Nat) (σ : At s0) :
    ∃ τ, grantLease va pa σ = .ok () τ ∧ τ.val = σ.val.grants va pa := ⟨_, rfl, rfl⟩

/-- The lookup of the page leaves what is granted as it is. -/
theorem State.Looks.grants {s t : State} (h : s.Looks t) (va : Word) (pa : Nat) :
    (s.grants va pa).Accesses (t.grants va pa) := by
  have hctx : t.ctx t.cur = s.ctx s.cur := by rw [h.frame]; rfl
  have hnew : t.newLease va pa = s.newLease va pa := by
    have hbound : (t.die (dieOf t.cur)).leaseBound = (s.die (dieOf s.cur)).leaseBound := by
      rw [h.die, h.frame]
    unfold State.newLease State.regs
    rw [hbound, hctx, h.frame]
  unfold State.grants
  rw [hctx, hnew, h.frame]
  exact ⟨rfl, fun _ => rfl⟩

/-- Of fewer than four live leases none has to end for another. -/
theorem run_endFifth {σ : At s0} {va : Word} (h : ((σ.val.ctx σ.val.cur).leases.filter (·.live)).length < 4) :
    endFifth va σ = .ok () σ := by
  have hlive : ((σ.val.ctx σ.val.cur).leases.filter fun l =>
      l.live && !(l.va == lineOf va && l.asid == (σ.val.ctx σ.val.cur).r.asid)).length < 4 := by
    refine Nat.lt_of_le_of_lt ?_ h
    exact (List.monotone_filter_right _ fun l hl => (Bool.and_eq_true_iff.1 hl).1).length_le
  unfold endFifth
  refine (run_bind_ok (run_st σ)).trans ?_
  cases hl : (σ.val.ctx σ.val.cur).leases.filter fun l =>
      l.live && !(l.va == lineOf va && l.asid == (σ.val.ctx σ.val.cur).r.asid) with
  | nil => rfl
  | cons l ls =>
    rw [hl] at hlive
    exact congrFun (if_neg (Nat.not_le.2 hlive)) σ

/-- The context holds no live lease on the line. -/
theorem leaseOn_not_live {c : Ctx} {va : Word}
    (h : ∀ l ∈ c.leases, l.va = lineOf va → l.asid = c.r.asid → l.live = false) : (c.leaseOn va).any (·.live) = false := by
  cases hl : c.leaseOn va with
  | none => rfl
  | some l =>
    unfold Ctx.leaseOn at hl
    have hkey := List.find?_some hl
    obtain ⟨hva, hasid⟩ := Bool.and_eq_true_iff.1 hkey
    exact h l (List.mem_of_find?_eq_some hl) (eq_of_beq hva) (eq_of_beq hasid)

/-- Where the context holds no live lease on the line, each of its live leases is on another. -/
theorem mem_leasesElsewhere {c : Ctx} {va : Word} {l : Lease}
    (h : ∀ l ∈ c.leases, l.va = lineOf va → l.asid = c.r.asid → l.live = false) (hl : l ∈ c.leases) (hlive : l.live = true) :
    l ∈ c.leasesElsewhere va := by
  refine List.mem_filter.2 ⟨hl, ?_⟩
  cases hkey : l.va == lineOf va && l.asid == c.r.asid with
  | false => rfl
  | true =>
    obtain ⟨hva, hasid⟩ := Bool.and_eq_true_iff.1 hkey
    rw [h l hl (eq_of_beq hva) (eq_of_beq hasid)] at hlive
    cases hlive

theorem run_afterSignal {σ : At s0} (h : (σ.val.ctx σ.val.cur).prog = Progress.none) : afterSignal σ = .ok () σ := by
  unfold afterSignal
  rw [run_bind_ok (run_myCtx σ), h]
  rfl

/-- LEASE of a line of near memory that the context does not hold, while it holds fewer than four. -/
theorem run_leaseBody {σ : At s0} {a : XReg} {disp : Word} {pa : Nat}
    (hprog : (σ.val.ctx σ.val.cur).prog = Progress.none) (hlines : (σ.val.ctx σ.val.cur).lines = [])
    (hmaps : Expected.Maps σ.val .lease (σ.val.regs.getX a + disp) pa)
    (hnew : ((σ.val.ctx σ.val.cur).leaseOn (σ.val.regs.getX a + disp)).any (·.live) = false)
    (hfour : ((σ.val.ctx σ.val.cur).leases.filter (·.live)).length < 4) :
    ∃ miss τ, leaseBody a disp σ = .ok (loaded miss) τ ∧ (σ.val.grants (σ.val.regs.getX a + disp) pa).Accesses τ.val := by
  let va := σ.val.regs.getX a + disp
  obtain ⟨-, -, -, hother, -, -⟩ := id hmaps
  obtain ⟨x, ρ, hρ, -, hx, hlook⟩ := run_checkElem_xlate 1 false Kind.noConfusion hmaps (by rw [hprog]; rfl)
  have hctx : ρ.val.ctx ρ.val.cur = σ.val.ctx σ.val.cur := by rw [hlook.frame]; rfl
  have hwait : waitLease [x] ρ = .ok () ρ := run_waitLease_one hx (by rw [hlook.frame]; exact hother)
  obtain ⟨π, hπ, eπ⟩ := run_grantLease va pa ρ
  obtain ⟨_, υ, hυ, htimed⟩ := goes_stampLines (some ρ.val.cur) pa 1 π
  obtain ⟨miss, τ, hτ, hfetch⟩ := goes_touchL1 x 1 υ
  refine ⟨miss, τ, ?_, accesses_chains.trans (hlook.grants va pa)
    (eπ ▸ accesses_chains.trans htimed.accesses hfetch.accesses)⟩
  have hcur : ρ.val.cur = σ.val.cur := by rw [hlook.frame]
  rw [hcur] at hυ
  unfold leaseBody
  refine (run_bind_ok (run_st σ)).trans ((run_bind_ok (run_drainStores hlines)).trans ((run_bind_ok (run_myCtx σ)).trans
    ((run_bind_ok (run_afterSignal hprog)).trans ((run_bind_ok (run_checkGlobal_one hρ)).trans ?_))))
  simp only [hx]
  refine (congrFun (if_neg (ne_true_of_eq_false hnew)) ρ).trans
    ((run_bind_ok (run_endFifth (by rw [hctx]; exact hfour))).trans ((run_bind_ok hwait).trans ((run_bind_ok hπ).trans ?_)))
  exact (run_bind_ok hυ).trans ((run_bind_ok hτ).trans (run_pure _ τ))

/-! ### UNLEASE -/

/-- An update of a context that leaves its wait alone brings no wait that was not there. -/
theorem wait_of_upd_ctx {s : State} {a : Nat} {x : Ctx} (hx : x.wait = (s.ctx a).wait) {p : Nat × Ctx}
    (hp : p ∈ ((Upd.ctx a x).apply s).ctxs) {w : Wait} (hw : p.2.wait = some w) : ∃ q ∈ s.ctxs, q.2.wait = some w := by
  rcases TMap.mem_put hp with rfl | hp
  · exact ctx_wait_mem (hx.symm.trans hw)
  · exact ⟨p, hp, hw⟩

/-- No context waits behind a lease on the line: its end wakes none. -/
theorem run_wakeLine_none {σ : At s0} {line : Nat} (h : ∀ p ∈ σ.val.ctxs, ∀ w, p.2.wait = some w → w.kind ≠ .leased line) :
    wakeLine line σ = .ok () σ := by
  unfold wakeLine
  refine (run_bind_ok (run_st σ)).trans ((run_bind_ok (run_forIn_skip fun (a, x) hp => ?_)).trans (run_pure _ σ))
  dsimp only
  cases hw : x.wait with
  | none => rfl
  | some w => exact congrFun (if_neg fun hk => h _ hp w hw (eq_of_beq hk)) σ

/-- UNLEASE of a line on which the context has no lease gives 2. -/
theorem run_unleaseBody_none {d a : XReg} {disp : Word} {σ : At s0}
    (h : (σ.val.ctx σ.val.cur).leaseOn (σ.val.regs.getX a + disp) = none)
    (hlost : (σ.val.ctx σ.val.cur).leasesLost = false) :
    unleaseBody d a disp σ = .ok .next (σ.upd (.ctx σ.val.cur ((σ.val.ctx σ.val.cur).setX d 2))) := by
  simp only [State.regs] at h
  unfold unleaseBody
  rw [run_bind_ok (run_myCtx σ)]
  simp only [h, hlost]
  rfl

/-- UNLEASE of a line on which the context has a lease gives 0 where it lives, else 1, and the lease is gone. -/
theorem run_unleaseBody_some {d a : XReg} {disp : Word} {σ : At s0} {l : Lease}
    (h : (σ.val.ctx σ.val.cur).leaseOn (σ.val.regs.getX a + disp) = some l) (hlines : (σ.val.ctx σ.val.cur).lines = [])
    (hwait : ∀ p ∈ σ.val.ctxs, ∀ w, p.2.wait = some w → w.kind ≠ .leased l.line) :
    ∃ τ, unleaseBody d a disp σ = .ok .next τ ∧ τ.val = (Upd.ctx σ.val.cur
      { (σ.val.ctx σ.val.cur).setX d (if l.live then 0 else 1) with
        leases := (σ.val.ctx σ.val.cur).leases.filter fun y => y != l }).apply σ.val := by
  let c := σ.val.ctx σ.val.cur
  let leases := c.leases.filter fun y => y != l
  let ρ := (σ.upd (.ctx σ.val.cur { c with leases := leases })).upd
    (.ctx σ.val.cur ({ c with leases := leases }.setX d (if l.live then 0 else 1)))
  have hwrite : writeX d (if l.live then 0 else 1) (σ.upd (.ctx σ.val.cur { c with leases := leases })) = .ok () ρ := by
    rw [run_writeX, At.upd_val, ctx_cur, ctx_upd_same]
  have hρ : ρ.val = (Upd.ctx σ.val.cur { c.setX d (if l.live then 0 else 1) with leases := leases }).apply σ.val :=
    upd_ctx_ctx _ _ _ _
  refine ⟨ρ, ?_, hρ⟩
  simp only [State.regs] at h
  unfold unleaseBody
  rw [run_bind_ok (run_myCtx σ)]
  simp only [h]
  have hwake : wakeLine l.line ρ = .ok () ρ := run_wakeLine_none fun p hp w hw => by
    rw [hρ] at hp
    obtain ⟨q, hq, hqw⟩ := wait_of_upd_ctx (by rfl) hp hw
    exact hwait q hq w hqw
  cases hlive : l.live with
  | false =>
    rw [hlive] at hwrite
    exact (run_bind_ok (run_st σ)).trans ((run_bind_ok (run_modMe _ σ)).trans ((run_bind_ok hwrite).trans rfl))
  | true =>
    rw [hlive] at hwrite
    exact (run_bind_ok (run_st σ)).trans ((run_bind_ok (run_drainStores hlines)).trans ((run_bind_ok (run_modMe _ σ)).trans
      ((run_bind_ok hwrite).trans ((run_bind_ok hwake).trans rfl))))

/-! ### The steps of LEASE and UNLEASE -/

/-- The step of LEASE that is granted: the strand holds the lease, and nothing else of it or of memory changes. -/
theorem exec_lease_granted {a : XReg} {disp : Word} {sy : Sync} {s : State} {pa : Nat} (hq : s.Quiet sy)
    (hlines : (s.ctx s.cur).lines = []) (hmaps : Expected.Maps s .lease (s.regs.getX a + disp) pa)
    (hnew : ((s.ctx s.cur).leaseOn (s.regs.getX a + disp)).any (·.live) = false)
    (hfour : ((s.ctx s.cur).leases.filter (·.live)).length < 4) :
    ∃ u t : State, (s.grants (s.regs.getX a + disp) pa).Accesses u ∧ u.Completes sy t ∧ exec (.lease a disp sy) s = .next t := by
  obtain ⟨-, -, -, -, -, -, -, -, hprog, -⟩ := id hq
  obtain ⟨miss, σ, hσ, hacc⟩ := run_leaseBody (σ := (⟨s, .refl⟩ : At s)) hprog hlines hmaps hnew hfour
  have hself : σ.val.ctx s.cur = (s.grants (s.regs.getX a + disp) pa).ctx s.cur := by rw [hacc.frame]; rfl
  obtain ⟨t, ht, hdone⟩ := strandStep_loaded hq (run_pure _ _) hσ (by rw [hacc.frame]; rfl) (by rw [hacc.frame]; rfl)
    hacc.trace (by rw [hself, State.grants, ctx_upd_same])
  exact ⟨σ.val, t, hacc, hdone, ht⟩

/-- What the strand and the device are once the lease is granted and the instruction complete. -/
theorem keeps_of_grants {sy : Sync} {s u t : State} {va : Word} {pa : Nat} (hacc : (s.grants va pa).Accesses u)
    (hdone : u.Completes sy t) :
    Expected.Keeps s t ∧ t.mem = s.mem ∧ t.bad = s.bad ∧ t.regs = { s.regs with pc := nextPc s.regs.pc sy } ∧
      (t.ctx s.cur).leases = (s.ctx s.cur).leasesElsewhere va ++ [s.newLease va pa] := by
  have hframe : t = { s with
      ctxs := t.ctxs, cores := t.cores, dies := t.dies, times := t.times, joins := t.joins, oracle := t.oracle } := by
    rw [hdone.frame, hacc.frame]
    rfl
  have hcur : u.cur = s.cur := by rw [hacc.frame]; rfl
  have hctx (b : Nat) : u.ctx b = (s.grants va pa).ctx b := by rw [hacc.frame]; rfl
  obtain ⟨ph, w, old, hself⟩ := hdone.self
  have huregs : u.regs = s.regs := by rw [State.regs, hcur, hctx, State.grants, ctx_upd_same]; rfl
  rw [huregs, hctx, hcur, State.grants, ctx_upd_same] at hself
  refine ⟨keeps_of_frame (by rw [hframe]; rfl) (fun _ => by rw [hframe]) fun b hb => ?_, by rw [hframe], by rw [hframe], ?_, ?_⟩
  · rw [hdone.other b (by rw [hcur]; exact hb), hctx, State.grants, ctx_upd_ne _ _ hb]
  · have htcur : t.cur = s.cur := by rw [hframe]
    rw [State.regs, htcur, hself]
  · rw [hself]

/-- The step of UNLEASE of a line on which the context has no lease. -/
theorem exec_unlease_none {d a : XReg} {disp : Word} {sy : Sync} {s : State} (hq : s.Quiet sy)
    (h : (s.ctx s.cur).leaseOn (s.regs.getX a + disp) = none) (hlost : (s.ctx s.cur).leasesLost = false) :
    exec (.unlease d a disp sy) s = .next (s.goOn sy (s.regs.setX d 2)) := by
  have hstep : execUnlease d a disp sy s = _ :=
    strandStep_regs hq (run_pure _ _) (run_unleaseBody_none (d := d) (σ := (⟨s, .refl⟩ : At s)) h hlost) rfl rfl
  exact hstep.trans (congrArg _ (goOn_def s sy _ (setX_pc _ _ _)))

/-- The step of UNLEASE of a line on which the context has a lease. -/
theorem exec_unlease_some {d a : XReg} {disp : Word} {sy : Sync} {s : State} {l : Lease} (hq : s.Quiet sy)
    (h : (s.ctx s.cur).leaseOn (s.regs.getX a + disp) = some l) (hlines : (s.ctx s.cur).lines = [])
    (hwait : ∀ p ∈ s.ctxs, ∀ w, p.2.wait = some w → w.kind ≠ .leased l.line) :
    exec (.unlease d a disp sy) s =
      .next (((Upd.ctx s.cur { s.ctx s.cur with leases := (s.ctx s.cur).leases.filter fun y => y != l }).apply s).goOn sy
        (s.regs.setX d (if l.live then 0 else 1))) := by
  obtain ⟨τ, hτ, eτ⟩ := run_unleaseBody_some (d := d) (σ := (⟨s, .refl⟩ : At s)) h hlines hwait
  have hstep : execUnlease d a disp sy s = _ :=
    strandStep_plain hq (run_pure _ _) hτ rfl (by rw [eτ]; rfl) (by rw [eτ]; rfl) (by rw [eτ]; rfl)
      (by rw [eτ, ctx_upd_same]; rfl)
  refine hstep.trans (congrArg _ ?_)
  rw [eτ]
  simp [State.goOn, State.retire, State.retireAs, State.regs, Ctx.setX, Ctx.modR, Fin.goesTo, Fin.target, Fin.straight]

/-- Settles O20: LEASE by what its access and its completion leave, UNLEASE by the two cases of the lease that it finds. -/
theorem leaseResult : Obligations.LeaseResult := by
  unfold Obligations.LeaseResult
  refine ⟨fun a disp sy s pa hq hlines hmaps hnew hfour => ?_, fun d a disp sy s hq => ⟨?_, ?_⟩⟩
  · obtain ⟨u, t, hacc, hdone, ht⟩ := exec_lease_granted hq hlines hmaps (leaseOn_not_live hnew) hfour
    obtain ⟨hkeeps, hmem, hbad, hregs, hleases⟩ := keeps_of_grants hacc hdone
    refine ⟨t, ht, hkeeps, hmem, hbad, hregs, ?_, fun l hl hlive => ?_⟩ <;> rw [hleases]
    · exact List.mem_append_right _ (List.mem_singleton_self _)
    · exact List.mem_append_left _ (mem_leasesElsewhere hnew hl hlive)
  · exact fun h hlost => exec_unlease_none hq h hlost
  · exact fun l h hlines hwait => exec_unlease_some hq h hlines hwait

end Sys2Proof.Machine
end

section
/-! Counter instructions (R194 to R199, R399 to R406): how they end, and what they write of the strand's registers. -/

namespace Sys2Proof.Machine

variable {s0 : State}

/-! ### Slots in the registers -/

@[simp] theorem setX_slots (r : Regs) (d : XReg) (v : Word) : (r.setX d v).slots = r.slots := by
  unfold Regs.setX; split <;> rfl

@[simp] theorem withSlot_pc (r : Regs) (n : Nat) (sl : Slot) : (Expected.withSlot r n sl).pc = r.pc := rfl

@[simp] theorem withSlot_mode (r : Regs) (n : Nat) (sl : Slot) : (Expected.withSlot r n sl).mode = r.mode := rfl

/-- A slot is what the strand's registers and its core's cell say. -/
theorem slot_congr {s t : State} {a : Nat} (n : Nat) (hslots : (t.ctx a).r.slots = (s.ctx a).r.slots)
    (hbase : (t.ctx a).cellBase = (s.ctx a).cellBase) (hnode : t.node = s.node) (hcells : t.cells = s.cells) :
    t.slot a n = s.slot a n := by
  simp only [State.slot, State.cellRef, State.nodeId, State.cell, hslots, hbase, hnode, hcells]

/-- But for its GEN, a slot is what the strand's registers say: the cells themselves do not count. -/
theorem slot_gen_congr {s t : State} {a : Nat} (n : Nat) (g : BitVec 16) (hslots : (t.ctx a).r.slots = (s.ctx a).r.slots)
    (hbase : (t.ctx a).cellBase = (s.ctx a).cellBase) (hnode : t.node = s.node) :
    { t.slot a n with gen := g } = { s.slot a n with gen := g } := by
  simp only [State.slot, State.cellRef, State.nodeId, hslots, hbase, hnode]
  split <;> rfl

/-! ### What a body leaves of the strand -/

/-- The strand and its core stand in `w` as they stood in `s`. -/
structure State.SameStrand (s w : State) : Prop where
  cur : w.cur = s.cur
  fwd : w.fwd = s.fwd
  cores : w.cores = s.cores
  ctx : w.ctx s.cur = s.ctx s.cur

theorem State.SameStrand.refl (s : State) : s.SameStrand s := ⟨rfl, rfl, rfl, rfl⟩

theorem State.SameStrand.trans {s t u : State} (h : s.SameStrand t) (h' : t.SameStrand u) : s.SameStrand u :=
  ⟨h'.cur.trans h.cur, h'.fwd.trans h.fwd, h'.cores.trans h.cores, by rw [← h.cur, h'.ctx, h.cur, h.ctx]⟩

theorem State.SameStrand.regs {s w : State} (h : s.SameStrand w) : w.regs = s.regs := by
  rw [State.regs, h.cur, h.ctx, State.regs]

/-- What touches no context and no core leaves the strand as it stood. -/
theorem sameStrand_of_ctxs {s w : State} (hcur : w.cur = s.cur) (hfwd : w.fwd = s.fwd) (hcores : w.cores = s.cores)
    (hctxs : w.ctxs = s.ctxs) : s.SameStrand w :=
  ⟨hcur, hfwd, hcores, by rw [State.ctx, hctxs, State.ctx]⟩

theorem sameStrand_of_timed {s w : State} (h : Expected.Timed s w) : s.SameStrand w := by
  rw [h]; exact ⟨rfl, rfl, rfl, rfl⟩

/-- The state `t` is the state `w` but that the strand holds the registers `r`, as far as a later write of its context tells. -/
structure State.Holding (w : State) (r : Regs) (t : State) : Prop where
  ctx : t.ctx w.cur = { w.ctx w.cur with r := r }
  put : ∀ c, (Upd.ctx w.cur c).apply t = (Upd.ctx w.cur c).apply w

section

variable {w t : State} {r : Regs}

theorem State.Holding.refl (w : State) : w.Holding w.regs w := ⟨rfl, fun _ => rfl⟩

theorem State.Holding.cur (h : w.Holding r t) : t.cur = w.cur := by
  have := congrArg State.cur (h.put (w.ctx w.cur)); exact this
theorem State.Holding.fwd (h : w.Holding r t) : t.fwd = w.fwd := by
  have := congrArg State.fwd (h.put (w.ctx w.cur)); exact this
theorem State.Holding.cores (h : w.Holding r t) : t.cores = w.cores := by
  have := congrArg State.cores (h.put (w.ctx w.cur)); exact this
theorem State.Holding.dies (h : w.Holding r t) : t.dies = w.dies := by
  have := congrArg State.dies (h.put (w.ctx w.cur)); exact this
theorem State.Holding.cells (h : w.Holding r t) : t.cells = w.cells := by
  have := congrArg State.cells (h.put (w.ctx w.cur)); exact this
theorem State.Holding.node (h : w.Holding r t) : t.node = w.node := by
  have := congrArg State.node (h.put (w.ctx w.cur)); exact this

theorem State.Holding.regs (h : w.Holding r t) : t.regs = r := by rw [State.regs, h.cur, h.ctx]

/-- A write of the strand's registers. -/
theorem State.Holding.write (h : w.Holding r t) (r' : Regs) :
    w.Holding r' ((Upd.ctx w.cur { t.ctx w.cur with r := r' }).apply t) :=
  ⟨by rw [ctx_upd_same, h.ctx], fun c => by rw [upd_ctx_ctx, h.put]⟩

theorem State.Holding.slot (h : w.Holding r t) (hr : r.slots = w.regs.slots) (n : Nat) :
    t.slot w.cur n = w.slot w.cur n :=
  slot_congr n (by rw [h.ctx]; exact hr) (by rw [h.ctx]) h.node h.cells

/-- The completion overwrites the strand's context. -/
theorem State.Holding.goOn (h : w.Holding r t) (sy : Sync) (hpc : r.pc = w.regs.pc) :
    t.retireAs { t.regs with pc := nextPc t.regs.pc sy } false = w.goOn sy r := by
  rw [h.regs, hpc, State.goOn, State.retire, State.retireAs, h.cur, h.ctx, h.put, State.retireAs]

/-- The trap after the instruction overwrites it too. -/
theorem State.Holding.trapped (h : w.Holding r t) (c : Cause) (d : Bool) (epc tval : Word) :
    t.trapped c d epc tval = (Expected.withRegs w r).trapped c d epc tval := by
  have hcur : (Expected.withRegs w r).cur = w.cur := rfl
  have hctx : (Expected.withRegs w r).ctx w.cur = { w.ctx w.cur with r := r } := by rw [Expected.withRegs, ctx_upd_same]
  have hdie (n : Nat) : t.die n = (Expected.withRegs w r).die n := by rw [State.die, h.dies]; rfl
  rw [State.trapped, h.regs, h.cur, h.ctx, h.put, State.trapped, State.regs, hcur, hctx, hdie, Expected.withRegs, upd_ctx_ctx]

end

/-! ### Writes of slots -/

theorem run_setSlot (a n : Nat) (sl : Slot) (σ : At s0) :
    setSlot a n sl σ =
      .ok () (σ.upd (.ctx a { σ.val.ctx a with r := Expected.withSlot (σ.val.ctx a).r n sl })) := rfl

/-- A slot of the strand is set. -/
theorem holding_setSlot {w : State} {r : Regs} {σ : At s0} (h : w.Holding r σ.val) (n : Nat) (sl : Slot) :
    ∃ τ, setSlot σ.val.cur n sl σ = .ok () τ ∧ w.Holding (Expected.withSlot r n sl) τ.val := by
  refine ⟨_, run_setSlot _ n sl σ, ?_⟩
  rw [At.upd_val, h.cur]
  have hr : (σ.val.ctx w.cur).r = r := by rw [h.ctx]
  rw [hr]
  exact h.write _

/-- X(D) takes a value. -/
theorem holding_writeX {w : State} {r : Regs} {σ : At s0} (h : w.Holding r σ.val) (d : XReg) (v : Word) :
    ∃ τ, writeX d v σ = .ok () τ ∧ w.Holding (r.setX d v) τ.val := by
  refine ⟨_, run_writeX d v σ, ?_⟩
  rw [At.upd_val, h.cur]
  have hr : (σ.val.ctx w.cur).r = r := by rw [h.ctx]
  have hset : (σ.val.ctx w.cur).setX d v = { σ.val.ctx w.cur with r := r.setX d v } := by rw [Ctx.setX, Ctx.modR, hr]
  rw [hset]
  exact h.write _

/-- GEN of a slot takes a value. -/
theorem holding_setGen {w : State} {r : Regs} {σ : At s0} (h : w.Holding r σ.val) (hr : r.slots = w.regs.slots) (n : Nat)
    (g : BitVec 16) :
    ∃ τ, setGen n g σ = .ok () τ ∧ w.Holding (Expected.withSlot r n { w.slot w.cur n with gen := g }) τ.val := by
  have hslot : σ.val.slot σ.val.cur n = w.slot w.cur n := by rw [h.cur]; exact h.slot hr n
  unfold setGen
  rw [run_bind_ok (run_st σ), hslot]
  exact holding_setSlot h n _

/-- X(D) takes a value, and GEN of the slot the counter's generation (R199). -/
theorem holding_answer {w : State} {r : Regs} {σ : At s0} (h : w.Holding r σ.val) (hr : r.slots = w.regs.slots) (d : XReg)
    (v : Word) (n : Nat) (g : BitVec 16) :
    ∃ τ, (∀ f : M s0 Fin, (do writeX d v; setGen n g; f) σ = f τ) ∧
      w.Holding (Expected.withSlot (r.setX d v) n { w.slot w.cur n with gen := g }) τ.val := by
  obtain ⟨τ, hτ, hw⟩ := holding_writeX h d v
  obtain ⟨υ, hυ, hw'⟩ := holding_setGen hw (by rw [setX_slots, hr]) n g
  exact ⟨υ, fun f => (run_bind_ok hτ).trans (run_bind_ok hυ), hw'⟩

/-! ### How a counter instruction ends -/

section

variable {s : State} {slot : BitVec 8} {sy : Sync} {pre : (s : State) → M s Unit} {body : (s : State) → M s Fin}

/-- The checks of a counter instruction pass: its slot is one of the strand's (R94), and its own check passes. -/
theorem run_counterPre (hn : slot.toNat < (s.ctx s.cur).nslots) (hpre : pre s ⟨s, .refl⟩ = .ok () ⟨s, .refl⟩) :
    (do legalSlot slot.toNat; pre s : M s Unit) ⟨s, .refl⟩ = .ok () ⟨s, .refl⟩ :=
  (run_bind_ok (run_legalSlot (σ := ⟨s, .refl⟩) hn)).trans hpre

variable (hq : s.Quiet sy) (hn : slot.toNat < (s.ctx s.cur).nslots) (hpre : pre s ⟨s, .refl⟩ = .ok () ⟨s, .refl⟩)

include hq hn hpre

/-- It completes, and the strand goes on with the registers that its body leaves. -/
theorem counterInstr_goesOn {σ : At s} {w : State} {r : Regs} (hbody : body s ⟨s, .refl⟩ = .ok .next σ)
    (hcur : w.cur = s.cur) (hfwd : w.fwd = s.fwd) (hcores : w.cores = s.cores)
    (hprog : (w.ctx s.cur).prog = (s.ctx s.cur).prog) (hσ : w.Holding r σ.val) (hpc : r.pc = w.regs.pc) :
    counterInstr slot sy pre body s = .next (w.goOn sy r) := by
  have hprog' : (σ.val.ctx s.cur).prog = (s.ctx s.cur).prog := by rw [← hprog, ← hcur, hσ.ctx]
  have hstep := strandStep_plain (engine := false) hq (run_counterPre hn hpre) hbody rfl (hσ.cur.trans hcur)
    (hσ.fwd.trans hfwd) (hσ.cores.trans hcores) hprog'
  exact hstep.trans (congrArg _ (hσ.goOn sy hpc))

/-- It completes where the body leaves the strand as it stood but for its registers. -/
theorem counterInstr_next {σ : At s} {w : State} {r : Regs} (hbody : body s ⟨s, .refl⟩ = .ok .next σ)
    (hw : s.SameStrand w) (hσ : w.Holding r σ.val) (hpc : r.pc = s.regs.pc) :
    counterInstr slot sy pre body s = .next (w.goOn sy r) :=
  counterInstr_goesOn hq hn hpre hbody hw.cur hw.fwd hw.cores (by rw [hw.ctx]) hσ (hpc.trans (by rw [hw.regs]))

/-- It completes, and a trap after it names the next instruction. -/
theorem counterInstr_trapped {σ : At s} {w : State} {r : Regs} {c : Cause} {v : Word}
    (hbody : body s ⟨s, .refl⟩ = .ok (.trapped c v) σ) (hw : s.SameStrand w) (hσ : w.Holding r σ.val)
    (hpc : r.pc = s.regs.pc) (hm : (Expected.withRegs w r).doubleTrap = false) :
    counterInstr slot sy pre body s = .next ((Expected.withRegs w r).trapped c false (nextPc s.regs.pc sy) v) := by
  have hprog : (σ.val.ctx s.cur).prog = (s.ctx s.cur).prog := by rw [← hw.cur, hσ.ctx, hw.cur, hw.ctx]
  have hm' : σ.val.doubleTrap = false := by
    rw [State.doubleTrap, hσ.regs, ← hm, State.doubleTrap, State.regs, Expected.withRegs, ctx_cur, ctx_upd_same]
  have hstep := strandStep_trapped (engine := false) hq (run_counterPre hn hpre) hbody hm' (hσ.cur.trans hw.cur)
    (hσ.fwd.trans hw.fwd) (hσ.cores.trans hw.cores) hprog
  rw [hσ.regs, hpc, hσ.trapped] at hstep
  exact hstep

/-- It traps precisely. -/
theorem counterInstr_precise {σ : At s} {c : Cause} {v : Word} (hm : s.doubleTrap = false)
    (hbody : body s ⟨s, .refl⟩ = .error (.trap c v false false) σ) (ho : σ.val.oracle = s.oracle) :
    counterInstr slot sy pre body s = .next (s.trapped c false s.regs.pc v) :=
  strandStep_body_trap hq hm (run_counterPre hn hpre) hbody ho

end

/-! ### CBIND, CMARK and CREAD on cells (R198, R403 to R405) -/

/-- A reference of 0 binds the slot to its own cell. -/
theorem run_cbindBody_zero {σ : At s0} {n : BitVec 8} {a : XReg} (h : σ.val.regs.getX a = 0) :
    cbindBody n a σ =
      (do
        setSlot σ.val.cur n.toNat
          { ref := σ.val.cellRef (coreOf σ.val.cur) ((σ.val.ctx σ.val.cur).cellBase + n.toNat), mark := 0
            gen := (σ.val.cell (coreOf σ.val.cur) ((σ.val.ctx σ.val.cur).cellBase + n.toNat)).g, loc := true }
        return .next : M s0 Fin) σ := by
  unfold cbindBody
  rw [run_bind_ok (run_st σ)]
  exact congrFun (if_pos h) σ

/-- A reference that is not 0 is a local one or a global one. -/
theorem run_cbindBody_local {σ : At s0} {n : BitVec 8} {a : XReg} (h : isLocalRef (σ.val.regs.getX a) = true) :
    cbindBody n a σ =
      (match σ.val.localRef (σ.val.regs.getX a) with
        | some (k, cell) =>
          if k ≠ coreOf σ.val.cur then trap .xlate (σ.val.regs.getX a)
          else do
            setSlot σ.val.cur n.toNat
              { ref := σ.val.regs.getX a, mark := 0, gen := (σ.val.cell (coreOf σ.val.cur) cell).g, loc := true }
            return .next
        | none => trap .xlate (σ.val.regs.getX a) : M s0 Fin) σ := by
  have h0 : σ.val.regs.getX a ≠ 0 := by intro e; rw [e] at h; exact absurd h (by decide)
  unfold cbindBody
  rw [run_bind_ok (run_st σ)]
  exact congrFun ((if_neg h0).trans (if_pos h)) σ

theorem run_cbindBody_misaligned {σ : At s0} {n : BitVec 8} {a : XReg} (h0 : σ.val.regs.getX a ≠ 0)
    (h : isLocalRef (σ.val.regs.getX a) = false) (h8 : (σ.val.regs.getX a).toNat % 8 ≠ 0) :
    cbindBody n a σ = .error (.trap .align (σ.val.regs.getX a) false false) σ := by
  have hl : ¬isLocalRef (σ.val.regs.getX a) = true := by rw [h]; exact Bool.false_ne_true
  unfold cbindBody
  rw [run_bind_ok (run_st σ)]
  exact congrFun ((if_neg h0).trans ((if_neg hl).trans (if_pos h8))) σ

section

variable {s : State} {n : BitVec 8} {sy : Sync}

variable (hq : s.Quiet sy) (hn : n.toNat < (s.ctx s.cur).nslots)

include hq hn

/-- A body that sets the strand's slot. -/
theorem counterInstr_setSlot {sl : Slot} {body : (s : State) → M s Fin}
    (hbody : body s ⟨s, .refl⟩ = (do setSlot s.cur n.toNat sl; return .next : M s Fin) ⟨s, .refl⟩) :
    counterInstr n sy (fun _ => pure ()) body s = .next (s.goOn sy (Expected.withSlot s.regs n.toNat sl)) := by
  obtain ⟨τ, hτ, hw⟩ := holding_setSlot (σ := (⟨s, .refl⟩ : At s)) (.refl s) n.toNat sl
  exact counterInstr_next hq hn (run_pure _ _) (hbody.trans (run_bind_ok hτ)) (.refl s) hw rfl

theorem exec_cbind_zero {a : XReg} (h : s.regs.getX a = 0) :
    exec (.cbind n a sy) s =
      .next (s.goOn sy (Expected.withSlot s.regs n.toNat
        { ref := s.cellRef (coreOf s.cur) ((s.ctx s.cur).cellBase + n.toNat), mark := 0
          gen := (s.cell (coreOf s.cur) ((s.ctx s.cur).cellBase + n.toNat)).g, loc := true })) := by
  have hstep : execCbind n a sy s = _ := counterInstr_setSlot hq hn (run_cbindBody_zero h)
  exact hstep

theorem exec_cbind_cell {a : XReg} {c : Nat} (hl : isLocalRef (s.regs.getX a) = true)
    (hc : s.localRef (s.regs.getX a) = some (coreOf s.cur, c)) :
    exec (.cbind n a sy) s =
      .next (s.goOn sy (Expected.withSlot s.regs n.toNat
        { ref := s.regs.getX a, mark := 0, gen := (s.cell (coreOf s.cur) c).g, loc := true })) := by
  have hbody : cbindBody n a ⟨s, .refl⟩ =
      (do
        setSlot s.cur n.toNat { ref := s.regs.getX a, mark := 0, gen := (s.cell (coreOf s.cur) c).g, loc := true }
        return .next : M s Fin) ⟨s, .refl⟩ := by
    refine (run_cbindBody_local (σ := ⟨s, .refl⟩) hl).trans ?_
    rw [hc]
    exact congrFun (if_neg fun h => h rfl) _
  have hstep : execCbind n a sy s = _ := counterInstr_setSlot hq hn hbody
  exact hstep

theorem exec_cbind_xlate {a : XReg} (hm : s.doubleTrap = false) (hl : isLocalRef (s.regs.getX a) = true)
    (hc : ∀ c, s.localRef (s.regs.getX a) ≠ some (coreOf s.cur, c)) :
    exec (.cbind n a sy) s = .next (s.trapped .xlate false s.regs.pc (s.regs.getX a)) := by
  have hbody : cbindBody n a ⟨s, .refl⟩ = .error (.trap .xlate (s.regs.getX a) false false) ⟨s, .refl⟩ := by
    refine (run_cbindBody_local (σ := ⟨s, .refl⟩) hl).trans ?_
    cases href : s.localRef (s.regs.getX a) with
    | none => rfl
    | some p =>
      have hk : p.1 ≠ coreOf s.cur := fun e => hc p.2 (by rw [href, ← e])
      exact congrFun (if_pos hk) _
  have hstep : execCbind n a sy s = _ := counterInstr_precise hq hn (run_pure _ _) hm hbody rfl
  exact hstep

theorem exec_cbind_align {a : XReg} (hm : s.doubleTrap = false) (h0 : s.regs.getX a ≠ 0)
    (hl : isLocalRef (s.regs.getX a) = false) (h8 : (s.regs.getX a).toNat % 8 ≠ 0) :
    exec (.cbind n a sy) s = .next (s.trapped .align false s.regs.pc (s.regs.getX a)) := by
  have hstep : execCbind n a sy s = _ :=
    counterInstr_precise hq hn (run_pure _ _) hm (run_cbindBody_misaligned h0 hl h8) rfl
  exact hstep

theorem exec_cmark (a : XReg) (v : Word) :
    exec (.cmark n a v sy) s =
      .next (s.goOn sy (Expected.withSlot s.regs n.toNat
        { s.slot s.cur n.toNat with mark := s.regs.getX a + v })) := by
  have hbody : cmarkBody n a v ⟨s, .refl⟩ =
      (do
        setSlot s.cur n.toNat { s.slot s.cur n.toNat with mark := s.regs.getX a + v }
        return .next : M s Fin) ⟨s, .refl⟩ := rfl
  have hstep : execCmark n a v sy s = _ := counterInstr_setSlot hq hn hbody
  exact hstep

/-- CREAD of a cell: V into X(D), and nothing else but logical times. -/
theorem exec_cread_cell {d : XReg} {k c : Nat} (hc : Expected.cellOf s n.toNat = some (k, c)) (hlines : (s.ctx s.cur).lines = []) :
    ∃ t : State, Expected.Timed s t ∧
      exec (.cread d n sy) s =
        .next (t.goOn sy (Expected.withSlot (s.regs.setX d (s.cell k c).v) n.toNat
          { s.slot s.cur n.toNat with gen := (s.cell k c).g })) := by
  have hneed := run_needSlot_cell (σ := ⟨s, .refl⟩) (u := { rd := true, wr := false }) (Option.isSome_of_eq_some hc)
  rw [cellCtr_of_cellOf hc] at hneed
  obtain ⟨_, υ, hread, ht⟩ := goes_readCtr (s0 := s) s.cur (.cell k c) ⟨s, .refl⟩
  have hsame := sameStrand_of_timed ht
  obtain ⟨τ, hτ, hw⟩ := holding_answer (.refl υ.val) rfl d (s.cell k c).v n.toNat (s.cell k c).g
  have hcell : υ.val.cell k c = s.cell k c := by rw [ht]; rfl
  have hbody : creadBody d n ⟨s, .refl⟩ = .ok .next τ := by
    unfold creadBody
    rw [run_bind_ok (run_me _), run_bind_ok (run_drainStores hlines), run_bind_ok hneed, run_bind_ok hread,
      run_bind_ok (run_st _), State.ctrV, State.ctrG, hcell]
    exact hτ _
  have hslot : υ.val.slot υ.val.cur n.toNat = s.slot s.cur n.toNat := by rw [ht]; rfl
  rw [hsame.regs, hslot] at hw
  have hstep : execCread d n sy s = _ := counterInstr_next hq hn (run_pure _ _) hbody hsame hw (by simp)
  exact ⟨υ.val, ht, hstep⟩

end

/-- Settles O21: each form by the slot that its body sets, CREAD after the logical times of its read. -/
theorem slotResult : Obligations.SlotResult := by
  unfold Obligations.SlotResult
  refine ⟨fun n d a v sy s hq hn => ⟨fun h => ?_, fun c hl hc => ?_, ?_, fun k c hc hlines => ?_⟩,
    fun n a sy s hq hn hm => ⟨fun h0 hl h8 => ?_, fun _ hl hc => ?_⟩⟩
  · exact exec_cbind_zero hq hn h
  · exact exec_cbind_cell hq hn hl hc
  · exact exec_cmark hq hn a v
  · exact exec_cread_cell hq hn hc hlines
  · exact exec_cbind_align hq hn hm h0 hl h8
  · exact exec_cbind_xlate hq hn hm hl hc

end Sys2Proof.Machine
end

section
/-! A CWAIT that ends where it stands: satisfied, or with its timeout over (R200, R407 to R409). -/

namespace Sys2Proof.Machine

variable {s0 : State}

/-! ### What the end of a wait changes -/

/-- Between two states a strand has learned from counters: of its slots GEN is another, and beside that only the order numbers,
logical times and what an acquire leaves behind. -/
structure State.Refreshes (a : Nat) (s t : State) : Prop where
  frame : t = { s with
    ctxs := t.ctxs, seq := t.seq, farAcq := t.farAcq, times := t.times, joins := t.joins, oracle := t.oracle }
  other : ∀ b, b ≠ a → t.ctx b = s.ctx b
  self : t.ctx a = { s.ctx a with r := { (s.ctx a).r with slots := (t.ctx a).r.slots } }
  slot : ∀ n, (t.slot a n).ref = (s.slot a n).ref ∧ (t.slot a n).mark = (s.slot a n).mark

theorem refreshes_chains (a : Nat) : Chains (State.Refreshes a) where
  refl _ := ⟨rfl, fun _ _ => rfl, rfl, fun _ => ⟨rfl, rfl⟩⟩
  trans {s t u} h h' := by
    refine ⟨by rw [h'.frame, h.frame], fun b hb => (h'.other b hb).trans (h.other b hb), ?_, fun n => ?_⟩
    · rw [h'.self, h.self]
    · obtain ⟨hr, hm⟩ := h.slot n
      obtain ⟨hr', hm'⟩ := h'.slot n
      exact ⟨hr'.trans hr, hm'.trans hm⟩

/-- What touches no context. -/
theorem refreshes_of_ctxs {a : Nat} {s t : State}
    (h : t = { s with seq := t.seq, farAcq := t.farAcq, times := t.times, joins := t.joins, oracle := t.oracle }) :
    s.Refreshes a t := by
  have hctx (b : Nat) : t.ctx b = s.ctx b := by rw [h]; rfl
  have hslot (n : Nat) : t.slot a n = s.slot a n := by rw [h]; rfl
  exact ⟨by rw [h], fun b _ => hctx b, by rw [hctx], fun n => by rw [hslot]; exact ⟨rfl, rfl⟩⟩

theorem refreshes_of_timed {a : Nat} {s t : State} (h : Expected.Timed s t) : s.Refreshes a t :=
  refreshes_of_ctxs (by rw [h])

/-- An answer of a home changes one slot's GEN, where the registers bind the slot, and nothing else of a context. -/
theorem refreshed_slots (x : Ctx) (n : Nat) (g : BitVec 16) :
    ∃ slots, x.refreshed n g = { x with r := { x.r with slots := slots } } ∧
      ∀ m, TMap.find slots m = (TMap.find x.r.slots m).map fun sl => if m = n then { sl with gen := g } else sl := by
  unfold Ctx.refreshed Ctx.modR
  cases h : TMap.find x.r.slots n with
  | none =>
    refine ⟨x.r.slots, by simp only [h], fun m => ?_⟩
    by_cases hm : m = n
    · rw [hm, h]; rfl
    · simp [hm]
  | some sl =>
    refine ⟨TMap.put x.r.slots n { sl with gen := g }, by simp only [h], fun m => ?_⟩
    by_cases hm : m = n
    · subst hm; rw [h, TMap.find_put_same]; simp
    · rw [TMap.find_put_ne _ _ hm]; simp [hm]

theorem refreshes_refreshed (s : State) (a n : Nat) (g : BitVec 16) :
    s.Refreshes a ((Upd.ctx a ((s.ctx a).refreshed n g)).apply s) := by
  obtain ⟨slots, hx, hfind⟩ := refreshed_slots (s.ctx a) n g
  have hctx := ctx_upd_same (s := s) a ((s.ctx a).refreshed n g)
  refine ⟨rfl, fun b hb => ctx_upd_ne _ _ hb, by rw [hctx, hx], fun m => ?_⟩
  unfold State.slot
  dsimp only
  rw [hctx, hx]
  dsimp only
  rw [hfind]
  cases TMap.find (s.ctx a).r.slots m with
  | none => exact ⟨rfl, rfl⟩
  | some sl => dsimp only [Option.map_some]; split <;> exact ⟨rfl, rfl⟩

theorem goes_refreshGens_slots (a : Nat) (ws : List Watch) : Goes (s0 := s0) (State.Refreshes a) (refreshGens a ws) := by
  have hc := refreshes_chains a
  rw [refreshGens_def]
  refine .bind hc (.forIn hc ws fun w _ => .bind hc (.st hc) fun s => .bind hc (fun σ => ?_) fun _ => .go hc) fun _ => .pure hc _
  exact ⟨_, _, run_modCtx _ _ σ, refreshes_refreshed σ.val a w.slot (s.ctrG w.ctr)⟩

theorem goes_acquire_slots (a : Nat) (sc : Scope) : Goes (s0 := s0) (State.Refreshes a) (acquire sc) := by
  have hc := refreshes_chains a
  have hfar (b : Nat) : Goes (s0 := s0) (State.Refreshes a) (acquireFar b) :=
    .bind hc (.st hc) fun _ => .upd fun _ => refreshes_of_ctxs rfl
  unfold acquire
  refine .bind hc (fun σ => ⟨_, σ, run_me σ, hc.refl _⟩) fun b => ?_
  split
  · exact .bind hc (hfar b) fun _ => (goes_startTime b).mono fun _ _ => refreshes_of_timed
  · exact .pure hc _

/-- The end of a satisfied CWAIT before its result: its counters are read, the GENs of its slots refreshed, and its acquire made. -/
theorem run_endOfWait (a : Nat) (ws : List Watch) (sc : Scope) (σ : At s0) :
    ∃ π, (∀ f : M s0 Fin, (do readWatches a ws; refreshGens a ws; acquire sc; f) σ = f π) ∧ σ.val.Refreshes a π.val := by
  obtain ⟨_, τ, hτ, hread⟩ := goes_readWatches a ws σ
  obtain ⟨_, υ, hυ, hgens⟩ := goes_refreshGens_slots a ws τ
  obtain ⟨_, π, hπ, hacq⟩ := goes_acquire_slots a sc υ
  exact ⟨π, fun f => (run_bind_ok hτ).trans ((run_bind_ok hυ).trans (run_bind_ok hπ)),
    (refreshes_chains a).trans (refreshes_of_timed hread) ((refreshes_chains a).trans hgens hacq)⟩

/-! ### The first satisfied slot -/

/-- The slots of the satisfied watches. -/
theorem slots_of_satisfied {s : State} {ws : List Watch} {ns : List Nat} (hw : ws.map Watch.unplaced = ns.map s.watchOf)
    (hcells : ∀ m ∈ ns, (Expected.cellOf s m).isSome) :
    (ws.filter s.satWatch).map (·.slot) = ns.filter (Expected.satisfied s) := by
  calc (ws.filter s.satWatch).map (·.slot)
      = ((ws.map Watch.unplaced).filter s.satWatch).map (·.slot) := by rw [List.filter_map, List.map_map]; rfl
    _ = (ns.filter (s.satWatch ∘ s.watchOf)).map ((·.slot) ∘ s.watchOf) := by rw [hw, List.filter_map, List.map_map]
    _ = ns.filter (s.satWatch ∘ s.watchOf) := List.map_id _
    _ = ns.filter (Expected.satisfied s) := List.filter_congr fun m hm => satWatch_watchOf (hcells m hm)

/-- The least of a list of small numbers, one of which there is. -/
theorem foldl_min_least {l : List Nat} {b : Nat} (hl : l ≠ []) (hb : ∀ m ∈ l, m ≤ b) :
    l.foldl min b ∈ l ∧ ∀ m ∈ l, l.foldl min b ≤ m := by
  obtain ⟨k, hk⟩ := Option.isSome_iff_exists.1 (List.isSome_min?_iff.2 hl)
  obtain ⟨hmem, hle⟩ := List.min?_eq_some_iff.1 hk
  have hfold : l.foldl min b = k := by rw [List.foldl_min, hk]; exact Nat.min_eq_right (hb k hmem)
  rw [hfold]
  exact ⟨hmem, hle⟩

/-- The slot that a satisfied wait reports is satisfied, and none below it is. -/
theorem firstSat_least {s : State} {w : Wait} {ns : List Nat} (hw : w.watches.map Watch.unplaced = ns.map s.watchOf)
    (hcells : ∀ m ∈ ns, (Expected.cellOf s m).isSome) (hsmall : ∀ m ∈ ns, m < 256)
    (hsat : ∃ m ∈ ns, Expected.satisfied s m = true) :
    s.firstSat w ∈ ns ∧ Expected.satisfied s (s.firstSat w) = true ∧
      ∀ m ∈ ns, Expected.satisfied s m = true → s.firstSat w ≤ m := by
  obtain ⟨m, hm, hmsat⟩ := hsat
  have hne : ns.filter (Expected.satisfied s) ≠ [] := List.ne_nil_of_mem (List.mem_filter.2 ⟨hm, hmsat⟩)
  have hbound : ∀ m ∈ ns.filter (Expected.satisfied s), m ≤ 255 := fun m hm => Nat.le_of_lt_succ (hsmall m (List.mem_filter.1 hm).1)
  obtain ⟨hmem, hle⟩ := foldl_min_least hne hbound
  rw [State.firstSat, slots_of_satisfied hw hcells]
  obtain ⟨hns, hs⟩ := List.mem_filter.1 hmem
  exact ⟨hns, hs, fun m hm hms => hle m (List.mem_filter.2 ⟨hm, hms⟩)⟩

theorem le_of_mem_cwaitSlots {slot : BitVec 8} {a : Option XReg} {r : Regs} {m : Nat} (h : m ∈ cwaitSlots slot a r) :
    slot.toNat ≤ m := by
  cases a with
  | none => exact le_of_eq (List.mem_singleton.1 h).symm
  | some a =>
    obtain ⟨i, -, rfl⟩ := List.mem_map.1 h
    exact Nat.le_add_right _ _

/-! ### The body -/

theorem State.Alone.prog_none {s : State} (h : s.Alone) : (s.ctx s.cur).prog = Progress.none := by
  obtain ⟨-, -, -, -, -, -, hp, -⟩ := h
  exact hp

theorem State.Alone.wait_none {s : State} (h : s.Alone) : (s.ctx s.cur).wait = none := by
  obtain ⟨-, -, -, -, -, -, -, hw⟩ := h
  exact hw

@[simp] theorem setX_slots_comm (r : Regs) (d : XReg) (v : Word) (slots : TMap Slot) :
    { r with slots := slots }.setX d v = { r.setX d v with slots := slots } := by
  unfold Regs.setX; split <;> rfl

/-- The result of a CWAIT: no wait is registered, and X(D) has a value. -/
theorem holding_waitResult {σ : At s0} (hwait : (σ.val.ctx σ.val.cur).wait = none) (d : XReg) (v : Word) :
    ∃ τ, (do modMe fun x => { x with wait := none }; writeX d v; return .next : M s0 Fin) σ = .ok .next τ ∧
      σ.val.Holding (σ.val.regs.setX d v) τ.val := by
  have hclear : { σ.val.ctx σ.val.cur with wait := none } = { σ.val.ctx σ.val.cur with r := σ.val.regs } := by
    rw [← hwait]; rfl
  have hheld := (State.Holding.refl σ.val).write σ.val.regs
  rw [← hclear] at hheld
  obtain ⟨τ, hτ, hw⟩ := holding_writeX (σ := σ.upd (.ctx σ.val.cur { σ.val.ctx σ.val.cur with wait := none })) hheld d v
  exact ⟨τ, (run_bind_ok (run_modMe _ σ)).trans (run_bind_ok hτ), hw⟩

/-- With status 0: the acquire of the instruction's scope, then the result. -/
theorem cwaitDone_satisfied (d : XReg) (slot : BitVec 8) (any : Bool) (sc : Scope) (first : Nat) :
    (cwaitDone d slot any sc 0 first : M s0 Fin) = (do
      acquire sc
      modMe fun x => { x with wait := none }
      writeX d (cwaitWord slot any 0 first)
      return .next) := rfl

/-- With status 2: the result alone. -/
theorem cwaitDone_timeout (d : XReg) (slot : BitVec 8) (any : Bool) (sc : Scope) (first : Nat) :
    (cwaitDone d slot any sc 2 first : M s0 Fin) = (do
      modMe fun x => { x with wait := none }
      writeX d (cwaitWord slot any 2 first)
      return .next) := rfl

section

variable {s : State} {d : XReg} {slot : BitVec 8} {a : Option XReg} {all : Bool} {b : XReg} {sc : Scope}

/-- The body of a CWAIT that has just come to its instruction. -/
theorem run_cwaitBody_first {σ : At s} {w : Wait} (halone : s.Alone) (hlines : (s.ctx s.cur).lines = [])
    (hw : cwaitWait slot a all b ⟨s, .refl⟩ = .ok w σ) :
    cwaitBody d slot a all b sc ⟨s, .refl⟩ =
      (if σ.val.satWait w then do
        readWatches σ.val.cur (w.watches.filter σ.val.satWatch)
        refreshGens σ.val.cur (w.watches.filter σ.val.satWatch)
        cwaitDone d slot (a.isSome && !all) sc 0 (σ.val.firstSat w)
      else if w.deadline.any fun t => decide (t ≤ σ.val.time) then cwaitDone d slot (a.isSome && !all) sc 2 0
      else stop (.wait w) : M s Fin) σ := by
  have hans : (s.ctx s.cur).prog.ans = none := by rw [halone.prog_none]; rfl
  unfold cwaitBody
  rw [run_bind_ok (run_myCtx _)]
  simp only [hans, halone.wait_none]
  rw [run_bind_ok (run_me _), run_bind_ok (run_drainStores hlines), run_bind_ok hw, run_bind_ok (run_st σ)]

/-- A timeout of 0 is over at once. -/
theorem cwaitDeadline_zero (hp : (s.ctx s.cur).prog = Progress.none) (hb : s.regs.getX b = 0) :
    ((cwaitDeadline s (s.ctx s.cur) b).any fun t => decide (t ≤ s.time)) = true := by
  have hb' : (s.ctx s.cur).r.getX b = 0 := hb
  have hno : (s.ctx s.cur).prog.deadline = none := by rw [hp]; rfl
  unfold cwaitDeadline
  rw [hno, hb']
  simp

/-- The slots of a CWAIT meet its condition. -/
def cwaitHolds (s : State) (slot : BitVec 8) (a : Option XReg) (all : Bool) : Prop :=
  if all then ∀ m ∈ cwaitSlots slot a s.regs, Expected.satisfied s m = true
  else ∃ m ∈ cwaitSlots slot a s.regs, Expected.satisfied s m = true

/-- A state that differs in the order numbers alone. -/
theorem refreshes_seq {t : State} {q : Nat} (h : t = { s with seq := q }) (a : Nat) : s.Refreshes a t :=
  refreshes_of_ctxs (by rw [h])

/-- A CWAIT whose condition holds: status 0, with the first of its satisfied slots for the any form. -/
theorem run_cwaitBody_satisfied (halone : s.Alone) (hlines : (s.ctx s.cur).lines = [])
    (hcells : ∀ m ∈ cwaitSlots slot a s.regs, m < 256 ∧ (Expected.cellOf s m).isSome)
    (hsat : cwaitHolds s slot a all) :
    ∃ (π σ : At s) (first : Nat), s.Refreshes s.cur π.val ∧
      cwaitBody d slot a all b sc ⟨s, .refl⟩ = .ok .next σ ∧
      π.val.Holding (π.val.regs.setX d (cwaitWord slot (a.isSome && !all) 0 first)) σ.val ∧
      (all = false → first ∈ cwaitSlots slot a s.regs ∧ Expected.satisfied s first = true ∧
        ∀ m ∈ cwaitSlots slot a s.regs, Expected.satisfied s m = true → first ≤ m) := by
  obtain ⟨ws, ρ, q, hρ, eρ, hws⟩ :=
    run_cwaitWait (σ := (⟨s, .refl⟩ : At s)) (all := all) (b := b) fun m hm => (hcells m hm).2
  let w : Wait := { kind := .cwait, watches := ws, all := all, deadline := cwaitDeadline s (s.ctx s.cur) b }
  have hw : w.watches.map Watch.unplaced = (cwaitSlots slot a s.regs).map s.watchOf := hws
  have hsame : ρ.val.satWatch = s.satWatch := by rw [eρ]; rfl
  have hwait : ρ.val.satWait w = true := by
    have h := (satWait_of_slots hw fun m hm => (hcells m hm).2).2 hsat
    rw [eρ]
    exact h
  have hfirst : ρ.val.firstSat w = s.firstSat w := by rw [State.firstSat, hsame, State.firstSat]
  obtain ⟨π, hπ, hr⟩ := run_endOfWait s.cur (w.watches.filter ρ.val.satWatch) sc ρ
  have href : s.Refreshes s.cur π.val := (refreshes_chains _).trans (refreshes_seq eρ _) hr
  have hcur : π.val.cur = s.cur := by rw [href.frame]
  have hnowait : (π.val.ctx π.val.cur).wait = none := by rw [hcur, href.self]; exact halone.wait_none
  obtain ⟨σ, hσ, hheld⟩ := holding_waitResult hnowait d (cwaitWord slot (a.isSome && !all) 0 (s.firstSat w))
  refine ⟨π, σ, s.firstSat w, href, ?_, hheld, fun hall => ?_⟩
  · have hρcur : ρ.val.cur = s.cur := by rw [eρ]
    rw [run_cwaitBody_first halone hlines hρ, if_pos hwait, hρcur, hfirst, cwaitDone_satisfied]
    exact (hπ _).trans hσ
  · subst hall
    exact firstSat_least hw (fun m hm => (hcells m hm).2) (fun m hm => (hcells m hm).1) hsat

/-- A CWAIT whose condition does not hold, with a timeout that is over: status 2. -/
theorem run_cwaitBody_timeout (halone : s.Alone) (hlines : (s.ctx s.cur).lines = [])
    (hcells : ∀ m ∈ cwaitSlots slot a s.regs, (Expected.cellOf s m).isSome) (hsat : ¬ cwaitHolds s slot a all)
    (hb : s.regs.getX b = 0) :
    ∃ π σ : At s, s.Refreshes s.cur π.val ∧ cwaitBody d slot a all b sc ⟨s, .refl⟩ = .ok .next σ ∧
      π.val.Holding (π.val.regs.setX d (cwaitWord slot (a.isSome && !all) 2 0)) σ.val := by
  obtain ⟨ws, ρ, q, hρ, eρ, hws⟩ := run_cwaitWait (σ := (⟨s, .refl⟩ : At s)) (all := all) (b := b) hcells
  have hover : ((cwaitDeadline s (s.ctx s.cur) b).any fun t => decide (t ≤ ρ.val.time)) = true := by
    rw [eρ]
    exact cwaitDeadline_zero halone.prog_none hb
  have hwait : ¬ ρ.val.satWait
      { kind := .cwait, watches := ws, all := all, deadline := cwaitDeadline s (s.ctx s.cur) b } = true := fun h => by
    rw [eρ] at h
    exact hsat ((satWait_of_slots (s := s)
      (w := { kind := .cwait, watches := ws, all := all, deadline := cwaitDeadline s (s.ctx s.cur) b }) hws hcells).1 h)
  have hnowait : (ρ.val.ctx ρ.val.cur).wait = none := by rw [eρ]; exact halone.wait_none
  obtain ⟨σ, hσ, hheld⟩ := holding_waitResult hnowait d (cwaitWord slot (a.isSome && !all) 2 0)
  refine ⟨ρ, σ, refreshes_seq eρ _, ?_, hheld⟩
  rw [run_cwaitBody_first halone hlines hρ, if_neg hwait]
  refine (congrFun (if_pos hover) ρ).trans ?_
  rw [cwaitDone_timeout]
  exact hσ

end

/-! ### The instruction -/

section

variable {s π : State} {sy : Sync} {d : XReg} {v : Word}

/-- The step of a CWAIT that ends where it stands. -/
theorem cwait_goesOn {σ : At s} {slot : BitVec 8} {a : Option XReg} {body : (s : State) → M s Fin} (hq : s.Quiet sy)
    (hslot : slot.toNat < (s.ctx s.cur).nslots)
    (hns : ∀ m ∈ cwaitSlots slot a s.regs, m < (s.ctx s.cur).nslots ∧ m < 256) (href : s.Refreshes s.cur π)
    (hbody : body s ⟨s, .refl⟩ = .ok .next σ) (hheld : π.Holding (π.regs.setX d v) σ.val) :
    counterInstr slot sy (fun _ => cwaitPre slot a) body s = .next (π.goOn sy (π.regs.setX d v)) :=
  counterInstr_goesOn hq hslot (run_cwaitPre (σ := ⟨s, .refl⟩) hns) hbody (by rw [href.frame]) (by rw [href.frame]) (by rw [href.frame])
    (by rw [href.self]) hheld (by simp)

/-- After the step: only GENs of the strand's slots are others, beside X(D) and the pc. -/
theorem slotsKept_goOn (href : s.Refreshes s.cur π) :
    Expected.SlotsKept s (π.goOn sy (π.regs.setX d v)) ∧ (π.goOn sy (π.regs.setX d v)).cells = s.cells ∧
      (π.goOn sy (π.regs.setX d v)).regs =
        { s.regs.setX d v with
          slots := (π.goOn sy (π.regs.setX d v)).regs.slots, pc := nextPc s.regs.pc sy } := by
  have hcur : π.cur = s.cur := by rw [href.frame]
  have hregs : π.regs = { s.regs with slots := π.regs.slots } := by
    have h := congrArg Ctx.r href.self
    rw [State.regs, hcur]
    exact h
  have hgo : (π.goOn sy (π.regs.setX d v)).regs = { π.regs.setX d v with pc := nextPc π.regs.pc sy } := retireAs_regs _ _ _
  refine ⟨⟨⟨s, ⟨rfl, fun _ _ h => h, fun _ h => h, fun _ => rfl⟩, ?_⟩, fun b hb => ?_, fun n => ?_⟩, ?_, ?_⟩
  · rw [State.goOn, State.retire, State.retireAs, href.frame]; rfl
  · rw [← href.other b hb]
    exact ctx_upd_ne _ _ (by rw [hcur]; exact hb)
  · have hslot : (π.goOn sy (π.regs.setX d v)).slot s.cur n = π.slot s.cur n := by
      have hctx : (π.goOn sy (π.regs.setX d v)).ctx π.cur = _ := ctx_upd_same _ _ _
      rw [hcur] at hctx
      exact slot_congr n (by rw [hctx]; simp [State.regs, hcur]) (by rw [hctx]) rfl rfl
    rw [hslot]
    exact href.slot n
  · rw [State.goOn, State.retire, State.retireAs, href.frame]; rfl
  · rw [hgo, hregs]; simp

end

/-- The parts of an instruction that `Expected.cwait` knows: the any form alone reports a slot. -/
theorem cwait_parts {i : Instr} {r : Regs} {d : XReg} {ns : List Nat} {all any : Bool} {v : Word} {n : Nat} {sy : Sync}
    (h : Expected.cwait i r = some (d, ns, all, v, n, any, sy)) :
    ∃ (slot : BitVec 8) (a : Option XReg) (b : XReg),
      exec i = counterInstr slot sy (fun _ => cwaitPre slot a) (fun _ => cwaitBody d slot a all b sy.scope) ∧
      ns = cwaitSlots slot a r ∧ v = r.getX b ∧ n = slot.toNat ∧ any = (a.isSome && !all) := by
  cases i
  case cwait d slot b sy => cases h; exact ⟨slot, none, b, rfl, rfl, rfl, rfl, rfl⟩
  case cwaitAny d slot a b sy => cases h; exact ⟨slot, some a, b, rfl, rfl, rfl, rfl, rfl⟩
  case cwaitAll d slot a b sy => cases h; exact ⟨slot, some a, b, rfl, rfl, rfl, rfl, rfl⟩
  all_goals cases h

theorem cwaitWord_satisfied (slot : BitVec 8) (any : Bool) (first : Nat) :
    cwaitWord slot any 0 first = BitVec.ofNat 64 (0 + 256 * if any then first - slot.toNat else 0) := by
  unfold cwaitWord wordOf
  cases any
  · rfl
  · simp [Nat.mul_comm]

theorem cwaitWord_timeout (slot : BitVec 8) (any : Bool) : cwaitWord slot any 2 0 = BitVec.ofNat 64 (2 + 256 * 0) := by
  unfold cwaitWord wordOf
  cases any <;> rfl

/-- Settles O24: by whether the condition of the slots holds; without that the timeout of 0 is over. -/
theorem counterWaitResult : Obligations.CounterWaitResult := by
  unfold Obligations.CounterWaitResult
  intro i s d ns all limit n any sy hi hq hn hlines hns sat hends
  obtain ⟨slot, a, b, hexec, rfl, rfl, rfl, hany⟩ := cwait_parts hi
  rw [hexec]
  have hsmall : ∀ m ∈ cwaitSlots slot a s.regs, m < (s.ctx s.cur).nslots ∧ m < 256 := fun m hm =>
    ⟨(hns m hm).1, (hns m hm).2.1⟩
  by_cases hsat : cwaitHolds s slot a all
  · obtain ⟨π, σ, first, href, hbody, hheld, hfirst⟩ :=
      run_cwaitBody_satisfied (d := d) (b := b) (sc := sy.scope) hq.2.2 hlines (fun m hm => (hns m hm).2) hsat
    rw [← hany, cwaitWord_satisfied] at hheld
    obtain ⟨hkept, hcells, hregs⟩ := slotsKept_goOn (sy := sy) (d := d)
      (v := BitVec.ofNat 64 (0 + 256 * if any then first - slot.toNat else 0)) href
    refine ⟨_, 0, if any then first - slot.toNat else 0, cwait_goesOn hq hn hsmall href hbody hheld, hkept, hcells, hregs,
      fun _ => rfl, fun h => absurd hsat h, fun h => ?_, fun h _ => ?_⟩
    · rw [h.resolve_right fun h => h hsat]; rfl
    · have hall : all = false := by
        rw [h] at hany
        simpa using (Bool.and_eq_true_iff.1 hany.symm).2
      obtain ⟨hmem, hs, hleast⟩ := hfirst hall
      have hle : slot.toNat + (if any then first - slot.toNat else 0) = first := by
        rw [if_pos h, Nat.add_sub_cancel' (le_of_mem_cwaitSlots hmem)]
      rw [hle]
      exact ⟨hmem, hs, hleast⟩
  · obtain ⟨π, σ, href, hbody, hheld⟩ := run_cwaitBody_timeout (d := d) (sc := sy.scope) hq.2.2 hlines
      (fun m hm => (hns m hm).2.2) hsat (hends.resolve_left hsat)
    rw [cwaitWord_timeout] at hheld
    obtain ⟨hkept, hcells, hregs⟩ := slotsKept_goOn (sy := sy) (d := d) (v := BitVec.ofNat 64 (2 + 256 * 0)) href
    exact ⟨_, 2, 0, cwait_goesOn hq hn hsmall href hbody hheld, hkept, hcells, hregs, fun h => absurd h hsat, fun _ => rfl,
      fun _ => rfl, fun _ h => absurd h hsat⟩

end Sys2Proof.Machine
end

section
/-! What a release of a strand carries, to the letter (R177, R180, R188): for a strand with no store and no far write of its own. -/

namespace Sys2Proof.Machine

variable {s0 : State}

/-! ### Writes at other devices -/

/-- Between two states far memory has been written at its homes; of the dies only the atomic flags that those writes raise
differ. -/
structure State.FarWrites (s t : State) : Prop where
  frame : t = { s with
    far := t.far, farOld := t.farOld, farSeq := t.farSeq, farFloor := t.farFloor, farFadds := t.farFadds, dies := t.dies
    oracle := t.oracle }
  die : ∀ d, t.die d = { s.die d with aflags := (t.die d).aflags }

theorem farWrites_chains : Chains State.FarWrites where
  refl _ := ⟨rfl, fun _ => rfl⟩
  trans {s t u} h h' := ⟨by rw [h'.frame, h.frame], fun d => by rw [h'.die, h.die]⟩

/-- An update of far memory, or of the choices, leaves the dies. -/
theorem goes_upd_farWrites {u : Upd}
    (h : ∀ s : State, u.apply s = { s with
      far := (u.apply s).far, farOld := (u.apply s).farOld, farSeq := (u.apply s).farSeq, farFloor := (u.apply s).farFloor
      farFadds := (u.apply s).farFadds, oracle := (u.apply s).oracle }) :
    Goes (s0 := s0) State.FarWrites (upd u) := by
  refine .upd fun s => ⟨?_, fun d => ?_⟩
  · rw [h]
  · rw [h]; rfl

theorem goes_choose_farWrites (n : Nat) : Goes (s0 := s0) State.FarWrites (choose n) :=
  fun σ => ⟨_, σ.upd .choose, rfl, rfl, fun _ => rfl⟩

theorem goes_raiseAtomic_farWrites (die : Nat) (asid : BitVec 16) (fl : Flags) :
    Goes (s0 := s0) State.FarWrites (raiseAtomic die asid fl) := by
  unfold raiseAtomic
  by_cases h : (fl != 0) = true
  · rw [if_pos h]
    refine fun σ => ⟨_, σ.upd (.die die _), rfl, ⟨rfl, fun d => ?_⟩⟩
    rw [At.upd_val, die_of_upd]
    split
    · next hd => rw [hd]
    · rfl
  · rw [if_neg h]
    exact .pure farWrites_chains _

theorem goes_faddPair_farWrites (a b : Option FaddOp × BitVec 32) : Goes (s0 := s0) State.FarWrites (faddPair a b) := by
  unfold faddPair
  cases a.1.orElse fun _ => b.1 with
  | none => exact .pure farWrites_chains _
  | some o => exact .bind farWrites_chains (goes_raiseAtomic_farWrites _ _ _) fun _ => .pure farWrites_chains _

theorem goes_faddTree_farWrites (n : Nat) : ∀ l, Goes (s0 := s0) State.FarWrites (faddTree n l) := by
  have hc := farWrites_chains
  induction n with
  | zero => exact fun l => .pure hc _
  | succ n ih =>
    intro l
    unfold faddTree
    split
    · exact .pure hc _
    · exact .bind hc (goes_choose_farWrites _) fun i => .bind hc (goes_choose_farWrites _) fun j =>
        .bind hc (goes_faddPair_farWrites _ _) fun b => ih _

theorem goes_writeFarRaw_farWrites (agents : List Nat) (key : Nat) (bs : List Byte) :
    Goes (s0 := s0) State.FarWrites (writeFarRaw agents key bs) := by
  have hc := farWrites_chains
  unfold writeFarRaw
  exact .bind hc (.st hc) fun s => .bind hc (goes_upd_farWrites fun _ => rfl) fun _ =>
    .bind hc (.forIn hc _ fun x _ => .bind hc (goes_upd_farWrites fun _ => rfl) fun _ => .go hc) fun _ =>
      .bind hc (.st hc) fun s => goes_upd_farWrites fun _ => rfl

theorem goes_settleFar_farWrites (key n : Nat) : Goes (s0 := s0) State.FarWrites (settleFar key n) := by
  have hc := farWrites_chains
  unfold settleFar
  refine .bind hc (.st hc) fun s => .bind hc (.forIn hc _ fun (w, l) _ => ?_) fun _ => .pure hc _
  dsimp only
  split
  · exact .bind hc (.st hc) fun t => .bind hc (goes_upd_farWrites fun _ => rfl) fun _ =>
      .bind hc (goes_faddTree_farWrites _ _) fun sum => .bind hc (goes_writeFarRaw_farWrites _ _ _) fun _ => .go hc
  · exact .go hc

theorem goes_writeFarHome_farWrites (agent key : Nat) (bs : List Byte) :
    Goes (s0 := s0) State.FarWrites (writeFarHome agent key bs) := by
  have hc := farWrites_chains
  unfold writeFarHome
  exact .bind hc (goes_settleFar_farWrites _ _) fun _ => goes_writeFarRaw_farWrites _ _ _

/-! ### Writes of engines -/

/-- After the writes that `f` holds of have become visible everywhere: those are hidden from nobody any more. -/
theorem hidden_showEngines {s : State} (f : EngW → Bool) (c : Nat) (e : EngW) :
    Expected.Hidden
        { s with engOld := (s.engOld.map fun p => (p.1, p.2.filter fun e => !f e)).filter fun p => !p.2.isEmpty } c e ↔
      Expected.Hidden s c e ∧ f e = false := by
  unfold Expected.Hidden
  constructor
  · rintro ⟨l, hl, he⟩
    obtain ⟨⟨c', l'⟩, hp, heq⟩ := List.mem_map.1 (List.mem_filter.1 hl).1
    cases heq
    obtain ⟨hmem, hf⟩ := List.mem_filter.1 he
    exact ⟨⟨l', hp, hmem⟩, by simpa using hf⟩
  · rintro ⟨⟨l, hl, he⟩, hf⟩
    have hmem : e ∈ l.filter fun e => !f e := List.mem_filter.2 ⟨he, by rw [hf]; rfl⟩
    refine ⟨_, List.mem_filter.2 ⟨List.mem_map.2 ⟨(c, l), hl, rfl⟩, ?_⟩, hmem⟩
    simpa [List.isEmpty_iff] using List.ne_nil_of_mem hmem

/-- Between two states engines' writes of near memory that `f` holds of have become visible everywhere. -/
structure State.Shows (f : EngW → Bool) (s t : State) : Prop where
  frame : t = { s with engOld := t.engOld }
  hidden : ∀ c e, Expected.Hidden t c e ↔ Expected.Hidden s c e ∧ f e = false

theorem goes_showEngines_hidden (f : EngW → Bool) : Goes (s0 := s0) (State.Shows f) (showEngines f) := by
  unfold showEngines
  refine .readSt fun σ => ?_
  by_cases h : (σ.val.engOld.any fun p => p.2.any f) = true
  · exact ⟨_, σ.upd (.engOld _), congrFun (if_pos h) σ, rfl, hidden_showEngines f⟩
  · refine ⟨_, σ, congrFun (if_neg h) σ, rfl, fun c e => ⟨fun hh => ⟨hh, ?_⟩, fun hh => hh.1⟩⟩
    obtain ⟨l, hl, he⟩ := hh
    refine Bool.eq_false_iff.2 fun hf => h ?_
    exact List.any_eq_true.2 ⟨(c, l), hl, List.any_eq_true.2 ⟨e, he, hf⟩⟩

/-- Between two states engines' far writes that `f` holds of have been performed at their homes. -/
structure State.Drains (f : EngFar → Bool) (s t : State) : Prop where
  writes : { s with farPend := t.farPend }.FarWrites t
  pending : ∀ p, p ∈ t.farPend ↔ p ∈ s.farPend ∧ f p = false
  idle : s.farPend = [] → t = s

theorem goes_drainEngineFar_pending (f : EngFar → Bool) : Goes (s0 := s0) (State.Drains f) (drainEngineFar f) := by
  unfold drainEngineFar
  refine .readSt fun σ => ?_
  by_cases h : σ.val.farPend.any f = true
  · have hc := farWrites_chains
    have hwrites : Goes (s0 := s0) State.FarWrites (do
        for p in σ.val.farPend.filter f do
          writeFarHome (2 ^ 39) p.w.key (natBytes p.w.size p.w.data.toNat)) :=
      .bind hc (.forIn hc _ fun p _ => .bind hc (goes_writeFarHome_farWrites _ _ _) fun _ => .go hc) fun _ => .pure hc _
    obtain ⟨x, τ, hτ, hr⟩ := hwrites (σ.upd (.farPend (σ.val.farPend.filter fun p => !f p)))
    have hpend : τ.val.farPend = σ.val.farPend.filter fun p => !f p := by rw [hr.frame]; rfl
    refine ⟨x, τ, (congrFun (if_pos h) σ).trans hτ, by rw [hpend]; exact hr, fun p => ?_, fun hp => ?_⟩
    · rw [hpend, List.mem_filter]; simp
    · rw [hp] at h; cases h
  · refine ⟨_, σ, congrFun (if_neg h) σ, farWrites_chains.refl _, fun p => ⟨fun hp => ⟨hp, ?_⟩, fun hp => hp.1⟩, fun _ => rfl⟩
    exact Bool.eq_false_iff.2 fun hf => h (List.any_eq_true.2 ⟨p, hp, hf⟩)

/-! ### The release -/

/-- After a release of a strand without stores and far writes of its own, every context is as it was, though the strand's may be
listed anew. -/
structure State.ReleasedAt (sc : Scope) (s t : State) : Prop where
  carried : Expected.Carried s { t with ctxs := s.ctxs } sc
  ctxs : t.ctxs = s.ctxs ∨ t.ctxs = TMap.put s.ctxs s.cur (s.ctx s.cur)
  die : ∀ d, t.die d = { s.die d with aflags := (t.die d).aflags }

theorem releasedAt_group (s : State) : s.ReleasedAt .group s where
  carried := ⟨⟨rfl, fun _ _ h => h, fun _ h => h, fun _ => rfl⟩, fun c e => by simp [Expected.Hidden],
    fun p => by simp, fun _ => rfl⟩
  ctxs := .inl rfl
  die _ := rfl

/-- Beyond group scope and below system scope: near writes alone. -/
theorem State.Shows.releasedAt {s t : State} {sc : Scope} (h : s.Shows (fun e => s.joined s.cur e.op e.num) t)
    (hg : sc ≠ .group) (hs : sc ≠ .system) : s.ReleasedAt sc t := by
  have hctxs : t.ctxs = s.ctxs := by rw [h.frame]
  have hpend : t.farPend = s.farPend := by rw [h.frame]
  have hsame : { t with ctxs := s.ctxs } = t := by rw [← hctxs]
  refine ⟨?_, .inl hctxs, fun d => by rw [h.frame]; rfl⟩
  rw [hsame]
  exact ⟨⟨by rw [h.frame], fun c e he => ((h.hidden c e).1 he).1, fun p hp => by rw [← hpend]; exact hp, fun _ => h.frame⟩,
    fun c e => (h.hidden c e).trans (by simp [hg]), fun p => by rw [hpend]; simp [hs], fun _ => h.frame⟩

/-- At system scope the far writes too; the strand has none of its own. -/
theorem State.Shows.releasedAt_system {s t u : State} (h : s.Shows (fun e => s.joined s.cur e.op e.num) t)
    (hd : ((Upd.ctx s.cur (t.ctx s.cur)).apply t).Drains (fun p => s.joined s.cur p.op p.num) u) :
    s.ReleasedAt .system u := by
  have hctxs : u.ctxs = TMap.put s.ctxs s.cur (s.ctx s.cur) := by rw [hd.writes.frame, h.frame]; rfl
  have heng : u.engOld = t.engOld := by rw [hd.writes.frame]; rfl
  have hpend : t.farPend = s.farPend := by rw [h.frame]
  refine ⟨⟨⟨?_, fun c e he => ?_, fun p hp => ?_, fun hp => ?_⟩, fun c e => ?_, fun p => ?_, fun hsc => absurd rfl hsc⟩,
    .inr hctxs, fun d => ?_⟩
  · rw [hd.writes.frame, h.frame]; rfl
  · have he' : Expected.Hidden t c e := by rw [Expected.Hidden, ← heng]; exact he
    exact ((h.hidden c e).1 he').1
  · have hp' := ((hd.pending p).1 hp).1
    rw [← hpend]
    exact hp'
  · have hidle := hd.idle (hpend.trans hp)
    rw [hidle, h.frame]
    rfl
  · refine Iff.trans ?_ ((h.hidden c e).trans (by simp))
    rw [Expected.Hidden, Expected.Hidden, ← heng]
  · refine (hd.pending p).trans ?_
    rw [show ((Upd.ctx s.cur (t.ctx s.cur)).apply t).farPend = s.farPend from hpend]
    simp
  · rw [hd.writes.die]
    rw [h.frame]
    rfl

/-- A release carries what the strand has joined at its scope, and nothing else. -/
theorem run_pushScopeOf {σ : At s0} (sc : Scope) (hfar : (σ.val.ctx σ.val.cur).farw = []) :
    ∃ τ, pushScopeOf σ.val.cur sc σ = .ok () τ ∧ σ.val.ReleasedAt sc τ.val := by
  obtain ⟨_, ρ, hρ, hshow⟩ := goes_showEngines_hidden (fun e => σ.val.joined σ.val.cur e.op e.num) σ
  have hctx : ρ.val.ctx σ.val.cur = σ.val.ctx σ.val.cur := by rw [hshow.frame]; rfl
  unfold pushScopeOf
  rw [run_bind_ok (run_st σ)]
  cases sc with
  | group => exact ⟨σ, rfl, releasedAt_group _⟩
  | device => exact ⟨ρ, (run_bind_ok hρ).trans rfl, hshow.releasedAt (by simp) (by simp)⟩
  | system =>
    have hdrain := run_drainFar (σ := ρ) (a := σ.val.cur) (by rw [hctx]; exact hfar)
    have hself : { ρ.val.ctx σ.val.cur with farw := [] } = ρ.val.ctx σ.val.cur := by rw [hctx, ← hfar]
    obtain ⟨_, τ, hτ, hd⟩ := goes_drainEngineFar_pending (fun p => σ.val.joined σ.val.cur p.op p.num)
      (ρ.upd (.ctx σ.val.cur (ρ.val.ctx σ.val.cur)))
    rw [hself] at hdrain
    exact ⟨τ, (run_bind_ok hρ).trans ((run_bind_ok hdrain).trans hτ), hshow.releasedAt_system hd⟩

theorem run_release_at {σ : At s0} (sc : Scope) (hlines : (σ.val.ctx σ.val.cur).lines = [])
    (hfar : (σ.val.ctx σ.val.cur).farw = []) :
    ∃ τ, release sc σ = .ok () τ ∧ σ.val.ReleasedAt sc τ.val := by
  obtain ⟨τ, hτ, h⟩ := run_pushScopeOf sc hfar
  refine ⟨τ, ?_, h⟩
  unfold release
  rw [run_bind_ok (run_st σ), run_bind_ok (run_drainStores hlines), run_bind_ok (run_myCtx σ), hlines]
  exact hτ

end Sys2Proof.Machine
end

section
/-! CADD and CRESET (R195, R196, R206, R400, R401, R406). -/

namespace Sys2Proof.Machine

variable {s0 : State}

/-! ### Adds to counters that nothing waits on -/

theorem satAdd_of_overflows {v : Word} {n : Nat} (h : 2 ^ 64 ≤ v.toNat + n) : satAdd v n = (BitVec.allOnes 64, true) := by
  unfold satAdd
  rw [if_pos (by omega)]

theorem goes_stampCtr (who : Option Nat) (c : Ctr) : Goes (s0 := s0) Expected.Timed (stampCtr who c) := by
  unfold stampCtr
  exact .bind timed_chains (.st timed_chains) fun s => .upd fun _ => rfl

theorem goes_carryBy (w : Adder) (c : Ctr) : Goes (s0 := s0) Expected.Timed (carryBy w c) := by
  unfold carryBy carry
  split <;> exact .bind timed_chains (.st timed_chains) fun s => goes_addJoins _ _

/-- An add at the home of a counter that nothing waits on: the counter is stamped, takes the sum if it changes, and answers. -/
theorem run_addRaw_unwatched {σ ρ υ : At s0} {c : Ctr} {n : Nat} {who : Option Nat} {v : Word} {o : Bool}
    (hsum : satAdd (σ.val.ctrV c) n = (v, o)) (hstamp : stampCtr who c σ = .ok () ρ)
    (hset : (if v != σ.val.ctrV c then setCtrV c v else pure () : M s0 Unit) ρ = .ok () υ)
    (hun : Expected.Unwatched υ.val c) :
    addRaw c n none who σ =
      .ok { old := σ.val.ctrV c, gen := σ.val.ctrG c, overflow := o, stale := false } υ := by
  have hrest : (do
      stampCtr who c
      if v != σ.val.ctrV c then
        setCtrV c v
      wakeWaiters c
      return { old := σ.val.ctrV c, gen := σ.val.ctrG c, overflow := o, stale := false } : M s0 Added) σ =
      .ok { old := σ.val.ctrV c, gen := σ.val.ctrG c, overflow := o, stale := false } υ := by
    rw [run_bind_ok hstamp]
    by_cases h : (v != σ.val.ctrV c) = true
    · rw [if_pos h] at hset ⊢
      exact (run_bind_ok hset).trans (run_bind_ok (run_wakeWaiters_unwatched hun))
    · rw [if_neg h, run_pure] at hset
      cases hset
      rw [if_neg h]
      exact run_bind_ok (run_wakeWaiters_unwatched hun)
  unfold addRaw
  rw [run_bind_ok (run_st σ), hsum]
  exact hrest

/-- An add by a strand of no gang is made at once; an overflow that the strand is told of is not reported elsewhere. -/
theorem run_addAt_made {σ ρ : At s0} {c : Ctr} {n : Nat} {ref : Word} {w : Adder} {r : Added} (hgang : w.gang = none)
    (hadd : addRaw c n none (w.ctx.filter fun a => a == w.agent) σ = .ok r ρ) (hstale : r.stale = false)
    (hover : (r.overflow && !w.silent) = false) :
    ∃ τ, addAt c n none ref w σ = .ok r τ ∧ Expected.Timed ρ.val τ.val := by
  obtain ⟨_, τ, hτ, ht⟩ := goes_carryBy w c ρ
  refine ⟨τ, ?_, ht⟩
  have hrest : (do
      let r ← addRaw c n none (w.ctx.filter fun a => a == w.agent)
      carryBy w c
      if r.stale then reportStale c ref (Option.getD none 0) w
      if r.overflow && !w.silent then reportOverflow c ref n w.agent
      return r : M s0 Added) σ = .ok r τ := by
    rw [run_bind_ok hadd, run_bind_ok hτ, hstale, hover]
    rfl
  unfold addAt
  rw [run_bind_ok (run_st σ), hgang]
  exact hrest

/-- The state with V of a cell, which is left alone where it is that already. -/
def State.withV (s : State) (k c : Nat) (v : Word) : State :=
  if v = (s.cell k c).v then s else (Upd.cell (256 * k + c) { s.cell k c with v := v }).apply s

/-- Which contexts are listed has no part in that. -/
theorem withV_ctxs (s : State) (m : TMap Ctx) (k c : Nat) (v : Word) :
    ({ s with ctxs := m } : State).withV k c v = { s.withV k c v with ctxs := m } := by
  have hcell : ({ s with ctxs := m } : State).cell k c = s.cell k c := rfl
  unfold State.withV
  rw [hcell]
  split <;> rfl

theorem withV_frame (s : State) (k c : Nat) (v : Word) : s.withV k c v = { s with cells := (s.withV k c v).cells } := by
  unfold State.withV
  split <;> rfl

theorem run_setV_cell {σ : At s0} {k c : Nat} {v : Word} :
    ∃ τ, (if v != (σ.val.cell k c).v then setCtrV (.cell k c) v else pure () : M s0 Unit) σ = .ok () τ ∧
      τ.val = σ.val.withV k c v := by
  by_cases h : v = (σ.val.cell k c).v
  · exact ⟨σ, congrFun (if_neg (by simpa using h)) σ, by rw [State.withV, if_pos h]⟩
  · exact ⟨σ.upd (.cell (256 * k + c) { σ.val.cell k c with v := v }), congrFun (if_pos (by simpa using h)) σ,
      by rw [State.withV, if_neg h]; rfl⟩

/-- A sum of a cell differs from what it was in logical times alone, once it is there. -/
theorem timed_withV {s t : State} (h : Expected.Timed s t) (k c : Nat) (v : Word) :
    Expected.Timed (s.withV k c v) (t.withV k c v) := by
  have hcell : t.cell k c = s.cell k c := by rw [h]; rfl
  unfold State.withV
  rw [hcell]
  split
  · exact h
  · rw [h]; rfl

/-- An add of a strand of no gang to a cell that nothing waits on. -/
theorem run_addAt_sum {σ : At s0} {k c n : Nat} {ref : Word} {w : Adder} {v : Word} {o : Bool} (hgang : w.gang = none)
    (hsum : satAdd (σ.val.cell k c).v n = (v, o)) (hover : (o && !w.silent) = false)
    (hun : Expected.Unwatched σ.val (.cell k c)) :
    ∃ τ, addAt (.cell k c) n none ref w σ =
        .ok { old := (σ.val.cell k c).v, gen := (σ.val.cell k c).g, overflow := o, stale := false } τ ∧
      Expected.Timed (σ.val.withV k c v) τ.val := by
  obtain ⟨_, ρ, hρ, ht⟩ := goes_stampCtr (w.ctx.filter fun a => a == w.agent) (.cell k c) σ
  have hcell : ρ.val.cell k c = σ.val.cell k c := by rw [ht]; rfl
  obtain ⟨υ, hυ, eυ⟩ := run_setV_cell (σ := ρ) (k := k) (c := c) (v := v)
  rw [hcell] at hυ
  have hun' : Expected.Unwatched υ.val (.cell k c) := by rw [eυ, withV_frame, ht]; exact hun
  obtain ⟨τ, hτ, ht'⟩ := run_addAt_made (ref := ref) hgang (run_addRaw_unwatched (c := .cell k c) hsum hρ hυ hun') rfl hover
  exact ⟨τ, hτ, timed_chains.trans (by rw [eυ]; exact timed_withV ht k c v) ht'⟩

/-! ### The body of CADD -/

/-- How an add ends: with a destination, X(D) takes the old V and GEN of the slot the generation, and an overflow traps after the
instruction. -/
def caddAnswer (d : XReg) (n : Nat) (ref : Word) (r : Added) : M s0 Fin := do
  if d ≠ 0 then
    writeX d r.old
    setGen n r.gen
  return if decide (d ≠ 0) && r.overflow then .trapped .ctrovf ref else .next

/-- The registers after an add. -/
def State.caddRegs (s : State) (d : XReg) (n : Nat) (v : Word) (g : BitVec 16) : Regs :=
  if d = 0 then s.regs else Expected.withSlot (s.regs.setX d v) n { s.slot s.cur n with gen := g }

theorem holding_caddAnswer {w : State} {σ : At s0} (h : w.Holding w.regs σ.val) (d : XReg) (n : Nat) (ref : Word) (r : Added) :
    ∃ τ, caddAnswer d n ref r σ = .ok (if decide (d ≠ 0) && r.overflow then .trapped .ctrovf ref else .next) τ ∧
      w.Holding (w.caddRegs d n r.old r.gen) τ.val := by
  unfold caddAnswer State.caddRegs
  by_cases hd : d = 0
  · rw [if_neg (fun h => h hd), if_pos hd]
    exact ⟨σ, rfl, h⟩
  · obtain ⟨τ, hτ, hw⟩ := holding_answer h rfl d r.old n r.gen
    rw [if_pos hd, if_neg hd]
    exact ⟨τ, hτ _, hw⟩

/-- A strand of no gang adds for no gang. -/
theorem adder_gang_none {s : State} (h : (s.ctx s.cur).gang = none) (silent : Bool) :
    ({ s.adder s.cur with silent := silent } : Adder).gang = none := by
  show (s.ctx s.cur).gang.map (·.launch) = none
  rw [h]
  rfl

section

variable {s : State} {d a : XReg} {n : BitVec 8} {v : Word} {sc : Scope}

/-- An amount of 2^48 or more traps before anything is done. -/
theorem run_caddBody_large (h : 2 ^ 48 ≤ (s.regs.getX a + v).toNat) :
    caddBody d n a v sc ⟨s, .refl⟩ = .error (.trap .ctrovf (s.slot s.cur n.toNat).ref false false) (⟨s, .refl⟩ : At s) := by
  unfold caddBody
  rw [run_bind_ok (run_st _)]
  exact congrFun (if_pos h) _

/-- A smaller one: the release, the slot's counter, the add at its home, and the answer. -/
theorem run_caddBody_made {τ υ ρ : At s} {k : Ctr} {r : Added} (h : (s.regs.getX a + v).toNat < 2 ^ 48)
    (hrel : release sc ⟨s, .refl⟩ = .ok () τ)
    (hslot : mySlot n.toNat { rd := decide (d ≠ 0), wr := true } τ = .ok (.ok k) υ)
    (hadd : addAt k (s.regs.getX a + v).toNat none (s.slot s.cur n.toNat).ref
      { s.adder s.cur with silent := decide (d ≠ 0) } υ = .ok r ρ) :
    caddBody d n a v sc ⟨s, .refl⟩ = caddAnswer d n.toNat (s.slot s.cur n.toNat).ref r ρ := by
  have hsmall : ¬ 2 ^ 48 ≤ (s.regs.getX a + v).toNat := Nat.not_le.2 h
  unfold caddBody
  rw [run_bind_ok (run_st _)]
  refine (congrFun (if_neg hsmall) _).trans ?_
  rw [run_bind_ok hrel, run_bind_ok hslot]
  refine (run_bind_ok hadd).trans ?_
  unfold caddAnswer
  rfl

end

/-! ### After a release -/

/-- A context listed anew with what it held is the state as it was, as far as a later write of it tells. -/
theorem holding_relisted {w t : State} (hframe : t = { w with ctxs := t.ctxs })
    (hctxs : t.ctxs = w.ctxs ∨ t.ctxs = TMap.put w.ctxs w.cur (w.ctx w.cur)) : w.Holding w.regs t := by
  rcases hctxs with e | e
  · have hsame : t = w := by rw [hframe, e]
    rw [hsame]
    exact .refl w
  · have hput : t = (Upd.ctx w.cur (w.ctx w.cur)).apply w := by rw [hframe, e]; rfl
    rw [hput]
    exact (State.Holding.refl w).write w.regs

section

variable {s t : State} {sc : Scope}

theorem State.ReleasedAt.frame (h : s.ReleasedAt sc t) : t = { s with
    ctxs := t.ctxs, engOld := t.engOld, farPend := t.farPend, far := t.far, farOld := t.farOld, farSeq := t.farSeq
    farFloor := t.farFloor, farFadds := t.farFadds, dies := t.dies, oracle := t.oracle } := by
  obtain ⟨⟨hframe, -⟩, -⟩ := h.carried
  have := congrArg (fun u : State => { u with ctxs := t.ctxs }) hframe
  exact this

theorem State.ReleasedAt.ctx (h : s.ReleasedAt sc t) (b : Nat) : t.ctx b = s.ctx b := by
  rcases h.ctxs with e | e
  · rw [State.ctx, e, State.ctx]
  · have hput : t.ctx b = ((Upd.ctx s.cur (s.ctx s.cur)).apply s).ctx b := by rw [State.ctx, e]; rfl
    rw [hput, ctx_of_upd]
    split
    · next hb => rw [hb]
    · rfl

theorem State.ReleasedAt.cur (h : s.ReleasedAt sc t) : t.cur = s.cur := by rw [h.frame]
theorem State.ReleasedAt.cell (h : s.ReleasedAt sc t) (k c : Nat) : t.cell k c = s.cell k c := by rw [h.frame]; rfl

theorem State.ReleasedAt.slot (h : s.ReleasedAt sc t) (n : Nat) : t.slot s.cur n = s.slot s.cur n :=
  slot_congr n (by rw [h.ctx]) (by rw [h.ctx]) (by rw [h.frame]) (by rw [h.frame])

theorem State.ReleasedAt.cellOf (h : s.ReleasedAt sc t) (n : Nat) : Expected.cellOf t n = Expected.cellOf s n := by
  have hnode : t.nodeId = s.nodeId := by rw [State.nodeId, h.frame, State.nodeId]
  have href (r : Word) : t.localRef r = s.localRef r := by rw [State.localRef, hnode, State.localRef]
  unfold Expected.cellOf
  simp only [h.cur, h.slot, hnode, href]

/-- Nothing waits on a counter that did not before. -/
theorem State.ReleasedAt.unwatched (h : s.ReleasedAt sc t) {c : Ctr} (hun : Expected.Unwatched s c) : Expected.Unwatched t c := by
  obtain ⟨hctxs, hthreads⟩ := hun
  have hmem : ∀ p ∈ t.ctxs, ∀ w, p.2.wait = some w → ∃ q ∈ s.ctxs, q.2.wait = some w := by
    intro p hp w hw
    rcases h.ctxs with e | e <;> rw [e] at hp
    · exact ⟨p, hp, hw⟩
    · rcases TMap.mem_put hp with rfl | hp
      · exact ctx_wait_mem hw
      · exact ⟨p, hp, hw⟩
  refine ⟨fun p hp w hw => ?_, by rw [h.frame]; exact hthreads⟩
  obtain ⟨q, hq, hw'⟩ := hmem p hp w hw
  exact hctxs q hq w hw'

/-- What follows the release, with the contexts as they were listed before it. -/
theorem State.ReleasedAt.relisted (h : s.ReleasedAt sc t) {r : State} (hctxs : r.ctxs = t.ctxs) (hcur : r.cur = t.cur)
    (hfwd : r.fwd = t.fwd) (hcores : r.cores = t.cores) :
    s.SameStrand { r with ctxs := s.ctxs } ∧ ({ r with ctxs := s.ctxs } : State).Holding s.regs r := by
  have hsame : s.SameStrand { r with ctxs := s.ctxs } :=
    sameStrand_of_ctxs (hcur.trans h.cur) (hfwd.trans (by rw [h.frame])) (hcores.trans (by rw [h.frame])) rfl
  have hlisted : r.ctxs = s.ctxs ∨ r.ctxs = TMap.put s.ctxs r.cur (({ r with ctxs := s.ctxs } : State).ctx r.cur) := by
    have hctx : ({ r with ctxs := s.ctxs } : State).ctx r.cur = s.ctx r.cur := rfl
    rw [hctx, hctxs, hcur, h.cur]
    exact h.ctxs
  refine ⟨hsame, ?_⟩
  rw [← hsame.regs]
  exact holding_relisted rfl hlisted

/-- A sum of a cell after the release. -/
theorem State.ReleasedAt.sum (h : s.ReleasedAt sc t) {r : State} {k c : Nat} {y : Word}
    (ht : Expected.Timed (t.withV k c y) r) :
    ∃ u w : State, Expected.Carried s u sc ∧ Expected.Timed (u.withV k c y) w ∧ s.SameStrand w ∧ w.Holding s.regs r := by
  obtain ⟨hsame, hheld⟩ := h.relisted (r := r) (by rw [ht, withV_frame]) (by rw [ht, withV_frame])
    (by rw [ht, withV_frame]) (by rw [ht, withV_frame])
  refine ⟨{ t with ctxs := s.ctxs }, { r with ctxs := s.ctxs }, h.carried, ?_, hsame, hheld⟩
  rw [withV_ctxs]
  have := congrArg (fun x : State => { x with ctxs := s.ctxs }) ht
  exact this

end

/-! ### CADD on a cell -/

@[simp] theorem withSlot_mintrap (r : Regs) (n : Nat) (sl : Slot) : (Expected.withSlot r n sl).mintrap = r.mintrap := rfl

theorem caddRegs_congr {s w : State} (h : s.SameStrand w) (hnode : w.node = s.node) (d : XReg) (n : Nat) (v : Word)
    (g : BitVec 16) : w.caddRegs d n v g = s.caddRegs d n v g := by
  unfold State.caddRegs
  rw [h.regs, h.cur, slot_gen_congr n g (by rw [h.ctx]) (by rw [h.ctx]) hnode]

@[simp] theorem setX_mintrap (r : Regs) (d : XReg) (v : Word) : (r.setX d v).mintrap = r.mintrap := by
  unfold Regs.setX; split <;> rfl

section

variable {s : State} {d a : XReg} {n : BitVec 8} {v : Word} {sc : Scope} {k c : Nat}

/-- The body of CADD on a cell that nothing waits on: the release, the sum, the answer. -/
theorem run_caddBody_cell {y : Word} {o : Bool} (hset : Expected.Settled s) (hc : Expected.cellOf s n.toNat = some (k, c))
    (hun : Expected.NoWaiters s k c) (hsmall : (s.regs.getX a + v).toNat < 2 ^ 48)
    (hsum : satAdd (s.cell k c).v (s.regs.getX a + v).toNat = (y, o)) (hover : (o && !decide (d ≠ 0)) = false) :
    ∃ (u w : State) (σ : At s), Expected.Carried s u sc ∧ Expected.Timed (u.withV k c y) w ∧ s.SameStrand w ∧
      caddBody d n a v sc ⟨s, .refl⟩ =
        .ok (if decide (d ≠ 0) && o then .trapped .ctrovf (s.slot s.cur n.toNat).ref else .next) σ ∧
      w.Holding (s.caddRegs d n.toNat (s.cell k c).v (s.cell k c).g) σ.val := by
  obtain ⟨hlines, hfar, hgang⟩ := hset
  obtain ⟨τ, hrel, hτ⟩ := run_release_at (σ := (⟨s, .refl⟩ : At s)) sc hlines hfar
  have hslot := run_mySlot_cell (σ := τ) (n := n.toNat) (u := { rd := decide (d ≠ 0), wr := true })
    (by rw [hτ.cellOf, hc]; rfl)
  rw [cellCtr_of_cellOf ((hτ.cellOf n.toNat).trans hc)] at hslot
  have hnogang := adder_gang_none hgang (decide (d ≠ 0))
  have hcell : τ.val.cell k c = s.cell k c := hτ.cell k c
  obtain ⟨ρ, hadd, ht⟩ := run_addAt_sum (σ := τ) (ref := (s.slot s.cur n.toNat).ref) hnogang (by rw [hcell]; exact hsum) hover
    (hτ.unwatched hun)
  rw [hcell] at hadd
  obtain ⟨u, w, hcarried, hw, hsame, hheld⟩ := hτ.sum ht
  rw [← hsame.regs] at hheld
  obtain ⟨σ, hσ, hans⟩ := holding_caddAnswer hheld d n.toNat (s.slot s.cur n.toNat).ref
    { old := (s.cell k c).v, gen := (s.cell k c).g, overflow := o, stale := false }
  have hnode : w.node = s.node := by rw [hw, withV_frame, hcarried.1.1]
  refine ⟨u, w, σ, hcarried, hw, hsame, (run_caddBody_made hsmall hrel hslot hadd).trans hσ, ?_⟩
  rw [← caddRegs_congr hsame hnode]
  exact hans

/-- The step of CADD on a cell, where no overflow is to be told to the strand. -/
theorem exec_cadd_cell {sy : Sync} {y : Word} {o : Bool} (hq : s.Quiet sy) (hn : n.toNat < (s.ctx s.cur).nslots)
    (hset : Expected.Settled s) (hc : Expected.cellOf s n.toNat = some (k, c)) (hun : Expected.NoWaiters s k c)
    (hsmall : (s.regs.getX a + v).toNat < 2 ^ 48)
    (hsum : satAdd (s.cell k c).v (s.regs.getX a + v).toNat = (y, o)) (ho : o = false) :
    ∃ u w : State, Expected.Carried s u sy.scope ∧ Expected.Timed (u.withV k c y) w ∧
      exec (.cadd d n a v sy) s = .next (w.goOn sy (s.caddRegs d n.toNat (s.cell k c).v (s.cell k c).g)) := by
  subst ho
  obtain ⟨u, w, σ, hcarried, hw, hsame, hbody, hheld⟩ :=
    run_caddBody_cell (d := d) (sc := sy.scope) hset hc hun hsmall hsum rfl
  rw [Bool.and_false, if_neg Bool.false_ne_true] at hbody
  have hstep : execCadd d n a v sy s = _ :=
    counterInstr_next hq hn (run_pure _ _) hbody hsame hheld (by unfold State.caddRegs; split <;> simp)
  exact ⟨u, w, hcarried, hw, hstep⟩

/-- The step of CADD with a destination on a cell that overflows: the trap comes after the instruction. -/
theorem exec_cadd_overflow {sy : Sync} {y : Word} (hq : s.Quiet sy) (hn : n.toNat < (s.ctx s.cur).nslots)
    (hset : Expected.Settled s) (hc : Expected.cellOf s n.toNat = some (k, c)) (hun : Expected.NoWaiters s k c)
    (hsmall : (s.regs.getX a + v).toNat < 2 ^ 48)
    (hsum : satAdd (s.cell k c).v (s.regs.getX a + v).toNat = (y, true)) (hd : d ≠ 0) (hm : s.doubleTrap = false) :
    ∃ u w : State, Expected.Carried s u sy.scope ∧ Expected.Timed (u.withV k c y) w ∧
      exec (.cadd d n a v sy) s =
        .next ((Expected.withRegs w (s.caddRegs d n.toNat (s.cell k c).v (s.cell k c).g)).trapped .ctrovf false
          (nextPc s.regs.pc sy) (s.slot s.cur n.toNat).ref) := by
  have hret : decide (d ≠ 0) = true := decide_eq_true hd
  obtain ⟨u, w, σ, hcarried, hw, hsame, hbody, hheld⟩ :=
    run_caddBody_cell (d := d) (sc := sy.scope) hset hc hun hsmall hsum (by rw [hret]; rfl)
  rw [hret, Bool.and_true, if_pos rfl] at hbody
  have hregs : s.caddRegs d n.toNat (s.cell k c).v (s.cell k c).g = _ := if_neg hd
  have hmode : (Expected.withRegs w (s.caddRegs d n.toNat (s.cell k c).v (s.cell k c).g)).doubleTrap = false := by
    have hwregs (r : Regs) : (Expected.withRegs w r).regs = r := by
      rw [State.regs, Expected.withRegs, ctx_cur, ctx_upd_same]
    rw [State.doubleTrap, hwregs, hregs, withSlot_mode, setX_mode, withSlot_mintrap, setX_mintrap]
    exact hm
  have hstep : execCadd d n a v sy s = _ :=
    counterInstr_trapped hq hn (run_pure _ _) hbody hsame hheld (by rw [hregs]; simp) hmode
  exact ⟨u, w, hcarried, hw, hstep⟩

theorem exec_cadd_large {sy : Sync} (hq : s.Quiet sy) (hn : n.toNat < (s.ctx s.cur).nslots)
    (h : 2 ^ 48 ≤ (s.regs.getX a + v).toNat) (hm : s.doubleTrap = false) :
    exec (.cadd d n a v sy) s = .next (s.trapped .ctrovf false s.regs.pc (s.slot s.cur n.toNat).ref) := by
  have hstep : execCadd d n a v sy s = _ :=
    counterInstr_precise hq hn (run_pure _ _) hm (run_caddBody_large (sc := sy.scope) h) rfl
  exact hstep

end

/-! ### CRESET on a cell -/

theorem run_kernelOnly {σ : At s0} (h : σ.val.regs.mode ≠ .user) : kernelOnly σ = .ok () σ := by
  unfold kernelOnly
  rw [run_bind_ok (run_myCtx σ)]
  exact congrFun (if_neg (by simpa [State.regs] using h)) σ

theorem run_kernelOnly_user {σ : At s0} (h : σ.val.regs.mode = .user) :
    kernelOnly σ = .error (.trap .priv (σ.val.ctx σ.val.cur).ir false false) σ := by
  unfold kernelOnly
  rw [run_bind_ok (run_myCtx σ)]
  exact (congrFun (if_pos (by simpa [State.regs] using h)) σ).trans (run_privileged σ)

/-- The state with a cell reset: V is 0, and its generation is the next. -/
def State.cellReset (s : State) (k c : Nat) : State := (Upd.cell (256 * k + c) { v := 0, g := (s.cell k c).g + 1 }).apply s

theorem upd_cell_cell (s : State) (i : Nat) (x y : Cell) :
    (Upd.cell i y).apply ((Upd.cell i x).apply s) = (Upd.cell i y).apply s := by
  simp [Upd.apply]

/-- The two writes of a reset. -/
theorem run_setCtr_reset {σ : At s0} {k c : Nat} {g : BitVec 16} :
    ∃ τ, (∀ f : M s0 (BitVec 16), (do setCtrV (.cell k c) 0; setCtrG (.cell k c) g; f) σ = f τ) ∧
      τ.val = (Upd.cell (256 * k + c) { v := 0, g := g }).apply σ.val := by
  let ρ := σ.upd (.cell (256 * k + c) { σ.val.cell k c with v := 0 })
  have hv : setCtrV (.cell k c) 0 σ = .ok () ρ := rfl
  have hg : setCtrG (.cell k c) g ρ = .ok () (ρ.upd (.cell (256 * k + c) { ρ.val.cell k c with g := g })) := rfl
  refine ⟨_, fun f => (run_bind_ok hv).trans (run_bind_ok hg), ?_⟩
  have hcell : ρ.val.cell k c = { σ.val.cell k c with v := 0 } := by
    show TMap.get _ (TMap.put _ _ _) _ = _
    simp
  rw [At.upd_val, hcell]
  exact upd_cell_cell _ _ _ _

/-- A reset of a cell that nothing waits on, and on which no add is held. -/
theorem run_resetCtr_cell {σ : At s0} {k c : Nat} (who : Option Nat) (hun : Expected.NoWaiters σ.val k c)
    (hheld : ∀ h ∈ σ.val.held, h.ctr ≠ .cell k c) :
    ∃ τ, resetCtr (.cell k c) who σ = .ok ((σ.val.cell k c).g + 1) τ ∧ Expected.Timed (σ.val.cellReset k c) τ.val := by
  obtain ⟨_, ρ, hρ, ht⟩ := goes_stampCtr who (.cell k c) σ
  obtain ⟨τ, hτ, eτ⟩ := run_setCtr_reset (σ := ρ) (k := k) (c := c) (g := (σ.val.cell k c).g + 1)
  have hheld' : τ.upd (.held (σ.val.held.filter fun h => h.ctr != .cell k c)) = τ := by
    have hall : (σ.val.held.filter fun h => h.ctr != .cell k c) = τ.val.held := by
      rw [List.filter_eq_self.2 fun h hh => bne_iff_ne.2 (hheld h hh), eτ, ht]
      rfl
    exact At.ext (by rw [At.upd_val, hall]; rfl)
  obtain ⟨hctxs, hthreads⟩ := hun
  have hτctxs : τ.val.ctxs = σ.val.ctxs := by rw [eτ, ht]; rfl
  have hτthreads : τ.val.threads = σ.val.threads := by rw [eτ, ht]; rfl
  refine ⟨τ, ?_, by rw [eτ, ht]; rfl⟩
  have hgen : σ.val.ctrG (.cell k c) = (σ.val.cell k c).g := rfl
  unfold resetCtr
  rw [run_bind_ok (run_st σ), run_bind_ok hρ, hgen]
  refine (hτ _).trans ?_
  rw [run_bind_ok (run_upd _ τ), hheld', run_bind_ok (run_st τ), hτctxs, hτthreads]
  refine (run_bind_ok (run_forIn_skip fun p hp => ?_)).trans ((run_bind_ok (run_forIn_skip fun p hp => ?_)).trans rfl)
  · obtain ⟨b, x⟩ := p
    dsimp only
    cases hw : x.wait with
    | none => rfl
    | some w =>
      have hnone : ¬ (w.watches.any fun y => y.ctr == .cell k c) = true := by
        simpa using hctxs _ hp w hw
      exact congrFun (if_neg hnone) τ
  · obtain ⟨b, x⟩ := p
    dsimp only
    cases hst : x.st
    case waits f w d e =>
      have hnone : ¬ (w.ctr == .cell k c) = true := by simpa using hthreads _ hp f w d e hst
      cases e
      case open_ => exact congrFun (if_neg hnone) τ
      all_goals rfl
    all_goals rfl

section

variable {s : State} {n : BitVec 8} {sy : Sync} {k c : Nat}

variable (hq : s.Quiet sy) (hn : n.toNat < (s.ctx s.cur).nslots) (hc : Expected.cellOf s n.toNat = some (k, c))

include hq hn hc

theorem exec_creset_cell (hun : Expected.NoWaiters s k c) (hmode : s.regs.mode ≠ .user) (hlines : (s.ctx s.cur).lines = [])
    (hheld : ∀ h ∈ s.held, h.ctr ≠ .cell k c) :
    ∃ t : State, Expected.Timed (s.cellReset k c) t ∧
      exec (.creset n sy) s =
        .next (t.goOn sy (Expected.withSlot s.regs n.toNat { s.slot s.cur n.toNat with gen := (s.cell k c).g + 1 })) := by
  have hneed := run_needSlot_cell (σ := ⟨s, .refl⟩) (u := { rd := false, wr := true }) (Option.isSome_of_eq_some hc)
  rw [cellCtr_of_cellOf hc] at hneed
  obtain ⟨ρ, hreset, ht⟩ := run_resetCtr_cell (σ := ⟨s, .refl⟩) (some s.cur) hun hheld
  have hsame : s.SameStrand ρ.val := by rw [ht]; exact ⟨rfl, rfl, rfl, rfl⟩
  obtain ⟨τ, hτ, hw⟩ := holding_setGen (.refl ρ.val) rfl n.toNat ((s.cell k c).g + 1)
  have hslot : { ρ.val.slot s.cur n.toNat with gen := (s.cell k c).g + 1 } =
      { s.slot s.cur n.toNat with gen := (s.cell k c).g + 1 } :=
    slot_gen_congr _ _ (by rw [hsame.ctx]) (by rw [hsame.ctx]) (by rw [ht]; rfl)
  rw [hsame.regs, hsame.cur, hslot] at hw
  have hbody : cresetBody n ⟨s, .refl⟩ = .ok .next τ := by
    unfold cresetBody
    rw [run_bind_ok (run_me _), run_bind_ok (run_drainStores hlines), run_bind_ok hneed, run_bind_ok hreset]
    exact run_bind_ok hτ
  have hstep : execCreset n sy s = _ :=
    counterInstr_next hq hn (run_kernelOnly (σ := ⟨s, .refl⟩) hmode) hbody hsame hw rfl
  exact ⟨ρ.val, ht, hstep⟩

omit hc in
theorem exec_creset_user (hmode : s.regs.mode = .user) :
    exec (.creset n sy) s = .next (s.trapped .priv false s.regs.pc (s.ctx s.cur).ir) := by
  have hm : s.doubleTrap = false := by rw [State.doubleTrap, hmode]; rfl
  have hpre : (do legalSlot n.toNat; kernelOnly : M s Unit) ⟨s, .refl⟩ = _ :=
    (run_bind_ok (run_legalSlot (σ := ⟨s, .refl⟩) hn)).trans (run_kernelOnly_user (σ := ⟨s, .refl⟩) hmode)
  have hstep : execCreset n sy s = _ := strandStep_pre_trap hq hm hpre rfl
  exact hstep

end

/-- A cell that a release has left as it was takes the sum. -/
theorem withV_of_cell {u : State} {k c : Nat} {x : Cell} (h : u.cell k c = x) (y : Word) :
    u.withV k c y = if y = x.v then u else (Upd.cell (256 * k + c) { x with v := y }).apply u := by
  subst h
  rfl

theorem carried_cell {s u : State} {sc : Scope} (h : Expected.Carried s u sc) (k c : Nat) : u.cell k c = s.cell k c := by
  obtain ⟨⟨hframe, -⟩, -⟩ := h
  rw [hframe]
  rfl

/-- Settles O23: CADD by its amount and sum, CRESET by the mode. -/
theorem counterUpdateResult : Obligations.CounterUpdateResult := by
  unfold Obligations.CounterUpdateResult
  refine ⟨fun n d a v sy s k c hq hn hset hc hun => ⟨fun hsmall hfit => ?_, fun hsmall hover hd hm => ?_, fun hlarge hm => ?_⟩,
    fun n sy s k c hq hn hc hun => ⟨fun hmode hlines hheld => ?_, fun hmode => ?_⟩⟩
  · obtain ⟨u, w, hu, hw, hstep⟩ := exec_cadd_cell (d := d) hq hn hset hc hun hsmall (satAdd_of_fits hfit) rfl
    rw [withV_of_cell (carried_cell hu k c)] at hw
    exact ⟨u, w, hu, hw, hstep⟩
  · obtain ⟨u, w, hu, hw, hstep⟩ := exec_cadd_overflow hq hn hset hc hun hsmall (satAdd_of_overflows hover) hd hm
    rw [withV_of_cell (carried_cell hu k c)] at hw
    rw [State.caddRegs, if_neg hd] at hstep
    exact ⟨u, w, hu, hw, hstep⟩
  · exact exec_cadd_large hq hn hlarge hm
  · exact exec_creset_cell hq hn hc hun hmode hlines hheld
  · exact exec_creset_user hq hn hmode

end Sys2Proof.Machine
end

section
/-! Counters in near memory (R195, R198, R199, R371, R400, R403, R405): the home of a counter page, and what it writes. -/

namespace Sys2Proof.Machine

variable {s0 : State}

/-! ### What translations and homes rest on -/

/-- The states agree in what a walk, its checks, the access tables and a counter's home read, translation caches aside. -/
structure State.SameHomes (s t : State) : Prop where
  node : t.node = s.node
  mem : t.mem = s.mem
  bad : t.bad = s.bad
  fadds : t.fadds = s.fadds
  keyGen : t.keyGen = s.keyGen
  hgen : t.hgen = s.hgen
  die : ∀ d, (t.die d).rootbase = (s.die d).rootbase ∧ (t.die d).links = (s.die d).links ∧ (t.die d).access = (s.die d).access

theorem sameHomes_chains : Chains State.SameHomes where
  refl _ := ⟨rfl, rfl, rfl, rfl, rfl, rfl, fun _ => ⟨rfl, rfl, rfl⟩⟩
  trans {s t u} h h' := by
    refine ⟨h'.node.trans h.node, h'.mem.trans h.mem, h'.bad.trans h.bad, h'.fadds.trans h.fadds, h'.keyGen.trans h.keyGen,
      h'.hgen.trans h.hgen, fun d => ?_⟩
    obtain ⟨hr, hl, ha⟩ := h.die d
    obtain ⟨hr', hl', ha'⟩ := h'.die d
    exact ⟨hr'.trans hr, hl'.trans hl, ha'.trans ha⟩

theorem Expected.Timed.sameHomes {s t : State} (h : Expected.Timed s t) : s.SameHomes t := by
  rw [h]; exact ⟨rfl, rfl, rfl, rfl, rfl, rfl, fun _ => ⟨rfl, rfl, rfl⟩⟩

theorem State.Looks.sameHomes {s t : State} (h : s.Looks t) : s.SameHomes t where
  node := by rw [h.frame]
  mem := by rw [h.frame]
  bad := by rw [h.frame]
  fadds := by rw [h.frame]
  keyGen := by rw [h.frame]
  hgen := by rw [h.frame]
  die d := by rw [h.die d]; exact ⟨rfl, rfl, rfl⟩

theorem State.ReleasedAt.sameHomes {s t : State} {sc : Scope} (h : s.ReleasedAt sc t) : s.SameHomes t where
  node := by rw [h.frame]
  mem := by rw [h.frame]
  bad := by rw [h.frame]
  fadds := by rw [h.frame]
  keyGen := by rw [h.frame]
  hgen := by rw [h.frame]
  die d := by rw [h.die d]; exact ⟨rfl, rfl, rfl⟩

section

variable {s t : State} (h : s.SameHomes t)

include h

theorem State.SameHomes.nodeId : t.nodeId = s.nodeId := by rw [State.nodeId, h.node, State.nodeId]

theorem State.SameHomes.access (d n m : Nat) : t.access d n m = s.access d n m := by
  unfold State.access
  rw [(h.die d).2.2]

theorem State.SameHomes.link (d p : Nat) : t.link d p = s.link d p := by
  unfold State.link
  rw [(h.die d).2.1]

theorem State.SameHomes.linkUp (pa : Nat) : t.linkUp pa = s.linkUp pa := by
  unfold State.linkUp
  rw [h.link]

theorem State.SameHomes.poisoned (pa : Nat) : t.poisoned pa = s.poisoned pa := by
  unfold State.poisoned
  rw [h.linkUp, h.bad]

theorem State.SameHomes.walk (die : Nat) (asid : BitVec 16) (va : Word) : t.walk die asid va = s.walk die asid va := by
  have hword (pa : Nat) : t.walkWord pa = s.walkWord pa := by
    unfold State.walkWord State.physWord State.physBytes State.physByte State.inModule
    simp only [h.link, h.poisoned, h.mem]
  unfold State.walk
  simp only [hword, (h.die die).1]

theorem State.SameHomes.checkLeaf (q : Req) (k : Kind) (va : Word) (e : TlbEntry) :
    t.checkLeaf q k va e = s.checkLeaf q k va e := by
  unfold State.checkLeaf State.targetAdmits State.netAdmits State.inModule
  simp only [h.access, h.link, h.nodeId]

theorem State.SameHomes.keyTag (key : Nat) : t.keyTag key = s.keyTag key := by
  unfold State.keyTag
  rw [h.keyGen]

theorem State.SameHomes.homeGen (pa : Nat) : t.homeGen pa = s.homeGen pa := by
  unfold State.homeGen
  rw [h.hgen]

theorem State.SameHomes.memValue (pa n : Nat) : Expected.memValue t pa n = Expected.memValue s pa n := by
  unfold Expected.memValue
  rw [h.mem]

theorem State.SameHomes.noPartials {pa : Nat} (hp : Expected.NoPartials s pa) : Expected.NoPartials t pa := by
  unfold Expected.NoPartials
  rw [h.fadds]
  exact hp

/-- An address translates as before where the die's cache holds what it held. -/
theorem State.SameHomes.translates {q : Req} {k : Kind} {va : Word} {pa : Nat} (htlb : (t.die q.die).tlb = (s.die q.die).tlb)
    (ht : Expected.Translates s q k va pa) : Expected.Translates t q k va pa := by
  have hgroup (e : TlbEntry) : t.contOthers q.die q.asid va e = s.contOthers q.die q.asid va e := by
    unfold State.contOthers
    simp only [h.walk]
  unfold Expected.Translates at ht ⊢
  dsimp only at ht ⊢
  rw [h.walk, h.nodeId, hgroup, cached_congr htlb _ rfl, h.checkLeaf]
  simp only [h.poisoned]
  exact ht

end

/-! ### Counter accesses of every kind -/

/-- Near memory that a counter access reaches, one of any kind bits does: the page's checks do not ask them. -/
theorem checkLeaf_counter {s : State} {q : Req} {va : Word} {e : TlbEntry} {pa : Nat} (rd wr : Bool)
    (h : s.checkLeaf q (.counter true true) va e = .ok (.phys pa)) : s.checkLeaf q (.counter rd wr) va e = .ok (.phys pa) := by
  obtain ⟨hnear, -⟩ := near_of_checkLeaf h
  rw [← h]
  have hfetch (r w : Bool) : (Kind.counter r w == .fetch) = false := rfl
  unfold State.checkLeaf
  simp only [hnear, hfetch, Kind.stores, Kind.isCounter, Bool.false_and, Bool.not_true, Bool.and_false]

theorem translates_counter {s : State} {q : Req} {va : Word} {pa : Nat} (rd wr : Bool)
    (h : Expected.Translates s q (.counter true true) va pa) : Expected.Translates s q (.counter rd wr) va pa := by
  obtain ⟨hcanon, hnode, hgroup, hcached, hcheck, hrest⟩ := h
  exact ⟨hcanon, hnode, hgroup, hcached, checkLeaf_counter rd wr hcheck, hrest⟩

/-! ### The home of a counter page -/

/-- Between two states a reference has been resolved: what lookups leave, and the key of a line that has none yet. -/
structure State.Resolves (s t : State) : Prop where
  frame : t = { s with dies := t.dies, oracle := t.oracle, lineKey := t.lineKey }
  homes : s.SameHomes t

/-- A counter word of a line that is the page's, or nobody's where the access does not write. -/
def State.Keyed (s : State) (pa key : Nat) (wr : Bool) : Prop :=
  TMap.find s.lineKey (pa / 256) = some (s.keyTag key) ∨ (wr = false ∧ TMap.find s.lineKey (pa / 256) = none)

/-- How the home of a counter page answers: a line that nothing has written yet takes the page's key for a write. -/
def homeAnswer (q : Req) (wr : Bool) (r : Word) (pa : Nat) : M s0 (Except Cause Ctr) := do
  let s ← st
  if wr && (TMap.find s.lineKey (pa / 256)).isNone then
    upd (.lineKey (pa / 256) (s.keyTag (s.keyOf q.die q.asid r pa)))
  return .ok (.home pa)

/-- An aligned reference to a counter page whose home admits the access. -/
theorem resolveRef_eq_homeAnswer {σ ρ : At s0} {q : Req} {u : CtrUse} {r : Word} {pa : Nat} (hl : isLocalRef r = false)
    (h8 : r.toNat % 8 = 0) (hρ : xlate q (.counter u.rd u.wr) r σ = .ok (.ok (.phys pa)) ρ) (hup : ρ.val.linkUp pa = true)
    (hadm : admits (ρ.val.access (paDie pa) 1 q.master) u.rd u.wr q.byUser q.asid = true) :
    resolveRef q u r σ = homeAnswer q u.wr r pa ρ := by
  have hlocal : ¬ isLocalRef r = true := by rw [hl]; exact Bool.false_ne_true
  have halign : ¬ (r.toNat % 8 != 0) = true := by rw [h8]; exact Bool.false_ne_true
  have hup' : ¬ (!ρ.val.linkUp pa) = true := by rw [hup]; exact Bool.false_ne_true
  unfold resolveRef homeAnswer
  rw [run_bind_ok (run_st σ), run_bind_ok (run_st ρ)]
  refine (congrFun ((if_neg hlocal).trans (if_neg halign)) σ).trans ((run_bind_ok hρ).trans ?_)
  refine (run_bind_ok (run_st ρ)).trans ?_
  exact congrFun ((if_pos hadm).trans (if_neg hup')) ρ

theorem run_homeAnswer {σ : At s0} {q : Req} {wr : Bool} {r : Word} {pa key : Nat}
    (hkeyOf : σ.val.keyOf q.die q.asid r pa = key)
    (hkey : TMap.find σ.val.lineKey (pa / 256) = none ∨ TMap.find σ.val.lineKey (pa / 256) = some (σ.val.keyTag key)) :
    ∃ τ, homeAnswer q wr r pa σ = .ok (.ok (.home pa)) τ ∧ τ.val = { σ.val with lineKey := τ.val.lineKey } ∧
      τ.val.Keyed pa key wr := by
  unfold homeAnswer
  rw [run_bind_ok (run_st σ), hkeyOf]
  by_cases hnew : (wr && (TMap.find σ.val.lineKey (pa / 256)).isNone) = true
  · refine ⟨σ.upd (.lineKey (pa / 256) (σ.val.keyTag key)), congrFun (if_pos hnew) σ, rfl, .inl ?_⟩
    exact TMap.find_put_same _ _ _
  · refine ⟨σ, congrFun (if_neg hnew) σ, rfl, ?_⟩
    rcases hkey with h | h
    · rw [h] at hnew
      exact .inr ⟨by simpa using hnew, h⟩
    · exact .inl h

theorem run_resolveRef_home {σ : At s0} {q : Req} {u : CtrUse} {r : Word} {pa : Nat} (hl : isLocalRef r = false)
    (h8 : r.toNat % 8 = 0) (ht : Expected.Translates σ.val q (.counter u.rd u.wr) r pa)
    (hkey : Expected.Readable σ.val q r pa) (hup : σ.val.linkUp pa = true)
    (hadm : admits (σ.val.access (paDie pa) 1 q.master) u.rd u.wr q.byUser q.asid = true) :
    ∃ τ, resolveRef q u r σ = .ok (.ok (.home pa)) τ ∧ σ.val.Resolves τ.val ∧
      τ.val.Keyed pa (leafKey (σ.val.walk q.die q.asid r).leaf) u.wr := by
  obtain ⟨ρ, hρ, hlook, hholds⟩ := run_xlate ht
  obtain ⟨-, -, -, -, hcheck, -⟩ := ht
  obtain ⟨hnear, hplace⟩ := near_of_checkLeaf hcheck
  have hkeyOf : ρ.val.keyOf q.die q.asid r pa = leafKey (σ.val.walk q.die q.asid r).leaf := by
    have hleaf := hholds.leafOf hnear
    rw [hplace] at hleaf
    rw [State.keyOf, hleaf]
  have hhomes := hlook.sameHomes
  have hlines : ρ.val.lineKey = σ.val.lineKey := by rw [hlook.frame]
  obtain ⟨τ, hτ, eτ, hkeyed⟩ := run_homeAnswer (wr := u.wr) hkeyOf (by rw [hlines, hhomes.keyTag]; exact hkey)
  refine ⟨τ, (resolveRef_eq_homeAnswer hl h8 hρ (by rw [hhomes.linkUp, hup]) (by rw [hhomes.access]; exact hadm)).trans hτ,
    ⟨?_, sameHomes_chains.trans hhomes ?_⟩, hkeyed⟩
  · rw [eτ, hlook.frame]
  · rw [eτ]; exact ⟨rfl, rfl, rfl, rfl, rfl, rfl, fun _ => ⟨rfl, rfl, rfl⟩⟩

/-! ### A counter that a strand reaches -/

/-- A reference of the strand names a clean counter word of near memory, whose home admits the access. -/
structure State.Reaches (s : State) (r : Word) (pa : Nat) (u : CtrUse) : Prop where
  global : isLocalRef r = false
  aligned : r.toNat % 8 = 0
  translates : Expected.Translates s (s.reqOf s.cur) (.counter u.rd u.wr) r pa
  readable : Expected.Readable s (s.reqOf s.cur) r pa
  clean : ∀ i < 8, s.poisoned (pa + i) = false
  partials : Expected.NoPartials s pa
  admitted : admits (s.access (paDie pa) 1 (s.reqOf s.cur).master) u.rd u.wr (s.reqOf s.cur).byUser (s.reqOf s.cur).asid = true

/-- KEY of the page by which the strand reaches a counter. -/
def State.refKey (s : State) (r : Word) : Nat := leafKey (s.walk (s.reqOf s.cur).die (s.reqOf s.cur).asid r).leaf

theorem refKey_lt (s : State) (r : Word) : s.refKey r < 128 := by
  unfold State.refKey leafKey field
  omega

section

variable {s t : State} {r : Word} {pa : Nat} {u : CtrUse}

theorem State.Reaches.linkUp (h : s.Reaches r pa u) : s.linkUp pa = true := linkUp_of_clean (h.clean 0 (by decide))

theorem State.Reaches.word (h : s.Reaches r pa u) : pa % 8 = 0 := by
  obtain ⟨-, -, -, -, hcheck, -⟩ := h.translates
  obtain ⟨-, rfl⟩ := near_of_checkLeaf hcheck
  have := leafPa_mod (s.walk (s.reqOf s.cur).die (s.reqOf s.cur).asid r) r
  have := h.aligned
  omega

/-- A release leaves the strand's way to the counter. -/
theorem State.ReleasedAt.reaches {sc : Scope} (hr : s.ReleasedAt sc t) (h : s.Reaches r pa u) : t.Reaches r pa u := by
  have hhomes := hr.sameHomes
  have hreq : t.reqOf t.cur = s.reqOf s.cur := by rw [hr.cur, State.reqOf, hr.ctx, State.reqOf]
  have hlines : t.lineKey = s.lineKey := by rw [hr.frame]
  have htlb : (t.die (s.reqOf s.cur).die).tlb = (s.die (s.reqOf s.cur).die).tlb := by rw [hr.die]
  refine ⟨h.global, h.aligned, ?_, ?_, fun i hi => ?_, hhomes.noPartials h.partials, ?_⟩
  · rw [hreq]; exact hhomes.translates htlb h.translates
  · unfold Expected.Readable
    rw [hreq, hhomes.walk, hlines, hhomes.keyTag]
    exact h.readable
  · rw [hhomes.poisoned]; exact h.clean i hi
  · rw [hreq, hhomes.access]; exact h.admitted

/-- V of the counter is the word that memory holds. -/
theorem State.Reaches.homeV (h : s.Reaches r pa u) (ht : s.SameHomes t) {key : Nat} {wr : Bool} (hlt : key < 128)
    (hk : t.Keyed pa key wr) : t.homeV pa = BitVec.ofNat 64 (Expected.memValue s pa 8) := by
  rw [homeV_of_clean (fun i hi => by rw [ht.poisoned]; exact h.clean i hi) hlt (hk.symm.imp_left And.right), ht.memValue]

/-- The reference resolves, and the line is the page's after a write. -/
theorem State.Reaches.resolve {σ : At s0} (h : σ.val.Reaches r pa u) :
    ∃ τ, resolveRef (σ.val.reqOf σ.val.cur) u r σ = .ok (.ok (.home pa)) τ ∧ σ.val.Resolves τ.val ∧
      τ.val.Keyed pa (σ.val.refKey r) u.wr :=
  run_resolveRef_home h.global h.aligned h.translates h.readable h.linkUp h.admitted

theorem State.Reaches.mySlot {σ : At s0} {n : Nat} (hslot : (σ.val.slot σ.val.cur n).ref = r) (h : σ.val.Reaches r pa u) :
    ∃ τ, mySlot n u σ = .ok (.ok (.home pa)) τ ∧ σ.val.Resolves τ.val ∧ τ.val.Keyed pa (σ.val.refKey r) u.wr := by
  subst hslot
  obtain ⟨τ, hτ, hres, hkey⟩ := h.resolve
  refine ⟨τ, ?_, hres, hkey⟩
  have hslot : slotCtr σ.val.cur n u σ = .ok (.ok (.home pa)) τ := (run_bind_ok (run_st σ)).trans hτ
  have hup : ¬ (u.rd && !σ.val.linkUp pa) = true := by rw [h.linkUp, Bool.not_true, Bool.and_false]; exact Bool.false_ne_true
  unfold Machine.mySlot
  rw [run_bind_ok (run_st σ)]
  exact (run_bind_ok hslot).trans (congrFun (if_neg hup) τ)

end

/-! ### What counter accesses of a strand keep -/

/-- A step that leaves contexts, and of the device no more than memory, keys of lines, and what releases carry. -/
theorem keeps_goOn {s w : State} (sy : Sync) (r : Regs)
    (hframe : w = { s.performed w with mem := w.mem, bad := w.bad, fadds := w.fadds, lineKey := w.lineKey })
    (hfar : Expected.NothingFar s → w.far = s.far) : Expected.Keeps s (w.goOn sy r) := by
  have hcur : w.cur = s.cur := by rw [hframe]; rfl
  have hkeeps : Expected.Keeps { s with lineKey := w.lineKey } (w.goOn sy r) := by
    refine keeps_of_frame ?_ hfar fun a ha => ?_
    · rw [State.goOn, State.retire, State.retireAs, hframe]; rfl
    · have hne : a ≠ w.cur := by rw [hcur]; exact ha
      rw [State.goOn, State.retire, State.retireAs, ctx_upd_ne _ _ hne, hframe]
      rfl
  exact hkeeps

theorem goOn_regs (w : State) (sy : Sync) (r : Regs) : (w.goOn sy r).regs = { r with pc := nextPc w.regs.pc sy } :=
  retireAs_regs _ _ _

section

variable {s : State} {n : BitVec 8} {sy : Sync} {ref : Word} {pa : Nat}

theorem State.Resolves.sameStrand {s w : State} (h : s.Resolves w) : s.SameStrand w := by
  rw [h.frame]; exact ⟨rfl, rfl, rfl, rfl⟩

/-- CBIND of a counter page's reference. -/
theorem exec_cbind_home {a : XReg} (hq : s.Quiet sy) (hn : n.toNat < (s.ctx s.cur).nslots) (hne : ref ≠ 0)
    (ha : s.regs.getX a = ref) (h : s.Reaches ref pa { rd := true, wr := false }) :
    ∃ w : State, s.Resolves w ∧ exec (.cbind n a sy) s =
      .next (w.goOn sy (Expected.withSlot s.regs n.toNat { ref := ref, mark := 0, gen := s.homeGen pa, loc := false })) := by
  subst ha
  obtain ⟨ρ, hρ, hres, -⟩ := State.Reaches.resolve (σ := (⟨s, .refl⟩ : At s)) h
  obtain ⟨τ, hτ, hw⟩ := holding_setSlot (.refl ρ.val) n.toNat
    { ref := s.regs.getX a, mark := 0, gen := s.homeGen pa, loc := false }
  rw [hres.sameStrand.regs] at hw
  have hlocal : ¬ isLocalRef (s.regs.getX a) = true := by rw [h.global]; exact Bool.false_ne_true
  have hgen : ρ.val.ctrG (.home pa) = s.homeGen pa := hres.homes.homeGen pa
  have hbody : cbindBody n a ⟨s, .refl⟩ = .ok .next τ := by
    unfold cbindBody
    rw [run_bind_ok (run_st _)]
    refine (congrFun ((if_neg hne).trans ((if_neg hlocal).trans (if_neg fun hx => hx h.aligned))) _).trans ?_
    refine (run_bind_ok hρ).trans ((run_bind_ok (run_st ρ)).trans ?_)
    rw [hgen]
    exact run_bind_ok hτ
  have hstep : execCbind n a sy s = _ := counterInstr_next hq hn (run_pure _ _) hbody hres.sameStrand hw rfl
  exact ⟨ρ.val, hres, hstep⟩

/-- CREAD of a counter page. -/
theorem exec_cread_home {d : XReg} (hq : s.Quiet sy) (hn : n.toNat < (s.ctx s.cur).nslots) (hlines : (s.ctx s.cur).lines = [])
    (href : (s.slot s.cur n.toNat).ref = ref) (h : s.Reaches ref pa { rd := true, wr := false }) :
    ∃ w t : State, s.Resolves w ∧ Expected.Timed w t ∧ exec (.cread d n sy) s =
      .next (t.goOn sy (Expected.withSlot (s.regs.setX d (BitVec.ofNat 64 (Expected.memValue s pa 8))) n.toNat
        { s.slot s.cur n.toNat with gen := s.homeGen pa })) := by
  obtain ⟨ρ, hρ, hres, hkeyed⟩ := State.Reaches.mySlot (σ := (⟨s, .refl⟩ : At s)) href h
  have hneed : needSlot n.toNat { rd := true, wr := false } (⟨s, .refl⟩ : At s) = .ok (.home pa) ρ := by
    unfold needSlot
    rw [run_bind_ok hρ]
    rfl
  obtain ⟨_, υ, hread, ht⟩ := goes_readCtr s.cur (.home pa) ρ
  have hsame := hres.sameStrand.trans (sameStrand_of_timed ht)
  have hv : υ.val.ctrV (.home pa) = BitVec.ofNat 64 (Expected.memValue s pa 8) := by
    refine h.homeV (sameHomes_chains.trans hres.homes ht.sameHomes) (refKey_lt s ref) (wr := false) ?_
    rw [ht]
    exact hkeyed
  have hg : υ.val.ctrG (.home pa) = s.homeGen pa := (sameHomes_chains.trans hres.homes ht.sameHomes).homeGen pa
  obtain ⟨τ, hτ, hw⟩ := holding_answer (.refl υ.val) rfl d (BitVec.ofNat 64 (Expected.memValue s pa 8)) n.toNat (s.homeGen pa)
  have hbody : creadBody d n ⟨s, .refl⟩ = .ok .next τ := by
    unfold creadBody
    rw [run_bind_ok (run_me _), run_bind_ok (run_drainStores hlines), run_bind_ok hneed, run_bind_ok hread,
      run_bind_ok (run_st _), hv, hg]
    exact hτ _
  have hslot : υ.val.slot υ.val.cur n.toNat = s.slot s.cur n.toNat := by
    rw [hsame.cur]
    exact slot_congr _ (by rw [hsame.ctx]) (by rw [hsame.ctx]) (by rw [ht, hres.frame]) (by rw [ht, hres.frame])
  rw [hsame.regs, hslot] at hw
  have hstep : execCread d n sy s = _ := counterInstr_next hq hn (run_pure _ _) hbody hsame hw (by simp)
  exact ⟨ρ.val, υ.val, hres, ht, hstep⟩

end

end Sys2Proof.Machine
end

section
/-! CADD on a counter in near memory (R171, R195, R400), and what the accesses of home counters keep. -/

namespace Sys2Proof.Machine

variable {s0 : State}

/-! ### A word of memory -/

theorem natBytes_bytesNat (bs : List Byte) : natBytes bs.length (bytesNat bs) = bs := by
  induction bs with
  | nil => rfl
  | cons b bs ih =>
    have hb := b.isLt
    have hdiv : (b.toNat + 256 * bytesNat bs) / 256 = bytesNat bs := by omega
    have hmod : BitVec.ofNat 8 (b.toNat + 256 * bytesNat bs) = b := by
      refine BitVec.eq_of_toNat_eq ?_
      rw [BitVec.toNat_ofNat]
      omega
    rw [List.length_cons, bytesNat, natBytes, hdiv, hmod, ih]

/-- The bytes of the number that memory holds are those that it holds. -/
theorem byteOf_memValue {s : State} {pa n i : Nat} (h : i < n) :
    Expected.byteOf (Expected.memValue s pa n) i = Memory.read s.mem (pa + i) := by
  have hbytes := natBytes_bytesNat ((List.range n).map fun i => Memory.read s.mem (pa + i))
  rw [List.length_map, List.length_range, natBytes_eq_map, bytesNat_eq_number] at hbytes
  have := congrArg (fun l => l[i]?) hbytes
  simpa [h, Expected.byteOf, Expected.memValue] using this

theorem memValue_lt (s : State) (pa : Nat) : Expected.memValue s pa 8 < 2 ^ 64 := by
  unfold Expected.memValue
  rw [← bytesNat_eq_number]
  refine Nat.lt_of_lt_of_eq (bytesNat_lt _) ?_
  simp

/-- The state differs in the bytes from a physical address on, which it has written. -/
structure State.WritesAt (s : State) (pa : Nat) (bs : List Byte) (t : State) : Prop where
  frame : t = { s with mem := t.mem, bad := t.bad, fadds := t.fadds, engOld := t.engOld }
  mem : ∀ x, Memory.read t.mem x = if pa ≤ x then (bs[x - pa]?).getD (Memory.read s.mem x) else Memory.read s.mem x

/-- Bytes are written one after the other. -/
theorem run_writeBytes (pa : Nat) (bs : List Byte) : ∀ (k : Nat) (σ : At s0),
    ∃ τ, (forIn (bs.zipIdx k) PUnit.unit fun (b, i) _ => do
        upd (.byte (pa + i) b)
        pure (ForInStep.yield PUnit.unit) : M s0 PUnit) σ = .ok ⟨⟩ τ ∧ σ.val.WritesAt (pa + k) bs τ.val := by
  induction bs with
  | nil => exact fun k σ => ⟨σ, rfl, rfl, fun x => by simp⟩
  | cons b bs ih =>
    intro k σ
    obtain ⟨τ, hτ, hw⟩ := ih (k + 1) (σ.upd (.byte (pa + k) b))
    refine ⟨τ, ?_, by rw [hw.frame]; rfl, fun x => ?_⟩
    · rw [List.zipIdx_cons, List.forIn_cons]
      exact hτ
    · rw [hw.mem, At.upd_val, byte_mem, Memory.read_write]
      by_cases hlt : x < pa + k
      · rw [if_neg (by omega), if_neg (by omega), if_neg (by omega)]
      · by_cases heq : x = pa + k
        · rw [if_neg (by omega), if_pos heq, if_pos (by omega), heq, Nat.sub_self]
          rfl
        · rw [if_pos (by omega), if_neg heq, if_pos (by omega), show x - (pa + k) = (x - (pa + (k + 1))) + 1 by omega,
            List.getElem?_cons_succ]

theorem run_writePhys_up {σ : At s0} {pa : Nat} (bs : List Byte) (hup : σ.val.linkUp pa = true) :
    ∃ τ, writePhys pa bs σ = .ok () τ ∧ σ.val.WritesAt pa bs τ.val := by
  obtain ⟨τ, hτ, hw⟩ := run_writeBytes pa bs 0 σ
  refine ⟨τ, ?_, hw⟩
  unfold writePhys
  rw [run_bind_ok (run_st σ)]
  exact (congrFun (if_pos hup) σ).trans (run_bind_ok hτ)

/-- A write of an aligned word of a line that is the key's. -/
theorem run_writeKeyed_own {σ : At s0} {pa key : Nat} {bs : List Byte} (h8 : pa % 8 = 0) (hlen : bs.length = 8)
    (hup : σ.val.linkUp pa = true) (hpart : Expected.NoPartials σ.val pa)
    (hkey : TMap.find σ.val.lineKey (pa / 256) = some (σ.val.keyTag key)) :
    ∃ τ, writeKeyed pa bs key σ = .ok () τ ∧ σ.val.WritesAt pa bs τ.val := by
  obtain ⟨τ, hτ, hw⟩ := run_writePhys_up bs hup
  refine ⟨τ, ?_, hw⟩
  have hown : σ.val.otherKey pa key = false := by
    unfold State.otherKey
    rw [hkey]
    simp
  have hrest : (do
      writePhys pa bs
      if σ.val.linkUp pa && TMap.find σ.val.lineKey (pa / 256) != some (σ.val.keyTag key) then
        upd (.lineKey (pa / 256) (σ.val.keyTag key)) : M s0 Unit) σ = .ok () τ := by
    rw [run_bind_ok hτ, hkey, bne_self_eq_false, Bool.and_false]
    rfl
  unfold writeKeyed
  rw [run_bind_ok (run_st σ), hown, Bool.and_false, hlen]
  simp only [Bool.false_eq_true, if_false]
  by_cases hf : σ.val.fadds.isEmpty = true
  · rw [hf]
    exact hrest
  · rw [Bool.eq_false_iff.2 hf]
    exact (run_bind_ok (run_settleFadds_none h8 hpart)).trans hrest

/-! ### V of a counter page -/

/-- The state differs in the word at a physical address, which has a value. -/
structure State.WordSet (s : State) (pa v : Nat) (t : State) : Prop where
  frame : t = { s with mem := t.mem, bad := t.bad, fadds := t.fadds, engOld := t.engOld }
  mem : ∀ x, Memory.read t.mem x =
    if pa ≤ x ∧ x < pa + 8 then Expected.byteOf v (x - pa) else Memory.read s.mem x

theorem State.WritesAt.wordSet {s t : State} {pa v : Nat} (h : s.WritesAt pa (natBytes 8 v) t) : s.WordSet pa v t := by
  refine ⟨h.frame, fun x => ?_⟩
  rw [h.mem, natBytes_eq_map]
  by_cases hle : pa ≤ x
  · rw [if_pos hle]
    by_cases hlt : x < pa + 8
    · have hi : x - pa < 8 := by omega
      rw [if_pos ⟨hle, hlt⟩]
      simp [hi, Expected.byteOf]
    · have hi : ¬ x - pa < 8 := by omega
      rw [if_neg (fun hx => hlt hx.2)]
      simp [hi]
  · rw [if_neg hle, if_neg (fun hx => hle hx.1)]

/-- A word that has the value already. -/
theorem wordSet_memValue (s : State) (pa : Nat) : s.WordSet pa (Expected.memValue s pa 8) s := by
  refine ⟨rfl, fun x => ?_⟩
  split
  · next hx =>
    rw [byteOf_memValue (by omega), show pa + (x - pa) = x by omega]
  · rfl

/-- V of a counter page of a line that is the page's takes a value, where it has another. -/
theorem run_setV_home {σ : At s0} {pa key : Nat} {v : Word} (h8 : pa % 8 = 0) (hup : σ.val.linkUp pa = true)
    (hpart : Expected.NoPartials σ.val pa) (hkey : TMap.find σ.val.lineKey (pa / 256) = some (σ.val.keyTag key))
    (hlt : key < 128) :
    ∃ τ, (if v != BitVec.ofNat 64 (Expected.memValue σ.val pa 8) then setCtrV (.home pa) v else pure () : M s0 Unit) σ =
        .ok () τ ∧ σ.val.WordSet pa v.toNat τ.val := by
  by_cases h : v = BitVec.ofNat 64 (Expected.memValue σ.val pa 8)
  · have hv : v.toNat = Expected.memValue σ.val pa 8 := by
      rw [h, BitVec.toNat_ofNat, Nat.mod_eq_of_lt (memValue_lt _ _)]
    exact ⟨σ, congrFun (if_neg (by simpa using h)) σ, by rw [hv]; exact wordSet_memValue _ _⟩
  · have htag : σ.val.keyTag key % 128 = key := by unfold State.keyTag; omega
    obtain ⟨τ, hτ, hw⟩ := run_writeKeyed_own (bs := natBytes 8 v.toNat) h8 (by rw [natBytes_eq_map]; simp) hup hpart hkey
    refine ⟨τ, (congrFun (if_pos (by simpa using h)) σ).trans ?_, hw.wordSet⟩
    unfold setCtrV
    dsimp only
    rw [run_bind_ok (run_st σ), hkey]
    dsimp only
    rw [htag]
    exact hτ

/-! ### CADD on a counter page -/

/-- Between two states an add to a counter page of the strand has been made: memory has the sum, and the rest is what a release
carries, what lookups leave, and logical times. -/
structure State.AddsHome (s : State) (pa v : Nat) (t : State) : Prop where
  frame : t = { s with
    mem := t.mem, bad := t.bad, fadds := t.fadds, engOld := t.engOld, lineKey := t.lineKey, dies := t.dies
    times := t.times, joins := t.joins, oracle := t.oracle }
  mem : ∀ x, Memory.read t.mem x =
    if pa ≤ x ∧ x < pa + 8 then Expected.byteOf v (x - pa) else Memory.read s.mem x

/-- The sum of a word of memory that stays below 2^64. -/
theorem satAdd_memValue {s : State} {pa n : Nat} (hfit : Expected.memValue s pa 8 + n < 2 ^ 64) :
    ∃ y : Word, satAdd (BitVec.ofNat 64 (Expected.memValue s pa 8)) n = (y, false) ∧
      y.toNat = Expected.memValue s pa 8 + n := by
  have hold : (BitVec.ofNat 64 (Expected.memValue s pa 8)).toNat = Expected.memValue s pa 8 := by
    rw [BitVec.toNat_ofNat, Nat.mod_eq_of_lt (memValue_lt _ _)]
  refine ⟨_, satAdd_of_fits (by rw [hold]; exact hfit), ?_⟩
  rw [BitVec.toNat_add, hold, BitVec.toNat_ofNat]
  omega

/-- An add of a strand of no gang to a counter page that it reaches, on which nothing waits, once the reference is resolved. -/
theorem run_addAt_home {s : State} {σ : At s0} {r ref : Word} {pa n : Nat} {u : CtrUse} {w : Adder}
    (hreach : s.Reaches r pa u) (hres : s.Resolves σ.val)
    (hkey : TMap.find σ.val.lineKey (pa / 256) = some (σ.val.keyTag (s.refKey r))) (hgang : w.gang = none)
    (hfit : Expected.memValue s pa 8 + n < 2 ^ 64) (hun : Expected.Unwatched s (.home pa)) :
    ∃ τ, addAt (.home pa) n none ref w σ =
        .ok { old := BitVec.ofNat 64 (Expected.memValue s pa 8), gen := s.homeGen pa, overflow := false, stale := false } τ ∧
      s.AddsHome pa (Expected.memValue s pa 8 + n) τ.val := by
  have hv : σ.val.ctrV (.home pa) = BitVec.ofNat 64 (Expected.memValue s pa 8) :=
    hreach.homeV hres.homes (refKey_lt s r) (wr := true) (.inl hkey)
  have hg : σ.val.ctrG (.home pa) = s.homeGen pa := hres.homes.homeGen pa
  obtain ⟨y, hsum, htotal⟩ := satAdd_memValue hfit
  rw [← hv] at hsum
  obtain ⟨_, ρ, hρ, ht⟩ := goes_stampCtr (w.ctx.filter fun a => a == w.agent) (.home pa) σ
  have hhomes := sameHomes_chains.trans hres.homes ht.sameHomes
  obtain ⟨υ, hυ, hw⟩ := run_setV_home (σ := ρ) (v := y) hreach.word
    (by rw [hhomes.linkUp]; exact hreach.linkUp) (hhomes.noPartials hreach.partials) (by rw [ht]; exact hkey) (refKey_lt s r)
  rw [hhomes.memValue, ← hv] at hυ
  have hun' : Expected.Unwatched υ.val (.home pa) := by rw [hw.frame, ht, hres.frame]; exact hun
  obtain ⟨τ, hτ, ht'⟩ := run_addAt_made (ref := ref) hgang (run_addRaw_unwatched hsum hρ hυ hun') rfl rfl
  rw [hv, hg] at hτ
  refine ⟨τ, hτ, by rw [ht', hw.frame, ht, hres.frame], fun x => ?_⟩
  rw [ht', hw.mem, htotal, hhomes.mem]

section

variable {s : State} {d a : XReg} {n : BitVec 8} {v ref : Word} {sy : Sync} {pa : Nat}

/-- What a release leaves of far memory where nothing is on its way there. -/
theorem State.ReleasedAt.far {t : State} {sc : Scope} (h : s.ReleasedAt sc t) (hfar : Expected.NothingFar s) : t.far = s.far := by
  obtain ⟨⟨-, -, -, hidle⟩, -⟩ := h.carried
  have := congrArg (fun x : State => x.far) (hidle hfar.2)
  exact this

/-- The step of CADD on a counter page. -/
theorem exec_cadd_home (hq : s.Quiet sy) (hn : n.toNat < (s.ctx s.cur).nslots) (hset : Expected.Settled s)
    (href : (s.slot s.cur n.toNat).ref = ref) (h : s.Reaches ref pa { rd := decide (d ≠ 0), wr := true })
    (hsmall : (s.regs.getX a + v).toNat < 2 ^ 48)
    (hfit : Expected.memValue s pa 8 + (s.regs.getX a + v).toNat < 2 ^ 64) (hun : Expected.Unwatched s (.home pa)) :
    ∃ u w : State, s.ReleasedAt sy.scope u ∧
      ({ u with ctxs := s.ctxs } : State).AddsHome pa (Expected.memValue s pa 8 + (s.regs.getX a + v).toNat) w ∧
      exec (.cadd d n a v sy) s =
        .next (w.goOn sy (s.caddRegs d n.toNat (BitVec.ofNat 64 (Expected.memValue s pa 8)) (s.homeGen pa))) := by
  obtain ⟨hlines, hfar, hgang⟩ := hset
  obtain ⟨τ, hrel, hτ⟩ := run_release_at (σ := (⟨s, .refl⟩ : At s)) sy.scope hlines hfar
  have hreach := hτ.reaches h
  obtain ⟨υ, hslot, hres, hkeyed⟩ := State.Reaches.mySlot (σ := τ) (n := n.toNat)
    (by rw [hτ.cur]; exact (congrArg Slot.ref (hτ.slot n.toNat)).trans href) hreach
  have hkey := hkeyed.resolve_right fun hx => Bool.noConfusion hx.1
  have hnogang := adder_gang_none hgang (decide (d ≠ 0))
  have hold : Expected.memValue τ.val pa 8 = Expected.memValue s pa 8 := hτ.sameHomes.memValue pa 8
  have hgen : τ.val.homeGen pa = s.homeGen pa := hτ.sameHomes.homeGen pa
  obtain ⟨ρ, hadd, hadds⟩ := run_addAt_home (ref := (s.slot s.cur n.toNat).ref) (n := (s.regs.getX a + v).toNat)
    hreach hres hkey hnogang (by rw [hold]; exact hfit) (hτ.unwatched hun)
  rw [hold, hgen] at hadd
  rw [hold] at hadds
  have hframe := hadds.frame
  obtain ⟨hsame, hheld⟩ := hτ.relisted (r := ρ.val) (by rw [hframe]) (by rw [hframe]) (by rw [hframe]) (by rw [hframe])
  have hnode : ρ.val.node = s.node := by rw [hframe, hτ.frame]
  have hw : ({ τ.val with ctxs := s.ctxs } : State).AddsHome pa
      (Expected.memValue s pa 8 + (s.regs.getX a + v).toNat) { ρ.val with ctxs := s.ctxs } := by
    refine ⟨?_, hadds.mem⟩
    have := congrArg (fun x : State => { x with ctxs := s.ctxs }) hframe
    exact this
  rw [← hsame.regs] at hheld
  obtain ⟨σ, hσ, hans⟩ := holding_caddAnswer hheld d n.toNat
    (s.slot s.cur n.toNat).ref
    { old := BitVec.ofNat 64 (Expected.memValue s pa 8), gen := s.homeGen pa, overflow := false, stale := false }
  rw [caddRegs_congr hsame hnode] at hans
  have hbody := (run_caddBody_made hsmall hrel hslot hadd).trans hσ
  rw [Bool.and_false, if_neg Bool.false_ne_true] at hbody
  have hstep : execCadd d n a v sy s = _ :=
    counterInstr_next hq hn (run_pure _ _) hbody hsame hans (by unfold State.caddRegs; split <;> simp)
  exact ⟨τ.val, _, hτ, hw, hstep⟩

end

/-! ### The statement -/

/-- What the premises of the statement give the strand. -/
theorem reaches_of_maps {s : State} {ref : Word} {pa : Nat} {u : CtrUse} (hl : isLocalRef ref = false)
    (h8 : ref.toNat % 8 = 0) (hmaps : Expected.Maps s (.counter true true) ref pa) (hclean : Expected.Clean s pa 8)
    (hadm : admits (s.access (paDie pa) 1 (s.reqOf s.cur).master) u.rd u.wr (s.reqOf s.cur).byUser s.regs.asid = true) :
    s.Reaches ref pa u := by
  obtain ⟨-, -, htrans, -, hread, -⟩ := hmaps
  obtain ⟨hpoison, hrest⟩ := hclean
  exact ⟨hl, h8, translates_counter u.rd u.wr htrans, hread, hpoison, (hrest 0 (by decide)).1, hadm⟩

/-- Settles O22: each form by the step that it takes once its reference is resolved at the home. -/
theorem homeCounterResult : Obligations.HomeCounterResult := by
  unfold Obligations.HomeCounterResult
  intro n d a v ref sy s pa hq hn hl h8 hmaps hclean adm sl old amount
  refine ⟨fun hne ha hadm => ?_, fun href hadm hlines => ?_, fun href hadm hset hsmall hfit hun => ?_⟩
  · have hreach : s.Reaches ref pa { rd := true, wr := false } := reaches_of_maps hl h8 hmaps hclean hadm
    obtain ⟨w, hres, hstep⟩ := exec_cbind_home hq hn hne ha hreach
    refine ⟨_, hstep, keeps_goOn sy _ (by rw [hres.frame]; rfl) fun _ => by rw [hres.frame], hres.homes.mem, ?_⟩
    rw [goOn_regs, hres.sameStrand.regs]
  · have hreach : s.Reaches ref pa { rd := true, wr := false } := reaches_of_maps hl h8 hmaps hclean hadm
    obtain ⟨w, t, hres, ht, hstep⟩ := exec_cread_home hq hn hlines href hreach
    refine ⟨_, hstep, keeps_goOn sy _ (by rw [ht, hres.frame]; rfl) fun _ => by rw [ht, hres.frame],
      ht.sameHomes.mem.trans hres.homes.mem, ?_⟩
    rw [goOn_regs, (sameStrand_of_timed ht).regs, hres.sameStrand.regs]
  · have hreach : s.Reaches ref pa { rd := decide (d ≠ 0), wr := true } := reaches_of_maps hl h8 hmaps hclean hadm
    obtain ⟨u, w, hrel, hadds, hstep⟩ := exec_cadd_home hq hn hset href hreach hsmall hfit hun
    have hregs : w.regs = s.regs := by
      have hcur : w.cur = s.cur := by rw [hadds.frame]; exact hrel.cur
      rw [State.regs, hcur, hadds.frame]
      rfl
    refine ⟨_, hstep, keeps_goOn sy _ (by rw [hadds.frame, hrel.frame]; rfl) fun hfar => ?_, fun x => ?_, ?_⟩
    · rw [hadds.frame]
      exact hrel.far hfar
    · exact (hadds.mem x).trans (by rw [show ({ u with ctxs := s.ctxs } : State).mem = s.mem from hrel.sameHomes.mem])
    · rw [goOn_regs, hregs]
      unfold State.caddRegs
      split <;> rfl

end Sys2Proof.Machine
end

section
/-! A slot that is mapped without a descriptor (R212, R216): its thread reads the queue from physical address 0, and nothing in the
premises of a packet's retirement keeps the retirement's counters out of that queue. -/

namespace Sys2Proof.Machine

/-! ### The state -/

/-- Words of memory by address. At 0 a queue of one place: BASE 0x100, WRIDX 0, CONSUMED on the word of WRIDX itself, RETIRE at
0x40. At 0x100 an ARM packet, and at 0x200 its template, whose DONE is cell 1 of core 0. From 0x10000 on the tables of address
space 0, whose one page maps the first 512 MiB of the module behind memory link 0 as counters. -/
def queueAtZeroWords : List (Nat × Nat) :=
  [(0x0, 0x100), (0x10, 0x8), (0x30, 0x40), (0x100, 0x5), (0x110, 0x200), (0x120, 0x08010000), (0x228, 0x00C1000000000001),
    (0x10000, 0x8000000000010200), (0x10200, 0x8000000000000002), (0x20000, 0x8802000000000000)]

/-- A thread that stands before the packet of place 0. -/
def idleAtZero : Thread := { Thread.reset with mapped := true, limit := 1 }

/-- A watch that is satisfied: cell 0 of core 0 has reached 0. -/
def doneWatch : Watch := { slot := 0, ctr := .cell 0 0, mark := 0, listed := true, seq := 0 }

/-- Slots 0 and 1 of die 0 are mapped without a descriptor: the thread of slot 0 waits for what it has, that of slot 1 stands
before the packet. It is irreducible so that only the kernel computes with it. -/
@[irreducible] def queueAtZero : State :=
  { State.reset with
    mem := queueAtZeroWords.foldl (fun m p => putBytes m p.1 8 p.2) []
    dies := [(0, { Die.reset with
      rootbase := 0x10000
      links := [(0, { Link.reset with up := true, capacity := 1 })]
      access := [(1968, 0xF00000000000FFFF), (4016, 0xF00000000000FFFF)] })]
    threads := [(0, { idleAtZero with st := .waits false doneWatch none .open_ }), (1, idleAtZero)] }

/-- The words of the packet at 0x100, and of its template at 0x200. -/
def armAtZero : List Word := [5, 0, 0x200, 0, 0x08010000, 0, 0, 0]
def templateAtZero : List Word := [0, 0, 0, 0, 0, 0x00C1000000000001, 0, 0]

/-! ### Its counters -/

theorem walkWord_of_bytes {s : State} {m : Memory} {p : Nat} (h : ∀ i < 8, Memory.read m (p + i) = Memory.read s.mem (p + i)) :
    ({ s with mem := m } : State).walkWord p = s.walkWord p := by
  have hbytes : ({ s with mem := m } : State).physBytes p 8 = s.physBytes p 8 :=
    List.map_congr_left fun i hi => congrArg (fun b => if s.poisoned (p + i) then 0 else b) (h i (List.mem_range.1 hi))
  exact congrArg (fun bs => if s.inModule p then bytesWord bs else 0) hbytes

/-- The walk that ends with a 512 MiB leaf reads three words. -/
theorem walk_big {s : State} {die rootbase : Nat} {asid : BitVec 16} {va root table leaf : Word}
    (hbase : (s.die die).rootbase.toNat = rootbase)
    (hroot : s.walkWord (rootbase % 2 ^ 46 + 8 * asid.toNat) = root) (hrootOk : rootOk root = true)
    (htable : s.walkWord (field root 9 37 * 512 + 8 * field va 42 6) = table) (htableOk : tableOk table = true)
    (hleaf : s.walkWord (leafFrame table * 2 ^ 16 + 8 * field va 29 13) = leaf) (hbig : leafLeaf leaf = true)
    (hleafOk : leafOk leaf true = true) : s.walk die asid va = { leaf := leaf, big := true } := by
  unfold State.walk
  simp only [hbase, hroot, hrootOk, htable, htableOk, hleaf, hbig, hleafOk, Bool.not_true, Bool.false_eq_true, if_false,
    if_true]

/-- Memory that leaves the walk to a 512 MiB page leaves its translation. -/
theorem translates_of_walk {s : State} {m : Memory} {q : Req} {k : Kind} {va : Word} {pa : Nat}
    (hwalk : ({ s with mem := m } : State).walk q.die q.asid va = s.walk q.die q.asid va)
    (hbig : (s.walk q.die q.asid va).big = true) (h : Expected.Translates s q k va pa) :
    Expected.Translates { s with mem := m } q k va pa := by
  obtain ⟨hcanon, hnode, -, hcached, hcheck, hconfig, hpoison⟩ := h
  unfold Expected.Translates
  rw [hwalk]
  exact ⟨hcanon, hnode, if_pos hbig, hcached, hcheck, hconfig, hpoison⟩

/-- Whatever memory holds below the tables, the page maps the addresses of its region. -/
theorem queueAtZero_walk {m : Memory} (hm : ∀ a, 0x10000 ≤ a → Memory.read m a = Memory.read queueAtZero.mem a) {va : Word}
    (hva : va.toNat < 2 ^ 29) :
    ({ queueAtZero with mem := m } : State).walk 0 0 va = { leaf := 0x8802000000000000, big := true } := by
  have hword {p : Nat} {w : Word} (hp : 0x10000 ≤ p) (hw : queueAtZero.walkWord p = w) :
      ({ queueAtZero with mem := m } : State).walkWord p = w :=
    (walkWord_of_bytes fun i _ => hm _ (by omega)).trans hw
  have h42 : field va 42 6 = 0 := by unfold field; omega
  have h29 : field va 29 13 = 0 := by unfold field; omega
  refine walk_big (rootbase := 0x10000) (root := 0x8000000000010200) (table := 0x8000000000000002)
    (show (queueAtZero.die 0).rootbase.toNat = 0x10000 by decide +kernel) (hword (by decide) (by decide +kernel)) (by decide)
    (hword ?_ ?_) (by decide) (hword ?_ ?_) (by decide) (by decide)
  · rw [h42]; decide
  · rw [h42]; decide +kernel
  · rw [h29]; decide
  · rw [h29]; decide +kernel

/-- Of the counters, a thread waits for cell 0 of core 0 alone. -/
theorem queueAtZero_unwatched {c : Ctr} (h : doneWatch.ctr ≠ c) : Expected.Unwatched queueAtZero c := by
  have hctxs : queueAtZero.ctxs = [] := by decide +kernel
  have hthreads : queueAtZero.threads = [(0, { idleAtZero with st := .waits false doneWatch none .open_ }), (1, idleAtZero)] := by
    decide +kernel
  refine ⟨fun p hp => ?_, fun p hp f w d b hst => ?_⟩
  · rw [hctxs] at hp
    cases hp
  · rw [hthreads] at hp
    rcases List.mem_pair.1 hp with rfl | rfl
    · cases hst
      exact h
    · cases hst

/-- RETIRE's word and the word of WRIDX are counters of a sequencer, whatever another word below the tables holds. -/
theorem queueAtZero_homeRef {ref : Word} {pa other : Nat} (hother : other + 8 ≤ 0x10000)
    (h : ref = 8 ∧ pa = 8 ∨ ref = 0x40 ∧ pa = 0x40) : Expected.HomeRef queueAtZero (seqReq 0 0) ref pa other := by
  have hself {va : Word} (hva : va.toNat < 2 ^ 29) : queueAtZero.walk 0 0 va = { leaf := 0x8802000000000000, big := true } :=
    queueAtZero_walk (m := queueAtZero.mem) (fun _ _ => rfl) hva
  have hsmall : ref.toNat < 2 ^ 29 := by rcases h with ⟨rfl, -⟩ | ⟨rfl, -⟩ <;> decide
  have htranslates : Expected.Translates queueAtZero (seqReq 0 0) (.counter false true) ref pa := by
    unfold Expected.Translates
    rcases h with ⟨rfl, rfl⟩ | ⟨rfl, rfl⟩ <;> decide +kernel
  have hclean : Expected.Clean queueAtZero pa 8 := by
    unfold Expected.Clean Expected.NoPartials
    rcases h with ⟨-, rfl⟩ | ⟨-, rfl⟩ <;> decide +kernel
  have hline : TMap.find queueAtZero.lineKey (pa / 256) = none := by rcases h with ⟨-, rfl⟩ | ⟨-, rfl⟩ <;> decide +kernel
  have hkey : Expected.KeyStands queueAtZero pa := fun w hw => by rw [hline] at hw; cases hw
  have hunwatched : Expected.Unwatched queueAtZero (.home pa) := queueAtZero_unwatched (by simp [doneWatch])
  refine ⟨?_, ?_, ?_, hclean, ?_, hunwatched, hkey, fun m hm => translates_of_walk ?_ (congrArg TlbEntry.big (hself hsmall))
    htranslates⟩
  case refine_5 => exact (queueAtZero_walk (fun a ha => hm a (by omega)) hsmall).trans (hself hsmall).symm
  all_goals rcases h with ⟨rfl, rfl⟩ | ⟨rfl, rfl⟩ <;> decide +kernel

theorem queueAtZero_queueOf {slot : Nat} (h : slot = 0 ∨ slot = 1) :
    queueAtZero.queueOf 0 slot =
      { base := 0x100, wridx := 0, consumed := 0x8, asid := 0, log2n := 0, err := 0, shares := 0, retire := 0x40 } := by
  rcases h with rfl | rfl <;> decide +kernel

theorem queueAtZero_waiting :
    queueAtZero.thread 0 0 = { idleAtZero with st := .waits false doneWatch none .open_ } := by decide +kernel

theorem queueAtZero_idle : queueAtZero.thread 0 1 = idleAtZero := by decide +kernel

/-- The premises of a retirement hold of both threads: they ask only of a thread with a descriptor that its queue lie apart from
the counters. -/
theorem queueAtZero_retires {slot : Nat} (h : slot = 0 ∨ slot = 1) : Expected.Retires queueAtZero 0 slot 0x40 0x8 := by
  obtain ⟨hnext, hunmap, hdesc⟩ : (queueAtZero.thread 0 slot).next = 0 ∧ (queueAtZero.thread 0 slot).unmap = false ∧
      (queueAtZero.thread 0 slot).desc = none := by
    rcases h with rfl | rfl
    · rw [queueAtZero_waiting]; exact ⟨rfl, rfl, rfl⟩
    · rw [queueAtZero_idle]; exact ⟨rfl, rfl, rfl⟩
  unfold Expected.Retires
  dsimp only
  rw [queueAtZero_queueOf h, hnext, hdesc]
  exact ⟨queueAtZero_homeRef (by decide) (.inr ⟨rfl, rfl⟩), queueAtZero_homeRef (by decide) (.inl ⟨rfl, rfl⟩), by decide, hunmap,
    fun d hd => nomatch hd⟩

/-! ### The retirements -/

/-- A packet that has retired as the statements say leaves its thread with WRIDX as it was before. -/
theorem Expected.Retired.limit {s t : State} {die slot pr pc : Nat} (h : Expected.Retired s t die slot pr pc) :
    (t.thread die slot).limit = (s.queueOf die slot).wridx := by
  obtain ⟨-, hthread⟩ := h
  rw [hthread]

/-- WRIDX as a thread of die 0 holds it after an event. -/
def limitAfter (i : Instr) (slot : Nat) : Option Word :=
  match exec i queueAtZero with
  | .next t => some (t.thread 0 slot).limit
  | _ => none

/-- The wait ends: the add to CONSUMED makes WRIDX 1, which the thread reads then. -/
theorem waitcWake_limit : limitAfter (.waitcWake 0 0) 0 = some 1 := by decide +kernel

/-- So does the packet. -/
theorem armPacket_limit : limitAfter (.armPacket 0 1) 1 = some 1 := by decide +kernel

theorem not_retired_of_limitAfter {i : Instr} {slot : Nat} {t : State} (hslot : slot = 0 ∨ slot = 1)
    (h : limitAfter i slot = some 1) (ht : exec i queueAtZero = .next t) : ¬ Expected.Retired queueAtZero t 0 slot 0x40 0x8 := by
  intro hretired
  have hlimit := hretired.limit
  rw [queueAtZero_queueOf hslot] at hlimit
  unfold limitAfter at h
  rw [ht] at h
  have hone : (t.thread 0 slot).limit = 1 := Option.some.inj h
  exact absurd (hone.symm.trans hlimit) (by decide : (1 : Word) ≠ 0)

theorem queueAtZero_reads {va : Word} {ws : List Word} (h : va = 0x100 ∧ ws = armAtZero ∨ va = 0x200 ∧ ws = templateAtZero) :
    Expected.Reads queueAtZero (seqReq 0 0) (2 ^ 32) va ws := by
  refine ⟨va.toNat, ?_⟩
  unfold Expected.Translates Expected.Readable Expected.Clean Expected.NoPartials
  rcases h with ⟨rfl, rfl⟩ | ⟨rfl, rfl⟩ <;> decide +kernel

theorem queueAtZero_packet : Expected.Packet queueAtZero 0 1 armAtZero := by
  unfold Expected.Packet
  rw [queueAtZero_queueOf (.inr rfl), queueAtZero_idle]
  exact ⟨by decide, by decide, rfl, rfl, by decide, rfl, queueAtZero_reads (.inl ⟨rfl, rfl⟩)⟩

/-- Cell 1 of core 0, on which nothing waits. -/
theorem queueAtZero_cellRef : Expected.CellRef queueAtZero (templateAtZero.getD 5 0) 0 1 :=
  ⟨by decide, by decide +kernel, queueAtZero_unwatched (by decide)⟩

/-! ### The refutations -/

/-- Refutes O48, by the wake of a WAITC packet in `queueAtZero`: the slot is mapped without a descriptor, which no map leaves and no
premise excludes, so that CONSUMED may lie on the word of WRIDX. The packet's retirement adds 1 there, and the thread then reads
WRIDX as 1, where the statement has it read 0. -/
theorem not_queueEvents : ¬ Obligations.QueueEvents := by
  unfold Obligations.QueueEvents
  intro h
  obtain ⟨-, hdies⟩ := h queueAtZero 0 (by decide)
  obtain ⟨-, hwake⟩ := hdies 0 (by decide)
  obtain ⟨t, ht, hretired, -⟩ := hwake false doneWatch none (congrArg Thread.st queueAtZero_waiting) (by decide +kernel)
    0x40 0x8 (queueAtZero_retires (.inl rfl))
  exact not_retired_of_limitAfter (.inl rfl) waitcWake_limit ht hretired

/-- Refutes O49, by an ARM packet in `queueAtZero`: its retirement, like that of the wake above, adds 1 to the word of WRIDX, and
the statement has the thread read WRIDX as it was. -/
theorem not_launchEvents : ¬ Obligations.LaunchEvents := by
  unfold Obligations.LaunchEvents
  intro h
  obtain ⟨-, -, -, -, harm, -⟩ := h queueAtZero 0 1
  have hreads : Expected.Reads queueAtZero (seqReq 0 (queueAtZero.queueOf 0 1).asid) (2 ^ 32 + 0) 0x200 templateAtZero := by
    rw [queueAtZero_queueOf (.inr rfl)]
    exact queueAtZero_reads (.inr ⟨rfl, rfl⟩)
  obtain ⟨t, ht, hretired, -⟩ := harm armAtZero templateAtZero 0 1 0x40 0x8 queueAtZero_packet (by decide) (by decide)
    (by decide +kernel) (by decide) (by decide) rfl hreads queueAtZero_cellRef (queueAtZero_retires (.inr rfl))
  exact not_retired_of_limitAfter (.inr rfl) armPacket_limit ht hretired

end Sys2Proof.Machine
end

section
/-! The plane store as writes of a cluster leave it (R236, R355), and VTAG (R238, R488). -/

namespace Sys2Proof.Machine

variable {s0 : State}

/-! ### Writes of the plane store -/

theorem planeByte_plane (s : State) (k : Nat) (b : Byte) :
    ((Upd.planeByte k b).apply s).plane = Memory.write s.plane k b := rfl

theorem planeByte_planeBad (s : State) (k : Nat) (b : Byte) :
    ((Upd.planeByte k b).apply s).planeBad = NatSet.drop s.planeBad k := rfl

/-- The state differs in the plane bytes from a key on, which it has written, each free of poison then. -/
structure State.PlaneAt (s : State) (k : Nat) (bs : List Byte) (t : State) : Prop where
  frame : t = { s with plane := t.plane, planeBad := t.planeBad }
  byte : ∀ i b, bs[i]? = some b → Memory.read t.plane (k + i) = b
  kept : ∀ x, ¬ (k ≤ x ∧ x < k + bs.length) → Memory.read t.plane x = Memory.read s.plane x
  bad : ∀ x, NatSet.has t.planeBad x = true ↔ NatSet.has s.planeBad x = true ∧ ¬ (k ≤ x ∧ x < k + bs.length)

theorem State.PlaneAt.nil (s : State) (k : Nat) : s.PlaneAt k [] s :=
  ⟨rfl, fun i b h => by simp at h, fun _ _ => rfl, fun x => by simp⟩

/-- One byte, and then those behind it. -/
theorem State.PlaneAt.cons {s t : State} {k : Nat} {b : Byte} {bs : List Byte}
    (h : ((Upd.planeByte k b).apply s).PlaneAt (k + 1) bs t) : s.PlaneAt k (b :: bs) t where
  frame := by rw [h.frame]; rfl
  byte := by
    intro i c hc
    cases i with
    | zero =>
      rw [Nat.add_zero, h.kept k (by omega), planeByte_plane, Memory.read_write_same]
      simpa using hc
    | succ i =>
      rw [show k + (i + 1) = k + 1 + i by omega]
      exact h.byte i c (by simpa using hc)
  kept := by
    intro x hx
    rw [List.length_cons] at hx
    rw [h.kept x (by omega), planeByte_plane, Memory.read_write_ne _ _ (by omega)]
  bad := by
    intro x
    rw [h.bad, planeByte_planeBad, NatSet.has_drop, List.length_cons, Bool.and_eq_true, bne_iff_ne]
    constructor
    · rintro ⟨⟨hbad, hne⟩, hout⟩
      exact ⟨hbad, by omega⟩
    · rintro ⟨hbad, hout⟩
      exact ⟨⟨hbad, by omega⟩, by omega⟩

theorem run_writePlane (cl off : Nat) (bs : List Byte) (σ : At s0) :
    ∃ τ, writePlane cl off bs σ = .ok () τ ∧ σ.val.PlaneAt (planeKey cl off) bs τ.val := by
  have hloop : ∀ (k : Nat) (σ : At s0), ∃ τ, (forIn (bs.zipIdx k) PUnit.unit fun (b, i) _ => do
        upd (.planeByte (planeKey cl (off + i)) b)
        pure (ForInStep.yield PUnit.unit) : M s0 PUnit) σ = .ok ⟨⟩ τ ∧
      σ.val.PlaneAt (planeKey cl (off + k)) bs τ.val := by
    induction bs with
    | nil => exact fun k σ => ⟨σ, rfl, .nil _ _⟩
    | cons b bs ih =>
      intro k σ
      obtain ⟨τ, hτ, h⟩ := ih (k + 1) (σ.upd (.planeByte (planeKey cl (off + k)) b))
      have hkey : planeKey cl (off + (k + 1)) = planeKey cl (off + k) + 1 := by unfold planeKey; omega
      rw [hkey] at h
      refine ⟨τ, ?_, .cons h⟩
      rw [List.zipIdx_cons, List.forIn_cons]
      exact hτ
  obtain ⟨τ, hτ, h⟩ := hloop 0 σ
  rw [Nat.add_zero] at h
  unfold writePlane
  exact ⟨τ, run_bind_ok hτ, h⟩

/-! ### VTAG -/

/-- The tag byte of a row: valid with the lane's tag where the lane takes part (R238). -/
theorem tagByte_eq (r : Regs) (m : KReg) (a : VReg) (i : Nat) :
    tagByte r.lanes (r.getK m) (r.getV a) i =
      if i ∈ Expected.live r m then BitVec.ofNat 8 (0x80 + Expected.el r a .u32 i % 4) else 0 := by
  have hlive : laneActive r.lanes (r.getK m) i = true ↔ i ∈ Expected.live r m := by
    rw [laneActive, Bool.and_eq_true, Expected.live, List.mem_filter, List.mem_range]
    exact and_congr decide_eq_true_iff Iff.rfl
  unfold tagByte
  exact if_congr hlive rfl rfl

theorem run_vtagBody_misaligned {m : KReg} {a : VReg} {b : XReg} {σ : At s0} (h : (σ.val.regs.getX b).toNat % 64 ≠ 0) :
    vtagBody m a b σ = .error (.trap .align (σ.val.regs.getX b) false false) σ := by
  unfold vtagBody
  rw [run_bind_ok (run_myCtx σ), run_bind_ok (run_myCore σ)]
  exact congrFun (if_pos h) σ

theorem run_vtagBody_past {m : KReg} {a : VReg} {b : XReg} {σ : At s0} (h : (σ.val.regs.getX b).toNat % 64 = 0)
    (hpast : 0x3FFFC0 < (σ.val.regs.getX b).toNat) :
    vtagBody m a b σ = .error (.trap .lsprot (σ.val.regs.getX b) false false) σ := by
  unfold vtagBody
  rw [run_bind_ok (run_myCtx σ), run_bind_ok (run_myCore σ)]
  exact (congrFun (if_neg (not_not.2 h)) σ).trans (congrFun (if_pos hpast) σ)

/-- The 64 tag bytes of a strand's lanes. -/
def Regs.tags (r : Regs) (m : KReg) (a : VReg) : List Byte :=
  (List.range 64).map fun i => tagByte r.lanes (r.getK m) (r.getV a) i

theorem run_vtagBody {m : KReg} {a : VReg} {b : XReg} {σ : At s0} (h : (σ.val.regs.getX b).toNat % 64 = 0)
    (hin : (σ.val.regs.getX b).toNat ≤ 0x3FFFC0) :
    ∃ τ, vtagBody m a b σ = .ok .next τ ∧
      σ.val.PlaneAt (planeKey (clusterOfCore (coreOf σ.val.cur)) (σ.val.regs.getX b).toNat) (σ.val.regs.tags m a) τ.val := by
  obtain ⟨τ, hτ, hw⟩ :=
    run_writePlane (clusterOfCore (coreOf σ.val.cur)) (σ.val.regs.getX b).toNat (σ.val.regs.tags m a) σ
  refine ⟨τ, ?_, hw⟩
  unfold vtagBody
  rw [run_bind_ok (run_myCtx σ), run_bind_ok (run_myCore σ)]
  exact (congrFun (if_neg (not_not.2 h)) σ).trans ((congrFun (if_neg (Nat.not_lt.2 hin)) σ).trans (run_bind_ok hτ))

/-- Settles O8: the body by the offset, and the check before the issue by the core. -/
theorem tagPlaneResult : Obligations.TagPlaneResult := by
  unfold Obligations.TagPlaneResult
  intro m a b sy s hq
  dsimp only
  have hpre (hc : coreOf s.cur < 1536) := run_onEasel_false (σ := (⟨s, .refl⟩ : At s)) hc
  refine ⟨fun hc h64 hin => ?_, fun hm => ⟨fun hc h64 => ?_, fun hc h64 hpast => ?_, fun hc => ?_⟩⟩
  · obtain ⟨τ, hτ, hw⟩ := run_vtagBody (m := m) (a := a) (σ := ⟨s, .refl⟩) h64 hin
    have hlen : (s.regs.tags m a).length = 64 := by simp [Regs.tags]
    have hbad := hw.bad
    have hkept := hw.kept
    rw [hlen] at hbad hkept
    have hcan : τ.val.CanComplete := by
      rw [hw.frame]
      exact ⟨hq.2.2.canComplete.fwd, hq.2.2.canComplete.trace, hq.2.2.canComplete.followers, hq.2.2.canComplete.lease⟩
    have hregs : τ.val.regs = s.regs := by rw [hw.frame]; rfl
    refine ⟨τ.val, ?_, hw.frame, fun i hi => ?_, hkept, hbad⟩
    · have hstep := strandStep_next (engine := false) hq (hpre hc) hτ hcan
      rw [hregs] at hstep
      exact hstep
    · rw [← tagByte_eq]
      exact hw.byte i _ (by simp [Regs.tags, hi])
  · exact strandStep_body_trap hq hm (hpre hc) (run_vtagBody_misaligned (σ := ⟨s, .refl⟩) h64) rfl
  · exact strandStep_body_trap hq hm (hpre hc) (run_vtagBody_past (σ := ⟨s, .refl⟩) h64 hpast) rfl
  · exact strandStep_pre_trap hq hm (run_onEasel_illegal (σ := ⟨s, .refl⟩) hc) rfl

end Sys2Proof.Machine
end

section
/-! Instructions that release at their issue, and issue an operation of an engine (R167, R177, R184, R185). -/

namespace Sys2Proof.Machine

variable {s0 : State}

/-! ### A releasing instruction -/

theorem run_wholly_released {sy : Sync} {body : M s0 Fin} {σ ρ τ : At s0} {e : Except Stop Fin} (hw : sy.wait = none)
    (hs : sy.sig = none)
    (hr : ((σ.val.ctx σ.val.cur).replayNow && (σ.val.ctx σ.val.cur).replay.contains (σ.val.ctx σ.val.cur).r.pc) = false)
    (hrel : release sy.scope σ = .ok () ρ) (h : attempt body ρ = .ok e τ) :
    wholly sy true (pure ()) (fun _ => body) σ =
      match e with
      | .error x => if x.undecoded then .error x τ else .ok (.error x) τ
      | .ok fin => .ok (.ok fin) τ := by
  have hsig : releaseAndSignal sy true σ = .ok () ρ := by
    unfold releaseAndSignal
    exact (run_bind_ok hrel).trans (run_signalAtIssue_none hs ρ)
  rw [wholly, run_bind_ok (run_beforeBody hw hr), run_bind_ok (run_attempt_ok (run_pure () σ))]
  dsimp only
  rw [run_bind_ok hsig, run_bind_ok h]
  cases e with
  | error x => dsimp only; split <;> rfl
  | ok fin => rfl

section

variable {s : State} {sy : Sync} {engine : Bool} {pre : M s Unit} {body : M s Fin} {ρ σ : At s}

variable (hq : s.Quiet sy) (hpre : pre ⟨s, .refl⟩ = .ok () ⟨s, .refl⟩) (hrel : release sy.scope ⟨s, .refl⟩ = .ok () ρ)

include hq hpre hrel

/-- It completes where the body leaves the strand as it stood but for its registers. -/
theorem strandStep_released_next {w : State} {r : Regs} (hbody : body ρ = .ok .next σ) (hw : s.SameStrand w)
    (hσ : w.Holding r σ.val) (hpc : r.pc = s.regs.pc) :
    strandStep s sy true engine pre body = .next (w.goOn sy r) := by
  obtain ⟨hfwd, htrace, hfollowers, hlease⟩ := hq.2.2.canComplete
  have hcur : σ.val.cur = s.cur := hσ.cur.trans hw.cur
  have hcores : σ.val.cores = s.cores := hσ.cores.trans hw.cores
  have hctx : (σ.val.ctx σ.val.cur).prog = (s.ctx s.cur).prog := by rw [hσ.cur, hσ.ctx, hw.cur, hw.ctx]
  obtain ⟨τ, hτ, eτ⟩ := run_complete (engine := engine) (old := s.before) (σ := σ) (fin := .next) hq.2.1 rfl
    (hσ.fwd.trans (hw.fwd.trans hfwd)) (by rw [State.core, hcores, hcur]; exact htrace)
    (by rw [State.followers, hcores, hcur]; exact hfollowers) (by rw [hctx]; exact hlease)
  have hwholly := run_wholly_released (σ := ⟨s, .refl⟩) hq.1 hq.2.1 hq.2.2.fresh.replay hrel (run_attempt_ok hbody)
  rw [strandStep_ok ((hq.2.2.fresh.issue_done ((run_frontChecks hq.1 hq.2.1).trans hpre) hwholly).trans hτ), eτ]
  exact congrArg _ (hσ.goOn sy (hpc.trans (by rw [hw.regs])))

/-- It traps precisely: what it has released stays. -/
theorem strandStep_released_trap {c : Cause} {v : Word} (hm : s.doubleTrap = false) (hρ : s.ReleasedAt sy.scope ρ.val)
    (hbody : body ρ = .error (.trap c v false false) σ) (ho : σ.val.oracle = ρ.val.oracle)
    (hc : (Stop.trap c v false false).undecoded = false) :
    strandStep s sy true engine pre body = .next (ρ.val.trapped c false s.regs.pc v) := by
  obtain ⟨-, htrace, -, hlease⟩ := hq.2.2.canComplete
  have hcur : ρ.val.cur = s.cur := hρ.cur
  have hctx : ρ.val.ctx ρ.val.cur = s.ctx s.cur := by rw [hcur, hρ.ctx]
  have hregs : ρ.val.regs = s.regs := by rw [State.regs, hctx, State.regs]
  have hback : ρ.upd (.chosen σ.val.oracle) = ρ := by rw [ho]; exact At.ext (chosen_same ρ.val)
  have hattempt := run_attempt_trap hbody
  rw [hback] at hattempt
  have hwholly := run_wholly_released (σ := ⟨s, .refl⟩) hq.1 hq.2.1 hq.2.2.fresh.replay hrel hattempt
  dsimp only at hwholly
  rw [hc, if_neg Bool.false_ne_true] at hwholly
  obtain ⟨τ, hτ, eτ⟩ := run_takeMyTrap (σ := ρ) c false s.regs.pc v
    (by rw [hcur, State.core, hρ.frame]; exact htrace) (by rw [hctx]; exact hlease)
    (by rw [State.doubleTrap, hregs]; exact hm)
  have hsettle : settle sy (.trap c v false false) ρ = .ok () τ := by
    unfold settle
    rw [run_bind_ok (run_myCtx ρ), hctx]
    exact hτ
  rw [← eτ]
  refine strandStep_ok ?_
  rw [hq.2.2.fresh.issue_eq ((run_frontChecks hq.1 hq.2.1).trans hpre), run_bind_ok (run_attempt_ok hwholly)]
  exact hsettle

end

/-! ### The issuer of an operation (R184, R185) -/

/-- What a party knows of operations is noted with that knowledge alone. -/
theorem run_addJoins (key : Nat) (js : List Join) (σ : At s0) :
    ∃ τ joins, addJoins key js σ = .ok () τ ∧ τ.val = { σ.val with joins := joins } := by
  unfold addJoins
  rw [run_bind_ok (run_st σ)]
  by_cases h : (js.any fun j => σ.val.liveOp j.op) = true
  · exact ⟨σ.upd (.joins _), _, congrFun (if_pos h) σ, rfl⟩
  · exact ⟨σ, σ.val.joins, congrFun (if_neg h) σ, rfl⟩

/-- An operation that signals nothing takes the next number. -/
theorem run_issuer {sy : Sync} (hs : sy.sig = none) (σ : At s0) :
    ∃ τ joins, issuer sy σ = .ok (Expected.issuerOf σ.val sy.scope) τ ∧
      τ.val = { σ.val with seq := σ.val.seq + 1, joins := joins } := by
  have hcap : captureSig sy σ = .ok none σ := by
    unfold captureSig
    rw [run_bind_ok (run_st σ), hs]
    rfl
  have hseq : freshSeq σ = .ok σ.val.seq (σ.upd .nextSeq) := rfl
  obtain ⟨τ, joins, hτ, eτ⟩ :=
    run_addJoins (2 * opKey σ.val.seq) ((σ.upd .nextSeq).val.joinsOf (2 * σ.val.cur)) (σ.upd .nextSeq)
  have hfork : forkJoins (σ.upd .nextSeq).val.cur σ.val.seq (σ.upd .nextSeq) = .ok () τ := by
    unfold forkJoins
    rw [run_bind_ok (run_st _)]
    exact hτ
  refine ⟨τ, joins, ?_, eτ⟩
  unfold issuer
  rw [run_bind_ok hcap, run_bind_ok hseq, run_bind_ok (run_st _), run_bind_ok hfork, run_pure, hs]
  rfl

/-- An engine's acquire (R185). -/
theorem run_engineAcquire (agent : Nat) (sc : Scope) (σ : At s0) :
    ∃ τ, engineAcquire agent sc σ = .ok () τ ∧ τ.val = { σ.val with farAcq := Expected.acquired σ.val agent sc } := by
  unfold engineAcquire Expected.acquired
  by_cases h : sc = .system
  · rw [if_pos h]
    exact ⟨σ.upd (.farAcq _), congrFun (if_pos (beq_iff_eq.2 h)) σ, rfl⟩
  · rw [if_neg h]
    exact ⟨σ, congrFun (if_neg (fun hsc => h (beq_iff_eq.1 hsc))) σ, rfl⟩

end Sys2Proof.Machine
end

section
/-! The issue of commands to a Fresco engine: its checks, its admission, and what the engine accepts (R241, R252, R254 to R256,
R441). -/

namespace Sys2Proof.Machine

variable {s0 : State}

/-- A command of R440 is one body for all, with its operand registers and its target. -/
theorem exec_engineCommand {i : Instr} {a b : XReg} {tg : Target} {sy : Sync}
    (h : Expected.engineCommand i = some (a, b, tg, sy)) : exec i = fresco i a b tg sy := by
  cases i
  case mloadw => cases h; rfl
  case mmul => cases h; rfl
  case mgrad => cases h; rfl
  case mdrain => cases h; rfl
  case mprog => cases h; rfl
  case mstat => cases h; rfl
  all_goals cases h

/-! ### Addresses -/

/-- Aligned addresses of the device's form pass. -/
theorem run_frescoChecks {i : Instr} {xa xb : Word}
    (h : ∀ p ∈ frescoAddrs i xa xb, p.2 = true ∧ p.1.toNat / 2 ^ 48 % 2 ^ 8 = 0) (σ : At s0) :
    frescoChecks i xa xb σ = .ok () σ := by
  have halign : (frescoAddrs i xa xb).filter (fun p => !p.2) = [] :=
    List.filter_eq_nil_iff.2 fun p hp => by simp [(h p hp).1]
  have hform : (frescoAddrs i xa xb).filter (fun p => !canonical p.1) = [] :=
    List.filter_eq_nil_iff.2 fun p hp => by simp [canonical_of (h p hp).2]
  unfold frescoChecks
  rw [halign, hform]
  rfl

/-! ### Capability entries (R255, R371) -/

/-- The entry and table 4 let in a command with a secret. -/
def State.entryAdmits (s : State) (cl : Nat) (idx : BitVec 6) (i : Instr) (secret : BitVec 48) : Bool :=
  s.capTable cl (coreOf s.cur) s.regs.asid (s.regs.mode == .user) && (s.cap cl idx).admits i secret

theorem Cap.admits_iff (c : Cap) (i : Instr) (secret : BitVec 48) :
    c.admits i secret = true ↔ c.valid = true ∧ c.secret = secret ∧ c.rights.getLsbD (Instr.rightBit i) = true := by
  simp [Cap.admits, and_assoc]

theorem entryAdmits_iff (s : State) (cl : Nat) (idx : BitVec 6) (i : Instr) (secret : BitVec 48) :
    s.entryAdmits cl idx i secret = true ↔
      (s.cap cl idx).valid = true ∧ (s.cap cl idx).secret = secret ∧
        (s.cap cl idx).rights.getLsbD (Instr.rightBit i) = true ∧
        admits (s.access (cl / 24) 4 (coreOf s.cur)) false true (decide (s.regs.mode = .user ∧ coreOf s.cur < 1568))
          s.regs.asid = true := by
  have huser : (s.regs.mode == .user && decide (coreOf s.cur < 1568)) = decide (s.regs.mode = .user ∧ coreOf s.cur < 1568) := by
    rw [Bool.decide_and]
    rfl
  rw [State.entryAdmits, Bool.and_eq_true, Cap.admits_iff, State.capTable, huser, dieOfCluster]
  tauto

theorem admitted_here (s : State) (i : Instr) :
    Expected.admitted s i .here =
      if coreOf s.cur < 1536 ∧ (s.fresco (coreOf s.cur / 8)).owner = s.regs.asid then some (coreOf s.cur / 8, s.regs.asid)
      else none := rfl

theorem admitted_remote (s : State) (i : Instr) (node : BitVec 8) (clus : BitVec 8) (idx : BitVec 6) (sec : XReg) :
    Expected.admitted s i (.remote node clus idx sec) =
      if node = s.nodeId ∧ s.entryAdmits clus.toNat idx i ((s.regs.getX sec).truncate 48) = true then
        some (clus.toNat, (s.cap clus.toNat idx).asid)
      else none :=
  if_congr (and_congr_right fun _ => (entryAdmits_iff s clus.toNat idx i _).symm) rfl rfl

/-! ### The engine of a command -/

theorem run_frescoTarget_admitted {i : Instr} {tg : Target} {cl : Nat} {asid : BitVec 16} {σ : At s0}
    (h : Expected.admitted σ.val i tg = some (cl, asid)) : frescoTarget i tg σ = .ok (some (cl, asid)) σ := by
  unfold frescoTarget
  rw [run_bind_ok (run_st σ)]
  cases tg with
  | here =>
    rw [admitted_here] at h
    split at h
    · next hown =>
      cases h
      exact congrFun (if_neg (not_not.2 hown.2)) σ
    · cases h
  | remote node clus idx sec =>
    rw [admitted_remote] at h
    split at h
    · next hadm =>
      cases h
      exact (congrFun (if_pos hadm.1) σ).trans (congrFun (if_pos hadm.2) σ)
    · cases h

/-- The strand's own engine has another owner. -/
theorem run_frescoTarget_foreign {i : Instr} {σ : At s0} (hc : coreOf σ.val.cur < 1536)
    (h : Expected.admitted σ.val i .here = none) :
    frescoTarget i .here σ = .error (.trap .capfail 0 false false) σ := by
  rw [admitted_here] at h
  split at h
  · cases h
  · next hown =>
    unfold frescoTarget
    rw [run_bind_ok (run_st σ)]
    exact congrFun (if_pos fun e => hown ⟨hc, e⟩) σ

/-- The entry of an engine of this device refuses. -/
theorem run_frescoTarget_refused {i : Instr} {clus : BitVec 8} {idx : BitVec 6} {sec : XReg} {σ : At s0}
    (h : Expected.admitted σ.val i (.remote σ.val.nodeId clus idx sec) = none) :
    frescoTarget i (.remote σ.val.nodeId clus idx sec) σ = .error (.trap .capfail (idx.zeroExtend 64) false false) σ := by
  rw [admitted_remote] at h
  split at h
  · cases h
  · next hadm =>
    unfold frescoTarget
    rw [run_bind_ok (run_st σ)]
    exact (congrFun (if_pos rfl) σ).trans (congrFun (if_neg fun e => hadm ⟨rfl, e⟩) σ)

/-- A release leaves what admission reads. -/
theorem State.ReleasedAt.admitted {s t : State} {sc : Scope} (h : s.ReleasedAt sc t) (i : Instr) (tg : Target) :
    Expected.admitted t i tg = Expected.admitted s i tg := by
  have hregs : t.regs = s.regs := by rw [State.regs, h.cur, h.ctx, State.regs]
  have hfresco (n : Nat) : t.fresco n = s.fresco n := by rw [State.fresco, h.frame, State.fresco]
  unfold Expected.admitted
  rw [hregs, h.cur, h.sameHomes.nodeId]
  simp only [hfresco, h.sameHomes.access]

/-! ### What the engine accepts -/

/-- A command that takes no shape record, as its engine keeps it (R241). -/
def plainCmd (n : Nat) (i : Instr) (xa xb : Word) (asid : BitVec 16) (b : Issuer) (rm : BitVec 3) : FCmd where
  seq := n
  instr := i
  xa := xa
  xb := xb
  asid := asid
  by_ := b
  rows := .ok (if (Instr.rowSource i).isSome then (xb.toNat, 64) else (0, 64))
  rm := rm
  started := false
  valids := []

theorem run_readRows {q : Req} {agent : Nat} {i : Instr} {xb : Word} (h : Instr.rowSource i ≠ some true) (σ : At s0) :
    readRows q agent i xb σ = .ok (.ok (if (Instr.rowSource i).isSome then (xb.toNat, 64) else (0, 64))) σ := by
  unfold readRows
  cases hrow : Instr.rowSource i with
  | none => rfl
  | some shp =>
    cases shp with
    | false => rfl
    | true => exact absurd hrow h

/-- The command stands at the end of the engine's queue. -/
def Fresco.enqueue (f : Fresco) (c : FCmd) : Fresco := { f with cmds := f.cmds ++ [c] }

theorem run_acceptCmd {cl : Nat} {i : Instr} {xa xb : Word} {asid : BitVec 16} {b : Issuer} {rm : BitVec 3}
    (hcl : cl < 192) (h : Instr.rowSource i ≠ some true) (σ : At s0) :
    ∃ τ, acceptCmd cl i xa xb asid b rm σ = .ok () τ ∧
      τ.val =
        { σ.val with
          seq := σ.val.seq + 1, eop := (b.agent, b.seq)
          frescos := TMap.put σ.val.frescos cl ((σ.val.fresco cl).enqueue (plainCmd σ.val.seq i xa xb asid b rm)) } := by
  have hforeign : cl ≠ foreignEngine := Nat.ne_of_lt hcl
  let ρ := σ.upd (.eop b.agent b.seq)
  have hact : actFor b σ = .ok () ρ := rfl
  have hseq : freshSeq ρ = .ok σ.val.seq (ρ.upd .nextSeq) := rfl
  refine ⟨(ρ.upd .nextSeq).upd (.fresco cl ((σ.val.fresco cl).enqueue (plainCmd σ.val.seq i xa xb asid b rm))), ?_, rfl⟩
  unfold acceptCmd
  dsimp only
  rw [run_bind_ok hact, if_neg hforeign, run_bind_ok (run_readRows h ρ), run_bind_ok hseq]
  rfl

/-! ### The steps of a command -/

theorem run_frescoPre {tg : Target} {σ : At s0} (h : tg = .here → coreOf σ.val.cur < 1536) :
    frescoPre tg σ = .ok () σ := by
  cases tg with
  | here => exact run_onEasel_false (h rfl)
  | remote => rfl

theorem core_of_admitted {s : State} {i : Instr} {tg : Target} {p : Nat × BitVec 16} (h : Expected.admitted s i tg = some p)
    (hhere : tg = .here) : coreOf s.cur < 1536 := by
  subst hhere
  rw [admitted_here] at h
  split at h
  · next hown => exact hown.1
  · cases h

section

variable {i : Instr} {a b : XReg} {tg : Target} {sy : Sync} {s : State}

/-- The body of an admitted command: the issuer takes a number, the engine acquires and accepts under the next one. -/
theorem run_frescoBody_admitted {cl : Nat} {asid : BitVec 16} {ρ : At s0} (hs : sy.sig = none)
    (haddr : ∀ p ∈ frescoAddrs i (ρ.val.regs.getX a) (ρ.val.regs.getX b), p.2 = true ∧ p.1.toNat / 2 ^ 48 % 2 ^ 8 = 0)
    (hadm : Expected.admitted ρ.val i tg = some (cl, asid)) (hcl : cl < 192) (hrow : Instr.rowSource i ≠ some true) :
    ∃ σ joins, frescoBody i a b tg sy ρ = .ok .next σ ∧
      σ.val =
        { ρ.val with
          seq := ρ.val.seq + 2, eop := (ρ.val.cur, ρ.val.seq), joins := joins
          farAcq := Expected.acquired ρ.val (25088 + cl) sy.scope
          frescos := TMap.put ρ.val.frescos cl ((ρ.val.fresco cl).enqueue
            (Expected.accepted ρ.val i (ρ.val.regs.getX a) (ρ.val.regs.getX b) asid sy.scope)) } := by
  obtain ⟨σ1, joins, h1, e1⟩ := run_issuer hs ρ
  obtain ⟨σ2, h2, e2⟩ := run_engineAcquire (25088 + cl) sy.scope σ1
  obtain ⟨σ, h3, e3⟩ := run_acceptCmd (xa := ρ.val.regs.getX a) (xb := ρ.val.regs.getX b) (asid := asid)
    (b := Expected.issuerOf ρ.val sy.scope) (rm := ρ.val.regs.rm) hcl hrow σ2
  refine ⟨σ, joins, ?_, ?_⟩
  · have hchecks : frescoChecks i ((ρ.val.ctx ρ.val.cur).r.getX a) ((ρ.val.ctx ρ.val.cur).r.getX b) ρ = .ok () ρ :=
      run_frescoChecks haddr ρ
    unfold frescoBody
    rw [run_bind_ok (run_myCtx ρ)]
    dsimp only
    rw [run_bind_ok hchecks, run_bind_ok (run_frescoTarget_admitted hadm)]
    dsimp only
    rw [run_bind_ok h1, run_bind_ok h2]
    exact run_bind_ok h3
  · rw [e3, e2, e1]
    rfl

theorem run_frescoBody_trap {c : Cause} {v : Word} {ρ : At s0}
    (haddr : ∀ p ∈ frescoAddrs i (ρ.val.regs.getX a) (ρ.val.regs.getX b), p.2 = true ∧ p.1.toNat / 2 ^ 48 % 2 ^ 8 = 0)
    (h : frescoTarget i tg ρ = .error (.trap c v false false) ρ) :
    frescoBody i a b tg sy ρ = .error (.trap c v false false) ρ := by
  have hchecks : frescoChecks i ((ρ.val.ctx ρ.val.cur).r.getX a) ((ρ.val.ctx ρ.val.cur).r.getX b) ρ = .ok () ρ :=
    run_frescoChecks haddr ρ
  unfold frescoBody
  rw [run_bind_ok (run_myCtx ρ)]
  dsimp only
  rw [run_bind_ok hchecks]
  exact run_bind_error h

variable (hcmd : Expected.engineCommand i = some (a, b, tg, sy)) (hq : s.Quiet sy) (hset : Expected.Settled s)
  (haddr : ∀ p ∈ frescoAddrs i (s.regs.getX a) (s.regs.getX b), p.2 = true ∧ p.1.toNat / 2 ^ 48 % 2 ^ 8 = 0)

include hcmd hq hset haddr

theorem exec_command_accepted {cl : Nat} {asid : BitVec 16} (hadm : Expected.admitted s i tg = some (cl, asid))
    (hcl : cl < 192) (hrow : Instr.rowSource i ≠ some true) :
    ∃ u t : State, Expected.Carried s u sy.scope ∧ exec i s = .next (t.goOn sy s.regs) ∧
      t =
        { u with
          seq := s.seq + 2, eop := (s.cur, s.seq), joins := t.joins
          farAcq := Expected.acquired u (25088 + cl) sy.scope
          frescos := TMap.put s.frescos cl ((s.fresco cl).enqueue
            (Expected.accepted s i (s.regs.getX a) (s.regs.getX b) asid sy.scope)) } := by
  obtain ⟨hlines, hfar, -⟩ := hset
  obtain ⟨ρ, hrel, hρ⟩ := run_release_at (σ := (⟨s, .refl⟩ : At s)) sy.scope hlines hfar
  dsimp only at hρ
  have hregs : ρ.val.regs = s.regs := by rw [State.regs, hρ.cur, hρ.ctx, State.regs]
  have hfresco : ρ.val.fresco cl = s.fresco cl := by rw [State.fresco, hρ.frame, State.fresco]
  have hacc (xa xb : Word) : Expected.accepted ρ.val i xa xb asid sy.scope = Expected.accepted s i xa xb asid sy.scope := by
    unfold Expected.accepted Expected.issuerOf
    rw [hregs, hρ.cur, hρ.ctx, hρ.frame]
  obtain ⟨σ, joins, hbody, eσ⟩ := run_frescoBody_admitted (a := a) (b := b) (cl := cl) (asid := asid) hq.2.1
    (by rw [hregs]; exact haddr) ((hρ.admitted i tg).trans hadm) hcl hrow
  rw [hregs, hfresco, hacc] at eσ
  obtain ⟨hsame, hheld⟩ := hρ.relisted (r := σ.val) (by rw [eσ]) (by rw [eσ]) (by rw [eσ]) (by rw [eσ])
  refine ⟨{ ρ.val with ctxs := s.ctxs }, { σ.val with ctxs := s.ctxs }, hρ.carried, ?_, ?_⟩
  · rw [exec_engineCommand hcmd]
    exact strandStep_released_next hq (run_frescoPre (σ := ⟨s, .refl⟩) (core_of_admitted hadm)) hrel hbody hsame hheld rfl
  · rw [eσ, hρ.frame]
    rfl

/-- A refused command traps after its release, and its engine gets nothing. -/
theorem exec_command_refused {v : Word} (hm : s.doubleTrap = false) (hhere : tg = .here → coreOf s.cur < 1536)
    (h : ∀ ρ : At s, s.ReleasedAt sy.scope ρ.val → frescoTarget i tg ρ = .error (.trap .capfail v false false) ρ) :
    ∃ t : State, exec i s = .next (t.trapped .capfail false s.regs.pc v) ∧
      t.frescos = s.frescos ∧ t.regs = s.regs ∧ t.mem = s.mem ∧ t.cur = s.cur := by
  obtain ⟨hlines, hfar, -⟩ := hset
  obtain ⟨ρ, hrel, hρ⟩ := run_release_at (σ := (⟨s, .refl⟩ : At s)) sy.scope hlines hfar
  dsimp only at hρ
  have hregs : ρ.val.regs = s.regs := by rw [State.regs, hρ.cur, hρ.ctx, State.regs]
  refine ⟨ρ.val, ?_, by rw [hρ.frame], hregs, by rw [hρ.frame], hρ.cur⟩
  rw [exec_engineCommand hcmd]
  exact strandStep_released_trap hq (run_frescoPre (σ := ⟨s, .refl⟩) hhere) hrel hm hρ
    (run_frescoBody_trap (by rw [hregs]; exact haddr) (h ρ hρ)) rfl rfl

end

/-- Settles O34: an admitted command by what its body leaves after the release, a refused one by its engine. -/
theorem matrixCommandIssue : Obligations.MatrixCommandIssue := by
  unfold Obligations.MatrixCommandIssue
  refine ⟨fun i a b tg sy s cl asid hcmd hq hset hadm hcl hrow haddr =>
      exec_command_accepted hcmd hq hset haddr hadm hcl hrow,
    fun i a b tg sy s hcmd hq hset hm haddr => ⟨fun hhere hc => ?_, fun hhere hc hadm => ?_, ?_⟩⟩
  · subst hhere
    rw [exec_engineCommand hcmd]
    exact strandStep_pre_trap hq hm (run_onEasel_illegal (σ := ⟨s, .refl⟩) hc) rfl
  · subst hhere
    refine exec_command_refused hcmd hq hset haddr hm (fun _ => hc) fun ρ hρ => ?_
    exact run_frescoTarget_foreign (by rw [hρ.cur]; exact hc) ((hρ.admitted i .here).trans hadm)
  · rintro node clus idx sec rfl rfl hadm
    refine exec_command_refused hcmd hq hset haddr hm (fun h => nomatch h) fun ρ hρ => ?_
    have hnode := hρ.sameHomes.nodeId
    rw [← hnode] at hadm ⊢
    exact run_frescoTarget_refused ((hρ.admitted i _).trans hadm)

end Sys2Proof.Machine
end

section
/-! Start and completion of a Fresco engine's commands, MSTAT and MCAP (R163, R246, R250, R252 to R257, R440). -/

namespace Sys2Proof.Machine

variable {s0 : State}

/-! ### The engine of a cluster -/

theorem run_modFresco (n : Nat) (f : Fresco → Fresco) (σ : At s0) :
    modFresco n f σ = .ok () (σ.upd (.fresco n (f (σ.val.fresco n)))) := rfl

theorem fresco_upd_same (s : State) (n : Nat) (f : Fresco) : ((Upd.fresco n f).apply s).fresco n = f := by
  show TMap.get _ (TMap.put _ _ _) _ = _
  exact TMap.get_put_same _ _ _ _

/-- The last update of an engine is the one that stands. -/
theorem upd_fresco_fresco (s : State) (n : Nat) (f g : Fresco) :
    (Upd.fresco n g).apply ((Upd.fresco n f).apply s) = (Upd.fresco n g).apply s := by
  simp [Upd.apply]

/-- A command has left the engine's queue. -/
def Fresco.dequeue (f : Fresco) (seq : Nat) : Fresco := { f with cmds := f.cmds.filter fun x => x.seq != seq }

/-! ### Start -/

/-- A command starts, with the banks' VALID as they stand. -/
def Fresco.start (f : Fresco) (seq : Nat) : Fresco :=
  { f with
    cmds := f.cmds.map fun x =>
      if x.seq = seq then { x with started := true, valids := (List.range 4).map fun b => (f.bank b).valid } else x }

theorem exec_start {cl seq : Nat} {s : State} {c : FCmd} (hc : (s.fresco cl).cmds.find? (fun c => c.seq == seq) = some c)
    (hnew : c.started = false)
    (hfree : ∀ e ∈ (s.fresco cl).cmds.takeWhile (fun c => c.seq != seq), frescoConflict e c = false) :
    exec (.frescoCommandStart cl seq) s = .next ((Upd.fresco cl ((s.fresco cl).start seq)).apply s) := by
  have hnone : (earlierCmds (s.fresco cl).cmds seq).any (fun e => frescoConflict e c) = false :=
    List.any_eq_false.2 fun e he => by rw [hfree e he]; exact Bool.false_ne_true
  have hstart : (fun f : Fresco =>
      { f with
        cmds := f.cmds.map fun x =>
          if x.seq == seq then { x with started := true, valids := (List.range 4).map fun b => (f.bank b).valid } else x }) =
      fun f => f.start seq := by
    simp only [Fresco.start, beq_iff_eq]
  have hbody : frescoCommandStartBody cl seq (⟨s, .refl⟩ : At s) =
      .ok () (At.upd ⟨s, .refl⟩ (.fresco cl ((s.fresco cl).start seq))) := by
    unfold frescoCommandStartBody
    rw [run_bind_ok (run_st _)]
    dsimp only
    rw [hc]
    dsimp only
    rw [hnew, hnone, hstart, Bool.not_false, Bool.or_true, Bool.true_and]
    rfl
  exact run_ok hbody

/-! ### Completion -/

/-- The event of a command whose effect runs, and that signals nothing: the command leaves the queue. -/
theorem exec_complete {cl seq : Nat} {s : State} {c : FCmd} {ρ τ : At s} (hcl : cl < 192)
    (hc : (s.fresco cl).cmds.find? (fun c => c.seq == seq) = some c) (hstarted : c.started = true) (hsig : c.by_.sig = none)
    (hanswer : mstatEffect cl c (At.upd ⟨s, .refl⟩ (.eop c.by_.agent c.by_.seq)) = .ok () ρ)
    (heffect : commandEffect cl c ρ = .ok () τ) :
    exec (.frescoCommandComplete cl seq) s = .next ((Upd.fresco cl ((τ.val.fresco cl).dequeue seq)).apply τ.val) := by
  have hact : actFor c.by_ (⟨s, .refl⟩ : At s) = .ok () (At.upd ⟨s, .refl⟩ (.eop c.by_.agent c.by_.seq)) := rfl
  have hown : cl < foreignEngine := hcl
  have hbody : frescoCommandCompleteBody cl seq (⟨s, .refl⟩ : At s) =
      .ok () (τ.upd (.fresco cl ((τ.val.fresco cl).dequeue seq))) := by
    unfold frescoCommandCompleteBody
    rw [run_bind_ok (run_st _)]
    dsimp only
    rw [hc]
    dsimp only
    rw [hstarted, run_bind_ok (run_require _ _), run_bind_ok hact, run_bind_ok hanswer, if_pos hown, run_bind_ok heffect,
      run_bind_ok (run_modFresco _ _ τ), hsig]
    rfl
  exact run_ok hbody

/-! ### MSTAT -/

theorem run_mstatEffect {cl : Nat} {c : FCmd} {d a : XReg} {sel : BitVec 6} {tg : Target} {sy : Sync} {σ : At s0}
    (hcl : cl < 192) (hi : c.instr = .mstat d a sel tg sy) (hagent : c.by_.agent < 25088)
    (hlife : (σ.val.ctx c.by_.agent).life = c.by_.life) :
    mstatEffect cl c σ =
      .ok () (σ.upd (.ctx c.by_.agent
        ((σ.val.ctx c.by_.agent).setX d ((σ.val.fresco cl).stat sel.toNat c.xa.toNat)))) := by
  have hrecord : c.record = some (sel.toNat, c.xa.toNat) := by unfold FCmd.record; rw [hi]
  have hctx : σ.val.ofCtx c.by_.agent c.by_ = true := by simp [State.ofCtx, hlife]
  have hown : cl < foreignEngine := hcl
  have hlives : (decide (c.by_.agent < 25088) && σ.val.ofCtx c.by_.agent c.by_) = true := by
    rw [hctx, decide_eq_true hagent]
    rfl
  unfold mstatEffect
  rw [hi, hrecord]
  dsimp only
  rw [run_bind_ok (run_st σ), if_pos hlives, if_pos hown]
  rfl

theorem exec_mstat_complete {cl seq : Nat} {s : State} {c : FCmd} {d a : XReg} {sel : BitVec 6} {tg : Target} {sy : Sync}
    (hcl : cl < 192) (hc : (s.fresco cl).cmds.find? (fun c => c.seq == seq) = some c) (hstarted : c.started = true)
    (hi : c.instr = .mstat d a sel tg sy) (hsig : c.by_.sig = none) (hagent : c.by_.agent < 25088)
    (hlife : (s.ctx c.by_.agent).life = c.by_.life) :
    exec (.frescoCommandComplete cl seq) s =
      .next { s with
        eop := (c.by_.agent, c.by_.seq)
        ctxs := TMap.put s.ctxs c.by_.agent
          { s.ctx c.by_.agent with r := (s.ctx c.by_.agent).r.setX d ((s.fresco cl).stat sel.toNat c.xa.toNat) }
        frescos := TMap.put s.frescos cl ((s.fresco cl).dequeue seq) } := by
  let σ : At s := At.upd ⟨s, .refl⟩ (.eop c.by_.agent c.by_.seq)
  let τ := σ.upd (.ctx c.by_.agent ((s.ctx c.by_.agent).setX d ((s.fresco cl).stat sel.toNat c.xa.toNat)))
  have heffect : commandEffect cl c τ = .ok () τ := by
    unfold commandEffect
    rw [hi]
    rfl
  exact exec_complete hcl hc hstarted hsig (run_mstatEffect (σ := σ) hcl hi hagent hlife) heffect

/-! ### An instruction that names a register still to be written (R163) -/

theorem run_resultOwed_named {i : Instr} {x : XReg} {σ : At s0}
    (hdec : decode (σ.val.ctx σ.val.cur).ir (σ.val.ctx σ.val.cur).irExt = .ok i) (howed : x ∈ σ.val.owedX σ.val.cur)
    (hx : x ∈ i.xregs) : resultOwed σ = .ok true σ := by
  have hnamed : (i.xregs.any (σ.val.owedX σ.val.cur).contains) = true :=
    List.any_eq_true.2 ⟨x, hx, List.contains_iff_mem.2 howed⟩
  have hsome : (σ.val.owedX σ.val.cur).isEmpty = false := List.isEmpty_eq_false_iff_exists_mem.2 ⟨x, howed⟩
  unfold resultOwed
  rw [run_bind_ok (run_st σ), run_pure, hdec]
  dsimp only
  rw [hnamed, hsome, Bool.or_true, Bool.not_false, Bool.and_self, Bool.or_true]

/-- It stalls in place. -/
theorem exec_stalls {i j : Instr} {s : State} {sy : Sync} {x : XReg} (hi : HasBody i s sy)
    (hl : s.followers (coreOf s.cur) = []) (hdec : decode (s.ctx s.cur).ir (s.ctx s.cur).irExt = .ok j)
    (howed : x ∈ s.owedX s.cur) (hx : x ∈ j.xregs) : exec i s = .next s := by
  obtain ⟨body, he⟩ := hi
  have hissue : issue sy false false (pure ()) (pure ()) (fun _ => body) ⟨s, .refl⟩ = .ok () (⟨s, .refl⟩ : At s) := by
    unfold issue
    rw [run_bind_ok (run_followersFull (σ := ⟨s, .refl⟩) hl)]
    simp only [Bool.false_eq_true, if_false]
    rw [run_bind_ok (run_resultOwed_named (σ := ⟨s, .refl⟩) hdec howed hx)]
    rfl
  rw [he]
  exact strandStep_ok hissue

/-! ### MCAP -/

/-- The capability entry that MCAP writes (R257). -/
def capOf (xa xb : Word) : Cap :=
  { valid := xb.getLsbD 63, rights := xb.extractLsb' 56 7, asid := xb.truncate 16, secret := xa.truncate 48 }

def Fresco.setCap (f : Fresco) (n : Nat) (c : Cap) : Fresco := { f with caps := TMap.put f.caps n c }

theorem run_mcapBody {idx : BitVec 6} {a b : XReg} {sy : Sync} {cl : Nat} {ρ : At s0} (hs : sy.sig = none)
    (hcl : clusterOfCore (coreOf ρ.val.cur) = cl) (hown : (ρ.val.fresco cl).owner = ρ.val.regs.asid)
    (hadm : ρ.val.capTable cl (coreOf ρ.val.cur) ρ.val.regs.asid (ρ.val.regs.mode == .user) = true) :
    ∃ σ joins, mcapBody idx a b .here sy ρ = .ok .next σ ∧
      σ.val =
        { ρ.val with
          seq := ρ.val.seq + 1, joins := joins
          frescos := TMap.put ρ.val.frescos cl
            ((ρ.val.fresco cl).setCap idx.toNat (capOf (ρ.val.regs.getX a) (ρ.val.regs.getX b))) } := by
  obtain ⟨τ, joins, hτ, eτ⟩ := run_issuer hs ρ
  have hfresco : τ.val.fresco cl = ρ.val.fresco cl := by rw [State.fresco, eτ, State.fresco]
  have hok : (!((ρ.val.fresco cl).owner == ρ.val.regs.asid) ||
      !ρ.val.capTable cl (coreOf ρ.val.cur) ρ.val.regs.asid (ρ.val.regs.mode == .user)) = false := by
    rw [hadm, beq_iff_eq.2 hown]
    rfl
  refine ⟨τ.upd (.fresco cl ((τ.val.fresco cl).setCap idx.toNat (capOf (ρ.val.regs.getX a) (ρ.val.regs.getX b)))), joins,
    ?_, by rw [At.upd_val, hfresco, eτ]; rfl⟩
  unfold mcapBody
  rw [run_bind_ok (run_st ρ)]
  dsimp only
  rw [hcl]
  refine (congrFun (if_neg (ne_true_of_eq_false hok)) ρ).trans ?_
  rw [run_bind_ok hτ]
  rfl

theorem exec_mcap {idx : BitVec 6} {a b : XReg} {sy : Sync} {s : State} (hq : s.Quiet sy) (hset : Expected.Settled s)
    (hc : coreOf s.cur < 1536) (hmode : s.regs.mode ≠ .user) (hown : (s.fresco (coreOf s.cur / 8)).owner = s.regs.asid)
    (hadm : admits (s.access (coreOf s.cur / 8 / 24) 4 (coreOf s.cur)) false true false s.regs.asid = true) :
    ∃ u t : State, Expected.Carried s u sy.scope ∧ exec (.mcap idx a b .here sy) s = .next (t.goOn sy s.regs) ∧
      t =
        { u with
          seq := s.seq + 1, joins := t.joins
          frescos := TMap.put s.frescos (coreOf s.cur / 8)
            ((s.fresco (coreOf s.cur / 8)).setCap idx.toNat (capOf (s.regs.getX a) (s.regs.getX b))) } := by
  obtain ⟨hlines, hfar, -⟩ := hset
  obtain ⟨ρ, hrel, hρ⟩ := run_release_at (σ := (⟨s, .refl⟩ : At s)) sy.scope hlines hfar
  dsimp only at hρ
  have hregs : ρ.val.regs = s.regs := by rw [State.regs, hρ.cur, hρ.ctx, State.regs]
  have hfresco (n : Nat) : ρ.val.fresco n = s.fresco n := by rw [State.fresco, hρ.frame, State.fresco]
  have hkernel : (s.regs.mode == .user) = false := beq_eq_false_iff_ne.2 hmode
  have htable : ρ.val.capTable (coreOf s.cur / 8) (coreOf ρ.val.cur) ρ.val.regs.asid (ρ.val.regs.mode == .user) = true := by
    rw [hregs, hρ.cur, hkernel, State.capTable, hρ.sameHomes.access, Bool.false_and]
    exact hadm
  obtain ⟨σ, joins, hbody, eσ⟩ := run_mcapBody (idx := idx) (a := a) (b := b) hq.2.1 (by rw [hρ.cur]; rfl)
    (by rw [hfresco, hregs]; exact hown) htable
  rw [hregs, hfresco] at eσ
  obtain ⟨hsame, hheld⟩ := hρ.relisted (r := σ.val) (by rw [eσ]) (by rw [eσ]) (by rw [eσ]) (by rw [eσ])
  have hpre : (do frescoPre .here; kernelOnly : M s Unit) ⟨s, .refl⟩ = .ok () ⟨s, .refl⟩ :=
    (run_bind_ok (run_frescoPre (σ := ⟨s, .refl⟩) fun _ => hc)).trans (run_kernelOnly (σ := ⟨s, .refl⟩) hmode)
  refine ⟨{ ρ.val with ctxs := s.ctxs }, { σ.val with ctxs := s.ctxs }, hρ.carried,
    strandStep_released_next hq hpre hrel hbody hsame hheld rfl, by rw [eσ, hρ.frame]⟩

/-- Settles O35, by the completion of MSTAT, the stall of who reads its register, and MCAP. -/
theorem matrixQueryResult : Obligations.MatrixQueryResult := by
  unfold Obligations.MatrixQueryResult
  refine ⟨fun cl seq s c d a sel tg sy hcl hc hstarted hi hsig hagent hlife =>
      exec_mstat_complete hcl hc hstarted hi hsig hagent hlife,
    fun i s d v sy hi hl hdec ⟨x, howed, hx⟩ => exec_stalls (scalarInt_hasBody hi) hl hdec howed hx,
    fun a b idx sy s hq hset hc hmode hown hadm => exec_mcap hq hset hc hmode hown hadm⟩

end Sys2Proof.Machine
end

section
/-! MPROG, and the admission of another device's command (R250, R255, R371, R373). -/

namespace Sys2Proof.Machine

variable {s0 : State}

/-! ### MPROG -/

/-- The engine has taken a microprogram. -/
def Fresco.take (f : Fresco) (p : Prog) : Fresco := { f with prog := p }

/-- A command that reads no record answers no strand. -/
theorem run_mstatEffect_none {cl : Nat} {c : FCmd} (h : c.record = none) (σ : At s0) : mstatEffect cl c σ = .ok () σ := by
  unfold mstatEffect
  rw [h]
  cases c.instr <;> rfl

theorem exec_mprog_complete {cl seq : Nat} {s : State} {c : FCmd} {a b : XReg} {n : BitVec 3} {tg : Target} {sy : Sync}
    (hcl : cl < 192) (hc : (s.fresco cl).cmds.find? (fun c => c.seq == seq) = some c) (hstarted : c.started = true)
    (hi : c.instr = .mprog a b n tg sy) (hsig : c.by_.sig = none) (hgood : microBad n.toNat c.xa = false) :
    exec (.frescoCommandComplete cl seq) s =
      .next { s with
        eop := (c.by_.agent, c.by_.seq)
        frescos := TMap.put s.frescos cl
          (((s.fresco cl).take { count := n, ops := c.xa, kappa := c.xb.truncate 32, format := false }).dequeue seq) } := by
  let p : Prog := { count := n, ops := c.xa, kappa := c.xb.truncate 32, format := false }
  let σ : At s := At.upd ⟨s, .refl⟩ (.eop c.by_.agent c.by_.seq)
  let τ := σ.upd (.fresco cl ((s.fresco cl).take p))
  have heffect : commandEffect cl c σ = .ok () τ := by
    unfold commandEffect
    rw [hi]
    dsimp only
    unfold mprogEffect
    simp only [hgood, Bool.false_eq_true, if_false]
    rfl
  have hrecord : c.record = none := by unfold FCmd.record; rw [hi]
  rw [exec_complete hcl hc hstarted hsig (run_mstatEffect_none hrecord σ) heffect]
  have hfresco : τ.val.fresco cl = (s.fresco cl).take p := fresco_upd_same _ _ _
  rw [hfresco]
  exact congrArg _ (upd_fresco_fresco _ _ _ _)

/-! ### A command of another device -/

/-- What a command does by the job slot and the address space that its job maps to. -/
def admitJob (c : RemoteCmd) (i : Instr) (space : Option (Nat × Option (BitVec 16))) : M s0 Unit :=
  match space with
  | none => dropUnmapped c.die (65536 + c.node.toNat) c.xa
  | some (slot, some asid) => admitRemote c slot asid i
  | some (_, none) => pure ()

theorem run_remoteCommandAdmissionBody {c : RemoteCmd} {i : Instr} {p : XReg × XReg × Target × Sync} (hcl : c.cluster < 192)
    (hdie : c.die < 8) (hdec : decode c.base (some (remoteEng c)) = .ok i) (hcmd : Expected.engineCommand i = some p)
    (σ : At s0) : remoteCommandAdmissionBody c σ = admitJob c i (σ.val.jobSpace c.die c.job) σ := by
  have hplace : (decide (c.cluster < 192) && decide (c.die < 8)) = true := by
    rw [decide_eq_true hcl, decide_eq_true hdie]
    rfl
  unfold remoteCommandAdmissionBody
  rw [run_bind_ok (run_st σ), hplace, run_bind_ok (run_require _ σ), hdec]
  cases i
  case mloadw => rfl
  case mmul => rfl
  case mgrad => rfl
  case mdrain => rfl
  case mprog => rfl
  case mstat => rfl
  all_goals cases hcmd

/-- The job slot is the first that holds the identifier, and the address space is the one that its entry of table 0 names. -/
theorem jobSpace_eq {s : State} {die job slot : Nat} (hslot : slot < 64)
    (hmap : (TMap.get 0 (s.die die).jobs slot).toNat = 2 ^ 63 + job)
    (hfirst : ∀ k < slot, ¬ (TMap.get 0 (s.die die).jobs k).toNat = 2 ^ 63 + job) :
    s.jobSpace die job =
      some (slot,
        if (s.access die 0 (1984 + slot)).toNat / 2 ^ 16 % 2 ^ 16 = (s.access die 0 (1984 + slot)).toNat % 2 ^ 16 then
          some (BitVec.ofNat 16 (s.access die 0 (1984 + slot)).toNat)
        else none) := by
  have hfind : s.jobSlot die job = some slot := by
    unfold State.jobSlot
    refine List.find?_range_eq_some.2 ⟨by rw [hmap]; exact beq_self_eq_true _, List.mem_range.2 hslot, fun k hk => ?_⟩
    simpa using hfirst k hk
  unfold State.jobSpace
  rw [hfind, Option.map_some, masterJob]
  dsimp only
  generalize s.access die 0 (1984 + slot) = e
  have hlow : field e 0 16 = e.toNat % 2 ^ 16 := by rw [field, Nat.pow_zero, Nat.div_one]
  have hhigh : field e 16 16 = e.toNat / 2 ^ 16 % 2 ^ 16 := rfl
  rw [hlow, hhigh]
  by_cases h : e.toNat / 2 ^ 16 % 2 ^ 16 = e.toNat % 2 ^ 16
  · rw [if_pos h.symm, if_pos h, h]
    refine congrArg (fun a => some (slot, some a)) (BitVec.eq_of_toNat_eq ?_)
    rw [BitVec.toNat_ofNat, BitVec.toNat_ofNat, Nat.mod_mod]
  · rw [if_neg fun h' => h h'.symm, if_neg h]

/-- Table 4 and the entry let in a command of a job slot; a job is no core in user mode (R371). -/
theorem jobAdmits_iff (s : State) (c : RemoteCmd) (slot : Nat) (asid : BitVec 16) (i : Instr) :
    (s.capTable c.cluster (masterJob slot) asid c.user && (s.cap c.cluster c.cidx).admits i c.secret) = true ↔
      admits (s.access (c.cluster / 24) 4 (1984 + slot)) false true false asid = true ∧
        (s.cap c.cluster c.cidx).valid = true ∧ (s.cap c.cluster c.cidx).secret = c.secret ∧
          (s.cap c.cluster c.cidx).rights.getLsbD (Instr.rightBit i) = true := by
  have hjob : decide (masterJob slot < 1568) = false := decide_eq_false (by unfold masterJob; omega)
  rw [Bool.and_eq_true, Cap.admits_iff, State.capTable, hjob, Bool.and_false, dieOfCluster, masterJob]

theorem run_admitRemote_drops {c : RemoteCmd} {slot : Nat} {asid : BitVec 16} {i : Instr} {σ : At s0}
    (h : ¬ (σ.val.capTable c.cluster (masterJob slot) asid c.user && (σ.val.cap c.cluster c.cidx).admits i c.secret) = true) :
    admitRemote c slot asid i σ = .ok () σ := by
  unfold admitRemote
  rw [run_bind_ok (run_st σ)]
  exact congrFun (if_neg h) σ

/-- Between two states an engine of the device has admitted a command of another. -/
def State.AdmitsRemote (s : State) (c : RemoteCmd) (x : FCmd) (t : State) : Prop :=
  t =
    { s with
      seq := t.seq, oracle := t.oracle, farAcq := t.farAcq, eop := t.eop
      frescos := TMap.put s.frescos c.cluster ((s.fresco c.cluster).enqueue x) }

theorem run_admitRemote {c : RemoteCmd} {slot : Nat} {asid : BitVec 16} {i : Instr} {σ : At s0} (hcl : c.cluster < 192)
    (hrow : Instr.rowSource i ≠ some true)
    (h : (σ.val.capTable c.cluster (masterJob slot) asid c.user && (σ.val.cap c.cluster c.cidx).admits i c.secret) = true) :
    ∃ τ n k rm, admitRemote c slot asid i σ = .ok () τ ∧
      σ.val.AdmitsRemote c
        (plainCmd n i c.xa c.xb (σ.val.cap c.cluster c.cidx).asid { remoteIssuer c with seq := k } rm) τ.val := by
  let ρ := (σ.upd .choose).upd .nextSeq
  have hchoose : choose 5 σ = .ok (Config.pick σ.val.oracle % 5) (σ.upd .choose) := rfl
  have hseq : freshSeq (σ.upd .choose) = .ok σ.val.seq ρ := rfl
  let rm := BitVec.ofNat 3 (Config.pick σ.val.oracle % 5 + 1)
  let b : Issuer := { remoteIssuer c with seq := σ.val.seq }
  unfold admitRemote
  rw [run_bind_ok (run_st σ)]
  dsimp only
  rw [if_pos h, run_bind_ok hchoose, run_bind_ok hseq]
  cases hsig : c.sig with
  | none =>
    obtain ⟨τ, hτ, eτ⟩ := run_acceptCmd (xa := c.xa) (xb := c.xb) (asid := (σ.val.cap c.cluster c.cidx).asid) (b := b)
      (rm := rm) hcl hrow ρ
    exact ⟨τ, _, _, _, hτ, by rw [State.AdmitsRemote, eτ]; rfl⟩
  | some g =>
    obtain ⟨υ, hυ, eυ⟩ := run_engineAcquire (25088 + c.cluster) g.scope ρ
    obtain ⟨τ, hτ, eτ⟩ := run_acceptCmd (xa := c.xa) (xb := c.xb) (asid := (σ.val.cap c.cluster c.cidx).asid) (b := b)
      (rm := rm) hcl hrow υ
    exact ⟨τ, _, _, _, (run_bind_ok hυ).trans hτ, by rw [State.AdmitsRemote, eτ, eυ]; rfl⟩

section

variable {c : RemoteCmd} {s : State} {i : Instr} {p : XReg × XReg × Target × Sync} {slot : Nat}

variable (hcl : c.cluster < 192) (hdie : c.die < 8) (hdec : decode c.base (some (remoteEng c)) = .ok i)
  (hcmd : Expected.engineCommand i = some p)

include hcl hdie hdec hcmd

/-- The job's entry names several address spaces. -/
theorem exec_remote_spread (hspace : s.jobSpace c.die c.job = some (slot, none)) :
    exec (.remoteCommandAdmission c) s = .next s := by
  have hbody := run_remoteCommandAdmissionBody (s0 := s) hcl hdie hdec hcmd ⟨s, .refl⟩
  dsimp only at hbody
  rw [hspace] at hbody
  exact run_ok hbody

theorem exec_remote_dropped {asid : BitVec 16} (hspace : s.jobSpace c.die c.job = some (slot, some asid))
    (h : ¬ (s.capTable c.cluster (masterJob slot) asid c.user && (s.cap c.cluster c.cidx).admits i c.secret) = true) :
    exec (.remoteCommandAdmission c) s = .next s := by
  have hbody := run_remoteCommandAdmissionBody (s0 := s) hcl hdie hdec hcmd ⟨s, .refl⟩
  dsimp only at hbody
  rw [hspace] at hbody
  exact run_ok (hbody.trans (run_admitRemote_drops (σ := ⟨s, .refl⟩) h))

theorem exec_remote_admitted {asid : BitVec 16} (hrow : Instr.rowSource i ≠ some true)
    (hspace : s.jobSpace c.die c.job = some (slot, some asid))
    (h : (s.capTable c.cluster (masterJob slot) asid c.user && (s.cap c.cluster c.cidx).admits i c.secret) = true) :
    ∃ t n k rm, exec (.remoteCommandAdmission c) s = .next t ∧
      s.AdmitsRemote c (plainCmd n i c.xa c.xb (s.cap c.cluster c.cidx).asid { remoteIssuer c with seq := k } rm) t := by
  have hbody := run_remoteCommandAdmissionBody (s0 := s) hcl hdie hdec hcmd ⟨s, .refl⟩
  dsimp only at hbody
  rw [hspace] at hbody
  obtain ⟨τ, n, k, rm, hτ, hadm⟩ := run_admitRemote (σ := ⟨s, .refl⟩) hcl hrow h
  exact ⟨τ.val, n, k, rm, run_ok (hbody.trans hτ), hadm⟩

end

/-- Settles O36, by the start of a command, the completion of MPROG, and the admission by the job's address space. -/
theorem matrixEngineEvents : Obligations.MatrixEngineEvents := by
  unfold Obligations.MatrixEngineEvents
  refine ⟨fun cl seq s c hc hnew hfree => exec_start hc hnew hfree,
    fun cl seq s c a b n tg sy hcl hc hstarted hi hsig hgood => exec_mprog_complete hcl hc hstarted hi hsig hgood, ?_⟩
  intro c s i p slot hcl hdie hdec hcmd hrow mapped hslot hmap hfirst
  have hspace := jobSpace_eq hslot hmap hfirst
  by_cases hone : (s.access c.die 0 (1984 + slot)).toNat / 2 ^ 16 % 2 ^ 16 = (s.access c.die 0 (1984 + slot)).toNat % 2 ^ 16
  · rw [if_pos hone] at hspace
    refine ⟨fun hno => exec_remote_dropped hcl hdie hdec hcmd hspace fun h => hno ⟨hone, ?_⟩, fun ⟨_, hok⟩ => ?_⟩
    · exact (jobAdmits_iff s c slot _ i).1 h
    · obtain ⟨t, n, k, rm, ht, hadm⟩ := exec_remote_admitted hcl hdie hdec hcmd hrow hspace ((jobAdmits_iff s c slot _ i).2 hok)
      exact ⟨t, _, ht, hadm, ⟨rfl, rfl⟩, rfl, rfl, rfl, rfl, rfl⟩
  · rw [if_neg hone] at hspace
    exact ⟨fun _ => exec_remote_spread hcl hdie hdec hcmd hspace, fun ⟨h, _⟩ => absurd h hone⟩

end Sys2Proof.Machine
end

section
/-! A multiply of clean plane rows in skip mode (R242, R243): which words of its tile it writes, and what. -/

namespace Sys2Proof.Machine

variable {s0 : State}

/-! ### The words of a tile -/

/-- A row of words enters a tile. -/
def setRow (t : Nat) (m : TMap (BitVec 32)) (p : Nat × List (BitVec 32)) : TMap (BitVec 32) :=
  p.2.zipIdx.foldl (fun m x => TMap.set 0 m (tileKey t p.1 x.2) x.1) m

/-- Words that stand one behind the other. -/
theorem get_setWords (base : Nat) (ws : List (BitVec 32)) : ∀ (k : Nat) (m : TMap (BitVec 32)) (j : Nat),
    TMap.get 0 ((ws.zipIdx k).foldl (fun m x => TMap.set 0 m (base + x.2) x.1) m) j =
      if base + k ≤ j ∧ j < base + k + ws.length then ws.getD (j - (base + k)) 0 else TMap.get 0 m j := by
  induction ws with
  | nil => exact fun k m j => by rw [List.length_nil, if_neg (by omega)]; rfl
  | cons w ws ih =>
    intro k m j
    rw [List.zipIdx_cons, List.foldl_cons, ih, TMap.get_set, List.length_cons]
    by_cases heq : j = base + k
    · rw [if_neg (by omega), if_pos heq, if_pos (by omega), heq, Nat.sub_self, List.getD_cons_zero]
    · by_cases hin : base + (k + 1) ≤ j ∧ j < base + (k + 1) + ws.length
      · rw [if_pos hin, if_pos (by omega), show j - (base + k) = (j - (base + (k + 1))) + 1 by omega, List.getD_cons_succ]
      · rw [if_neg hin, if_neg heq, if_neg (by omega)]

theorem get_setRow {t t' i0 i k : Nat} {ws : List (BitVec 32)} (hlen : ws.length = 256) (hi0 : i0 < 64) (hi : i < 64)
    (hk : k < 256) (m : TMap (BitVec 32)) :
    TMap.get 0 (setRow t m (i0, ws)) (tileKey t' i k) =
      if t' = t ∧ i = i0 then ws.getD k 0 else TMap.get 0 m (tileKey t' i k) := by
  refine (get_setWords (tileKey t i0 0) ws 0 m _).trans ?_
  rw [hlen]
  by_cases h : t' = t ∧ i = i0
  · obtain ⟨rfl, rfl⟩ := h
    rw [if_pos (by unfold tileKey; omega), if_pos ⟨rfl, rfl⟩, show tileKey t' i k - (tileKey t' i 0 + 0) = k by
      unfold tileKey; omega]
  · rw [if_neg (by unfold tileKey; omega), if_neg h]

/-- Rows of a tile, by number: those that are given are written, and the others stay. -/
theorem get_setRows {t t' i k n : Nat} {g : Nat → Option (List (BitVec 32))} (hlen : ∀ j ws, g j = some ws → ws.length = 256)
    (hn : n ≤ 64) (hi : i < 64) (hk : k < 256) (m : TMap (BitVec 32)) :
    TMap.get 0 (((List.range n).filterMap fun j => (g j).map fun ws => (j, ws)).foldl (setRow t) m) (tileKey t' i k) =
      if t' = t ∧ i < n then ((g i).map fun ws => ws.getD k 0).getD (TMap.get 0 m (tileKey t' i k))
      else TMap.get 0 m (tileKey t' i k) := by
  induction n with
  | zero => rw [if_neg (by omega)]; rfl
  | succ n ih =>
    have ih := ih (by omega)
    rw [List.range_succ, List.filterMap_append, List.foldl_append]
    cases hg : g n with
    | none =>
      simp only [List.filterMap_cons, List.filterMap_nil, hg, Option.map_none, List.foldl_nil]
      rw [ih]
      by_cases hlast : t' = t ∧ i = n
      · rw [if_neg (by omega), if_pos (by omega), hlast.2, hg]
        rfl
      · exact if_congr (by omega) rfl rfl
    | some ws =>
      simp only [List.filterMap_cons, List.filterMap_nil, hg, Option.map_some, List.foldl_cons, List.foldl_nil]
      rw [get_setRow (hlen n ws hg) (by omega) hi hk, ih]
      by_cases hlast : t' = t ∧ i = n
      · rw [if_pos hlast, if_pos (by omega), hlast.2, hg]
        rfl
      · rw [if_neg hlast]
        exact if_congr (by omega) rfl rfl

/-! ### One row -/

theorem rowOf_length (f : Nat → BitVec 32 × Flags) : (rowOf f).1.length = 256 := by simp [rowOf]

theorem rowOf_getD (f : Nat → BitVec 32 × Flags) {k : Nat} (hk : k < 256) : (rowOf f).1.getD k 0 = (f k).1 := by
  simp [rowOf, List.getD_eq_getElem?_getD, hk]

theorem mmulRow_length {s : State} {cl at_ i : Nat} {a : MmulArgs} {fate : RowFate} {r : List (BitVec 32) × Flags}
    (h : mmulRow s cl at_ a i fate = some r) : r.1.length = 256 := by
  cases fate with
  | invalid => cases h
  | miss => cases h; exact rowOf_length _
  | hit b => cases h; exact rowOf_length _

/-- The words that a row of the multiply leaves, by its tag byte (R242, R243). -/
theorem mmulRow_word {s : State} {cl at_ i k tag : Nat} {a : MmulArgs} {valids : List Bool} {old : BitVec 32} (hk : k < 256)
    (hprog : (s.fresco cl).prog.count = 0) :
    ((mmulRow s cl at_ a i (rowFate tag a.bmask valids)).map fun r => r.1.getD k 0).getD old =
      if tag < 128 then old
      else if a.bmask.getLsbD (tag % 4) = true ∧ valids.getD (tag % 4) false = true then
        (column a.int (if a.zero then 0 else (s.fresco cl).tileWord a.tile i k)
          (rowElems a.afmt (if a.prec = 0 then planeS a.afmt else a.prec) (s.planeRow cl at_ a.afmt i))
          (((s.fresco cl).bank (tag % 4)).column k)).1
      else (missWord a.int (if a.zero then 0 else (s.fresco cl).tileWord a.tile i k)).1 := by
  unfold rowFate
  by_cases htag : tag < 128
  · rw [if_pos htag, if_pos htag]
    rfl
  · rw [if_neg htag, if_neg htag]
    by_cases hhit : a.bmask.getLsbD (tag % 4) = true ∧ valids.getD (tag % 4) false = true
    · rw [if_pos (Bool.and_eq_true_iff.2 hhit), if_pos hhit]
      simp only [mmulRow, Option.map_some, Option.getD_some, rowOf_getD _ hk, if_pos hprog]
    · rw [if_neg (fun h => hhit (Bool.and_eq_true_iff.1 h)), if_neg hhit]
      simp only [mmulRow, Option.map_some, Option.getD_some, rowOf_getD _ hk]

/-! ### The effect -/

/-- The words of row i of a multiply, where it writes them. -/
def mmulWords (s : State) (cl : Nat) (c : FCmd) (a : MmulArgs) (i : Nat) : Option (List (BitVec 32)) :=
  (mmulRow s cl c.xa.toNat a i (rowFate (s.tagByte cl c.xa.toNat i) a.bmask c.valids)).map (·.1)

/-- The rows that a multiply writes, by number, of the first `n`. -/
def mmulRows (s : State) (cl : Nat) (c : FCmd) (a : MmulArgs) (n : Nat) : List (Nat × List (BitVec 32)) :=
  (List.range n).filterMap fun i => (mmulWords s cl c a i).map fun ws => (i, ws)

theorem mmulRows_eq (s : State) (cl : Nat) (c : FCmd) (a : MmulArgs) (n : Nat) :
    ((((List.range n).map fun i => (i, rowFate (s.tagByte cl c.xa.toNat i) a.bmask c.valids)).filterMap fun p =>
      (mmulRow s cl c.xa.toNat a p.1 p.2).map fun r => (p.1, r)).map fun r => (r.1, r.2.1)) = mmulRows s cl c a n := by
  rw [List.filterMap_map, List.map_filterMap]
  refine congrArg (fun f => (List.range n).filterMap f) (funext fun i => ?_)
  simp only [Function.comp_apply, mmulWords, Option.map_map]
  rfl

/-- The engine with rows of a tile written. -/
def Fresco.writeRows (f : Fresco) (t : Nat) (rows : List (Nat × List (BitVec 32))) : Fresco :=
  { f with tiles := rows.foldl (setRow t) f.tiles }

/-- The engine with a tile's status words. -/
def Fresco.setStatus (f : Fresco) (t : Nat) (w : Word × Word) : Fresco := { f with status := TMap.put f.status t w }

theorem run_writeTile (cl t : Nat) (rows : List (Nat × List (BitVec 32))) (σ : At s0) :
    writeTile cl t rows σ = .ok () (σ.upd (.fresco cl ((σ.val.fresco cl).writeRows t rows))) := rfl

theorem run_writeStatus (cl t op : Nat) (cause : FCause) (rows : Nat) (shape : Bool) (fl : Flags) (miss : Word) (σ : At s0) :
    ∃ w, writeStatus cl t op cause rows shape fl miss σ = .ok () (σ.upd (.fresco cl ((σ.val.fresco cl).setStatus t w))) :=
  ⟨_, rfl⟩

/-- No row that takes part is poisoned where none is. -/
theorem any_rows_false {l : List (Nat × RowFate)} {g : Nat × RowFate → Option (Nat × Nat)} {f : Nat → Bool}
    (hg : ∀ p q, g p = some q → q.1 = p.1) (hf : ∀ p ∈ l, f p.1 = false) :
    ((l.filterMap g).any fun p => f p.1) = false := by
  refine List.any_eq_false.2 fun q hq => ?_
  obtain ⟨p, hp, hpq⟩ := List.mem_filterMap.1 hq
  rw [hg p q hpq, hf p hp]
  exact Bool.false_ne_true

/-- A multiply in skip mode of clean plane rows writes the rows that are valid, and its tile's status. -/
theorem run_mmulEffect {cl req bound : Nat} {c : FCmd} {a : MmulArgs} {σ : At s0} (hskip : a.skipMode = true)
    (hint : a.int = false) (hin : c.xa.toNat + min req bound * rowBytes a.afmt ≤ planeSize)
    (hclean : ∀ i < min req bound, σ.val.planePoisoned cl (c.xa.toNat - 64 + i) = false ∧
      σ.val.rowPoisoned cl c.xa.toNat a.afmt i = false) :
    ∃ τ w, mmulEffect cl c a req bound σ = .ok () τ ∧
      τ.val = (Upd.fresco cl
        (((σ.val.fresco cl).writeRows a.tile (mmulRows σ.val cl c a (min req bound))).setStatus a.tile w)).apply σ.val := by
  have hpass : ¬ passesPlane c.xa.toNat (min req bound * rowBytes a.afmt) = true := by
    unfold passesPlane
    rw [decide_eq_true_iff]
    omega
  have htags : ((List.range (min req bound)).any fun i => σ.val.planePoisoned cl (c.xa.toNat - 64 + i)) = false :=
    List.any_eq_false.2 fun i hi => by
      rw [(hclean i (List.mem_range.1 hi)).1]
      exact Bool.false_ne_true
  have hpick : pickCause [] σ = .ok none σ := rfl
  unfold mmulEffect
  rw [run_bind_ok (run_st σ)]
  dsimp only
  rw [if_neg hpass, hskip, hint, htags, any_rows_false]
  · simp only [Bool.not_true, Bool.and_false, Bool.false_and, Bool.or_self, Bool.false_eq_true, if_false, List.append_nil]
    rw [run_bind_ok hpick, mmulRows_eq]
    dsimp only
    rw [run_bind_ok (run_writeTile _ _ _ σ)]
    obtain ⟨w, hw⟩ := run_writeStatus (s0 := s0) cl a.tile 0xA1 .none (min req bound) (decide (bound < req)) _ _ _
    refine ⟨_, w, hw, ?_⟩
    rw [At.upd_val, At.upd_val, upd_fresco_fresco, fresco_upd_same]
  · rintro ⟨i, fate⟩ q hq
    cases fate <;> cases hq
    rfl
  · intro p hp
    obtain ⟨i, hi, rfl⟩ := List.mem_map.1 hp
    exact (hclean i (List.mem_range.1 hi)).2

/-- The operands of a multiply, by its fields. -/
def mmulArgs (t : TReg) (zero skip int : Bool) (afmt prec bmask : BitVec 4) : MmulArgs :=
  { tile := t.toNat, zero := zero, skipMode := skip, int := int, afmt := afmt.toNat, prec := prec.toNat, bmask := bmask }

theorem exec_mmul_complete {cl seq req bound : Nat} {s : State} {c : FCmd} {t : TReg} {a b : XReg} {shp zero : Bool}
    {afmt prec bmask : BitVec 4} {tg : Target} {sy : Sync} (hcl : cl < 192)
    (hc : (s.fresco cl).cmds.find? (fun c => c.seq == seq) = some c) (hstarted : c.started = true)
    (hi : c.instr = .mmul t a b shp zero true false afmt prec bmask tg sy) (hsig : c.by_.sig = none)
    (hrows : c.rows = .ok (req, bound)) (hin : c.xa.toNat + min req bound * rowBytes afmt.toNat ≤ planeSize)
    (hclean : ∀ i < min req bound, s.planePoisoned cl (c.xa.toNat - 64 + i) = false ∧
      s.rowPoisoned cl c.xa.toNat afmt.toNat i = false) :
    ∃ u w, exec (.frescoCommandComplete cl seq) s = .next u ∧ u = { s with frescos := u.frescos, eop := u.eop } ∧
      u.fresco cl =
        (((s.fresco cl).writeRows t.toNat
          (mmulRows s cl c (mmulArgs t zero true false afmt prec bmask) (min req bound))).setStatus t.toNat w).dequeue seq := by
  let σ : At s := At.upd ⟨s, .refl⟩ (.eop c.by_.agent c.by_.seq)
  have hrecord : c.record = none := by unfold FCmd.record; rw [hi]
  obtain ⟨τ, w, hτ, eτ⟩ := run_mmulEffect (cl := cl) (c := c) (a := mmulArgs t zero true false afmt prec bmask) (σ := σ) rfl rfl
    hin hclean
  have heffect : commandEffect cl c σ = .ok () τ := by
    unfold commandEffect
    rw [hi, hrows]
    exact hτ
  have hstep := exec_complete hcl hc hstarted hsig (run_mstatEffect_none hrecord σ) heffect
  rw [eτ, fresco_upd_same, upd_fresco_fresco] at hstep
  exact ⟨_, w, hstep, rfl, fresco_upd_same _ _ _⟩

/-- The words of the tile after a multiply of at most 64 rows. -/
theorem tileWord_mmulRows {s : State} {cl n t' i k : Nat} {c : FCmd} {a : MmulArgs} (hn : n ≤ 64) (hi : i < 64) (hk : k < 256)
    (hprog : (s.fresco cl).prog.count = 0) :
    ((s.fresco cl).writeRows a.tile (mmulRows s cl c a n)).tileWord t' i k =
      if t' = a.tile ∧ i < n then
        if s.tagByte cl c.xa.toNat i < 128 then (s.fresco cl).tileWord t' i k
        else if a.bmask.getLsbD (s.tagByte cl c.xa.toNat i % 4) = true ∧
            c.valids.getD (s.tagByte cl c.xa.toNat i % 4) false = true then
          (column a.int (if a.zero then 0 else (s.fresco cl).tileWord t' i k)
            (rowElems a.afmt (if a.prec = 0 then planeS a.afmt else a.prec) (s.planeRow cl c.xa.toNat a.afmt i))
            (((s.fresco cl).bank (s.tagByte cl c.xa.toNat i % 4)).column k)).1
        else (missWord a.int (if a.zero then 0 else (s.fresco cl).tileWord t' i k)).1
      else (s.fresco cl).tileWord t' i k := by
  have hlen : ∀ j ws, mmulWords s cl c a j = some ws → ws.length = 256 := by
    intro j ws h
    obtain ⟨r, hr, rfl⟩ := Option.map_eq_some_iff.1 h
    exact mmulRow_length hr
  refine (get_setRows hlen hn hi hk (s.fresco cl).tiles).trans ?_
  by_cases h : t' = a.tile ∧ i < n
  · obtain ⟨rfl, hin⟩ := h
    rw [if_pos ⟨rfl, hin⟩, if_pos ⟨rfl, hin⟩, mmulWords, Option.map_map]
    exact mmulRow_word hk hprog
  · rw [if_neg h, if_neg h]
    rfl

/-- Settles O37: the completion writes the rows that `mmulRow_word` gives, each at its place in the tile. -/
theorem matrixMultiplyResult : Obligations.MatrixMultiplyResult := by
  unfold Obligations.MatrixMultiplyResult
  intro cl seq s c t a b shp zero afmt prec bmask tg sy req bound
  dsimp only
  intro hcl hc hstarted hi hsig hrows hbound hprog hin hclean
  obtain ⟨u, w, hstep, hframe, hengine⟩ := exec_mmul_complete hcl hc hstarted hi hsig hrows hin hclean
  refine ⟨u, hstep, by rw [hframe], by rw [hengine]; rfl, by rw [hengine]; rfl, fun t' _ i hi64 k hk => ?_⟩
  have hprec : (if prec = 0 then planeS afmt.toNat else prec.toNat) = if prec.toNat = 0 then planeS afmt.toNat else prec.toNat :=
    if_congr ⟨fun h => by rw [h]; rfl, fun h => BitVec.eq_of_toNat_eq h⟩ rfl rfl
  rw [hprec, hengine]
  exact tileWord_mmulRows (a := mmulArgs t zero true false afmt prec bmask) (by omega) hi64 hk hprog

end Sys2Proof.Machine
end

section
/-! The commands of the Stencil unit (R261, R262, R267, R274, R275, R491 to R493): XSET, XGO, and the requests that name a
transfer. -/

namespace Sys2Proof.Machine

variable {s0 : State}

/-! ### The entries of a unit -/

/-- A unit with a transfer in an entry. -/
def Stencil.withEntry (u : Stencil) (e : Nat) (x : Xfer) : Stencil := { u with entries := TMap.put u.entries e x }

theorem find_withEntry (u : Stencil) (e : Nat) (x : Xfer) : TMap.find (u.withEntry e x).entries e = some x :=
  TMap.find_put_same _ _ _

theorem stencil_upd_same (s : State) (n : Nat) (u : Stencil) : ((Upd.stencil n u).apply s).stencil n = u :=
  TMap.get_put_same _ _ _ _

theorem run_modXfer {cl e : Nat} {x : Xfer} {σ : At s0} (h : TMap.find (σ.val.stencil cl).entries e = some x)
    (f : Xfer → Xfer) :
    modXfer cl e f σ = .ok () (σ.upd (.stencil cl ((σ.val.stencil cl).withEntry e (f x)))) := by
  unfold modXfer
  rw [run_bind_ok (run_st σ), h]
  rfl

/-- What a request finds stands in the entry that its operand names. -/
theorem find_of_findXfer {s : State} {id : Word} {cl e : Nat} {x : Xfer} (h : s.findXfer id = .some cl e x) :
    TMap.find (s.stencil cl).entries e = some x := by
  unfold State.findXfer at h
  dsimp only at h
  split at h
  · cases h
  · split at h
    · cases h
    · next hfind =>
      split at h
      · cases h
      · split at h <;> cases h
        exact hfind

/-! ### XSET -/

theorem exec_xset {fn : BitVec 6} {a : XReg} {sy : Sync} {s : State} (hq : s.Quiet sy) (hc : coreOf s.cur < 1536) :
    exec (.xset fn a sy) s =
      .next (s.goOn sy
        { s.regs with shadow := TMap.put s.regs.shadow fn.toNat (shadowKeep fn.toNat (s.regs.getX a)) }) := by
  have hbody : (do
      let c ← myCtx
      modMe fun x => x.modR fun r => { r with shadow := TMap.put r.shadow fn.toNat (shadowKeep fn.toNat (c.r.getX a)) }
      return .next : M s Fin) ⟨s, .refl⟩ =
    .ok .next (At.upd ⟨s, .refl⟩ (.ctx s.cur ((s.ctx s.cur).modR fun r =>
      { r with shadow := TMap.put r.shadow fn.toNat (shadowKeep fn.toNat (s.regs.getX a)) }))) := rfl
  show execXset fn a sy s = _
  rw [execXset, strandStep_regs hq (run_onEasel_false (σ := ⟨s, .refl⟩) hc) hbody rfl rfl]
  rfl

/-! ### XSTAT, XRESUME and XCANCEL -/

/-- The word that XSTAT gives of what it finds (R274). -/
def XFound.word : XFound → Word
  | .some _ _ x => x.word
  | _ => 0

/-- The transfer as XRESUME leaves it, or the status of one that it leaves alone (R274). -/
def Xfer.resumed (x : Xfer) : Except Word Xfer :=
  match x.st with
  | .suspended => .ok { x with st := .running, cause := 0 }
  | _ => .error 1

/-- The same of XCANCEL. -/
def Xfer.cancelled (x : Xfer) : Except Word Xfer :=
  match x.st with
  | .suspended => .ok { x with st := .done, cause := 8 }
  | .running => .ok { x with cancel := true }
  | .done => .error 1

section

variable {x : Xfer}

theorem resumed_suspended (h : x.st = .suspended) : x.resumed = .ok { x with st := .running, cause := 0 } := by
  rw [Xfer.resumed, h]

theorem resumed_idle (h : x.st ≠ .suspended) : x.resumed = .error 1 := by
  unfold Xfer.resumed
  split
  · next hst => exact absurd hst h
  · rfl

theorem cancelled_suspended (h : x.st = .suspended) : x.cancelled = .ok { x with st := .done, cause := 8 } := by
  rw [Xfer.cancelled, h]

theorem cancelled_running (h : x.st = .running) : x.cancelled = .ok { x with cancel := true } := by
  rw [Xfer.cancelled, h]

theorem cancelled_done (h : x.st = .done) : x.cancelled = .error 1 := by
  rw [Xfer.cancelled, h]

end

/-- What a request comes to that does `f` to a transfer: an entry's new transfer, or a status (R492, R493). -/
def XFound.ask (f : Xfer → Except Word Xfer) : XFound → Except Word (Nat × Nat × Xfer)
  | .refused => .error 3
  | .none => .error 2
  | .some cl e x => (f x).map fun y => (cl, e, y)

/-- The strand goes on with the answer to its request, which has changed a transfer where the answer is 0. -/
def State.answered (s : State) (sy : Sync) (d : XReg) : Except Word (Nat × Nat × Xfer) → State
  | .error v => s.goOn sy (s.regs.setX d v)
  | .ok (cl, e, y) => ((Upd.stencil cl ((s.stencil cl).withEntry e y)).apply s).goOn sy (s.regs.setX d 0)

/-- A body that gives the answer. -/
def answerBody (d : XReg) : Except Word (Nat × Nat × Xfer) → M s0 Fin
  | .error v => do
    writeX d v
    return .next
  | .ok (cl, e, y) => do
    modXfer cl e fun _ => y
    writeX d 0
    return .next

theorem run_answerBody_ok {d : XReg} {cl e : Nat} {x y : Xfer} {σ : At s0}
    (hx : TMap.find (σ.val.stencil cl).entries e = some x) :
    answerBody d (.ok (cl, e, y)) σ =
      (do writeX d 0; return .next : M s0 Fin) (σ.upd (.stencil cl ((σ.val.stencil cl).withEntry e y))) :=
  run_bind_ok (run_modXfer hx fun _ => y)

/-- The transfer of an answer stands in its entry. -/
def State.Names (s : State) : Except Word (Nat × Nat × Xfer) → Prop
  | .error _ => True
  | .ok (cl, e, _) => ∃ x, TMap.find (s.stencil cl).entries e = some x

theorem names_ask (s : State) (id : Word) (f : Xfer → Except Word Xfer) : s.Names ((s.findXfer id).ask f) := by
  cases h : s.findXfer id with
  | refused => trivial
  | none => trivial
  | some cl e x =>
    rw [XFound.ask]
    cases f x with
    | error v => trivial
    | ok y => exact ⟨x, find_of_findXfer h⟩

theorem strandStep_answered {s : State} {sy : Sync} {d : XReg} {body : M s Fin} {r : Except Word (Nat × Nat × Xfer)}
    (hq : s.Quiet sy) (hr : s.Names r) (h : body ⟨s, .refl⟩ = answerBody d r ⟨s, .refl⟩) :
    strandStep s sy false false (pure ()) body = .next (s.answered sy d r) := by
  cases r with
  | error v =>
    rw [strandStep_regs (r := s.regs.setX d v) hq (run_pure _ _) h rfl rfl]
    exact congrArg _ (goOn_def s sy _ (setX_pc _ _ _))
  | ok p =>
    obtain ⟨cl, e, y⟩ := p
    obtain ⟨x, hx⟩ := hr
    let ρ : At s := At.upd ⟨s, .refl⟩ (.stencil cl ((s.stencil cl).withEntry e y))
    have hbody : body ⟨s, .refl⟩ = .ok .next (ρ.upd (.ctx s.cur ((s.ctx s.cur).setX d 0))) :=
      h.trans (run_answerBody_ok (σ := ⟨s, .refl⟩) hx)
    have hheld : ρ.val.Holding (s.regs.setX d 0) (ρ.upd (.ctx s.cur ((s.ctx s.cur).setX d 0))).val :=
      (State.Holding.refl ρ.val).write _
    rw [strandStep_plain hq (run_pure _ _) hbody rfl rfl rfl rfl (by rw [At.upd_val, ctx_upd_same]; rfl)]
    exact congrArg _ (hheld.goOn sy (setX_pc _ _ _))

theorem run_xresumeBody (d a : XReg) (σ : At s0) :
    xresumeBody d a σ = answerBody d ((σ.val.findXfer (σ.val.regs.getX a)).ask Xfer.resumed) σ := by
  unfold xresumeBody
  rw [run_bind_ok (run_st σ), ← State.regs]
  cases h : σ.val.findXfer (σ.val.regs.getX a) with
  | refused => rfl
  | none => rfl
  | some cl e x =>
    have hx := find_of_findXfer h
    dsimp only
    by_cases hst : x.st = .suspended
    · rw [hst, XFound.ask, resumed_suspended hst]
      exact (run_bind_ok (run_modXfer hx _)).trans (run_answerBody_ok hx).symm
    · rw [beq_false_of_ne hst, XFound.ask, resumed_idle hst]
      rfl

theorem run_xcancelBody (d a : XReg) (σ : At s0) :
    xcancelBody d a σ = answerBody d ((σ.val.findXfer (σ.val.regs.getX a)).ask Xfer.cancelled) σ := by
  unfold xcancelBody
  rw [run_bind_ok (run_st σ), ← State.regs]
  cases h : σ.val.findXfer (σ.val.regs.getX a) with
  | refused => rfl
  | none => rfl
  | some cl e x =>
    have hx := find_of_findXfer h
    dsimp only
    cases hst : x.st with
    | done =>
      rw [XFound.ask, cancelled_done hst]
      rfl
    | suspended =>
      rw [XFound.ask, cancelled_suspended hst]
      exact (run_bind_ok (run_modXfer hx _)).trans (run_answerBody_ok hx).symm
    | running =>
      rw [XFound.ask, cancelled_running hst]
      exact (run_bind_ok (run_modXfer hx _)).trans (run_answerBody_ok hx).symm

section

variable {s : State} {sy : Sync} {d a : XReg} (hq : s.Quiet sy)

include hq

theorem exec_xstat : exec (.xstat d a sy) s = .next (s.goOn sy (s.regs.setX d (s.findXfer (s.regs.getX a)).word)) :=
  strandStep_answered (r := .error _) hq trivial rfl

theorem exec_xresume :
    exec (.xresume d a sy) s = .next (s.answered sy d ((s.findXfer (s.regs.getX a)).ask Xfer.resumed)) :=
  strandStep_answered hq (names_ask s _ _) (run_xresumeBody d a _)

theorem exec_xcancel :
    exec (.xcancel d a sy) s = .next (s.answered sy d ((s.findXfer (s.regs.getX a)).ask Xfer.cancelled)) :=
  strandStep_answered hq (names_ask s _ _) (run_xcancelBody d a _)

end

/-! ### XGO -/

/-- The transfer that XGO starts with the strand's registers (R261, R275). -/
def State.startedXfer (s : State) (sc : Scope) (seq : BitVec 32) : Xfer where
  st := .running
  seq := seq
  ctl := s.regs.shadow
  by_ := Expected.issuerOf s sc
  lsbase := s.regs.lsbase
  lslim := s.regs.lslim
  cursor := 0
  faults := 0
  cause := 0
  flags := 0
  cancel := false

/-- The unit with the transfer in a free entry, and its next number. -/
def Stencil.started (u : Stencil) (e : Nat) (x : Xfer) : Stencil where
  seq := if u.seq = BitVec.allOnes 32 then 1 else u.seq + 1
  entries := TMap.put u.entries e x

theorem nextXferSeq_eq (q : BitVec 32) : nextXferSeq q = if q = BitVec.allOnes 32 then 1 else q + 1 := by
  have hlast : q + 1 = 0 ↔ q = BitVec.allOnes 32 := by
    rw [show BitVec.allOnes 32 = 0xFFFFFFFF from rfl]
    bv_omega
  exact if_congr hlast rfl rfl

/-- The body with a free entry and valid registers, whose transfer has units to move. -/
theorem run_xgoBody {d : XReg} {sy : Sync} {e : Nat} {ρ : At s0} (hs : sy.sig = none)
    (he : (ρ.val.stencil (coreOf ρ.val.cur / 8)).freeEntry = some e) (hvalid : Ctl.valid ρ.val.regs.shadow = true)
    (hunits : Ctl.units ρ.val.regs.shadow ≠ 0) :
    ∃ (σ w : At s0) (joins : _), xgoBody d sy ρ = .ok .next σ ∧
      w.val =
        { ρ.val with
          seq := ρ.val.seq + 1, joins := joins
          farAcq := Expected.acquired ρ.val (25280 + coreOf ρ.val.cur / 8) sy.scope
          stencils := TMap.put ρ.val.stencils (coreOf ρ.val.cur / 8)
            ((ρ.val.stencil (coreOf ρ.val.cur / 8)).started e
              (ρ.val.startedXfer sy.scope (ρ.val.stencil (coreOf ρ.val.cur / 8)).seq)) } ∧
      σ.val = (Upd.ctx w.val.cur ((w.val.ctx w.val.cur).setX d
        (ρ.val.xferId (coreOf ρ.val.cur / 8) e (ρ.val.stencil (coreOf ρ.val.cur / 8)).seq))).apply w.val := by
  obtain ⟨σ1, joins, h1, e1⟩ := run_issuer hs ρ
  obtain ⟨σ2, h2, e2⟩ := run_engineAcquire (stencilAgent (coreOf ρ.val.cur / 8)) sy.scope σ1
  have hvalid' : Ctl.valid (ρ.val.ctx ρ.val.cur).r.shadow = true := hvalid
  have hunits' : (Ctl.units (ρ.val.ctx ρ.val.cur).r.shadow = 0) = False := eq_false hunits
  let w := σ2.upd (.stencil (coreOf ρ.val.cur / 8) ((ρ.val.stencil (coreOf ρ.val.cur / 8)).started e
    (ρ.val.startedXfer sy.scope (ρ.val.stencil (coreOf ρ.val.cur / 8)).seq)))
  refine ⟨_, w, joins, ?_, by rw [At.upd_val, e2, e1]; rfl, (At.upd_val w _)⟩
  unfold xgoBody
  rw [run_bind_ok (run_st ρ)]
  dsimp only
  rw [clusterOfCore, he]
  dsimp only
  rw [run_bind_ok h1, run_bind_ok h2, nextXferSeq_eq]
  simp only [hvalid', hunits', Bool.not_true, Bool.false_eq_true, if_false]
  rfl

theorem exec_xgo {d : XReg} {sy : Sync} {s : State} {e : Nat} (hq : s.Quiet sy) (hset : Expected.Settled s)
    (hc : coreOf s.cur < 1536) (he : (s.stencil (coreOf s.cur / 8)).freeEntry = some e)
    (hvalid : Ctl.valid s.regs.shadow = true) (hunits : Ctl.units s.regs.shadow ≠ 0) :
    ∃ v t : State, Expected.Carried s v sy.scope ∧
      t =
        { v with
          seq := s.seq + 1, joins := t.joins
          farAcq := Expected.acquired v (25280 + coreOf s.cur / 8) sy.scope
          stencils := TMap.put s.stencils (coreOf s.cur / 8)
            ((s.stencil (coreOf s.cur / 8)).started e (s.startedXfer sy.scope (s.stencil (coreOf s.cur / 8)).seq)) } ∧
      exec (.xgo d sy) s =
        .next (t.goOn sy (s.regs.setX d (s.xferId (coreOf s.cur / 8) e (s.stencil (coreOf s.cur / 8)).seq))) := by
  obtain ⟨hlines, hfar, -⟩ := hset
  obtain ⟨ρ, hrel, hρ⟩ := run_release_at (σ := (⟨s, .refl⟩ : At s)) sy.scope hlines hfar
  dsimp only at hρ
  have hregs : ρ.val.regs = s.regs := by rw [State.regs, hρ.cur, hρ.ctx, State.regs]
  have hstencil : ρ.val.stencil (coreOf s.cur / 8) = s.stencil (coreOf s.cur / 8) := by
    rw [State.stencil, hρ.frame, State.stencil]
  have hid : ρ.val.xferId (coreOf s.cur / 8) e (s.stencil (coreOf s.cur / 8)).seq =
      s.xferId (coreOf s.cur / 8) e (s.stencil (coreOf s.cur / 8)).seq := by
    rw [State.xferId, hρ.sameHomes.nodeId, State.xferId]
  have hxfer (q : BitVec 32) : ρ.val.startedXfer sy.scope q = s.startedXfer sy.scope q := by
    unfold State.startedXfer Expected.issuerOf
    rw [hregs, hρ.cur, hρ.ctx, hρ.frame]
  obtain ⟨σ, w, joins, hbody, ew, eσ⟩ := run_xgoBody (d := d) (e := e) (ρ := ρ) hq.2.1
    (by rw [hρ.cur, hstencil]; exact he) (by rw [hregs]; exact hvalid) (by rw [hregs]; exact hunits)
  rw [hρ.cur, hstencil, hxfer] at ew
  rw [hρ.cur, hstencil, hid] at eσ
  obtain ⟨hsame, hheld⟩ := hρ.relisted (r := w.val) (by rw [ew]) (by rw [ew, hρ.cur]) (by rw [ew]) (by rw [ew])
  have hwritten := hheld.write (s.regs.setX d (s.xferId (coreOf s.cur / 8) e (s.stencil (coreOf s.cur / 8)).seq))
  have hwcur : w.val.cur = s.cur := by rw [ew, hρ.cur]
  have hwctx : w.val.ctx w.val.cur = s.ctx s.cur := by rw [hwcur, State.ctx, ew]; exact hρ.ctx s.cur
  refine ⟨{ ρ.val with ctxs := s.ctxs }, { w.val with ctxs := s.ctxs }, hρ.carried, ?_, ?_⟩
  · rw [ew, hρ.frame]
    rfl
  · refine strandStep_released_next hq (run_onEasel_false (σ := ⟨s, .refl⟩) hc) hrel hbody hsame ?_ (setX_pc _ _ _)
    rw [eσ, hwctx]
    rw [show ({ w.val with ctxs := s.ctxs } : State).cur = w.val.cur from rfl, hwctx] at hwritten
    exact hwritten

/-- Settles O38: XSET and XGO by what they write, the requests by what their operand names. -/
theorem transferCommands : Obligations.TransferCommands := by
  unfold Obligations.TransferCommands
  refine ⟨fun fn d a sy s hq hc => ⟨exec_xset hq hc, fun e hset he hvalid hunits => exec_xgo hq hset hc he hvalid hunits⟩,
    fun d a sy s hq => ?_⟩
  have hstat := exec_xstat (d := d) (a := a) hq
  have hresume := exec_xresume (d := d) (a := a) hq
  have hcancel := exec_xcancel (d := d) (a := a) hq
  cases h : s.findXfer (s.regs.getX a) with
  | refused =>
    rw [h] at hstat hresume hcancel
    exact ⟨hstat, hresume, hcancel⟩
  | none =>
    rw [h] at hstat hresume hcancel
    exact ⟨hstat, hresume, hcancel⟩
  | some cl e x =>
    rw [h] at hstat hresume hcancel
    rw [XFound.ask] at hresume hcancel
    refine ⟨hstat, fun hst => ?_, fun hst => ?_, fun hst => ?_⟩
    · rw [resumed_suspended hst] at hresume
      rw [cancelled_suspended hst] at hcancel
      exact ⟨hresume, hcancel⟩
    · rw [resumed_idle (by rw [hst]; decide)] at hresume
      rw [cancelled_running hst] at hcancel
      exact ⟨hresume, hcancel⟩
    · rw [resumed_idle (by rw [hst]; decide)] at hresume
      rw [cancelled_done hst] at hcancel
      exact ⟨hresume, hcancel⟩

end Sys2Proof.Machine
end

section
/-! The elements of a copy within a local store (R265, R270): their addresses, what a transfer reads of them, and what it
writes. -/

namespace Sys2Proof.Machine

variable {s0 : State}

/-! ### The copy -/

/-- What a transfer that `Expected.LocalCopy` describes has in its registers and its state. -/
structure Xfer.Copies (x : Xfer) (n k : Nat) : Prop where
  running : x.st = .running
  cancel : x.cancel = false
  cursor : x.cursor = 0
  op : x.ctl.op = 0
  srcLocal : x.ctl.srcLocal = true
  dstLocal : x.ctl.dstLocal = true
  esize : x.ctl.esize = k
  count0 : x.ctl.count 0 = n
  count1 : x.ctl.count 1 = 1
  count2 : x.ctl.count 2 = 1
  dcount0 : x.ctl.dcount 0 = n
  dcount1 : x.ctl.dcount 1 = 1
  chunk : x.ctl.chunk = 0
  pos : 0 < n
  stride : x.ctl.stride 0 = wordOf k
  dstride : x.ctl.dstride 0 = wordOf k
  sigref : x.ctl.sigref = 0
  sig : x.by_.sig = none
  user : x.by_.user = false
  launch : x.by_.launch = none
  dstFits : x.ctl.dst.toNat + n * k ≤ lsSize x.core
  apart : x.ctl.src.toNat + n * k ≤ x.ctl.dst.toNat ∨ x.ctl.dst.toNat + n * k ≤ x.ctl.src.toNat

theorem copies_of_localCopy {x : Xfer} {n k : Nat} (h : Expected.LocalCopy x n k) : x.Copies n k := by
  obtain ⟨hst, hcancel, hcursor, hop, hsrc, hdst, hk, hc0, hc1, hc2, hd0, hd1, -, hchunk, hn, hs, hd, href, hsig, huser,
    hlaunch, hfits, hapart⟩ := h
  exact ⟨hst, hcancel, hcursor, hop, hsrc, hdst, hk, hc0, hc1, hc2, hd0, hd1, hchunk, hn, hs, hd, href, hsig, huser, hlaunch,
    hfits, hapart⟩

/-- The address of element `i` of elements of `k` bytes that follow each other. -/
def elemAddr (base : Word) (k i : Nat) : Word := base + wordOf i * wordOf k

theorem elemAddr_zero (base : Word) (k : Nat) : elemAddr base k 0 = base := by
  simp [elemAddr, wordOf]

theorem lsSize_le (core : Nat) : lsSize core ≤ 2 ^ 19 := by
  unfold lsSize
  split <;> decide

theorem mul_add_le_mul {i k n : Nat} (hi : i < n) : i * k + k ≤ n * k := by
  rw [← Nat.succ_mul]
  exact Nat.mul_le_mul_right k hi

/-- Elements in a local store do not wrap around. -/
theorem toNat_elemAddr {base : Word} {n k i core : Nat} (h : base.toNat + n * k ≤ lsSize core) (hi : i < n) :
    (elemAddr base k i).toNat = base.toNat + i * k := by
  have hsize := lsSize_le core
  have hnk := mul_add_le_mul (k := k) hi
  have hmul : (wordOf i * wordOf k).toNat = i * k := by
    rw [BitVec.toNat_mul, wordOf, wordOf, BitVec.toNat_ofNat, BitVec.toNat_ofNat, ← Nat.mul_mod]
    exact Nat.mod_eq_of_lt (by omega)
  rw [elemAddr, BitVec.toNat_add, hmul]
  exact Nat.mod_eq_of_lt (by omega)

section

variable {x : Xfer} {n k : Nat} (hx : x.Copies n k)

include hx

theorem Xfer.Copies.units : x.ctl.units = n := by
  have hto : x.ctl.toPlanes = false := by rw [Ctl.toPlanes, hx.op]; rfl
  have hfrom : x.ctl.fromPlanes = false := by rw [Ctl.fromPlanes, hx.op]; rfl
  rw [Ctl.units, hto, hfrom, hx.count0, hx.count1, hx.count2]
  simp

theorem Xfer.Copies.chunkEnd : x.chunkEnd = n := by
  rw [Xfer.chunkEnd, if_pos hx.chunk, hx.units]

/-- Nothing is left to refuse of a range that ends in the store. -/
theorem Xfer.Copies.refused_none {va : Word} {m : Nat} (h : va.toNat + m ≤ lsSize x.core) (rd wr : Bool) :
    x.refused rd wr va m = none := by
  unfold Xfer.refused
  rw [Option.map_eq_none_iff, List.find?_eq_none]
  intro i hi
  have hi := List.mem_range.1 hi
  rw [hx.user, decide_eq_true (show va.toNat + i < lsSize x.core by omega)]
  simp

theorem Xfer.Copies.esize_pos : 0 < k := by
  rw [← hx.esize]
  exact Nat.two_pow_pos _

end

/-- A range that begins beyond the store is refused from its first byte on. -/
theorem refused_beyond {x : Xfer} {va : Word} {m : Nat} (h : lsSize x.core ≤ va.toNat) (hm : 0 < m) (rd wr : Bool) :
    x.refused rd wr va m = some va := by
  obtain ⟨m, rfl⟩ := Nat.exists_eq_succ_of_ne_zero hm.ne'
  unfold Xfer.refused
  rw [List.range_succ_eq_map, List.find?_cons_of_pos (by simp [Nat.not_lt.2 h])]
  simp [wordOf]

/-! ### The unit of an element -/

/-- The unit that writes bytes at an address of local store, with the faults that it has met. -/
def localUnit (va : Word) (bs : List Byte) (fs : List XFault) : XUnit where
  writes := [{ dst := .loc va, bytes := bs, access := 1, bad := if fs.isEmpty then [] else [0] }]
  flags := 0
  faults := fs

/-- The faults of a write of `n` bytes of local store (R270). -/
def Xfer.dstFaults (x : Xfer) (va : Word) (n : Nat) : List XFault :=
  match x.refused false true va n with
  | none => []
  | some a => [{ addr := a, cause := .lsprot, access := 1 }]

/-- Element `e` of a copy is read at its place of the source and written at its place of the destination. -/
theorem run_xferUnit_copy {x : Xfer} {n k e cl : Nat} {bs : List Byte} {fs : List XFault} {σ τ : At s0} (hx : x.Copies n k)
    (he : e < n) (h : fetchSrc cl x (elemAddr x.ctl.src k e) k σ = .ok (bs, fs) τ) :
    xferUnit cl x e σ =
      .ok (localUnit (elemAddr x.ctl.dst k e) bs (fs ++ x.dstFaults (elemAddr x.ctl.dst k e) k)) τ := by
  have hto : x.ctl.toPlanes = false := by rw [Ctl.toPlanes, hx.op]; rfl
  have hfrom : x.ctl.fromPlanes = false := by rw [Ctl.fromPlanes, hx.op]; rfl
  have hrow (a b : Word) : wordOf 0 * a + wordOf 0 * b = 0 := by simp [wordOf]
  have haddr (base : Word) : base + wordOf e * wordOf k + 0 = elemAddr base k e := by simp [elemAddr]
  have hmod : e % n = e := Nat.mod_eq_of_lt he
  have hdiv : e / n = 0 := Nat.div_eq_of_lt he
  unfold xferUnit
  rw [hto, hfrom, if_neg Bool.false_ne_true, if_neg Bool.false_ne_true]
  unfold elementUnit
  simp only [hx.op, hx.count0, hx.count1, hx.dcount0, hx.dcount1, hx.esize, hx.stride, hx.dstride, hx.dstLocal, hmod, hdiv,
    Nat.mul_one, Nat.zero_mod, zero_ne_one, OfNat.zero_ne_ofNat, if_false, hrow, pure_bind, List.isEmpty_nil, if_true,
    haddr, List.nil_append]
  rw [run_bind_ok h]
  have hdst : checkDst cl x true (elemAddr x.ctl.dst k e) k 1 τ = .ok (x.dstFaults (elemAddr x.ctl.dst k e) k) τ := rfl
  exact run_bind_ok hdst

/-! ### Reads of local store by an operation -/

/-- Between two states nothing differs but bytes of local store, and choices that have been taken. -/
def State.LsOnly (s t : State) : Prop := t = { s with ls := t.ls, lsBad := t.lsBad, oracle := t.oracle }

theorem lsOnly_chains : Chains State.LsOnly where
  refl _ := rfl
  trans {s t u} h h' := by
    unfold State.LsOnly at h h' ⊢
    rw [h', h]

/-- An operation sees local store as it is where its strand has stored nothing there since (R185). -/
theorem run_hideLater_seen {addr : Nat} {bs : List Byte} {σ : At s0}
    (h : ∀ u ∈ σ.val.unseen, u.agent = σ.val.eop.1 → u.near = true ∨ u.seq ≤ σ.val.eop.2) :
    hideLater false addr bs σ = .ok bs σ := by
  unfold hideLater
  rw [run_bind_ok (run_st σ)]
  dsimp only
  rw [if_pos]
  · rfl
  · rw [List.isEmpty_iff, List.filter_eq_nil_iff]
    intro u hu hsees
    simp only [Bool.and_eq_true, beq_iff_eq, decide_eq_true_eq] at hsees
    obtain ⟨⟨⟨⟨⟨hnear, hagent⟩, -⟩, hlater⟩, -⟩, -⟩ := hsees
    rcases h u hu hagent with hn | hn
    · rw [hnear] at hn
      cases hn
    · omega

theorem goes_hideLater (near : Bool) (addr : Nat) (bs : List Byte) : Goes (s0 := s0) State.LsOnly (hideLater near addr bs) := by
  have hc := lsOnly_chains
  unfold hideLater
  refine .bind hc (.st hc) fun s => ?_
  dsimp only
  split
  · exact .pure hc _
  · exact .bind hc (.forInGather hc _ _ fun u _ out σ => ⟨_, σ.upd .choose, rfl, rfl⟩) fun _ => .pure hc _

theorem lsKey_add (core a j : Nat) : lsKey core (a + j) = lsKey core a + j := by
  unfold lsKey
  omega

/-- The bytes of local store from a key on. -/
def State.lsFrom (s : State) (key m : Nat) : List Byte := (List.range m).map fun j => Memory.read s.ls (key + j)

@[simp] theorem length_lsFrom (s : State) (key m : Nat) : (s.lsFrom key m).length = m := by simp [State.lsFrom]

theorem lsBytes_clean {s : State} {core a m : Nat} (h : ∀ j < m, s.lsPoisoned core (a + j) = false) :
    s.lsBytes core a m = s.lsFrom (lsKey core a) m := by
  refine List.map_congr_left fun j hj => ?_
  rw [State.lsByte, h j (List.mem_range.1 hj), if_neg Bool.false_ne_true, State.lsRaw, lsKey_add]

section

variable {x : Xfer} {n k cl m : Nat} {va : Word} (hx : x.Copies n k)

include hx

theorem run_fetchSrc_clean {σ : At s0} (hin : va.toNat + m ≤ lsSize x.core)
    (hclean : ∀ j < m, σ.val.lsPoisoned x.core (va.toNat + j) = false)
    (hseen : ∀ u ∈ σ.val.unseen, u.agent = σ.val.eop.1 → u.near = true ∨ u.seq ≤ σ.val.eop.2) :
    fetchSrc cl x va m σ = .ok (σ.val.lsFrom (lsKey x.core va.toNat) m, []) σ := by
  have hbad : (List.range m).find? (fun i => σ.val.lsPoisoned x.core (va.toNat + i)) = none := by
    rw [List.find?_eq_none]
    intro j hj
    rw [hclean j (List.mem_range.1 hj)]
    exact Bool.false_ne_true
  unfold fetchSrc
  rw [if_pos hx.srcLocal, run_bind_ok (run_st σ), hx.refused_none hin]
  dsimp only
  rw [run_bind_ok (run_hideLater_seen hseen), hbad, lsBytes_clean hclean]
  rfl

theorem run_fetchSrc_beyond (hbeyond : lsSize x.core ≤ va.toNat) (hm : 0 < m) (σ : At s0) :
    fetchSrc cl x va m σ = .ok (List.replicate m 0, [{ addr := va, cause := .lsprot, access := 0 }]) σ := by
  unfold fetchSrc
  rw [if_pos hx.srcLocal, run_bind_ok (run_st σ), refused_beyond hbeyond hm]
  rfl

theorem goes_fetchSrc : Goes (s0 := s0) State.LsOnly (fetchSrc cl x va m) := by
  have hc := lsOnly_chains
  unfold fetchSrc
  rw [if_pos hx.srcLocal]
  refine .bind hc (.st hc) fun s => ?_
  split
  · exact .pure hc _
  · exact .bind hc (goes_hideLater _ _ _) fun _ => .pure hc _

end

/-! ### Writes of local store -/

/-- The state differs in the bytes of local store from a key on, which it has written; no byte has become poisoned. -/
structure State.LsAt (s : State) (key : Nat) (bs : List Byte) (t : State) : Prop where
  frame : t = { s with ls := t.ls, lsBad := t.lsBad }
  read : ∀ a, Memory.read t.ls a =
    if key ≤ a ∧ a < key + bs.length then bs.getD (a - key) 0 else Memory.read s.ls a
  bad : ∀ a, NatSet.has t.lsBad a = true → NatSet.has s.lsBad a = true

theorem State.LsAt.nil (s : State) (key : Nat) : s.LsAt key [] s :=
  ⟨rfl, fun a => (if_neg fun h => by rw [List.length_nil] at h; omega).symm, fun _ h => h⟩

/-- One byte, and then those behind it. -/
theorem State.LsAt.cons {s t : State} {key : Nat} {b : Byte} {bs : List Byte}
    (h : ((Upd.lsByte key b).apply s).LsAt (key + 1) bs t) : s.LsAt key (b :: bs) t where
  frame := by rw [h.frame]; rfl
  read := by
    intro a
    have hbyte : Memory.read ((Upd.lsByte key b).apply s).ls a = if a = key then b else Memory.read s.ls a :=
      Memory.read_write _ _ _ _
    rw [h.read, hbyte, List.length_cons]
    by_cases ha : a = key
    · rw [if_neg (by omega), if_pos ha, if_pos (by omega), ha, Nat.sub_self, List.getD_cons_zero]
    · by_cases hin : key + 1 ≤ a ∧ a < key + 1 + bs.length
      · rw [if_pos hin, if_pos (by omega), show a - key = a - (key + 1) + 1 by omega, List.getD_cons_succ]
      · rw [if_neg hin, if_neg ha, if_neg (by omega)]
  bad := by
    intro a ha
    have hdrop : NatSet.has (NatSet.drop s.lsBad key) a = true := h.bad a ha
    rw [NatSet.has_drop, Bool.and_eq_true] at hdrop
    exact hdrop.1

theorem State.LsAt.lsOnly {s t : State} {key : Nat} {bs : List Byte} (h : s.LsAt key bs t) : s.LsOnly t := by
  rw [State.LsOnly, h.frame]

theorem run_writeLs (core addr : Nat) (bs : List Byte) (σ : At s0) :
    ∃ τ, writeLs core addr bs σ = .ok () τ ∧ σ.val.LsAt (lsKey core addr) bs τ.val := by
  have hloop : ∀ (j : Nat) (σ : At s0), ∃ τ, (forIn (bs.zipIdx j) PUnit.unit fun (b, i) _ => do
        upd (.lsByte (lsKey core (addr + i)) b)
        pure (ForInStep.yield PUnit.unit) : M s0 PUnit) σ = .ok ⟨⟩ τ ∧
      σ.val.LsAt (lsKey core (addr + j)) bs τ.val := by
    induction bs with
    | nil => exact fun j σ => ⟨σ, rfl, .nil _ _⟩
    | cons b bs ih =>
      intro j σ
      obtain ⟨τ, hτ, h⟩ := ih (j + 1) (σ.upd (.lsByte (lsKey core (addr + j)) b))
      rw [← Nat.add_assoc, lsKey_add core (addr + j)] at h
      refine ⟨τ, ?_, .cons h⟩
      rw [List.zipIdx_cons, List.forIn_cons]
      exact hτ
  obtain ⟨τ, hτ, h⟩ := hloop 0 σ
  unfold writeLs
  exact ⟨τ, run_bind_ok hτ, h⟩

section

variable {x : Xfer} {n k cl : Nat} {va : Word} {w : XWrite} (hx : x.Copies n k) (hw : w.dst = .loc va)

include hx hw

/-- A write that nothing refuses is made. -/
theorem run_performWrite_local (hin : x.refused false true va w.bytes.length = none) (σ : At s0) :
    ∃ τ, performWrite cl x w σ = .ok none τ ∧ σ.val.LsAt (lsKey x.core va.toNat) w.bytes τ.val := by
  obtain ⟨τ, hτ, h⟩ := run_writeLs x.core va.toNat w.bytes σ
  have hgang : σ.val.issuerGang x.by_ = none := by rw [State.issuerGang, hx.launch]; rfl
  refine ⟨τ, ?_, h⟩
  unfold performWrite
  rw [hw]
  dsimp only
  rw [hin]
  dsimp only
  rw [run_bind_ok (run_st σ), hgang]
  exact run_bind_ok hτ

/-- Any write of local store is made or refused. -/
theorem goes_performWrite_local : Goes (s0 := s0) State.LsOnly (performWrite cl x w) := by
  intro σ
  cases hrefused : x.refused false true va w.bytes.length with
  | some a =>
    refine ⟨some { addr := a, cause := .lsprot, access := w.access }, σ, ?_, rfl⟩
    unfold performWrite
    rw [hw]
    dsimp only
    rw [hrefused]
    rfl
  | none =>
    obtain ⟨τ, hτ, h⟩ := run_performWrite_local hx hw hrefused σ
    exact ⟨none, τ, hτ, h.lsOnly⟩

end

end Sys2Proof.Machine
end

section
/-! A complete chunk of a copy within a local store (R265, R268): every element is moved, in whatever order. -/

namespace Sys2Proof.Machine

variable {s0 : State}

/-! ### The units of a chunk -/

/-- A chunk that is the whole copy: what each unit gives, and what every evaluation keeps of the state. -/
theorem run_chunkUnits {x : Xfer} {n k cl : Nat} (hx : x.Copies n k) {I : State → Prop} {P : Nat → XUnit → Prop}
    (h : ∀ i < n, ∀ σ : At s0, I σ.val → ∃ u τ, xferUnit cl x i σ = .ok u τ ∧ I τ.val ∧ P i u) (σ : At s0)
    (hσ : I σ.val) : ∃ us τ, chunkUnits cl x σ = .ok us τ ∧ I τ.val ∧ List.Forall₂ P (List.range n) us := by
  unfold chunkUnits
  dsimp only
  rw [hx.chunkEnd, hx.cursor, Nat.sub_zero]
  simp only [Nat.zero_add]
  obtain ⟨us, τ, hτ, hI, hus⟩ :=
    run_forIn_gather (P := fun done (out : List XUnit) t => I t ∧ List.Forall₂ P done.reverse out) (List.range n)
      (f := fun i out => do
        let u ← xferUnit cl x i
        pure (.yield (out ++ [u])))
      (fun done i hi out ρ ⟨hI, hout⟩ => by
        obtain ⟨u, τ, hτ, hI', hu⟩ := h i (List.mem_range.1 hi) ρ hI
        refine ⟨out ++ [u], τ, run_bind_ok hτ, hI', ?_⟩
        rw [List.reverse_cons]
        exact List.rel_append hout (.cons hu .nil))
      [] [] σ ⟨hσ, .nil⟩
  rw [List.append_nil, List.reverse_reverse] at hus
  exact ⟨us, τ, run_bind_ok hτ, hI, hus⟩

/-! ### A copy under way -/

/-- The state with the elements in a list copied to their places, since `s`. -/
structure State.Copied (s : State) (x : Xfer) (n k : Nat) (done : List Nat) (t : State) : Prop where
  only : s.LsOnly t
  within : ∀ i ∈ done, i < n
  read : ∀ a, Memory.read t.ls a =
    if ∃ i ∈ done, lsKey x.core x.ctl.dst.toNat + i * k ≤ a ∧ a < lsKey x.core x.ctl.dst.toNat + i * k + k then
      Memory.read s.ls (lsKey x.core x.ctl.src.toNat + (a - lsKey x.core x.ctl.dst.toNat))
    else Memory.read s.ls a
  bad : ∀ a, NatSet.has t.lsBad a = true → NatSet.has s.lsBad a = true

theorem State.Copied.nil (s : State) (x : Xfer) (n k : Nat) : s.Copied x n k [] s :=
  ⟨rfl, fun _ h => absurd h List.not_mem_nil, fun _ => (if_neg fun ⟨_, h, _⟩ => absurd h List.not_mem_nil).symm,
    fun _ h => h⟩

/-- Choices do not matter to it. -/
theorem State.Copied.choose {s t : State} {x : Xfer} {n k : Nat} {done : List Nat} (h : s.Copied x n k done t) :
    s.Copied x n k done (Upd.choose.apply t) :=
  ⟨lsOnly_chains.trans h.only rfl, h.within, h.read, h.bad⟩

/-- With every element copied, the destination holds what the source held, and no other byte has changed. -/
theorem State.Copied.read_all {s t : State} {x : Xfer} {n k : Nat} {done : List Nat} (h : s.Copied x n k done t)
    (hk : 0 < k) (hall : ∀ i < n, i ∈ done) (a : Nat) :
    Memory.read t.ls a =
      if lsKey x.core x.ctl.dst.toNat ≤ a ∧ a < lsKey x.core x.ctl.dst.toNat + n * k then
        Memory.read s.ls (lsKey x.core x.ctl.src.toNat + (a - lsKey x.core x.ctl.dst.toNat))
      else Memory.read s.ls a := by
  rw [h.read]
  refine if_congr ⟨?_, fun ⟨hlow, hhigh⟩ => ?_⟩ rfl rfl
  · rintro ⟨i, hi, hlow, hhigh⟩
    have hik := mul_add_le_mul (k := k) (h.within i hi)
    omega
  · have hi : (a - lsKey x.core x.ctl.dst.toNat) / k < n := (Nat.div_lt_iff_lt_mul hk).2 (by omega)
    have hdiv := Nat.div_add_mod' (a - lsKey x.core x.ctl.dst.toNat) k
    have hmod := Nat.mod_lt (a - lsKey x.core x.ctl.dst.toNat) hk
    exact ⟨_, hall _ hi, by omega, by omega⟩

/-- What element `i` of a copy does, read in the state `s`. -/
def State.copyUnit (s : State) (x : Xfer) (k i : Nat) : XUnit :=
  localUnit (elemAddr x.ctl.dst k i) (s.lsFrom (lsKey x.core (elemAddr x.ctl.src k i).toNat) k) []

section

variable {s : State} {x : Xfer} {n k cl i : Nat} {done : List Nat} (hx : x.Copies n k)

include hx

/-- One more element, written as the state `s` had it. -/
theorem State.Copied.write {t u : State} (hfit : x.ctl.src.toNat + n * k ≤ lsSize x.core) (h : s.Copied x n k done t)
    (hi : i < n)
    (hw : t.LsAt (lsKey x.core (elemAddr x.ctl.dst k i).toNat)
      (s.lsFrom (lsKey x.core (elemAddr x.ctl.src k i).toNat) k) u) : s.Copied x n k (i :: done) u where
  only := lsOnly_chains.trans h.only hw.lsOnly
  within := by
    intro j hj
    rcases List.mem_cons.1 hj with rfl | hj
    · exact hi
    · exact h.within j hj
  read := by
    intro a
    have hread := hw.read a
    rw [toNat_elemAddr hfit hi, toNat_elemAddr hx.dstFits hi, lsKey_add, lsKey_add, length_lsFrom] at hread
    rw [hread]
    by_cases ha : lsKey x.core x.ctl.dst.toNat + i * k ≤ a ∧ a < lsKey x.core x.ctl.dst.toNat + i * k + k
    · rw [if_pos ha, if_pos ⟨i, List.mem_cons_self, ha⟩, State.lsFrom, List.getD_eq_getElem?_getD, List.getElem?_map,
        List.getElem?_range (by omega)]
      refine congrArg (Memory.read s.ls) ?_
      omega
    · rw [if_neg ha, h.read]
      refine if_congr ?_ rfl rfl
      simp [ha]
  bad a ha := h.bad a (hw.bad a ha)

variable {σ : At s0} (hfit : x.ctl.src.toNat + n * k ≤ lsSize x.core)

include hfit

/-- The unit of an element writes it. -/
theorem State.Copied.run_performUnit (h : s.Copied x n k done σ.val) (hi : i < n) :
    ∃ τ, performUnit cl x (s.copyUnit x k i) σ = .ok none τ ∧ s.Copied x n k (i :: done) τ.val := by
  have hdst := toNat_elemAddr hx.dstFits hi
  have hik := mul_add_le_mul (k := k) hi
  have hfits := hx.dstFits
  obtain ⟨τ, hτ, hw⟩ := run_performWrite_local (cl := cl) (va := elemAddr x.ctl.dst k i)
    (w := { dst := .loc (elemAddr x.ctl.dst k i), bytes := s.lsFrom (lsKey x.core (elemAddr x.ctl.src k i).toNat) k
            access := 1, bad := [] }) hx rfl (hx.refused_none (by rw [length_lsFrom]; omega) false true) σ
  refine ⟨τ, ?_, h.write hx hfit hi hw⟩
  unfold performUnit State.copyUnit localUnit
  dsimp only
  rw [List.forIn_cons, List.isEmpty_nil, if_pos rfl]
  simp only [run_bind, hτ]
  rfl

variable (hclean : ∀ j < n * k, s.lsPoisoned x.core (x.ctl.src.toNat + j) = false)
  (hseen : ∀ u ∈ s.unseen, u.agent = s.eop.1 → u.near = true ∨ u.seq ≤ s.eop.2)

include hclean hseen

/-- The source stays as it was, for its range meets no destination. -/
theorem State.Copied.run_xferUnit (h : s.Copied x n k done σ.val) (hi : i < n) :
    xferUnit cl x i σ = .ok (s.copyUnit x k i) σ := by
  have hsrc := toNat_elemAddr hfit hi
  have hdst := toNat_elemAddr hx.dstFits hi
  have hik := mul_add_le_mul (k := k) hi
  have hpoison (j : Nat) (hj : j < k) : σ.val.lsPoisoned x.core ((elemAddr x.ctl.src k i).toNat + j) = false := by
    refine Bool.eq_false_iff.2 fun hbad => ?_
    have hold : s.lsPoisoned x.core (x.ctl.src.toNat + (i * k + j)) = true := by
      rw [← Nat.add_assoc, ← hsrc]
      exact h.bad _ hbad
    rw [hclean _ (by omega)] at hold
    cases hold
  have hbytes : σ.val.lsFrom (lsKey x.core (elemAddr x.ctl.src k i).toNat) k =
      s.lsFrom (lsKey x.core (elemAddr x.ctl.src k i).toNat) k := by
    refine List.map_congr_left fun j hj => ?_
    have hj := List.mem_range.1 hj
    rw [h.read, if_neg]
    rintro ⟨i', hi', hlow, hhigh⟩
    have hik' := mul_add_le_mul (k := k) (h.within i' hi')
    have hapart := hx.apart
    rw [hsrc] at hlow hhigh
    unfold lsKey at hlow hhigh
    omega
  have hfetch := run_fetchSrc_clean (cl := cl) hx (σ := σ) (va := elemAddr x.ctl.src k i) (m := k) (by omega) hpoison
    (by rw [h.only]; exact hseen)
  have hfaults : x.dstFaults (elemAddr x.ctl.dst k i) k = [] := by
    have hfits := hx.dstFits
    rw [Xfer.dstFaults, hx.refused_none (by omega)]
  rw [run_xferUnit_copy hx hi hfetch, hfaults, hbytes]
  rfl

theorem run_chunkUnits_copy (h : s.Copied x n k done σ.val) :
    chunkUnits cl x σ = .ok ((List.range n).map (s.copyUnit x k)) σ := by
  obtain ⟨us, τ, hτ, hsame, hus⟩ := run_chunkUnits (cl := cl) hx (I := fun t => t = σ.val)
    (P := fun i u => s.copyUnit x k i = u)
    (fun i hi ρ hρ => ⟨_, ρ, State.Copied.run_xferUnit hx hfit hclean hseen (by rw [hρ]; exact h) hi, hρ, rfl⟩) σ rfl
  have hall : (List.range n).map (s.copyUnit x k) = us := by
    rw [← List.forall₂_eq_eq_eq]
    exact List.forall₂_map_left_iff.2 hus
  rw [hτ, At.ext hsame, hall]

end

/-! ### Every element once -/

theorem shuffle_perm {α : Type} (l : List α) (p : Nat) : (shuffle p l.length l).Perm l := by
  suffices h : ∀ n p (l : List α), l.length = n → (shuffle p n l).Perm l from h _ p l rfl
  intro n
  induction n with
  | zero =>
    intro p l hl
    rw [List.length_eq_zero_iff.1 hl]
    exact .nil
  | succ n ih =>
    intro p l hl
    have hlt : p % l.length < l.length := Nat.mod_lt _ (by omega)
    have herase : (l.eraseIdx (p % l.length)).length = n := by rw [List.length_eraseIdx_of_lt hlt, hl]; rfl
    rw [shuffle, List.getElem?_eq_getElem hlt]
    exact ((ih _ _ herase).cons _).trans (List.getElem_cons_eraseIdx_perm hlt)

/-- The numbered units, in whatever order, are the elements of the copy, each with its number. -/
theorem mem_shuffle_units {g : Nat → XUnit} {n p : Nat} {q : XUnit × Nat} :
    q ∈ shuffle p ((List.range n).map g).length ((List.range n).map g).zipIdx ↔ q.2 < n ∧ q.1 = g q.2 := by
  have hlen : ((List.range n).map g).length = ((List.range n).map g).zipIdx.length := List.length_zipIdx.symm
  rw [hlen, (shuffle_perm _ p).mem_iff, List.mem_zipIdx_iff_getElem?, List.getElem?_map]
  by_cases h : q.2 < n
  · rw [List.getElem?_range h]
    simp [h, eq_comm]
  · rw [List.getElem?_eq_none (by simpa using h)]
    simp [h]

/-! ### The end of a transfer without signals -/

theorem run_xferSignal_none {x : Xfer} {n k cl : Nat} (hx : x.Copies n k) (y : Xfer) (hctl : y.ctl = x.ctl)
    (hby : y.by_ = x.by_) (m : Nat) (σ : At s0) : xferSignal cl y m σ = .ok () σ := by
  unfold xferSignal
  dsimp only
  rw [hby, hx.sig, hctl, hx.sigref]
  rfl

theorem run_endChunk_copy {x y : Xfer} {n k cl e : Nat} (hx : x.Copies n k) {us : List XUnit} {σ : At s0}
    (hus : ∀ u ∈ us, u.flags = 0) (hy : TMap.find (σ.val.stencil cl).entries e = some y) :
    endChunk cl e x us σ =
      .ok () (σ.upd (.stencil cl ((σ.val.stencil cl).withEntry e { x with st := .done, cursor := n }))) := by
  have hflags : us.foldl (fun f (u : XUnit) => f ||| u.flags) x.flags = x.flags := by
    induction us with
    | nil => rfl
    | cons u us ih =>
      rw [List.foldl_cons, hus u List.mem_cons_self, show x.flags ||| 0 = x.flags from BitVec.or_zero]
      exact ih fun v hv => hus v (List.mem_cons_of_mem u hv)
  unfold endChunk
  rw [hx.chunkEnd, hx.units, hflags, decide_eq_true le_rfl]
  dsimp only
  rw [hx.cancel, if_neg Bool.false_ne_true, if_pos rfl, run_bind_ok (run_modXfer hy _), Bool.or_true, if_pos rfl]
  exact run_xferSignal_none hx _ rfl rfl 1 _

/-! ### A complete chunk -/

/-- One turn of the writes of a chunk: a numbered unit, as it was or as its source is by now (R265). -/
def chunkTurn (cl : Nat) (x : Xfer) (mask : Nat) (q : XUnit × Nat) (bad : List (Nat × XFault)) :
    M s0 (ForInStep (List (Nat × XFault))) := do
  let v ← xferUnit cl x (x.cursor + q.2)
  match ← performUnit cl x (if mask.testBit q.2 && v.faults.isEmpty then v else q.1) with
  | some f => return .yield ((q.2, f) :: bad)
  | none => return .yield bad

section

variable {s : State} {x : Xfer} {n k cl : Nat} {σ : At s0} (hx : x.Copies n k)
  (hfit : x.ctl.src.toNat + n * k ≤ lsSize x.core)
  (hclean : ∀ j < n * k, s.lsPoisoned x.core (x.ctl.src.toNat + j) = false)
  (hseen : ∀ u ∈ s.unseen, u.agent = s.eop.1 → u.near = true ∨ u.seq ≤ s.eop.2)

include hx hfit hclean hseen

/-- It makes no difference whether an element of the copy is read again. -/
theorem State.Copied.run_chunkTurn {done : List Nat} (h : s.Copied x n k done σ.val) {q : XUnit × Nat} (hi : q.2 < n)
    (hu : q.1 = s.copyUnit x k q.2) (mask : Nat) (bad : List (Nat × XFault)) :
    ∃ τ, chunkTurn cl x mask q bad σ = .ok (.yield bad) τ ∧ s.Copied x n k (q.2 :: done) τ.val := by
  obtain ⟨τ, hτ, hcopied⟩ := State.Copied.run_performUnit (cl := cl) hx hfit h hi
  refine ⟨τ, ?_, hcopied⟩
  unfold chunkTurn
  rw [hx.cursor, Nat.zero_add, run_bind_ok (State.Copied.run_xferUnit hx hfit hclean hseen h hi), hu, ite_self,
    run_bind_ok hτ]
  rfl

/-- The units in any order copy every element. -/
theorem run_chunkTurns (h : s.Copied x n k [] σ.val) (order mask : Nat) :
    ∃ τ done, forIn (shuffle order ((List.range n).map (s.copyUnit x k)).length ((List.range n).map (s.copyUnit x k)).zipIdx)
        [] (chunkTurn cl x mask) σ = .ok [] τ ∧ s.Copied x n k done τ.val ∧ ∀ i < n, i ∈ done := by
  obtain ⟨bad, τ, hloop, hbad, hcopied⟩ :=
    run_forIn_gather (P := fun done (bad : List (Nat × XFault)) t => bad = [] ∧ s.Copied x n k (done.map (·.2)) t)
      (shuffle order ((List.range n).map (s.copyUnit x k)).length ((List.range n).map (s.copyUnit x k)).zipIdx)
      (f := chunkTurn cl x mask)
      (fun _ q hq bad σ ⟨hbad, hdone⟩ => by
        obtain ⟨hi, hu⟩ := mem_shuffle_units.1 hq
        obtain ⟨τ, hτ, hcopied⟩ := State.Copied.run_chunkTurn (cl := cl) hx hfit hclean hseen hdone hi hu mask bad
        exact ⟨bad, τ, hτ, hbad, hcopied⟩)
      [] [] σ ⟨rfl, h⟩
  subst hbad
  refine ⟨τ, _, hloop, hcopied, fun i hi => List.mem_map.2 ⟨(s.copyUnit x k i, i), ?_, rfl⟩⟩
  rw [List.append_nil, List.mem_reverse]
  exact mem_shuffle_units.2 ⟨hi, rfl⟩

end

/-- A running copy whose source is there and clean is written element by element, and is done. -/
theorem exec_chunkComplete_copy {cl e n k : Nat} {s : State} {x : Xfer} (hx : x.Copies n k)
    (hfind : TMap.find (s.stencil cl).entries e = some x) (hfit : x.ctl.src.toNat + n * k ≤ lsSize x.core)
    (hclean : ∀ j < n * k, s.lsPoisoned x.core (x.ctl.src.toNat + j) = false)
    (hseen : ∀ u ∈ s.unseen, u.agent = x.by_.agent → u.near = true ∨ u.seq ≤ x.by_.seq) :
    ∃ (t : State) (done : List Nat), (∀ i < n, i ∈ done) ∧
      ((Upd.eop x.by_.agent x.by_.seq).apply s).Copied x n k done t ∧
      exec (.chunkComplete cl e) s =
        .next ((Upd.stencil cl ((t.stencil cl).withEntry e { x with st := .done, cursor := n })).apply t) := by
  let ρ : At s := At.upd ⟨s, .refl⟩ (.eop x.by_.agent x.by_.seq)
  let g := ρ.val.copyUnit x k
  have hnil : ρ.val.Copied x n k [] ρ.val := .nil _ x n k
  have hunits : chunkUnits cl x ρ = .ok ((List.range n).map g) ρ :=
    run_chunkUnits_copy (s := ρ.val) hx hfit hclean hseen hnil
  have hfaultless : (((List.range n).map g).all fun u => u.faults.isEmpty) = true := by
    rw [List.all_map, List.all_eq_true]
    exact fun _ _ => rfl
  let υ := (ρ.upd .choose).upd .choose
  obtain ⟨τ, done, hloop, hcopied, hall⟩ := run_chunkTurns (s := ρ.val) (cl := cl) (σ := υ) hx hfit hclean hseen
    hnil.choose.choose (Config.pick (ρ.upd .choose).val.oracle) (Config.pick ρ.val.oracle)
  have hentry : TMap.find (τ.val.stencil cl).entries e = some x := by
    rw [State.stencil, hcopied.only]
    exact hfind
  refine ⟨τ.val, done, hall, hcopied, ?_⟩
  have hrunning : (x.st == .running) = true := by rw [hx.running]; rfl
  have hact : actFor x.by_ (⟨s, .refl⟩ : At s) = .ok () ρ := rfl
  have hmask : openNat ρ = .ok (Config.pick ρ.val.oracle) (ρ.upd .choose) := rfl
  have horder : openNat (ρ.upd .choose) = .ok (Config.pick (ρ.upd .choose).val.oracle) υ := rfl
  have hend : endChunk cl e x ((List.range n).map g) τ = _ :=
    run_endChunk_copy hx (fun u hu => by obtain ⟨i, -, rfl⟩ := List.mem_map.1 hu; rfl) hentry
  have hbody : chunkCompleteBody cl e (⟨s, .refl⟩ : At s) =
      .ok () (τ.upd (.stencil cl ((τ.val.stencil cl).withEntry e { x with st := .done, cursor := n }))) := by
    unfold chunkCompleteBody
    rw [run_bind_ok (run_st _)]
    dsimp only
    rw [hfind]
    dsimp only
    rw [hrunning, run_bind_ok (run_require _ _), run_bind_ok hact, run_bind_ok hunits, hfaultless,
      run_bind_ok (run_require _ _), run_bind_ok hmask, run_bind_ok horder]
    exact (run_bind_ok hloop).trans hend
  exact run_ok hbody

end Sys2Proof.Machine
end

section
/-! A chunk whose first source element lies beyond the local store (R271, R274), and what chunks of a copy leave. -/

namespace Sys2Proof.Machine

variable {s0 : State}

/-! ### A chunk whose first element faults -/

/-- LSPROT at the first byte of the source. -/
def Xfer.srcFault (x : Xfer) : XFault where
  addr := x.ctl.src
  cause := .lsprot
  access := 0

/-- A unit that writes local store; that of the first element meets the fault of its source and no other. -/
def Xfer.FaultUnit (x : Xfer) (i : Nat) (u : XUnit) : Prop :=
  ∃ va bs fs, u = localUnit va bs fs ∧ (i = 0 → fs = [x.srcFault])

section

variable {x : Xfer} {n k cl : Nat} (hx : x.Copies n k)

include hx

theorem run_xferUnit_fault (hbeyond : lsSize x.core ≤ x.ctl.src.toNat) {i : Nat} (hi : i < n) (σ : At s0) :
    ∃ u τ, xferUnit cl x i σ = .ok u τ ∧ σ.val.LsOnly τ.val ∧ x.FaultUnit i u := by
  cases i with
  | zero =>
    have hfetch : fetchSrc cl x (elemAddr x.ctl.src k 0) k σ = .ok (List.replicate k 0, [x.srcFault]) σ := by
      rw [elemAddr_zero]
      exact run_fetchSrc_beyond hx hbeyond hx.esize_pos σ
    have hfaults : x.dstFaults (elemAddr x.ctl.dst k 0) k = [] := by
      have hfits := hx.dstFits
      have hk := mul_add_le_mul (k := k) hi
      rw [elemAddr_zero, Xfer.dstFaults, hx.refused_none (by omega)]
    exact ⟨_, σ, run_xferUnit_copy hx hi hfetch, rfl, _, _, _, rfl, fun _ => by rw [hfaults]; rfl⟩
  | succ i =>
    obtain ⟨⟨bs, fs⟩, τ, hfetch, honly⟩ := goes_fetchSrc (cl := cl) (m := k) (va := elemAddr x.ctl.src k (i + 1)) hx σ
    exact ⟨_, τ, run_xferUnit_copy hx hi hfetch, honly, _, _, _, rfl, fun h => absurd h (Nat.succ_ne_zero i)⟩

/-- The chunk's lowest fault is that of the first element, and every unit writes local store. -/
theorem run_chunkUnits_fault (hbeyond : lsSize x.core ≤ x.ctl.src.toNat) (σ : At s0) :
    ∃ us τ, chunkUnits cl x σ = .ok us τ ∧ σ.val.LsOnly τ.val ∧
      (∀ ρ : At s0, lowestFault us ρ = .ok (some x.srcFault) ρ) ∧
      ∀ u ∈ us, ∀ w ∈ u.writes, ∃ va, w.dst = .loc va := by
  obtain ⟨us, τ, hτ, honly, hus⟩ := run_chunkUnits (cl := cl) hx (I := σ.val.LsOnly) (P := x.FaultUnit)
    (fun i hi ρ hρ => by
      obtain ⟨u, τ, hτ, honly, hu⟩ := run_xferUnit_fault (cl := cl) hx hbeyond hi ρ
      exact ⟨u, τ, hτ, lsOnly_chains.trans hρ honly, hu⟩)
    σ rfl
  refine ⟨us, τ, hτ, honly, fun ρ => ?_, fun u hu w hw => ?_⟩
  · obtain ⟨m, rfl⟩ := Nat.exists_eq_succ_of_ne_zero hx.pos.ne'
    rw [List.range_succ_eq_map] at hus
    obtain _ | ⟨hfirst, hrest⟩ := hus
    obtain ⟨va, bs, fs, rfl, hfs⟩ := hfirst
    obtain rfl := hfs rfl
    rfl
  · obtain ⟨j, hj, rfl⟩ := List.getElem_of_mem hu
    obtain ⟨hlen, hall⟩ := List.forall₂_iff_get.1 hus
    obtain ⟨va, bs, fs, heq, -⟩ := hall j (by omega) hj
    rw [List.get_eq_getElem] at heq
    rw [heq] at hw
    exact ⟨va, by rw [List.mem_singleton.1 hw]⟩

/-- Elements that are written alone are written to local store, or refused. -/
theorem goes_performSome_local {us : List XUnit} (hus : ∀ u ∈ us, ∀ w ∈ u.writes, ∃ va, w.dst = .loc va) :
    Goes (s0 := s0) State.LsOnly (performSome cl x us) := by
  have hc := lsOnly_chains
  have hpieces : ∀ w ∈ us.flatMap fun u => u.writes.flatMap fun w => w.pieces x.ctl.unit, ∃ va, w.dst = .loc va := by
    intro p hp
    obtain ⟨u, hu, hp⟩ := List.mem_flatMap.1 hp
    obtain ⟨w, hw, hp⟩ := List.mem_flatMap.1 hp
    obtain ⟨va, hva⟩ := hus u hu w hw
    obtain ⟨i, -, rfl⟩ := List.mem_map.1 hp
    exact ⟨_, by dsimp only; rw [hva, XDst.shift]⟩
  have hmask : Goes (s0 := s0) State.LsOnly openNat := fun σ => ⟨_, σ.upd .choose, rfl, rfl⟩
  unfold performSome
  refine .bind hc hmask fun mask => .bind hc (.forIn hc _ fun ⟨w, i⟩ hw => ?_) fun _ => .pure hc _
  obtain ⟨va, hva⟩ := hpieces w (List.fst_mem_of_mem_zipIdx hw)
  dsimp only
  split
  · exact .bind hc (goes_performWrite_local hx hva) fun _ => .go hc
  · exact .go hc

end

/-! ### The error of the strand -/

theorem mem_insertPend (e : Pend) (l : List Pend) : e ∈ insertPend e l := by
  induction l with
  | nil => exact List.mem_singleton_self e
  | cons p l ih =>
    unfold insertPend
    split
    · exact List.mem_cons_self
    · exact List.mem_cons_of_mem p ih

/-- An error of an operation whose strand runs, with room in its list, becomes pending there. -/
theorem run_enginePend {b : Issuer} {c : Cause} {tval : Word} {σ : At s0} (hagent : b.agent < 25088)
    (hlife : (σ.val.ctx b.agent).life = b.life) (hphase : (σ.val.ctx b.agent).phase = .running)
    (hroom : (σ.val.ctx b.agent).pend.length < 8) :
    ∃ y : Ctx, enginePend b c tval σ = .ok () (σ.upd (.ctx b.agent y)) ∧
      { cause := c, tval := tval, engine := true, seq := b.seq } ∈ y.pend := by
  have halive : (σ.val.ctx b.agent).phase.alive = true := by rw [hphase]; rfl
  refine ⟨?_, ?run, ?pend⟩
  case run =>
    unfold enginePend
    rw [run_bind_ok (run_st σ), if_neg (by omega), hlife, halive, if_pos (by simp)]
    unfold pendError
    rw [run_bind_ok (run_st σ)]
    dsimp only
    rw [halive, if_pos rfl, if_pos hroom]
    rfl
  case pend => exact mem_insertPend _ _

/-- A fault of a copy without a supervisor (R271, R274). -/
theorem run_settleFault_alone {x : Xfer} {n k cl e : Nat} {f : XFault} {y : Xfer} {σ : At s0} (hx : x.Copies n k)
    (hsuper : x.ctl.super = 0) (hy : TMap.find (σ.val.stencil cl).entries e = some y) (hagent : x.by_.agent < 25088)
    (hlife : (σ.val.ctx x.by_.agent).life = x.by_.life) (hphase : (σ.val.ctx x.by_.agent).phase = .running)
    (hroom : (σ.val.ctx x.by_.agent).pend.length < 8) :
    ∃ c : Ctx, settleFault cl e x f σ =
        .ok () ((σ.upd (.stencil cl ((σ.val.stencil cl).withEntry e
          { x with faults := x.faults + 1, st := .done, cause := BitVec.ofNat 8 (xcause f.cause) }))).upd
            (.ctx x.by_.agent c)) ∧
      { cause := f.cause, tval := f.addr, engine := true, seq := x.by_.seq } ∈ c.pend := by
  obtain ⟨c, hc, hmem⟩ := run_enginePend (b := x.by_) (c := f.cause) (tval := f.addr)
    (σ := σ.upd (.stencil cl ((σ.val.stencil cl).withEntry e
      { x with faults := x.faults + 1, st := .done, cause := BitVec.ofNat 8 (xcause f.cause) }))) hagent hlife hphase hroom
  refine ⟨c, ?_, hmem⟩
  unfold settleFault
  dsimp only
  rw [if_neg (ne_true_of_eq_false hx.cancel), if_neg (not_not.2 hsuper), run_bind_ok (run_modXfer hy _), run_bind_ok hc]
  exact run_xferSignal_none hx _ rfl rfl _ _

theorem exec_chunkFault_copy {cl e n k : Nat} {s : State} {x : Xfer} (hx : x.Copies n k)
    (hfind : TMap.find (s.stencil cl).entries e = some x) (hbeyond : lsSize x.core ≤ x.ctl.src.toNat)
    (hsuper : x.ctl.super = 0) (hagent : x.by_.agent < 25088) (hlife : (s.ctx x.by_.agent).life = x.by_.life)
    (hphase : (s.ctx x.by_.agent).phase = .running) (hroom : (s.ctx x.by_.agent).pend.length < 8) :
    ∃ (t : State) (c : Ctx), ((Upd.eop x.by_.agent x.by_.seq).apply s).LsOnly t ∧
      { cause := .lsprot, tval := x.ctl.src, engine := true, seq := x.by_.seq } ∈ c.pend ∧
      exec (.chunkFault cl e) s =
        .next ((Upd.ctx x.by_.agent c).apply ((Upd.stencil cl ((t.stencil cl).withEntry e
          { x with faults := x.faults + 1, st := .done, cause := 6 })).apply t)) := by
  let ρ : At s := At.upd ⟨s, .refl⟩ (.eop x.by_.agent x.by_.seq)
  obtain ⟨us, σ, hunits, hread, hlowest, hlocal⟩ := run_chunkUnits_fault (cl := cl) hx hbeyond ρ
  obtain ⟨_, τ, hsome, hwritten⟩ := goes_performSome_local (cl := cl) hx hlocal σ
  have honly := lsOnly_chains.trans hread hwritten
  have hctx : τ.val.ctx x.by_.agent = s.ctx x.by_.agent := by rw [State.ctx, honly]; rfl
  obtain ⟨c, hsettle, hmem⟩ := run_settleFault_alone (cl := cl) (e := e) (f := x.srcFault) (y := x) (σ := τ) hx hsuper
    (by rw [State.stencil, honly]; exact hfind) hagent (by rw [hctx]; exact hlife) (by rw [hctx]; exact hphase)
    (by rw [hctx]; exact hroom)
  refine ⟨τ.val, c, honly, hmem, ?_⟩
  have hrunning : (x.st == .running) = true := by rw [hx.running]; rfl
  have hact : actFor x.by_ (⟨s, .refl⟩ : At s) = .ok () ρ := rfl
  have hbody : chunkFaultBody cl e (⟨s, .refl⟩ : At s) = settleFault cl e x x.srcFault τ := by
    unfold chunkFaultBody
    rw [run_bind_ok (run_st _)]
    dsimp only
    rw [hfind]
    dsimp only
    rw [hrunning, run_bind_ok (run_require _ _), run_bind_ok hact, run_bind_ok hunits, run_bind_ok (hlowest σ)]
    exact run_bind_ok hsome
  exact run_ok (hbody.trans hsettle)

/-- Settles O39: a complete chunk by the elements that it has copied, a faulting one by the fault of its first element. -/
theorem transferChunkResult : Obligations.TransferChunkResult := by
  unfold Obligations.TransferChunkResult
  intro cl e n k s x hfind hlocal
  have hx := copies_of_localCopy hlocal
  refine ⟨fun hfit hclean hseen => ?_, fun hbeyond hsuper hagent hlife hphase hroom => ?_⟩
  · obtain ⟨t, done, hall, hcopied, hexec⟩ := exec_chunkComplete_copy hx hfind hfit hclean hseen
    refine ⟨_, hexec, ?_, hcopied.read_all hx.esize_pos hall, ?_⟩
    · rw [hcopied.only]
      rfl
    · rw [stencil_upd_same]
      exact find_withEntry _ _ _
  · obtain ⟨t, c, honly, hmem, hexec⟩ := exec_chunkFault_copy hx hfind hbeyond hsuper hagent hlife hphase hroom
    refine ⟨_, hexec, ?_, ?_, ?_⟩
    · rw [honly]
      rfl
    · rw [show ∀ u : State, ((Upd.ctx x.by_.agent c).apply u).stencil cl = u.stencil cl from fun _ => rfl, stencil_upd_same,
        find_withEntry]
      rfl
    · rw [ctx_upd_same]
      exact hmem

end Sys2Proof.Machine
end
